-- ==== Sys2Proof/Word.lean ====
section
/-! DEFINITION. The word types of the machine (R10, R13, R26, R59, R67). -/

namespace Sys2Proof

abbrev Byte := BitVec 8
abbrev Word16 := BitVec 16
abbrev Word32 := BitVec 32
abbrev Word64 := BitVec 64

/-- A scalar register number s0 to s63 (R10). -/
abbrev SReg := BitVec 6

/-- One 32-bit word of each of the 32 lanes of a group (R13, R17). -/
abbrev LaneVec := Vector (BitVec 32) 32

end Sys2Proof
end

