-- ==== Sys2Proof/Syntax.lean ====
section
/-! DEFINITION. The syntax of the machine: one constructor of `Instr` for each row of the opcode
table, the instructions and the hardware events alike (R57 to R72, and the file "What each step holds"). -/

namespace Sys2Proof

/-- Who executes a step (R303, R341): a group by package, physical core and wave slot; the MCC stream of a
package's physical cluster (die * 13 + cluster); a control core by die * 8 + index. -/
inductive Agent where
  | group (pkg core slot : Nat)
  | mcc (pkg clu : Nat)
  | ctl (pkg idx : Nat)
deriving DecidableEq, Repr, Inhabited

/-- A unit that a fault record names (R378, R379). -/
inductive FaultUnit where
  | core (phys : Nat)
  | ctlCore (idx : Nat)
  | cluster (clu : Nat)
  | channel (phys : Nat)
  | linkLane (link lane : Nat)
  | link (link : Nat)
deriving DecidableEq, Repr, Inhabited

/-- The fields of a long-space-A instruction (R64). -/
structure LongWord where
  d : SReg
  a : SReg
  b : SReg
  c : SReg
  e : SReg
  scope : BitVec 3
  st : BitVec 1
  rm : BitVec 3
  ty : BitVec 5
  aux : BitVec 8
deriving DecidableEq, Repr, Inhabited

/-- The fields of a long-space-B (tile) instruction (R64, R66). -/
structure TileWord where
  d : SReg
  a : SReg
  b : SReg
  c : SReg
  sn : BitVec 3
  mrow : BitVec 1
  mcol : BitVec 1
  mdep : BitVec 1
  ta : BitVec 1
  tb : BitVec 1
  tya : BitVec 5
  tyb : BitVec 5
  rm : BitVec 3
  aux : BitVec 4
deriving DecidableEq, Repr, Inhabited

/-- The fields of a lane word but its opcode (R67); `dst` is MOD[7] : DST and `md` is MOD[6:4] (R69). -/
structure LaneWord where
  imm : BitVec 32
  msel : BitVec 3
  ty : BitVec 5
  rm : BitVec 3
  c : BitVec 9
  b : BitVec 9
  a : BitVec 9
  dst : BitVec 9
  md : BitVec 3
  rpf : BitVec 4
deriving DecidableEq, Repr, Inhabited

/-- The steps of the part, one constructor per row of the opcode table. -/
inductive Instr where
  /-- `ADD` (R92). -/
  | add (d a b : SReg)
  /-- `SUB` (R92). -/
  | sub (d a b : SReg)
  /-- `MUL` (R92). -/
  | mul (d a b : SReg)
  /-- `MULH` (R92). -/
  | mulh (d a b : SReg)
  /-- `MULHU` (R92). -/
  | mulhu (d a b : SReg)
  /-- `DIV` (R92). -/
  | div (d a b : SReg)
  /-- `DIVU` (R92). -/
  | divu (d a b : SReg)
  /-- `REM` (R92). -/
  | rem (d a b : SReg)
  /-- `REMU` (R92). -/
  | remu (d a b : SReg)
  /-- `SH1ADD` (R92). -/
  | sh1add (d a b : SReg)
  /-- `SH2ADD` (R92). -/
  | sh2add (d a b : SReg)
  /-- `SH3ADD` (R92). -/
  | sh3add (d a b : SReg)
  /-- `AND` (R92). -/
  | and (d a b : SReg)
  /-- `OR` (R92). -/
  | or (d a b : SReg)
  /-- `XOR` (R92). -/
  | xor (d a b : SReg)
  /-- `ANDN` (R92). -/
  | andn (d a b : SReg)
  /-- `SHL` (R92). -/
  | shl (d a b : SReg)
  /-- `SHR` (R92). -/
  | shr (d a b : SReg)
  /-- `SRA` (R92). -/
  | sra (d a b : SReg)
  /-- `ROR` (R92). -/
  | ror (d a b : SReg)
  /-- `SLT` (R92). -/
  | slt (d a b : SReg)
  /-- `SLTU` (R92). -/
  | sltu (d a b : SReg)
  /-- `SEQ` (R92). -/
  | seq (d a b : SReg)
  /-- `MIN` (R92). -/
  | min (d a b : SReg)
  /-- `MAX` (R92). -/
  | max (d a b : SReg)
  /-- `MINU` (R92). -/
  | minu (d a b : SReg)
  /-- `MAXU` (R92). -/
  | maxu (d a b : SReg)
  /-- `CLZ` (R92). -/
  | clz (d a : SReg)
  /-- `CTZ` (R92). -/
  | ctz (d a : SReg)
  /-- `POPC` (R92). -/
  | popc (d a : SReg)
  /-- `ADDI` (R93). -/
  | addi (d a : SReg) (imm : BitVec 14)
  /-- `ANDI` (R93). -/
  | andi (d a : SReg) (imm : BitVec 14)
  /-- `ORI` (R93). -/
  | ori (d a : SReg) (imm : BitVec 14)
  /-- `XORI` (R93). -/
  | xori (d a : SReg) (imm : BitVec 14)
  /-- `SHLI` (R93). -/
  | shli (d a : SReg) (amount : BitVec 6)
  /-- `SHRI` (R93). -/
  | shri (d a : SReg) (amount : BitVec 6)
  /-- `SRAI` (R93). -/
  | srai (d a : SReg) (amount : BitVec 6)
  /-- `MULI` (R93). -/
  | muli (d a : SReg) (imm : BitVec 14)
  /-- `SLTI` (R93). -/
  | slti (d a : SReg) (imm : BitVec 14)
  /-- `SLTIU` (R93). -/
  | sltiu (d a : SReg) (imm : BitVec 14)
  /-- `BFX_I64` (R94). -/
  | bfxI64 (d a : SReg) (len1 pos : BitVec 6)
  /-- `BFX_N64` (R94). -/
  | bfxN64 (d a : SReg) (len1 pos : BitVec 6)
  /-- `BFI` (R94). -/
  | bfi (d a : SReg) (len1 pos : BitVec 6)
  /-- `BEQ` (R95). -/
  | beq (a b : SReg) (off : BitVec 14)
  /-- `BNE` (R95). -/
  | bne (a b : SReg) (off : BitVec 14)
  /-- `BLT` (R95). -/
  | blt (a b : SReg) (off : BitVec 14)
  /-- `BGE` (R95). -/
  | bge (a b : SReg) (off : BitVec 14)
  /-- `BLTU` (R95). -/
  | bltu (a b : SReg) (off : BitVec 14)
  /-- `BGEU` (R95). -/
  | bgeu (a b : SReg) (off : BitVec 14)
  /-- `LOOP` (R96). -/
  | loop (a b : SReg) (off : BitVec 14)
  /-- `J` (R97). -/
  | j (off : BitVec 26)
  /-- `CALL` (R97). -/
  | call (off : BitVec 26)
  /-- `JR` (R97). -/
  | jr (a : SReg) (imm : BitVec 14)
  /-- `CALLR` (R97). -/
  | callr (d a : SReg) (imm : BitVec 14)
  /-- `LDS_I8` (R99). -/
  | ldsI8 (d a : SReg) (imm : BitVec 14)
  /-- `LDS_N8` (R99). -/
  | ldsN8 (d a : SReg) (imm : BitVec 14)
  /-- `LDS_I16` (R99). -/
  | ldsI16 (d a : SReg) (imm : BitVec 14)
  /-- `LDS_N16` (R99). -/
  | ldsN16 (d a : SReg) (imm : BitVec 14)
  /-- `LDS_I32` (R99). -/
  | ldsI32 (d a : SReg) (imm : BitVec 14)
  /-- `LDS_N32` (R99). -/
  | ldsN32 (d a : SReg) (imm : BitVec 14)
  /-- `LDS_N64` (R99). -/
  | ldsN64 (d a : SReg) (imm : BitVec 14)
  /-- `STS_N8` (R99). -/
  | stsN8 (b a : SReg) (imm : BitVec 14)
  /-- `STS_N16` (R99). -/
  | stsN16 (b a : SReg) (imm : BitVec 14)
  /-- `STS_N32` (R99). -/
  | stsN32 (b a : SReg) (imm : BitVec 14)
  /-- `STS_N64` (R99). -/
  | stsN64 (b a : SReg) (imm : BitVec 14)
  /-- `QSET` (R105). -/
  | qset (d a : SReg) (queue fld : BitVec 3)
  /-- `QGO` (R106). -/
  | qgo (a : SReg) (queue : BitVec 3)
  /-- `LRUN` (R110). -/
  | lrun (off : BitVec 26)
  /-- `WAIT` (R112). -/
  | wait (ld st : BitVec 6) (cp tl : BitVec 5)
  /-- `WAITY` (R113). -/
  | waity (ld st : BitVec 6) (cp tl : BitVec 5)
  /-- `MFS` (R114). -/
  | mfs (d : SReg) (num : BitVec 14)
  /-- `MTS` (R116). -/
  | mts (a : SReg) (num : BitVec 14)
  /-- `NOP` (R117). -/
  | nop
  /-- `CYC` (R117). -/
  | cyc (d : SReg)
  /-- `BRK` (R117). -/
  | brk
  /-- `TRAP` (R117). -/
  | trap (a : SReg)
  /-- `TRET` (R348). -/
  | tret
  /-- `HALT` (R118). -/
  | halt
  /-- `EXT` (R60). -/
  | ext (imm : BitVec 26) (next : BitVec 32)
  /-- `FENCE` (R163). -/
  | fence (scope : BitVec 3)
  /-- `BAR_ARR` (R166). -/
  | barArr (a : SReg) (id cnt : BitVec 6)
  /-- `BAR_WAIT` (R166). -/
  | barWait (a : SReg) (id cnt : BitVec 6)
  /-- `BAR_SYNC` (R166). -/
  | barSync (a : SReg) (id cnt : BitVec 6)
  /-- `PHNEW` (R168). -/
  | phnew (d a : SReg)
  /-- `PHFREE` (R168). -/
  | phfree (a : SReg)
  /-- `PHREG` (R169). -/
  | phreg (a b : SReg)
  /-- `PHDROP` (R169). -/
  | phdrop (a : SReg)
  /-- `PHSIG` (R169). -/
  | phsig (a b : SReg)
  /-- `PHWAIT` (R169). -/
  | phwait (d a : SReg)
  /-- `PHSW` (R168). -/
  | phsw (d a b : SReg)
  /-- `ATOM_SHORT` (R154). -/
  | atomShort (d a b : SReg) (code ty : BitVec 4)
  /-- `CHUNK` (R162). -/
  | chunk (d a b : SReg)
  /-- `CPSTEP` (R266). -/
  | cpstep (d : SReg) (imm : BitVec 14)
  /-- `YIELD` (R170). -/
  | yield (off : BitVec 26)
  /-- `RFLUSH` (R218). -/
  | rflush (a : SReg)
  /-- `RQRY_NSEG` (R220). -/
  | rqryNseg (d a : SReg)
  /-- `RQRY_START` (R220). -/
  | rqryStart (d a b : SReg)
  /-- `RQRY_LEN` (R220). -/
  | rqryLen (d a b : SReg)
  /-- `RQRY_TOTAL` (R220). -/
  | rqryTotal (d a : SReg)
  /-- `ATOM_LONG` (R155). -/
  | atomLong (w : LongWord)
  /-- `RED_SCALAR` (R157). -/
  | redScalar (w : LongWord)
  /-- `AMAXRD_SCALAR` (R160). -/
  | amaxrdScalar (w : LongWord)
  /-- `RATOM` (R171). -/
  | ratom (w : LongWord)
  /-- `RREL` (R171). -/
  | rrel (w : LongWord)
  /-- `FENCE_TC` (R175). -/
  | fenceTc (w : LongWord)
  /-- `LAUNCH` (R176). -/
  | launch (w : LongWord)
  /-- `CANCEL` (R178). -/
  | cancel (w : LongWord)
  /-- `CCRD` (R179). -/
  | ccrd (w : LongWord)
  /-- `CCWT` (R179). -/
  | ccwt (w : LongWord)
  /-- `CPY` (R258). -/
  | cpy (w : LongWord)
  /-- `QFENCE` (R267). -/
  | qfence (w : LongWord)
  /-- `COLL` (R269). -/
  | coll (w : LongWord)
  /-- `SEGOF` (R221). -/
  | segof (w : LongWord)
  /-- `RBIND` (R226). -/
  | rbind (w : LongWord)
  /-- `HGIX` (R249). -/
  | hgix (w : LongWord)
  /-- `KICK` (R320). -/
  | kick (w : LongWord)
  /-- `SLEEP` (R120). -/
  | sleep (w : LongWord)
  /-- `WAKE` (R120). -/
  | wake (w : LongWord)
  /-- `TLBINV` (R300). -/
  | tlbinv (w : LongWord)
  /-- `JROOT` (R300). -/
  | jroot (w : LongWord)
  /-- `KBIND` (R300). -/
  | kbind (w : LongWord)
  /-- `MMA` (R194). -/
  | mma (w : TileWord)
  /-- `MMD` (R196). -/
  | mmd (w : TileWord)
  /-- `MZERO` (R200). -/
  | mzero (w : TileWord)
  /-- `WLOAD_IMG` (R199). -/
  | wloadImg (w : TileWord)
  /-- `WLOAD_DENSE` (R199). -/
  | wloadDense (w : TileWord)
  /-- `WUPD` (R207). -/
  | wupd (w : TileWord)
  /-- `ACCST` (R201). -/
  | accst (w : TileWord)
  /-- `ACCLD` (R201). -/
  | accld (w : TileWord)
  /-- `TRED` (R203). -/
  | tred (w : TileWord)
  /-- `TCVT` (R202). -/
  | tcvt (w : TileWord)
  /-- `TNORM` (R204). -/
  | tnorm (w : TileWord)
  /-- `TSMAX` (R205). -/
  | tsmax (w : TileWord)
  /-- `TSYNC` (R186). -/
  | tsync (w : TileWord)
  /-- `FADD` (R126). -/
  | fadd (w : LaneWord)
  /-- `FSUB` (R126). -/
  | fsub (w : LaneWord)
  /-- `FMUL` (R126). -/
  | fmul (w : LaneWord)
  /-- `FFMA` (R126). -/
  | ffma (w : LaneWord)
  /-- `FFMS` (R126). -/
  | ffms (w : LaneWord)
  /-- `FNMA` (R126). -/
  | fnma (w : LaneWord)
  /-- `FNMS` (R126). -/
  | fnms (w : LaneWord)
  /-- `FMIN` (R126). -/
  | fmin (w : LaneWord)
  /-- `FMAX` (R126). -/
  | fmax (w : LaneWord)
  /-- `FMINN` (R126). -/
  | fminn (w : LaneWord)
  /-- `FMAXN` (R126). -/
  | fmaxn (w : LaneWord)
  /-- `FABS` (R126). -/
  | fabs (w : LaneWord)
  /-- `FNEG` (R126). -/
  | fneg (w : LaneWord)
  /-- `FRINT` (R126). -/
  | frint (w : LaneWord)
  /-- `FCMP` (R126). -/
  | fcmp (w : LaneWord)
  /-- `FRCP` (R52). -/
  | frcp (w : LaneWord)
  /-- `FRSQ` (R52). -/
  | frsq (w : LaneWord)
  /-- `FEXP2` (R52). -/
  | fexp2 (w : LaneWord)
  /-- `FLOG2` (R52). -/
  | flog2 (w : LaneWord)
  /-- `IADD` (R127). -/
  | iadd (w : LaneWord)
  /-- `ISUB` (R127). -/
  | isub (w : LaneWord)
  /-- `IMUL` (R127). -/
  | imul (w : LaneWord)
  /-- `IMULH` (R127). -/
  | imulh (w : LaneWord)
  /-- `IMAD` (R127). -/
  | imad (w : LaneWord)
  /-- `IADDS` (R127). -/
  | iadds (w : LaneWord)
  /-- `ISUBS` (R127). -/
  | isubs (w : LaneWord)
  /-- `IMIN` (R127). -/
  | imin (w : LaneWord)
  /-- `IMAX` (R127). -/
  | imax (w : LaneWord)
  /-- `IAND` (R127). -/
  | iand (w : LaneWord)
  /-- `IOR` (R127). -/
  | ior (w : LaneWord)
  /-- `IXOR` (R127). -/
  | ixor (w : LaneWord)
  /-- `IANDN` (R127). -/
  | iandn (w : LaneWord)
  /-- `ISHL` (R127). -/
  | ishl (w : LaneWord)
  /-- `ISHR` (R127). -/
  | ishr (w : LaneWord)
  /-- `IROR` (R127). -/
  | iror (w : LaneWord)
  /-- `IPOPC` (R127). -/
  | ipopc (w : LaneWord)
  /-- `ICLZ` (R127). -/
  | iclz (w : LaneWord)
  /-- `ICMP` (R127). -/
  | icmp (w : LaneWord)
  /-- `CVT` (R128). -/
  | cvt (w : LaneWord)
  /-- `PKN` (R129). -/
  | pkn (w : LaneWord)
  /-- `PKB` (R129). -/
  | pkb (w : LaneWord)
  /-- `PKH` (R129). -/
  | pkh (w : LaneWord)
  /-- `UPN` (R129). -/
  | upn (w : LaneWord)
  /-- `UPB` (R129). -/
  | upb (w : LaneWord)
  /-- `UPH` (R129). -/
  | uph (w : LaneWord)
  /-- `MOV` (R130). -/
  | mov (w : LaneWord)
  /-- `SEL` (R130). -/
  | sel (w : LaneWord)
  /-- `SHFL_IDX` (R131). -/
  | shflIdx (w : LaneWord)
  /-- `SHFL_UP` (R131). -/
  | shflUp (w : LaneWord)
  /-- `SHFL_DN` (R131). -/
  | shflDn (w : LaneWord)
  /-- `SHFL_XOR` (R131). -/
  | shflXor (w : LaneWord)
  /-- `BCST` (R130). -/
  | bcst (w : LaneWord)
  /-- `MSET` (R130). -/
  | mset (w : LaneWord)
  /-- `MAND` (R132). -/
  | mand (w : LaneWord)
  /-- `MOR` (R132). -/
  | mor (w : LaneWord)
  /-- `MXOR` (R132). -/
  | mxor (w : LaneWord)
  /-- `MANDN` (R132). -/
  | mandn (w : LaneWord)
  /-- `VANY` (R133). -/
  | vany (w : LaneWord)
  /-- `VALL` (R133). -/
  | vall (w : LaneWord)
  /-- `VBAL` (R133). -/
  | vbal (w : LaneWord)
  /-- `GRED` (R56). -/
  | gred (op : BitVec 3) (w : LaneWord)
  /-- `SCAN` (R133). -/
  | scan (op : BitVec 3) (w : LaneWord)
  /-- `SCANX` (R133). -/
  | scanx (op : BitVec 3) (w : LaneWord)
  /-- `BRL` (R136). -/
  | brl (w : LaneWord)
  /-- `BRLN` (R136). -/
  | brln (w : LaneWord)
  /-- `JOINL` (R137). -/
  | joinl (w : LaneWord)
  /-- `LRET` (R138). -/
  | lret (w : LaneWord)
  /-- `EXIT` (R138). -/
  | exit (w : LaneWord)
  /-- `REP` (R139). -/
  | rep (n stride : BitVec 8) (adv : BitVec 4) (next : BitVec 96)
  /-- `LDL` (R141). -/
  | ldl (w : LaneWord)
  /-- `LDT` (R145). -/
  | ldt (w : LaneWord)
  /-- `STL` (R144). -/
  | stl (w : LaneWord)
  /-- `STT` (R149). -/
  | stt (w : LaneWord)
  /-- `STT_WAIT` (R149). -/
  | sttWait (w : LaneWord)
  /-- `LDA` (R150). -/
  | lda (w : LaneWord)
  /-- `ATOM_LANE` (R156). -/
  | atomLane (op : BitVec 3) (w : LaneWord)
  /-- `RED_LANE` (R157). -/
  | redLane (op : BitVec 3) (w : LaneWord)
  /-- `AMAXRD_LANE` (R160). -/
  | amaxrdLane (w : LaneWord)
  /-- `SEGL` (R228). -/
  | segl (w : LaneWord)
  /-- `SEGB` (R228). -/
  | segb (w : LaneWord)
  /-- `GREDS` (R229). -/
  | greds (op : BitVec 3) (w : LaneWord)
  /-- `HGLD` (R243). -/
  | hgld (w : LaneWord)
  /-- `HGSC` (R245). -/
  | hgsc (w : LaneWord)
  /-- `POWER_ON_RESET` (R384). -/
  | powerOnReset (pkg : Nat)
  /-- `PACKAGE_RESET` (R384). -/
  | packageReset (pkg : Nat)
  /-- `LOAD_DATA_RETURN` (R88). -/
  | loadDataReturn (ag : Agent) (k : Nat)
  /-- `STORE_ACKNOWLEDGE` (R18). -/
  | storeAcknowledge (ag : Agent) (k : Nat)
  /-- `TRAP_ENTRY` (R347). -/
  | trapEntry (ag : Agent)
  /-- `MACHINE_EVENT` (R342). -/
  | machineEvent (ag : Agent)
  /-- `PREEMPT_TRAP` (R343). -/
  | preemptTrap (ag : Agent)
  /-- `SEGMENT_BEGIN` (R111). -/
  | segmentBegin (ag : Agent)
  /-- `AAE_PUSH` (R107). -/
  | aaePush (ag : Agent) (queue : BitVec 3)
  /-- `L1_EVICTION` (R158). -/
  | l1Eviction (pkg core line : Nat)
  /-- `L1_LINE_EXPIRE` (R308). -/
  | l1LineExpire (pkg core line : Nat)
  /-- `REMOTE_ITEM_STATUS` (R172). -/
  | remoteItemStatus (item : Nat)
  /-- `REMOTE_RELEASE_PERFORM` (R173). -/
  | remoteReleasePerform (item : Nat)
  /-- `ITEM_START` (R253). -/
  | itemStart (item : Nat)
  /-- `ITEM_SOURCE_REUSABLE` (R252). -/
  | itemSourceReusable (item : Nat)
  /-- `ITEM_VISIBLE` (R252). -/
  | itemVisible (item : Nat)
  /-- `COLLECTIVE_ARRIVAL` (R270). -/
  | collectiveArrival (item : Nat)
  /-- `SWITCH_ARRIVAL` (R274). -/
  | switchArrival (item : Nat)
  /-- `SWITCH_SLOT_DEADLINE` (R275). -/
  | switchSlotDeadline (panel slot : Nat)
  /-- `LEASE_RECLAIM` (R279). -/
  | leaseReclaim (pkg handle : Nat)
  /-- `TILE_OP_ARRIVAL` (R185). -/
  | tileOpArrival (ag : Agent)
  /-- `TILE_STEP` (R208). -/
  | tileStep (pkg clu : Nat) (stream : BitVec 3)
  /-- `TILE_OP_COMPLETE` (R186). -/
  | tileOpComplete (pkg clu : Nat) (stream : BitVec 3)
  /-- `RING_ENTRY_SKIP` (R319). -/
  | ringEntrySkip (pkg queue : Nat)
  /-- `RING_ENTRY_LAUNCH` (R321). -/
  | ringEntryLaunch (pkg queue : Nat)
  /-- `RING_ENTRY_COPY` (R321). -/
  | ringEntryCopy (pkg queue : Nat)
  /-- `RING_ENTRY_GATE` (R319). -/
  | ringEntryGate (pkg queue : Nat)
  /-- `ITEM_ELIGIBLE` (R327). -/
  | itemEligible (pkg queue : Nat)
  /-- `DISTRIBUTOR_SELECT` (R329). -/
  | distributorSelect (pkg : Nat)
  /-- `BLOCK_PLACE` (R333). -/
  | blockPlace (pkg queue : Nat)
  /-- `GANG_PLACE` (R181). -/
  | gangPlace (pkg queue : Nat)
  /-- `BLOCK_END` (R326). -/
  | blockEnd (block : Nat)
  /-- `GROUP_ELIGIBLE` (R335). -/
  | groupEligible (ag : Agent)
  /-- `ACTIVE_WAIT_SWAP` (R335). -/
  | activeWaitSwap (active pending : Agent)
  /-- `PENDING_READY_SWAP` (R335). -/
  | pendingReadySwap (active pending : Agent)
  /-- `PREEMPT_DECISION` (R351). -/
  | preemptDecision (pkg queue : Nat)
  /-- `HEAD_RESERVE` (R331). -/
  | headReserve (pkg queue : Nat)
  /-- `DRAIN_FALLBACK` (R352). -/
  | drainFallback (block : Nat)
  /-- `SAVE` (R354). -/
  | save (block : Nat)
  /-- `FLUSH_AND_RESTART` (R355). -/
  | flushAndRestart (block : Nat)
  /-- `IMAGE_RESUME` (R362). -/
  | imageResume (pkg core slot : Nat)
  /-- `HEARTBEAT_SEND` (R371). -/
  | heartbeatSend (pkg : Nat)
  /-- `LOSS_DECLARE` (R372). -/
  | lossDeclare (die pkg : Nat)
  /-- `LOSS_NOTICE_APPLY` (R374). -/
  | lossNoticeApply (pkg : Nat)
  /-- `PACKAGE_SELF_FENCE` (R373). -/
  | packageSelfFence (pkg : Nat)
  /-- `DIRECTORY_REBUILD` (R376). -/
  | directoryRebuild (pkg : Nat)
  /-- `LANE_FAILURE` (R369). -/
  | laneFailure (pkg link lane : Nat)
  /-- `LINK_RETRAIN_COMPLETE` (R369). -/
  | linkRetrainComplete (pkg link : Nat)
  /-- `CLOCK_STEP_DOWN` (R392). -/
  | clockStepDown (pkg : Nat)
  /-- `CLOCK_STEP_UP` (R392). -/
  | clockStepUp (pkg : Nat)
  /-- `THERMAL_FENCE` (R393). -/
  | thermalFence (pkg : Nat)
  /-- `PANEL_RESET` (R384). -/
  | panelReset (panel : Nat)
  /-- `GO_RELEASE` (R387). -/
  | goRelease (pkg : Nat)
  /-- `LOADKEY` (R390). -/
  | loadkey (pkg : Nat)
  /-- `ATTEST` (R390). -/
  | attest (pkg : Nat)
  /-- `IBKEL_READ_STATUS` (R391). -/
  | ibkelReadStatus (pkg : Nat)
  /-- `IBKEL_WRITE_FIRMWARE` (R391). -/
  | ibkelWriteFirmware (pkg : Nat) (version : Nat) (image : List Byte)
  /-- `IBKEL_RESET_REQUEST` (R391). -/
  | ibkelResetRequest (pkg : Nat)
  /-- `IBKEL_RETIRE_REQUEST` (R391). -/
  | ibkelRetireRequest (pkg : Nat) (unit : FaultUnit)
  /-- `IBKEL_PROVISION_KEK` (R391). -/
  | ibkelProvisionKek (pkg : Nat) (key : Nat)
  /-- `IBKEL_SET_WATCHPOINT` (R391). -/
  | ibkelSetWatchpoint (pkg core : Nat) (lo hi : BitVec 64) (reads writes : Bool)
  /-- `REMOTE_ITEM_PERFORM` (R172). -/
  | remoteItemPerform (item : Nat)
  /-- `DESTINATION_LINE_FULL` (R263). -/
  | destinationLineFull (item line : Nat)
  /-- `BAD_COMMAND` (R390). -/
  | badCommand (pkg : Nat)
  /-- `RING_ENTRY_FAILURE` (R321). -/
  | ringEntryFailure (pkg queue : Nat)
deriving DecidableEq, Repr, Inhabited

end Sys2Proof
end

