-- ==== Sys2Proof/WellFormed.lean ====
section
/-! DEFINITION. Which instructions an encoding can name: the reserved fields, accepted types and selectors of every
entry (R58, R59 to R72, R92 to R94, R105, R114, R124 to R134, R140 to R148, R151 to R157, R191, R228, R242). -/

namespace Sys2Proof

/-- A type code of 64-bit elements: `.f64`, `.i64`, `.n64` (R35, R123). -/
def tyIs64 (t : BitVec 5) : Bool := t == 0 || t == 8 || t == 12

/-- `.f64`, `.f32`, `.f16`, `.bf16` (R125). -/
def tyFloat4 (t : BitVec 5) : Bool := t == 0 || t == 1 || t == 3 || t == 4

/-- `.i32`, `.n32`, `.i64`, `.n64` (R127). -/
def tyInt4 (t : BitVec 5) : Bool := t == 7 || t == 8 || t == 11 || t == 12

/-- `.fs0` to `.fs15` (R35). -/
def tySlot (t : BitVec 5) : Bool := 16 ≤ t.toNat

/-- Every type code but `.t32`, `.pg` and the reserved ones (R128). -/
def tyCvt (t : BitVec 5) : Bool := t != 2 && t != 13 && t != 14 && t != 15

/-- The types of lane loads and stores (R141, R143). -/
def tyMem (t : BitVec 5) : Bool := t != 2 && t != 14 && t != 15

/-- Integer and FP32, FP64 types of atomics (R152). -/
def tyAtom (t : BitVec 5) : Bool := tyInt4 t || t == 1 || t == 0

/-- The types an atomic operation code accepts (R151, R152). -/
def atomTyOk (code : Nat) (t : BitVec 5) : Bool :=
  if code = 1 || code = 2 || code = 3 then tyInt4 t else code < 8 && tyAtom t

/-- The types a reduction code accepts (R151, R152, R157). -/
def redTyOk (code : Nat) (t : BitVec 5) : Bool :=
  match code with
  | 0 => tyAtom t || t == 3 || t == 4 || t == 13 || tySlot t
  | 1 | 2 => tyAtom t
  | 3 | 4 | 5 => tyInt4 t
  | 6 => t == 1
  | _ => false

/-- The type named by the 4-bit type field of the short `ATOM` (R154). -/
def atomShortTy (ty : BitVec 4) : BitVec 5 :=
  match ty.toNat with
  | 0 => 7 | 1 => 11 | 2 => 8 | 3 => 12 | 4 => 1 | _ => 0

/-- The types of `GRED`, `SCAN` and `GREDS` by operator (R133). -/
def gredTyOk (op : BitVec 3) (t : BitVec 5) : Bool :=
  match op.toNat with
  | 0 | 1 | 2 => tyFloat4 t || tyInt4 t
  | 3 | 4 | 5 => tyInt4 t
  | _ => false

/-- The rounding field of `GRED`, `SCAN` and `GREDS`: any for a floating `.add`, else 0 (R133). -/
def gredRmOk (op : BitVec 3) (t : BitVec 5) (rm : BitVec 3) : Bool :=
  if op == 0 && tyFloat4 t then rm.toNat < 6 else rm == 0

/-- A number of an accepted `MFS` (R114). -/
def mfsOk (n : Nat) : Bool := (1 ≤ n && n ≤ 0x0E) || (0x10 ≤ n && n ≤ 0x17) || (0x40 ≤ n && n ≤ 0x4F)

/-- A number of an accepted `MTS` (R114). -/
def mtsOk (n : Nat) : Bool := n == 0x0E || (0x10 ≤ n && n ≤ 0x17) || (0x40 ≤ n && n ≤ 0x4F)

namespace LaneWord

/-- A source selector with an operand (R68); a 64-bit one names an even register and no queue (R13, R123). -/
def srcOk (wide : Bool) (x : BitVec 9) : Bool :=
  if x.toNat < 0x110 then !wide || x.toNat % 2 = 0
  else if x.toNat < 0x120 then !wide
  else x.toNat ≤ 0x122

/-- A v register selector. -/
def isV (x : BitVec 9) : Bool := x.toNat < 0x100

/-- A k register or imm32, as a handle operand must be (R228, R242). -/
def isKOrImm (x : BitVec 9) : Bool := (0x100 ≤ x.toNat && x.toNat < 0x110) || x == 0x120

/-- imm32 is zero unless a read selector names it (R67). -/
def immOk (w : LaneWord) (used : List (BitVec 9)) : Bool := w.imm == 0 || used.any (· == 0x120)

/-- A lane register destination (R69), even for a 64-bit result (R13). -/
def dstV (w : LaneWord) (wide : Bool) : Bool := w.dst.toNat < 0x100 && (!wide || w.dst.toNat % 2 = 0)

/-- A mask destination m1 to m7 (R69). -/
def dstM (w : LaneWord) : Bool := 1 ≤ w.dst.toNat && w.dst.toNat < 8

/-- The sources of a form that reads its first `n` operands, each of one width; the others are reserved (R68). -/
def srcs (w : LaneWord) (n : Nat) (wide : Bool) : Bool :=
  srcOk wide w.a && (if n < 2 then w.b == 0 else srcOk wide w.b) && (if n < 3 then w.c == 0 else srcOk wide w.c) &&
    w.immOk ((if n < 2 then [w.a] else if n < 3 then [w.a, w.b] else [w.a, w.b, w.c]))

/-- Floating arithmetic under any rounding (R125). -/
def fltOk (w : LaneWord) (n : Nat) : Bool :=
  tyFloat4 w.ty && w.rm.toNat < 6 && w.srcs n (tyIs64 w.ty) && w.dstV (tyIs64 w.ty) && w.md == 0 && w.rpf == 0

/-- Floating forms without rounding (R125). -/
def flt0Ok (w : LaneWord) (n : Nat) : Bool := w.rm == 0 && w.fltOk n

/-- The approximate functions (R125). -/
def approxOk (w : LaneWord) : Bool := w.ty == 1 && w.flt0Ok 1

/-- Integer forms (R127). -/
def intOk (w : LaneWord) (n : Nat) : Bool :=
  tyInt4 w.ty && w.rm == 0 && w.srcs n (tyIs64 w.ty) && w.dstV (tyIs64 w.ty) && w.md == 0 && w.rpf == 0

/-- Compares into a mask (R126, R127). -/
def cmpOk (w : LaneWord) : Bool := w.rm == 0 && w.srcs 2 (tyIs64 w.ty) && w.dstM && w.rpf == 0

/-- Forms without a type (R124): `n` 32-bit sources and a lane destination. -/
def plainOk (w : LaneWord) (n : Nat) : Bool :=
  w.ty == 0 && w.rm == 0 && w.srcs n false && w.dstV false && w.rpf == 0

/-- The conversion (R128). -/
def cvtOk (w : LaneWord) : Bool :=
  let st := w.imm.extractLsb' 0 5
  tyCvt w.ty && tyCvt st && w.imm.toNat < 32 && w.rm.toNat < 6 && w.a != 0x120 && srcOk (tyIs64 st) w.a &&
    w.b == 0 && w.c == 0 && w.dstV (tyIs64 w.ty) && w.md == 0 && w.rpf == 0

/-- Moves and selection (R130): types `.n32` and `.n64`. -/
def moveOk (w : LaneWord) (n : Nat) : Bool :=
  (w.ty == 11 || w.ty == 12) && w.rm == 0 && w.srcs n (tyIs64 w.ty) && w.dstV (tyIs64 w.ty) && w.rpf == 0

/-- The shuffles: operand B is 32 bits wide whatever the type (R131). -/
def shflOk (w : LaneWord) : Bool :=
  (w.ty == 11 || w.ty == 12) && w.rm == 0 && srcOk (tyIs64 w.ty) w.a && srcOk false w.b && w.c == 0 &&
    w.immOk [w.a, w.b] && w.dstV (tyIs64 w.ty) && w.md == 0 && w.rpf == 0

/-- The mask forms (R132). -/
def maskOk (w : LaneWord) : Bool :=
  w.ty == 0 && w.rm == 0 && w.a.toNat < 8 && w.b.toNat < 8 && w.c == 0 && w.imm == 0 && w.dstM && w.md == 0 && w.rpf == 0

/-- `GRED`, `SCAN`, `SCANX` (R133). -/
def gredOk (w : LaneWord) (op : BitVec 3) : Bool :=
  gredTyOk op w.ty && gredRmOk op w.ty w.rm && w.srcs 1 (tyIs64 w.ty) && w.dstV (tyIs64 w.ty) && w.rpf == 0

/-- `GREDS`: operand B is a v register or a queue (R229). -/
def gredsOk (w : LaneWord) (op : BitVec 3) : Bool :=
  gredTyOk op w.ty && gredRmOk op w.ty w.rm && srcOk (tyIs64 w.ty) w.a && (isV w.b || (0x110 ≤ w.b.toNat && w.b.toNat < 0x120)) &&
    w.c == 0 && w.immOk [w.a] && w.dstV (tyIs64 w.ty) && w.md == 0 && w.rpf == 0

/-- A lane control form: everything but its mask number and immediate is zero (R134). -/
def ctlOk (w : LaneWord) : Bool :=
  w.msel == 0 && w.ty == 0 && w.rm == 0 && w.a == 0 && w.b == 0 && w.c == 0 && w.dst == 0 && w.rpf == 0

/-- The base and index of a lane memory form (R141): MOD[4] IDX, MOD[5] SX, MOD[6] SC. -/
def addrOk (w : LaneWord) : Bool :=
  w.a.toNat < 0x110 && w.a.toNat % 2 = 0 &&
    (if w.md.getLsbD 0 then w.b.toNat < 0x110 || w.b == 0x121 else w.b == 0 && w.md == 0) && w.rpf == 0

/-- `LDL` and `LDT` (R141, R143). -/
def loadOk (w : LaneWord) : Bool := w.addrOk && tyMem w.ty && w.rm == 0 && w.c == 0 && w.dstV (tyIs64 w.ty)

/-- `STL` (R143): a rounding code only for `.fsN` and `.pg`. -/
def storeOk (w : LaneWord) : Bool :=
  w.addrOk && tyMem w.ty && (if w.ty == 13 || tySlot w.ty then w.rm.toNat < 6 else w.rm == 0) &&
    srcOk (tyIs64 w.ty) w.c && w.dst == 0

/-- The offset operand of `STT` and `LDA` (R148). -/
def offsetOk (w : LaneWord) : Bool := isV w.a || isKOrImm w.a

/-- `STT` and `STT.wait` but for MOD (R148, R149). -/
def sttOk (w : LaneWord) : Bool :=
  w.offsetOk && w.ty == 0 && w.rm == 0 && w.b == 0 && srcOk false w.c && w.immOk [w.a, w.c] && w.dst == 0 && w.rpf == 0

/-- `LDA` (R148, R150). -/
def ldaOk (w : LaneWord) : Bool :=
  w.offsetOk && w.ty == 0 && w.rm == 0 && w.b == 0 && w.c == 0 && w.immOk [w.a] && w.dstV false && w.md == 0 && w.rpf == 0

/-- Lane atomics (R156). -/
def atomOk (w : LaneWord) (op : BitVec 3) : Bool :=
  w.addrOk && atomTyOk op.toNat w.ty && w.rm == 0 && srcOk (tyIs64 w.ty) w.c && w.dstV (tyIs64 w.ty)

/-- Lane reductions (R157). -/
def redOk (w : LaneWord) (op : BitVec 3) : Bool :=
  w.addrOk && redTyOk op.toNat w.ty && w.rm == 0 && srcOk (tyIs64 w.ty) w.c && w.dst == 0

/-- Lane `AMAXRD` (R160). -/
def amaxrdOk (w : LaneWord) : Bool := w.addrOk && w.ty == 1 && w.rm == 0 && w.c == 0 && w.dstV false

/-- `SEGL` and `SEGB` (R228). -/
def segOk (w : LaneWord) : Bool :=
  w.ty == 0 && w.rm == 0 && srcOk false w.a && isKOrImm w.b && w.c == 0 && w.immOk [w.a, w.b] && w.dstV false && w.md == 0 && w.rpf == 0

/-- `HGLD` and `HGSC` but for their destination and gradient fields (R242). -/
def hgOk (w : LaneWord) : Bool :=
  w.ty == 0 && w.rm == 0 && w.md == 0 && isV w.a && isKOrImm w.b && w.immOk [w.b] && w.rpf == 0

end LaneWord

namespace LongWord

/-- Only the named fields may be nonzero (R58). -/
def only (w : LongWord) (d a b c e : Bool) : Bool :=
  (d || w.d == 0) && (a || w.a == 0) && (b || w.b == 0) && (c || w.c == 0) && (e || w.e == 0)

/-- No scope, status, rounding or type (R64). -/
def bare (w : LongWord) : Bool := w.scope == 0 && w.st == 0 && w.rm == 0 && w.ty == 0

/-- The operation code AUX[7:4] of the atomic families (R155, R157, R171). -/
def code (w : LongWord) : Nat := w.aux.toNat / 16

/-- The ordering code AUX[3:2] (R155). -/
def order (w : LongWord) : Nat := w.aux.toNat / 4 % 4

/-- The e field names a register only in the status form (R171, R258). -/
def statusOk (w : LongWord) : Bool := w.st == 1 || w.e == 0

/-- A scope of items: `.pkg`, `.pan` or `.sys` (R171). -/
def itemScope (w : LongWord) : Bool := 3 ≤ w.scope.toNat && w.scope.toNat < 6

/-- The forms and types that `COLL` has; R270 gives a combination of them outside R269 another trap (R35, R269; log entry 25,
DEDUCED). DEDUCED: log entry 25. -/
def collOk (w : LongWord) : Bool :=
  w.only false true false false true && w.statusOk && w.rm == 0 && (w.scope == 4 || w.scope == 5) && w.aux.toNat / 8 % 8 ≤ 4 && tyCvt w.ty

/-- The bound dimensions of `RBIND` (R226): an origin field not named is reserved. -/
def rbindOk (w : LongWord) : Bool :=
  w.bare && w.d == 0 && w.aux.toNat < 64 && (w.aux.getLsbD 3 || w.b == 0) && (w.aux.getLsbD 4 || w.c == 0) && (w.aux.getLsbD 5 || w.e == 0)

end LongWord

namespace TileWord

/-- Types of matrix operands (R194). -/
def matTy (t : BitVec 5) : Bool := t == 2 || t == 3 || t == 4 || t == 5 || t == 9 || tySlot t

/-- An integer matrix type (R55). -/
def matInt (t : BitVec 5) : Bool := t == 5 || t == 9

/-- The flags [22:18] an entry allows (R191). -/
def flags (w : TileWord) (mr mc mk ta tb : Bool) : Bool :=
  (mr || w.mrow == 0) && (mc || w.mcol == 0) && (mk || w.mdep == 0) && (ta || w.ta == 0) && (tb || w.tb == 0)

/-- No types (R191). -/
def untyped (w : TileWord) : Bool := w.tya == 0 && w.tyb == 0

/-- The types of `ACCST` and `ACCLD` by INT (R201). -/
def accTyOk (w : TileWord) : Bool :=
  if w.aux == 1 then w.tya == 7 else w.aux == 0 && (w.tya == 1 || w.tya == 3 || w.tya == 4 || w.tya == 7 || w.tya == 13 || tySlot w.tya)

end TileWord

/-- An instruction that some encoding names (R58, R72); hardware events have no encoding. -/
def Instr.wf : Instr → Bool
  | .add _ _ _ => true
  | .sub _ _ _ => true
  | .mul _ _ _ => true
  | .mulh _ _ _ => true
  | .mulhu _ _ _ => true
  | .div _ _ _ => true
  | .divu _ _ _ => true
  | .rem _ _ _ => true
  | .remu _ _ _ => true
  | .sh1add _ _ _ => true
  | .sh2add _ _ _ => true
  | .sh3add _ _ _ => true
  | .and _ _ _ => true
  | .or _ _ _ => true
  | .xor _ _ _ => true
  | .andn _ _ _ => true
  | .shl _ _ _ => true
  | .shr _ _ _ => true
  | .sra _ _ _ => true
  | .ror _ _ _ => true
  | .slt _ _ _ => true
  | .sltu _ _ _ => true
  | .seq _ _ _ => true
  | .min _ _ _ => true
  | .max _ _ _ => true
  | .minu _ _ _ => true
  | .maxu _ _ _ => true
  | .clz _ _ => true
  | .ctz _ _ => true
  | .popc _ _ => true
  | .addi _ _ _ => true
  | .andi _ _ _ => true
  | .ori _ _ _ => true
  | .xori _ _ _ => true
  | .shli _ _ _ => true
  | .shri _ _ _ => true
  | .srai _ _ _ => true
  | .muli _ _ _ => true
  | .slti _ _ _ => true
  | .sltiu _ _ _ => true
  | .bfxI64 _ _ len1 pos => pos.toNat + len1.toNat < 64
  | .bfxN64 _ _ len1 pos => pos.toNat + len1.toNat < 64
  | .bfi _ _ len1 pos => pos.toNat + len1.toNat < 64
  | .beq _ _ _ => true
  | .bne _ _ _ => true
  | .blt _ _ _ => true
  | .bge _ _ _ => true
  | .bltu _ _ _ => true
  | .bgeu _ _ _ => true
  | .loop _ _ _ => true
  | .j _ => true
  | .call _ => true
  | .jr _ _ => true
  | .callr _ _ _ => true
  | .ldsI8 _ _ _ => true
  | .ldsN8 _ _ _ => true
  | .ldsI16 _ _ _ => true
  | .ldsN16 _ _ _ => true
  | .ldsI32 _ _ _ => true
  | .ldsN32 _ _ _ => true
  | .ldsN64 _ _ _ => true
  | .stsN8 _ _ _ => true
  | .stsN16 _ _ _ => true
  | .stsN32 _ _ _ => true
  | .stsN64 _ _ _ => true
  | .qset d _ _ fld => fld.toNat < 6 || (fld == 6 && d == 0)
  | .qgo _ _ => true
  | .lrun _ => true
  | .wait _ _ _ _ => true
  | .waity _ _ _ _ => true
  | .mfs _ _ => true
  | .mts _ _ => true
  | .nop => true
  | .cyc _ => true
  | .brk => true
  | .trap _ => true
  | .tret => true
  | .halt => true
  | .ext _ _ => true
  | .fence scope => scope.toNat < 6
  | .barArr a id cnt => id.toNat < 48 && (cnt == 0 || a == 0)
  | .barWait a id cnt => id.toNat < 48 && (cnt == 0 || a == 0)
  | .barSync a id cnt => id.toNat < 48 && (cnt == 0 || a == 0)
  | .phnew _ _ => true
  | .phfree _ => true
  | .phreg _ _ => true
  | .phdrop _ => true
  | .phsig _ _ => true
  | .phwait _ _ => true
  | .phsw _ _ _ => true
  | .atomShort _ _ _ code ty => ty.toNat < 6 && atomTyOk code.toNat (atomShortTy ty)
  | .chunk _ _ _ => true
  | .cpstep _ _ => true
  | .yield _ => true
  | .rflush _ => true
  | .rqryNseg _ _ => true
  | .rqryStart _ _ _ => true
  | .rqryLen _ _ _ => true
  | .rqryTotal _ _ => true
  | .atomLong w => w.only true true true true false && w.scope.toNat < 6 && w.st == 0 && w.rm == 0 && w.aux.toNat % 4 = 0 && atomTyOk w.code w.ty
  | .redScalar w => w.only false true true false false && w.scope.toNat < 6 && w.st == 0 && w.rm == 0 && w.aux.toNat % 16 = 0 && redTyOk w.code w.ty
  | .amaxrdScalar w => w.only true true false false false && w.scope == 0 && w.st == 0 && w.rm == 0 && w.ty == 1 && w.aux == 0
  | .ratom w => w.only true true true (w.code == 7) true && w.statusOk && w.itemScope && w.rm == 0 && w.aux.toNat % 4 = 0 && atomTyOk w.code w.ty
  | .rrel w => w.only false true true false true && w.statusOk && w.itemScope && w.rm == 0 && w.aux == 0 && tyAtom w.ty
  | .fenceTc w => w.only (w.st == 1) false false false false && w.scope == 0 && w.rm == 0 && w.ty == 0 && w.aux == 0
  | .launch w => w.only false true false false false && w.bare && w.aux == 0
  | .cancel w => w.only true true false false false && w.bare && w.aux.toNat < 4
  | .ccrd w => w.only true true false false false && w.bare && w.aux == 0
  | .ccwt w => w.only false true true false false && w.bare && w.aux == 0
  | .cpy w => w.only false true false false true && w.statusOk && w.scope.toNat < 6 && w.rm == 0 && w.ty == 0 && w.aux.toNat < 8
  | .qfence w => w.only false false false false false && w.bare && w.aux != 0
  | .coll w => w.collOk
  | .segof w => w.only true true true false true && w.bare && w.aux == 0
  | .rbind w => w.rbindOk
  | .hgix w => w.only true true true true true && w.bare && w.aux == 0
  | .kick w => w.only false true false false false && w.bare && w.aux == 0
  | .sleep w => w.only false false false false false && w.bare && w.aux == 0
  | .wake w => w.only false true false false false && w.bare && w.aux == 0
  | .tlbinv w => w.only false true true false false && (w.scope == 3 || w.scope == 4) && w.st == 0 && w.rm == 0 && w.ty == 0 && w.aux.toNat < 3
  | .jroot w => w.only false true true false false && w.bare && w.aux == 0
  | .kbind w => w.only false true true false false && w.bare && w.aux == 0
  | .mma w => TileWord.matTy w.tya && TileWord.matTy w.tyb && TileWord.matInt w.tya == TileWord.matInt w.tyb && w.rm == 0 && w.aux.toNat % 8 < 2
  | .mmd w => TileWord.matTy w.tya && TileWord.matTy w.tyb && !TileWord.matInt w.tya && !TileWord.matInt w.tyb && w.flags true true true false false && w.d.toNat % 2 = 0 && w.a.toNat % 2 = 0 && w.rm == 0 && w.aux.toNat % 8 < 2
  | .mzero w => w.a == 0 && w.b == 0 && w.flags true true false false false && w.untyped && w.rm == 0 && w.aux == 0
  | .wloadImg w => w.flags false false false false false && w.untyped && w.rm == 0 && w.aux == 0
  | .wloadDense w => w.flags false false false false true && w.tya == 0 && TileWord.matTy w.tyb && w.rm == 0 && w.aux == 1
  | .wupd w => w.flags false false false false false && (w.tya == 1 || w.tya == 3 || w.tya == 4) && w.tyb == 0 && w.rm == 0 && w.aux.toNat < 3
  | .accst w => w.flags true true false false false && w.accTyOk && w.tyb == 0 && w.rm.toNat < 6
  | .accld w => w.flags true true false false false && w.accTyOk && w.tyb == 0 && w.rm.toNat < 6
  | .tred w => w.b == 0 && w.flags true true false false false && w.untyped && w.rm == 0
  | .tcvt w => w.flags true true false false false && (w.tya == 13 || tySlot w.tya) && w.tyb == 0 && w.rm.toNat < 6 && w.aux == 0
  | .tnorm w => w.flags true true false false false && w.untyped && w.rm == 0 && w.aux.toNat % 8 < 2
  | .tsmax w => w.flags true true false false false && w.untyped && w.rm == 0 && w.aux.toNat % 8 = 0
  | .tsync w => w.d == 0 && w.b == 0 && w.c == 0 && w.flags false false false false false && w.untyped && w.rm == 0 && w.aux == 0
  | .fadd w => w.fltOk 2
  | .fsub w => w.fltOk 2
  | .fmul w => w.fltOk 2
  | .ffma w => w.fltOk 3
  | .ffms w => w.fltOk 3
  | .fnma w => w.fltOk 3
  | .fnms w => w.fltOk 3
  | .fmin w => w.flt0Ok 2
  | .fmax w => w.flt0Ok 2
  | .fminn w => w.flt0Ok 2
  | .fmaxn w => w.flt0Ok 2
  | .fabs w => w.flt0Ok 1
  | .fneg w => w.flt0Ok 1
  | .frint w => w.fltOk 1
  | .fcmp w => tyFloat4 w.ty && w.cmpOk
  | .frcp w => w.approxOk
  | .frsq w => w.approxOk
  | .fexp2 w => w.approxOk
  | .flog2 w => w.approxOk
  | .iadd w => w.intOk 2
  | .isub w => w.intOk 2
  | .imul w => w.intOk 2
  | .imulh w => w.intOk 2
  | .imad w => w.intOk 3
  | .iadds w => w.intOk 2
  | .isubs w => w.intOk 2
  | .imin w => w.intOk 2
  | .imax w => w.intOk 2
  | .iand w => w.intOk 2
  | .ior w => w.intOk 2
  | .ixor w => w.intOk 2
  | .iandn w => w.intOk 2
  | .ishl w => w.intOk 2
  | .ishr w => w.intOk 2
  | .iror w => w.intOk 2
  | .ipopc w => w.intOk 1
  | .iclz w => w.intOk 1
  | .icmp w => tyInt4 w.ty && w.md.toNat < 6 && w.cmpOk
  | .cvt w => w.cvtOk
  | .pkn w => w.plainOk 2
  | .pkb w => w.plainOk 2 && w.md.toNat < 4
  | .pkh w => w.plainOk 2 && w.md.toNat < 2
  | .upn w => w.plainOk 1
  | .upb w => w.plainOk 1 && w.md.toNat < 4
  | .uph w => w.plainOk 1 && w.md.toNat < 2
  | .mov w => w.moveOk 1 && w.md == 0
  | .sel w => w.moveOk 2
  | .shflIdx w => w.shflOk
  | .shflUp w => w.shflOk
  | .shflDn w => w.shflOk
  | .shflXor w => w.shflOk
  | .bcst w => w.moveOk 1 && w.md == 0
  | .mset w => w.ty == 0 && w.rm == 0 && w.srcs 1 false && w.dstM && w.md == 0 && w.rpf == 0
  | .mand w => w.maskOk
  | .mor w => w.maskOk
  | .mxor w => w.maskOk
  | .mandn w => w.maskOk
  | .vany w => w.plainOk 1 && w.md == 0
  | .vall w => w.plainOk 1 && w.md == 0
  | .vbal w => w.plainOk 1 && w.md == 0
  | .gred op w => w.gredOk op && w.md == 0
  | .scan op w => w.gredOk op && w.md == 0
  | .scanx op w => w.gredOk op && w.md == 1
  | .brl w => w.ctlOk
  | .brln w => w.ctlOk
  | .joinl w => w.ctlOk && w.md == 0 && w.imm == 0
  | .lret w => w.ctlOk && w.md == 0 && w.imm == 0
  | .exit w => w.ctlOk && w.imm == 0
  | .rep _ _ _ _ => true
  | .ldl w => w.loadOk
  | .ldt w => w.loadOk
  | .stl w => w.storeOk
  | .stt w => w.sttOk && w.md == 0
  | .sttWait w => w.sttOk && w.md == 1
  | .lda w => w.ldaOk
  | .atomLane op w => w.atomOk op
  | .redLane op w => w.redOk op
  | .amaxrdLane w => w.amaxrdOk
  | .segl w => w.segOk
  | .segb w => w.segOk
  | .greds op w => w.gredsOk op
  | .hgld w => w.hgOk && w.c == 0 && w.dstV false
  | .hgsc w => w.hgOk && LaneWord.isV w.c && w.dst == 0
  | .loadDataReturn _ _ => false
  | .storeAcknowledge _ _ => false
  | .trapEntry _ => false
  | .machineEvent _ => false
  | .preemptTrap _ => false
  | .segmentBegin _ => false
  | .aaePush _ _ => false
  | .l1Eviction _ _ _ => false
  | .l1LineExpire _ _ _ => false
  | .remoteItemStatus _ => false
  | .remoteReleasePerform _ => false
  | .itemStart _ => false
  | .itemSourceReusable _ => false
  | .itemVisible _ => false
  | .collectiveArrival _ => false
  | .switchArrival _ => false
  | .switchSlotDeadline _ _ => false
  | .leaseReclaim _ _ => false
  | .tileOpArrival _ => false
  | .tileStep _ _ _ => false
  | .tileOpComplete _ _ _ => false
  | .ringEntrySkip _ _ => false
  | .ringEntryLaunch _ _ => false
  | .ringEntryCopy _ _ => false
  | .ringEntryGate _ _ => false
  | .itemEligible _ _ => false
  | .distributorSelect _ => false
  | .blockPlace _ _ => false
  | .gangPlace _ _ => false
  | .blockEnd _ => false
  | .groupEligible _ => false
  | .activeWaitSwap _ _ => false
  | .pendingReadySwap _ _ => false
  | .preemptDecision _ _ => false
  | .headReserve _ _ => false
  | .drainFallback _ => false
  | .save _ => false
  | .flushAndRestart _ => false
  | .imageResume _ _ _ => false
  | .heartbeatSend _ => false
  | .lossDeclare _ _ => false
  | .lossNoticeApply _ => false
  | .packageSelfFence _ => false
  | .directoryRebuild _ => false
  | .laneFailure _ _ _ => false
  | .linkRetrainComplete _ _ => false
  | .clockStepDown _ => false
  | .clockStepUp _ => false
  | .thermalFence _ => false
  | .powerOnReset _ => false
  | .packageReset _ => false
  | .panelReset _ => false
  | .goRelease _ => false
  | .loadkey _ => false
  | .attest _ => false
  | .ibkelReadStatus _ => false
  | .ibkelWriteFirmware _ _ _ => false
  | .ibkelResetRequest _ => false
  | .ibkelRetireRequest _ _ => false
  | .ibkelProvisionKek _ _ => false
  | .ibkelSetWatchpoint _ _ _ _ _ _ => false
  | .remoteItemPerform _ => false
  | .destinationLineFull _ _ => false
  | .badCommand _ => false
  | .ringEntryFailure _ _ => false

end Sys2Proof
end

