-- ==== Sys2Proof/Decode.lean ====
section
/-! DEFINITION. The decoder and the encoder (R57 to R71 and the encoding tables of the instruction chapters). -/

namespace Sys2Proof

/-- Why a word is no instruction; the device raises ILLEGAL for each (R58, R62, R65, R71). -/
inductive Reject where
  /-- The opcode, function value or sub-operation is reserved. -/
  | reservedOpcode
  /-- A reserved field of the word is nonzero. -/
  | reservedField
  /-- A field holds a value its entry does not accept. -/
  | badField
deriving DecidableEq, Repr, Inhabited

/-- The fetch window of a stream: two scalar words from the SPC on, or two lane words from the LPC on (R57). -/
inductive Code where
  | scalar (w0 w1 : BitVec 32)
  | lane (w next : BitVec 96)
deriving DecidableEq, Repr, Inhabited

/-- Fields of the 32-bit formats (R59). -/
def fOp (w : BitVec 32) : BitVec 6 := w.extractLsb' 26 6
def fD (w : BitVec 32) : SReg := w.extractLsb' 20 6
def fA (w : BitVec 32) : SReg := w.extractLsb' 14 6
def fB (w : BitVec 32) : SReg := w.extractLsb' 8 6
def fFunc (w : BitVec 32) : BitVec 8 := w.extractLsb' 0 8
def fImm14 (w : BitVec 32) : BitVec 14 := w.extractLsb' 0 14
def fOff26 (w : BitVec 32) : BitVec 26 := w.extractLsb' 0 26

/-- The fields of a long-space-A instruction (R64). -/
def longFields (w0 w1 : BitVec 32) : LongWord where
  d := w0.extractLsb' 12 6
  a := w0.extractLsb' 6 6
  b := w0.extractLsb' 0 6
  c := w1.extractLsb' 26 6
  e := w1.extractLsb' 20 6
  scope := w1.extractLsb' 17 3
  st := w1.extractLsb' 16 1
  rm := w1.extractLsb' 13 3
  ty := w1.extractLsb' 8 5
  aux := w1.extractLsb' 0 8

/-- The fields of a tile instruction (R64, R66). -/
def tileFields (w0 w1 : BitVec 32) : TileWord where
  d := w0.extractLsb' 12 6
  a := w0.extractLsb' 6 6
  b := w0.extractLsb' 0 6
  c := w1.extractLsb' 26 6
  sn := w1.extractLsb' 23 3
  mrow := w1.extractLsb' 22 1
  mcol := w1.extractLsb' 21 1
  mdep := w1.extractLsb' 20 1
  ta := w1.extractLsb' 19 1
  tb := w1.extractLsb' 18 1
  tya := w1.extractLsb' 12 5
  tyb := w1.extractLsb' 7 5
  rm := w1.extractLsb' 4 3
  aux := w1.extractLsb' 0 4

/-- The fields of a lane word (R67). -/
def laneFields (w : BitVec 96) : LaneWord where
  imm := w.extractLsb' 64 32
  msel := w.extractLsb' 51 3
  ty := w.extractLsb' 46 5
  rm := w.extractLsb' 43 3
  c := w.extractLsb' 34 9
  b := w.extractLsb' 25 9
  a := w.extractLsb' 16 9
  dst := w.extractLsb' 7 1 ++ w.extractLsb' 8 8
  md := w.extractLsb' 4 3
  rpf := w.extractLsb' 0 4

/-- Accepts an instruction when the fields its entry reserves are zero. -/
def zeroOr (reserved : Bool) (i : Instr) : Except Reject Instr :=
  if reserved then .ok i else .error .reservedField

/-- Major opcode 0x01 (R92). -/
def parseAlu (w : BitVec 32) : Except Reject Instr :=
  let d := fD w
  let a := fA w
  let b := fB w
  match (fFunc w).toNat with
  | 0x00 => .ok (.add d a b)
  | 0x01 => .ok (.sub d a b)
  | 0x02 => .ok (.mul d a b)
  | 0x03 => .ok (.mulh d a b)
  | 0x04 => .ok (.mulhu d a b)
  | 0x05 => .ok (.div d a b)
  | 0x06 => .ok (.divu d a b)
  | 0x07 => .ok (.rem d a b)
  | 0x08 => .ok (.remu d a b)
  | 0x09 => .ok (.sh1add d a b)
  | 0x0A => .ok (.sh2add d a b)
  | 0x0B => .ok (.sh3add d a b)
  | 0x10 => .ok (.and d a b)
  | 0x11 => .ok (.or d a b)
  | 0x12 => .ok (.xor d a b)
  | 0x13 => .ok (.andn d a b)
  | 0x18 => .ok (.shl d a b)
  | 0x19 => .ok (.shr d a b)
  | 0x1A => .ok (.sra d a b)
  | 0x1B => .ok (.ror d a b)
  | 0x20 => .ok (.slt d a b)
  | 0x21 => .ok (.sltu d a b)
  | 0x22 => .ok (.seq d a b)
  | 0x28 => .ok (.min d a b)
  | 0x29 => .ok (.max d a b)
  | 0x2A => .ok (.minu d a b)
  | 0x2B => .ok (.maxu d a b)
  | 0x30 => zeroOr (b == 0) (.clz d a)
  | 0x31 => zeroOr (b == 0) (.ctz d a)
  | 0x32 => zeroOr (b == 0) (.popc d a)
  | _ => .error .reservedOpcode

/-- Major opcode 0x32 (R117). -/
def parseSystem (w : BitVec 32) : Except Reject Instr :=
  let d := fD w
  let a := fA w
  let b := fB w
  match (fFunc w).toNat with
  | 0x00 => zeroOr (d == 0 && a == 0 && b == 0) .nop
  | 0x01 => zeroOr (a == 0 && b == 0) (.cyc d)
  | 0x02 => zeroOr (d == 0 && a == 0 && b == 0) .brk
  | 0x03 => zeroOr (d == 0 && b == 0) (.trap a)
  | 0x04 => zeroOr (d == 0 && a == 0 && b == 0) .tret
  | 0x05 => zeroOr (d == 0 && a == 0 && b == 0) .halt
  | _ => .error .reservedOpcode

/-- Major opcode 0x35 (R165). -/
def parseBar (w : BitVec 32) : Except Reject Instr :=
  let a := fA w
  let id : BitVec 6 := w.extractLsb' 6 6
  let cnt : BitVec 6 := w.extractLsb' 0 6
  match (w.extractLsb' 12 2).toNat with
  | 0 => zeroOr (fD w == 0) (.barArr a id cnt)
  | 1 => zeroOr (fD w == 0) (.barWait a id cnt)
  | 2 => zeroOr (fD w == 0) (.barSync a id cnt)
  | _ => .error .reservedOpcode

/-- Major opcode 0x36 (R168). -/
def parsePhaser (w : BitVec 32) : Except Reject Instr :=
  let d := fD w
  let a := fA w
  let b := fB w
  match (fFunc w).toNat with
  | 0x00 => zeroOr (b == 0) (.phnew d a)
  | 0x01 => zeroOr (d == 0 && b == 0) (.phfree a)
  | 0x02 => zeroOr (d == 0) (.phreg a b)
  | 0x03 => zeroOr (d == 0 && b == 0) (.phdrop a)
  | 0x04 => zeroOr (d == 0) (.phsig a b)
  | 0x05 => zeroOr (b == 0) (.phwait d a)
  | 0x06 => .ok (.phsw d a b)
  | _ => .error .reservedOpcode

/-- Major opcode 0x3B (R218, R220). -/
def parseRagged (w : BitVec 32) : Except Reject Instr :=
  let d := fD w
  let a := fA w
  let b := fB w
  match (fFunc w).toNat with
  | 0x00 => zeroOr (d == 0 && b == 0) (.rflush a)
  | 0x01 => zeroOr (b == 0) (.rqryNseg d a)
  | 0x02 => .ok (.rqryStart d a b)
  | 0x03 => .ok (.rqryLen d a b)
  | 0x04 => zeroOr (b == 0) (.rqryTotal d a)
  | _ => .error .reservedOpcode

/-- Long space A by sub-operation (R65). -/
def parseLongA (w0 w1 : BitVec 32) : Except Reject Instr :=
  let w := longFields w0 w1
  match (w0.extractLsb' 18 8).toNat with
  | 0x01 => .ok (.atomLong w)
  | 0x02 => .ok (.redScalar w)
  | 0x03 => .ok (.amaxrdScalar w)
  | 0x04 => .ok (.ratom w)
  | 0x05 => .ok (.rrel w)
  | 0x10 => .ok (.fenceTc w)
  | 0x11 => .ok (.launch w)
  | 0x12 => .ok (.cancel w)
  | 0x13 => .ok (.ccrd w)
  | 0x14 => .ok (.ccwt w)
  | 0x20 => .ok (.cpy w)
  | 0x22 => .ok (.qfence w)
  | 0x23 => .ok (.coll w)
  | 0x40 => .ok (.segof w)
  | 0x41 => .ok (.rbind w)
  | 0x48 => .ok (.hgix w)
  | 0xF0 => .ok (.kick w)
  | 0xF1 => .ok (.sleep w)
  | 0xF2 => .ok (.wake w)
  | 0xF8 => .ok (.tlbinv w)
  | 0xF9 => .ok (.jroot w)
  | 0xFA => .ok (.kbind w)
  | _ => .error .reservedOpcode

/-- Long space B by sub-operation (R191); `WLOAD` is split by WSRC (R199). -/
def parseLongB (w0 w1 : BitVec 32) : Except Reject Instr :=
  let w := tileFields w0 w1
  if w1.getLsbD 17 then .error .reservedField else
  match (w0.extractLsb' 18 8).toNat with
  | 0x01 => .ok (.mma w)
  | 0x02 => .ok (.mmd w)
  | 0x03 => .ok (.mzero w)
  | 0x04 => if w.aux.getLsbD 0 then .ok (.wloadDense w) else .ok (.wloadImg w)
  | 0x05 => .ok (.wupd w)
  | 0x06 => .ok (.accst w)
  | 0x07 => .ok (.accld w)
  | 0x08 => .ok (.tred w)
  | 0x09 => .ok (.tcvt w)
  | 0x0A => .ok (.tnorm w)
  | 0x0B => .ok (.tsmax w)
  | 0x0C => .ok (.tsync w)
  | _ => .error .reservedOpcode

/-- The instruction whose first word is `w0`; `w1` is the word after it (R62). -/
def parseScalar (w0 w1 : BitVec 32) : Except Reject Instr :=
  let d := fD w0
  let a := fA w0
  let imm := fImm14 w0
  let off := fOff26 w0
  match (fOp w0).toNat with
  | 0x01 => parseAlu w0
  | 0x02 => .ok (.addi d a imm)
  | 0x03 => .ok (.andi d a imm)
  | 0x04 => .ok (.ori d a imm)
  | 0x05 => .ok (.xori d a imm)
  | 0x06 => zeroOr (imm.extractLsb' 6 8 == 0) (.shli d a (imm.extractLsb' 0 6))
  | 0x07 => zeroOr (imm.extractLsb' 6 8 == 0) (.shri d a (imm.extractLsb' 0 6))
  | 0x08 => zeroOr (imm.extractLsb' 6 8 == 0) (.srai d a (imm.extractLsb' 0 6))
  | 0x09 => .ok (.muli d a imm)
  | 0x0A => .ok (.slti d a imm)
  | 0x0B => .ok (.sltiu d a imm)
  | 0x0C => zeroOr (!imm.getLsbD 13) (if imm.getLsbD 12 then .bfxI64 d a (imm.extractLsb' 6 6) (imm.extractLsb' 0 6) else .bfxN64 d a (imm.extractLsb' 6 6) (imm.extractLsb' 0 6))
  | 0x0D => zeroOr (imm.extractLsb' 12 2 == 0) (.bfi d a (imm.extractLsb' 6 6) (imm.extractLsb' 0 6))
  | 0x10 => .ok (.beq d a imm)
  | 0x11 => .ok (.bne d a imm)
  | 0x12 => .ok (.blt d a imm)
  | 0x13 => .ok (.bge d a imm)
  | 0x14 => .ok (.bltu d a imm)
  | 0x15 => .ok (.bgeu d a imm)
  | 0x16 => .ok (.loop d a imm)
  | 0x18 => .ok (.j off)
  | 0x19 => .ok (.call off)
  | 0x1A => zeroOr (d == 0) (.jr a imm)
  | 0x1B => .ok (.callr d a imm)
  | 0x20 => .ok (.ldsI8 d a imm)
  | 0x21 => .ok (.ldsN8 d a imm)
  | 0x22 => .ok (.ldsI16 d a imm)
  | 0x23 => .ok (.ldsN16 d a imm)
  | 0x24 => .ok (.ldsI32 d a imm)
  | 0x25 => .ok (.ldsN32 d a imm)
  | 0x26 => .ok (.ldsN64 d a imm)
  | 0x28 => .ok (.stsN8 d a imm)
  | 0x29 => .ok (.stsN16 d a imm)
  | 0x2A => .ok (.stsN32 d a imm)
  | 0x2B => .ok (.stsN64 d a imm)
  | 0x2C => zeroOr (imm.extractLsb' 0 8 == 0) (.qset d a (imm.extractLsb' 11 3) (imm.extractLsb' 8 3))
  | 0x2D => zeroOr (d == 0 && imm.extractLsb' 3 11 == 0) (.qgo a (imm.extractLsb' 0 3))
  | 0x2E => .ok (.lrun off)
  | 0x2F => zeroOr (w0.extractLsb' 1 3 == 0) (if w0.getLsbD 0 then .waity d a (w0.extractLsb' 9 5) (w0.extractLsb' 4 5) else .wait d a (w0.extractLsb' 9 5) (w0.extractLsb' 4 5))
  | 0x30 => zeroOr (a == 0) (.mfs d imm)
  | 0x31 => zeroOr (d == 0) (.mts a imm)
  | 0x32 => parseSystem w0
  | 0x33 => .ok (.ext off w1)
  | 0x34 => zeroOr (w0.extractLsb' 3 23 == 0) (.fence (w0.extractLsb' 0 3))
  | 0x35 => parseBar w0
  | 0x36 => parsePhaser w0
  | 0x37 => .ok (.atomShort d a (fB w0) (w0.extractLsb' 4 4) (w0.extractLsb' 0 4))
  | 0x38 => zeroOr (fFunc w0 == 0) (.chunk d a (fB w0))
  | 0x39 => zeroOr (a == 0) (.cpstep d imm)
  | 0x3A => .ok (.yield off)
  | 0x3B => parseRagged w0
  | 0x3E => parseLongA w0 w1
  | 0x3F => parseLongB w0 w1
  | _ => .error .reservedOpcode

/-- The lane instruction of opcode `opc` (R71, R125 to R134, R140, R228, R242). -/
def parseLaneOpc (opc : Nat) (f : LaneWord) (next : BitVec 96) : Except Reject Instr :=
  match opc with
  | 0x001 => .ok (.fadd f)
  | 0x002 => .ok (.fsub f)
  | 0x003 => .ok (.fmul f)
  | 0x004 => .ok (.ffma f)
  | 0x005 => .ok (.ffms f)
  | 0x006 => .ok (.fnma f)
  | 0x007 => .ok (.fnms f)
  | 0x008 => .ok (.fmin f)
  | 0x009 => .ok (.fmax f)
  | 0x00A => .ok (.fminn f)
  | 0x00B => .ok (.fmaxn f)
  | 0x00C => .ok (.fabs f)
  | 0x00D => .ok (.fneg f)
  | 0x00E => .ok (.frint f)
  | 0x010 => .ok (.fcmp f)
  | 0x020 => .ok (.frcp f)
  | 0x021 => .ok (.frsq f)
  | 0x022 => .ok (.fexp2 f)
  | 0x023 => .ok (.flog2 f)
  | 0x080 => .ok (.iadd f)
  | 0x081 => .ok (.isub f)
  | 0x082 => .ok (.imul f)
  | 0x083 => .ok (.imulh f)
  | 0x084 => .ok (.imad f)
  | 0x085 => .ok (.iadds f)
  | 0x086 => .ok (.isubs f)
  | 0x088 => .ok (.imin f)
  | 0x089 => .ok (.imax f)
  | 0x090 => .ok (.iand f)
  | 0x091 => .ok (.ior f)
  | 0x092 => .ok (.ixor f)
  | 0x093 => .ok (.iandn f)
  | 0x098 => .ok (.ishl f)
  | 0x099 => .ok (.ishr f)
  | 0x09A => .ok (.iror f)
  | 0x0A0 => .ok (.ipopc f)
  | 0x0A1 => .ok (.iclz f)
  | 0x0A8 => .ok (.icmp f)
  | 0x100 => .ok (.cvt f)
  | 0x108 => .ok (.pkn f)
  | 0x109 => .ok (.pkb f)
  | 0x10A => .ok (.pkh f)
  | 0x10C => .ok (.upn f)
  | 0x10D => .ok (.upb f)
  | 0x10E => .ok (.uph f)
  | 0x140 => .ok (.mov f)
  | 0x141 => .ok (.sel f)
  | 0x148 => .ok (.shflIdx f)
  | 0x149 => .ok (.shflUp f)
  | 0x14A => .ok (.shflDn f)
  | 0x14B => .ok (.shflXor f)
  | 0x150 => .ok (.bcst f)
  | 0x158 => .ok (.mset f)
  | 0x159 => .ok (.mand f)
  | 0x15A => .ok (.mor f)
  | 0x15B => .ok (.mxor f)
  | 0x15C => .ok (.mandn f)
  | 0x180 => .ok (.vany f)
  | 0x181 => .ok (.vall f)
  | 0x182 => .ok (.vbal f)
  | 0x188 => .ok (.gred 0 f)
  | 0x189 => .ok (.gred 1 f)
  | 0x18A => .ok (.gred 2 f)
  | 0x18B => .ok (.gred 3 f)
  | 0x18C => .ok (.gred 4 f)
  | 0x18D => .ok (.gred 5 f)
  | 0x190 => .ok (if f.md.getLsbD 0 then .scanx 0 f else .scan 0 f)
  | 0x191 => .ok (if f.md.getLsbD 0 then .scanx 1 f else .scan 1 f)
  | 0x192 => .ok (if f.md.getLsbD 0 then .scanx 2 f else .scan 2 f)
  | 0x193 => .ok (if f.md.getLsbD 0 then .scanx 3 f else .scan 3 f)
  | 0x194 => .ok (if f.md.getLsbD 0 then .scanx 4 f else .scan 4 f)
  | 0x195 => .ok (if f.md.getLsbD 0 then .scanx 5 f else .scan 5 f)
  | 0x1C0 => .ok (.brl f)
  | 0x1C1 => .ok (.brln f)
  | 0x1C4 => .ok (.joinl f)
  | 0x1C8 => .ok (.lret f)
  | 0x1C9 => .ok (.exit f)
  | 0x200 => .ok (.ldl f)
  | 0x201 => .ok (.ldt f)
  | 0x208 => .ok (.stl f)
  | 0x210 => .ok (if f.md.getLsbD 0 then .sttWait f else .stt f)
  | 0x211 => .ok (.lda f)
  | 0x220 => .ok (.atomLane 0 f)
  | 0x221 => .ok (.atomLane 1 f)
  | 0x222 => .ok (.atomLane 2 f)
  | 0x223 => .ok (.atomLane 3 f)
  | 0x224 => .ok (.atomLane 4 f)
  | 0x225 => .ok (.atomLane 5 f)
  | 0x226 => .ok (.atomLane 6 f)
  | 0x227 => .ok (.atomLane 7 f)
  | 0x230 => .ok (.redLane 0 f)
  | 0x231 => .ok (.redLane 1 f)
  | 0x232 => .ok (.redLane 2 f)
  | 0x233 => .ok (.redLane 3 f)
  | 0x234 => .ok (.redLane 4 f)
  | 0x235 => .ok (.redLane 5 f)
  | 0x236 => .ok (.redLane 6 f)
  | 0x240 => .ok (.amaxrdLane f)
  | 0x280 => .ok (.segl f)
  | 0x281 => .ok (.segb f)
  | 0x288 => .ok (.greds 0 f)
  | 0x289 => .ok (.greds 1 f)
  | 0x28A => .ok (.greds 2 f)
  | 0x28B => .ok (.greds 3 f)
  | 0x28C => .ok (.greds 4 f)
  | 0x28D => .ok (.greds 5 f)
  | 0x2A0 => .ok (.hgld f)
  | 0x2A1 => .ok (.hgsc f)
  | 0x3FE => zeroOr (f.imm.extractLsb' 16 16 == 0 && f.msel == 0 && f.ty == 0 && f.rm == 0 && f.c == 0 && f.b == 0 && f.a == 0 && f.dst == 0 && f.md == 0) (.rep (f.imm.extractLsb' 0 8) (f.imm.extractLsb' 8 8) f.rpf next)
  | _ => .error .reservedOpcode

/-- The lane instruction whose word is `w`; `next` is the word after it, which a `REP` prefixes (R70). -/
def parseLane (w next : BitVec 96) : Except Reject Instr :=
  parseLaneOpc (w.extractLsb' 54 10).toNat (laneFields w) next

/-- The instruction at the head of a fetch window: its fields, then the checks of its entry (R58, R72). -/
def decode (c : Code) : Except Reject Instr :=
  match (match c with | .scalar w0 w1 => parseScalar w0 w1 | .lane w next => parseLane w next) with
  | .ok i => if i.wf then .ok i else .error .badField
  | .error r => .error r

/-- The 32-bit formats (R59). -/
def encR (op : BitVec 6) (d a b : SReg) (func : BitVec 8) : BitVec 32 := op ++ d ++ a ++ b ++ func
def encI (op : BitVec 6) (d a : SReg) (imm : BitVec 14) : BitVec 32 := op ++ d ++ a ++ imm
def encJ (op : BitVec 6) (off : BitVec 26) : BitVec 32 := op ++ off

/-- The two words of a long-space-A instruction (R64). -/
def encLong (sub : BitVec 8) (w : LongWord) : Code :=
  .scalar ((0x3E : BitVec 6) ++ sub ++ w.d ++ w.a ++ w.b) (w.c ++ w.e ++ w.scope ++ w.st ++ w.rm ++ w.ty ++ w.aux)

/-- The two words of a tile instruction (R64, R66). -/
def encTile (sub : BitVec 8) (w : TileWord) : Code :=
  .scalar ((0x3F : BitVec 6) ++ sub ++ w.d ++ w.a ++ w.b)
    (w.c ++ w.sn ++ w.mrow ++ w.mcol ++ w.mdep ++ w.ta ++ w.tb ++ (0 : BitVec 1) ++ w.tya ++ w.tyb ++ w.rm ++ w.aux)

/-- A lane word (R67). -/
def encLaneWord (opc : BitVec 10) (w : LaneWord) : BitVec 96 :=
  w.imm ++ opc ++ w.msel ++ w.ty ++ w.rm ++ w.c ++ w.b ++ w.a ++ w.dst.extractLsb' 0 8 ++ w.dst.extractLsb' 8 1 ++ w.md ++ w.rpf

/-- A one-word scalar instruction in its fetch window, the word after it zero. -/
def encW (w : BitVec 32) : Option Code := some (.scalar w 0)

/-- A lane instruction in its fetch window, the word after it zero. -/
def encL (opc : BitVec 10) (w : LaneWord) : Option Code := some (.lane (encLaneWord opc w) 0)

/-- The words of an instruction; a hardware event has none. -/
def encode : Instr → Option Code
  | .add d a b => encW (encR 0x01 d a b 0x00)
  | .sub d a b => encW (encR 0x01 d a b 0x01)
  | .mul d a b => encW (encR 0x01 d a b 0x02)
  | .mulh d a b => encW (encR 0x01 d a b 0x03)
  | .mulhu d a b => encW (encR 0x01 d a b 0x04)
  | .div d a b => encW (encR 0x01 d a b 0x05)
  | .divu d a b => encW (encR 0x01 d a b 0x06)
  | .rem d a b => encW (encR 0x01 d a b 0x07)
  | .remu d a b => encW (encR 0x01 d a b 0x08)
  | .sh1add d a b => encW (encR 0x01 d a b 0x09)
  | .sh2add d a b => encW (encR 0x01 d a b 0x0A)
  | .sh3add d a b => encW (encR 0x01 d a b 0x0B)
  | .and d a b => encW (encR 0x01 d a b 0x10)
  | .or d a b => encW (encR 0x01 d a b 0x11)
  | .xor d a b => encW (encR 0x01 d a b 0x12)
  | .andn d a b => encW (encR 0x01 d a b 0x13)
  | .shl d a b => encW (encR 0x01 d a b 0x18)
  | .shr d a b => encW (encR 0x01 d a b 0x19)
  | .sra d a b => encW (encR 0x01 d a b 0x1A)
  | .ror d a b => encW (encR 0x01 d a b 0x1B)
  | .slt d a b => encW (encR 0x01 d a b 0x20)
  | .sltu d a b => encW (encR 0x01 d a b 0x21)
  | .seq d a b => encW (encR 0x01 d a b 0x22)
  | .min d a b => encW (encR 0x01 d a b 0x28)
  | .max d a b => encW (encR 0x01 d a b 0x29)
  | .minu d a b => encW (encR 0x01 d a b 0x2A)
  | .maxu d a b => encW (encR 0x01 d a b 0x2B)
  | .clz d a => encW (encR 0x01 d a 0 0x30)
  | .ctz d a => encW (encR 0x01 d a 0 0x31)
  | .popc d a => encW (encR 0x01 d a 0 0x32)
  | .addi d a imm => encW (encI 0x02 d a imm)
  | .andi d a imm => encW (encI 0x03 d a imm)
  | .ori d a imm => encW (encI 0x04 d a imm)
  | .xori d a imm => encW (encI 0x05 d a imm)
  | .shli d a amount => encW (encI 0x06 d a ((0 : BitVec 8) ++ amount))
  | .shri d a amount => encW (encI 0x07 d a ((0 : BitVec 8) ++ amount))
  | .srai d a amount => encW (encI 0x08 d a ((0 : BitVec 8) ++ amount))
  | .muli d a imm => encW (encI 0x09 d a imm)
  | .slti d a imm => encW (encI 0x0A d a imm)
  | .sltiu d a imm => encW (encI 0x0B d a imm)
  | .bfxI64 d a len1 pos => encW (encI 0x0C d a ((1 : BitVec 2) ++ len1 ++ pos))
  | .bfxN64 d a len1 pos => encW (encI 0x0C d a ((0 : BitVec 2) ++ len1 ++ pos))
  | .bfi d a len1 pos => encW (encI 0x0D d a ((0 : BitVec 2) ++ len1 ++ pos))
  | .beq a b off => encW (encI 0x10 a b off)
  | .bne a b off => encW (encI 0x11 a b off)
  | .blt a b off => encW (encI 0x12 a b off)
  | .bge a b off => encW (encI 0x13 a b off)
  | .bltu a b off => encW (encI 0x14 a b off)
  | .bgeu a b off => encW (encI 0x15 a b off)
  | .loop a b off => encW (encI 0x16 a b off)
  | .j off => encW (encJ 0x18 off)
  | .call off => encW (encJ 0x19 off)
  | .jr a imm => encW (encI 0x1A 0 a imm)
  | .callr d a imm => encW (encI 0x1B d a imm)
  | .ldsI8 d a imm => encW (encI 0x20 d a imm)
  | .ldsN8 d a imm => encW (encI 0x21 d a imm)
  | .ldsI16 d a imm => encW (encI 0x22 d a imm)
  | .ldsN16 d a imm => encW (encI 0x23 d a imm)
  | .ldsI32 d a imm => encW (encI 0x24 d a imm)
  | .ldsN32 d a imm => encW (encI 0x25 d a imm)
  | .ldsN64 d a imm => encW (encI 0x26 d a imm)
  | .stsN8 b a imm => encW (encI 0x28 b a imm)
  | .stsN16 b a imm => encW (encI 0x29 b a imm)
  | .stsN32 b a imm => encW (encI 0x2A b a imm)
  | .stsN64 b a imm => encW (encI 0x2B b a imm)
  | .qset d a queue fld => encW (encI 0x2C d a (queue ++ fld ++ (0 : BitVec 8)))
  | .qgo a queue => encW (encI 0x2D 0 a ((0 : BitVec 11) ++ queue))
  | .lrun off => encW (encJ 0x2E off)
  | .wait ld st cp tl => encW ((0x2F : BitVec 6) ++ ld ++ st ++ cp ++ tl ++ (0 : BitVec 4))
  | .waity ld st cp tl => encW ((0x2F : BitVec 6) ++ ld ++ st ++ cp ++ tl ++ (1 : BitVec 4))
  | .mfs d num => encW (encI 0x30 d 0 num)
  | .mts a num => encW (encI 0x31 0 a num)
  | .nop => encW (encR 0x32 0 0 0 0x00)
  | .cyc d => encW (encR 0x32 d 0 0 0x01)
  | .brk => encW (encR 0x32 0 0 0 0x02)
  | .trap a => encW (encR 0x32 0 a 0 0x03)
  | .tret => encW (encR 0x32 0 0 0 0x04)
  | .halt => encW (encR 0x32 0 0 0 0x05)
  | .ext imm next => some (.scalar (encJ 0x33 imm) next)
  | .fence scope => encW (encR 0x34 0 0 0 ((0 : BitVec 5) ++ scope))
  | .barArr a id cnt => encW (encI 0x35 0 a ((0 : BitVec 2) ++ id ++ cnt))
  | .barWait a id cnt => encW (encI 0x35 0 a ((1 : BitVec 2) ++ id ++ cnt))
  | .barSync a id cnt => encW (encI 0x35 0 a ((2 : BitVec 2) ++ id ++ cnt))
  | .phnew d a => encW (encR 0x36 d a 0 0x00)
  | .phfree a => encW (encR 0x36 0 a 0 0x01)
  | .phreg a b => encW (encR 0x36 0 a b 0x02)
  | .phdrop a => encW (encR 0x36 0 a 0 0x03)
  | .phsig a b => encW (encR 0x36 0 a b 0x04)
  | .phwait d a => encW (encR 0x36 d a 0 0x05)
  | .phsw d a b => encW (encR 0x36 d a b 0x06)
  | .atomShort d a b code ty => encW (encR 0x37 d a b (code ++ ty))
  | .chunk d a b => encW (encR 0x38 d a b 0)
  | .cpstep d imm => encW (encI 0x39 d 0 imm)
  | .yield off => encW (encJ 0x3A off)
  | .rflush a => encW (encR 0x3B 0 a 0 0x00)
  | .rqryNseg d a => encW (encR 0x3B d a 0 0x01)
  | .rqryStart d a b => encW (encR 0x3B d a b 0x02)
  | .rqryLen d a b => encW (encR 0x3B d a b 0x03)
  | .rqryTotal d a => encW (encR 0x3B d a 0 0x04)
  | .atomLong w => some (encLong 0x01 w)
  | .redScalar w => some (encLong 0x02 w)
  | .amaxrdScalar w => some (encLong 0x03 w)
  | .ratom w => some (encLong 0x04 w)
  | .rrel w => some (encLong 0x05 w)
  | .fenceTc w => some (encLong 0x10 w)
  | .launch w => some (encLong 0x11 w)
  | .cancel w => some (encLong 0x12 w)
  | .ccrd w => some (encLong 0x13 w)
  | .ccwt w => some (encLong 0x14 w)
  | .cpy w => some (encLong 0x20 w)
  | .qfence w => some (encLong 0x22 w)
  | .coll w => some (encLong 0x23 w)
  | .segof w => some (encLong 0x40 w)
  | .rbind w => some (encLong 0x41 w)
  | .hgix w => some (encLong 0x48 w)
  | .kick w => some (encLong 0xF0 w)
  | .sleep w => some (encLong 0xF1 w)
  | .wake w => some (encLong 0xF2 w)
  | .tlbinv w => some (encLong 0xF8 w)
  | .jroot w => some (encLong 0xF9 w)
  | .kbind w => some (encLong 0xFA w)
  | .mma w => some (encTile 0x01 w)
  | .mmd w => some (encTile 0x02 w)
  | .mzero w => some (encTile 0x03 w)
  | .wloadImg w => some (encTile 0x04 w)
  | .wloadDense w => some (encTile 0x04 w)
  | .wupd w => some (encTile 0x05 w)
  | .accst w => some (encTile 0x06 w)
  | .accld w => some (encTile 0x07 w)
  | .tred w => some (encTile 0x08 w)
  | .tcvt w => some (encTile 0x09 w)
  | .tnorm w => some (encTile 0x0A w)
  | .tsmax w => some (encTile 0x0B w)
  | .tsync w => some (encTile 0x0C w)
  | .fadd w => encL 0x001 w
  | .fsub w => encL 0x002 w
  | .fmul w => encL 0x003 w
  | .ffma w => encL 0x004 w
  | .ffms w => encL 0x005 w
  | .fnma w => encL 0x006 w
  | .fnms w => encL 0x007 w
  | .fmin w => encL 0x008 w
  | .fmax w => encL 0x009 w
  | .fminn w => encL 0x00A w
  | .fmaxn w => encL 0x00B w
  | .fabs w => encL 0x00C w
  | .fneg w => encL 0x00D w
  | .frint w => encL 0x00E w
  | .fcmp w => encL 0x010 w
  | .frcp w => encL 0x020 w
  | .frsq w => encL 0x021 w
  | .fexp2 w => encL 0x022 w
  | .flog2 w => encL 0x023 w
  | .iadd w => encL 0x080 w
  | .isub w => encL 0x081 w
  | .imul w => encL 0x082 w
  | .imulh w => encL 0x083 w
  | .imad w => encL 0x084 w
  | .iadds w => encL 0x085 w
  | .isubs w => encL 0x086 w
  | .imin w => encL 0x088 w
  | .imax w => encL 0x089 w
  | .iand w => encL 0x090 w
  | .ior w => encL 0x091 w
  | .ixor w => encL 0x092 w
  | .iandn w => encL 0x093 w
  | .ishl w => encL 0x098 w
  | .ishr w => encL 0x099 w
  | .iror w => encL 0x09A w
  | .ipopc w => encL 0x0A0 w
  | .iclz w => encL 0x0A1 w
  | .icmp w => encL 0x0A8 w
  | .cvt w => encL 0x100 w
  | .pkn w => encL 0x108 w
  | .pkb w => encL 0x109 w
  | .pkh w => encL 0x10A w
  | .upn w => encL 0x10C w
  | .upb w => encL 0x10D w
  | .uph w => encL 0x10E w
  | .mov w => encL 0x140 w
  | .sel w => encL 0x141 w
  | .shflIdx w => encL 0x148 w
  | .shflUp w => encL 0x149 w
  | .shflDn w => encL 0x14A w
  | .shflXor w => encL 0x14B w
  | .bcst w => encL 0x150 w
  | .mset w => encL 0x158 w
  | .mand w => encL 0x159 w
  | .mor w => encL 0x15A w
  | .mxor w => encL 0x15B w
  | .mandn w => encL 0x15C w
  | .vany w => encL 0x180 w
  | .vall w => encL 0x181 w
  | .vbal w => encL 0x182 w
  | .gred op w => encL ((0x31 : BitVec 7) ++ op) w
  | .scan op w => encL ((0x32 : BitVec 7) ++ op) w
  | .scanx op w => encL ((0x32 : BitVec 7) ++ op) w
  | .brl w => encL 0x1C0 w
  | .brln w => encL 0x1C1 w
  | .joinl w => encL 0x1C4 w
  | .lret w => encL 0x1C8 w
  | .exit w => encL 0x1C9 w
  | .rep n stride adv next => some (.lane (((0 : BitVec 16) ++ stride ++ n) ++ (0x3FE : BitVec 10) ++ (0 : BitVec 50) ++ adv) next)
  | .ldl w => encL 0x200 w
  | .ldt w => encL 0x201 w
  | .stl w => encL 0x208 w
  | .stt w => encL 0x210 w
  | .sttWait w => encL 0x210 w
  | .lda w => encL 0x211 w
  | .atomLane op w => encL ((0x44 : BitVec 7) ++ op) w
  | .redLane op w => encL ((0x46 : BitVec 7) ++ op) w
  | .amaxrdLane w => encL 0x240 w
  | .segl w => encL 0x280 w
  | .segb w => encL 0x281 w
  | .greds op w => encL ((0x51 : BitVec 7) ++ op) w
  | .hgld w => encL 0x2A0 w
  | .hgsc w => encL 0x2A1 w
  | .loadDataReturn _ _ => none
  | .storeAcknowledge _ _ => none
  | .trapEntry _ => none
  | .machineEvent _ => none
  | .preemptTrap _ => none
  | .segmentBegin _ => none
  | .aaePush _ _ => none
  | .l1Eviction _ _ _ => none
  | .l1LineExpire _ _ _ => none
  | .remoteItemStatus _ => none
  | .remoteReleasePerform _ => none
  | .itemStart _ => none
  | .itemSourceReusable _ => none
  | .itemVisible _ => none
  | .collectiveArrival _ => none
  | .switchArrival _ => none
  | .switchSlotDeadline _ _ => none
  | .leaseReclaim _ _ => none
  | .tileOpArrival _ => none
  | .tileStep _ _ _ => none
  | .tileOpComplete _ _ _ => none
  | .ringEntrySkip _ _ => none
  | .ringEntryLaunch _ _ => none
  | .ringEntryCopy _ _ => none
  | .ringEntryGate _ _ => none
  | .itemEligible _ _ => none
  | .distributorSelect _ => none
  | .blockPlace _ _ => none
  | .gangPlace _ _ => none
  | .blockEnd _ => none
  | .groupEligible _ => none
  | .activeWaitSwap _ _ => none
  | .pendingReadySwap _ _ => none
  | .preemptDecision _ _ => none
  | .headReserve _ _ => none
  | .drainFallback _ => none
  | .save _ => none
  | .flushAndRestart _ => none
  | .imageResume _ _ _ => none
  | .heartbeatSend _ => none
  | .lossDeclare _ _ => none
  | .lossNoticeApply _ => none
  | .packageSelfFence _ => none
  | .directoryRebuild _ => none
  | .laneFailure _ _ _ => none
  | .linkRetrainComplete _ _ => none
  | .clockStepDown _ => none
  | .clockStepUp _ => none
  | .thermalFence _ => none
  | .powerOnReset _ => none
  | .packageReset _ => none
  | .panelReset _ => none
  | .goRelease _ => none
  | .loadkey _ => none
  | .attest _ => none
  | .ibkelReadStatus _ => none
  | .ibkelWriteFirmware _ _ _ => none
  | .ibkelResetRequest _ => none
  | .ibkelRetireRequest _ _ => none
  | .ibkelProvisionKek _ _ => none
  | .ibkelSetWatchpoint _ _ _ _ _ _ => none
  | .remoteItemPerform _ => none
  | .destinationLineFull _ _ => none
  | .badCommand _ => none
  | .ringEntryFailure _ _ => none

/-- The bytes an instruction takes (R57): 4, 8 for a long form, an `EXT` with the word it joins, 12 for a lane word. -/
def Instr.size (i : Instr) : Nat :=
  match encode i with
  | some (.scalar w0 _) => if 0x3E ≤ (fOp w0).toNat || fOp w0 == 0x33 then 8 else 4
  | some (.lane _ _) => 12
  | none => 0

/-- The instruction that the decoder reads from `nbits` bits `w` with zeros above them: up to 64 bits are scalar
words, more are lane words; bit 0 is the least significant bit of the first word (R57). -/
def decodeTableWord (nbits w : Nat) : Option Instr :=
  let c : Code :=
    if nbits ≤ 64 then .scalar (BitVec.ofNat 32 w) (BitVec.ofNat 32 (w / 2 ^ 32))
    else .lane (BitVec.ofNat 96 w) (BitVec.ofNat 96 (w / 2 ^ 96))
  (decode c).toOption

end Sys2Proof
end

