-- ==== Sys2Proof/Machine/Types.lean ====
section
/-! DEFINITION. The parts of the machine's state as plain data: streams, groups, blocks, cores, packages, panels,
items, launches (R10 to R30 and the chapters that name each piece of state). -/

namespace Sys2Proof.Machine

/-- A byte memory: a list of cells in the canonical form of `Machine/Memory.lean`. -/
abbrev Cells := List Host.Cell

/-- A keyed table: the first entry of a key is the one that counts. -/
abbrev Table (κ ν : Type) := List (κ × ν)

/-- The trap classes in vector order (R339). -/
inductive TrapClass where
  | illegal | priv | translation | protection | bound | ragged | memerr | remote
  | quantum | brk | sync | tile | hgrid | watch | preempt | machine
deriving DecidableEq, Repr, Inhabited

/-- A fault of one lane, for the side buffer (R147, R346). -/
structure LaneFault where
  lane : Nat
  cls : TrapClass
  detail : Nat
  addr : Word64
deriving DecidableEq, Repr, Inhabited

/-- An uncorrectable error to be raised at a later instruction (R90, R147, R209). -/
structure Deferred where
  /-- Scalar registers that raise it when named. -/
  sregs : List Nat := []
  /-- Lane registers that raise it when named. -/
  vregs : List Nat := []
  /-- The ordering stream whose next tile instruction raises it (R209). -/
  tileStream : Option Nat := none
  /-- The split whose lane load met it. -/
  split : Option Nat := none
  detail : Nat
  addr : Word64
  /-- The lanes whose load met it (R147, R346). -/
  faults : List LaneFault := []
deriving DecidableEq, Repr, Inhabited

/-- A trap about to be entered (R30, R339). `faults` and `pq` are for a lane trap (R346). -/
structure Trap where
  cls : TrapClass
  detail : Nat := 0
  addr : Word64 := 0
  faults : List LaneFault := []
  pq : Option Nat := none
  /-- The earlier error that it raises, once (R90, R147, R209). -/
  once : Option Deferred := none
deriving DecidableEq, Repr, Inhabited

/-- Why an instruction has no effect in this turn: its trap, or a stall at issue (R344). -/
inductive Stop where
  | trap (t : Trap)
  | stall
deriving DecidableEq, Repr, Inhabited

/-- A byte that an access reaches: of a translated memory (R285) or of the block's scratchpad (R26). -/
inductive Loc where
  | phys (key : Nat)
  | scr (off : Nat)
deriving DecidableEq, Repr, Inhabited

/-- The key slot and the key material that data are written and read under (R297). -/
structure Under where
  slot : Nat
  material : Nat
deriving DecidableEq, Repr, Inhabited

/-- What a stored line was last written under: the key, and the tweak that its address was then (R297, R298). -/
structure LineKey where
  under : Under
  tweak : Nat
  /-- The count of mapping changes of its package then: while it stands, so does the tweak (R286). -/
  epoch : Nat
deriving DecidableEq, Repr, Inhabited

/-- A write of some bits of one byte; a nibble store writes four (R143, R201). `mat` is the key it is written under (R297). -/
structure Put where
  loc : Loc
  mat : Under
  mask : Byte
  val : Byte
deriving DecidableEq, Repr, Inhabited

/-- A register that a completing operation delivers (R88, R122). -/
inductive Dest where
  | s (reg : SReg) (val : Word64)
  | v (reg lane : Nat) (val : Word32)
deriving DecidableEq, Repr, Inhabited

/-- A load in flight: its value was read at issue and is delivered when its data return (R18, R88). -/
structure LoadOp where
  dests : List Dest
  err : Option Deferred := none
  /-- Keys of the uncorrectable data it returns (R379). -/
  badKeys : List Nat := []
deriving DecidableEq, Repr, Inhabited

/-- A byte written at a control home and not yet at its annex home: its key, its value, its place among all such writes
(R288, R305). -/
structure HomeByte where
  key : Nat
  val : Byte
  serial : Nat
deriving DecidableEq, Repr, Inhabited

/-- A store, atomic or commit not yet acknowledged (R18, R311): the home bytes it wrote, whose annex copies are made
at the acknowledgement (R288), what it delivers, and the addresses it used (R300). -/
structure StoreOp where
  dests : List Dest := []
  homes : List HomeByte := []
  vas : List Word64 := []
  /-- Counted in ST; a commit is counted in UW alone. -/
  inSt : Bool := true
  /-- Counted in UW: neither a scratch store nor one that a quantum buffer took is (R311). -/
  inUw : Bool := true
  /-- It wrote control space: a later plain control-space store of the stream waits for it (R310, R311). -/
  control : Bool := false
deriving DecidableEq, Repr, Inhabited

/-- Whether a stream issues. -/
inductive Run where
  | running
  /-- Left its slot under `WAITY` (R113) until the counters fall. -/
  | awayWait (ld st cp tl : Nat)
  /-- Left its slot under `YIELD` (R170); it resumes at the continuation. -/
  | awayYield (target : Word64)
  /-- A control core whose fetch a `SLEEP` stopped (R119). -/
  | sleeping
  /-- Ended by `HALT` or otherwise (R118). -/
  | ended
  /-- Fenced until package reset (R342). -/
  | fenced
deriving DecidableEq, Repr, Inhabited

/-- The scalar stream of an agent (R10, R11, R18, R25, R29, R174, R311, R341). -/
structure Stream where
  spc : Word64
  s : Vector Word64 64
  ext : Option (BitVec 26)
  mode : BitVec 8
  trappc : Word64
  trapcause : Word32
  trapaddr : Word64
  ld : Nat
  st : Nat
  cp : Nat
  tl : Nat
  fcnt : Word32
  fstat : Word16
  uw : Nat
  /-- Scalar registers whose value an item or operation has still to deliver (R88). -/
  await : List Nat
  loads : List LoadOp
  stores : List StoreOp
  deferred : List Deferred
  run : Run
  /-- `BAR.SYNC` has arrived, or `PHSW` has signalled this phase, and now waits (R166, R168). -/
  half : Option Nat
  /-- A `BAR.WAIT` that a lane trap interrupted while it waited: what it waits for, and where it stands (R344). -/
  kept : Option (Nat × Word64)
  /-- A trap that another step's event raised in this stream and that is not yet entered (R166, R169). -/
  posted : Option Trap
deriving DecidableEq, Repr, Inhabited

/-- A queued lane segment (R12). -/
structure Segment where
  start : Word64
  frame : Vector Word32 16
deriving DecidableEq, Repr, Inhabited

/-- A live split (R15); `m` holds m1 to m7. -/
structure Split where
  lpc : Word64
  mask : Word32
  m : Vector Word32 7
deriving DecidableEq, Repr, Inhabited

/-- A parked record (R135); `hold` is STATE. -/
structure Parked where
  pmask : Word32
  plpc : Word64
  pjoin : Word64
  hold : Bool
  pm : Vector Word32 7
deriving DecidableEq, Repr, Inhabited

/-- A snapshot of a tensor layout record with its tables (R213, R215). -/
structure Ragged where
  handle : Nat
  base : Word64
  ty : Nat
  ndim : Nat
  rdim : Nat
  policy : Nat
  padmode : Nat
  padw : Word32
  size : List Nat
  stride : List Int
  tile : List Nat
  /-- B[0] to B[NSEG]. -/
  bounds : List Nat
  own : List Nat
deriving DecidableEq, Repr, Inhabited

/-- A snapshot of a hashed-grid descriptor (R233). -/
structure Grid where
  base : Word64
  levels : Nat
  dims : Nat
  log2t : Nat
  fwid : Nat
  ftype : Nat
  wrap : Bool
  salted : Bool
  res : List Nat
  salt : List Nat
deriving DecidableEq, Repr, Inhabited

/-- The staged descriptor of an operand queue (R104). -/
structure AaeDesc where
  base : Option Word64
  ty : BitVec 5
  /-- (stride, count) of dimensions 0 to 3. -/
  dims : Vector (Word64 × Nat) 4
  handle : Word32
  rdim : Nat
  pad : Word32
deriving DecidableEq, Repr, Inhabited

/-- A started stream (R106, R107): its descriptor, passes, progress, and record with origin (R222). -/
structure AaeStream where
  desc : AaeDesc
  passes : Nat
  pass : Nat
  pos : Nat
  rag : Option Ragged
  origin : Int
  /-- The fault of the fresh snapshot that a resumption took, which its next push raises (R219). -/
  fault : Option Trap
deriving DecidableEq, Repr, Inhabited

/-- One queue entry: 32 words, or a poisoned entry with its fault (R17, R109). -/
inductive QEntry where
  | words (v : LaneVec)
  | poison (cls : TrapClass) (detail : Nat) (addr : Word64)
deriving DecidableEq, Repr, Inhabited

/-- An operand queue (R17, R104, R106). -/
structure Queue where
  staged : AaeDesc
  running : Option AaeStream
  pending : Option AaeStream
  entries : List QEntry
deriving DecidableEq, Repr, Inhabited

/-- One nibble-granular byte write held in a quantum buffer (R103, R143, R164). `laneMask` marks the
bits that a lane store wrote. -/
structure QByte where
  /-- The address it was stored to (R300). -/
  va : Word64
  loc : Loc
  mat : Under
  mask : Byte
  val : Byte
  laneMask : Byte
deriving DecidableEq, Repr, Inhabited

/-- A scatter partial (R246): the element's byte address key, its format code and the FP32 partial. -/
structure Partial where
  /-- The element's address (R300). -/
  va : Word64
  key : Nat
  mat : Under
  ftype : Nat
  val : Word32
deriving DecidableEq, Repr, Inhabited

/-- A quantum buffer (R164, R246). -/
structure QBuf where
  bytes : List QByte
  partials : List Partial
deriving DecidableEq, Repr, Inhabited

/-- The issue-slot set a group stands in (R334, R335). -/
inductive SlotSet where
  | active | pending | away
deriving DecidableEq, Repr, Inhabited

/-- The lane stream and the rest of a group's context (R12 to R17, R29). -/
structure Group where
  block : Nat
  gidx : Nat
  segq : List Segment
  /-- A segment is running: the head of `segq`. -/
  inSeg : Bool
  frame : Vector Word32 16
  live : Word32
  splits : Vector (Option Split) 4
  /-- Oldest written first (R135). -/
  parked : List Parked
  /-- The interrupted `REP`: split and next iteration (R29, R139). -/
  rep : Option (Nat × Nat)
  queues : Vector Queue 8
  v : Vector LaneVec 256
  qbuf : QBuf
  /-- Lane loads in flight name registers here until delivered (R122). -/
  vawait : List Nat
  /-- Stream and target of each `TSYNC` that a save withdrew (R354, R359). -/
  tsync : List (Nat × Word32)
  /-- For each barrier id, the phase of the latest arrival that no `WAIT` has consumed (R166). -/
  arrived : Table Nat Nat
  slot : SlotSet
  /-- Cycles that an active group has waited long, or that a pending one has been ready (R335). -/
  age : Nat
  /-- When each of its streams issued last (R334). -/
  issued : Nat
  issuedLane : Nat
deriving DecidableEq, Repr, Inhabited

/-- A named barrier of a block (R166): the open phase's count and arrivals by group index. -/
structure Barrier where
  count : Option Nat
  arrived : List Nat
  phase : Nat
deriving DecidableEq, Repr, Inhabited

/-- The pre-emption mode of a victim and the cycles since its decision (R351, R352). -/
inductive Preempt where
  | none
  | drain (age : Nat)
  | flush
  | save
  /-- Saved in a slot of its core's save area (R357). -/
  | saved (slot : Nat)
deriving DecidableEq, Repr, Inhabited

/-- A copy descriptor as read (R255). -/
structure CopyDesc where
  src : Word64
  dst : Word64
  spitch : Int
  dpitch : Int
  count : Nat
  rows : Nat
  sty : Nat
  dty : Nat
  rm : Nat
  rg : Bool
  rdst : Bool
  waite : Bool
  cons : Bool
  handle : Nat
  phaser : Word32
  crec : Word64
deriving DecidableEq, Repr, Inhabited

/-- A collective descriptor as read (R268). -/
structure CollDesc where
  sbuf : Word64
  rbuf : Word64
  count : Nat
  rank : Nat
  insw : Bool
  memb : List Nat
  cid : Nat
  seq : Nat
  shandle : Nat
  dhandle : Nat
  deadline : Nat
  phaser : Word32
  crec : Word64
  op : Nat
  rop : Nat
  ty : Nat
deriving DecidableEq, Repr, Inhabited

/-- A page found by a walk: its leaf entry and size, 2^pb bytes. -/
structure Page where
  leaf : Word64
  pb : Nat
deriving DecidableEq, Repr, Inhabited

/-- A translated access. -/
structure Place where
  loc : Loc
  mat : Under
  page : Option Page
  off : Nat
deriving DecidableEq, Repr, Inhabited

/-- A schedule entry as read at placement, its descriptor with the block's steps applied (R264, R265). -/
structure SchedEntry where
  desc : CopyDesc
  stage : Word32
  queue : Nat
  rag : Option Ragged
  /-- Where its completion record lies, translated when the entry was accepted (R262). -/
  crec : Option Place
deriving DecidableEq, Repr, Inhabited

/-- A schedule entry as read at acceptance: its descriptor, its steps for each block (R264, R265, R338). -/
structure ScheduleRow where
  desc : CopyDesc
  stage : Word32
  queue : Nat
  sstep : Int
  dstep : Int
deriving DecidableEq, Repr, Inhabited

/-- What the end of an item owes a saved context (R254). -/
structure Late where
  gidx : Nat
  cp : Nat
  st : Nat
  status : Word16
  regs : List (Nat × Word64)
deriving DecidableEq, Repr, Inhabited

/-- An FP32 shadow of one element in an L1 (R158). -/
structure Shadow where
  key : Nat
  mat : Under
  fmt : Word32
  std : Nat
  val : Word32
deriving DecidableEq, Repr, Inhabited

/-- A clean local-tensor line in an L1: what it was filled with, and the cycles since (R282, R308). -/
structure CleanLine where
  line : Nat
  mat : Under
  bytes : List Byte
  age : Nat
deriving DecidableEq, Repr, Inhabited

/-- One write of a commit, in one aligned word: bits of a byte, or a scatter partial (R246, R314). -/
inductive Move where
  | put (p : Put)
  | part (p : Partial)
deriving DecidableEq, Repr, Inhabited

/-- A write of a commit made at a group's own commit point: the group's index, the commit's place, the write (R314). -/
structure EarlyOp where
  gidx : Nat
  seq : Nat
  move : Move
deriving DecidableEq, Repr, Inhabited

/-- An aligned 4-byte word that groups of a block have committed to at their own commit points since the block's last
barrier commit, and that nothing else has written since: what it held before, with its shadows, and the commits in order
(R248, R313, R314). DESIGN CHOICE: log entry 32. -/
structure EarlyWord where
  block : Nat
  loc : Loc
  mat : Under
  bytes : List Byte
  shadows : List Shadow
  ops : List EarlyOp
deriving DecidableEq, Repr, Inhabited

/-- A watchpoint (R391). -/
structure Watch where
  lo : Word64
  hi : Word64
  reads : Bool
  writes : Bool
deriving DecidableEq, Repr, Inhabited

/-- A compute core (R25, R43, R282, R341). -/
structure Core where
  /-- How far this core's cycle count stands ahead of its package's cycles since the core reset (R25). -/
  ahead : Word64
  trapbase : Word64
  sidebuf : Word64
  savebase : Word64
  conv : Vector Word32 4
  wbuf : Cells
  clean : List CleanLine
  /-- Lines held exclusively for atomics and reductions (R153). -/
  owned : List Nat
  shadows : List Shadow
  fenced : Bool
  /-- The hardware launch queue whose head reserved this core (R331). -/
  reserved : Option (Nat × Nat)
  /-- For each issue slot, the place of the operand queue that its engine served last (R336). -/
  pushed : Vector Nat 4
  watch : List Watch
deriving DecidableEq, Repr, Inhabited

/-- A record bound to an ordering stream (R226): handle, dimensions, origins of rows, columns, depth. -/
structure Binding where
  handle : Nat
  dims : BitVec 3
  rows : Nat
  cols : Nat
  depth : Nat
deriving DecidableEq, Repr, Inhabited

/-- Who accesses memory, and under what (R26, R28, R430). -/
structure Ctx where
  ag : Agent
  pkg : Nat
  user : Bool
  ctxid : Word32
  ptbase : Word64
  /-- A control core whose PTBASE is 0 reaches control space by identity (R386). -/
  identity : Bool
  block : Option Nat
  /-- The size of the scratch window (R26). -/
  limit : Nat
  slots : Vector Word32 16
deriving DecidableEq, Repr, Inhabited

/-- A tile operation in an ordering stream (R183, R185): the instruction, the values of its registers, its issuer,
the captured binding with its snapshot, and its progress. -/
structure TileOp where
  instr : Instr
  vd : Word64
  va : Word64
  vb : Word64
  vc : Word64
  vd1 : Word64
  va1 : Word64
  issuer : Agent
  /-- The issuing group's block. -/
  block : Option Nat
  ctx : Ctx
  /-- The blocks of the cores it names, by rank (R190). -/
  blocks : List Nat
  bind : Option (Binding × Ragged)
  /-- The weight-image headers it was checked with, by rank, or the header that a `WLOAD` writes (R193). -/
  headers : List (List Byte)
  /-- The translations it was checked with, by 2 MiB of address space (R193). -/
  pages : List (Nat × Place)
  /-- The optimiser descriptor (R206). -/
  desc : List Byte
  /-- Whole tile steps done, and element-level updates done of the next one (R185, R208). -/
  step : Nat
  sub : Nat
  /-- Elements read and not yet written out (R185). -/
  buf : List Word32
  /-- The converter as the operation found it (R201). -/
  seed : Word32
  /-- It has met an uncorrectable error (R209). -/
  err : Bool
deriving DecidableEq, Repr, Inhabited

/-- A matrix control core (R181 to R186, R226, R341). -/
structure Mcc where
  ahead : Word64
  trapbase : Word64
  sidebuf : Word64
  savebase : Word64
  conv : Word32
  launch : Option Nat
  /-- (logical index, block) of the gang in ascending rank. -/
  gang : List (Nat × Nat)
  first : Nat
  ctxid : Word32
  ptbase : Word64
  tsc : Vector Word32 8
  ops : Vector (List TileOp) 8
  /-- Group-issued operations on their way to the MCC (R185). -/
  arriving : List TileOp
  bind : Vector (Option Binding) 8
  fenced : Bool
  watch : List Watch
  /-- The status with which the MCC stream ended the gang (R349). -/
  endstat : Word16
deriving DecidableEq, Repr, Inhabited

/-- A placed block (R19 to R22, R27 to R29, R265, R326, R350, R430). -/
structure Block where
  launch : Nat
  index : Nat
  pkg : Nat
  core : Nat
  partw : Word32
  groups : List Agent
  nbar : Nat
  barbase : Nat
  ctxid : Word32
  ptbase : Word64
  ord : Bool
  scratch : Cells
  /-- The scratch lines whose full/empty bit is empty. -/
  empty : List Nat
  acc : Cells
  bars : Table Nat Barrier
  sched : List SchedEntry
  stage : Word32
  released : List Nat
  rt : Nat
  e : Nat
  /-- Buffers of groups ended by `HALT` that wait for a commit (R118), by group index, with the group's wave slot. -/
  held : List (Nat × Agent × QBuf)
  status : Word16
  cancelled : Bool
  preempt : Preempt
  /-- Item ends that await the resumption of a saved block (R254). -/
  late : List Late
  /-- The pages of its context areas, locked at placement: the address over the page's size, the page (R357). -/
  locked : List (Nat × Page)
  /-- Blocks whose ends come before its own: images of a fenced core end in ascending slot order (R364). -/
  endAfter : List Nat
  /-- What a save image's registers are read back into; its buffers and snapshots are in no image (R354, R360). -/
  away : List (Agent × Stream × Group)
  /-- The MCC context of a saved gang, with its rank 0 block (R361). -/
  awayMcc : Option Mcc
deriving DecidableEq, Repr, Inhabited

/-- A control core beside its stream (R120, R341, R430). -/
structure Ctl where
  ahead : Word64
  trapbase : Word64
  ctxid : Word32
  ptbase : Word64
  wake : Bool
  watch : List Watch
deriving DecidableEq, Repr, Inhabited

/-- A member of a phaser (R167, R169). -/
structure Member where
  who : Agent
  /-- The block whose end drops the registration (R169). -/
  block : Option Nat
  signals : Bool
  waits : Bool
  /-- The first phase the member has not signalled. -/
  next : Nat
  pos : Nat
deriving DecidableEq, Repr, Inhabited

/-- A phaser (R167); a free one keeps its generation. -/
structure Phaser where
  gen : Nat
  live : Bool
  max : Bool
  phase : Nat
  gather : Word32
  newest : Option (Nat × Word32)
  members : List Member
  /-- The open phase has received a signal. -/
  signalled : Bool
  /-- Combined signals given one phase ahead (R169). -/
  ahead : Option Word32
deriving DecidableEq, Repr, Inhabited

/-- What a `TLBINV` covered (R300), or the handle of an `RFLUSH` (R217, R218). -/
inductive Inval where
  | all
  | ctx (asid : Nat)
  | page (asid : Nat) (va : Word64)
  | flush (handle : Nat)
deriving DecidableEq, Repr, Inhabited

/-- An earlier value of an aligned 8-byte word of control memory, which a cached translation or a snapshot may still use
(R217, R295), with the invalidations and flushes since. -/
structure Stale where
  word : Nat
  old : Word64
  gone : List Inval
deriving DecidableEq, Repr, Inhabited

/-- A key slot (R297, R300): the job it is bound to and the number of its material. -/
structure KeySlot where
  job : Option Nat
  material : Nat
deriving DecidableEq, Repr, Inhabited

/-- A flash bank (R385). -/
structure FlashBank where
  version : Nat
  image : List Byte
  verifies : Bool
deriving DecidableEq, Repr, Inhabited

/-- The Muniment tables (R378). -/
structure Muniment where
  cores : List Nat
  ctls : List Nat
  chans : List Nat
  lanes : Table Nat (List Nat)
  mseq : Nat
  /-- Their signature verifies (R385). -/
  signed : Bool
deriving DecidableEq, Repr, Inhabited

/-- A Galec link in service (R369). -/
structure Link where
  lanes : List Nat
  retraining : Bool
  retired : Bool
deriving DecidableEq, Repr, Inhabited

/-- A copy that waits in a hardware launch queue (R319, R321): the number of its item, its descriptor, where its completion
record lies, its engine queue, its counter record, its gates, the context of its queue. -/
structure RingCopy where
  id : Nat
  desc : CopyDesc
  crec : Option Place
  cq : Nat
  cc : Word64
  gates : List Word64
  afterok : Bool
  ctxid : Word32
  ptbase : Word64
deriving DecidableEq, Repr, Inhabited

/-- An entry of a hardware launch queue (R319, R321). -/
inductive QItem where
  | launch (launch : Nat) (gates : List Word64) (afterok : Bool)
  | copy (r : RingCopy)
  | gate (gates : List Word64) (ctxid : Word32) (ptbase : Word64)
deriving DecidableEq, Repr, Inhabited

/-- A hardware launch queue with what the front end keeps of its descriptor (R318, R320, R328). -/
structure LaunchQ where
  items : List QItem
  /-- The head has passed its gates, trigger and cancellation checks (R327). -/
  eligible : Bool
  /-- The `TAIL` a `KICK` read and not yet consumed. -/
  kicked : Option Word64
  /-- Ring, entry count, context and priority as read at that `KICK`. -/
  ring : Nat
  nent : Nat
  ctxid : Word32
  ptbase : Word64
  qprio : Nat
  /-- The distributor chose this head to place next (R329). -/
  chosen : Bool
  /-- Cycles the eligible head has stayed unplaced (R331). -/
  unplaced : Nat
deriving DecidableEq, Repr, Inhabited

/-- A MACHINE event waiting for a control core (R342). -/
structure MachineEvent where
  number : Nat
  slot : Nat
  addr : Word64
deriving DecidableEq, Repr, Inhabited

/-- A package (R4, R23, R297, R318, R367, R378, R384 to R392). -/
structure Package where
  /-- Lost, or failed to boot, or fenced (R373, R385, R381). -/
  present : Bool
  booted : Bool
  fenced : Bool
  fmtDefault : Vector Word32 16
  keys : Table Nat KeySlot
  nextMaterial : Nat
  jroots : Table Nat Word64
  /-- The material of control-memory lines that no entry of `lineKeys` names (R384). -/
  ctlMaterial : Nat
  phasers : Table Nat Phaser
  /-- Cycles of the main clock since the package's reset; a core's CYC stands ahead of it by its own count (R25, R384, R392). -/
  cyc : Word64
  go : Nat
  qtab : Nat
  queues : Vector LaunchQ 64
  child : LaunchQ
  served : Nat
  accepted : List Nat
  machine : Table Nat (List MachineEvent)
  muniment : Muniment
  faults : List FaultUnit
  /-- Distinct 4 KiB chunks of each channel that returned uncorrectable errors (R379). -/
  badChunks : Table Nat (List Nat)
  links : Table Nat Link
  lseq : Nat
  /-- Losses declared and not yet applied here: (loss number, package). -/
  notices : List (Nat × Nat)
  lost : List Nat
  /-- Lost packages whose rebuild this acting home has still to finish (R374). -/
  rebuilding : List Nat
  /-- Rebuilds this acting home has to finish: loss number, lost package, lines already found to revert (R374, R375). -/
  reverted : List (Nat × Nat × List Nat)
  unmirrored : Bool
  flash : List FlashBank
  inUse : Nat
  rollback : Nat
  kek : Option Nat
  token : Bool
  leases : Table Nat (List Nat)
  /-- Bytes of the devices attached to the CXL ports, by port (R287), and of those behind the ports that trained at the last
  package reset, in ascending die order (R285, R382). -/
  devices : Table Nat Nat
  trained : Table Nat Nat
  /-- How often a reset has changed where PAs of HBM or the second tier lie (R286, R287). -/
  epoch : Nat
  step : Nat
  nstep : Nat
  cause : BitVec 3
  /-- What the power monitor reads: watts, hottest junction, inlet, cycles within the limits (R392). -/
  watts : Nat
  tj : Nat
  inlet : Nat
  calm : Nat
  sinceBeat : Nat
  /-- Switch dies to which a heartbeat waits for a link that retrains (R369). -/
  beats : List Nat
  /-- The boot block as the device read it when GO went from 0 to 1, and the mailbox as it was copied when CMD left 0, until
  the device has done what they ask (R387, R390). -/
  goRead : Option (List Byte)
  mail : Option (List Byte)
deriving DecidableEq, Repr, Inhabited

/-- The key of a collective (R270): job, CID, SEQ. -/
abbrev CollKey := Nat × Nat × Nat

/-- An in-switch reduction slot (R274). -/
structure Slot where
  die : Nat
  key : CollKey
  first : CollDesc
  /-- Items that have arrived, those that have not ended first. -/
  arrived : List Nat
  /-- What each rank contributed, in full. -/
  gave : List (Nat × List (Nat × Nat))
  left : Nat
deriving DecidableEq, Repr, Inhabited

/-- A panel's switch dies (R274 to R276, R371, R372). -/
structure Panel where
  nextSeq : Nat
  lost : List Nat
  /-- Cycles since the last heartbeat of a package reached a die. -/
  silent : Table (Nat × Nat) Nat
  slots : List Slot
  marks : Table (Nat × Nat × Nat) Nat
deriving DecidableEq, Repr, Inhabited

/-- Who owns an engine queue (R253, R329). -/
inductive QOwner where
  | block (b : Nat)
  | agent (a : Agent)
  | front (pkg : Nat)
deriving DecidableEq, Repr, Inhabited

/-- An engine queue: the live items in order, and those a join makes later ones wait for (R253, R267). -/
structure EngineQ where
  items : List Nat
  after : List Nat
deriving DecidableEq, Repr, Inhabited

/-- One side of an element that an item moves: its nibble position in the address space, and the translation of each of
its bytes, none on another package before its owner translates it (R257, R259, R296). -/
structure Side where
  pos : Nat
  places : List Place
deriving DecidableEq, Repr, Inhabited

/-- An element of a copy: without a source it is padding (R224). -/
structure Elem where
  src : Option Side
  dst : Side
  /-- Source bytes read so far, by their number in the side (R260). -/
  got : List (Nat × Byte)
deriving DecidableEq, Repr, Inhabited

/-- What an item does (R172, R252). -/
inductive ItemKind where
  | copy (d : CopyDesc) (rag : Option Ragged)
  | coll (d : CollDesc) (srag drag : Option Ragged)
  | ratom (code : Nat) (ty : Nat) (addr : Word64) (x cmp : Word64)
  | rrel (ty : Nat) (addr : Word64) (x : Word64)
deriving DecidableEq, Repr, Inhabited

/-- The members of a key that have arrived at a collective engine, in order, with what the first of them fixed (R270). -/
structure Gathering where
  first : ItemKind
  items : List Nat
deriving DecidableEq, Repr, Inhabited

/-- The events an item has passed (R252); a collective arrives at its engine or its switch slot between them (R270,
R274). -/
inductive ItemPhase where
  | queued | started | arrived | read | contributed | performed
deriving DecidableEq, Repr, Inhabited

/-- An item (R171 to R174, R252 to R276). -/
structure Item where
  kind : ItemKind
  issuer : Agent
  block : Option Nat
  /-- The issuer's group index, by which a saved context is found again (R254). -/
  gidx : Nat
  /-- Its attempt was discarded: it changes no context (R254). -/
  orphan : Bool
  owner : Option (QOwner × Nat)
  /-- Items whose visible events it waits for (R253, R267). -/
  waits : List Nat
  scope : Nat
  /-- Registers that receive the status and a fetched value; 0 for none. -/
  statusReg : Nat
  valueReg : Nat
  value : Word64
  acquire : Bool
  /-- A release item and the items it is held for (R173). -/
  release : Bool
  holdFor : List Nat
  ctx : Ctx
  /-- Other packages it needs (R277). -/
  peers : List Nat
  phase : ItemPhase
  /-- A copy's elements still to be read, in order. -/
  elems : List Elem
  /-- A collective's send elements and receive places, by number (R269 to R273). -/
  sends : List (Nat × Side)
  outs : List (Nat × Side)
  /-- A collective's elements as read. -/
  data : List (Nat × Nat)
  /-- Destination writes formed and not yet made. -/
  puts : List Put
  /-- Scratch destination lines not yet marked full (R263). -/
  lines : List Nat
  status : Word16
  xfer : Nat
  nan : Nat
  missing : List Nat
  /-- Counted in its issuer's CP until its source is reusable. -/
  counted : Bool
  phaser : Word32
  crec : Option Place
  /-- Counter record of a graph node that is a copy (R326), and the command queue it came through. -/
  cc : Word64
  queue : Option Nat
  /-- A schedule entry's copy: its failures go to group 0 (R265). -/
  sched : Bool
deriving DecidableEq, Repr, Inhabited

/-- An accepted launch (R322, R328, R430). -/
structure Launch where
  pkg : Nat
  /-- The command queue it came through; none for a child launch. -/
  queue : Option Nat
  recAddr : Word64
  scode : Word64
  lcode : Word64
  mcode : Word64
  param : Word64
  gridx : Nat
  gridy : Nat
  gridz : Nat
  groups : Nat
  nbar : Nat
  prio : Nat
  ord : Bool
  idem : Bool
  partw : Word32
  expect : Nat
  trig : Word32
  tphase : Word32
  cc : Word64
  srseed : Word64
  sched : Word64
  nsched : Nat
  stage0 : Word32
  frep : Word64
  fs : Vector Word32 16
  ctxid : Word32
  ptbase : Word64
  next : Nat
  /-- Its copy schedule, read when the launch was accepted (R265, R338). -/
  rows : List ScheduleRow
  /-- Blocks returned by flush-and-restart, placed before the others (R355). -/
  redo : List Nat
  /-- The schedules of those blocks as they were placed, which start again at step 3 (R265). -/
  flushed : Table Nat (List SchedEntry)
  /-- The physical core on which each block was last placed (R324). -/
  last : Table Nat Nat
  ended : List Nat
  cancelled : Bool
deriving DecidableEq, Repr, Inhabited

/-- A stored word that holds an uncorrectable error (R301, R302). Word numbers count aligned 8-byte words. -/
inductive BadWord where
  | mem (word : Nat)
  | scratch (block word : Nat)
  | acc (block word : Nat)
  | vreg (ag : Agent) (reg lane : Nat)
  | wbuf (pkg core word : Nat)
  | qbuf (ag : Agent) (loc : Loc)
  /-- The trap registers of an agent (R363). -/
  | trapReg (ag : Agent)
deriving DecidableEq, Repr, Inhabited

/-- The next move of the machine. -/
inductive Turn where
  /-- The scalar stream of an agent issues. -/
  | issue (ag : Agent)
  /-- The lane stream of a group issues. -/
  | lane (ag : Agent)
  /-- A hardware event happens. -/
  | event (i : Instr)
  /-- `n` cycles of the main clock pass in a package. -/
  | cycles (pkg n : Nat)
  /-- `n` cycles of the switch dies of a panel pass. -/
  | dieCycles (panel n : Nat)
  /-- The count of one core runs ahead of the others of its package by `n`: counts of cores are not related (R25). -/
  | drift (ag : Agent) (n : Nat)
  /-- A stored word comes to hold an uncorrectable error, or a CXL device answers with poison (R287, R301). -/
  | upset (w : BadWord)
  /-- A memory device of `bytes` stands at a CXL port of a package, or none does (R287). -/
  | attach (pkg port bytes : Nat)
  /-- The Muniment tables of a package no longer verify (R378). -/
  | tamper (pkg : Nat)
deriving DecidableEq, Repr, Inhabited

end Sys2Proof.Machine
end

