-- ==== Sys2Proof/Machine/State.lean ====
section
/-! DEFINITION. The state of the machine, the reasons a step can stop, and the state after power-on reset
(R10 to R30, R282 to R302, R384, R385). -/

namespace Sys2Proof.Machine

/-- The whole machine. `agenda`, `cur` and `choice` are the model's own fields (log entries 1 and 2).
DESIGN CHOICE: log entry 1. -/
structure State where
  streams : Table Agent Stream
  groups : Table Agent Group
  blocks : Table Nat Block
  /-- Blocks that have ended while their gang holds its cluster (R181; log entry 23), and discarded attempts that items still
  read (R254): what their pools hold. -/
  past : Table Nat Block
  launches : Table Nat Launch
  items : Table Nat Item
  /-- For each collective key, its arrivals; and the closed keys (R270). -/
  colls : Table CollKey Gathering
  closed : List CollKey
  engq : Table (QOwner × Nat) EngineQ
  cores : Table (Nat × Nat) Core
  mccs : Table (Nat × Nat) Mcc
  ctls : Table (Nat × Nat) Ctl
  pkgs : Table Nat Package
  panels : Table Nat Panel
  /-- Control memory, HBM and second tier of every package: see `Machine/Memory.lean`. -/
  mem : Cells
  /-- What each line was last written under, where that is not its default (R298). -/
  lineKeys : Table Nat LineKey
  /-- Words with commits that may still take their place within a block's next barrier commit (R314). -/
  early : List EarlyWord
  /-- The package that last wrote each control home line, and so holds it in M or O until it writes it back (R309, R317). -/
  owners : Table Nat Nat
  /-- The latest write that the annex home holds of a home byte of which an earlier write is not acknowledged (R288, R305). -/
  annexed : Table Nat Nat
  /-- The number of the next home byte written (R305). -/
  serial : Nat
  /-- What cached translations and the Stacks may still use (R217, R295). -/
  stale : List Stale
  bad : List BadWord
  /-- The next number for a block, launch or item. -/
  nextId : Nat
  /-- The turns to come; when there is none, a free value names one. -/
  agenda : List Turn
  /-- The agent whose instruction runs. -/
  cur : Agent
  /-- Counts the free values taken. -/
  choice : Nat
deriving DecidableEq, Repr, Inhabited

/-- Reasons a step stops with a fault. -/
inductive Fault where
  /-- Raised by no meaning: every trap of the manual is a next state (R339). Safe. -/
  | none
deriving DecidableEq, Repr, Inhabited

/-- Reasons a step is refused. -/
inductive Refusal where
  /-- An arm of `exec` that has no meaning yet. Safe. -/
  | notModelled (mnemonic : String)
deriving DecidableEq, Repr, Inhabited

/-- Outcome of a step of this machine. -/
abbrev Out := Host.Outcome State Fault Refusal

/-- The state after an instruction's effect, or why there is none (R30, R344). -/
abbrev Eff := Except Stop State

/-- The firmware entry of a control core (log entry 4). DESIGN CHOICE: log entry 4. -/
def firmwareEntry : Word64 := 0x200000

/-- A control core's stream at package reset (R25, R385; log entries 4 and 5). DESIGN CHOICE: log entry 5. -/
def Stream.reset : Stream where
  spc := firmwareEntry
  s := Vector.replicate 64 0
  ext := none
  mode := 1
  trappc := 0
  trapcause := 0
  trapaddr := 0
  ld := 0
  st := 0
  cp := 0
  tl := 0
  fcnt := 0
  fstat := 0
  uw := 0
  await := []
  loads := []
  stores := []
  deferred := []
  run := .sleeping
  half := none
  kept := none
  posted := none

/-- A compute core at package reset (R25, R282). DESIGN CHOICE: log entry 6. -/
def Core.reset : Core where
  ahead := 0
  trapbase := 0
  sidebuf := 0
  savebase := 0
  conv := Vector.replicate 4 0
  wbuf := []
  clean := []
  owned := []
  shadows := []
  fenced := false
  reserved := none
  pushed := Vector.replicate 4 0
  watch := []

/-- A matrix control core at package reset, running no stream (R182). -/
def Mcc.reset : Mcc where
  ahead := 0
  trapbase := 0
  sidebuf := 0
  savebase := 0
  conv := 0
  launch := none
  gang := []
  first := 0
  ctxid := 0
  ptbase := 0
  tsc := Vector.replicate 8 0
  ops := Vector.replicate 8 []
  arriving := []
  bind := Vector.replicate 8 none
  fenced := false
  watch := []
  endstat := 0

/-- A control core at package reset (R120, R341). -/
def Ctl.reset : Ctl where
  ahead := 0
  trapbase := 0
  ctxid := 0
  ptbase := 0
  wake := false
  watch := []

/-- An empty hardware launch queue (R318, R384). -/
def LaunchQ.reset : LaunchQ where
  items := []
  eligible := false
  kicked := none
  ring := 0
  nent := 0
  ctxid := 0
  ptbase := 0
  qprio := 0
  chosen := false
  unplaced := 0

/-- Fully healthy Muniment tables (R378). DESIGN CHOICE: log entry 9. -/
def Muniment.healthy : Muniment where
  cores := List.replicate 468 1
  ctls := List.replicate 32 1
  chans := List.range 512
  lanes := []
  mseq := 0
  signed := true

/-- A package right after power-on reset, its cores held (R384, R385). -/
def Package.reset : Package where
  present := true
  booted := false
  fenced := false
  fmtDefault := Vector.replicate 16 0
  keys := [(0, ⟨some 0, 0⟩)]
  nextMaterial := 1
  jroots := []
  ctlMaterial := 0
  phasers := []
  cyc := 0
  go := 0
  qtab := 0
  queues := Vector.replicate 64 LaunchQ.reset
  child := LaunchQ.reset
  served := 0
  accepted := []
  machine := []
  muniment := Muniment.healthy
  faults := []
  badChunks := []
  links := []
  lseq := 0
  notices := []
  lost := []
  rebuilding := []
  reverted := []
  unmirrored := false
  flash := [⟨1, [], true⟩, ⟨0, [], false⟩]
  inUse := 0
  rollback := 0
  kek := none
  token := false
  leases := []
  devices := []
  trained := []
  epoch := 0
  step := 0
  nstep := 0
  cause := 0
  watts := 0
  tj := 0
  inlet := 0
  calm := 0
  sinceBeat := 0
  beats := []
  goRead := none
  mail := none

/-- The machine right after power-on reset: one package, package 0, whose security engine has its boot sequence to run
(R384, R385; log entry 10). -/
def State.reset : State where
  streams := [(.ctl 0 0, Stream.reset)]
  groups := []
  blocks := []
  past := []
  launches := []
  items := []
  colls := []
  closed := []
  engq := []
  cores := []
  mccs := []
  ctls := []
  pkgs := [(0, Package.reset)]
  panels := []
  mem := []
  lineKeys := []
  early := []
  owners := []
  annexed := []
  serial := 0
  stale := []
  bad := []
  nextId := 0
  agenda := [.event (.powerOnReset 0)]
  cur := .ctl 0 0
  choice := 0

end Sys2Proof.Machine
end

