-- ==== Sys2Proof/Machine/Table.lean ====
section
/-! DEFINITION. Lookup and update of the keyed tables that the state is made of. -/

namespace Sys2Proof.Machine

variable {κ ν : Type} [DecidableEq κ]

/-- The value of a key. -/
def Table.find? : Table κ ν → κ → Option ν
  | [], _ => none
  | (k', v) :: r, k => if k' = k then some v else Table.find? r k

/-- The value of a key, `d` when the key is absent. -/
def Table.findD (t : Table κ ν) (k : κ) (d : ν) : ν := (Table.find? t k).getD d

/-- Sets a key: in its place, or at the end. -/
def Table.put : Table κ ν → κ → ν → Table κ ν
  | [], k, v => [(k, v)]
  | (k', v') :: r, k, v => if k' = k then (k, v) :: r else (k', v') :: Table.put r k v

/-- Removes every entry of a key. -/
def Table.del : Table κ ν → κ → Table κ ν
  | [], _ => []
  | (k', v') :: r, k => if k' = k then Table.del r k else (k', v') :: Table.del r k

/-- Changes the value of a key that is present. -/
def Table.upd (t : Table κ ν) (k : κ) (f : ν → ν) : Table κ ν :=
  match Table.find? t k with
  | some v => Table.put t k (f v)
  | none => t

/-- Adds a number to a list that holds it at most once. -/
def addOnce {α : Type} [DecidableEq α] (x : α) (l : List α) : List α := if x ∈ l then l else l ++ [x]

/-- Removes the first `n` of a list where it stands, by position. -/
def removeAt {α : Type} (l : List α) (k : Nat) : List α := l.take k ++ l.drop (k + 1)

/-- Replaces the element at a position. -/
def setAt {α : Type} (l : List α) (k : Nat) (x : α) : List α := l.take k ++ (if k < l.length then [x] else []) ++ l.drop (k + 1)

/-- Applies an effect to each element in turn, stopping at the first trap. -/
def seqEff {α σ ε : Type} (f : α → σ → Except ε σ) : List α → σ → Except ε σ
  | [], s => .ok s
  | x :: r, s => match f x s with
    | .ok s' => seqEff f r s'
    | .error e => .error e

/-- Applies a total effect to each element in turn. -/
def seqAll {α σ : Type} (f : α → σ → σ) : List α → σ → σ
  | [], s => s
  | x :: r, s => seqAll f r (f x s)

/-- The element of a vector at a number, `default` outside it. -/
def Vec.get {α : Type} [Inhabited α] {n : Nat} (v : Vector α n) (i : Nat) : α := v.toList.getD i default

/-- Sets the element of a vector at a number; nothing outside it. -/
def Vec.set {α : Type} {n : Nat} (v : Vector α n) (i : Nat) (x : α) : Vector α n :=
  ⟨⟨v.toList.set i x⟩, by simp⟩

/-- A vector by its elements' numbers. -/
def Vec.make {α : Type} (n : Nat) (f : Nat → α) : Vector α n := ⟨⟨(List.range n).map f⟩, by simp⟩

end Sys2Proof.Machine
end

