-- ==== Sys2Proof/Machine/Memory.lean ====
section
/-! DEFINITION. Byte memories as lists of cells in one canonical form: addresses strictly rising, and no entry equal to
the 0 that an unlisted address reads as (R21, R384; log entry 3). -/

namespace Sys2Proof.Machine

/-- The canonical form from address `lo` on. -/
def Cells.from (lo : Nat) : Cells → Bool
  | [] => true
  | (a, b) :: r => decide (lo ≤ a) && b != 0#8 && Cells.from (a + 1) r

/-- The canonical form. -/
def Cells.wf (m : Cells) : Bool := Cells.from 0 m

/-- The byte at an address. DESIGN CHOICE: log entry 3. -/
def Cells.read : Cells → Nat → Byte
  | [], _ => 0#8
  | (x, b) :: r, a => if a = x then b else if a < x then 0#8 else Cells.read r a

/-- Writes a byte. -/
def Cells.write : Cells → Nat → Byte → Cells
  | [], a, v => if v = 0#8 then [] else [(a, v)]
  | (x, b) :: r, a, v =>
    if a < x then (if v = 0#8 then (x, b) :: r else (a, v) :: (x, b) :: r)
    else if a = x then (if v = 0#8 then r else (a, v) :: r)
    else (x, b) :: Cells.write r a v

/-- `n` bytes from an address on. -/
def Cells.readN (m : Cells) (a : Nat) : Nat → List Byte
  | 0 => []
  | n + 1 => m.read a :: Cells.readN m (a + 1) n

/-- Writes bytes from an address on. -/
def Cells.writeN (m : Cells) (a : Nat) : List Byte → Cells
  | [] => m
  | b :: r => Cells.writeN (m.write a b) (a + 1) r

/-- Little-endian value of bytes (R26, R31, R34). -/
def leNat : List Byte → Nat
  | [] => 0
  | b :: r => b.toNat + 256 * leNat r

/-- The `n` low bytes of a number, little-endian. -/
def leBytes : Nat → Nat → List Byte
  | 0, _ => []
  | n + 1, x => BitVec.ofNat 8 x :: leBytes n (x / 256)

/-- A field [hi:lo] of a number (R30). -/
def bits (x hi lo : Nat) : Nat := x / 2 ^ lo % 2 ^ (hi + 1 - lo)

/-- The signed value of the `n` low bits of a number. -/
def sextInt (x n : Nat) : Int :=
  let y := x % 2 ^ n
  if 2 * y < 2 ^ n then (y : Int) else (y : Int) - 2 ^ n

/-- An integer modulo 2^n. -/
def wrapNat (n : Nat) (x : Int) : Nat := (x % 2 ^ n).toNat

/-- `ceil(a / b)` (R351). -/
def ceilDiv (a b : Nat) : Nat := (a + b - 1) / b

end Sys2Proof.Machine
end

