-- ==== Sys2Proof/Machine/Aes.lean ====
section
/-! DEFINITION. AES-256, its XTS mode and the unwrapping of keys (R297, R298, R390): the ciphers of FIPS 197, IEEE 1619 and
RFC 5649, which the manual names and whose arithmetic is theirs. PRESUMED: log entry 107. -/

namespace Sys2Proof.Machine

/-- The double of a byte in the field of FIPS 197. -/
def gfDouble (b : Byte) : Byte := (b <<< 1) ^^^ (if b.getLsbD 7 then 0x1B else 0)

/-- The product of bytes in the field, bit by bit of the second. -/
def gfMul (a b : Byte) : Byte :=
  ((List.range 8).foldl (fun (x : Byte × Byte) i => (if b.getLsbD i then x.1 ^^^ x.2 else x.1, gfDouble x.2)) (0, a)).1

/-- The inverse of a byte in the field, its 254th power; 0 for 0. -/
def gfInv (b : Byte) : Byte :=
  ((List.range 7).foldl (fun (x : Byte × Byte) _ => let q := gfMul x.2 x.2; (gfMul x.1 q, q)) (1, b)).1

/-- The substitution of a byte and its inverse. -/
def subByte (b : Byte) : Byte :=
  let i := gfInv b
  i ^^^ i.rotateLeft 1 ^^^ i.rotateLeft 2 ^^^ i.rotateLeft 3 ^^^ i.rotateLeft 4 ^^^ 0x63
def unsubByte (b : Byte) : Byte := gfInv (b.rotateLeft 1 ^^^ b.rotateLeft 3 ^^^ b.rotateLeft 6 ^^^ 0x05)

/-- Bytes combined place by place. -/
def xorBytes (a b : List Byte) : List Byte := a.zipWith (· ^^^ ·) b

/-- The words of the key schedule from word `i` on, given the eight before it. -/
def keyWords : Nat → Nat → Byte → List (List Byte) → List (List Byte)
  | 0, _, _, _ => []
  | fuel + 1, i, rc, last =>
    let t := last.getD 7 []
    let t := if i % 8 = 0 then xorBytes ((t.drop 1 ++ t.take 1).map subByte) [rc, 0, 0, 0] else if i % 8 = 4 then t.map subByte else t
    let w := xorBytes (last.getD 0 []) t
    w :: keyWords fuel (i + 1) (if i % 8 = 0 then gfDouble rc else rc) (last.drop 1 ++ [w])

/-- The round keys of a 32-byte key, 16 bytes each, in order. -/
def roundKeys (key : List Byte) : List (List Byte) :=
  let first := (List.range 8).map (fun i => (key.drop (4 * i)).take 4)
  let ws := first ++ keyWords 52 8 1 first
  (List.range 15).map (fun r => ((ws.drop (4 * r)).take 4).flatten)

/-- The rows of a block turned, column by column of the block; `k` is 1 to encrypt and 3 to decrypt. -/
def turnRows (k : Nat) (b : List Byte) : List Byte := (List.range 16).map (fun i => b.getD ((i + 4 * k * (i % 4)) % 16) 0)

/-- The columns of a block multiplied by the circulant of four bytes. -/
def mixWith (m : List Byte) (b : List Byte) : List Byte :=
  (List.range 16).map (fun i => (List.range 4).foldl (fun x j => x ^^^ gfMul (b.getD (i / 4 * 4 + j) 0) (m.getD ((j + 4 - i % 4) % 4) 0)) 0)

/-- A block encrypted under round keys, and decrypted. -/
def aesEncrypt (ks : List (List Byte)) (b : List Byte) : List Byte :=
  let b := (List.range 13).foldl (fun b r => xorBytes (mixWith [2, 3, 1, 1] (turnRows 1 (b.map subByte))) (ks.getD (r + 1) [])) (xorBytes b (ks.getD 0 []))
  xorBytes (turnRows 1 (b.map subByte)) (ks.getD 14 [])
def aesDecrypt (ks : List (List Byte)) (b : List Byte) : List Byte :=
  let b := (List.range 13).foldl (fun b r => mixWith [14, 11, 13, 9] (xorBytes ((turnRows 3 b).map unsubByte) (ks.getD (13 - r) []))) (xorBytes b (ks.getD 14 []))
  xorBytes ((turnRows 3 b).map unsubByte) (ks.getD 0 [])

/-- The mask of block `j` of a data unit: its encrypted number, doubled `j` times (XTS). -/
def xtsMask (key2 : List Byte) (unit j : Nat) : List Byte :=
  leBytes 16 ((List.range j).foldl (fun x _ => if x < 2 ^ 127 then 2 * x else (2 * x - 2 ^ 128) ^^^ 0x87) (leNat (aesEncrypt (roundKeys key2) (leBytes 16 unit))))

/-- Block `j` of a data unit under 64 bytes of material, data key first, encrypted and decrypted (R297). -/
def xtsEncrypt (material : List Byte) (unit j : Nat) (b : List Byte) : List Byte :=
  let m := xtsMask (material.drop 32) unit j
  xorBytes (aesEncrypt (roundKeys (material.take 32)) (xorBytes b m)) m
def xtsDecrypt (material : List Byte) (unit j : Nat) (b : List Byte) : List Byte :=
  let m := xtsMask (material.drop 32) unit j
  xorBytes (aesDecrypt (roundKeys (material.take 32)) (xorBytes b m)) m

/-- One step back through the wrapping: the check word and the words, with the count of the step. -/
def unwrapStep (ks : List (List Byte)) (n : Nat) (x : List Byte × List (List Byte)) (t : Nat) : List Byte × List (List Byte) :=
  let i := (t - 1) % n
  let b := aesDecrypt ks (xorBytes x.1 ((leBytes 8 t).reverse) ++ x.2.getD i [])
  (b.take 8, x.2.set i (b.drop 8))

/-- The 64 bytes that 72 wrapped bytes unwrap to under a key-encryption key, or none where the check fails (R390). -/
def unwrapMaterial (kek wrapped : List Byte) : Option (List Byte) :=
  let words := (List.range 8).map (fun i => (wrapped.drop (8 * i + 8)).take 8)
  let r := ((List.range 48).map (fun i => 48 - i)).foldl (unwrapStep (roundKeys kek) 8) (wrapped.take 8, words)
  if r.1 = [0xA6, 0x59, 0x59, 0xA6, 0, 0, 0, 64] then some r.2.flatten else none

end Sys2Proof.Machine
end

