-- ==== Sys2Proof/Config.lean ====
section
/-! DEFINITION. What the manual leaves open: free values, constants without a body, so that no proof can see them
(log entry 2). The first argument of most is the state's choice counter, which every step advances. -/

namespace Sys2Proof.Config

open Sys2Proof.Machine

/-- The next move of the machine when the agenda names none (R8, R303, R313). -/
opaque chooseTurn : Nat → Turn

/-- A choice between two outcomes that a rule allows; the second argument is the place of the choice.
DESIGN CHOICE: log entry 2. -/
opaque freeBit : Nat → Nat → Bool

/-- A number that a rule leaves open. -/
opaque freeNat : Nat → Nat → Nat

/-- A byte of the 64 bytes of key material that a package's own generator made: the package, the material's number, the
byte (R297, R384). -/
opaque keyByte : Nat → Nat → Nat → Byte

/-- A byte of the form in which the quantum buffers of a block's groups, by group index, lie in its save image, which the
device alone reads back (R360). -/
opaque qbufForm : List (Nat × QBuf) → Nat → Byte

/-- A byte of a SHAKE256 digest of a message, by its place (R385, R390). -/
opaque shake256 : List Byte → Nat → Byte

/-- A byte of a Falcon-1024 signature, by the package whose identity key signs, and of that package's public key
(R390). -/
opaque falconSign : Nat → List Byte → Nat → Byte
opaque identityKey : Nat → Nat → Byte

/-- A byte of the fused vendor key (R385). -/
opaque vendorKey : Nat → Byte

/-- Whether a signature verifies under a 1,793-byte public key: the key, the signed bytes, the signature (R86, R389). -/
opaque falconVerify : List Byte → List Byte → List Byte → Bool

/-- The exponent that stands for log2 of a format's value 0, which has none, by the format's parameters (R40, R49). -/
opaque zeroExponent : List Int → Int

/-- The code of a finite number over a scale that is 0, by the number's sign, digits and exponent (R51). -/
opaque zeroQuotient : List Int → Nat

/-- Readings of the power monitor: watts, hottest junction, inlet (R392). -/
opaque watts : Nat → Nat
opaque junction : Nat → Nat
opaque inlet : Nat → Nat

end Sys2Proof.Config
end

