-- ==== Sys2Proof/Machine/Num.lean ====
section
/-! DEFINITION. Exact numbers, the formats and their rounding (R31 to R56). -/

namespace Sys2Proof.Machine

/-- A NaN, an infinity, or the exact number (-1)^neg * m * 2^e; a zero has a sign (R30, R42). -/
inductive Num where
  | nan
  | inf (neg : Bool)
  | fin (neg : Bool) (m : Nat) (e : Int)
deriving DecidableEq, Repr, Inhabited

/-- A floating format: a standard one (R31) or a narrow slot (R38). -/
structure Fmt where
  sgn : Bool
  exp : Nat
  man : Nat
  bias : Int
  /-- 0 FIN, 1 IEEE, 2 NANONLY. -/
  spec : Nat
  /-- 0 gradual, 1 flush, 2 none. -/
  zero : Nat
  /-- Overflow goes to infinity or NaN, not to the largest finite value. -/
  ovf : Bool
deriving DecidableEq, Repr, Inhabited

/-- FP64, FP32, FP16 and BF16 (R31), and the 12-bit format of R33 and R52. -/
def fmt64 : Fmt := ⟨true, 11, 52, 1023, 1, 0, true⟩
def fmt32 : Fmt := ⟨true, 8, 23, 127, 1, 0, true⟩
def fmt16 : Fmt := ⟨true, 5, 10, 15, 1, 0, true⟩
def fmtB16 : Fmt := ⟨true, 8, 7, 127, 1, 0, true⟩
def fmtT32 : Fmt := ⟨true, 8, 11, 127, 1, 0, true⟩

/-- The element width W (R38). -/
def Fmt.width (f : Fmt) : Nat := (if f.sgn then 1 else 0) + f.exp + f.man

/-- The format of a slot word (R38). -/
def slotFmt (w : Word32) : Fmt where
  sgn := w.getLsbD 31
  exp := (w.extractLsb' 27 4).toNat
  man := (w.extractLsb' 23 4).toNat
  bias := (w.extractLsb' 15 8).toInt
  spec := (w.extractLsb' 13 2).toNat
  zero := (w.extractLsb' 11 2).toNat
  ovf := w.getLsbD 10

/-- A nonzero slot word meets the conditions of R39. -/
def slotOk (w : Word32) : Bool :=
  let f := slotFmt w
  1 ≤ f.width && f.width ≤ 8 && w.extractLsb' 0 10 == 0 && f.exp ≤ 8 && f.man ≤ 8 &&
    f.spec != 3 && f.zero != 3 &&
    (f.exp != 0 || (f.spec == 0 && f.zero == 0 && !f.ovf)) &&
    (f.spec != 1 || (2 ≤ f.exp && 1 ≤ f.man)) &&
    (f.spec != 0 || !f.ovf)

/-- The exact value of a code (R40). -/
def Fmt.decode (f : Fmt) (b : Nat) : Num :=
  let neg := f.sgn && b / 2 ^ (f.exp + f.man) % 2 == 1
  let e := b / 2 ^ f.man % 2 ^ f.exp
  let m := b % 2 ^ f.man
  let top := 2 ^ f.exp - 1
  if f.exp = 0 then .fin neg m (-f.bias)
  else if f.spec = 1 ∧ e = top then (if m = 0 then .inf neg else .nan)
  else if f.spec = 2 ∧ e = top ∧ m = 2 ^ f.man - 1 then .nan
  else if e = 0 ∧ f.zero = 0 then .fin neg m (1 - f.bias - f.man)
  else if e = 0 ∧ f.zero = 1 then .fin neg 0 0
  else .fin neg (2 ^ f.man + m) (e - f.bias - f.man)

/-- The largest finite magnitude's code (R40). -/
def Fmt.maxCode (f : Fmt) : Nat :=
  if f.spec = 1 then (2 ^ f.exp - 1) * 2 ^ f.man - 1
  else if f.spec = 2 then 2 ^ (f.exp + f.man) - 2
  else 2 ^ (f.exp + f.man) - 1

/-- A magnitude's code with a sign. -/
def Fmt.signed (f : Fmt) (neg : Bool) (code : Nat) : Nat :=
  code + (if neg && f.sgn then 2 ^ (f.exp + f.man) else 0)

/-- The canonical NaN (R31, R40), or 0 in a format without one (R42 step 1). -/
def Fmt.nanCode (f : Fmt) : Nat :=
  if f.spec = 1 then (2 ^ f.exp - 1) * 2 ^ f.man + 2 ^ (f.man - 1)
  else if f.spec = 2 then 2 ^ (f.exp + f.man) - 1
  else 0

/-- The code that stands for an infinity on overflow (R42 steps 3 and 5). -/
def Fmt.infCode (f : Fmt) (neg : Bool) : Nat :=
  if f.spec = 1 then f.signed neg ((2 ^ f.exp - 1) * 2 ^ f.man)
  else if f.spec = 2 then f.nanCode
  else f.signed neg f.maxCode

/-- A rounding: the code of R36 and the random value of R45. -/
structure Rnd where
  mode : Nat
  rv : Nat := 0
deriving DecidableEq, Repr, Inhabited

/-- Round to nearest, ties to even. -/
def rneMode : Rnd := { mode := 0 }

/-- Whether a magnitude whose remainder is `r / 2^sh` of a grid step goes to the larger neighbour (R36, R45); `odd` says
that the smaller neighbour's code is odd. -/
def Rnd.up (k : Rnd) (neg odd : Bool) (r sh : Nat) : Bool :=
  match k.mode with
  | 0 => decide (2 ^ sh < 2 * r) || (decide (2 * r = 2 ^ sh) && odd)
  | 1 => decide (2 ^ sh ≤ 2 * r)
  | 2 => false
  | 3 => neg && r != 0
  | 4 => !neg && r != 0
  | _ => decide (2 ^ 16 ≤ r * 2 ^ 16 / 2 ^ sh + k.rv)

/-- `m * 2^e` in steps of `2^q`: the floor and the remainder with its width. -/
def gridSplit (m : Nat) (e q : Int) : Nat × Nat × Nat :=
  if q ≤ e then (m * 2 ^ (e - q).toNat, 0, 0)
  else
    let sh := (q - e).toNat
    (m / 2 ^ sh, m % 2 ^ sh, sh)

/-- The step exponent of the grid at `m * 2^e` (R42 step 4). -/
def Fmt.gridExp (f : Fmt) (m : Nat) (e : Int) : Int :=
  let top : Int := e + Nat.log2 m
  if f.exp = 0 then -f.bias
  else if f.zero = 2 then top - f.man
  else max top (1 - f.bias) - f.man

/-- The code, possibly outside the format, of the grid magnitude `g * 2^q`. -/
def Fmt.gridCode (f : Fmt) (g : Nat) (q : Int) : Int :=
  if f.exp = 0 then g
  else if f.zero = 2 then (q + f.man + f.bias) * 2 ^ f.man + (g - 2 ^ f.man)
  else (q - (1 - f.bias - f.man)) * 2 ^ f.man + g

/-- Overflow (R42 step 5): whether the mode goes beyond the largest finite value. -/
def Rnd.overInf (k : Rnd) (neg : Bool) : Bool :=
  match k.mode with
  | 2 => false
  | 3 => neg
  | 4 => !neg
  | _ => true

/-- `rnd(x, f, mode)` (R42). -/
def Fmt.round (f : Fmt) (k : Rnd) : Num → Nat
  | .nan => f.nanCode
  | .inf neg =>
    if neg && !f.sgn then 0
    else if f.spec = 1 then f.infCode neg
    else if f.ovf && f.spec = 2 then f.nanCode
    else f.signed neg f.maxCode
  | .fin neg m e =>
    if neg && !f.sgn then 0
    else if m = 0 then f.signed neg 0
    else
      let q := f.gridExp m e
      let (g, r, sh) := gridSplit m e q
      let lo := f.gridCode g q
      let c := if k.up neg (lo % 2 == 1) r sh then lo + 1 else lo
      if (f.maxCode : Int) < c then
        if f.ovf && k.overInf neg then f.infCode neg else f.signed neg f.maxCode
      else if f.zero = 1 ∧ c < 2 ^ f.man then f.signed neg 0
      else f.signed neg c.toNat

/-- The exact value of the rounded number. -/
def Fmt.rnd (f : Fmt) (k : Rnd) (x : Num) : Num := f.decode (f.round k x)

/-- Rounds to an integer under a mode (R34, `FRINT`). -/
def Num.toIntRnd (k : Rnd) (neg : Bool) (m : Nat) (e : Int) : Int :=
  let (g, r, sh) := gridSplit m e 0
  let g' := if k.up neg (g % 2 == 1) r sh then g + 1 else g
  if neg then -(g' : Int) else g'

namespace Num

/-- Plus zero. -/
def zero : Num := .fin false 0 0

/-- An integer. -/
def ofInt (x : Int) : Num := .fin (decide (x < 0)) x.natAbs 0

def isNan : Num → Bool
  | .nan => true
  | _ => false

def isInf : Num → Bool
  | .inf _ => true
  | _ => false

def isZero : Num → Bool
  | .fin _ 0 _ => true
  | _ => false

def isNeg : Num → Bool
  | .nan => false
  | .inf n => n
  | .fin n _ _ => n

def neg : Num → Num
  | .nan => .nan
  | .inf n => .inf (!n)
  | .fin n m e => .fin (!n) m e

def abs : Num → Num
  | .nan => .nan
  | .inf _ => .inf false
  | .fin _ m e => .fin false m e

/-- The signed numerator of a finite number at exponent `q`, at most its own. -/
def scaled (neg : Bool) (m : Nat) (e q : Int) : Int :=
  let x : Int := m * 2 ^ (e - q).toNat
  if neg then -x else x

/-- The exact sum; a zero sum of unlike zeros or of opposite numbers takes the sign `rdn` (IEEE 754). -/
def add (rdn : Bool) : Num → Num → Num
  | .nan, _ => .nan
  | _, .nan => .nan
  | .inf a, .inf b => if a = b then .inf a else .nan
  | .inf a, _ => .inf a
  | _, .inf b => .inf b
  | .fin n1 m1 e1, .fin n2 m2 e2 =>
    let q := min e1 e2
    let x := scaled n1 m1 e1 q + scaled n2 m2 e2 q
    if x = 0 then .fin (if n1 && n2 && m1 == 0 && m2 == 0 then true else if m1 == 0 && m2 == 0 && n1 == n2 then n1 else rdn) 0 0
    else .fin (decide (x < 0)) x.natAbs q

/-- The exact product. -/
def mul : Num → Num → Num
  | .nan, _ => .nan
  | _, .nan => .nan
  | .inf a, .inf b => .inf (a != b)
  | .inf a, .fin n m _ => if m = 0 then .nan else .inf (a != n)
  | .fin n m _, .inf b => if m = 0 then .nan else .inf (n != b)
  | .fin n1 m1 e1, .fin n2 m2 e2 => .fin (n1 != n2) (m1 * m2) (e1 + e2)

/-- Times a power of two. -/
def shift (x : Num) (k : Int) : Num :=
  match x with
  | .fin n m e => .fin n m (e + k)
  | y => y

/-- Less than, for numbers that are not NaN; zeros are equal. -/
def lt : Num → Num → Bool
  | .nan, _ => false
  | _, .nan => false
  | .inf a, .inf b => a && !b
  | .inf a, .fin _ _ _ => a
  | .fin _ _ _, .inf b => !b
  | .fin n1 m1 e1, .fin n2 m2 e2 =>
    let q := min e1 e2
    decide (scaled n1 m1 e1 q < scaled n2 m2 e2 q)

/-- Equal as numbers; NaN equals nothing. -/
def eq (a b : Num) : Bool := !a.isNan && !b.isNan && !a.lt b && !b.lt a

/-- floor(log2 |x|) of a nonzero finite number. -/
def log2 : Num → Int
  | .fin _ m e => e + Nat.log2 m
  | _ => 0

end Num

/-- An integer saturated to a signed or unsigned type of `n` bits (R34). -/
def satInt (signed : Bool) (n : Nat) (x : Int) : Int :=
  if signed then max (-(2 ^ (n - 1))) (min x (2 ^ (n - 1) - 1)) else max 0 (min x (2 ^ n - 1))

/-- Conversion of a number to an integer type (R34). -/
def Num.toType (k : Rnd) (signed : Bool) (n : Nat) : Num → Int
  | .nan => 0
  | .inf true => if signed then -(2 ^ (n - 1)) else 0
  | .inf false => if signed then 2 ^ (n - 1) - 1 else 2 ^ n - 1
  | .fin neg m e => satInt signed n (Num.toIntRnd k neg m e)

/-- Integer square root by one binary digit at a time. -/
def isqrtGo : Nat → Nat → Nat → Nat
  | 0, _, r => r
  | k + 1, x, r => isqrtGo k x (if (r + 2 ^ k) * (r + 2 ^ k) ≤ x then r + 2 ^ k else r)

def isqrt (x : Nat) : Nat := isqrtGo (Nat.log2 x / 2 + 1) x 0

/-- The bits kept of the series below; a nonzero rest is held in one sticky bit. -/
def seriesBits : Nat := 160

/-- A positive quotient or root with a sticky bit. -/
def sticky (m : Nat) (rest : Bool) (e : Int) (neg : Bool) : Num := .fin neg (2 * m + (if rest then 1 else 0)) (e - 1)

/-- The exact reciprocal to the kept bits (R52). -/
def Num.recip : Num → Num
  | .nan => .nan
  | .inf n => .fin n 0 0
  | .fin n m e =>
    if m = 0 then .inf n
    else
      let t := 2 ^ (seriesBits + Nat.log2 m)
      sticky (t / m) (t % m != 0) (-e - (seriesBits + Nat.log2 m : Nat)) n

/-- The reciprocal square root to the kept bits (R52). -/
def Num.rsqrt : Num → Num
  | .nan => .nan
  | .inf n => if n then .nan else .fin false 0 0
  | .fin n m e =>
    if m = 0 then .inf n
    else if n then .nan
    else
      -- 1 / sqrt(m * 2^e) = sqrt(2^(2k) / m) * 2^(-k - e / 2), the exponent made even
      let m' := if e % 2 = 0 then m else 2 * m
      let e' := if e % 2 = 0 then e else e - 1
      let k := seriesBits + Nat.log2 m'
      let t := 2 ^ (2 * k) / m'
      let r := isqrt t
      sticky r (r * r * m' != 2 ^ (2 * k)) (-(k : Int) - e' / 2) false

/-- ln 2 in units of 2^-160. -/
def ln2Fixed : Nat := 0xB17217F7D1CF79ABC9E3B39803F2F6AF40F34326

/-- exp(y) - 1 in units of 2^-160, for y in the same units, by its power series. -/
def expGo : Nat → Nat → Nat → Nat → Nat
  | 0, _, _, _ => 0
  | fuel + 1, y, k, term =>
    let t := term * y / (k * 2 ^ seriesBits)
    t + expGo fuel y (k + 1) t

/-- 2^x (R52). DESIGN CHOICE: log entry 42. -/
def Num.exp2 : Num → Num
  | .nan => .nan
  | .inf n => if n then .fin false 0 0 else .inf false
  | .fin n m e =>
    if m = 0 then .fin false 1 0
    else if 10 < e + Nat.log2 m then (if n then .fin false 1 (-4096) else .fin false 1 4096)
    else
      let (g, r, sh) := gridSplit m e 0
      -- x = i + f / 2^160 with 0 <= f < 2^160; a fraction below the kept bits is sticky
      let f0 := r * 2 ^ seriesBits / 2 ^ sh
      let i : Int := if n then (if r = 0 then -(g : Int) else -(g : Int) - 1) else g
      let f := if r = 0 then 0 else if n then 2 ^ seriesBits - 1 - f0 else f0
      if r = 0 then .fin false 1 i
      else sticky (2 ^ seriesBits + expGo 64 (f * ln2Fixed / 2 ^ seriesBits) 1 (2 ^ seriesBits)) true (i - seriesBits) false

/-- atanh(z) in units of 2^-160 by its power series; `p` is the running power. -/
def atanhGo : Nat → Nat → Nat → Nat → Nat
  | 0, _, _, _ => 0
  | fuel + 1, z2, k, p => p / k + atanhGo fuel z2 (k + 2) (p * z2 / 2 ^ seriesBits)

/-- log2 x (R52). -/
def Num.logb : Num → Num
  | .nan => .nan
  | .inf n => if n then .nan else .inf false
  | .fin n m e =>
    if m = 0 then .inf true
    else if n then .nan
    else
      let l := Nat.log2 m
      let top : Int := e + l
      if m = 2 ^ l then .ofInt top
      else
        let z := (m - 2 ^ l) * 2 ^ seriesBits / (m + 2 ^ l)
        let ln := 2 * atanhGo 64 (z * z / 2 ^ seriesBits) 1 z
        let v : Int := top * 2 ^ seriesBits + (ln * 2 ^ seriesBits / ln2Fixed : Nat)
        if 0 ≤ v then sticky v.toNat true (-seriesBits) false
        else sticky (-v - 1).toNat true (-seriesBits) true

/-- `xorshift32` (R43). -/
def xorshift32 (z : Word32) : Word32 :=
  let z := z ^^^ (z <<< 13)
  let z := z ^^^ (z >>> 17)
  z ^^^ (z <<< 5)

/-- rv_l of a draw (R45). -/
def drawRv (z : Word32) (l : Nat) : Nat := ((z.rotateLeft (l % 32)).extractLsb' 16 16).toNat

/-- The seed of a converter (R44). -/
def converterSeed (srseed : Word64) (c i : Nat) : Word32 :=
  let z := srseed.extractLsb' 0 32 ^^^ srseed.extractLsb' 32 32 ^^^ BitVec.ofNat 32 (c * 0x9E3779B9) ^^^ BitVec.ofNat 32 (i * 0x85EBCA6B)
  if z = 0 then 0x6D2B79F5 else z

/-- Exact sum of terms (R53): -0 only if every term is -0. -/
def sumTerms : List Num → Num
  | [] => .fin true 0 0
  | x :: r => Num.add false x (sumTerms r)

/-- The exponent of a value of a format; 0 has none, and a free value stands for it (R40, R49). DESIGN CHOICE: log entry 120. -/
def Fmt.exponentOf (f : Fmt) (x : Num) : Int :=
  if x.isZero then Config.zeroExponent [f.exp, f.man, f.bias, f.spec, f.zero] else x.log2

/-- emax(f) (R40). -/
def Fmt.emax (f : Fmt) : Int := f.exponentOf (f.decode f.maxCode)

/-- The code of the smallest nonzero magnitude (R40). -/
def Fmt.minCode (f : Fmt) : Nat := if f.exp = 0 ∨ f.zero = 0 then 1 else if f.zero = 1 then 2 ^ f.man else 0

/-- Exponents of the smallest nonzero and the largest value of a scale slot (R49). -/
def Fmt.scaleRange (f : Fmt) : Int × Int := (f.exponentOf (f.decode f.minCode), f.exponentOf (f.decode f.maxCode))

/-- The largest magnitude of values that are not NaN, 0 if none (R49). -/
def amaxOf : List Num → Num
  | [] => .fin false 0 0
  | x :: r =>
    let y := amaxOf r
    if x.isNan then y else if y.lt x.abs then x.abs else y

/-- The scale exponent of a block (R49). -/
def blockScaleExp (f sf : Fmt) (xs : List Num) : Int :=
  let (kmin, kmax) := sf.scaleRange
  let a := amaxOf xs
  if a.isZero then kmin else if a.isInf then kmax else max kmin (min (a.log2 - f.emax) kmax)

/-- An element under a present scale 2^k, with the saturation of R49. -/
def encodeScaled (f : Fmt) (k : Rnd) (e : Int) (x : Num) : Nat :=
  let y := f.round k (x.shift (-e))
  match x, f.decode y with
  | .fin neg _ _, .nan => f.signed neg f.maxCode
  | .fin neg _ _, .inf _ => f.signed neg f.maxCode
  | _, _ => y

end Sys2Proof.Machine
end

