-- ==== Sys2Proof/Machine/Parts.lean ====
section
/-! DEFINITION. Access to the parts of the state: agents, streams, groups, blocks, registers (R10 to R30, R303, R341). -/

namespace Sys2Proof.Machine

/-- The package of an agent. -/
def agentPkg : Agent → Nat
  | .group p _ _ => p
  | .mcc p _ => p
  | .ctl p _ => p

/-- The die of an agent (R24). -/
def agentDie : Agent → Nat
  | .group _ c _ => c / 117
  | .mcc _ c => c / 13
  | .ctl _ i => i / 8

def isGroup : Agent → Bool
  | .group _ _ _ => true
  | _ => false

def isMcc : Agent → Bool
  | .mcc _ _ => true
  | _ => false

def isCtl : Agent → Bool
  | .ctl _ _ => true
  | _ => false

namespace State

/-- Parts of the state by their keys; an absent part reads as its default. -/
def stream (s : State) (ag : Agent) : Stream := Table.findD s.streams ag default
def group (s : State) (ag : Agent) : Group := Table.findD s.groups ag default
def block (s : State) (b : Nat) : Block := Table.findD s.blocks b (Table.findD s.past b default)
def launch (s : State) (l : Nat) : Launch := Table.findD s.launches l default
def item (s : State) (i : Nat) : Item := Table.findD s.items i default
def core (s : State) (k : Nat × Nat) : Core := Table.findD s.cores k Core.reset
def mcc (s : State) (k : Nat × Nat) : Mcc := Table.findD s.mccs k Mcc.reset
def ctl (s : State) (k : Nat × Nat) : Ctl := Table.findD s.ctls k Ctl.reset
def pkg (s : State) (p : Nat) : Package := Table.findD s.pkgs p Package.reset
def panel (s : State) (p : Nat) : Panel := Table.findD s.panels p default
def engine (s : State) (k : QOwner × Nat) : EngineQ := Table.findD s.engq k default

def setStream (s : State) (ag : Agent) (x : Stream) : State := { s with streams := Table.put s.streams ag x }
def setGroup (s : State) (ag : Agent) (x : Group) : State := { s with groups := Table.put s.groups ag x }
def setBlock (s : State) (b : Nat) (x : Block) : State := { s with blocks := Table.put s.blocks b x }
def setLaunch (s : State) (l : Nat) (x : Launch) : State := { s with launches := Table.put s.launches l x }
def setItem (s : State) (i : Nat) (x : Item) : State := { s with items := Table.put s.items i x }
def setCore (s : State) (k : Nat × Nat) (x : Core) : State := { s with cores := Table.put s.cores k x }
def setMcc (s : State) (k : Nat × Nat) (x : Mcc) : State := { s with mccs := Table.put s.mccs k x }
def setCtl (s : State) (k : Nat × Nat) (x : Ctl) : State := { s with ctls := Table.put s.ctls k x }
def setPkg (s : State) (p : Nat) (x : Package) : State := { s with pkgs := Table.put s.pkgs p x }
def setPanel (s : State) (p : Nat) (x : Panel) : State := { s with panels := Table.put s.panels p x }
def setEngine (s : State) (k : QOwner × Nat) (x : EngineQ) : State := { s with engq := Table.put s.engq k x }

end State

/-- The stream, group, block and core of the agent whose instruction runs. -/
def self (s : State) : Stream := s.stream s.cur
def selfGroup (s : State) : Group := s.group s.cur
def mapStream (ag : Agent) (f : Stream → Stream) (s : State) : State := s.setStream ag (f (s.stream ag))
def mapSelf (f : Stream → Stream) (s : State) : State := mapStream s.cur f s
def mapGroup (ag : Agent) (f : Group → Group) (s : State) : State := s.setGroup ag (f (s.group ag))
def mapSelfGroup (f : Group → Group) (s : State) : State := mapGroup s.cur f s
/-- Changes a placed block, or one whose gang still holds its pools; nothing where there is none. -/
def mapBlock (b : Nat) (f : Block → Block) (s : State) : State :=
  { s with blocks := Table.upd s.blocks b f, past := if (Table.find? s.blocks b).isSome then s.past else Table.upd s.past b f }
def mapCore (k : Nat × Nat) (f : Core → Core) (s : State) : State := s.setCore k (f (s.core k))
def mapMcc (k : Nat × Nat) (f : Mcc → Mcc) (s : State) : State := s.setMcc k (f (s.mcc k))
def mapCtl (k : Nat × Nat) (f : Ctl → Ctl) (s : State) : State := s.setCtl k (f (s.ctl k))
def mapPkg (p : Nat) (f : Package → Package) (s : State) : State := s.setPkg p (f (s.pkg p))
def mapItem (i : Nat) (f : Item → Item) (s : State) : State := { s with items := Table.upd s.items i f }
def mapLaunch (l : Nat) (f : Launch → Launch) (s : State) : State := { s with launches := Table.upd s.launches l f }

/-- The block of an agent that is a group. -/
def blockOf (s : State) (ag : Agent) : Option Nat := if isGroup ag then some (s.group ag).block else none

/-- The launch whose work an agent runs. -/
def launchOf (s : State) (ag : Agent) : Option Nat :=
  match ag with
  | .group _ _ _ => some (s.block (s.group ag).block).launch
  | .mcc p c => (s.mcc (p, c)).launch
  | .ctl _ _ => none

/-- System mode (R25). -/
def sysMode (s : State) (ag : Agent) : Bool := (s.stream ag).mode.getLsbD 0

/-- A scalar register; s0 reads as zero (R10). -/
def readS (x : Stream) (r : SReg) : Word64 := if r = 0 then 0 else Vec.get x.s r.toNat

/-- Writes a scalar register; a write to s0 is discarded (R10). -/
def writeS (r : SReg) (v : Word64) (x : Stream) : Stream := if r = 0 then x else { x with s := Vec.set x.s r.toNat v }

/-- A scalar register of the running stream. -/
def reg (s : State) (r : SReg) : Word64 := readS (self s) r

/-- Writes a scalar register of the running stream. -/
def setReg (r : SReg) (v : Word64) (s : State) : State := mapSelf (writeS r v) s

/-- Counts a retired instruction of a group in its block (R350). -/
def retire (s : State) : State :=
  match s.cur with
  | .group p c w => mapBlock (s.group (.group p c w)).block (fun b => { b with rt := b.rt + 1 }) s
  | _ => s

/-- Ends a scalar instruction at a new program counter. -/
def goto (pc : Word64) (s : State) : State := retire (mapSelf (fun x => { x with spc := pc }) s)

/-- Ends a scalar instruction of `n` bytes. -/
def advance (n : Nat) (s : State) : State := goto ((self s).spc + BitVec.ofNat 64 n) s

/-- Raises a trap (R30). DEDUCED: log entry 22. -/
def raise {α : Type} (cls : TrapClass) (detail : Nat) (addr : Word64 := 0) : Except Stop α :=
  .error (.trap { cls, detail, addr })

/-- A trap when a condition holds. -/
def raiseIf (c : Bool) (cls : TrapClass) (detail : Nat) (addr : Word64 := 0) : Except Stop Unit :=
  if c then raise cls detail addr else .ok ()

/-- A stall at issue when a condition holds (R344). -/
def stallIf (c : Bool) : Except Stop Unit := if c then .error .stall else .ok ()

/-- The form of a scalar instruction: the address of its own word, its length with a prefix, and its immediate field as
the family extends it (R60). -/
structure Form where
  pc : Word64
  len : Nat
  simm : Word64
  zimm : Word64
deriving DecidableEq, Repr, Inhabited

/-- The form of an instruction without a prefix. -/
def plainForm {w : Nat} (imm : BitVec w) (s : State) : Form where
  pc := (self s).spc
  len := 4
  simm := imm.signExtend 64
  zimm := imm.zeroExtend 64

/-- The form of an instruction under an `EXT`: the 26 bits stand above the field (R60). -/
def extForm {w : Nat} (hi : BitVec 26) (imm : BitVec w) (s : State) : Form where
  pc := (self s).spc + 4
  len := 8
  simm := (hi ++ imm).signExtend 64
  zimm := (hi ++ imm).zeroExtend 64

/-- A number of a trap class, its vector (R339). -/
def classNum : TrapClass → Nat
  | .illegal => 0 | .priv => 1 | .translation => 2 | .protection => 3 | .bound => 4 | .ragged => 5 | .memerr => 6
  | .remote => 7 | .quantum => 8 | .brk => 9 | .sync => 10 | .tile => 11 | .hgrid => 12 | .watch => 13 | .preempt => 14
  | .machine => 15

/-- Status codes of blocks, launches and items (R251). -/
def stOK : Word16 := 0
def stPeerLost : Word16 := 1
def stPartial : Word16 := 2
def stExpired : Word16 := 3
def stLeaseRevoked : Word16 := 4
def stBound : Word16 := 5
def stProtection : Word16 := 6
def stMemerr : Word16 := 7
def stCancelled : Word16 := 8

/-- The status a block takes when a trap class ends it (R339, R349). -/
def classStatus : Nat → Word16
  | 1 | 2 | 3 | 7 | 12 => stProtection
  | 6 => stMemerr
  | _ => stBound

end Sys2Proof.Machine
end

