-- ==== Sys2Proof/Machine/Mmu.lean ====
section
/-! DEFINITION. Physical memory, encryption, page walks and the checks of an access (R26, R285 to R302). -/

namespace Sys2Proof.Machine

/-- The key of a physical byte: package, target (0 control memory, 1 HBM, 2 second tier) and PA offset (R285). -/
def physKey (pkg tgt off : Nat) : Nat := pkg * 2 ^ 46 + tgt * 2 ^ 44 + off

/-- The parts of a key. -/
def keyPkg (k : Nat) : Nat := k / 2 ^ 46
def keyTgt (k : Nat) : Nat := k / 2 ^ 44 % 4
def keyOff (k : Nat) : Nat := k % 2 ^ 44

/-- The size of a package's own control homes, 48 GiB (R285, R288). -/
def ctlSize : Nat := 0xC00000000

/-- The annex home of a control byte (R288). -/
def annexKey (k : Nat) : Nat := physKey (keyPkg k ^^^ 1) 0 (ctlSize + keyOff k)

/-- A byte of a control home, as against an annex home or tensor memory. -/
def isHome (k : Nat) : Bool := keyTgt k == 0 && decide (keyOff k < ctlSize)

/-- HBM channels in service (R286, R380). -/
def ncs (s : State) (pkg : Nat) : Nat := (s.pkg pkg).muniment.chans.length

/-- The capacity of the second tier: of the devices behind the ports that trained (R285, R382). -/
def tier2Bytes (s : State) (pkg : Nat) : Nat := (s.pkg pkg).trained.foldl (fun n d => n + d.2) 0

/-- Bytes of an HBM channel, and room for the bytes of one CXL port (R286, R287). -/
def chanSize : Nat := 0x60000000
def portSize : Nat := 2 ^ 42

/-- Where chunk-interleaved storage holds an address: its 4 KiB chunks go round the units in order (R286, R287). -/
def interleave (units : List Nat) (size pa : Nat) : Nat :=
  let n := pa / 4096
  units.getD (n % units.length) 0 * size + n / units.length * 4096 + pa % 4096

/-- The address that interleaved storage holds at a place. -/
def uninterleave (units : List Nat) (size off : Nat) : Nat :=
  (off % size / 4096 * units.length + units.idxOf (off / size)) * 4096 + off % 4096

/-- Where a PA lies in its target's storage: HBM by physical channel, the second tier by port (R285 to R287).
DESIGN CHOICE: log entry 90. -/
def placeOff (s : State) (pkg tgt pa : Nat) : Nat :=
  if tgt = 1 then interleave (s.pkg pkg).muniment.chans chanSize pa
  else if tgt = 2 then interleave ((s.pkg pkg).trained.map (·.1)) portSize pa
  else pa

/-- The key of the byte at a PA of a target. -/
def paKey (s : State) (pkg tgt pa : Nat) : Nat := physKey pkg tgt (placeOff s pkg tgt pa)

/-- The tweak of a line: its PA, target included (R297). -/
def tweakOf (s : State) (line : Nat) : Nat :=
  let k := line * 128
  let p := s.pkg (keyPkg k)
  keyTgt k * 2 ^ 44 +
    (if keyTgt k = 1 then uninterleave p.muniment.chans chanSize (keyOff k)
     else if keyTgt k = 2 then uninterleave (p.trained.map (·.1)) portSize (keyOff k)
     else keyPkg k % 64 * 2 ^ 36 + keyOff k)

/-- What a line was last written under, `none` for a tensor line never written (R298, R384). -/
def lineKey (s : State) (line : Nat) : Option LineKey :=
  match Table.find? s.lineKeys line with
  | some l => some l
  | none =>
    let p := s.pkg (keyPkg (line * 128))
    if keyTgt (line * 128) = 0 then some ⟨⟨0, p.ctlMaterial⟩, tweakOf s line, p.epoch⟩ else none

/-- Whether a line reads as plaintext under a key: the material is the line's, and its address is what it was (R297, R298). -/
def sameKey (s : State) (mat : Under) (line : Nat) (l : LineKey) : Bool :=
  l.under.material == mat.material && (l.epoch == (s.pkg (keyPkg (line * 128))).epoch || l.tweak == tweakOf s line)

/-- The data key and the tweak key of a material of a package: the bytes that `LOADKEY` unwrapped, or the package's own
(R297, R384, R390). -/
def materialBytes (pkg m : Nat) : List Byte :=
  if m % 2 = 0 ∧ m ≠ 0 then leBytes 64 ((m - 2) / 2) else (List.range 64).map (Config.keyByte pkg m)

/-- The byte that a read under key material `mat` returns: the plaintext under the line's own key, otherwise the AES-XTS
decryption of what is stored (R297, R298). -/
def readByte (s : State) (mat : Under) (k : Nat) : Byte :=
  match lineKey s (k / 128) with
  | none => s.mem.read k
  | some l =>
    if sameKey s mat (k / 128) l then s.mem.read k
    else
      let j := k % 128 / 16
      let stored := xtsEncrypt (materialBytes (keyPkg k) l.under.material) l.tweak j (s.mem.readN (k / 16 * 16) 16)
      (xtsDecrypt (materialBytes (keyPkg k) mat.material) (tweakOf s (k / 128)) j stored).getD (k % 16) 0

/-- `n` bytes under one key. -/
def readRange (s : State) (mat : Under) (k : Nat) : Nat → List Byte
  | 0 => []
  | n + 1 => readByte s mat k :: readRange s mat (k + 1) n

/-- The key that a slot of a package names now (R297). -/
def slotMaterial (s : State) (pkg slot : Nat) : Under := ⟨slot, (Table.findD (s.pkg pkg).keys slot default).material⟩

/-- Whether a line already stands under a key, at its present address. -/
def heldUnder (s : State) (mat : Under) (line : Nat) : Bool :=
  match lineKey s line with
  | some l => l.under == mat && l.epoch == (s.pkg (keyPkg (line * 128))).epoch
  | none => false

/-- Brings a line under a key before a write to it: its other bytes become what a read under that key returns (R298). -/
def adoptLine (mat : Under) (line : Nat) (s : State) : State :=
  if heldUnder s mat line then s
  else
    { s with
      mem := s.mem.writeN (line * 128) (readRange s mat (line * 128) 128)
      lineKeys := Table.put s.lineKeys line ⟨mat, tweakOf s line, (s.pkg (keyPkg (line * 128))).epoch⟩ }

/-- The bytes of the boot block's GO word take no store while the device holds it at 2 or 3 (R387). -/
def goHeld (s : State) (k : Nat) : Bool :=
  keyTgt k == 0 && decide (4 ≤ keyOff k ∧ keyOff k < 8) && decide (2 ≤ (s.pkg (keyPkg k)).go)

/-- Writes one byte of memory under a key. -/
def writeByte (mat : Under) (k : Nat) (v : Byte) (s : State) : State :=
  if goHeld s k then s
  else
    let s := adoptLine mat (k / 128) s
    { s with mem := s.mem.write k v }

/-- Writes bytes from a key on. -/
def writeRange (mat : Under) (k : Nat) : List Byte → State → State
  | [], s => s
  | b :: r, s => writeRange mat (k + 1) r (writeByte mat k b s)

/-- Merges the masked bits of a new byte into an old one. -/
def mergeByte (mask val old : Byte) : Byte := (val &&& mask) ||| (old &&& ~~~mask)

/-- The words of 8 bytes of a list of keys, each once. -/
def wordsOf : List Nat → List Nat
  | [] => []
  | k :: r => addOnce (k / 8) (wordsOf r)

/-- Remembers an earlier value of a control-memory word for walks that still use it (R295). -/
def noteStale (before : State) (word : Nat) (s : State) : State :=
  if keyTgt (word * 8) = 0 ∧ before.mem.readN (word * 8) 8 ≠ s.mem.readN (word * 8) 8 then
    { s with stale := s.stale ++ [⟨word, BitVec.ofNat 64 (leNat (before.mem.readN (word * 8) 8)), []⟩] }
  else s

/-- The format and size in bytes of a shadowed element (R158). -/
def shadowFmt (sh : Shadow) : Fmt × Nat :=
  if sh.std = 3 then (fmt16, 2) else if sh.std = 4 then (fmtB16, 2) else (slotFmt sh.fmt, 1)

/-- A package that stands in its panel: present, booted as far as its panel is concerned, not fenced (R373, R381, R385). -/
def pkgUp (s : State) (p : Nat) : Bool := (Table.find? s.pkgs p).isSome && (s.pkg p).present && !(s.pkg p).fenced

/-- The key of the buddy's slot that has the number of the slot a home line was written under (R297). -/
def annexMaterial (s : State) (k : Nat) : Under :=
  slotMaterial s (keyPkg (annexKey k)) (match lineKey s (k / 128) with | some l => l.under.slot | none => 0)

/-- Brings a value of a home byte to its annex home (R288). -/
def mirrorValue (k : Nat) (v : Byte) (s : State) : State := writeByte (annexMaterial s k) (annexKey k) v s

/-- Performs a value of a home byte at its annex home, while its package is up and mirrored (R288, R374). -/
def annexByte (k : Nat) (v : Byte) (s : State) : State :=
  if !pkgUp s (keyPkg k) || (s.pkg (keyPkg k)).unmirrored then s else mirrorValue k v s

/-- Whether a write of a home byte from before place `n` has still to reach the annex home. -/
def annexDue (k n : Nat) (s : State) : Bool :=
  s.streams.any (fun x => x.2.stores.any (fun o => o.homes.any (fun h => h.key == k && decide (h.serial < n))))

/-- Performs the value that the write at place `n` gave a home byte at its annex home (R288). -/
def annexPut (k n : Nat) (v : Byte) (s : State) : State :=
  let s := annexByte k v s
  if annexDue k n s then { s with annexed := Table.put s.annexed k n } else s

/-- The same, unless a later write's value is there (R288, R305). -/
def annexAt (k n : Nat) (v : Byte) (s : State) : State :=
  if (Table.find? s.annexed k).any (fun m => decide (n < m)) then s else annexPut k n v s

/-- Brings home bytes written by a device to their annex homes; no write of them is later (R288). -/
def annexCopy (homes : List Nat) (s : State) : State := seqAll (fun k s => annexPut k s.serial (s.mem.read k) s) homes s

/-- Brings the home bytes of an acknowledged write to their annex homes (R288). -/
def annexAck (homes : List HomeByte) (s : State) : State := seqAll (fun h s => annexAt h.key h.serial h.val s) homes s

/-- The aligned 4-byte word of a location. -/
def wordLoc : Loc → Loc
  | .phys k => .phys (k / 4 * 4)
  | .scr o => .scr (o / 4 * 4)

/-- A write by anyone fixes the place of the commits to its words (R313 to R315). -/
def settleWords (blk : Option Nat) (ls : List Loc) (s : State) : State :=
  { s with early := s.early.filter (fun w => !(ls.any (fun l => wordLoc l == w.loc) && (match w.loc with | .phys _ => true | .scr _ => blk == some w.block))) }

/-- Writes a shadowed element from its shadow, at both homes of a control line (R158, R288). -/
def foldShadow (sh : Shadow) (s : State) : State :=
  let (f, n) := shadowFmt sh
  let keys := (List.range n).map (sh.key + ·)
  annexCopy (keys.filter isHome) (settleWords none (keys.map .phys) (writeRange sh.mat sh.key (leBytes n (f.round rneMode (fmt32.decode sh.val.toNat))) s))

/-- Folds and drops the shadows of a line that one core holds (R158). -/
def foldCoreLine (line : Nat) (c : (Nat × Nat) × Core) (s : State) : State :=
  let mine := c.2.shadows.filter (fun sh => sh.key / 128 == line)
  if mine = [] then s
  else
    let s := seqAll foldShadow mine s
    mapCore c.1 (fun x => { x with shadows := x.shadows.filter (fun sh => sh.key / 128 != line) }) s

/-- Folds the shadows of a line in every L1 (R158). -/
def foldLine (line : Nat) (s : State) : State := seqAll (foldCoreLine line) s.cores s

/-- Folds every line of a list of keys. -/
def foldKeys (ks : List Nat) (s : State) : State := seqAll (fun l s => foldLine l s) ((ks.map (· / 128)).eraseDups) s

/-- The physical keys of byte writes. -/
def putKeys (ps : List Put) : List Nat := ps.filterMap (fun p => match p.loc with | .phys k => some k | .scr _ => none)

/-- Writes one byte, in memory or in a block's scratchpad. -/
def applyPut (blk : Option Nat) (p : Put) (s : State) : State :=
  match p.loc with
  | .phys k => writeByte p.mat k (mergeByte p.mask p.val (readByte s p.mat k)) s
  | .scr o =>
    match blk with
    | some b => mapBlock b (fun x => { x with scratch := x.scratch.write o (mergeByte p.mask p.val (x.scratch.read o)) }) s
    | none => s

/-- Whether a list of writes covers the 8 bytes of a bad word whole, which clears its error (R302). -/
def clearsBad (blk : Option Nat) (ps : List Put) (w : BadWord) : Bool :=
  let covers (base : Nat) (loc : Nat → Loc) : Bool :=
    (List.range 8).all (fun i => ps.any (fun p => p.loc == loc (base + i) && p.mask == 0xFF))
  match w with
  | .mem n => covers (n * 8) .phys
  | .scratch b n => blk == some b && covers (n * 8) .scr
  | _ => false

/-- Performs byte writes as one access: folds the shadows of their lines first, keeps what walks may still use, and
clears the errors of words written whole (R158, R295, R302). -/
def applyPuts (blk : Option Nat) (ps : List Put) (s : State) : State :=
  let s0 := foldKeys (putKeys ps) s
  let s1 := seqAll (applyPut blk) ps s0
  let s2 := seqAll (noteStale s0) (wordsOf (putKeys ps)) s1
  settleWords blk (ps.map (·.loc)) { s2 with bad := s2.bad.filter (fun w => !clearsBad blk ps w) }

/-- Whole bytes to write from a location on. -/
def locAdd : Loc → Nat → Loc
  | .phys k, n => .phys (k + n)
  | .scr o, n => .scr (o + n)

def putsAt (mat : Under) (l : Loc) : List Byte → List Put
  | [] => []
  | b :: r => ⟨l, mat, 0xFF, b⟩ :: putsAt mat (locAdd l 1) r

/-- The panel of a package (R367). -/
def panelOf (pkg : Nat) : Nat := pkg / 64

/-- Whether a package has presented a configuration since its panel's reset: the switch dies count its silence (R371, R381). -/
def inPanel (s : State) (p : Nat) : Bool := (Table.find? (s.panel (panelOf p)).silent (0, p)).isSome

/-- A package whose control homes have no copy left: it is down, and so is its buddy, or it had no annex homes, or it never
presented a configuration (R288, R377). DEDUCED: log entry 85. -/
def homesGone (s : State) (p : Nat) : Bool := !pkgUp s p && (!pkgUp s (p ^^^ 1) || (s.pkg p).unmirrored || !inPanel s p)

/-- Whether a write of a home byte can be acknowledged: at the home and the annex home, at the home alone where that is
unmirrored, at the annex alone once its package's loss is applied there (R288, R374). -/
def ackReady (s : State) (k : Nat) : Bool :=
  let p := keyPkg k
  if pkgUp s p then (s.pkg p).unmirrored || pkgUp s (p ^^^ 1) else homesGone s p || (s.pkg (p ^^^ 1)).lost.contains p

/-- Home bytes of control memory among written keys (R288). -/
def homesOf (ps : List Put) : List Nat := (putKeys ps).filter isHome

/-- A write that a device makes: at both homes of a control line (R288). -/
def devicePuts (ps : List Put) (s : State) : State := annexCopy (homesOf ps) (applyPuts none ps s)

/-- A device write to control memory under slot 0. -/
def writeCtl (pkg off : Nat) (bs : List Byte) (s : State) : State :=
  devicePuts (putsAt (slotMaterial s pkg 0) (.phys (physKey pkg 0 off)) bs) s

/-- A number in control memory under slot 0, the shadows of its line folded (R158, R297). -/
def readCtl (s : State) (pkg off n : Nat) : Nat :=
  leNat (readRange (foldLine (physKey pkg 0 off / 128) s) (slotMaterial s pkg 0) (physKey pkg 0 off) n)

/-- Scratchpad and accumulator bytes of a block and its VN and QL (R19). -/
def spuBytes (partw : Word32) : Nat := (partw.extractLsb' 16 8).toNat * 16384
def acuBytes (partw : Word32) : Nat := (partw.extractLsb' 8 8).toNat * 16384
def vnOf (partw : Word32) (g : Nat) : Nat := min 256 (8 * ((partw.extractLsb' 24 8).toNat * 16 / max 1 g))
def qlOf (partw : Word32) (g : Nat) : Nat := (partw.extractLsb' 0 8).toNat * 128 / max 1 g

/-- The context of a block, in system mode (R26, R29, R430). -/
def blockCtx (s : State) (b : Nat) (ag : Agent) : Ctx :=
  let k := s.block b
  { ag, pkg := k.pkg, user := false, ctxid := k.ctxid, ptbase := k.ptbase, identity := false, block := some b,
    limit := spuBytes k.partw, slots := (s.launch k.launch).fs }

/-- The context of an agent's accesses in its present mode. -/
def ctxOf (s : State) (ag : Agent) : Ctx :=
  let user := !sysMode s ag
  match ag with
  | .group p _ _ =>
    { blockCtx s (s.group ag).block ag with pkg := p, user }
  | .mcc p c =>
    let m := s.mcc (p, c)
    { ag, pkg := p, user, ctxid := m.ctxid, ptbase := m.ptbase, identity := false, block := none, limit := 0,
      slots := match m.launch with | some l => (s.launch l).fs | none => Vector.replicate 16 0 }
  | .ctl p i =>
    let c := s.ctl (p, i)
    { ag, pkg := p, user, ctxid := c.ctxid, ptbase := c.ptbase, identity := c.ptbase == 0, block := none, limit := 0,
      slots := (s.pkg p).fmtDefault }

/-- The context of the running agent. -/
def selfCtx (s : State) : Ctx := ctxOf s s.cur

/-- The job of a context (R294). -/
def jobOf (ctxid : Word32) : Nat := (ctxid.extractLsb' 16 16).toNat
def asidOf (ctxid : Word32) : Nat := (ctxid.extractLsb' 0 16).toNat

/-- Where an address lies (R26). -/
inductive Space where
  | control (off : Nat)
  | tensor (tier pkg off : Nat)
  | scratch (off : Nat)
deriving DecidableEq, Repr, Inhabited

/-- Address decoding without its span, allotment and remote checks (R26). -/
def spaceOf (va : Word64) : Option Space :=
  match (va.extractLsb' 62 2).toNat with
  | 0 => if va.extractLsb' 52 10 = 0 then some (.control (va.extractLsb' 0 52).toNat) else none
  | 1 => some (.tensor (va.extractLsb' 61 1).toNat (va.extractLsb' 53 8).toNat (va.extractLsb' 0 53).toNat)
  | 2 => if va.extractLsb' 24 38 = 0 then some (.scratch (va.extractLsb' 0 24).toNat) else none
  | _ => none

/-- Address decoding of a plain access of `size` bytes, its checks in the order of R26. -/
def decodeVa (c : Ctx) (va : Word64) (size : Nat) : Except Stop Space :=
  match spaceOf va with
  | none => raise .translation 1 va
  | some sp => do
    raiseIf (decide (128 < va.toNat % 128 + size)) .bound 1 va
    match sp with
    | .scratch off => raiseIf (decide (c.limit < off + size)) .bound 3 va
    | .tensor _ p _ => raiseIf (p != c.pkg) .remote 0 va
    | .control _ => .ok ()
    .ok sp

/-- Fields of a leaf entry (R290). -/
def leafKey (w : Word64) : Nat := (w.extractLsb' 56 8).toNat
def leafSslot (w : Word64) : Nat := (w.extractLsb' 52 4).toNat
def leafFslot (w : Word64) : Nat := (w.extractLsb' 48 4).toNat
def leafFv (w : Word64) : Bool := w.getLsbD 47
def leafGeom (w : Word64) : Nat := (w.extractLsb' 45 2).toNat
def leafClass (w : Word64) : Nat := (w.extractLsb' 43 2).toNat
def leafTgt (w : Word64) : Nat := (w.extractLsb' 41 2).toNat
def leafPa (w : Word64) : Nat := (w.extractLsb' 13 28).toNat * 65536
def leafLidx (w : Word64) : Nat := (w.extractLsb' 8 5).toNat
def leafL (w : Word64) : Bool := w.getLsbD 7
def leafU (w : Word64) : Bool := w.getLsbD 4
def leafX (w : Word64) : Bool := w.getLsbD 3
def leafW (w : Word64) : Bool := w.getLsbD 2

/-- The PA range of a target (R285). DESIGN CHOICE: log entry 90. -/
def inRange (s : State) (pkg tgt pa : Nat) : Bool :=
  match tgt with
  | 0 => decide (pa < 2 ^ 42 ∧ pa % 2 ^ 36 < ctlSize)
  | 1 => decide (pa < ncs s pkg * 0x60000000)
  | 2 => decide (pa < tier2Bytes s pkg)
  | _ => false

/-- A leaf of 2^pb bytes that breaks R291. -/
def leafBad (s : State) (pkg : Nat) (control : Bool) (pb : Nat) (w : Word64) : Bool :=
  w.extractLsb' 5 2 != 0 || (leafSslot w != 0 && leafGeom w == 0) || (leafFslot w != 0 && !leafFv w) ||
  (leafLidx w != 0 && !leafL w) || leafPa w % 2 ^ pb != 0 || !inRange s pkg (leafTgt w) (leafPa w) ||
  (if control then leafTgt w != 0 || leafClass w != 0 || leafGeom w != 0 || leafFv w || leafL w
   else leafTgt w == 0 || leafTgt w == 3) ||
  (leafGeom w == 3 && leafClass w != 1) || (leafGeom w != 0 && !leafFv w) ||
  (decide (2 ≤ leafClass w) && (leafGeom w != 0 || leafFv w))

/-- A pointer to a table of `size` bytes that breaks R291. -/
def pointerBad (size : Nat) (w : Word64) : Bool :=
  w.extractLsb' 36 28 != 0 || w.extractLsb' 2 5 != 0 || (w.extractLsb' 7 29).toNat * 128 % size != 0 ||
  decide (ctlSize ≤ (w.extractLsb' 7 29).toNat * 128)

/-- One level of a walk: the index, the page bits of a leaf there, the size of the table a pointer there names. -/
structure Level where
  idx : Nat
  leaf : Option Nat
  next : Option Nat
deriving DecidableEq, Repr, Inhabited

/-- The levels for an address (R289). -/
def levelsOf (va : Word64) (control : Bool) : List Level :=
  if control then
    [⟨(va.extractLsb' 39 13).toNat, none, some 4096⟩, ⟨(va.extractLsb' 30 9).toNat, none, some 4096⟩,
     ⟨(va.extractLsb' 21 9).toNat, some 21, some 256⟩, ⟨(va.extractLsb' 16 5).toNat, some 16, none⟩]
  else
    [⟨(va.extractLsb' 61 1).toNat * 1024 + (va.extractLsb' 43 10).toNat, none, some 4096⟩,
     ⟨(va.extractLsb' 34 9).toNat, none, some 4096⟩, ⟨(va.extractLsb' 25 9).toNat, some 25, some 128⟩,
     ⟨(va.extractLsb' 21 4).toNat, some 21, none⟩]

/-- Whether an invalidation covers the translation of an address for an ASID, in a page of 2^g bytes (R300). -/
def covers (asid g : Nat) (va : Word64) : Inval → Bool
  | .all => true
  | .ctx a => a == asid
  | .page a v => a == asid && v.toNat / 2 ^ g == va.toNat / 2 ^ g
  | .flush _ => false

/-- The bits of the page that an earlier entry at a level maps: its own page if it was a leaf, else the smallest. -/
def stalePage (control : Bool) (lv : Level) (old : Word64) : Nat :=
  let small := if control then 16 else 21
  if old.getLsbD 1 then lv.leaf.getD small else small

/-- A table entry as a walk for an ASID and an address sees it: the present one, shadows folded into it, or an earlier one
that no invalidation has dropped, as a free value decides (R158, R289, R295). DESIGN CHOICE: log entry 93. -/
def walkEntry (s : State) (pkg asid : Nat) (va : Word64) (control : Bool) (lv : Level) (k : Nat) : Word64 :=
  let now := BitVec.ofNat 64 (leNat (readRange (foldLine (k / 128) s) (slotMaterial s pkg 0) k 8))
  let olds := (s.stale.filter (fun x => x.word == k / 8 && !x.gone.any (covers asid (stalePage control lv x.old) va))).map (·.old)
  if olds = [] then now else (now :: olds).getD (Config.freeNat s.choice k % (olds.length + 1)) now

/-- Whether the aligned words of bytes of memory hold an uncorrectable error (R301, R302). -/
def memBad (s : State) (k n : Nat) : Bool :=
  s.bad.any (fun w => match w with | .mem x => decide (k / 8 ≤ x ∧ x ≤ (k + n - 1) / 8) | _ => false)

/-- A walk from a table: the leaf, or the class and detail of the fault (R290, R291, R293 steps 1 and 2, R302). -/
def walkFrom (s : State) (pkg asid : Nat) (va : Word64) (control : Bool) : List Level → Nat → Except (TrapClass × Nat) Page
  | [], _ => .error (.translation, 3)
  | lv :: r, table =>
    let k := table + 8 * lv.idx
    let w := walkEntry s pkg asid va control lv k
    if memBad s k 8 then .error (.memerr, 1)
    else if !w.getLsbD 0 then .error (.translation, 2)
    else if w.getLsbD 1 then
      match lv.leaf with
      | none => .error (.translation, 3)
      | some pb => if leafBad s pkg control pb w then .error (.translation, 3) else .ok ⟨w, pb⟩
    else
      match lv.next with
      | none => .error (.translation, 3)
      | some size =>
        if pointerBad size w then .error (.translation, 3)
        else walkFrom s pkg asid va control r (physKey pkg 0 ((w.extractLsb' 7 29).toNat * 128))

/-- A context's walk from its root block (R289). -/
def walk (s : State) (c : Ctx) (va : Word64) (control : Bool) : Except (TrapClass × Nat) Page :=
  let root := physKey c.pkg 0 (c.ptbase.toNat % 2 ^ 36)
  walkFrom s c.pkg (asidOf c.ctxid) va control (levelsOf va control) (if control then root else root + 0x10000)

/-- The control home that serves an offset of a package: its own; its annex once its loss is rebuilt there; a stall until
then; where no copy is left, the own home, whose data `badAt` reports (R317, R365, R374, R377). -/
def homeKey (s : State) (pkg off : Nat) : Except Stop Nat :=
  if pkgUp s pkg || homesGone s pkg then .ok (physKey pkg 0 off)
  else if (s.pkg (pkg ^^^ 1)).lost.contains pkg && !(s.pkg (pkg ^^^ 1)).rebuilding.contains pkg then .ok (annexKey (physKey pkg 0 off))
  else .error .stall

/-- The W of a page's element slot and the data bytes per scale code (R292). -/
def quantum (geom w : Nat) : Nat :=
  let q := if geom = 1 then 16 else if geom = 2 then 32 else 1024
  if w ≤ 4 then q / 2 else q

/-- The scale code's page offset of the block that holds data offset `o` of a page of 2^pb bytes (R292). -/
def scaleOffset (geom w pb o : Nat) : Nat :=
  let area := 2 ^ pb - 2 ^ pb / quantum geom w
  if geom = 3 then (if w ≤ 4 then area + 2 * (o / 1024) + bits o 4 4 else area + o / 1024) else area + o / quantum geom w

/-- How an access uses a location: type code 13 is `.pg`, 16 and more `.fsN` (R35, R51). -/
structure Use where
  write : Bool := false
  fetch : Bool := false
  ty : Nat := 9
  /-- An item, whose writes may reach compressed-weight pages (R291). -/
  item : Bool := false
  /-- An item at the lender of a leased range, for which step 7 is R279's (R296). -/
  lease : Bool := false
  /-- A remote atomic or release item, which may not write compressed-weight pages (R291). -/
  remote : Bool := false
  /-- The nibbles of an element as the page that fixed the addressing gives them (R141, R201, R257, R293 step 10). -/
  elem : Option Nat := none
deriving DecidableEq, Repr, Inhabited

/-- A slot of a launch as a format, when it is set (R23, R39). -/
def slotOf (slots : Vector Word32 16) (n : Nat) : Option Fmt :=
  let w := Vec.get slots n
  if w = 0 then none else some (slotFmt w)

/-- An access of type `.fsN` whose slot is unset is illegal, before any address is looked at (R39; log entry 22). -/
def needSlot (c : Ctx) (t : Nat) : Except Stop Unit := raiseIf (decide (16 ≤ t) && slotOf c.slots (t - 16) == none) .illegal 0

/-- A slot that cannot be a scale format: unset, or with a sign or a fraction (R47, R293). -/
def scaleSlotBad (c : Ctx) (n : Nat) : Bool := match slotOf c.slots n with | none => true | some f => f.sgn || f.man != 0

/-- Nibbles of an element of a format. -/
def narrowNibbles (f : Option Fmt) : Nat := match f with | some f => if f.width ≤ 4 then 1 else 2 | none => 2

/-- Checks 3 to 11 of R293, in order: the class and detail of the first that fails. -/
def pageFault (s : State) (c : Ctx) (u : Use) (p : Page) (off : Nat) : Option (TrapClass × Nat) :=
  let w := p.leaf
  let narrow := u.ty == 13 || decide (16 ≤ u.ty)
  let el := slotOf c.slots (leafFslot w)
  let q := quantum (leafGeom w) (match el with | some f => f.width | none => 8)
  if c.user && !leafU w then some (.protection, 1)
  else if (u.write && !leafW w) || (u.fetch && !leafX w) then some (.protection, 2)
  else if u.write && leafClass w == 2 && !u.item && (u.remote || !isCtl c.ag) then some (.protection, 6)
  else if (Table.findD (s.pkg c.pkg).keys (leafKey w) ⟨none, 0⟩).job != some (jobOf c.ctxid) then some (.protection, 4)
  else if leafL w && !u.lease then some (.protection, 5)
  else if narrow && leafClass w == 3 then some (.protection, 0x17)
  else if decide (16 ≤ u.ty) && (!leafFv w || leafFslot w != u.ty - 16) then some (.protection, 7)
  else if u.ty == 13 && (!leafFv w || (leafGeom w != 0 && scaleSlotBad c (leafSslot w)) || u.elem.any (fun n => el.isSome && narrowNibbles el != n))
  then some (.protection, 9)
  else if narrow && leafGeom w != 0 && decide (2 ^ p.pb - 2 ^ p.pb / q ≤ off) then some (.protection, 8)
  else if narrow && el == none then some (.illegal, 0)
  else none

/-- The place of an address in a control page, after the checks of R293. -/
def ctlPagePlace (s : State) (c : Ctx) (u : Use) (va : Word64) (p : Page) : Except Stop Place :=
  let o := va.toNat % 2 ^ p.pb
  match pageFault s c u p o with
  | some (cl, d) => raise cl d (if cl = .illegal then 0 else va)
  | none => do
    let pa := leafPa p.leaf + o
    let k ← homeKey s (panelOf c.pkg * 64 + pa / 2 ^ 36) (pa % 2 ^ 36)
    .ok ⟨.phys k, slotMaterial s (keyPkg k) (leafKey p.leaf), some p, o⟩

/-- Translates a decoded address and runs the checks of R293 (R386 for an identity mapping).
DESIGN CHOICE: log entry 35. -/
def translate (s : State) (c : Ctx) (u : Use) (va : Word64) (sp : Space) : Except Stop Place :=
  match sp with
  | .scratch off => do
    raiseIf (u.ty == 13) .protection 9 va
    raiseIf (decide (16 ≤ u.ty) && slotOf c.slots (u.ty - 16) == none) .illegal 0
    .ok ⟨.scr off, default, none, off⟩
  | .control off =>
    if c.identity then do
      raiseIf (decide (ctlSize ≤ off)) .translation 2 va
      raiseIf (decide (16 ≤ u.ty)) .protection 7 va
      raiseIf (u.ty == 13) .protection 9 va
      .ok ⟨.phys (physKey c.pkg 0 off), slotMaterial s c.pkg 0, none, off⟩
    else
      match walk s c va true with
      | .error d => raise d.1 d.2 va
      | .ok p => ctlPagePlace s c u va p
  | .tensor _ _ _ =>
    if c.identity then raise .translation 2 va
    else
      match walk s c va false with
      | .error d => raise d.1 d.2 va
      | .ok p =>
        let o := va.toNat % 2 ^ p.pb
        match pageFault s c u p o with
        | some (cl, d) => raise cl d (if cl = .illegal then 0 else va)
        | none => .ok ⟨.phys (paKey s c.pkg (leafTgt p.leaf) (leafPa p.leaf + o)), slotMaterial s c.pkg (leafKey p.leaf), some p, o⟩

/-- The nibbles of an element of the page that holds an address; none where no page with a slot holds it (R141).
DEDUCED: log entry 43. -/
def pageNibbles (s : State) (c : Ctx) (va : Word64) : Option Nat :=
  let ofLeaf (r : Except (TrapClass × Nat) Page) : Option Nat := match r with
    | .ok p => if leafFv p.leaf then some (narrowNibbles (slotOf c.slots (leafFslot p.leaf))) else none
    | .error _ => none
  match spaceOf va with
  | some (.control _) => ofLeaf (walk s c va true)
  | some (.tensor _ p _) => if p = c.pkg then ofLeaf (walk s c va false) else none
  | _ => none

/-- The watchpoints of an agent's core (R391). -/
def watchesOf (s : State) : Agent → List Watch
  | .group p k _ => (s.core (p, k)).watch
  | .mcc p c => (s.mcc (p, c)).watch
  | .ctl p i => (s.ctl (p, i)).watch

/-- A watchpoint of the accessing core that covers an access (R391). -/
def watched (s : State) (c : Ctx) (u : Use) (va : Word64) (size : Nat) : Bool :=
  (watchesOf s c.ag).any (fun w =>
    decide (va.toNat < w.hi.toNat ∧ w.lo.toNat < va.toNat + size) && (if u.write then w.writes else w.reads) && !u.fetch)

/-- The whole path of a plain access: decoding, translation, checks, watchpoints (R26, R293, R339). -/
def place (s : State) (c : Ctx) (u : Use) (va : Word64) (size : Nat) : Except Stop Place := do
  let sp ← decodeVa c va size
  let p ← translate s c u va sp
  raiseIf (watched s c u va size) .watch 0 va
  .ok p

/-- The bytes at a place (R21, R26, R298). -/
def readPlace (s : State) (c : Ctx) (p : Place) (n : Nat) : List Byte :=
  match p.loc with
  | .phys k => readRange s p.mat k n
  | .scr o => match c.block with
    | some b => (s.block b).scratch.readN o n
    | none => List.replicate n 0

/-- Whether bytes hold an uncorrectable error, and its detail; a home of which no copy is left has nothing else (R302, R377). -/
def badAt (s : State) (c : Ctx) (l : Loc) (n : Nat) : Option Nat :=
  match l with
  | .phys k => if (isHome k && homesGone s (keyPkg k)) || memBad s k n then some 1 else none
  | .scr o => if s.bad.any (fun w => match w with | .scratch b x => c.block == some b && decide (o / 8 ≤ x ∧ x ≤ (o + n - 1) / 8) | _ => false) then some 2 else none

/-- The lowest of `n` bytes that holds an uncorrectable error, and the detail (R209, R212). -/
def firstBad (s : State) (c : Ctx) (l : Loc) (n : Nat) : Option (Nat × Nat) :=
  (List.range n).findSome? (fun i => (badAt s c (locAdd l i) 1).map (fun d => (i, d)))

/-- The keys of places whose data hold an uncorrectable error (R379). -/
def badKeys (s : State) (c : Ctx) (ps : List Place) (n : Nat) : List Nat :=
  ps.filterMap (fun p => match p.loc with | .phys k => if (badAt s c p.loc n).isSome then some k else none | .scr _ => none)

/-- The scratch lines of an access, all full (R21, R101). -/
def lineFull (s : State) (c : Ctx) (l : Loc) : Bool :=
  match l, c.block with
  | .scr o, some b => !(s.block b).empty.contains (o / 128)
  | _, _ => true

end Sys2Proof.Machine
end

