-- ==== Sys2Proof/Machine/Access.lean ====
section
/-! DEFINITION. Loads, stores, quantum buffers, commits, atomics and reductions on translated bytes (R88 to R103, R142 to
R160, R163, R164, R245, R246, R311, R314). -/

namespace Sys2Proof.Machine

/-- The core of a group; a block's accesses and an L1's state belong to it. -/
def coreOf : Agent → Option (Nat × Nat)
  | .group p c _ => some (p, c)
  | _ => none

/-- Ordered stores on (R25). -/
def ordered (s : State) (ag : Agent) : Bool := isGroup ag && (s.stream ag).mode.getLsbD 1

/-- The bits of a byte that the buffer holds for a location, over what memory holds (R102, R144). -/
def overlay (q : QBuf) (l : Loc) (b : Byte) : Byte :=
  match q.bytes.find? (fun x => x.loc == l) with
  | some x => mergeByte x.mask x.val b
  | none => b

/-- Lays a buffer over bytes read from a location on. -/
def overlayAll (q : QBuf) (l : Loc) : List Byte → List Byte
  | [] => []
  | b :: r => overlay q l b :: overlayAll q (locAdd l 1) r

/-- What the L1 of a core holds of `n` bytes from a place on: a clean tensor line gives what it was filled with and what
the core has stored to it since (R282, R307, R308). -/
def l1Bytes (s : State) (ag : Agent) (p : Place) (n : Nat) : Option (List Byte) :=
  match coreOf ag, p.loc with
  | some k, .phys a => ((s.core k).clean.find? (fun x => x.line == a / 128 && x.mat.material == p.mat.material)).map (fun x => (x.bytes.drop (a % 128)).take n)
  | _, _ => none

/-- The bytes at a place as an agent's own load sees them: over what its L1 or memory holds, what a group's quantum buffer
holds (R102, R144, R282). DESIGN CHOICE: log entry 31. -/
def readOwn (s : State) (c : Ctx) (p : Place) (n : Nat) : List Byte :=
  let bs := (l1Bytes s c.ag p n).getD (readPlace s c p n)
  if isGroup c.ag then overlayAll (s.group c.ag).qbuf p.loc bs else bs

/-- Folds the shadows of the line of a location before a read or an atomic (R158). DESIGN CHOICE: log entry 93. -/
def foldAt (l : Loc) (s : State) : State :=
  match l with
  | .phys k => foldLine (k / 128) s
  | .scr _ => s

/-- A load of a tensor line that the core's L1 does not hold fills it (R282, R308). -/
def fillLine (ag : Agent) (p : Place) (s : State) : State :=
  match coreOf ag, p.loc with
  | some k, .phys a =>
    if keyTgt a = 0 ∨ (s.core k).owned.contains (a / 128) ∨ (s.core k).clean.any (fun x => x.line == a / 128 && x.mat.material == p.mat.material) then s
    else mapCore k (fun x => { x with clean := x.clean ++ [⟨a / 128, p.mat, readRange s p.mat (a / 128 * 128) 128, 0⟩] }) s
  | _, _ => s

/-- A byte written through to a clean line. -/
def CleanLine.through (x : CleanLine) (p : Put) : CleanLine :=
  match p.loc with
  | .phys a => if a / 128 = x.line then { x with bytes := x.bytes.set (a % 128) (mergeByte p.mask p.val (x.bytes.getD (a % 128) 0)) } else x
  | .scr _ => x

/-- A core's own writes go through its L1, which keeps them in the clean lines it holds (R282). -/
def throughL1 (k : Nat × Nat) (ps : List Put) (s : State) : State :=
  if (s.core k).clean.any (fun x => (putKeys ps).any (fun a => a / 128 == x.line)) then
    mapCore k (fun c => { c with clean := c.clean.map (fun x => ps.foldl CleanLine.through x) }) s
  else s

/-- An acquire: the core uses no clean tensor line that was filled before (R308). -/
def dropClean (k : Nat × Nat) (s : State) : State := if (s.core k).clean = [] then s else mapCore k (fun c => { c with clean := [] }) s

/-- An acquire by an agent; only a group's core has an L1 (R282, R308). -/
def acquireAt (ag : Agent) (s : State) : State := match coreOf ag with | some k => dropClean k s | none => s

/-- The line of a location. -/
def lineLoc : Loc → Loc
  | .phys k => .phys (k / 128)
  | .scr o => .scr (o / 128)

/-- Quantum-buffer lines in use: store lines and partial lines (R19, R246). -/
def qbufLines (q : QBuf) : Nat :=
  ((q.bytes.map (fun x => lineLoc x.loc)).eraseDups).length +
    ((q.partials.map (fun x => (x.ftype, if x.ftype = 1 then x.key / 128 else x.key / 64))).eraseDups).length

/-- Enters one byte: a lane store replaces, a scalar store yields to lane stores of the interval (R103, R144). -/
def qbufPut (lane : Bool) (va : Word64) (p : Put) (q : QBuf) : QBuf :=
  match q.bytes.find? (fun x => x.loc == p.loc) with
  | none => { q with bytes := q.bytes ++ [⟨va, p.loc, p.mat, p.mask, p.val &&& p.mask, if lane then p.mask else 0⟩] }
  | some o =>
    let m := if lane then p.mask else p.mask &&& ~~~o.laneMask
    let n : QByte := { o with mask := o.mask ||| m, val := mergeByte m p.val o.val, laneMask := if lane then o.laneMask ||| m else o.laneMask }
    { q with bytes := q.bytes.map (fun x => if x.loc == p.loc then n else x) }

/-- The QL of a group (R19). -/
def qlGroup (s : State) (ag : Agent) : Nat :=
  let b := s.block (s.group ag).block
  qlOf b.partw b.groups.length

/-- Enters the bytes of one store into the group's buffer, or traps QUANTUM (R103, R144). -/
def qbufStore (ag : Agent) (lane : Bool) (va : Word64) (ps : List Put) (s : State) : Eff := do
  let q := seqAll (qbufPut lane va) ps (s.group ag).qbuf
  raiseIf (decide (qlGroup s ag < qbufLines q)) .quantum 1 va
  .ok (mapGroup ag (fun g => { g with qbuf := q }) s)

/-- Counts a store, atomic or commit at issue (R18, R311), and keeps of the bytes it wrote what its acknowledgement brings to
their annex homes (R288); its package holds the control lines it wrote (R309). -/
def issueStore (ag : Agent) (op : StoreOp) (ps : List Put) (s : State) : State :=
  let keys := homesOf ps
  let op := { op with
    homes := ((List.range keys.length).zip keys).map (fun x => ⟨x.2, s.mem.read x.2, s.serial + x.1⟩)
    control := (putKeys ps).any (fun k => keyTgt k == 0) }
  let s := mapStream ag (fun x => { x with
    st := if op.inSt then x.st + 1 else x.st
    uw := if op.inUw then x.uw + 1 else x.uw
    stores := x.stores ++ [op] }) s
  if keys = [] then s
  else { s with serial := s.serial + keys.length, owners := keys.foldl (fun t k => Table.put t (k / 128) (agentPkg ag)) s.owners }

/-- A plain control-space store is performed once the stream's earlier ones are acknowledged (R310, R311). -/
def controlDue (s : State) (ag : Agent) (ps : List Put) : Bool :=
  (putKeys ps).any (fun k => keyTgt k == 0) && (s.stream ag).stores.any (·.control)

/-- Scalar registers an operation has still to deliver; s0 takes no value. -/
def destRegs (ds : List Dest) : List Nat := ds.filterMap (fun d => match d with | .s r _ => if r = 0 then none else some r.toNat | .v _ _ _ => none)
def destVregs (ds : List Dest) : List Nat := ds.filterMap (fun d => match d with | .s _ _ => none | .v r _ _ => some r)

/-- Marks the registers of an operation as awaited (R88, R122). -/
def awaitDests (ag : Agent) (ds : List Dest) (s : State) : State :=
  let s := mapStream ag (fun x => { x with await := x.await ++ destRegs ds }) s
  if isGroup ag ∧ destVregs ds ≠ [] then mapGroup ag (fun g => { g with vawait := g.vawait ++ (destVregs ds).eraseDups }) s else s

/-- Issues a load whose value was read (R18, R88). -/
def issueLoad (ag : Agent) (op : LoadOp) (s : State) : State :=
  awaitDests ag op.dests (mapStream ag (fun x => { x with ld := x.ld + 1, loads := x.loads ++ [op] }) s)

/-- Issues a store, atomic or reduction that has been performed. -/
def issueWrite (ag : Agent) (op : StoreOp) (ps : List Put) (s : State) : State := awaitDests ag op.dests (issueStore ag op ps s)

/-- Adds an element to an FP32 word in memory (R245). -/
def addF32 (key : Nat) (mat : Under) (delta : Word32) (s : State) : State :=
  let old := leNat (readRange s mat key 4)
  let new := fmt32.round rneMode (Num.add false (fmt32.decode old) (fmt32.decode delta.toNat))
  applyPuts none (putsAt mat (.phys key) (leBytes 4 new)) s

/-- Takes a line into a core's L1 exclusively: other cores lose it, folding their shadows of it (R153, R158). -/
def ownLine (k : Nat × Nat) (line : Nat) (s : State) : State :=
  if line ∈ (s.core k).owned then s
  else
    let s := seqAll (fun c s => if c.1 = k then s else foldCoreLine line c s) s.cores s
    let s := { s with cores := s.cores.map (fun c => if c.1 = k then c else
      (c.1, { c.2 with owned := c.2.owned.filter (· != line), clean := c.2.clean.filter (fun x => x.line != line) })) }
    mapCore k (fun x => { x with owned := x.owned ++ [line], clean := x.clean.filter (fun x => x.line != line) }) s

/-- Drops the shadows of a line that have another format, folding them (R158). -/
def foldOther (k : Nat × Nat) (line std : Nat) (w : Word32) (s : State) : State :=
  if (s.core k).shadows.any (fun sh => sh.key / 128 == line && (sh.std != std || sh.fmt != w)) then
    foldCoreLine line (k, s.core k) s
  else s

/-- A shadowed `.add` at the L1 of a core (R158). -/
def shadowAdd (k : Nat × Nat) (key : Nat) (mat : Under) (std : Nat) (w : Word32) (x : Word32) (s : State) : State :=
  let s := foldOther k (key / 128) std w (ownLine k (key / 128) s)
  let blank : Shadow := { key, mat, fmt := w, std, val := 0 }
  let (f, n) := shadowFmt blank
  let cur := match (s.core k).shadows.find? (fun sh => sh.key == key) with
    | some sh => fmt32.decode sh.val.toNat
    | none => fmt32.rnd rneMode (f.decode (leNat (readRange s mat key n)))
  let v := BitVec.ofNat 32 (fmt32.round rneMode (Num.add false cur (fmt32.decode x.toNat)))
  mapCore k (fun c => { c with shadows := (c.shadows.filter (fun sh => sh.key != key)) ++ [{ blank with val := v }] }) s

/-- One contribution to a table element by a core (R245): the element's type code is 1, 3 or 4.
DESIGN CHOICE: log entry 38. -/
def contribute (k : Nat × Nat) (key : Nat) (mat : Under) (ftype : Nat) (delta : Word32) (s : State) : State :=
  if ftype = 1 then addF32 key mat delta (ownLine k (key / 128) s) else shadowAdd k key mat ftype 0 delta s

/-- Inserts a partial in ascending address. -/
def insertPartial (p : Partial) : List Partial → List Partial
  | [] => [p]
  | x :: r => if p.key ≤ x.key then p :: x :: r else x :: insertPartial p r

/-- The aligned 8-byte word of a location. -/
def eccWord : Loc → Loc
  | .phys k => .phys (k / 8)
  | .scr o => .scr (o / 8)

/-- Whether a byte of a group's buffer lies in a word that holds an uncorrectable error. -/
def qbufBad (s : State) (ag : Agent) (l : Loc) : Bool :=
  s.bad.any (fun b => match b with | .qbuf a x => a == ag && eccWord x == eccWord l | _ => false)

/-- The byte writes of a buffer; words with an uncorrectable error are not written (R302). -/
def bufferPuts (s : State) (ag : Agent) (q : QBuf) : List Put :=
  (q.bytes.filter (fun x => !qbufBad s ag x.loc)).map (fun x => ⟨x.loc, x.mat, x.mask, x.val⟩)

/-- Writes a buffer's bytes, then its partials in ascending address (R164, R246). -/
def writeBuffer (k : Nat × Nat) (blk : Nat) (puts : List Put) (ps : List Partial) (s : State) : State :=
  let s := throughL1 k puts (applyPuts (some blk) puts s)
  seqAll (fun p s => contribute k p.key p.mat p.ftype p.val s) ((ps.foldr insertPartial [])) s

/-- The trap of a commit that met an uncorrectable word, in the buffer or under a partial (R302). -/
def commitTrap (s : State) (ag : Agent) (q : QBuf) : Option Trap :=
  if q.bytes.any (fun x => qbufBad s ag x.loc) then some { cls := .memerr, detail := 6 }
  else (q.partials.find? (fun p => memBad s p.key 4)).map (fun p => { cls := .memerr, detail := 1, addr := p.va })

/-- Empties a group's buffer and forgets the errors of its words. -/
def emptyBuffer (ag : Agent) (s : State) : State :=
  { mapGroup ag (fun g => { g with qbuf := ⟨[], []⟩ }) s with
    bad := s.bad.filter (fun b => match b with | .qbuf a _ => a != ag | _ => true) }

/-- Commits one group's buffer and empties it; the write-back counts in UW until acknowledged (R164, R311). -/
def commitBuffer (ag : Agent) (s : State) : State :=
  match ag with
  | .group p c w =>
    let g := s.group (.group p c w)
    if g.qbuf = ⟨[], []⟩ then s
    else
      let puts := bufferPuts s ag g.qbuf
      let t := commitTrap s ag g.qbuf
      let s := emptyBuffer ag (writeBuffer (p, c) g.block puts g.qbuf.partials s)
      let s := match t with
        | none => s
        | some t => mapStream ag (fun x => { x with posted := some t }) s
      issueStore ag { inSt := false, vas := (g.qbuf.bytes.map (·.va)).eraseDups } puts s
  | _ => s

/-- The word of a write of a commit. -/
def Move.word : Move → Loc
  | .put p => wordLoc p.loc
  | .part p => wordLoc (.phys p.key)

/-- The key that a write of a commit is made under. -/
def Move.mat : Move → Under
  | .put p => p.mat
  | .part p => p.mat

/-- The writes of a buffer in their order: its bytes, then its partials in ascending address (R246). -/
def bufferMoves (puts : List Put) (ps : List Partial) : List Move := puts.map .put ++ (ps.foldr insertPartial []).map .part

/-- The shadows that a core's L1 holds in a word. -/
def wordShadows (s : State) (k : Nat × Nat) (l : Loc) : List Shadow := (s.core k).shadows.filter (fun sh => wordLoc (.phys sh.key) == l)

/-- The four bytes of a word, as they read under a key. -/
def wordBytes (s : State) (blk : Nat) (l : Loc) (mat : Under) : List Byte :=
  match l with
  | .phys k => readRange s mat k 4
  | .scr o => (s.block blk).scratch.readN o 4

/-- A word's record of early commits, begun where there is none. -/
def earlyWord (s : State) (k : Nat × Nat) (blk : Nat) (m : Move) : EarlyWord :=
  (s.early.find? (fun w => w.block == blk && w.loc == m.word && w.mat == m.mat)).getD
    ⟨blk, m.word, m.mat, wordBytes s blk m.word m.mat, wordShadows s k m.word, []⟩

/-- A commit at the group's own commit point (R164, first row), whose words are remembered until the block's next barrier
commit, its end, or another write to them (R314). -/
def commitOwn (ag : Agent) (s : State) : State :=
  match ag with
  | .group p c _ =>
    let g := s.group ag
    if g.qbuf = ⟨[], []⟩ then s
    else
      let moves := bufferMoves (bufferPuts s ag g.qbuf) g.qbuf.partials
      let s := foldKeys (putKeys (bufferPuts s ag g.qbuf)) s
      let was := (moves.map (earlyWord s (p, c) g.block)).eraseDups
      let now := was.map (fun w => { w with ops := w.ops ++ (moves.filter (fun m => m.word == w.loc && m.mat == w.mat)).map (fun m => ⟨g.gidx, s.choice, m⟩) })
      let s := commitBuffer ag s
      { s with early := s.early.filter (fun w => !now.any (fun x => x.block == w.block && x.loc == w.loc && x.mat == w.mat)) ++ now }
  | _ => s

/-- Gives a word the bytes and the shadows that it had. -/
def restoreWord (k : Nat × Nat) (w : EarlyWord) (s : State) : State :=
  let s := match w.loc with
    | .phys a => writeRange w.mat a w.bytes s
    | .scr o => mapBlock w.block (fun b => { b with scratch := b.scratch.writeN o w.bytes }) s
  if wordShadows s k w.loc = w.shadows then s
  else mapCore k (fun c => { c with shadows := c.shadows.filter (fun sh => wordLoc (.phys sh.key) != w.loc) ++ w.shadows }) s

/-- Makes one write of an early commit: it folds the shadows of its own word alone, since the rest of its line was folded
when it was committed (R158, R314). -/
def redoMove (k : Nat × Nat) (blk : Nat) (m : Move) (s : State) : State :=
  match m with
  | .put p =>
    let s := if wordShadows s k m.word = [] then s else foldKeys (putKeys [p]) s
    applyPut (some blk) p s
  | .part p =>
    if p.ftype = 1 then
      writeRange p.mat p.key (leBytes 4 (fmt32.round rneMode (Num.add false (fmt32.decode (leNat (readRange s p.mat p.key 4))) (fmt32.decode p.val.toNat)))) s
    else shadowAdd k p.key p.mat p.ftype 0 p.val s

/-- The words that each group writes in a commit of `ags` and the held buffers: group index, word. -/
def commitWords (s : State) (blk : Nat) (ags : List Agent) : List (Nat × Loc) :=
  let ofBuf (i : Nat) (q : QBuf) : List (Nat × Loc) := (q.bytes.map (fun x => (i, wordLoc x.loc)) ++ q.partials.map (fun x => (i, wordLoc (.phys x.key)))).eraseDups
  (s.block blk).held.flatMap (fun h => ofBuf h.1 h.2.2) ++
    (ags.filter (fun a => isGroup a && (s.group a).block == blk)).flatMap (fun a => ofBuf (s.group a).gidx (s.group a).qbuf)

/-- The group index after whose writes an early commit takes its place within a commit: the highest below its own that
writes the word; none where there is no such group, and the place makes no difference (R314). -/
def earlySlot (ws : List (Nat × Loc)) (l : Loc) (g : Nat) : Option Nat :=
  (ws.filter (fun w => w.2 == l && decide (w.1 < g))).foldl (fun m w => some (max w.1 (m.getD 0))) none

/-- Whether an early commit takes its place within the next barrier commit: of each group's commits, in order, a free number
stay before it (R248, R314). -/
def movesIn (choice : Nat) (early : List EarlyWord) (o : EarlyOp) : Bool :=
  let seqs := ((early.flatMap (·.ops)).filter (fun x => x.gidx == o.gidx)).map (·.seq) |>.eraseDups
  let rank := (seqs.filter (fun n => decide (n < o.seq))).length
  decide (Config.freeNat choice o.gidx % (seqs.length + 1) ≤ rank)

/-- The early writes that move within a commit: the slot, the write. -/
def movedOps (s : State) (blk : Nat) (ws : List (Nat × Loc)) : List (Nat × EarlyWord × EarlyOp) :=
  let mine := s.early.filter (fun w => w.block == blk)
  mine.flatMap (fun w => w.ops.filterMap (fun o =>
    if movesIn s.choice mine o then (earlySlot ws w.loc o.gidx).map (fun j => (j, w, o)) else none))

/-- Takes the early writes that move out of their word, and leaves the others (R314). -/
def undoWord (k : Nat × Nat) (moved : List (Nat × EarlyWord × EarlyOp)) (w : EarlyWord) (s : State) : State :=
  seqAll (fun o s => redoMove k w.block o.move s) (w.ops.filter (fun o => !moved.any (fun m => m.2.1 == w && m.2.2 == o))) (restoreWord k w s)

/-- Writes a held buffer, at both homes of a control line (R118, R288). -/
def writeHeld (k : Nat × Nat) (blk : Nat) (h : Nat × Agent × QBuf) (s : State) : State :=
  let puts := bufferPuts s h.2.1 h.2.2
  annexCopy (homesOf puts) (writeBuffer k blk puts h.2.2.partials s)

/-- A group's turn in a commit in group-index order: its held buffer, its own buffer, then the early commits whose place is
here (R118, R164, R314). -/
def commitTurn (k : Nat × Nat) (blk : Nat) (moved : List (Nat × EarlyWord × EarlyOp)) (held : List (Nat × Agent × QBuf)) (ags : List Agent) (i : Nat)
    (s : State) : State :=
  let s := seqAll (writeHeld k blk) (held.filter (fun h => h.1 == i)) s
  let s := seqAll (fun a s => if (s.group a).gidx = i ∧ (s.group a).block = blk ∧ isGroup a then commitBuffer a s else s) ags s
  seqAll (fun m s => redoMove k blk m.2.2.move s) (moved.filter (fun m => m.1 == i)) s

/-- The home bytes of a word. -/
def homeWord : Loc → List Nat
  | .phys k => ((List.range 4).map (k + ·)).filter isHome
  | .scr _ => []

/-- A commit of a block in ascending group index: the buffers of `ags` and every held buffer (R164). Each early commit
keeps its place or moves within this one, as a free value decides, in the words that nothing else has written since (R313,
R314). -/
def commitBlock (blk : Nat) (ags : List Agent) (s : State) : State :=
  let b := s.block blk
  let k := (b.pkg, b.core)
  let moved := movedOps s blk (commitWords s blk ags)
  let words := (moved.map (fun m => m.2.1)).eraseDups
  let s := seqAll (undoWord k moved) words s
  let s := seqAll (commitTurn k blk moved b.held ags) (List.range 32) s
  let s := if words = [] then s else dropClean k (annexCopy (words.flatMap (fun w => homeWord w.loc)) s)
  { mapBlock blk (fun x => { x with held := [] }) s with early := s.early.filter (fun w => w.block != blk) }

end Sys2Proof.Machine
end

