-- ==== Sys2Proof/Machine/Ops.lean ====
section
/-! DEFINITION. Taking a trap and returning from one, the ends of groups, MACHINE (R339 to R349, R363, R364). -/

namespace Sys2Proof.Machine

/-- TRAPCAUSE (R25, R341). -/
def causeWord (cls detail wslot split : Nat) : Word32 :=
  BitVec.ofNat 32 (cls * 2 ^ 28 + detail % 2 ^ 12 * 2 ^ 16 + wslot % 2 ^ 8 * 2 ^ 8 + split % 16 * 16)

/-- The groups of a block that have not ended (R166). -/
def liveGroups (s : State) (b : Block) : List Agent :=
  b.groups.filter (fun a => (s.stream a).run != .ended && (s.stream a).run != .fenced)

/-- A barrier whose open phase can no longer complete (R166). -/
def barrierStuck (s : State) (b : Block) (bar : Barrier) : Bool :=
  match bar.count with
  | none => false
  | some c =>
    let coming := (liveGroups s b).filter (fun a => !bar.arrived.contains (s.group a).gidx)
    decide (bar.arrived.length + coming.length < c)

/-- The groups that wait at a barrier have `half` set to its number, kept as 64 * id + 1 with the phase above (R166). -/
def waitCode (id phase : Nat) : Nat := phase * 64 + id

/-- Posts SYNC 0x013 to every group waiting at a barrier that can no longer complete (R166). -/
def stuckBarriers (blk : Nat) (s : State) : State :=
  let b := s.block blk
  seqAll (fun (e : Nat × Barrier) s =>
    if barrierStuck s b e.2 then
      seqAll (fun a s =>
        if (s.stream a).half = some (waitCode e.1 e.2.phase) then
          mapStream a (fun x => { x with half := none, posted := some { cls := .sync, detail := 0x13 } }) s
        else s) (liveGroups s b) s
    else s) b.bars s

/-- Ends a group: its buffer is held for the next barrier commit or the block's end, its failed items' status is kept
(R118, R174). -/
def endGroup (ag : Agent) (s : State) : State :=
  let g := s.group ag
  let s := mapStream ag (fun x => { x with run := .ended, half := none, kept := none, posted := none }) s
  let s := mapGroup ag (fun g => { g with qbuf := ⟨[], []⟩, live := 0, segq := [], inSeg := false, splits := Vector.replicate 4 none, parked := [], rep := none }) s
  let s := mapBlock g.block (fun b => { b with
    held := if g.qbuf = ⟨[], []⟩ then b.held else b.held ++ [(g.gidx, ag, g.qbuf)] }) s
  stuckBarriers g.block s

/-- Gives a block the status that ends it; the first one stands (R326, R349). -/
def failBlock (blk : Nat) (st : Word16) (s : State) : State :=
  mapBlock blk (fun b => { b with status := if b.status = 0 then st else b.status }) s

/-- Ends a group failed (R349). -/
def endFailed (ag : Agent) (st : Word16) (s : State) : State := endGroup ag (failBlock (s.group ag).block st s)

/-- Stops every group of a block with a status; a saved block has none that run (R178, R356, R364). -/
def killBlock (st : Word16) (how : Run) (blk : Nat) (s : State) : State :=
  let s := failBlock blk st s
  if (match (s.block blk).preempt with | .saved _ => true | _ => false) then
    mapBlock blk (fun b => { b with groups := [], away := [], preempt := .none }) s
  else seqAll (fun a s => if (s.stream a).run = .ended then s else mapStream a (fun x => { x with run := how }) (endGroup a s)) (s.block blk).groups s

/-- Ends the MCC stream of a gang with every block of the gang (R349). -/
def endGang (k : Nat × Nat) (st : Word16) (s : State) : State :=
  let m := s.mcc k
  let s := mapStream (.mcc k.1 k.2) (fun x => { x with run := .ended, posted := none }) s
  let s := mapMcc k (fun m => { m with endstat := st }) s
  seqAll (fun b s => killBlock st .ended b s) (m.gang.map (·.2)) s

/-- The lowest-numbered control core of a die in service (R342). -/
def dieCtl (s : State) (pkg die : Nat) : Option Nat :=
  ((List.range 8).map (fun i => die * 8 + i)).find? (fun i => (s.pkg pkg).muniment.ctls.getD i 0 == 1)

/-- Writes the changing fields of the configuration descriptor (R382). -/
def writeDescriptorFlags (pkg : Nat) (s : State) : State :=
  let p := s.pkg pkg
  let flags := (if p.unmirrored then 1 else 0) + (if p.faults = [] then 0 else 2)
  let s := writeCtl pkg 0x100F (leBytes 1 flags) s
  let s := writeCtl pkg 0x1014 (leBytes 4 p.faults.length) s
  writeCtl pkg 0x1038 (leBytes 8 p.lseq) s

/-- Queues a fault record (R379). -/
def queueFault (pkg : Nat) (u : FaultUnit) (s : State) : State :=
  if u ∈ (s.pkg pkg).faults then s
  else writeDescriptorFlags pkg (mapPkg pkg (fun p => { p with faults := p.faults ++ [u] }) s)

/-- Notes the chunks and channels of uncorrectable HBM data; 16 chunks of one channel make a fault record (R286, R379). -/
def noteBad (keys : List Nat) (s : State) : State :=
  seqAll (fun k s =>
    if keyTgt k = 1 then
      let p := keyPkg k
      let n := keyOff k / 4096
      let ch := keyOff k / chanSize
      let chunks := addOnce n (Table.findD (s.pkg p).badChunks ch [])
      let s := mapPkg p (fun x => { x with badChunks := Table.put x.badChunks ch chunks }) s
      if 16 ≤ chunks.length then queueFault p (.channel ch) s else s
    else s) keys s

/-- The blocks of the gang that a block belongs to, placed or saved, or itself (R364). -/
def gangOfBlock (s : State) (blk : Nat) : List Nat :=
  let gangs := s.mccs.map (·.2.gang) ++ s.blocks.filterMap (fun b => b.2.awayMcc.map (·.gang))
  match gangs.find? (fun g => g.any (fun x => x.2 == blk)) with
  | some g => g.map (·.2)
  | none => [blk]

/-- Ends with MEMERR the gang of a block, with its MCC stream, or the block alone; on the fenced core nothing runs again
(R342, R364). -/
def killGang (k : Nat × Nat) (blk : Nat) (s : State) : State :=
  let s := match List.find? (fun (m : (Nat × Nat) × Mcc) =>  m.2.gang.any (fun x => x.2 == blk)) s.mccs with
    | some m => if (s.stream (.mcc m.1.1 m.1.2)).run = .fenced then s else mapStream (.mcc m.1.1 m.1.2) (fun x => { x with run := .ended, posted := none }) (mapMcc m.1 (fun m => { m with endstat := stMemerr }) s)
    | none => s
  seqAll (fun b s => killBlock stMemerr (if (s.block b).pkg = k.1 ∧ (s.block b).core = k.2 then .fenced else .ended) b s) (gangOfBlock s blk) s

/-- The images of a core in ascending slot order (R357, R364). -/
def imagesOf (s : State) (k : Nat × Nat) : List Nat :=
  (List.range 16).flatMap (fun n => (s.blocks.filter (fun b => b.2.pkg == k.1 && b.2.core == k.2 && b.2.preempt == .saved n)).map (·.1))

/-- Has each block of a list end after those before it. -/
def inTurn : List Nat → State → State
  | [], s => s
  | b :: r, s => inTurn r (seqAll (mapBlock · (fun x => { x with endAfter := addOnce b x.endAfter })) r s)

/-- Fences a core: every block resident on it or saved for it ends failed with MEMERR, the images in ascending slot order; a
gang that loses one core ends whole (R342, R364). The block concerned has been given its own status before. -/
def fenceCore (k : Nat × Nat) (s : State) : State :=
  if (s.core k).fenced then s
  else
    let s := mapCore k (fun c => { c with fenced := true }) s
    let images := imagesOf s k
    let here := (s.blocks.filter (fun b => b.2.pkg == k.1 && b.2.core == k.2 && !images.contains b.1)).map (·.1)
    seqAll (killGang k) (here ++ images) (inTurn images s)

/-- Raises MACHINE on a core: the event to the die's lowest control core, the fault record, the fence (R342, R363, R379). -/
def machineCore (k : Nat × Nat) (wslot : Nat) (addr : Word64) (s : State) : State :=
  if (s.core k).fenced then s
  else
    let s := mapPkg k.1 (fun p => { p with machine := Table.put p.machine (k.2 / 117) (Table.findD p.machine (k.2 / 117) [] ++ [⟨k.2, wslot, addr⟩]) }) s
    queueFault k.1 (.core k.2) (fenceCore k s)

/-- The physical cores of a cluster (R24). -/
def clusterCores (clu : Nat) : List Nat := (List.range 9).map (fun i => clu / 13 * 117 + clu % 13 * 9 + i)

/-- Raises MACHINE on an MCC: its whole cluster is fenced (R342). -/
def machineMcc (k : Nat × Nat) (addr : Word64) (s : State) : State :=
  if (s.mcc k).fenced then s
  else
    let s := mapMcc k (fun m => { m with fenced := true }) s
    let s := mapStream (.mcc k.1 k.2) (fun x => { x with run := .fenced }) s
    let s := mapPkg k.1 (fun p => { p with machine := Table.put p.machine (k.2 / 13) (Table.findD p.machine (k.2 / 13) [] ++ [⟨0xF00 + k.2, 0xFF, addr⟩]) }) s
    let s := queueFault k.1 (.cluster k.2) s
    seqAll (fun c s => fenceCore (k.1, c) s) (clusterCores k.2) s

/-- A fault or an error on a context area of an agent: its block, or the blocks of its gang, end with a status, and MACHINE is
raised (R363). A control core has no context area. -/
def areaFault (ag : Agent) (st : Word16) (addr : Word64) (s : State) : State :=
  match ag with
  | .group p c w => machineCore (p, c) w addr (failBlock (s.group ag).block st s)
  | .mcc p c => machineMcc (p, c) addr (seqAll (fun b s => failBlock b st s) ((s.mcc (p, c)).gang.map (·.2)) s)
  | .ctl _ _ => s

/-- Whether the trap registers of an agent hold an uncorrectable error (R363). -/
def trapRegBad (s : State) (ag : Agent) : Bool := s.bad.contains (.trapReg ag) && !isCtl ag

/-- The side-buffer record's bytes (R346). DEDUCED: log entry 37. -/
def recordBytes (cause : Word32) (t : Trap) (rspc addr : Word64) (lane : Bool) (lpc : Word64) (split : Nat) (rpt : Option Nat)
    (saved : List Word64) : List Byte :=
  let fault (l : Nat) := t.faults.find? (fun f => f.lane == l)
  let fmask := (List.range 32).foldl (fun m l => if (fault l).isSome then m + 2 ^ l else m) 0
  leBytes 4 cause.toNat ++ leBytes 4 (1 + (if lane then 2 else 0) + (if rpt.isSome then 4 else 0)) ++ leBytes 8 rspc.toNat ++
  leBytes 8 addr.toNat ++ leBytes 8 lpc.toNat ++ leBytes 4 fmask ++ leBytes 1 split ++ leBytes 1 (rpt.getD 0) ++
  leBytes 1 (t.pq.getD 0xFF) ++ List.replicate 25 (0 : Byte) ++ saved.flatMap (fun w => leBytes 8 w.toNat) ++ List.replicate 32 (0 : Byte) ++
  (List.range 32).flatMap (fun l => leBytes 8 (match fault l with | some f => f.addr.toNat | none => 0)) ++
  (List.range 32).flatMap (fun l => leBytes 4 (match fault l with | some f => classNum f.cls * 2 ^ 28 + f.detail % 2 ^ 12 * 2 ^ 16 | none => 0))

/-- Where the record of an agent lies (R346). -/
def recordBase (s : State) : Agent → Word64
  | .group p c w => (s.core (p, c)).sidebuf + BitVec.ofNat 64 (512 * w)
  | .mcc p c => (s.mcc (p, c)).sidebuf
  | .ctl _ _ => 0

/-- The vector base of an agent (R341). -/
def trapBaseOf (s : State) : Agent → Word64
  | .group p c _ => (s.core (p, c)).trapbase
  | .mcc p c => (s.mcc (p, c)).trapbase
  | .ctl p i => (s.ctl (p, i)).trapbase

/-- A place of a context area in system mode: by the locked translation where there is one (R357, R363). -/
def lockedPlace (s : State) (c : Ctx) (locked : List (Nat × Page)) (write : Bool) (va : Word64) : Except Stop Place :=
  match spaceOf va with
  | some (.control off) =>
    match locked.find? (fun x => va.toNat / 2 ^ x.2.pb == x.1) with
    | some x => ctlPagePlace s c { write } va x.2
    | none => translate s c { write } va (.control off)
  | _ => raise .translation 1 va

/-- A place of a context area of an agent (R346, R357). -/
def areaPlace (s : State) (ag : Agent) (write : Bool) (va : Word64) : Except Stop Place :=
  lockedPlace s { ctxOf s ag with user := false } (if isGroup ag then (s.block (s.group ag).block).locked else []) write va

/-- The executing split: the live one of lowest LPC (R121). -/
def lowestSplit (g : Group) : Option (Nat × Split) :=
  (List.range 4).foldl (fun best i =>
    match Vec.get g.splits i, best with
    | some sp, some (j, b) => if sp.lpc.toNat < b.lpc.toNat then some (i, sp) else some (j, b)
    | some sp, none => some (i, sp)
    | none, b => b) none

/-- Sets the trap registers and the program counter at the vector, in system mode; a `BAR.WAIT` that waits is kept for the
return (R344, R347). DEDUCED: log entry 108. -/
def enterVector (ag : Agent) (cls : Nat) (cause : Word32) (addr : Word64) (s : State) : State :=
  mapStream ag (fun x => { x with
    trappc := x.spc
    trapcause := cause
    trapaddr := addr
    mode := x.mode ||| 1
    half := none
    kept := x.half.map (fun h => (h, x.spc))
    posted := none
    spc := trapBaseOf s ag + BitVec.ofNat 64 (256 * cls) }) s

/-- Delivers at an entry the values due in s60 to s63, which the record then holds (R344, R347). -/
def landFrame (x : Stream) : Stream :=
  let due (d : Dest) : Bool := match d with | .s r _ => decide (60 ≤ r.toNat) | .v _ _ _ => false
  let put (x : Stream) (d : Dest) : Stream := match d with
    | .s r v => if due d then { writeS r v x with await := x.await.erase r.toNat } else x
    | .v _ _ _ => x
  let y := (x.loads.flatMap (·.dests) ++ x.stores.flatMap (·.dests)).foldl put x
  { y with
    loads := x.loads.map (fun l => { l with dests := l.dests.filter (fun d => !due d) })
    stores := x.stores.map (fun l => { l with dests := l.dests.filter (fun d => !due d) }) }

/-- The record and the frame registers of an entry on a compute core or an MCC (R347). -/
def enterRecord (ag : Agent) (t : Trap) (lane : Bool) (wslot : Nat) (split : Option (Nat × Split)) (rpt : Option (Nat × Nat)) (s : State) : Eff :=
  let s := mapStream ag landFrame s
  let x := s.stream ag
  let base := recordBase s ag
  let cause := causeWord (classNum t.cls) t.detail wslot (match split with | some p => p.1 | none => 15)
  match areaPlace s ag true base with
  | .error e => .error e
  | .ok p =>
    let bytes := recordBytes cause t x.spc t.addr lane (match split with | some q => q.2.lpc | none => 0)
      (match split, rpt with | some q, _ => q.1 | none, some r => r.1 | none, none => 0) (rpt.map (·.2)) [readS x 60, readS x 61, readS x 62, readS x 63]
    let s := devicePuts (putsAt p.mat p.loc bytes) s
    let s := { s with bad := s.bad.filter (fun w => w != .trapReg ag) }
    let s := mapStream ag (fun x => writeS 60 base (writeS 61 (cause.zeroExtend 64) (writeS 62 t.addr (writeS 63 x.spc x)))) s
    .ok (enterVector ag (classNum t.cls) cause t.addr s)

/-- The trap that raises an earlier error (R90, R147, R209). -/
def Deferred.trap (d : Deferred) : Trap := { cls := .memerr, detail := d.detail, addr := d.addr, faults := d.faults, once := some d }

/-- An error is raised once (R90). -/
def dropOnce (ag : Agent) (t : Trap) (s : State) : State :=
  match t.once with
  | some d => mapStream ag (fun x => { x with deferred := x.deferred.erase d }) s
  | none => s

/-- Takes a trap in an agent's stream, `lane` for one that its lane stream raised. A control core enters its handler; on
a compute core or an MCC a trap in system mode ends the group or the gang failed, and a record that cannot be written
raises MACHINE (R341, R342, R346, R347, R349, R363). -/
def takeTrap (ag : Agent) (t : Trap) (lane : Bool) (s : State) : State :=
  let s := dropOnce ag t s
  match ag with
  | .ctl _ _ => enterVector ag (classNum t.cls) (causeWord (classNum t.cls) t.detail 0xFE 15) t.addr s
  | .group _ _ w =>
    if sysMode s ag then endFailed ag (classStatus (classNum t.cls)) s
    else
      let g := s.group ag
      let split := if lane then lowestSplit g else none
      let rpt := match split with
        | some (j, _) => g.rep.filter (fun r => r.1 == j)
        | none => g.rep
      match enterRecord ag t lane w split rpt s with
      | .ok s' => s'
      | .error .stall => s
      | .error _ => areaFault ag stProtection (recordBase s ag) s
  | .mcc p c =>
    if sysMode s ag then endGang (p, c) (classStatus (classNum t.cls)) s
    else
      match enterRecord ag t false 0xFF none none s with
      | .ok s' => s'
      | .error .stall => s
      | .error _ => areaFault ag stProtection (recordBase s ag) s

/-- The outcome of a scalar instruction: its effect, its trap, or a stall that leaves the state as it is (R344). -/
def finish (s : State) (r : Eff) : Out :=
  match r with
  | .ok s' => .next s'
  | .error .stall => .next s
  | .error (.trap t) => .next (takeTrap s.cur t false s)

/-- The outcome of a lane instruction. -/
def finishLane (s : State) (r : Eff) : Out :=
  match r with
  | .ok s' => .next s'
  | .error .stall => .next s
  | .error (.trap t) => .next (takeTrap s.cur t true s)

/-- The outcome of a hardware event, which raises no trap of its own. -/
def finishEvent (s : State) (r : Eff) : Out :=
  match r with
  | .ok s' => .next s'
  | .error _ => .next s

/-- What a record holds at `TRET` (R348). -/
structure Return where
  lane : Bool
  rptv : Bool
  lpc : Word64
  split : Nat
  rpt : Nat
  saved : List Word64
deriving DecidableEq, Repr, Inhabited

/-- Reads a record (R346). -/
def readRecord (s : State) (c : Ctx) (p : Place) : Return :=
  let bs := readPlace s c p 0x60
  let num (o n : Nat) := leNat ((bs.drop o).take n)
  { lane := num 4 1 / 2 % 2 == 1, rptv := num 4 1 / 4 % 2 == 1, lpc := BitVec.ofNat 64 (num 0x18 8), split := num 0x24 1,
    rpt := num 0x25 1, saved := (List.range 4).map (fun i => BitVec.ofNat 64 (num (0x40 + 8 * i) 8)) }

/-- Restores the lane stream from a record, or traps on one that breaks R348. -/
def returnLane (ag : Agent) (r : Return) (s : State) : Eff :=
  if !r.lane then .ok s
  else
    match Vec.get (s.group ag).splits r.split with
    | none => raise .illegal 0
    | some sp => do
      raiseIf (r.lpc.toNat % 12 != 0) .illegal 0
      .ok (mapGroup ag (fun g => { g with
        splits := Vec.set g.splits r.split (some { sp with lpc := r.lpc })
        rep := if r.rptv then some (r.split, r.rpt) else g.rep }) s)

/-- Leaves the handler: user mode, the saved program counter, and the `BAR.WAIT` that waits there (R117, R344). -/
def leaveHandler (ag : Agent) (s : State) : State :=
  retire (mapStream ag (fun x => { x with
    mode := x.mode &&& 0xFE
    spc := x.trappc
    half := (x.kept.filter (fun k => k.2 == x.trappc)).map (·.1)
    kept := none }) s)

/-- The return from a handler: `TRET` (R117, R348, R363). On a control core the ILLEGAL of a misaligned TRAPPC is a trap in
system mode, which overwrites TRAPPC like any other (R341). DEDUCED: log entry 109. -/
def trapReturn (s : State) : Eff := do
  let ag := s.cur
  raiseIf (!sysMode s ag) .priv 0
  if trapRegBad s ag then .ok (areaFault ag stMemerr (recordBase s ag) s)
  else do
    raiseIf ((self s).trappc.toNat % 4 != 0) .illegal 0
    if isCtl ag then .ok (leaveHandler ag s)
    else
      let base := recordBase s ag
      match areaPlace s ag true base with
      | .error .stall => .error .stall
      | .error _ => .ok (areaFault ag stProtection base s)
      | .ok p =>
        if (badAt s (ctxOf s ag) p.loc 0x60).isSome then .ok (areaFault ag stMemerr base s)
        else do
          let s := foldAt p.loc s
          let r := readRecord s (ctxOf s ag) p
          let s ← if isGroup ag then returnLane ag r s else .ok s
          let s := mapStream ag (fun x => writeS 60 (r.saved.getD 0 0) (writeS 61 (r.saved.getD 1 0) (writeS 62 (r.saved.getD 2 0) (writeS 63 (r.saved.getD 3 0) x)))) s
          let flags := leNat (readPlace s (ctxOf s ag) { p with loc := locAdd p.loc 4 } 1)
          let s := devicePuts (putsAt p.mat (locAdd p.loc 4) (leBytes 1 (flags / 2 * 2))) s
          .ok (leaveHandler ag s)

end Sys2Proof.Machine
end

