-- ==== Sys2Proof/Machine/Flags.lean ====
section
/-! DEFINITION. Conditions and the status values that instructions compute: branch and compare conditions, minima and
maxima, the counters and the failed-item status (R18, R95, R126, R127, R174). -/

namespace Sys2Proof.Machine

/-- One or zero. -/
def boolWord (b : Bool) : Word64 := if b then 1 else 0

/-- The condition codes of `FCMP` (R126). -/
def fcmp (code : Nat) (a b : Num) : Bool :=
  match code with
  | 0 => a.eq b
  | 1 => !a.eq b
  | 2 => a.lt b
  | 3 => a.lt b || a.eq b
  | 4 => b.lt a
  | 5 => b.lt a || a.eq b
  | 6 => !a.isNan && !b.isNan
  | _ => a.isNan || b.isNan

/-- The condition codes of `ICMP` (R127). -/
def icmp (code : Nat) (a b : Int) : Bool :=
  match code with
  | 0 => a == b
  | 1 => a != b
  | 2 => decide (a < b)
  | 3 => decide (a ≤ b)
  | 4 => decide (b < a)
  | _ => decide (b ≤ a)

/-- Whether operand A is the one that `FMIN` or `FMAX` returns, for numbers; -0 lies below +0 (R126). -/
def pickA (max : Bool) (a b : Num) : Bool :=
  if a.lt b then !max else if b.lt a then max else if a.isNeg = b.isNeg then true else if max then !a.isNeg else a.isNeg

/-- The bits that `FMIN` and `FMAX` return (R126). -/
def fminmax (f : Fmt) (max : Bool) (a b : Nat) : Nat :=
  let x := f.decode a
  let y := f.decode b
  if x.isNan && y.isNan then f.nanCode else if x.isNan then b else if y.isNan then a else if pickA max x y then a else b

/-- The bits that `FMINN` and `FMAXN` return (R126). -/
def fminmaxn (f : Fmt) (max : Bool) (a b : Nat) : Nat :=
  if (f.decode a).isNan || (f.decode b).isNan then f.nanCode else fminmax f max a b

/-- Counts a failed item of an agent: FCNT saturates, FSTAT keeps the oldest status (R174). -/
def noteFailure (st : Word16) (x : Stream) : Stream :=
  if st = 0 then x
  else { x with fcnt := if x.fcnt = 0xFFFFFFFF then x.fcnt else x.fcnt + 1, fstat := if x.fcnt = 0 then st else x.fstat }

/-- The condition of `WAIT` (R112). -/
def countersWithin (ld st cp tl : Nat) (x : Stream) : Bool :=
  decide (x.ld ≤ ld) && decide (x.st ≤ st) && decide (x.cp ≤ cp) && decide (x.tl ≤ tl)

end Sys2Proof.Machine
end

