-- ==== Sys2Proof/Machine/Snapshot.lean ====
section
/-! DEFINITION. Records read through the Stacks: snapshots of tensor layout records (R211 to R219). -/

namespace Sys2Proof.Machine

/-- A line's bytes before a word of it was stored to. -/
def undoStale (line : Nat) (bs : List Byte) (x : Stale) : List Byte :=
  let o := x.word * 8 - line * 128
  bs.take o ++ leBytes 8 x.old.toNat ++ bs.drop (o + 8)

/-- The contents of a line that a snapshot of a handle may be built from, given the stores to it, latest first: those since
the last `RFLUSH` of the handle (R217). -/
def lineVersions (h line : Nat) (bs : List Byte) : List Stale → List (List Byte)
  | [] => [bs]
  | x :: r => if x.gone.contains (.flush h) then [bs] else bs :: lineVersions h line (undoStale line bs x) r

/-- A line as the Stacks of a package give it for a handle, its shadows folded: as it stands, or as it stood before a store
that no `RFLUSH` of the handle followed, as a free value decides (R158, R217). DESIGN CHOICE: log entry 33. -/
def stackLine (s : State) (h : Nat) (mat : Under) (line : Nat) : List Byte :=
  let now := readRange (foldLine line s) mat (line * 128) 128
  match lineVersions h line now (s.stale.filter (fun x => x.word / 16 == line)).reverse with
  | [v] => v
  | vs => vs.getD (Config.freeNat s.choice line % vs.length) now

/-- Bytes that a snapshot reads, with the physical keys read. -/
structure Fetched where
  bytes : List Byte
  keys : List Nat
deriving DecidableEq, Repr, Inhabited

/-- Reads `n` bytes from an address for a snapshot, line by line; the fault of the lowest failing address (R212, R302). -/
def fetchStack (s : State) (c : Ctx) (h : Nat) : Nat → Word64 → Nat → Except Stop Fetched
  | 0, _, _ => .ok ⟨[], []⟩
  | fuel + 1, va, n =>
    if n = 0 then .ok ⟨[], []⟩
    else do
      let k := min n (128 - va.toNat % 128)
      let p ← place s c {} va k
      match firstBad s c p.loc k with
      | some (i, d) => raise .memerr d (va + BitVec.ofNat 64 i)
      | none => do
        let rest ← fetchStack s c h fuel (va + BitVec.ofNat 64 k) (n - k)
        match p.loc with
        | .phys key => .ok ⟨((stackLine s h p.mat (key / 128)).drop (key % 128)).take k ++ rest.bytes, key :: rest.keys⟩
        | .scr _ => .ok ⟨readPlace s c p k ++ rest.bytes, rest.keys⟩

/-- A number in fetched bytes. -/
def numAt (bs : List Byte) (o n : Nat) : Nat := leNat ((bs.drop o).take n)

/-- The types of a record's elements (R213). -/
def recordTy (t : Nat) : Bool := t == 0 || t == 1 || (decide (3 ≤ t) && decide (t ≤ 13)) || (decide (16 ≤ t) && decide (t ≤ 31))

/-- Every field of a record lies within the table of R213. -/
def recordOk (bs : List Byte) (pkg : Nat) : Bool :=
  let nd := numAt bs 9 1
  let local8 (a : Nat) (align : Nat) : Bool :=
    a % align == 0 && (match spaceOf (BitVec.ofNat 64 a) with
      | some (.control _) => true
      | some (.tensor _ p _) => p == pkg
      | _ => false)
  (spaceOf (BitVec.ofNat 64 (numAt bs 0 8))).isSome && recordTy (numAt bs 8 1) && decide (1 ≤ nd) && decide (nd ≤ 6) &&
    decide (numAt bs 10 1 < nd) && decide (numAt bs 11 1 ≤ 2) && decide (numAt bs 12 1 ≤ 1) && numAt bs 13 3 == 0 &&
    decide (numAt bs 0x14 4 ≤ 65536) && local8 (numAt bs 0x18 8) 4 &&
    (List.range 6).all (fun i =>
      if i < nd then decide (1 ≤ numAt bs (0x20 + 4 * i) 4) && decide (1 ≤ numAt bs (0x68 + 2 * i) 2) && decide (numAt bs (0x68 + 2 * i) 2 ≤ 1024)
      else numAt bs (0x20 + 4 * i) 4 == 0 && numAt bs (0x38 + 8 * i) 8 == 0 && numAt bs (0x68 + 2 * i) 2 == 0) &&
    numAt bs 0x74 4 == 0 && (numAt bs 0x78 8 == 0 || local8 (numAt bs 0x78 8) 2) && numAt bs 0x80 64 == 0

/-- Offsets never fall and stay within a bound (R214). -/
def risesTo (hi : Nat) : List Nat → Bool
  | [] => true
  | [x] => decide (x ≤ hi)
  | x :: y :: r => decide (x ≤ y) && risesTo hi (y :: r)

/-- A record with its tables. -/
def raggedOf (h : Nat) (bs : List Byte) (bounds own : List Nat) : Ragged where
  handle := h
  base := BitVec.ofNat 64 (numAt bs 0 8)
  ty := numAt bs 8 1
  ndim := numAt bs 9 1
  rdim := numAt bs 10 1
  policy := numAt bs 11 1
  padmode := numAt bs 12 1
  padw := BitVec.ofNat 32 (numAt bs 0x10 4)
  size := (List.range 6).map (fun i => numAt bs (0x20 + 4 * i) 4)
  stride := (List.range 6).map (fun i => sextInt (numAt bs (0x38 + 8 * i) 8) 64)
  tile := (List.range 6).map (fun i => numAt bs (0x68 + 2 * i) 2)
  bounds := bounds
  own := own

/-- Takes a snapshot of a record: reads it and its tables whole through the Stacks and validates it (R212 to R217). -/
def snapshot (c : Ctx) (h : Nat) (s : State) : Except Stop (Ragged × State) := do
  raiseIf (h == 0) .ragged 1
  let r ← fetchStack s c h 3 (BitVec.ofNat 64 (h * 64)) 192
  raiseIf (!recordOk r.bytes c.pkg) .ragged 2
  let nseg := numAt r.bytes 0x14 4
  let b ← fetchStack s c h (nseg + 1) (BitVec.ofNat 64 (numAt r.bytes 0x18 8)) (4 * (nseg + 1))
  let ownA := numAt r.bytes 0x78 8
  let o ← if ownA = 0 then Except.ok ⟨[], []⟩ else fetchStack s c h (nseg + 1) (BitVec.ofNat 64 ownA) (2 * nseg)
  let bounds := (List.range (nseg + 1)).map (fun i => numAt b.bytes (4 * i) 4)
  let owns := if ownA = 0 then [] else (List.range nseg).map (fun i => numAt o.bytes (2 * i) 2)
  let rec' := raggedOf h r.bytes bounds owns
  raiseIf (!risesTo (rec'.size.getD rec'.rdim 0) bounds || owns.any (fun x => decide (256 ≤ x))) .ragged 3
  .ok (rec', foldKeys (r.keys ++ b.keys ++ o.keys) s)

/-- The snapshot that a handle register names (R212). -/
def snapshotReg (c : Ctx) (v : Word64) (s : State) : Except Stop (Ragged × State) := do
  raiseIf (decide (2 ^ 32 ≤ v.toNat)) .ragged 1
  snapshot c v.toNat s

/-- `seg_of(h, i)`: the largest j with B[j] ≤ i < B[j+1], or -1 (R30). -/
def segGo (i : Nat) : Nat → List Nat → Int
  | _, [] => -1
  | _, [_] => -1
  | j, x :: y :: r => if x ≤ i ∧ i < y then j else segGo i (j + 1) (y :: r)

def segOf (r : Ragged) (i : Int) : Int := if i < 0 then -1 else segGo i.toNat 0 r.bounds

/-- The number of segments. -/
def Ragged.nseg (r : Ragged) : Nat := r.bounds.length - 1

end Sys2Proof.Machine
end

