-- ==== Sys2Proof/Machine/Aae.lean ====
section
/-! DEFINITION. The affine address engine and lane segments: `QSET`, `QGO`, `LRUN`, the engine's pushes and the start of a
segment (R104 to R111, R222, R223). -/

namespace Sys2Proof.Machine

/-- The staged descriptor at placement (R104). -/
def AaeDesc.reset : AaeDesc where
  base := none
  ty := 0
  dims := Vector.replicate 4 (0, 1)
  handle := 0
  rdim := 0
  pad := 0

/-- An empty queue without a stream (R27). -/
def Queue.reset : Queue := ⟨AaeDesc.reset, none, none, []⟩

/-- The element types of a stream (R104). -/
def aaeTy (t : Nat) : Bool := [1, 7, 11, 3, 4, 6, 10, 5, 9, 13].contains t || (decide (16 ≤ t) && decide (t ≤ 31))

/-- Instructions that only a compute-core group in user mode accepts (R63, R345). -/
def groupUserOnly (s : State) : Except Stop Unit :=
  raiseIf (!isGroup s.cur || sysMode s s.cur) .illegal 0

/-- A field of the staged descriptor from two registers, or ILLEGAL for a value outside R104. -/
def setField (sel : Nat) (x y : Word64) (q : AaeDesc) : Except Stop AaeDesc :=
  match sel with
  | 0 => do
    raiseIf (!aaeTy y.toNat) .illegal 0
    .ok { q with base := some x, ty := y.setWidth 5 }
  | 5 => do
    raiseIf (decide (2 ^ 32 ≤ x.toNat) || decide (4 ≤ y.toNat)) .illegal 0
    .ok { q with handle := x.setWidth 32, rdim := y.toNat }
  | 6 => do
    raiseIf (decide (2 ^ 32 ≤ x.toNat)) .illegal 0
    .ok { q with pad := x.setWidth 32 }
  | k => do
    raiseIf (decide (2 ^ 32 ≤ y.toNat)) .illegal 0
    .ok { q with dims := Vec.set q.dims (k - 1) (x, y.toNat) }

/-- Changes one queue of a group. -/
def mapQueue (n : Nat) (f : Queue → Queue) (g : Group) : Group := { g with queues := Vec.set g.queues n (f (Vec.get g.queues n)) }

/-- `QSET` (R105). -/
def execQset (d a : SReg) (queue fld : BitVec 3) (s : State) : Out :=
  finish s (do
    groupUserOnly s
    let q := Vec.get (selfGroup s).queues queue.toNat
    let q' ← setField fld.toNat (reg s a) (reg s d) q.staged
    .ok (advance 4 (mapSelfGroup (mapQueue queue.toNat (fun q => { q with staged := q' })) s)))

/-- The element format of a narrow access at a place: the slot its type or page names (R51). -/
def narrowFmt (c : Ctx) (ty : Nat) (p : Place) : Fmt :=
  let n := if 16 ≤ ty then ty - 16 else (match p.page with | some pg => leafFslot pg.leaf | none => 0)
  (slotOf c.slots n).getD (slotFmt 0)

/-- Whether a stream's strides and origin count nibbles: its slot's elements, or those of the page its BASE lies in for
`.pg`, have 4 bits or fewer (R104, R213, R222). -/
def nibbleStream (c : Ctx) (s : State) (d : AaeDesc) : Bool :=
  if 16 ≤ d.ty.toNat then narrowNibbles (slotOf c.slots (d.ty.toNat - 16)) = 1
  else if d.ty = 13 then
    (match place s c { ty := 13 } (d.base.getD 0) 1 with | .ok p => decide ((narrowFmt c 13 p).width ≤ 4) | .error _ => false)
  else false

/-- The stream's check against its record and its origin (R222). -/
def streamOrigin (c : Ctx) (s : State) (d : AaeDesc) (r : Ragged) : Except Stop Int := do
  let sr := r.stride.getD r.rdim 0
  let base := (d.base.getD 0).toNat
  let sm := (Vec.get d.dims d.rdim).1.toInt
  raiseIf (decide (sr ≤ 0) || sm != sr || decide (base < r.base.toNat) || r.ty != d.ty.toNat) .ragged 5
  let diff : Int := (base - r.base.toNat : Nat)
  .ok ((if nibbleStream c s d then 2 * diff else diff) / sr)

/-- Starts a stream when its queue has room for it (R106). -/
def startStream (x : AaeStream) (q : Queue) : Except Stop Queue :=
  match q.running, q.pending with
  | none, _ => .ok { q with running := some x }
  | some _, none => .ok { q with pending := some x }
  | some _, some _ => .error .stall

/-- `QGO` (R106). -/
def execQgo (a : SReg) (queue : BitVec 3) (s : State) : Out :=
  finish s (do
    groupUserOnly s
    let n := queue.toNat
    let q := Vec.get (selfGroup s).queues n
    let p := (reg s a).toNat
    raiseIf (q.staged.base == none) .illegal n
    raiseIf (decide (2 ^ 32 ≤ p)) .illegal n
    if p = 0 then
      .ok (advance 4 (mapSelfGroup (mapQueue n (fun q => { q with running := none, pending := none, entries := q.entries.filter (fun e => match e with | .words _ => true | .poison _ _ _ => false) })) s))
    else if q.staged.handle = 0 then do
      let q' ← startStream ⟨q.staged, p, 0, 0, none, 0, none⟩ q
      .ok (advance 4 (mapSelfGroup (mapQueue n (fun _ => q')) s))
    else do
      stallIf (q.running.isSome && q.pending.isSome)
      let (r, s) ← snapshot (selfCtx s) q.staged.handle.toNat s
      let o ← streamOrigin (selfCtx s) s q.staged r
      let q' ← startStream ⟨q.staged, p, 0, 0, some r, o, none⟩ q
      .ok (advance 4 (mapSelfGroup (mapQueue n (fun _ => q')) s)))

/-- Elements of a pass (R107). -/
def passLen (d : AaeDesc) : Nat := (d.dims.toList.map (·.2)).foldl (· * ·) 1

/-- Mixed-radix digit of dimension `k` of an element number, dimension 0 fastest (R107). -/
def digitOf (d : AaeDesc) (n k : Nat) : Nat :=
  n / ((d.dims.toList.take k).map (·.2)).foldl (· * ·) 1 % max 1 (Vec.get d.dims k).2

/-- The sum of digit times stride of an element (R107). -/
def strideSum (d : AaeDesc) (n : Nat) : Int :=
  (List.range 4).foldl (fun t k => t + digitOf d n k * (Vec.get d.dims k).1.toInt) 0

/-- The bytes of a standard element type. -/
def tyBytes (t : Nat) : Nat :=
  match t with
  | 0 | 8 | 12 => 8
  | 1 | 2 | 7 | 11 => 4
  | 3 | 4 | 6 | 10 => 2
  | _ => 1

/-- `widen` of a standard element's bits (R107). -/
def widen (t : Nat) (x : Nat) : Word32 :=
  match t with
  | 3 => BitVec.ofNat 32 (fmt32.round rneMode (fmt16.decode x))
  | 4 => BitVec.ofNat 32 (fmt32.round rneMode (fmtB16.decode x))
  | 5 => BitVec.ofInt 32 (sextInt x 8)
  | 6 => BitVec.ofInt 32 (sextInt x 16)
  | _ => BitVec.ofNat 32 x

/-- Where the scale code of an element on a block-scaled page stands, with the scale's format (R47, R292). -/
def scaleSpot (s : State) (c : Ctx) (ty : Nat) (p : Place) : Option (Place × Fmt) :=
  match p.page, p.loc with
  | some pg, .phys k =>
    if leafGeom pg.leaf ≠ 0 then
      let o := scaleOffset (leafGeom pg.leaf) (narrowFmt c ty p).width pg.pb p.off
      some ({ p with loc := .phys (paKey s (keyPkg k) (keyTgt k) (leafPa pg.leaf + o)), off := o }, (slotOf c.slots (leafSslot pg.leaf)).getD (slotFmt 0))
    else none
  | _, _ => none

/-- The scale of a `.pg` access of an agent, none where there is none; its own buffered stores to the code count (R47, R48,
R144, R292). DEDUCED: log entry 34. -/
def scaleAt (s : State) (c : Ctx) (ty : Nat) (p : Place) : Option Num :=
  if ty = 13 then (scaleSpot s c ty p).map (fun x => x.2.decode (leNat (readOwn s c x.1 1))) else none

/-- An uncorrectable error under an access, or under the scale code that it reads (R302). -/
def narrowBad (s : State) (c : Ctx) (ty : Nat) (p : Place) (n : Nat) : Option Nat :=
  match badAt s c p.loc n with
  | some d => some d
  | none => if ty = 13 then (scaleSpot s c ty p).bind (fun x => badAt s c x.1.loc 1) else none

/-- The narrow code in a byte, at a nibble position for W of 4 or less (R41). -/
def narrowCode (f : Fmt) (odd : Bool) (b : Byte) : Nat :=
  (if f.width ≤ 4 ∧ odd then b.toNat / 16 else b.toNat) % 2 ^ f.width

/-- The FP32 value of a narrow element (R48, R51). -/
def decodeNarrow (s : State) (c : Ctx) (ty : Nat) (p : Place) (odd : Bool) (b : Byte) : Word32 :=
  let f := narrowFmt c ty p
  let x := f.decode (narrowCode f odd b)
  let y := match scaleAt s c ty p with | some sc => x.mul sc | none => x
  BitVec.ofNat 32 (fmt32.round rneMode y)

/-- A fault that poisons a push (R109). -/
structure ReadFault where
  cls : TrapClass
  detail : Nat
  addr : Word64
deriving DecidableEq, Repr, Inhabited

/-- The address and nibble of element `n` of a stream: its byte address, and whether it is an odd nibble (R104, R107). -/
def elementAt (c : Ctx) (s : State) (d : AaeDesc) (n : Nat) : Word64 × Bool :=
  let base := d.base.getD 0
  if nibbleStream c s d then
    let x : Int := 2 * base.toNat + strideSum d n
    (BitVec.ofInt 64 (x / 2), x % 2 == 1)
  else (BitVec.ofInt 64 (base.toNat + strideSum d n), false)

/-- A fault of an element's read carries the element's address, one of an unset slot too (R109). -/
def withAddr {α : Type} (va : Word64) (r : Except Stop α) : Except Stop α :=
  match r with
  | .error (.trap t) => .error (.trap (if t.cls = .illegal then { t with addr := va } else t))
  | r => r

/-- Reads one element: its word, or the fault or stall of the read (R108, R109). -/
def readElement (s : State) (c : Ctx) (d : AaeDesc) (n : Nat) : Except Stop Word32 := do
  let (va, odd) := elementAt c s d n
  let t := d.ty.toNat
  let size := tyBytes t
  let p ← withAddr va (place s c { ty := t } va size)
  stallIf (!lineFull s c p.loc)
  match narrowBad s c t p size with
  | some e => raise .memerr e va
  | none =>
    let bs := readOwn s c p size
    .ok (if t = 13 ∨ 16 ≤ t then decodeNarrow s c t p odd (bs.getD 0 0) else widen t (leNat bs))

/-- What each lane of a push takes: an element or PAD; how many positions the push passes; the lowest lane that breaks a
FAULT policy (R107, R223). -/
structure PushPlan where
  take : List (Option Nat)
  step : Nat
  bad : Option Nat

def planPush (x : AaeStream) : PushPlan :=
  let n := x.pos
  let total := passLen x.desc
  let inL (l : Nat) : Bool := decide (n + l < total)
  match x.rag with
  | none => ⟨(List.range 32).map (fun l => if inL l then some (n + l) else none), 32, none⟩
  | some r =>
    let sg (l : Nat) : Int := segOf r (x.origin + digitOf x.desc (n + l) x.desc.rdim)
    match r.policy with
    | 0 =>
      let jr := match (List.range 32).find? (fun l => inL l && sg l != -1) with | some l => sg l | none => -1
      ⟨(List.range 32).map (fun l => if inL l && sg l == jr && jr != -1 then some (n + l) else none), 32, none⟩
    | 1 =>
      let jr := sg 0
      let cut := ((List.range 32).find? (fun l => !inL l || sg l != jr)).getD 32
      ⟨(List.range 32).map (fun l => if l < cut && jr != -1 then some (n + l) else none), cut, none⟩
    | _ =>
      ⟨(List.range 32).map (fun l => if inL l then some (n + l) else none), 32,
        (List.range 32).find? (fun l => inL l && (sg l == -1 || sg l != sg 0))⟩

/-- The words of a push, or its lowest fault. -/
def pushWords (s : State) (c : Ctx) (d : AaeDesc) : List (Option Nat) → Except Stop (List Word32)
  | [] => .ok []
  | none :: r => do let ws ← pushWords s c d r; .ok (d.pad :: ws)
  | some n :: r => do
    let w ← readElement s c d n
    let ws ← pushWords s c d r
    .ok (w :: ws)

/-- Whether a read of the push waits for an empty scratch line (R108). -/
def pushStalls (s : State) (c : Ctx) (d : AaeDesc) (take : List (Option Nat)) : Bool :=
  take.any (fun t => match t with | some n => (match readElement s c d n with | .error .stall => true | _ => false) | none => false)

/-- The fault of a push: that of its lowest faulting address (R109). DEDUCED: log entry 41. -/
def pushFault (s : State) (c : Ctx) (d : AaeDesc) (take : List (Option Nat)) : Option Trap :=
  take.foldl (fun best t => match t with
    | none => best
    | some n => match readElement s c d n, best with
      | .error (.trap x), some y => if x.addr.toNat < y.addr.toNat then some x else some y
      | .error (.trap x), none => some x
      | _, y => y) none

/-- The places that a push reads. -/
def pushPlaces (s : State) (c : Ctx) (d : AaeDesc) (take : List (Option Nat)) : List Place :=
  take.filterMap (fun t => t.bind (fun n => match place s c { ty := d.ty.toNat } (elementAt c s d n).1 (tyBytes d.ty.toNat) with | .ok p => some p | .error _ => none))

/-- Folds the shadows of the lines that a push reads (R158). -/
def foldPush (c : Ctx) (d : AaeDesc) (take : List (Option Nat)) (s : State) : State :=
  if s.cores.all (fun k => k.2.shadows == []) then s else seqAll (fun p s => foldAt p.loc s) (pushPlaces s c d take) s

/-- Ends a running stream: the pending one follows (R106). -/
def endStream (q : Queue) : Queue := { q with running := q.pending, pending := none }

/-- Moves a stream past a push (R107). -/
def passPush (x : AaeStream) (step : Nat) (q : Queue) : Queue :=
  let pos := x.pos + step
  if pos < passLen x.desc then { q with running := some { x with pos := pos } }
  else if x.pass + 1 < x.passes then { q with running := some { x with pos := 0, pass := x.pass + 1 } }
  else endStream q

/-- A list of 32 words as a vector. -/
def laneVec (ws : List Word32) : LaneVec := Vec.make 32 (fun l => ws.getD l 0)

/-- A stream's engine moves: the group is in user mode and has not ended (R345). -/
def engineRuns (s : State) (ag : Agent) : Bool :=
  isGroup ag && !sysMode s ag && (s.stream ag).run != .ended && (s.stream ag).run != .fenced

/-- The context of a stream's reads. -/
def pushCtx (s : State) (ag : Agent) : Ctx := { ctxOf s ag with user := true }

/-- Whether a queue's stream can push: it has elements and room, and does not wait for an empty scratch line; a push that is
to be poisoned by its record reads nothing (R107, R108, R219, R223, R336). -/
def pushReady (s : State) (ag : Agent) (n : Nat) : Bool :=
  let q := Vec.get (s.group ag).queues n
  match q.running with
  | none => false
  | some x =>
    engineRuns s ag && decide (q.entries.length < 8) &&
      (x.fault.isSome || (passLen x.desc != 0 && ((planPush x).bad.isSome || !pushStalls s (pushCtx s ag) x.desc (planPush x).take)))

/-- How far a queue stands behind the one that an issue slot's engine served last, among its 64 places (R336). -/
def pushRank (s : State) (ag : Agent) (n : Nat) : Nat :=
  match ag with
  | .group p c w => (w / 4 * 8 + n + 63 - Vec.get (s.core (p, c)).pushed (w % 4)) % 64
  | _ => 0

/-- The engine of an issue slot serves, round robin, the streams whose queue has room (R336). -/
def pushTurn (s : State) (ag : Agent) (n : Nat) : Bool :=
  match ag with
  | .group p c w =>
    s.groups.all (fun g => match g.1 with
      | .group p' c' w' => !(p' == p && c' == c && w' % 4 == w % 4) ||
          (List.range 8).all (fun m => decide (pushRank s ag n ≤ pushRank s g.1 m) || !pushReady s g.1 m)
      | _ => true)
  | _ => false

/-- Notes which queue an issue slot's engine served. -/
def noteServed (ag : Agent) (n : Nat) (s : State) : State :=
  match ag with
  | .group p c w => mapCore (p, c) (fun k => { k with pushed := Vec.set k.pushed (w % 4) (w / 4 * 8 + n) }) s
  | _ => s

/-- Ends a queue's streams with a poisoned entry (R109). -/
def poisonQueue (ag : Agent) (n : Nat) (cls : TrapClass) (detail : Nat) (addr : Word64) (s : State) : State :=
  mapGroup ag (mapQueue n (fun q => { q with running := none, pending := none, entries := q.entries ++ [.poison cls detail addr] })) s

/-- A push of a stream that is ready: its words, or a poisoned entry (R107, R109, R219, R223). -/
def pushNow (ag : Agent) (n : Nat) (x : AaeStream) (s : State) : Eff :=
  let c := pushCtx s ag
  let plan := planPush x
  match x.fault, plan.bad with
  | some t, _ => .ok (poisonQueue ag n t.cls t.detail t.addr s)
  | none, some l => .ok (poisonQueue ag n .ragged 6 (elementAt c s x.desc (x.pos + l)).1 s)
  | none, none =>
    match pushFault s c x.desc plan.take with
    | some t => .ok (poisonQueue ag n t.cls t.detail t.addr (noteBad (badKeys s c (pushPlaces s c x.desc plan.take) (tyBytes x.desc.ty.toNat)) s))
    | none => do
      let s := foldPush c x.desc plan.take s
      let ws ← pushWords s c x.desc plan.take
      .ok (mapGroup ag (mapQueue n (fun q => passPush x plan.step { q with entries := q.entries ++ [.words (laneVec ws)] })) s)

/-- `AAE_PUSH`: the engine pushes the next entry of a queue's stream, or poisons it; a stream without elements ends at once
(R107 to R109, R219, R223, R336). The engine stands still while the group runs its handler (R345). -/
def execAaePush (ag : Agent) (queue : BitVec 3) (s : State) : Out :=
  finishEvent s (
    let n := queue.toNat
    match (Vec.get (s.group ag).queues n).running with
    | none => .error .stall
    | some x =>
      if engineRuns s ag && x.fault.isNone && passLen x.desc == 0 then .ok (mapGroup ag (mapQueue n endStream) s)
      else if pushReady s ag n && pushTurn s ag n then pushNow ag n x (noteServed ag n s)
      else .error .stall)

/-- `LRUN` over a form's fields, its offset unsigned (R110). -/
def lrunForm (f : Form) (s : State) : Out :=
  finish s (do
    groupUserOnly s
    let g := selfGroup s
    stallIf (decide (4 ≤ g.segq.length))
    let lcode := (s.launch (s.block g.block).launch).lcode
    let seg : Segment := { start := lcode + 12 * f.zimm, frame := Vec.make 16 (fun j => (readS (self s) (BitVec.ofNat 6 (48 + j))).setWidth 32) }
    .ok (advance f.len (mapSelfGroup (fun g => { g with segq := g.segq ++ [seg] }) s)))

def execLrun (off : BitVec 26) (s : State) : Out := lrunForm (plainForm off s) s

/-- `SEGMENT_BEGIN`: the segment at the head of the queue begins with split 0 and every lane (R111); it waits for an
acquire (R155, R311) and for the group's handler (R345). -/
def execSegmentBegin (ag : Agent) (s : State) : Out :=
  finishEvent s (
    let g := s.group ag
    match g.segq with
    | [] => .error .stall
    | seg :: _ =>
      if !isGroup ag ∨ g.inSeg ∨ sysMode s ag then .error .stall
      else
        let lcode := (s.launch (s.block g.block).launch).lcode
        .ok (mapGroup ag (fun g => { g with
          inSeg := true
          frame := seg.frame
          live := 0xFFFFFFFF
          splits := Vec.set (Vector.replicate 4 none) 0 (some { lpc := seg.start - lcode, mask := 0xFFFFFFFF, m := Vector.replicate 7 0 })
          parked := []
          rep := none }) s))

end Sys2Proof.Machine
end

