-- ==== Sys2Proof/Machine/RaggedOps.lean ====
section
/-! DEFINITION. `RFLUSH`, `RQRY`, `SEGOF`, `RBIND` (R218 to R221, R226). -/

namespace Sys2Proof.Machine

/-- Delivers register values as a load does, its data read at issue (R88, R162, R220). -/
def deliver (dests : List Dest) (len : Nat) (s : State) : Eff := do
  stallIf (decide (63 ≤ (self s).ld))
  .ok (advance len (issueLoad s.cur { dests := dests } s))

/-- The packages of a package's panel (R367). -/
def panelPkgs (s : State) (pkg : Nat) : List Nat := (s.pkgs.map (·.1)).filter (fun p => panelOf p == panelOf pkg)

/-- Drops every snapshot of a handle from every Stacks of the coherent domain: what stood before is used no more (R218). -/
def dropSnapshots (pkg h : Nat) (s : State) : State :=
  { s with stale := s.stale.map (fun x => if panelOf (keyPkg (x.word * 8)) = panelOf pkg then { x with gone := addOnce (.flush h) x.gone } else x) }

/-- `RFLUSH` waits until the stream's writes are performed, then drops the handle's snapshots (R218). A lease record
under notice takes effect here (R279): see `Machine/Engines.lean`. -/
def rflush (a : SReg) (s : State) : Eff := do
  let h := reg s a
  raiseIf (decide (2 ^ 32 ≤ h.toNat)) .ragged 1
  stallIf ((self s).uw != 0)
  .ok (advance 4 (if h = 0 then s else dropSnapshots (agentPkg s.cur) h.toNat s))

/-- A query of a record (R220). -/
def rqry (d a : SReg) (f : Ragged → Except Stop Nat) (s : State) : Eff := do
  stallIf (decide (63 ≤ (self s).ld))
  let (r, s) ← snapshotReg (selfCtx s) (reg s a) s
  let v ← f r
  deliver [.s d (BitVec.ofNat 64 v)] 4 s

def execRqryNseg (d a : SReg) (s : State) : Out := finish s (rqry d a (fun r => .ok r.nseg) s)

def execRqryStart (d a b : SReg) (s : State) : Out :=
  finish s (rqry d a (fun r => if (reg s b).toNat ≤ r.nseg then .ok (r.bounds.getD (reg s b).toNat 0) else raise .ragged 4) s)

def execRqryLen (d a b : SReg) (s : State) : Out :=
  finish s (rqry d a (fun r =>
    if (reg s b).toNat < r.nseg then .ok (r.bounds.getD ((reg s b).toNat + 1) 0 - r.bounds.getD (reg s b).toNat 0)
    else raise .ragged 4) s)

def execRqryTotal (d a : SReg) (s : State) : Out :=
  finish s (rqry d a (fun r => .ok (r.bounds.getD r.nseg 0 - r.bounds.getD 0 0)) s)

/-- `SEGOF` (R221): with d = e only the s_d value is written. -/
def execSegof (w : LongWord) (s : State) : Out :=
  finish s (do
    stallIf (decide (63 ≤ (self s).ld))
    let (r, s') ← snapshotReg (selfCtx s) (reg s w.a) s
    let i := (reg s w.b).toNat
    let j := if 2 ^ 32 ≤ i then -1 else segOf r i
    let off : Word64 := if 0 ≤ j then BitVec.ofNat 64 (i - r.bounds.getD j.toNat 0) else BitVec.allOnes 64
    deliver (if w.d = w.e then [.s w.d (BitVec.ofInt 64 j)] else [.s w.d (BitVec.ofInt 64 j), .s w.e off]) 8 s')

/-- `RBIND` binds a record to an ordering stream of the MCC, or unbinds it (R226). -/
def execRbind (w : LongWord) (s : State) : Out :=
  finish s (match s.cur with
    | .mcc p c => do
      let h := reg s w.a
      let dims : BitVec 3 := w.aux.extractLsb' 3 3
      raiseIf ((h != 0) == (dims == 0)) .illegal 0
      raiseIf (decide (2 ^ 32 ≤ h.toNat)) .ragged 1
      let low (r : SReg) : Nat := (reg s r).toNat % 2 ^ 32
      let b : Option Binding := if h = 0 then none else some ⟨h.toNat, dims, low w.b, low w.c, low w.e⟩
      .ok (advance 8 (mapMcc (p, c) (fun m => { m with bind := Vec.set m.bind (w.aux.extractLsb' 0 3).toNat b }) s))
    | _ => raise .illegal 0)

end Sys2Proof.Machine
end

