-- ==== Sys2Proof/Machine/Branch.lean ====
section
/-! DEFINITION. Branches, the counted loop, jumps and calls (R95 to R98). -/

namespace Sys2Proof.Machine

/-- A transfer of control to `target`: the traps raised at the transferring instruction, in the order of R11, R26 and
R98, then `eff`, then the new program counter. Any other fault of the target is raised at the target's own fetch. -/
def transfer (target : Word64) (eff : State → State) (s : State) : Eff := do
  raiseIf (target.toNat % 4 != 0) .illegal 0
  raiseIf (decide (2 ≤ (target.extractLsb' 62 2).toNat)) .translation 1 target
  match spaceOf target with
  | some (.tensor _ p _) => raiseIf (p != agentPkg s.cur) .remote 0 target
  | _ => .ok ()
  .ok (goto target (eff s))

/-- The target of an offset that counts words from the instruction's own word (R95). -/
def wordTarget (f : Form) : Word64 := f.pc + (f.simm <<< 2)

/-- A conditional branch (R95). -/
def branch (taken : Bool) (f : Form) (s : State) : Out :=
  if taken then finish s (transfer (wordTarget f) id s) else .next (advance f.len s)

def beqForm (a b : SReg) (f : Form) (s : State) : Out := branch (reg s a == reg s b) f s
def bneForm (a b : SReg) (f : Form) (s : State) : Out := branch (reg s a != reg s b) f s
def bltForm (a b : SReg) (f : Form) (s : State) : Out := branch (decide ((reg s a).toInt < (reg s b).toInt)) f s
def bgeForm (a b : SReg) (f : Form) (s : State) : Out := branch (decide ((reg s b).toInt ≤ (reg s a).toInt)) f s
def bltuForm (a b : SReg) (f : Form) (s : State) : Out := branch (decide ((reg s a).toNat < (reg s b).toNat)) f s
def bgeuForm (a b : SReg) (f : Form) (s : State) : Out := branch (decide ((reg s b).toNat ≤ (reg s a).toNat)) f s

/-- `LOOP`: the comparison reads s_b after s_a is written (R96). -/
def loopForm (a b : SReg) (f : Form) (s : State) : Out :=
  let t := reg s a - 1
  if t != (if b = a && a != 0 then t else reg s b) then finish s (transfer (wordTarget f) (setReg a t) s)
  else .next (advance f.len (setReg a t s))

def execBeq (a b : SReg) (off : BitVec 14) (s : State) : Out := beqForm a b (plainForm off s) s
def execBne (a b : SReg) (off : BitVec 14) (s : State) : Out := bneForm a b (plainForm off s) s
def execBlt (a b : SReg) (off : BitVec 14) (s : State) : Out := bltForm a b (plainForm off s) s
def execBge (a b : SReg) (off : BitVec 14) (s : State) : Out := bgeForm a b (plainForm off s) s
def execBltu (a b : SReg) (off : BitVec 14) (s : State) : Out := bltuForm a b (plainForm off s) s
def execBgeu (a b : SReg) (off : BitVec 14) (s : State) : Out := bgeuForm a b (plainForm off s) s
def execLoop (a b : SReg) (off : BitVec 14) (s : State) : Out := loopForm a b (plainForm off s) s

/-- The address after a form (R97). -/
def afterForm (f : Form) : Word64 := f.pc + 4

def jForm (f : Form) (s : State) : Out := finish s (transfer (wordTarget f) id s)
def callForm (f : Form) (s : State) : Out := finish s (transfer (wordTarget f) (setReg 47 (afterForm f)) s)
def jrForm (a : SReg) (f : Form) (s : State) : Out := finish s (transfer (reg s a + f.simm) id s)
def callrForm (d a : SReg) (f : Form) (s : State) : Out :=
  finish s (transfer (reg s a + f.simm) (setReg d (afterForm f)) s)

def execJ (off : BitVec 26) (s : State) : Out := jForm (plainForm off s) s
def execCall (off : BitVec 26) (s : State) : Out := callForm (plainForm off s) s
def execJr (a : SReg) (imm : BitVec 14) (s : State) : Out := jrForm a (plainForm imm s) s
def execCallr (d a : SReg) (imm : BitVec 14) (s : State) : Out := callrForm d a (plainForm imm s) s

end Sys2Proof.Machine
end

