-- ==== Sys2Proof/Machine/Phaser.lean ====
section
/-! DEFINITION. Phasers: handles, registration, signals and the completion of phases (R167 to R169, R366). -/

namespace Sys2Proof.Machine

/-- A phaser by its package and its number, die * 4096 + index (R167). -/
structure PhaserRef where
  pkg : Nat
  num : Nat
  gen : Nat
deriving DecidableEq, Repr, Inhabited

/-- The parts of a handle, in a package's panel (R167). -/
def handleRef (viewer : Nat) (h : Word32) : PhaserRef where
  pkg := panelOf viewer * 64 + (h.extractLsb' 26 6).toNat
  num := (h.extractLsb' 12 14).toNat
  gen := (h.extractLsb' 0 12).toNat

/-- The handle of a phaser. -/
def refHandle (r : PhaserRef) : Word32 := BitVec.ofNat 32 (r.pkg % 64 * 2 ^ 26 + r.num * 2 ^ 12 + r.gen)

/-- A phaser; one that was never allocated is free with generation 1 next (log entry 8).
DESIGN CHOICE: log entry 8. -/
def phaserAt (s : State) (r : PhaserRef) : Phaser := Table.findD (s.pkg r.pkg).phasers r.num ⟨1, false, false, 0, 0, none, [], false, none⟩

def setPhaser (r : PhaserRef) (x : Phaser) (s : State) : State := mapPkg r.pkg (fun p => { p with phasers := Table.put p.phasers r.num x }) s

/-- A handle that names a live phaser (R169). -/
def handleLive (s : State) (viewer : Nat) (h : Word32) : Bool :=
  let r := handleRef viewer h
  r.gen != 0 && (phaserAt s r).live && (phaserAt s r).gen == r.gen

/-- The phaser of a handle register, or the traps of R168 and R169: REMOTE for a lost package where `lossTraps`. -/
def phaserOf (s : State) (v : Word64) (lossTraps : Bool) : Except Stop PhaserRef := do
  raiseIf (decide (2 ^ 32 ≤ v.toNat)) .sync 0x20
  let h : Word32 := v.setWidth 32
  let r := handleRef (agentPkg s.cur) h
  raiseIf (lossTraps && r.gen != 0 && (s.pkg (agentPkg s.cur)).lost.contains r.pkg) .remote 0x30
  raiseIf (!handleLive s (agentPkg s.cur) h) .sync 0x20
  .ok r

/-- Combines gather values (R167). -/
def combineGather (max : Bool) (a b : Word32) : Word32 := if max then (if a.toNat ≤ b.toNat then b else a) else a ||| b

/-- Every member that counts in the open phase has signalled it (R167). -/
def phaseFull (x : Phaser) : Bool := x.signalled && x.members.all (fun m => !m.signals || decide (x.phase < m.next))

/-- Completes the open phase if it is full: its word becomes the newest, and the next phase opens with the signals given
one phase ahead (R167, R169). -/
def completeOnce (x : Phaser) : Phaser :=
  if phaseFull x then
    { x with
      newest := some (x.phase, x.gather)
      phase := x.phase + 1
      gather := x.ahead.getD 0
      signalled := x.ahead.isSome
      ahead := none }
  else x

/-- Completions that follow one change: the phase after the open one may be full already. -/
def completePhases (x : Phaser) : Phaser := completeOnce (completeOnce x)

/-- A member's signal of its next phase (R169). -/
def signalMember (x : Phaser) (p : Member → Bool) (v : Word32) : Phaser :=
  match x.members.find? p with
  | none => x
  | some m =>
    let x := { x with members := x.members.map (fun (k : Member) => if p k then { k with next := k.next + 1 } else k) }
    completePhases (
      if m.next ≤ x.phase then { x with gather := combineGather x.max x.gather v, signalled := true }
      else { x with ahead := some (combineGather x.max (x.ahead.getD 0) v) })

/-- A signal that is no member's own: of an item or a lease (R261, R279). It combines into the open phase for the issuing
member where that is registered, and as a bare signal otherwise. -/
def signalAny (x : Phaser) (p : Member → Bool) (v : Word32) : Phaser :=
  if x.members.any (fun m => p m && m.signals) then signalMember x p v
  else completePhases { x with gather := combineGather x.max x.gather v, signalled := true }

/-- Whether a member is an agent's of a block; a saved block's members keep their block while others use its wave slots. -/
def isMember (who : Agent) (block : Option Nat) (m : Member) : Bool := m.who == who && m.block == block

/-- Drops a registration; the open phase may then complete (R169). -/
def dropMember (p : Member → Bool) (x : Phaser) : Phaser := completePhases { x with members := x.members.filter (fun m => !p m) }

/-- Drops every registration of a kind in every phaser of a package (R169, R366). -/
def dropAll (p : Member → Bool) (pkg : Nat) (s : State) : State :=
  mapPkg pkg (fun k => { k with phasers := k.phasers.map (fun e => (e.1, if e.2.members.any p then dropMember p e.2 else e.2)) }) s

/-- A free phaser of a die, searched from a place that a free value names (R168). DESIGN CHOICE: log entry 39. -/
def freePhaser (s : State) (pkg die : Nat) : Option Nat :=
  let start := Config.freeNat s.choice die % 4096
  let live := ((s.pkg pkg).phasers.filter (fun e => e.2.live)).map (·.1)
  if live.length = 0 then some (die * 4096 + start)
  else ((List.range (live.length + 1)).map (fun i => die * 4096 + (start + i) % 4096)).find? (fun n => !live.contains n)

end Sys2Proof.Machine
end

