-- ==== Sys2Proof/Machine/Sync.lean ====
section
/-! DEFINITION. Fences, named barriers, phaser instructions, `YIELD` (R163, R165 to R170, R175). -/

namespace Sys2Proof.Machine

/-- The drain of a drain instruction (R91). -/
def drain (s : State) : Except Stop Unit := stallIf (isGroup s.cur && (selfGroup s).segq != [])

/-- Waits for the stream's writes to be performed; the commit that went before stands (R163, R311). -/
def whenPerformed (s : State) (k : State → Eff) : Eff := if (self s).uw = 0 then k s else .ok s

/-- `FENCE`: the buffer commits once, and later accesses issue when every write is performed (R163).
DEDUCED: log entry 40. -/
def execFence (_scope : BitVec 3) (s : State) : Out :=
  finish s (do
    drain s
    whenPerformed (commitOwn s.cur s) (fun s => .ok (advance 4 s)))

/-- The count of a barrier form: its field, or s_a for 0 (R165). -/
def barCount (a : SReg) (cnt : BitVec 6) (s : State) : Nat := if cnt = 0 then (reg s a).toNat else cnt.toNat

/-- The block of a barrier form, its id and count ranges (R22, R165, R166, R180). -/
def barChecks (id : BitVec 6) (n : Nat) (s : State) : Except Stop Block := do
  raiseIf (!isGroup s.cur) .sync 0x14
  let b := s.block (selfGroup s).block
  raiseIf (decide (b.nbar ≤ id.toNat)) .bound 5
  raiseIf (n == 0 || decide (32 < n) || decide (b.groups.length < n)) .sync 0x11
  .ok b

/-- A barrier of a block; an absent one is idle (R22). -/
def barrierAt (b : Block) (id : Nat) : Barrier := Table.findD b.bars id ⟨none, [], 0⟩

def setBarrier (blk id : Nat) (x : Barrier) (s : State) : State := mapBlock blk (fun b => { b with bars := Table.put b.bars id x }) s

/-- The groups of a block whose index is listed. -/
def groupsAt (s : State) (b : Block) (is : List Nat) : List Agent := b.groups.filter (fun a => is.contains (s.group a).gidx)

/-- Completes a barrier's phase: the arrivals' buffers commit with the held ones, and the barrier becomes idle (R164, R166). -/
def completeBarrier (blk id : Nat) (s : State) : State :=
  let b := s.block blk
  let x := barrierAt b id
  let s := commitBlock blk (groupsAt s b x.arrived) s
  setBarrier blk id { count := none, arrived := [], phase := x.phase + 1 } s

/-- Opens the phase of an idle barrier, or checks the count against the open one (R166). -/
def openBarrier (x : Barrier) (n : Nat) : Except Stop Barrier :=
  match x.count with
  | none => .ok { x with count := some n, arrived := [] }
  | some c => do raiseIf (c != n) .sync 0x10; .ok x

/-- The arrival of the running group at a barrier: a release (R166, R311). -/
def arrive (id : Nat) (n : Nat) (s : State) : Eff := do
  let g := selfGroup s
  let x ← openBarrier (barrierAt (s.block g.block) id) n
  raiseIf (x.arrived.contains g.gidx) .sync 0x12
  let x := { x with arrived := x.arrived ++ [g.gidx] }
  let s := mapSelfGroup (fun g => { g with arrived := Table.put g.arrived id x.phase }) (setBarrier g.block id x s)
  .ok (if x.count = some x.arrived.length then completeBarrier g.block id s else s)

/-- The wait of the running group: it consumes an arrival whose phase has completed, or joins the open phase and stays
(R166). -/
def barWait (id : Nat) (n : Nat) (s : State) : Eff := do
  let g := selfGroup s
  let b := s.block g.block
  let x := barrierAt b id
  let consumed (s : State) : State := advance 4 (mapSelf (fun y => { y with half := none }) (mapSelfGroup (fun g => { g with arrived := Table.del g.arrived id }) s))
  match (self s).half with
  | some w =>
    -- waiting for a phase already joined; one that could no longer complete while a handler ran
    if w % 64 = id ∧ x.phase ≤ w / 64 then do
      raiseIf (x.phase == w / 64 && barrierStuck s b x) .sync 0x13
      .error .stall
    else .ok (consumed s)
  | none =>
    if (match Table.find? g.arrived id with | some p => decide (p < x.phase) | none => false) then .ok (consumed s)
    else do
      let x ← openBarrier x n
      .ok (stuckBarriers g.block (mapSelf (fun y => { y with half := some (waitCode id x.phase) }) (setBarrier g.block id x s)))

/-- `BAR.ARR` (R166). -/
def execBarArr (a : SReg) (id cnt : BitVec 6) (s : State) : Out :=
  finish s (do
    drain s
    let n := barCount a cnt s
    let _ ← barChecks id n s
    stallIf ((self s).uw != 0)
    let s ← arrive id.toNat n s
    .ok (advance 4 s))

/-- `BAR.WAIT` (R166). -/
def execBarWait (a : SReg) (id cnt : BitVec 6) (s : State) : Out :=
  finish s (do
    let n := barCount a cnt s
    let _ ← barChecks id n s
    barWait id.toNat n s)

/-- `BAR.SYNC`: the arrival, then in later turns the wait (R166). -/
def execBarSync (a : SReg) (id cnt : BitVec 6) (s : State) : Out :=
  finish s (do
    let n := barCount a cnt s
    match (self s).half with
    | some _ => barWait id.toNat n s
    | none => do
      drain s
      let b ← barChecks id n s
      stallIf ((self s).uw != 0)
      let p := (barrierAt b id.toNat).phase
      let s ← arrive id.toNat n s
      .ok (stuckBarriers (selfGroup s).block (mapSelf (fun y => { y with half := some (waitCode id.toNat p) }) s)))

/-- The block whose end drops a registration (R169). DESIGN CHOICE: log entry 67. -/
def memberBlock (s : State) : Option Nat := blockOf s s.cur

/-- The running agent's registration. -/
def isMe (s : State) : Member → Bool := isMember s.cur (memberBlock s)

/-- `PHNEW` (R168). -/
def execPhnew (d a : SReg) (s : State) : Out :=
  finish s (do
    raiseIf (decide (2 ≤ (reg s a).toNat)) .illegal 0
    let p := agentPkg s.cur
    match freePhaser s p (agentDie s.cur) with
    | none => .ok (advance 4 (setReg d 0 s))
    | some n =>
      let r : PhaserRef := ⟨p, n, (phaserAt s ⟨p, n, 0⟩).gen⟩
      let x : Phaser := { gen := r.gen, live := true, max := (reg s a).getLsbD 0, phase := 0, gather := 0, newest := none, members := [], signalled := false, ahead := none }
      .ok (advance 4 (setReg d ((refHandle r).zeroExtend 64) (setPhaser r x s))))

/-- `PHFREE`: the next allocation of the index takes the next generation (R168). -/
def execPhfree (a : SReg) (s : State) : Out :=
  finish s (do
    let r ← phaserOf s (reg s a) false
    let x := phaserAt s r
    raiseIf (x.members != []) .sync 0x24
    .ok (advance 4 (setPhaser r { x with live := false, gen := if x.gen = 4095 then 1 else x.gen + 1 } s)))

/-- `PHREG` (R168, R169). -/
def execPhreg (a b : SReg) (s : State) : Out :=
  finish s (do
    let m := (reg s b).toNat
    raiseIf (m == 0 || decide (4 ≤ m)) .illegal 0
    let r ← phaserOf s (reg s a) true
    let x := phaserAt s r
    raiseIf (x.members.any (isMe s)) .sync 0x22
    raiseIf (decide (65535 ≤ x.members.length)) .sync 0x23
    let first := if x.signalled then x.phase + 1 else x.phase
    let k : Member := { who := s.cur, block := memberBlock s, signals := m % 2 == 1, waits := decide (2 ≤ m), next := first, pos := first }
    .ok (advance 4 (setPhaser r { x with members := x.members ++ [k] } s)))

/-- `PHDROP` (R169). -/
def execPhdrop (a : SReg) (s : State) : Out :=
  finish s (do
    let r ← phaserOf s (reg s a) false
    let x := phaserAt s r
    raiseIf (!x.members.any (isMe s)) .sync 0x21
    .ok (advance 4 (setPhaser r (dropMember (isMe s) x) s)))

/-- The running agent's member of a phaser, or SYNC 0x021 (R169). -/
def selfMember (x : Phaser) (ok : Member → Bool) (s : State) : Except Stop Member :=
  match x.members.find? (isMe s) with
  | some k => if ok k then .ok k else raise .sync 0x21
  | none => raise .sync 0x21

/-- A signal after its drain: commit, performed writes, then the member's next phase, unless that lies two ahead (R169). -/
def phsig (r : PhaserRef) (v : Word32) (after : Nat → State → Eff) (s : State) : Eff := do
  let k ← selfMember (phaserAt s r) (·.signals) s
  whenPerformed (commitOwn s.cur s) (fun s => do
    let x := phaserAt s r
    stallIf (decide (x.phase + 2 ≤ k.next))
    after k.next (setPhaser r (signalMember x (isMe s) v) s))

/-- `PHSIG` (R169). -/
def execPhsig (a b : SReg) (s : State) : Out :=
  finish s (do
    drain s
    let r ← phaserOf s (reg s a) true
    phsig r ((reg s b).setWidth 32) (fun _ s => .ok (advance 4 s)) s)

/-- Returns from a phaser wait with the newest completed phase: an acquire (R169). DESIGN CHOICE: log entry 24. -/
def phwaitDone (d : SReg) (r : PhaserRef) (n : Nat) (g : Word32) (s : State) : State :=
  let x := phaserAt s r
  let s := setPhaser r { x with members := x.members.map (fun k => if isMe s k then { k with pos := n + 1 } else k) } s
  advance 4 (setReg d (BitVec.ofNat 64 (n % 2 ^ 32 * 2 ^ 32 + g.toNat)) (mapSelf (fun y => { y with half := none }) (acquireAt s.cur s)))

/-- Waits for a phase at or beyond a position (R169). -/
def phwaitFor (d : SReg) (r : PhaserRef) (pos : Nat) (s : State) : Eff :=
  match (phaserAt s r).newest with
  | some (n, g) => if pos ≤ n then .ok (phwaitDone d r n g s) else .error .stall
  | none => .error .stall

/-- `PHWAIT` (R169). -/
def execPhwait (d a : SReg) (s : State) : Out :=
  finish s (do
    let r ← phaserOf s (reg s a) true
    let k ← selfMember (phaserAt s r) (·.waits) s
    phwaitFor d r k.pos s)

/-- `PHSW`: the signal, then in later turns the wait for the phase just signalled (R168, R169). -/
def execPhsw (d a b : SReg) (s : State) : Out :=
  finish s (do
    drain s
    let r ← phaserOf s (reg s a) true
    let _ ← selfMember (phaserAt s r) (fun k => k.signals && k.waits) s
    match (self s).half with
    | some n => phwaitFor d r n s
    | none => phsig r ((reg s b).setWidth 32) (fun n s => .ok (mapSelf (fun y => { y with half := some n }) s)) s)

/-- `YIELD` over a form's fields (R170): the counters let it go on at once, or the group leaves its slot. -/
def yieldForm (f : Form) (s : State) : Out :=
  finish s (do
    raiseIf (isCtl s.cur || (isGroup s.cur && sysMode s s.cur)) .illegal 0
    drain s
    if isMcc s.cur then do
      stallIf ((self s).cp != 0)
      .ok (goto (wordTarget f) s)
    else
      let s := commitOwn s.cur s
      if (self s).cp = 0 then .ok (goto (wordTarget f) s)
      else .ok (retire (mapSelfGroup (fun g => { g with slot := .away, age := 0 }) (mapSelf (fun x => { x with run := .awayYield (wordTarget f) }) s))))

def execYield (off : BitVec 26) (s : State) : Out := yieldForm (plainForm off s) s

end Sys2Proof.Machine
end

