-- ==== Sys2Proof/Machine/Atomics.lean ====
section
/-! DEFINITION. Atomics, reductions, max-abs reads, trough counters and completion-counter reads (R151 to R162, R179). -/

namespace Sys2Proof.Machine

/-- The operations of both code tables (R151). -/
inductive AtomOp where
  | add | and | or | xor | min | max | xchg | cas | amax
deriving DecidableEq, Repr, Inhabited

/-- The atomic variant of a code (R151). -/
def atomOp (code : Nat) : AtomOp :=
  match code with
  | 0 => .add | 1 => .and | 2 => .or | 3 => .xor | 4 => .min | 5 => .max | 6 => .xchg | _ => .cas

/-- The reduction variant of a code (R151). -/
def redOp (code : Nat) : AtomOp :=
  match code with
  | 0 => .add | 1 => .min | 2 => .max | 3 => .and | 4 => .or | 5 => .xor | _ => .amax

/-- A floating type's format (R31). -/
def stdFmt (t : Nat) : Fmt := match t with | 0 => fmt64 | 3 => fmt16 | 4 => fmtB16 | _ => fmt32

/-- A standard floating type code. -/
def tyIsFloat (t : Nat) : Bool := t == 0 || t == 1 || t == 3 || t == 4

/-- A signed integer type code (R35). -/
def tySigned (t : Nat) : Bool := decide (5 ≤ t) && decide (t ≤ 8)

/-- The value of an integer type's bits. -/
def intOf (t x : Nat) : Int := if tySigned t then sextInt x (8 * tyBytes t) else (x % 2 ^ (8 * tyBytes t) : Nat)

/-- The new value of a location from the old one and the operand; `cmp` is the compare value of `.cas` (R152, R154). -/
def atomNew (op : AtomOp) (t old x cmp : Nat) : Nat :=
  let n := 8 * tyBytes t
  let fl := tyIsFloat t
  let f := stdFmt t
  match op with
  | .add => if fl then f.round rneMode (Num.add false (f.decode old) (f.decode x)) else (old + x) % 2 ^ n
  | .and => old &&& x
  | .or => old ||| x
  | .xor => old ^^^ x
  | .min => if fl then fminmax f false old x else if intOf t old ≤ intOf t x then old else x
  | .max => if fl then fminmax f true old x else if intOf t old ≤ intOf t x then x else old
  | .xchg => x
  | .cas => if old = cmp then x else old
  | .amax => fminmax f true (old % 2 ^ (n - 1)) (x % 2 ^ (n - 1))

/-- The place of an atomic access: decoding, then its natural alignment, then translation (R26, R153).
DEDUCED: log entry 36. -/
def atomPlace (s : State) (c : Ctx) (ty : Nat) (va : Word64) (size : Nat) (elem : Option Nat := none) : Except Stop Place := do
  let sp ← decodeVa c va size
  raiseIf (va.toNat % size != 0) .protection 0x11 va
  let p ← translate s c { write := true, ty, elem } va sp
  raiseIf (watched s c { write := true } va size || watched s c {} va size) .watch 0 va
  .ok p

/-- Removes every L1 copy of a line, for an agent that has no L1 (R153, R158). -/
def disownLine (line : Nat) (s : State) : State :=
  let s := foldLine line s
  { s with cores := s.cores.map (fun c => (c.1, { c.2 with owned := c.2.owned.filter (· != line), clean := c.2.clean.filter (fun x => x.line != line) })) }

/-- Takes the line of an atomic: exclusively in the issuing core's L1, every shadow of it folded (R153, R158). -/
def takeLine (ag : Agent) (l : Loc) (s : State) : State :=
  match coreOf ag, l with
  | some k, .phys a => ownLine k (a / 128) (foldLine (a / 128) s)
  | none, .phys a => disownLine (a / 128) s
  | _, .scr _ => s

/-- One read-modify-write at a place: the old value and the state after (R153, R315). -/
def rmw (c : Ctx) (p : Place) (size : Nat) (f : Nat → Nat) (s : State) : Nat × State :=
  let s := takeLine c.ag p.loc s
  let old := leNat (readPlace s c p size)
  (old, applyPuts c.block (putsAt p.mat p.loc (leBytes size (f old))) s)

/-- The bytes of a place that an operation has written, as they stand. -/
def placePuts (p : Place) (size : Nat) : List Put := putsAt p.mat p.loc (List.replicate size 0)

/-- Keeps an uncorrectable error that a read-modify-write met for a later instruction of the stream, and notes its chunk (R90,
R302, R379). -/
def noteError (c : Ctx) (p : Place) (size : Nat) (sregs : List Nat) (va : Word64) (s : State) : State :=
  match badAt s c p.loc size with
  | none => s
  | some d => noteBad (badKeys s c [p] size) (mapSelf (fun y => { y with deferred := y.deferred ++ [{ sregs, detail := d, addr := va }] }) s)

/-- The register value of an old location value (R154). -/
def oldValue (t old : Nat) : Word64 := if tySigned t then BitVec.ofInt 64 (intOf t old) else BitVec.ofNat 64 old

/-- Performs a scalar atomic whose place is known and counts it in ST (R153, R154). -/
def atomAt (op : AtomOp) (t : Nat) (d : SReg) (x cmp : Word64) (va : Word64) (len : Nat) (p : Place) (s : State) : Eff := do
  let c := selfCtx s
  let n := tyBytes t
  stallIf (decide (63 ≤ (self s).st))
  stallIf (!lineFull s c p.loc)
  let (old, s) := rmw c p n (fun old => atomNew op t old (x.toNat % 2 ^ (8 * n)) (cmp.toNat % 2 ^ (8 * n))) (noteError c p n [d.toNat] va s)
  .ok (advance len (issueWrite s.cur { dests := [.s d (oldValue t old)], vas := [va] } (placePuts p n) s))

/-- `ATOM`, short form (R154): relaxed. -/
def execAtomShort (d a b : SReg) (code ty : BitVec 4) (s : State) : Out :=
  let t := (atomShortTy ty).toNat
  finish s (do
    let p ← atomPlace s (selfCtx s) t (reg s a) (tyBytes t)
    atomAt (atomOp code.toNat) t d (reg s b) (reg s d) (reg s a) 4 p s)

/-- A release first commits and waits until the writes before it are performed (R155, R311). -/
def releaseFirst (rel : Bool) (s : State) (k : State → Eff) : Eff :=
  if rel then whenPerformed (commitOwn s.cur s) k else k s

/-- `ATOM`, long form (R155). -/
def execAtomLong (w : LongWord) (s : State) : Out :=
  let t := w.ty.toNat
  let op := atomOp (w.aux.extractLsb' 4 4).toNat
  let cas := op == .cas
  let va := if cas then reg s w.a else reg s w.a + reg s w.c
  finish s (do
    let p ← atomPlace s (selfCtx s) t va (tyBytes t)
    releaseFirst (w.aux.getLsbD 3) s (fun s => do
      let s ← atomAt op t w.d (if cas then reg s w.c else reg s w.b) (reg s w.b) va 8 p s
      .ok (if w.aux.getLsbD 2 then acquireAt s.cur s else s)))

/-- A reduction whose location is an element the L1 shadows (R158). -/
def redShadowed (op : AtomOp) (t : Nat) : Bool := op == .add && (t == 3 || t == 4 || t == 13 || decide (16 ≤ t))

/-- The format and size of a shadowed element at a place. -/
def redFmt (c : Ctx) (t : Nat) (p : Place) : Fmt × Nat := if t = 3 then (fmt16, 2) else if t = 4 then (fmtB16, 2) else (narrowFmt c t p, 1)

/-- The size of a reduction's location. -/
def redSize (t : Nat) : Nat := if t = 13 ∨ 16 ≤ t then 1 else tyBytes t

/-- The checks of a reduction's own slot, which need no address (R39, R158). -/
def redSlot (c : Ctx) (op : AtomOp) (t : Nat) : Except Stop Unit :=
  if redShadowed op t then do
    needSlot c t
    raiseIf (decide (16 ≤ t) && (match slotOf c.slots (t - 16) with | some f => decide (f.width ≤ 4) | none => false)) .illegal 0x40
  else .ok ()

/-- The checks of a reduction at its place beyond those of an atomic (R158). -/
def redPlace (s : State) (c : Ctx) (op : AtomOp) (t : Nat) (va : Word64) (elem : Option Nat := none) : Except Stop Place := do
  let p ← atomPlace s c t va (redSize t) elem
  if redShadowed op t then do
    let f := narrowFmt c t p
    raiseIf (t == 13 && decide (f.width ≤ 4)) .illegal 0x40
    raiseIf (match p.page with | some pg => leafGeom pg.leaf != 0 | none => false) .protection 0x13 va
  .ok p

/-- The slot word that a shadow keeps for an element at a place. -/
def redSlotWord (c : Ctx) (t : Nat) (p : Place) : Word32 :=
  if t = 3 ∨ t = 4 then 0
  else Vec.get c.slots (if 16 ≤ t then t - 16 else match p.page with | some pg => leafFslot pg.leaf | none => 0)

/-- Performs one reduction at a place (R157, R158). -/
def reduceAt (c : Ctx) (op : AtomOp) (t : Nat) (x : Nat) (p : Place) (s : State) : State :=
  if redShadowed op t then
    let x32 : Word32 := BitVec.ofNat 32 x
    let (f, n) := redFmt c t p
    match p.loc, coreOf c.ag with
    | .phys k, some core => shadowAdd core k p.mat (if t = 3 ∨ t = 4 then t else 16) (redSlotWord c t p) x32 s
    | .phys k, none =>
      let s := foldLine (k / 128) s
      let cur := fmt32.rnd rneMode (f.decode (leNat (readRange s p.mat k n)))
      let v := fmt32.rnd rneMode (Num.add false cur (fmt32.decode x32.toNat))
      applyPuts c.block (putsAt p.mat p.loc (leBytes n (f.round rneMode v))) s
    | .scr _, _ =>
      let old := f.decode (leNat (readPlace s c p n) % 2 ^ f.width)
      applyPuts c.block (putsAt p.mat p.loc (leBytes n (f.round rneMode (Num.add false old (fmt32.decode x32.toNat))))) s
  else
    let n := tyBytes t
    (rmw c p n (fun old => atomNew op t old (x % 2 ^ (8 * n)) 0) s).2

/-- `RED`, scalar form (R157). -/
def execRedScalar (w : LongWord) (s : State) : Out :=
  let t := w.ty.toNat
  let op := redOp (w.aux.extractLsb' 4 4).toNat
  let va := reg s w.a
  finish s (do
    let c := selfCtx s
    redSlot c op t
    let p ← redPlace s c op t va
    stallIf (decide (63 ≤ (self s).st))
    stallIf (!lineFull s c p.loc)
    let s := reduceAt c op t (reg s w.b).toNat p (noteError c p (redSize t) [] va s)
    .ok (advance 8 (issueWrite s.cur { vas := [va] } (placePuts p (redSize t)) s)))

/-- `AMAXRD`, scalar form (R160). DEDUCED: log entry 98. -/
def execAmaxrdScalar (w : LongWord) (s : State) : Out :=
  finish s (do
    let c := selfCtx s
    let va := reg s w.a
    let p ← atomPlace s c 1 va 4
    stallIf (decide (63 ≤ (self s).st))
    stallIf (!lineFull s c p.loc)
    let (old, s) := rmw c p 4 (fun _ => 0) (noteError c p 4 [w.d.toNat] va s)
    .ok (advance 8 (issueWrite s.cur { dests := [.s w.d (BitVec.ofNat 64 old)], vas := [va] } (placePuts p 4) s)))

/-- A draw from a trough counter: the count (R162). -/
def chunkCount (rem workers cmin f : Nat) : Nat :=
  if rem = 0 then 0 else min rem (max (max cmin 1) (ceilDiv rem (f * max workers 1)))

/-- `CHUNK` (R161, R162), an error in the descriptor kept for a later instruction (R90): one step at the slice that homes the descriptor; a scratch address is treated as misaligned
(log entry 13). DEDUCED: log entry 13. -/
def execChunk (d a b : SReg) (s : State) : Out :=
  finish s (do
    let c := selfCtx s
    let va := reg s a
    let sp ← decodeVa c va 32
    raiseIf (va.toNat % 32 != 0 || (match sp with | .scratch _ => true | _ => false)) .protection 0x11 va
    let p ← translate s c { write := true } va sp
    raiseIf (watched s c { write := true } va 32 || watched s c {} va 32) .watch 0 va
    stallIf (decide (63 ≤ (self s).ld))
    let s := match p.loc with | .phys k => disownLine (k / 128) s | .scr _ => s
    let bs := readPlace s c p 32
    let err : Option Deferred := (badAt s c p.loc 32).map (fun k => { sregs := [d.toNat, b.toNat], detail := k, addr := va })
    let bad := badKeys s c [p] 32
    raiseIf (numAt bs 0x18 1 == 0 || decide (8 < numAt bs 0x18 1) || numAt bs 0x19 7 != 0) .protection 0x12
    let rem := numAt bs 0 8
    let next := numAt bs 8 8
    let n := chunkCount rem (numAt bs 0x10 4) (numAt bs 0x14 4) (numAt bs 0x18 1)
    let ps := putsAt p.mat p.loc (leBytes 8 (rem - n) ++ leBytes 8 ((next + n) % 2 ^ 64))
    let s := devicePuts ps s
    .ok (advance 4 (issueLoad s.cur { dests := [.s d (BitVec.ofNat 64 next), .s b (BitVec.ofNat 64 n)], err := err, badKeys := bad } s)))

/-- The place of a completion counter (R179, R391). -/
def counterPlace (s : State) (c : Ctx) (va : Word64) : Except Stop Place :=
  match spaceOf va with
  | none => raise .translation 1 va
  | some (.control off) => do
    raiseIf (va.toNat % 8 != 0) .protection 0x15 va
    let p ← translate s c {} va (.control off)
    raiseIf (watched s c {} va 8) .watch 0 va
    .ok p
  | some _ => raise .protection 0x15 va

/-- `CCRD`; an error in the counter is kept for a later instruction (R90, R179). -/
def execCcrd (w : LongWord) (s : State) : Out :=
  finish s (do
    let c := selfCtx s
    let va := reg s w.a
    let p ← counterPlace s c va
    stallIf (decide (63 ≤ (self s).ld))
    let s := acquireAt s.cur (foldAt p.loc s)
    let err : Option Deferred := (badAt s c p.loc 8).map (fun k => { sregs := [w.d.toNat], detail := k, addr := va })
    .ok (advance 8 (issueLoad s.cur { dests := [.s w.d (BitVec.ofNat 64 (leNat (readPlace s c p 8)))], err } s)))

/-- `CCWT`, which itself consumes the counter (R179, R302). -/
def execCcwt (w : LongWord) (s : State) : Out :=
  finish s (do
    let c := selfCtx s
    let va := reg s w.a
    let p ← counterPlace s c va
    match badAt s c p.loc 8 with
    | some d => raise .memerr d va
    | none => do
      let s := foldAt p.loc s
      stallIf (decide ((reg s w.b).toNat < leNat (readPlace s c p 8)))
      .ok (advance 8 (acquireAt s.cur s)))

end Sys2Proof.Machine
end

