-- ==== Sys2Proof/Machine/Numbering.lean ====
section
/-! DEFINITION. The logical numbering of clusters and cores, derived from the Muniment tables (R24, R115, R380). -/

namespace Sys2Proof.Machine

/-- A physical core not retired. -/
def coreUp (m : Muniment) (phys : Nat) : Bool := m.cores.getD phys 0 == 1

/-- Cores not retired of a physical cluster, by position. -/
def upCores (m : Muniment) (clu : Nat) : List Nat := (clusterCores clu).filter (coreUp m)

/-- A cluster with at least 7 cores not retired (R380). -/
def clusterUsable (m : Muniment) (clu : Nat) : Bool := decide (7 ≤ (upCores m clu).length)

/-- The usable clusters of a die in ascending order. -/
def usableClusters (m : Muniment) (die : Nat) : List Nat := ((List.range 13).map (fun i => die * 13 + i)).filter (clusterUsable m)

/-- The logical number of a physical cluster in service (R24, R380). -/
def logicalCluster (m : Muniment) (clu : Nat) : Option Nat :=
  match (usableClusters m (clu / 13)).findIdx? (· == clu) with
  | some i => if i < 12 then some (clu / 13 * 12 + i) else none
  | none => none

/-- The physical cluster of a core. -/
def clusterOfCore (phys : Nat) : Nat := phys / 117 * 13 + phys % 117 / 9

/-- The logical number of a physical core in service (R24, R380). -/
def logicalCore (m : Muniment) (phys : Nat) : Option Nat :=
  match logicalCluster m (clusterOfCore phys), (upCores m (clusterOfCore phys)).findIdx? (· == phys) with
  | some c, some i => if i < 8 then some (c * 8 + i) else none
  | _, _ => none

/-- The cores of a cluster that have a logical number, in ascending logical index. -/
def serviceCores (m : Muniment) (clu : Nat) : List Nat := (upCores m clu).take 8

end Sys2Proof.Machine
end

