-- ==== Sys2Proof/Machine/Operands.lean ====
section
/-! DEFINITION. The lane stream's operands, results and progress: selectors, queues, masks, splits (R13 to R17, R68, R69,
R121 to R124, R16 merges, R43 to R45). -/

namespace Sys2Proof.Machine

/-- What a lane word executes in: its group, split and the lanes with active(l) = 1 (R30). -/
structure LaneEnv where
  ag : Agent
  id : Nat
  sp : Split
  act : Word32
deriving DecidableEq, Repr, Inhabited

/-- A mask register of a split; m0 is its active mask (R15). -/
def maskOf (sp : Split) (k : Nat) : Word32 := if k = 0 then sp.mask else Vec.get sp.m (k - 1)

/-- Changes one split of the running group. -/
def mapSplit (id : Nat) (f : Split → Split) (s : State) : State :=
  mapSelfGroup (fun g => { g with splits := Vec.set g.splits id ((Vec.get g.splits id).map f) }) s

/-- VN of the running group (R19). -/
def selfVn (s : State) : Nat :=
  let b := s.block (selfGroup s).block
  vnOf b.partw b.groups.length

/-- A v register named beyond VN, the pair counted for a 64-bit operand (R13). -/
def beyondVn (vn : Nat) (r : BitVec 9 × Bool) : Bool := decide (r.1.toNat < 0x100) && decide (vn ≤ r.1.toNat + (if r.2 then 1 else 0))

/-- A v register whose value a load has still to deliver (R122). -/
def awaited (g : Group) (r : BitVec 9 × Bool) : Bool :=
  decide (r.1.toNat < 0x100) && (g.vawait.contains r.1.toNat || (r.2 && g.vawait.contains (r.1.toNat + 1)))

/-- Starts a lane word: the executing split, the allotment check of every named register, the wait for registers still
awaited (R13, R72, R121, R122, R345). -/
def laneEnter (msel : BitVec 3) (regs : List (BitVec 9 × Bool)) (s : State) : Except Stop LaneEnv := do
  raiseIf (!isGroup s.cur || sysMode s s.cur) .illegal 0
  match lowestSplit (selfGroup s) with
  | none => .error .stall
  | some (id, sp) => do
    raiseIf (regs.any (beyondVn (selfVn s))) .bound 2
    stallIf (regs.any (awaited (selfGroup s)))
    .ok { ag := s.cur, id := id, sp := sp, act := sp.mask &&& maskOf sp msel.toNat }

/-- The earlier error of a load that a lane instruction raises by naming a register (R147). -/
def deferredAt (s : State) (ag : Agent) (rs : List Nat) : Option Deferred := (s.stream ag).deferred.find? (fun d => rs.any (fun r => d.vregs.contains r))

/-- Whether a lane's part of a register lies in a word that holds an uncorrectable error: a word is two lanes (R302). -/
def laneBad (s : State) (ag : Agent) (r l : Nat) : Bool :=
  s.bad.any (fun w => match w with | .vreg a r' l' => a == ag && r' == r && l' / 2 == l / 2 | _ => false)

/-- The trap of an instruction that reads uncorrectable words of lane registers: each lane's first register, the lowest lane's
address (R147, R302). -/
def badLanes (s : State) (ag : Agent) (srcs lanes : List Nat) : Option Trap :=
  if s.bad = [] then none
  else
    let addr (r l : Nat) : Word64 := 0xE000000000000000 + BitVec.ofNat 64 (128 * r + 4 * l)
    let faults := lanes.filterMap (fun l => (srcs.find? (fun r => laneBad s ag r l)).map (fun r => (⟨l, .memerr, 4, addr r l⟩ : LaneFault)))
    faults.head?.map (fun f => { cls := .memerr, detail := 4, addr := f.addr, faults })

/-- The errors that a lane instruction raises by naming registers, after its decode faults (R72, R147, R302). -/
def registerErrors (s : State) (ag : Agent) (named srcs lanes : List Nat) : Option Trap :=
  match deferredAt s ag named with
  | some d => some d.trap
  | none => badLanes s ag srcs lanes

/-- A write to lane registers clears the uncorrectable words that it writes whole (R302). -/
def clearRegs (ag : Agent) (rs ls : List Nat) (s : State) : State :=
  if s.bad = [] then s
  else { s with bad := s.bad.filter (fun w => match w with
    | .vreg a r l => !(a == ag && rs.contains r && ls.contains (l / 2 * 2) && ls.contains (l / 2 * 2 + 1))
    | _ => true) }

/-- active(l) (R30). -/
def LaneEnv.on (e : LaneEnv) (l : Nat) : Bool := e.act.getLsbD l

/-- The oldest entry of a queue, removed by a pop (R17, R109). -/
def takeQueue (pop : Bool) (n : Nat) (g : Group) : Except Stop (LaneVec × Group) :=
  let q := Vec.get g.queues n
  match q.entries with
  | [] => if q.running.isNone && q.pending.isNone then raise .sync 2 else .error .stall
  | .poison c d a :: _ => .error (.trap { cls := c, detail := d, addr := a, pq := some n })
  | .words v :: r => .ok (v, if pop then mapQueue n (fun q => { q with entries := r }) g else g)

/-- A 32-bit source: one word for each lane, and the group after its pop (R68, R123). -/
def read32 (e : LaneEnv) (imm : Word32) (sel : BitVec 9) (g : Group) : Except Stop (List Word32 × Group) :=
  let n := sel.toNat
  if n < 0x100 then .ok ((Vec.get g.v n).toList, g)
  else if n < 0x110 then .ok (List.replicate 32 (Vec.get g.frame (n - 0x100)), g)
  else if n < 0x118 then do let (v, g) ← takeQueue true (n - 0x110) g; .ok (v.toList, g)
  else if n < 0x120 then do let (v, g) ← takeQueue false (n - 0x118) g; .ok (v.toList, g)
  else if n = 0x120 then .ok (List.replicate 32 imm, g)
  else if n = 0x121 then .ok ((List.range 32).map (BitVec.ofNat 32), g)
  else .ok (List.replicate 32 (BitVec.ofNat 32 e.id), g)

/-- FP32 bits widened to FP64, a NaN keeping its sign and fraction (R68). -/
def widenF64 (x : Word32) : Nat :=
  let b := x.toNat
  match fmt32.decode b with
  | .nan => (b / 2 ^ 31) * 2 ^ 63 + 0x7FF * 2 ^ 52 + b % 2 ^ 23 * 2 ^ 29
  | y => fmt64.round rneMode y

/-- imm32 as an instruction's type reads it (R68). -/
def immValue (t : Nat) (imm : Word32) : Nat :=
  match t with
  | 0 => widenF64 imm
  | 3 => fmt16.round rneMode (fmt32.decode imm.toNat)
  | 4 => fmtB16.round rneMode (fmt32.decode imm.toNat)
  | 8 => wrapNat 64 (sextInt imm.toNat 32)
  | 6 | 10 => imm.toNat % 2 ^ 16
  | 5 | 9 => imm.toNat % 2 ^ 8
  | _ => imm.toNat

/-- The lane index or split id as a type receives it (R123); a narrow source receives the integer's bits.
DESIGN CHOICE: log entry 112. -/
def indexValue (t n : Nat) : Nat := if tyIsFloat t then (stdFmt t).round rneMode (.ofInt n) else n

/-- The bits of a register that a type reads (R123); a slot reads its low W bits. -/
def readBits (slots : Vector Word32 16) (t : Nat) : Nat :=
  if 16 ≤ t then (match slotOf slots (t - 16) with | some f => f.width | none => 8)
  else match t with
    | 0 | 8 | 12 => 64
    | 3 | 4 | 6 | 10 => 16
    | 5 | 9 => 8
    | _ => 32

/-- A source operand of a type: one number for each lane (R68, R123). -/
def readSel (e : LaneEnv) (slots : Vector Word32 16) (t : Nat) (imm : Word32) (sel : BitVec 9) (g : Group) : Except Stop (List Nat × Group) :=
  let n := sel.toNat
  if n = 0x120 then .ok (List.replicate 32 (immValue t imm), g)
  else if n = 0x121 then .ok ((List.range 32).map (indexValue t), g)
  else if n = 0x122 then .ok (List.replicate 32 (indexValue t e.id), g)
  else if readBits slots t = 64 then do
    let (lo, g) ← read32 e imm sel g
    let (hi, g) ← read32 e imm (sel + 1) g
    .ok (lo.zipWith (fun a b => a.toNat + 2 ^ 32 * b.toNat) hi, g)
  else do
    let (v, g) ← read32 e imm sel g
    .ok (v.map (fun x => x.toNat % 2 ^ readBits slots t), g)

/-- Writes one 32-bit register in the lanes of a mask (R122). -/
def writeV (act : Word32) (n : Nat) (vals : List Nat) (g : Group) : Group :=
  let old := Vec.get g.v n
  { g with v := Vec.set g.v n (Vec.make 32 (fun l => if act.getLsbD l then BitVec.ofNat 32 (vals.getD l 0) else Vec.get old l)) }

/-- Writes a result: a pair for 64 bits, else one register with zeros above the value (R123). -/
def writeResult (wide : Bool) (act : Word32) (n : Nat) (vals : List Nat) (g : Group) : Group :=
  if wide then writeV act (n + 1) (vals.map (· / 2 ^ 32)) (writeV act n vals g) else writeV act n vals g

/-- Writes bits of a mask register of the executing split in the active lanes (R124). -/
def writeMask (e : LaneEnv) (k : Nat) (bits : Word32) (s : State) : State :=
  mapSplit e.id (fun sp => { sp with m := Vec.set sp.m (k - 1) ((bits &&& e.act) ||| (maskOf sp k &&& ~~~e.act)) }) s

/-- A mask word by its bits. -/
def maskWord (f : Nat → Bool) : Word32 := BitVec.ofNat 32 ((List.range 32).foldl (fun m l => if f l then m + 2 ^ l else m) 0)

/-- The converter of an agent's `.rsr` roundings (R43), and one draw from it (R45). -/
def converterOf (s : State) : Agent → Word32
  | .group p c w => Vec.get (s.core (p, c)).conv (w % 4)
  | .mcc p c => (s.mcc (p, c)).conv
  | .ctl _ _ => 0

def setConverter (z : Word32) (s : State) : State :=
  match s.cur with
  | .group p c w => mapCore (p, c) (fun x => { x with conv := Vec.set x.conv (w % 4) z }) s
  | .mcc p c => mapMcc (p, c) (fun x => { x with conv := z }) s
  | .ctl _ _ => s

/-- The draw of an instruction with a rounding code, when that is `.rsr` (R45). -/
def draw (rm : Nat) (s : State) : Word32 × State :=
  if rm = 5 then
    let z := xorshift32 (converterOf s s.cur)
    (z, setConverter z s)
  else (0, s)

/-- Merges two equal splits into the lower one (R16). -/
def mergeInto (g : Group) (i j : Nat) : Group :=
  match Vec.get g.splits i, Vec.get g.splits j with
  | some a, some b =>
    if a.lpc = b.lpc then
      let m := Vec.make 7 (fun k => (Vec.get a.m k &&& ~~~b.mask) ||| (Vec.get b.m k &&& b.mask))
      { g with splits := Vec.set (Vec.set g.splits i (some { a with mask := a.mask ||| b.mask, m := m })) j none }
    else g
  | _, _ => g

/-- The merges after an issued word (R16, R121): at most one pair of splits can have become equal to each other. -/
def mergeSplits (g : Group) : Group :=
  [(0, 1), (0, 2), (0, 3), (1, 2), (1, 3), (2, 3)].foldl (fun g p => mergeInto g p.1 p.2) g

/-- Moves the executing split past its word. -/
def laneNext (s : State) : State :=
  match lowestSplit (selfGroup s) with
  | none => s
  | some (id, _) => mapSelfGroup mergeSplits (retire (mapSplit id (fun sp => { sp with lpc := sp.lpc + 12 }) s))

/-- A lane instruction outside a repeat: its effect, then the next word (R121). -/
def laneStep (body : State → Eff) (s : State) : Out := finishLane s ((body s).map laneNext)

/-- The slots of the running group's launch. -/
def selfSlots (s : State) : Vector Word32 16 := (selfCtx s).slots

/-- Reads operands A, B and C as far as a form has them, in that order (R17, R122). -/
def readOps (e : LaneEnv) (slots : Vector Word32 16) (w : LaneWord) (ts : List Nat) (g : Group) : Except Stop (List (List Nat) × Group) :=
  match ts with
  | [] => .ok ([], g)
  | [ta] => do
    let (a, g) ← readSel e slots ta w.imm w.a g
    .ok ([a], g)
  | [ta, tb] => do
    let (a, g) ← readSel e slots ta w.imm w.a g
    let (b, g) ← readSel e slots tb w.imm w.b g
    .ok ([a, b], g)
  | ta :: tb :: tc :: _ => do
    let (a, g) ← readSel e slots ta w.imm w.a g
    let (b, g) ← readSel e slots tb w.imm w.b g
    let (c, g) ← readSel e slots tc w.imm w.c g
    .ok ([a, b, c], g)

/-- A type of 64-bit values. -/
def wideTy (t : Nat) : Bool := t == 0 || t == 8 || t == 12

/-- The registers that a form names, with their widths. -/
def namedRegs (w : LaneWord) (ts : List Nat) (dst : Option Bool) : List (BitVec 9 × Bool) :=
  ([w.a, w.b, w.c].zip ts).map (fun x => (x.1, wideTy x.2)) ++ (match dst with | some wd => [(w.dst, wd)] | none => [])

/-- The k-th operand of a lane. -/
def opnd (ops : List (List Nat)) (k l : Nat) : Nat := (ops.getD k []).getD l 0

/-- A form that computes one result in each active lane from the lane's own operands of types `ts`; `f` gets the lane's
operands and its rounding (R122, R126, R127). -/
def laneMap (ts : List Nat) (td : Nat) (rm : Nat) (f : (Nat → Nat) → Rnd → Nat) (w : LaneWord) (s : State) : Eff := do
  let e ← laneEnter w.msel (namedRegs w ts (some (wideTy td))) s
  let (ops, g) ← readOps e (selfSlots s) w ts (selfGroup s)
  let (z, s) := draw rm s
  let vals := (List.range 32).map (fun l => if e.on l then f (fun k => opnd ops k l) ⟨rm, drawRv z l⟩ else 0)
  .ok (s.setGroup s.cur (writeResult (wideTy td) e.act w.dst.toNat vals g))

/-- A form that computes one result in each active lane from all lanes' operands. -/
def laneCross (ts : List Nat) (td : Nat) (rm : Nat) (f : LaneEnv → List (List Nat) → Word32 → List Nat) (w : LaneWord) (s : State) : Eff := do
  let e ← laneEnter w.msel (namedRegs w ts (some (wideTy td))) s
  let (ops, g) ← readOps e (selfSlots s) w ts (selfGroup s)
  let (z, s) := draw rm s
  .ok (s.setGroup s.cur (writeResult (wideTy td) e.act w.dst.toNat (f e ops z) g))

/-- A form whose result is a mask (R69, R124). -/
def laneMask (ts : List Nat) (f : (Nat → Nat) → Bool) (w : LaneWord) (s : State) : Eff := do
  let e ← laneEnter w.msel (namedRegs w ts none) s
  let (ops, g) ← readOps e (selfSlots s) w ts (selfGroup s)
  .ok (writeMask e w.dst.toNat (maskWord (fun l => f (fun k => opnd ops k l))) (s.setGroup s.cur g))

end Sys2Proof.Machine
end

