-- ==== Sys2Proof/Machine/Scalar.lean ====
section
/-! DEFINITION. Integer, logic and compare instructions of the scalar stream (R92 to R94). -/

namespace Sys2Proof.Machine

/-- A register form: s_d := f(s_a, s_b) (R92). -/
def alu (f : Word64 → Word64 → Word64) (d a b : SReg) (s : State) : Out :=
  .next (advance 4 (setReg d (f (reg s a) (reg s b)) s))

/-- An immediate form: s_d := f(s_a, imm) (R93). -/
def aluImm (f : Word64 → Word64 → Word64) (d a : SReg) (imm : Word64) (len : Nat) (s : State) : Out :=
  .next (advance len (setReg d (f (reg s a) imm) s))

def opAdd (a b : Word64) : Word64 := a + b
def opSub (a b : Word64) : Word64 := a - b
def opMul (a b : Word64) : Word64 := a * b
/-- Bits [127:64] of the signed product. -/
def opMulh (a b : Word64) : Word64 := BitVec.ofInt 64 (a.toInt * b.toInt / 2 ^ 64)
/-- Bits [127:64] of the unsigned product. -/
def opMulhu (a b : Word64) : Word64 := BitVec.ofNat 64 (a.toNat * b.toNat / 2 ^ 64)
/-- Signed quotient, truncated toward zero; all ones for a zero divisor; wraps at -2^63 / -1. -/
def opDiv (a b : Word64) : Word64 := if b = 0 then BitVec.allOnes 64 else BitVec.ofInt 64 (a.toInt.tdiv b.toInt)
def opDivu (a b : Word64) : Word64 := if b = 0 then BitVec.allOnes 64 else BitVec.ofNat 64 (a.toNat / b.toNat)
/-- a - b * `DIV`(a, b), a for a zero divisor. -/
def opRem (a b : Word64) : Word64 := if b = 0 then a else a - b * opDiv a b
def opRemu (a b : Word64) : Word64 := if b = 0 then a else BitVec.ofNat 64 (a.toNat % b.toNat)
def opShAdd (k : Nat) (a b : Word64) : Word64 := (a <<< k) + b
def opAnd (a b : Word64) : Word64 := a &&& b
def opOr (a b : Word64) : Word64 := a ||| b
def opXor (a b : Word64) : Word64 := a ^^^ b
def opAndn (a b : Word64) : Word64 := a &&& ~~~b
def opShl (a b : Word64) : Word64 := a <<< (b.toNat % 64)
def opShr (a b : Word64) : Word64 := a >>> (b.toNat % 64)
def opSra (a b : Word64) : Word64 := a.sshiftRight (b.toNat % 64)
def opRor (a b : Word64) : Word64 := a.rotateRight (b.toNat % 64)
def opSlt (a b : Word64) : Word64 := boolWord (decide (a.toInt < b.toInt))
def opSltu (a b : Word64) : Word64 := boolWord (decide (a.toNat < b.toNat))
def opSeq (a b : Word64) : Word64 := boolWord (a == b)
def opMin (a b : Word64) : Word64 := if a.toInt ≤ b.toInt then a else b
def opMax (a b : Word64) : Word64 := if a.toInt ≤ b.toInt then b else a
def opMinu (a b : Word64) : Word64 := if a.toNat ≤ b.toNat then a else b
def opMaxu (a b : Word64) : Word64 := if a.toNat ≤ b.toNat then b else a

/-- The bits of a number of width `n`, least significant first. -/
def bitList : Nat → Nat → List Bool
  | 0, _ => []
  | n + 1, x => (x % 2 == 1) :: bitList n (x / 2)

/-- Counts of leading zero bits, trailing zero bits and one bits of a number of width `n` (R92, R127). -/
def countLz (n x : Nat) : Nat := ((bitList n x).reverse.takeWhile (!·)).length
def countTz (n x : Nat) : Nat := ((bitList n x).takeWhile (!·)).length
def countOnes (n x : Nat) : Nat := ((bitList n x).filter id).length

def opClz (a _b : Word64) : Word64 := BitVec.ofNat 64 (countLz 64 a.toNat)
def opCtz (a _b : Word64) : Word64 := BitVec.ofNat 64 (countTz 64 a.toNat)
def opPopc (a _b : Word64) : Word64 := BitVec.ofNat 64 (countOnes 64 a.toNat)

def execAdd (d a b : SReg) (s : State) : Out := alu opAdd d a b s
def execSub (d a b : SReg) (s : State) : Out := alu opSub d a b s
def execMul (d a b : SReg) (s : State) : Out := alu opMul d a b s
def execMulh (d a b : SReg) (s : State) : Out := alu opMulh d a b s
def execMulhu (d a b : SReg) (s : State) : Out := alu opMulhu d a b s
def execDiv (d a b : SReg) (s : State) : Out := alu opDiv d a b s
def execDivu (d a b : SReg) (s : State) : Out := alu opDivu d a b s
def execRem (d a b : SReg) (s : State) : Out := alu opRem d a b s
def execRemu (d a b : SReg) (s : State) : Out := alu opRemu d a b s
def execSh1add (d a b : SReg) (s : State) : Out := alu (opShAdd 1) d a b s
def execSh2add (d a b : SReg) (s : State) : Out := alu (opShAdd 2) d a b s
def execSh3add (d a b : SReg) (s : State) : Out := alu (opShAdd 3) d a b s
def execAnd (d a b : SReg) (s : State) : Out := alu opAnd d a b s
def execOr (d a b : SReg) (s : State) : Out := alu opOr d a b s
def execXor (d a b : SReg) (s : State) : Out := alu opXor d a b s
def execAndn (d a b : SReg) (s : State) : Out := alu opAndn d a b s
def execShl (d a b : SReg) (s : State) : Out := alu opShl d a b s
def execShr (d a b : SReg) (s : State) : Out := alu opShr d a b s
def execSra (d a b : SReg) (s : State) : Out := alu opSra d a b s
def execRor (d a b : SReg) (s : State) : Out := alu opRor d a b s
def execSlt (d a b : SReg) (s : State) : Out := alu opSlt d a b s
def execSltu (d a b : SReg) (s : State) : Out := alu opSltu d a b s
def execSeq (d a b : SReg) (s : State) : Out := alu opSeq d a b s
def execMin (d a b : SReg) (s : State) : Out := alu opMin d a b s
def execMax (d a b : SReg) (s : State) : Out := alu opMax d a b s
def execMinu (d a b : SReg) (s : State) : Out := alu opMinu d a b s
def execMaxu (d a b : SReg) (s : State) : Out := alu opMaxu d a b s
def execClz (d a : SReg) (s : State) : Out := alu opClz d a 0 s
def execCtz (d a : SReg) (s : State) : Out := alu opCtz d a 0 s
def execPopc (d a : SReg) (s : State) : Out := alu opPopc d a 0 s

/-- The immediate forms over a form's fields, shared with `EXT` (R60, R93). -/
def addiForm (d a : SReg) (f : Form) (s : State) : Out := aluImm opAdd d a f.simm f.len s
def andiForm (d a : SReg) (f : Form) (s : State) : Out := aluImm opAnd d a f.zimm f.len s
def oriForm (d a : SReg) (f : Form) (s : State) : Out := aluImm opOr d a f.zimm f.len s
def xoriForm (d a : SReg) (f : Form) (s : State) : Out := aluImm opXor d a f.zimm f.len s
def muliForm (d a : SReg) (f : Form) (s : State) : Out := aluImm opMul d a f.simm f.len s
def sltiForm (d a : SReg) (f : Form) (s : State) : Out := aluImm opSlt d a f.simm f.len s
def sltiuForm (d a : SReg) (f : Form) (s : State) : Out := aluImm opSltu d a f.zimm f.len s

def execAddi (d a : SReg) (imm : BitVec 14) (s : State) : Out := addiForm d a (plainForm imm s) s
def execAndi (d a : SReg) (imm : BitVec 14) (s : State) : Out := andiForm d a (plainForm imm s) s
def execOri (d a : SReg) (imm : BitVec 14) (s : State) : Out := oriForm d a (plainForm imm s) s
def execXori (d a : SReg) (imm : BitVec 14) (s : State) : Out := xoriForm d a (plainForm imm s) s
def execMuli (d a : SReg) (imm : BitVec 14) (s : State) : Out := muliForm d a (plainForm imm s) s
def execSlti (d a : SReg) (imm : BitVec 14) (s : State) : Out := sltiForm d a (plainForm imm s) s
def execSltiu (d a : SReg) (imm : BitVec 14) (s : State) : Out := sltiuForm d a (plainForm imm s) s
def execShli (d a : SReg) (amount : BitVec 6) (s : State) : Out := aluImm opShl d a (amount.zeroExtend 64) 4 s
def execShri (d a : SReg) (amount : BitVec 6) (s : State) : Out := aluImm opShr d a (amount.zeroExtend 64) 4 s
def execSrai (d a : SReg) (amount : BitVec 6) (s : State) : Out := aluImm opSra d a (amount.zeroExtend 64) 4 s

/-- The field of `len` bits at `pos` (R94). -/
def fieldOf (x : Word64) (pos len : Nat) : Nat := bits x.toNat (pos + len - 1) pos

/-- x with the field of `len` bits at `pos` replaced (R94). -/
def insertField (x y : Word64) (pos len : Nat) : Word64 :=
  let m : Word64 := BitVec.ofNat 64 ((2 ^ len - 1) * 2 ^ pos)
  (x &&& ~~~m) ||| (BitVec.ofNat 64 (y.toNat % 2 ^ len * 2 ^ pos))

def execBfxI64 (d a : SReg) (len1 pos : BitVec 6) (s : State) : Out :=
  .next (advance 4 (setReg d (BitVec.ofInt 64 (sextInt (fieldOf (reg s a) pos.toNat (len1.toNat + 1)) (len1.toNat + 1))) s))

def execBfxN64 (d a : SReg) (len1 pos : BitVec 6) (s : State) : Out :=
  .next (advance 4 (setReg d (BitVec.ofNat 64 (fieldOf (reg s a) pos.toNat (len1.toNat + 1))) s))

def execBfi (d a : SReg) (len1 pos : BitVec 6) (s : State) : Out :=
  .next (advance 4 (setReg d (insertField (reg s d) (reg s a) pos.toNat (len1.toNat + 1)) s))

end Sys2Proof.Machine
end

