-- ==== Sys2Proof/Machine/LaneArith.lean ====
section
/-! DEFINITION. Lane arithmetic: floating forms, integer forms, conversions, packs (R125 to R129). -/

namespace Sys2Proof.Machine

/-- A floating form that rounds once: the exact result from the operands' values (R37, R126). -/
def floatForm (n : Nat) (f : Rnd → (Nat → Num) → Num) (w : LaneWord) (s : State) : Eff :=
  let t := w.ty.toNat
  let fm := stdFmt t
  laneMap (List.replicate n t) t w.rm.toNat (fun o k => fm.round k (f k (fun i => fm.decode (o i)))) w s

/-- A floating form on bits, without rounding. -/
def floatBits (n : Nat) (f : Fmt → (Nat → Nat) → Nat) (w : LaneWord) (s : State) : Eff :=
  let t := w.ty.toNat
  laneMap (List.replicate n t) t 0 (fun o _ => f (stdFmt t) o) w s

/-- The sign that an exact zero sum of unlike signs takes (IEEE 754). -/
def zeroSign (k : Rnd) : Bool := k.mode == 3

/-- a + b under a mode. -/
def numAdd (k : Rnd) (a b : Num) : Num := Num.add (zeroSign k) a b

/-- `FRINT`'s value: an integral number under the mode, a zero with the sign of a (R126). -/
def numRint (k : Rnd) : Num → Num
  | .fin neg m e => .fin neg (Num.toIntRnd k neg m e).natAbs 0
  | x => x

/-- An approximate function: the exact value rounded to the 12-bit format, then held in FP32 (R52). -/
def approxForm (f : Num → Num) (w : LaneWord) (s : State) : Eff :=
  laneMap [1] 1 0 (fun o _ => fmt32.round rneMode (fmtT32.rnd rneMode (f (fmt32.decode (o 0))))) w s

/-- The sign bit of a format. -/
def signBit (f : Fmt) : Nat := 2 ^ (f.exp + f.man)

def bodyFadd (w : LaneWord) (s : State) : Eff := floatForm 2 (fun k x => numAdd k (x 0) (x 1)) w s
def execFadd (w : LaneWord) (s : State) : Out := laneStep (bodyFadd w) s

def bodyFsub (w : LaneWord) (s : State) : Eff := floatForm 2 (fun k x => numAdd k (x 0) (x 1).neg) w s
def execFsub (w : LaneWord) (s : State) : Out := laneStep (bodyFsub w) s

def bodyFmul (w : LaneWord) (s : State) : Eff := floatForm 2 (fun _ x => (x 0).mul (x 1)) w s
def execFmul (w : LaneWord) (s : State) : Out := laneStep (bodyFmul w) s

def bodyFfma (w : LaneWord) (s : State) : Eff := floatForm 3 (fun k x => numAdd k ((x 0).mul (x 1)) (x 2)) w s
def execFfma (w : LaneWord) (s : State) : Out := laneStep (bodyFfma w) s

def bodyFfms (w : LaneWord) (s : State) : Eff := floatForm 3 (fun k x => numAdd k ((x 0).mul (x 1)) (x 2).neg) w s
def execFfms (w : LaneWord) (s : State) : Out := laneStep (bodyFfms w) s

def bodyFnma (w : LaneWord) (s : State) : Eff := floatForm 3 (fun k x => numAdd k (x 2) ((x 0).mul (x 1)).neg) w s
def execFnma (w : LaneWord) (s : State) : Out := laneStep (bodyFnma w) s

def bodyFnms (w : LaneWord) (s : State) : Eff := floatForm 3 (fun k x => numAdd k ((x 0).mul (x 1)).neg (x 2).neg) w s
def execFnms (w : LaneWord) (s : State) : Out := laneStep (bodyFnms w) s

def bodyFmin (w : LaneWord) (s : State) : Eff := floatBits 2 (fun f o => fminmax f false (o 0) (o 1)) w s
def execFmin (w : LaneWord) (s : State) : Out := laneStep (bodyFmin w) s

def bodyFmax (w : LaneWord) (s : State) : Eff := floatBits 2 (fun f o => fminmax f true (o 0) (o 1)) w s
def execFmax (w : LaneWord) (s : State) : Out := laneStep (bodyFmax w) s

def bodyFminn (w : LaneWord) (s : State) : Eff := floatBits 2 (fun f o => fminmaxn f false (o 0) (o 1)) w s
def execFminn (w : LaneWord) (s : State) : Out := laneStep (bodyFminn w) s

def bodyFmaxn (w : LaneWord) (s : State) : Eff := floatBits 2 (fun f o => fminmaxn f true (o 0) (o 1)) w s
def execFmaxn (w : LaneWord) (s : State) : Out := laneStep (bodyFmaxn w) s

def bodyFabs (w : LaneWord) (s : State) : Eff := floatBits 1 (fun f o => o 0 % signBit f) w s
def execFabs (w : LaneWord) (s : State) : Out := laneStep (bodyFabs w) s

def bodyFneg (w : LaneWord) (s : State) : Eff := floatBits 1 (fun f o => o 0 ^^^ signBit f) w s
def execFneg (w : LaneWord) (s : State) : Out := laneStep (bodyFneg w) s

def bodyFrint (w : LaneWord) (s : State) : Eff := floatForm 1 (fun k x => numRint k (x 0)) w s
def execFrint (w : LaneWord) (s : State) : Out := laneStep (bodyFrint w) s

def bodyFcmp (w : LaneWord) (s : State) : Eff := laneMask [w.ty.toNat, w.ty.toNat] (fun o => fcmp w.md.toNat ((stdFmt w.ty.toNat).decode (o 0)) ((stdFmt w.ty.toNat).decode (o 1))) w s
def execFcmp (w : LaneWord) (s : State) : Out := laneStep (bodyFcmp w) s

def bodyFrcp (w : LaneWord) (s : State) : Eff := approxForm Num.recip w s
def execFrcp (w : LaneWord) (s : State) : Out := laneStep (bodyFrcp w) s

def bodyFrsq (w : LaneWord) (s : State) : Eff := approxForm Num.rsqrt w s
def execFrsq (w : LaneWord) (s : State) : Out := laneStep (bodyFrsq w) s

def bodyFexp2 (w : LaneWord) (s : State) : Eff := approxForm Num.exp2 w s
def execFexp2 (w : LaneWord) (s : State) : Out := laneStep (bodyFexp2 w) s

def bodyFlog2 (w : LaneWord) (s : State) : Eff := approxForm Num.logb w s
def execFlog2 (w : LaneWord) (s : State) : Out := laneStep (bodyFlog2 w) s

/-- Bits of an integer type. -/
def intBits (t : Nat) : Nat := 8 * tyBytes t

/-- An integer form on the operands' bits, its result wrapped to the width (R127). -/
def intForm (n : Nat) (f : Nat → (Nat → Nat) → Nat) (w : LaneWord) (s : State) : Eff :=
  let t := w.ty.toNat
  laneMap (List.replicate n t) t 0 (fun o _ => f t o % 2 ^ intBits t) w s

/-- An integer form on the operands' values in the type, its exact result wrapped (R127). -/
def intVal (n : Nat) (f : Nat → (Nat → Int) → Int) (w : LaneWord) (s : State) : Eff :=
  intForm n (fun t o => wrapNat (intBits t) (f t (fun i => intOf t (o i)))) w s

/-- A value saturated to an integer type. -/
def satTy (t : Nat) (x : Int) : Int := satInt (tySigned t) (intBits t) x

def bodyIadd (w : LaneWord) (s : State) : Eff := intVal 2 (fun _ x => x 0 + x 1) w s
def execIadd (w : LaneWord) (s : State) : Out := laneStep (bodyIadd w) s

def bodyIsub (w : LaneWord) (s : State) : Eff := intVal 2 (fun _ x => x 0 - x 1) w s
def execIsub (w : LaneWord) (s : State) : Out := laneStep (bodyIsub w) s

def bodyImul (w : LaneWord) (s : State) : Eff := intVal 2 (fun _ x => x 0 * x 1) w s
def execImul (w : LaneWord) (s : State) : Out := laneStep (bodyImul w) s

def bodyImulh (w : LaneWord) (s : State) : Eff := intVal 2 (fun t x => x 0 * x 1 / 2 ^ intBits t) w s
def execImulh (w : LaneWord) (s : State) : Out := laneStep (bodyImulh w) s

def bodyImad (w : LaneWord) (s : State) : Eff := intVal 3 (fun _ x => x 0 * x 1 + x 2) w s
def execImad (w : LaneWord) (s : State) : Out := laneStep (bodyImad w) s

def bodyIadds (w : LaneWord) (s : State) : Eff := intVal 2 (fun t x => satTy t (x 0 + x 1)) w s
def execIadds (w : LaneWord) (s : State) : Out := laneStep (bodyIadds w) s

def bodyIsubs (w : LaneWord) (s : State) : Eff := intVal 2 (fun t x => satTy t (x 0 - x 1)) w s
def execIsubs (w : LaneWord) (s : State) : Out := laneStep (bodyIsubs w) s

def bodyImin (w : LaneWord) (s : State) : Eff := intVal 2 (fun _ x => min (x 0) (x 1)) w s
def execImin (w : LaneWord) (s : State) : Out := laneStep (bodyImin w) s

def bodyImax (w : LaneWord) (s : State) : Eff := intVal 2 (fun _ x => max (x 0) (x 1)) w s
def execImax (w : LaneWord) (s : State) : Out := laneStep (bodyImax w) s

def bodyIand (w : LaneWord) (s : State) : Eff := intForm 2 (fun _ o => o 0 &&& o 1) w s
def execIand (w : LaneWord) (s : State) : Out := laneStep (bodyIand w) s

def bodyIor (w : LaneWord) (s : State) : Eff := intForm 2 (fun _ o => o 0 ||| o 1) w s
def execIor (w : LaneWord) (s : State) : Out := laneStep (bodyIor w) s

def bodyIxor (w : LaneWord) (s : State) : Eff := intForm 2 (fun _ o => o 0 ^^^ o 1) w s
def execIxor (w : LaneWord) (s : State) : Out := laneStep (bodyIxor w) s

def bodyIandn (w : LaneWord) (s : State) : Eff := intForm 2 (fun t o => o 0 &&& (2 ^ intBits t - 1 - o 1)) w s
def execIandn (w : LaneWord) (s : State) : Out := laneStep (bodyIandn w) s

def bodyIshl (w : LaneWord) (s : State) : Eff := intForm 2 (fun t o => o 0 * 2 ^ (o 1 % intBits t)) w s
def execIshl (w : LaneWord) (s : State) : Out := laneStep (bodyIshl w) s

def bodyIshr (w : LaneWord) (s : State) : Eff := intForm 2 (fun t o => wrapNat (intBits t) (intOf t (o 0) / 2 ^ (o 1 % intBits t))) w s
def execIshr (w : LaneWord) (s : State) : Out := laneStep (bodyIshr w) s

def bodyIror (w : LaneWord) (s : State) : Eff := intForm 2 (fun t o => o 0 / 2 ^ (o 1 % intBits t) + o 0 * 2 ^ (intBits t - o 1 % intBits t)) w s
def execIror (w : LaneWord) (s : State) : Out := laneStep (bodyIror w) s

def bodyIpopc (w : LaneWord) (s : State) : Eff := intForm 1 (fun t o => countOnes (intBits t) (o 0)) w s
def execIpopc (w : LaneWord) (s : State) : Out := laneStep (bodyIpopc w) s

def bodyIclz (w : LaneWord) (s : State) : Eff := intForm 1 (fun t o => countLz (intBits t) (o 0)) w s
def execIclz (w : LaneWord) (s : State) : Out := laneStep (bodyIclz w) s

def bodyIcmp (w : LaneWord) (s : State) : Eff := laneMask [w.ty.toNat, w.ty.toNat] (fun o => icmp w.md.toNat (intOf w.ty.toNat (o 0)) (intOf w.ty.toNat (o 1))) w s
def execIcmp (w : LaneWord) (s : State) : Out := laneStep (bodyIcmp w) s

/-- The format of a floating or slot type, none for an integer type (R35). -/
def cvtFmt (slots : Vector Word32 16) (t : Nat) : Option Fmt :=
  if 16 ≤ t then slotOf slots (t - 16) else if tyIsFloat t then some (stdFmt t) else none

/-- The value of a source of a conversion (R128). -/
def cvtValue (slots : Vector Word32 16) (t x : Nat) : Num :=
  match cvtFmt slots t with
  | some f => f.decode x
  | none => .ofInt (intOf t x)

/-- A conversion's result (R34, R128). -/
def cvtResult (slots : Vector Word32 16) (dt st : Nat) (k : Rnd) (x : Nat) : Nat :=
  match cvtFmt slots dt with
  | some f => f.round k (cvtValue slots st x)
  | none => wrapNat (intBits dt) (match cvtFmt slots st with
    | some f => (f.decode x).toType k (tySigned dt) (intBits dt)
    | none => satTy dt (intOf st x))

/-- `CVT` (R128): a conversion through an unset slot is ILLEGAL (R39). -/
def bodyCvt (w : LaneWord) (s : State) : Eff := do
  let st := (w.imm.extractLsb' 0 5).toNat
  let dt := w.ty.toNat
  let slots := selfSlots s
  raiseIf ((decide (16 ≤ st) && slotOf slots (st - 16) == none) || (decide (16 ≤ dt) && slotOf slots (dt - 16) == none)) .illegal 0
  laneMap [st] dt w.rm.toNat (fun o k => cvtResult slots dt st k (o 0)) w s
def execCvt (w : LaneWord) (s : State) : Out := laneStep (bodyCvt w) s

/-- b with the field of `n` bits at position `p` replaced by the low bits of a (R129). -/
def packField (n p a b : Nat) : Nat := b - bits b (n * p + n - 1) (n * p) * 2 ^ (n * p) + a % 2 ^ n * 2 ^ (n * p)

def bodyPkn (w : LaneWord) (s : State) : Eff := laneMap [11, 11] 11 0 (fun o _ => packField 4 w.md.toNat (o 0) (o 1)) w s
def execPkn (w : LaneWord) (s : State) : Out := laneStep (bodyPkn w) s

def bodyPkb (w : LaneWord) (s : State) : Eff := laneMap [11, 11] 11 0 (fun o _ => packField 8 w.md.toNat (o 0) (o 1)) w s
def execPkb (w : LaneWord) (s : State) : Out := laneStep (bodyPkb w) s

def bodyPkh (w : LaneWord) (s : State) : Eff := laneMap [11, 11] 11 0 (fun o _ => packField 16 w.md.toNat (o 0) (o 1)) w s
def execPkh (w : LaneWord) (s : State) : Out := laneStep (bodyPkh w) s

def bodyUpn (w : LaneWord) (s : State) : Eff := laneMap [11] 11 0 (fun o _ => bits (o 0) (4 * w.md.toNat + 3) (4 * w.md.toNat)) w s
def execUpn (w : LaneWord) (s : State) : Out := laneStep (bodyUpn w) s

def bodyUpb (w : LaneWord) (s : State) : Eff := laneMap [11] 11 0 (fun o _ => bits (o 0) (8 * w.md.toNat + 7) (8 * w.md.toNat)) w s
def execUpb (w : LaneWord) (s : State) : Out := laneStep (bodyUpb w) s

def bodyUph (w : LaneWord) (s : State) : Eff := laneMap [11] 11 0 (fun o _ => bits (o 0) (16 * w.md.toNat + 15) (16 * w.md.toNat)) w s
def execUph (w : LaneWord) (s : State) : Out := laneStep (bodyUph w) s

end Sys2Proof.Machine
end

