-- ==== Sys2Proof/Machine/LaneMove.lean ====
section
/-! DEFINITION. Lane moves, shuffles, masks, votes, group reductions and scans (R56, R130 to R133, R229). -/

namespace Sys2Proof.Machine

/-- The lowest lane with active(l) = 1. -/
def lowestLane (e : LaneEnv) : Nat := ((List.range 32).find? e.on).getD 0

/-- A shuffle: lane l takes a[j], or its own a[l] where j is no active lane (R131). -/
def shuffle (j : Nat → Nat → Int) (w : LaneWord) (s : State) : Eff :=
  laneCross [w.ty.toNat, 11] w.ty.toNat 0 (fun e ops _ =>
    (List.range 32).map (fun l =>
      let k := j l (opnd ops 1 l)
      if 0 ≤ k ∧ k < 32 ∧ e.on k.toNat then opnd ops 0 k.toNat else opnd ops 0 l)) w s

/-- A mask form: a bit of each active lane from two mask registers (R132). -/
def maskForm (f : Word32 → Word32 → Word32) (w : LaneWord) (s : State) : Eff := do
  let e ← laneEnter w.msel [] s
  .ok (writeMask e w.dst.toNat (f (maskOf e.sp w.a.toNat) (maskOf e.sp w.b.toNat)) s)

/-- A vote: one word from the active lanes with a nonzero source, to every active lane (R133). -/
def vote (f : LaneEnv → Word32 → Nat) (w : LaneWord) (s : State) : Eff :=
  laneCross [11] 11 0 (fun e ops _ =>
    let m := maskWord (fun l => e.on l && opnd ops 0 l != 0)
    List.replicate 32 (f e m)) w s

/-- The identity of an operator in a type (R56): the operator is 0 add, 1 max, 2 min, 3 and, 4 or, 5 xor (R133). -/
def gredIdent (op t : Nat) : Nat :=
  let fl := tyIsFloat t
  let f := stdFmt t
  let n := intBits t
  match op with
  | 0 => if fl then f.signed true 0 else 0
  | 1 => if fl then f.infCode true else if tySigned t then 2 ^ (n - 1) else 0
  | 2 => if fl then f.infCode false else if tySigned t then 2 ^ (n - 1) - 1 else 2 ^ n - 1
  | 3 => 2 ^ n - 1
  | _ => 0

/-- One combination (R56, R133). -/
def gredOp (op t : Nat) (k : Rnd) (a b : Nat) : Nat :=
  let f := stdFmt t
  match op with
  | 0 => if tyIsFloat t then f.round k (numAdd k (f.decode a) (f.decode b)) else (a + b) % 2 ^ intBits t
  | 1 => if tyIsFloat t then fminmax f true a b else if intOf t a ≤ intOf t b then b else a
  | 2 => if tyIsFloat t then fminmax f false a b else if intOf t a ≤ intOf t b then a else b
  | 3 => a &&& b
  | 4 => a ||| b
  | _ => a ^^^ b

/-- One level of the pairwise tree: neighbours combine, the result of the pair at element i under rv_i (R45, R56); `w` is
the level's distance. -/
def treeLevel (f : Nat → Nat → Nat → Nat) (w : Nat) : Nat → List Nat → List Nat
  | i, a :: b :: r => f i a b :: treeLevel f w (i + 2 * w) r
  | _, l => l

/-- The tree over 32 elements (R56). -/
def tree (f : Nat → Nat → Nat → Nat) (t : List Nat) : Nat :=
  (treeLevel f 16 0 (treeLevel f 8 0 (treeLevel f 4 0 (treeLevel f 2 0 (treeLevel f 1 0 t))))).getD 0 0

/-- The tree of an operator over chosen lanes, the others holding the identity (R56, R229). -/
def gredOver (op t rm : Nat) (z : Word32) (on : Nat → Bool) (a : Nat → Nat) : Nat :=
  tree (fun i x y => gredOp op t ⟨rm, drawRv z i⟩ x y) ((List.range 32).map (fun l => if on l then a l else gredIdent op t))

/-- A scan in ascending lane order (R133). -/
def scanGo (op t rm : Nat) (z : Word32) (excl : Bool) (e : LaneEnv) (a : Nat → Nat) : List Nat → Nat → List Nat
  | [], _ => []
  | l :: r, acc =>
    if e.on l then
      let n := gredOp op t ⟨rm, drawRv z l⟩ acc (a l)
      (if excl then acc else n) :: scanGo op t rm z excl e a r n
    else 0 :: scanGo op t rm z excl e a r acc

/-- A scan form (R133). -/
def scanForm (excl : Bool) (op : BitVec 3) (w : LaneWord) (s : State) : Eff :=
  let t := w.ty.toNat
  laneCross [t] t w.rm.toNat (fun e ops z =>
    scanGo op.toNat t w.rm.toNat z excl e (opnd ops 0) (List.range 32) (gredIdent op.toNat t)) w s

def bodyMov (w : LaneWord) (s : State) : Eff := laneMap [w.ty.toNat] w.ty.toNat 0 (fun o _ => o 0) w s
def execMov (w : LaneWord) (s : State) : Out := laneStep (bodyMov w) s

def bodySel (w : LaneWord) (s : State) : Eff := laneCross [w.ty.toNat, w.ty.toNat] w.ty.toNat 0 (fun e ops _ =>
  (List.range 32).map (fun l => if (maskOf e.sp w.md.toNat).getLsbD l then opnd ops 0 l else opnd ops 1 l)) w s
def execSel (w : LaneWord) (s : State) : Out := laneStep (bodySel w) s

def bodyShflIdx (w : LaneWord) (s : State) : Eff := shuffle (fun _ b => (b % 32 : Nat)) w s
def execShflIdx (w : LaneWord) (s : State) : Out := laneStep (bodyShflIdx w) s

def bodyShflUp (w : LaneWord) (s : State) : Eff := shuffle (fun l b => (l : Int) - b) w s
def execShflUp (w : LaneWord) (s : State) : Out := laneStep (bodyShflUp w) s

def bodyShflDn (w : LaneWord) (s : State) : Eff := shuffle (fun l b => (l + b : Nat)) w s
def execShflDn (w : LaneWord) (s : State) : Out := laneStep (bodyShflDn w) s

def bodyShflXor (w : LaneWord) (s : State) : Eff := shuffle (fun l b => (l ^^^ (b % 32) : Nat)) w s
def execShflXor (w : LaneWord) (s : State) : Out := laneStep (bodyShflXor w) s

def bodyBcst (w : LaneWord) (s : State) : Eff := laneCross [w.ty.toNat] w.ty.toNat 0 (fun e ops _ => List.replicate 32 (opnd ops 0 (lowestLane e))) w s
def execBcst (w : LaneWord) (s : State) : Out := laneStep (bodyBcst w) s

def bodyMset (w : LaneWord) (s : State) : Eff := laneMask [11] (fun o => o 0 != 0) w s
def execMset (w : LaneWord) (s : State) : Out := laneStep (bodyMset w) s

def bodyMand (w : LaneWord) (s : State) : Eff := maskForm (fun a b => a &&& b) w s
def execMand (w : LaneWord) (s : State) : Out := laneStep (bodyMand w) s

def bodyMor (w : LaneWord) (s : State) : Eff := maskForm (fun a b => a ||| b) w s
def execMor (w : LaneWord) (s : State) : Out := laneStep (bodyMor w) s

def bodyMxor (w : LaneWord) (s : State) : Eff := maskForm (fun a b => a ^^^ b) w s
def execMxor (w : LaneWord) (s : State) : Out := laneStep (bodyMxor w) s

def bodyMandn (w : LaneWord) (s : State) : Eff := maskForm (fun a b => a &&& ~~~b) w s
def execMandn (w : LaneWord) (s : State) : Out := laneStep (bodyMandn w) s

def bodyVany (w : LaneWord) (s : State) : Eff := vote (fun _ m => if m = 0 then 0 else 1) w s
def execVany (w : LaneWord) (s : State) : Out := laneStep (bodyVany w) s

def bodyVall (w : LaneWord) (s : State) : Eff := vote (fun e m => if m = e.act then 1 else 0) w s
def execVall (w : LaneWord) (s : State) : Out := laneStep (bodyVall w) s

def bodyVbal (w : LaneWord) (s : State) : Eff := vote (fun _ m => m.toNat) w s
def execVbal (w : LaneWord) (s : State) : Out := laneStep (bodyVbal w) s

def bodyGred (op : BitVec 3) (w : LaneWord) (s : State) : Eff := 
  laneCross [w.ty.toNat] w.ty.toNat w.rm.toNat (fun e ops z =>
    List.replicate 32 (gredOver op.toNat w.ty.toNat w.rm.toNat z e.on (opnd ops 0))) w s
def execGred (op : BitVec 3) (w : LaneWord) (s : State) : Out := laneStep (bodyGred op w) s

def bodyScan (op : BitVec 3) (w : LaneWord) (s : State) : Eff := scanForm false op w s
def execScan (op : BitVec 3) (w : LaneWord) (s : State) : Out := laneStep (bodyScan op w) s

def bodyScanx (op : BitVec 3) (w : LaneWord) (s : State) : Eff := scanForm true op w s
def execScanx (op : BitVec 3) (w : LaneWord) (s : State) : Out := laneStep (bodyScanx op w) s

/-- `GREDS`: each segment id that an active lane holds is reduced on its own; lanes with a negative id keep their
register (R229). -/
def bodyGreds (op : BitVec 3) (w : LaneWord) (s : State) : Eff := do
  let t := w.ty.toNat
  let e ← laneEnter w.msel (namedRegs w [t, 11] (some (wideTy t))) s
  let (ops, g) ← readOps e (selfSlots s) w [t, 11] (selfGroup s)
  let (z, s) := draw w.rm.toNat s
  let seg (l : Nat) : Nat := opnd ops 1 l
  let own (l : Nat) : Bool := e.on l && decide (seg l < 2 ^ 31)
  let vals := (List.range 32).map (fun l => if own l then gredOver op.toNat t w.rm.toNat z (fun j => own j && seg j == seg l) (opnd ops 0) else 0)
  .ok (s.setGroup s.cur (writeResult (wideTy t) (maskWord own) w.dst.toNat vals g))
def execGreds (op : BitVec 3) (w : LaneWord) (s : State) : Out := laneStep (bodyGreds op w) s

end Sys2Proof.Machine
end

