-- ==== Sys2Proof/Machine/LaneControl.lean ====
section
/-! DEFINITION. Lane control: branches, joins, the ends of splits (R134 to R138). -/

namespace Sys2Proof.Machine

/-- Raises an error that was met before, once (R90, R147). -/
def takeDeferred (lane : Bool) (d : Deferred) (s : State) : State := takeTrap s.cur d.trap lane s

/-- The executing split of a lane control form. -/
def ctlEnter (s : State) : Except Stop (Nat × Split) := do
  raiseIf (!isGroup s.cur || sysMode s s.cur) .illegal 0
  match lowestSplit (selfGroup s) with
  | none => .error .stall
  | some x => .ok x

/-- Ends a lane control form: the merges of R16 and the count of R350. -/
def ctlDone (s : State) : State := retire (mapSelfGroup mergeSplits s)

/-- Sets a split. -/
def putSplit (id : Nat) (sp : Option Split) (g : Group) : Group := { g with splits := Vec.set g.splits id sp }

/-- The bits of m1 to m7 with those of a record's lanes restored (R137, R138). -/
def restoreMasks (p : Parked) (m : Vector Word32 7) : Vector Word32 7 :=
  Vec.make 7 (fun k => (Vec.get m k &&& ~~~p.pmask) ||| (Vec.get p.pm k &&& p.pmask))

/-- The two offsets of a branch: target and join, lane words from this one (R136). -/
def branchOffsets (lpc : Word64) (imm : Word32) : Int × Int :=
  (lpc.toNat + 12 * (imm.extractLsb' 0 16).toInt, lpc.toNat + 12 * (imm.extractLsb' 16 16).toInt)

/-- The lowest free split id. -/
def freeSplit (g : Group) : Option Nat := (List.range 4).find? (fun i => (Vec.get g.splits i).isNone)

/-- A lane branch over the lanes that take it (R136). -/
def laneBranch (taken : Split → Word32) (w : LaneWord) (s : State) : Eff := do
  let (id, sp) ← ctlEnter s
  let (tgt, jn) := branchOffsets sp.lpc w.imm
  raiseIf (decide (tgt < 0) || decide (jn < 0)) .illegal 0
  let t := sp.mask &&& taken sp
  let f := sp.mask &&& ~~~taken sp
  let go (lpc : Word64) (mask : Word32) : Split := { sp with lpc := lpc, mask := mask }
  let land : Word64 := BitVec.ofInt 64 tgt
  if f = 0 then .ok (mapSelfGroup (putSplit id (some (go land sp.mask))) s)
  else if t = 0 then .ok (mapSelfGroup (putSplit id (some (go (sp.lpc + 12) sp.mask))) s)
  else
    match freeSplit (selfGroup s) with
    | some n => .ok (mapSelfGroup (fun g => putSplit (max id n) (some (go land t)) (putSplit (min id n) (some (go (sp.lpc + 12) f)) g)) s)
    | none => do
      raiseIf (decide (8 ≤ (selfGroup s).parked.length)) .sync 1
      let p : Parked := { pmask := f, plpc := sp.lpc + 12, pjoin := BitVec.ofInt 64 jn, hold := false, pm := sp.m }
      .ok (mapSelfGroup (fun g => putSplit id (some (go land t)) { g with parked := g.parked ++ [p] }) s)

def execBrl (w : LaneWord) (s : State) : Out := finishLane s ((laneBranch (fun sp => maskOf sp w.md.toNat) w s).map ctlDone)
def execBrln (w : LaneWord) (s : State) : Out := finishLane s ((laneBranch (fun sp => ~~~maskOf sp w.md.toNat) w s).map ctlDone)

/-- The place of the most recent record that meets a condition (R135). -/
def lastRecord (p : Parked → Bool) (l : List Parked) : Option (Nat × Parked) :=
  ((List.range l.length).zip l).foldl (fun b x => if p x.2 then some x else b) none

/-- `JOINL` (R137). -/
def joinl (id : Nat) (sp : Split) (g : Group) : Group :=
  match lastRecord (fun p => !p.hold && p.pjoin == sp.lpc) g.parked with
  | some (k, p) =>
    let held : Parked := { p with pmask := sp.mask, pm := sp.m, plpc := sp.lpc, hold := true }
    putSplit id (some { lpc := p.plpc, mask := p.pmask, m := restoreMasks p sp.m }) { g with parked := removeAt g.parked k ++ [held] }
  | none =>
    match lastRecord (fun p => p.hold && p.pjoin == sp.lpc) g.parked with
    | some (k, p) =>
      putSplit id (some { lpc := sp.lpc + 12, mask := sp.mask ||| p.pmask, m := restoreMasks p sp.m }) { g with parked := removeAt g.parked k }
    | none => putSplit id (some { sp with lpc := sp.lpc + 12 }) g

def execJoinl (_w : LaneWord) (s : State) : Out :=
  finishLane s (do
    let (id, sp) ← ctlEnter s
    .ok (ctlDone (mapSelfGroup (joinl id sp) s)))

/-- The live-lane mask: the lanes of the splits and of the parked records (R15). -/
def liveOf (g : Group) : Word32 :=
  (g.splits.toList.foldl (fun m x => match x with | some sp => m ||| sp.mask | none => m) 0) ||| g.parked.foldl (fun m p => m ||| p.pmask) 0

/-- Ends a split: it takes the most recent record or becomes free; with no split and no record left the segment leaves
the queue (R138). -/
def endSplit (id : Nat) (sp : Split) (g : Group) : Group :=
  let g := match lastRecord (fun _ => true) g.parked with
  | some (k, p) =>
    putSplit id (some { lpc := if p.hold then p.plpc + 12 else p.plpc, mask := p.pmask, m := restoreMasks p sp.m })
      { g with parked := removeAt g.parked k }
  | none =>
    let g := putSplit id none g
    if g.splits.toList.all (·.isNone) then { g with segq := g.segq.drop 1, inSeg := false, rep := none } else g
  { g with live := liveOf g }

/-- An error of a lane load that the end of a split raises (R147). DEDUCED: log entry 46. -/
def splitError (id : Nat) (s : State) : Option Deferred :=
  (self s).deferred.find? (fun d => match d.split with
    | some k => k == id || (Vec.get (selfGroup s).splits k).isNone
    | none => false)

/-- A lane load in flight whose data hold an error: a split waits for it before it ends (R147). -/
def errorInFlight (s : State) : Bool := (self s).loads.any (fun l => match l.err with | some d => d.split.isSome | none => false)

/-- Ends the executing split after a change to the group, unless an error is raised there (R138, R147). -/
def endingSplit (id : Nat) (sp : Split) (f : Group → Group) (s : State) : Out :=
  match splitError id s with
  | some d => .next (takeDeferred true d s)
  | none => finishLane s (do
    stallIf (errorInFlight s)
    .ok (ctlDone (mapSelfGroup (fun g => endSplit id sp (f g)) s)))

/-- `LRET` (R138). -/
def execLret (_w : LaneWord) (s : State) : Out :=
  match ctlEnter s with
  | .error e => finishLane s (.error e)
  | .ok (id, sp) => endingSplit id sp (fun g => g) s

/-- `EXIT` (R138). -/
def execExit (w : LaneWord) (s : State) : Out :=
  match ctlEnter s with
  | .error e => finishLane s (.error e)
  | .ok (id, sp) =>
    let gone := sp.mask &&& maskOf sp w.md.toNat
    let left := sp.mask &&& ~~~gone
    let drop (g : Group) : Group := { g with live := g.live &&& ~~~gone }
    if left = 0 then endingSplit id sp drop s
    else .next (ctlDone (mapSelfGroup (fun g => putSplit id (some { sp with mask := left, lpc := sp.lpc + 12 }) (drop g)) s))

end Sys2Proof.Machine
end

