-- ==== Sys2Proof/Machine/ScalarMem.lean ====
section
/-! DEFINITION. Scalar loads and stores (R99 to R103). -/

namespace Sys2Proof.Machine

/-- The value of a load's bytes, extended to 64 bits (R99). -/
def loadValue (signed : Bool) (bs : List Byte) : Word64 :=
  if signed then BitVec.ofInt 64 (sextInt (leNat bs) (8 * bs.length)) else BitVec.ofNat 64 (leNat bs)

/-- A scalar load whose place is known: waits for its scratch line and for LD, reads, and counts in LD (R101). -/
def loadAt (d : SReg) (signed : Bool) (size : Nat) (va : Word64) (len : Nat) (p : Place) (s : State) : Eff := do
  let c := selfCtx s
  stallIf (decide (63 ≤ (self s).ld))
  stallIf (!lineFull s c p.loc)
  let s := foldAt p.loc s
  let err : Option Deferred := (badAt s c p.loc size).map (fun n => { sregs := [d.toNat], detail := n, addr := va })
  let op : LoadOp := { dests := [.s d (loadValue signed (readOwn s c p size))], err := err, badKeys := badKeys s c [p] size }
  .ok (advance len (issueLoad s.cur op (fillLine s.cur p s)))

/-- `LDS` (R99). -/
def ldsForm (signed : Bool) (size : Nat) (d a : SReg) (f : Form) (s : State) : Out :=
  let va := reg s a + f.simm
  finish s (do let p ← place s (selfCtx s) {} va size; loadAt d signed size va f.len p s)

/-- Whether a store of an agent to a place enters its quantum buffer: ordered stores on, local tensor space or the
scratch window (R103, R142). -/
def buffered (s : State) (ag : Agent) (va : Word64) : Bool :=
  ordered s ag && (match spaceOf va with | some (.control _) => false | _ => true)

/-- A plain store to memory, performed and counted; a core's own L1 takes it too (R101, R282, R288, R311). -/
def storeNow (blk : Option Nat) (va : Word64) (ps : List Put) (s : State) : State :=
  let s := applyPuts blk ps s
  let s := match coreOf s.cur with | some k => throughL1 k ps s | none => s
  issueWrite s.cur { inUw := putKeys ps != [], vas := [va] } ps s

/-- A scalar store whose place is known; to control space, after its stream's earlier ones (R101, R103, R310). -/
def storeAt (bs : List Byte) (va : Word64) (len : Nat) (p : Place) (s : State) : Eff := do
  stallIf (decide (63 ≤ (self s).st))
  let ps := putsAt p.mat p.loc bs
  if buffered s s.cur va then do
    let s ← qbufStore s.cur false va ps s
    .ok (advance len (issueWrite s.cur { inUw := false } [] s))
  else do
    stallIf (controlDue s s.cur ps)
    .ok (advance len (storeNow (selfCtx s).block va ps s))

/-- `STS` (R99). -/
def stsForm (size : Nat) (b a : SReg) (f : Form) (s : State) : Out :=
  let va := reg s a + f.simm
  finish s (do
    let p ← place s (selfCtx s) { write := true } va size
    storeAt (leBytes size (reg s b).toNat) va f.len p s)

def execLdsI8 (d a : SReg) (imm : BitVec 14) (s : State) : Out := ldsForm true 1 d a (plainForm imm s) s
def execLdsN8 (d a : SReg) (imm : BitVec 14) (s : State) : Out := ldsForm false 1 d a (plainForm imm s) s
def execLdsI16 (d a : SReg) (imm : BitVec 14) (s : State) : Out := ldsForm true 2 d a (plainForm imm s) s
def execLdsN16 (d a : SReg) (imm : BitVec 14) (s : State) : Out := ldsForm false 2 d a (plainForm imm s) s
def execLdsI32 (d a : SReg) (imm : BitVec 14) (s : State) : Out := ldsForm true 4 d a (plainForm imm s) s
def execLdsN32 (d a : SReg) (imm : BitVec 14) (s : State) : Out := ldsForm false 4 d a (plainForm imm s) s
def execLdsN64 (d a : SReg) (imm : BitVec 14) (s : State) : Out := ldsForm false 8 d a (plainForm imm s) s
def execStsN8 (b a : SReg) (imm : BitVec 14) (s : State) : Out := stsForm 1 b a (plainForm imm s) s
def execStsN16 (b a : SReg) (imm : BitVec 14) (s : State) : Out := stsForm 2 b a (plainForm imm s) s
def execStsN32 (b a : SReg) (imm : BitVec 14) (s : State) : Out := stsForm 4 b a (plainForm imm s) s
def execStsN64 (b a : SReg) (imm : BitVec 14) (s : State) : Out := stsForm 8 b a (plainForm imm s) s

end Sys2Proof.Machine
end

