-- ==== Sys2Proof/Machine/LaneMem.lean ====
section
/-! DEFINITION. Lane loads, stores, atomics and reductions, `STT`, `LDA`, `SEGL`, `SEGB` (R140 to R150, R156 to R160, R228). -/

namespace Sys2Proof.Machine

/-- The registers that a lane memory form names (R141): its base pair, its index, its data and its destination. -/
def memRegs (w : LaneWord) (data dst : Option Bool) : List (BitVec 9 × Bool) :=
  [(w.a, true)] ++ (if w.md.getLsbD 0 then [(w.b, false)] else []) ++
    (match data with | some wd => [(w.c, wd)] | none => []) ++ (match dst with | some wd => [(w.dst, wd)] | none => [])

/-- The base of each lane (R141). -/
def lanesBase (e : LaneEnv) (w : LaneWord) (g : Group) : Except Stop (List Nat) := do
  let (lo, _) ← read32 e w.imm w.a g
  let (hi, _) ← read32 e w.imm (w.a + 1) g
  .ok (lo.zipWith (fun a b => a.toNat + 2 ^ 32 * b.toNat) hi)

/-- The index of each lane, as 32 bits (R141). -/
def lanesIndex (e : LaneEnv) (w : LaneWord) (g : Group) : Except Stop (List Nat) :=
  if w.md.getLsbD 0 then do
    let (x, _) ← read32 e w.imm w.b g
    .ok (x.map (·.toNat))
  else .ok (List.replicate 32 0)

/-- The nibble position of a lane's element (R141). -/
def nibbleAt (w : LaneWord) (nw base idx : Nat) : Nat :=
  let i : Int := if w.md.getLsbD 0 then (if w.md.getLsbD 1 then sextInt idx 32 else idx) else 0
  wrapNat 65 (2 * (base + w.imm.toInt) + i * (if w.md.getLsbD 2 then nw else 2))

/-- A lane's access: its address, its nibble and its place. -/
structure LaneRef where
  lane : Nat
  va : Word64
  odd : Bool
  place : Place
deriving DecidableEq, Repr, Inhabited

/-- The access of one lane, its place found by `find` (R141). -/
def laneRef (s : State) (c : Ctx) (w : LaneWord) (find : Option Nat → Word64 → Except Stop Place) (base idx : Nat) (l : Nat) : Except Stop LaneRef := do
  let t := w.ty.toNat
  let at_ (elem : Option Nat) (np : Nat) : Except Stop LaneRef := do
    let va := BitVec.ofNat 64 (np / 2)
    let p ← find elem va
    .ok ⟨l, va, np % 2 == 1, p⟩
  if t = 13 then
    let b0 : Word64 := BitVec.ofInt 64 (base + w.imm.toInt)
    let nw := pageNibbles s c b0
    let r ← at_ nw (nibbleAt w (nw.getD 2) base idx)
    raiseIf nw.isNone .protection 9 b0
    .ok r
  else at_ none (nibbleAt w (if 16 ≤ t then narrowNibbles (slotOf c.slots (t - 16)) else 2 * tyBytes t) base idx)

/-- The accesses of the active lanes in ascending order, or the trap of the lowest faulting lane with every faulting
lane (R147). -/
def gather (e : LaneEnv) (f : Nat → Except Stop LaneRef) : Except Stop (List LaneRef) :=
  let rs := ((List.range 32).filter e.on).map (fun l => (l, f l))
  let faults : List LaneFault := rs.filterMap (fun r => match r.2 with | .error (.trap t) => some ⟨r.1, t.cls, t.detail, t.addr⟩ | _ => none)
  match faults with
  | x :: _ => .error (.trap { cls := x.cls, detail := x.detail, addr := x.addr, faults := faults })
  | [] =>
    if rs.any (fun r => match r.2 with | .error _ => true | .ok _ => false) then .error .stall
    else .ok (rs.filterMap (fun r => match r.2 with | .ok x => some x | .error _ => none))

/-- The accesses of a lane memory form. -/
def laneRefs (e : LaneEnv) (w : LaneWord) (c : Ctx) (find : Option Nat → Word64 → Except Stop Place) (s : State) : Except Stop (List LaneRef) := do
  let base ← lanesBase e w (selfGroup s)
  let idx ← lanesIndex e w (selfGroup s)
  gather e (fun l => laneRef s c w find (base.getD l 0) (idx.getD l 0) l)

/-- A delivered value in a lane, a pair for 64 bits (R123). -/
def laneDests (dst : BitVec 9) (wide : Bool) (l x : Nat) : List Dest :=
  let lo : Dest := .v dst.toNat l (BitVec.ofNat 32 x)
  if wide then [lo, .v (dst.toNat + 1) l (BitVec.ofNat 32 (x / 2 ^ 32))] else [lo]

/-- The error of a lane access of type `t`: the lowest lane's address, and every lane that met one (R147, R346). -/
def laneError (s : State) (c : Ctx) (id : Nat) (dst : Option (BitVec 9 × Bool)) (t size : Nat) (rs : List LaneRef) : Option Deferred :=
  let faults : List LaneFault := rs.filterMap (fun r => (narrowBad s c t r.place size).map (fun d => ⟨r.lane, .memerr, d, r.va⟩))
  faults.head?.map (fun f =>
    { vregs := match dst with | some (d, wd) => if wd then [d.toNat, d.toNat + 1] else [d.toNat] | none => []
      split := some id, detail := f.detail, addr := f.addr, faults })

/-- Keeps an error for a later lane instruction (R147). -/
def laneDefer (err : Option Deferred) (s : State) : State :=
  match err with | some d => mapSelf (fun y => { y with deferred := y.deferred ++ [d] }) s | none => s

/-- The register value of a loaded element (R143). -/
def laneLoadValue (s : State) (c : Ctx) (t : Nat) (r : LaneRef) : Nat :=
  let bs := readOwn s c r.place (tyBytes t)
  if t = 13 ∨ 16 ≤ t then (decodeNarrow s c t r.place r.odd (bs.getD 0 0)).toNat
  else if t = 5 ∨ t = 6 then wrapNat 32 (sextInt (leNat bs) (8 * tyBytes t))
  else leNat bs

/-- Every scratch line of the accesses is full. -/
def allFull (s : State) (c : Ctx) (rs : List LaneRef) : Bool := rs.all (fun r => lineFull s c r.place.loc)

/-- Marks the scratch lines of accesses empty (R145). -/
def emptyLines (blk : Nat) (rs : List LaneRef) (s : State) : State :=
  seqAll (fun r s => match r.place.loc with
    | .scr o => mapBlock blk (fun b => { b with empty := addOnce (o / 128) b.empty }) s
    | .phys _ => s) rs s

/-- A lane load over a place finder; a `consume` one empties the lines it reads (R142, R145, R146). -/
def laneLoad (find : State → Ctx → Option Nat → Word64 → Except Stop Place) (consume : Bool) (w : LaneWord) (s : State) : Eff := do
  let t := w.ty.toNat
  let c := selfCtx s
  needSlot c t
  let e ← laneEnter w.msel (memRegs w none (some (wideTy t))) s
  let rs ← laneRefs e w c (find s c) s
  stallIf (decide (63 ≤ (self s).ld))
  stallIf (!allFull s c rs)
  if rs = [] then .ok s
  else
    let s := seqAll (fun r s => foldAt r.place.loc s) rs s
    let dests := rs.flatMap (fun r => laneDests w.dst (wideTy t) r.lane (laneLoadValue s c t r))
    let err := laneError s c e.id (some (w.dst, wideTy t)) t (tyBytes t) rs
    let s := seqAll (fun r s => fillLine s.cur r.place s) rs s
    let s := if consume then emptyLines (selfGroup s).block rs s else s
    .ok (issueLoad s.cur { dests := dests, err := err, badKeys := badKeys s c (rs.map (·.place)) (tyBytes t) } s)

/-- The place of an `LDL` element. -/
def findLoad (t : Nat) (s : State) (c : Ctx) (elem : Option Nat) (va : Word64) : Except Stop Place := place s c { ty := t, elem } va (tyBytes t)

/-- The place of an `LDT` element: the scratch window alone (R142). -/
def findTake (t : Nat) (s : State) (c : Ctx) (elem : Option Nat) (va : Word64) : Except Stop Place := do
  let sp ← decodeVa c va (tyBytes t)
  raiseIf (match sp with | .scratch _ => false | _ => true) .protection 0x10 va
  place s c { ty := t, elem } va (tyBytes t)

def bodyLdl (w : LaneWord) (s : State) : Eff := laneLoad (findLoad w.ty.toNat) false w s
def execLdl (w : LaneWord) (s : State) : Out := laneStep (bodyLdl w) s

def bodyLdt (w : LaneWord) (s : State) : Eff := laneLoad (findTake w.ty.toNat) true w s
def execLdt (w : LaneWord) (s : State) : Out := laneStep (bodyLdt w) s

/-- The code of x / scale, rounded (R51); of a finite x over 0 a free value of the format. DESIGN CHOICE: log entry 113. -/
def quotientCode (f : Fmt) (k : Rnd) (x sc : Num) : Nat :=
  match sc, x with
  | .fin _ 0 _, .fin n m e => Config.zeroQuotient [if n then 1 else 0, m, e] % 2 ^ f.width
  | .fin _ m e, _ => f.round k (x.shift (-(e + Nat.log2 m)))
  | .inf _, _ => f.round k (x.mul .zero)
  | .nan, _ => f.round k .nan

/-- The code of a value in an element under its block's present scale, with the saturation of R49 (R51). -/
def encodeNarrow (f : Fmt) (k : Rnd) (scale : Option Num) (x : Num) : Nat :=
  match scale with
  | none => f.round k x
  | some sc =>
    let y := quotientCode f k x sc
    match x, f.decode y with
    | .fin neg _ _, .nan => f.signed neg f.maxCode
    | .fin neg _ _, .inf _ => f.signed neg f.maxCode
    | _, _ => y

/-- A write of a narrow code: its own nibble for W of 4 or less (R41, R143). -/
def narrowPut (f : Fmt) (p : Place) (odd : Bool) (code : Nat) : Put :=
  if f.width ≤ 4 then ⟨p.loc, p.mat, if odd then 0xF0 else 0x0F, BitVec.ofNat 8 (if odd then code * 16 else code)⟩
  else ⟨p.loc, p.mat, 0xFF, BitVec.ofNat 8 code⟩

/-- The byte writes of a stored element (R143). -/
def elementPuts (s : State) (c : Ctx) (t : Nat) (k : Rnd) (r : LaneRef) (x : Nat) : List Put :=
  if t = 13 ∨ 16 ≤ t then
    let f := narrowFmt c t r.place
    [narrowPut f r.place r.odd (encodeNarrow f k (scaleAt s c t r.place) (fmt32.decode x))]
  else putsAt r.place.mat r.place.loc (leBytes (tyBytes t) x)

/-- Enters the stores of the lanes into the group's buffer in ascending order; a store that needs a line beyond QL
traps as a whole, with no address and no lane of its own (R144; log entry 22). -/
def laneBuffer (ag : Agent) : List (LaneRef × List Put) → QBuf → State → Except Stop QBuf
  | [], q, _ => .ok q
  | (r, ps) :: rest, q, s =>
    let q := seqAll (qbufPut true r.va) ps q
    if qlGroup s ag < qbufLines q then
      raise .quantum 1
    else laneBuffer ag rest q s

/-- Performs lane stores: into the buffer where R103 says so, else at once, those to control space after the stream's
earlier ones (R142, R144, R310). -/
def storeLanes (c : Ctx) (xs : List (LaneRef × List Put)) (s : State) : Eff := do
  let held := xs.filter (fun x => buffered s c.ag x.1.va)
  let direct := xs.filter (fun x => !buffered s c.ag x.1.va)
  let now := direct.flatMap (·.2)
  stallIf (controlDue s c.ag now)
  let q ← laneBuffer c.ag held (s.group c.ag).qbuf s
  let s := applyPuts c.block now (mapGroup c.ag (fun g => { g with qbuf := q }) s)
  let s := match coreOf c.ag with | some k => throughL1 k now s | none => s
  .ok (issueWrite c.ag { inUw := putKeys now != [], vas := direct.map (·.1.va) } now s)

/-- The error of a scale code that a store reads (R51, R302). -/
def scaleError (s : State) (c : Ctx) (id t : Nat) (rs : List LaneRef) : Option Deferred :=
  if t = 13 then laneError s c id none t 1 (rs.filterMap (fun r => (scaleSpot s c t r.place).map (fun x => { r with place := { x.1 with page := none } }))) else none

/-- `STL` (R141 to R144). -/
def bodyStl (w : LaneWord) (s : State) : Eff := do
  let t := w.ty.toNat
  let narrow := t == 13 || decide (16 ≤ t)
  let c := selfCtx s
  needSlot c t
  let e ← laneEnter w.msel (memRegs w (some (wideTy t)) none) s
  let rs ← laneRefs e w c (fun elem va => place s c { write := true, ty := t, elem } va (tyBytes t)) s
  stallIf (decide (63 ≤ (self s).st))
  let (v, g) ← readSel e c.slots (if narrow then 1 else t) w.imm w.c (selfGroup s)
  let (z, s) := draw (if narrow then w.rm.toNat else 0) (s.setGroup s.cur g)
  if rs = [] then .ok s
  else storeLanes c (rs.map (fun r => (r, elementPuts s c t ⟨w.rm.toNat, drawRv z r.lane⟩ r (v.getD r.lane 0)))) (laneDefer (scaleError s c e.id t rs) s)
def execStl (w : LaneWord) (s : State) : Out := laneStep (bodyStl w) s

/-- The offset operand of `STT` and `LDA`, a v register read in the lowest lane of m0 (R148). -/
def tileOffset (e : LaneEnv) (w : LaneWord) (g : Group) : Except Stop Nat := do
  let (x, _) ← read32 e w.imm w.a g
  .ok (x.getD (((List.range 32).find? (fun l => e.sp.mask.getLsbD l)).getD 0) 0).toNat

/-- The bounds of a tile offset (R149, R150). DEDUCED: log entry 44. -/
def tileOffsetOk (size o : Nat) : Except Stop Unit := do
  raiseIf (o % 128 != 0) .bound 4
  raiseIf (decide (size < o + 128)) .bound 3

/-- `STT` with and without `.wait`; the count of one with no active lane completes at once (R146, R149). -/
def sttBody (wait : Bool) (w : LaneWord) (s : State) : Eff := do
  let e ← laneEnter w.msel [(w.a, false), (w.c, false)] s
  let blk := (selfGroup s).block
  let b := s.block blk
  let o ← tileOffset e w (selfGroup s)
  tileOffsetOk (spuBytes b.partw) o
  stallIf (decide (63 ≤ (self s).st))
  stallIf (wait && !b.empty.contains (o / 128))
  let (x, g) ← read32 e w.imm w.c (selfGroup s)
  let bytes := (List.range 32).flatMap (fun l => leBytes 4 (if e.on l then (x.getD l 0).toNat else 0))
  let s := applyPuts (some blk) (putsAt default (.scr o) bytes) (s.setGroup s.cur g)
  let s := mapBlock blk (fun b => { b with empty := b.empty.filter (· != o / 128) }) s
  .ok (if e.act = 0 then s else issueWrite s.cur { inUw := false } [] s)

def bodyStt (w : LaneWord) (s : State) : Eff := sttBody false w s
def execStt (w : LaneWord) (s : State) : Out := laneStep (bodyStt w) s

def bodySttWait (w : LaneWord) (s : State) : Eff := sttBody true w s
def execSttWait (w : LaneWord) (s : State) : Out := laneStep (bodySttWait w) s

/-- The lowest word of an accumulator line with an uncorrectable error (R302). -/
def badAcc (s : State) (blk o n : Nat) : Option Nat :=
  (List.range ((n + 7) / 8)).find? (fun i => s.bad.contains (.acc blk (o / 8 + i)))

/-- `LDA` (R150): an accumulator error is raised here (R302); the count of one with no active lane completes at once (R146). -/
def bodyLda (w : LaneWord) (s : State) : Eff := do
  let e ← laneEnter w.msel [(w.a, false), (w.dst, false)] s
  let blk := (selfGroup s).block
  let b := s.block blk
  let o ← tileOffset e w (selfGroup s)
  tileOffsetOk (acuBytes b.partw) o
  match badAcc s blk o 128 with
  | some i => raise .memerr 3 (0xC000000000000000 + BitVec.ofNat 64 (o + 8 * i))
  | none => do
    stallIf (decide (63 ≤ (self s).ld))
    let dests := ((List.range 32).filter e.on).flatMap (fun l => laneDests w.dst false l (leNat (b.acc.readN (o + 4 * l) 4)))
    .ok (if e.act = 0 then s else issueLoad s.cur { dests := dests } s)
def execLda (w : LaneWord) (s : State) : Out := laneStep (bodyLda w) s

/-- Runs read-modify-writes of the lanes in ascending order: what each found, and the state (R156). -/
def rmwLanes (c : Ctx) (size : Nat) (f : Nat → Nat → Nat) : List LaneRef → State → List (Nat × Nat) × State
  | [], s => ([], s)
  | r :: rest, s =>
    let (old, s) := rmw c r.place size (f r.lane) s
    let (more, s) := rmwLanes c size f rest s
    ((r.lane, old) :: more, s)

/-- Notes the errors that lane read-modify-writes meet (R147, R302, R379). -/
def noteLanes (c : Ctx) (id : Nat) (dst : Option (BitVec 9 × Bool)) (size : Nat) (rs : List LaneRef) (s : State) : State :=
  noteBad (badKeys s c (rs.map (·.place)) size) (laneDefer (laneError s c id dst 9 size rs) s)

/-- The bytes that lane read-modify-writes have written. -/
def lanePuts (size : Nat) (rs : List LaneRef) : List Put := rs.flatMap (fun r => placePuts r.place size)

/-- Delivers what lane atomics found (R146, R156). -/
def deliverOlds (c : Ctx) (w : LaneWord) (t size : Nat) (rs : List LaneRef) (olds : List (Nat × Nat)) (s : State) : State :=
  issueWrite c.ag { dests := olds.flatMap (fun x => laneDests w.dst (wideTy t) x.1 x.2), vas := rs.map (·.va) } (lanePuts size rs) s

/-- Lane `ATOM` (R156). -/
def bodyAtomLane (op : BitVec 3) (w : LaneWord) (s : State) : Eff := do
  let t := w.ty.toNat
  let n := tyBytes t
  let e ← laneEnter w.msel (memRegs w (some (wideTy t)) (some (wideTy t))) s
  let c := selfCtx s
  let rs ← laneRefs e w c (fun _ va => atomPlace s c t va n) s
  stallIf (decide (63 ≤ (self s).st))
  stallIf (!allFull s c rs)
  let (cmp, _) ← readSel e c.slots t w.imm w.dst (selfGroup s)
  let (x, g) ← readSel e c.slots t w.imm w.c (selfGroup s)
  let s := s.setGroup s.cur g
  if rs = [] then .ok s
  else
    let (olds, s) := rmwLanes c n (fun l old => atomNew (atomOp op.toNat) t old (x.getD l 0) (cmp.getD l 0)) rs (noteLanes c e.id (some (w.dst, wideTy t)) n rs s)
    .ok (deliverOlds c w t n rs olds s)
def execAtomLane (op : BitVec 3) (w : LaneWord) (s : State) : Out := laneStep (bodyAtomLane op w) s

/-- Lane `RED` (R157, R158). -/
def bodyRedLane (op : BitVec 3) (w : LaneWord) (s : State) : Eff := do
  let t := w.ty.toNat
  let o := redOp op.toNat
  let tc := if redShadowed o t then 1 else t
  let c := selfCtx s
  redSlot c o t
  let e ← laneEnter w.msel (memRegs w (some (wideTy tc)) none) s
  let rs ← laneRefs e w c (fun elem va => redPlace s c o t va elem) s
  stallIf (decide (63 ≤ (self s).st))
  stallIf (!allFull s c rs)
  let (x, g) ← readSel e c.slots tc w.imm w.c (selfGroup s)
  let s := s.setGroup s.cur g
  if rs = [] then .ok s
  else
    let s := seqAll (fun r s => reduceAt c o t (x.getD r.lane 0) r.place s) rs (noteLanes c e.id none (redSize t) rs s)
    .ok (issueWrite c.ag { vas := rs.map (·.va) } (lanePuts (redSize t) rs) s)
def execRedLane (op : BitVec 3) (w : LaneWord) (s : State) : Out := laneStep (bodyRedLane op w) s

/-- Lane `AMAXRD` (R160). -/
def bodyAmaxrdLane (w : LaneWord) (s : State) : Eff := do
  let e ← laneEnter w.msel (memRegs w none (some false)) s
  let c := selfCtx s
  let rs ← laneRefs e w c (fun _ va => atomPlace s c 1 va 4) s
  stallIf (decide (63 ≤ (self s).st))
  stallIf (!allFull s c rs)
  if rs = [] then .ok s
  else
    let (olds, s) := rmwLanes c 4 (fun _ _ => 0) rs (noteLanes c e.id (some (w.dst, false)) 4 rs s)
    .ok (deliverOlds c w 1 4 rs olds s)
def execAmaxrdLane (w : LaneWord) (s : State) : Out := laneStep (bodyAmaxrdLane w) s

/-- The snapshot of a lane form's handle operand (R228, R242). -/
def laneHandle (e : LaneEnv) (w : LaneWord) (g : Group) : Except Stop Nat := do
  let (x, _) ← read32 e w.imm w.b g
  .ok (x.getD 0 0).toNat

/-- `SEGL` (R228). -/
def bodySegl (w : LaneWord) (s : State) : Eff := do
  let e ← laneEnter w.msel [(w.a, false), (w.dst, false)] s
  let h ← laneHandle e w (selfGroup s)
  let (r, s) ← snapshot (selfCtx s) h s
  let (x, g) ← read32 e w.imm w.a (selfGroup s)
  .ok (s.setGroup s.cur (writeV e.act w.dst.toNat (x.map (fun i => wrapNat 32 (segOf r i.toNat))) g))
def execSegl (w : LaneWord) (s : State) : Out := laneStep (bodySegl w) s

/-- `SEGB` (R228). -/
def bodySegb (w : LaneWord) (s : State) : Eff := do
  let e ← laneEnter w.msel [(w.a, false), (w.dst, false)] s
  let h ← laneHandle e w (selfGroup s)
  let (r, s) ← snapshot (selfCtx s) h s
  let (x, g) ← read32 e w.imm w.a (selfGroup s)
  let faults : List LaneFault := (((List.range 32).filter e.on).filter (fun l => decide (r.nseg < (x.getD l 0).toNat))).map (fun l => ⟨l, .ragged, 4, 0⟩)
  if faults ≠ [] then .error (.trap { cls := .ragged, detail := 4, faults := faults })
  else .ok (s.setGroup s.cur (writeV e.act w.dst.toNat (x.map (fun i => r.bounds.getD i.toNat 0)) g))
def execSegb (w : LaneWord) (s : State) : Out := laneStep (bodySegb w) s

end Sys2Proof.Machine
end

