-- ==== Sys2Proof/Machine/HashGrid.lean ====
section
/-! DEFINITION. Hashed-grid regions: descriptors, corners, `HGLD`, `HGSC`, `HGIX` (R232 to R250). -/

namespace Sys2Proof.Machine

/-- The bytes of a feature (R234). -/
def featBytes (ftype : Nat) : Nat := if ftype = 1 then 4 else 2

/-- Fields of a hashed-grid descriptor within the table of R233, BASE's space apart. -/
def gridOk (bs : List Byte) : Bool :=
  let base := numAt bs 0 8
  let l := numAt bs 8 1
  let e := featBytes (numAt bs 0xC 1)
  base % 128 == 0 && decide (1 ≤ l ∧ l ≤ 16) && decide (1 ≤ numAt bs 9 1 ∧ numAt bs 9 1 ≤ 16) &&
    decide (4 ≤ numAt bs 0xA 1 ∧ numAt bs 0xA 1 ≤ 24) && [1, 2, 4, 8].contains (numAt bs 0xB 1) && [1, 3, 4].contains (numAt bs 0xC 1) &&
    decide (numAt bs 0xD 1 ≤ 1) && decide (numAt bs 0xE 1 ≤ 1) && numAt bs 0xF 49 == 0 &&
    (List.range 16).all (fun i =>
      if i < l then numAt bs (0x40 + 4 * i) 4 != 0 && (numAt bs 0xE 1 == 1 || numAt bs (0x80 + 4 * i) 4 == 0)
      else numAt bs (0x40 + 4 * i) 4 == 0 && numAt bs (0x80 + 4 * i) 4 == 0) &&
    decide (base % 2 ^ 53 + l * 2 ^ numAt bs 0xA 1 * numAt bs 0xB 1 * e ≤ 2 ^ 53)

/-- A descriptor by its bytes (R233). -/
def gridOf (bs : List Byte) : Grid where
  base := BitVec.ofNat 64 (numAt bs 0 8)
  levels := numAt bs 8 1
  dims := numAt bs 9 1
  log2t := numAt bs 0xA 1
  fwid := numAt bs 0xB 1
  ftype := numAt bs 0xC 1
  wrap := numAt bs 0xD 1 == 1
  salted := numAt bs 0xE 1 == 1
  res := (List.range 16).map (fun i => numAt bs (0x40 + 4 * i) 4)
  salt := (List.range 16).map (fun i => numAt bs (0x80 + 4 * i) 4)

/-- Takes a snapshot of a hashed-grid descriptor (R232, R234). -/
def gridSnapshot (c : Ctx) (h : Nat) (s : State) : Except Stop (Grid × State) := do
  raiseIf (h == 0) .hgrid 1
  let va : Word64 := BitVec.ofNat 64 (h * 64)
  let r ← fetchStack s c h 3 va 192
  raiseIf (match spaceOf (BitVec.ofNat 64 (numAt r.bytes 0 8)) with | some (.tensor _ p _) => p != c.pkg | _ => true) .hgrid 3
  raiseIf (!gridOk r.bytes) .hgrid 2
  .ok (gridOf r.bytes, foldKeys r.keys s)

/-- `ent_addr` of feature 0 (R235). -/
def entAddr (g : Grid) (lvl k : Nat) : Nat := g.base.toNat + (lvl * 2 ^ g.log2t + k) * g.fwid * featBytes g.ftype

/-- The multipliers PI (R240). -/
def gridPi : List Nat :=
  [0x3A5C9D1B, 0xB74E2F05, 0x6D91C3A7, 0xE2F47B59, 0x1C8B65E3, 0xA5D30E8F, 0x4F27B9C1, 0xC96A1D75,
   0x7B05E8A3, 0xD3C14A6F, 0x58EE9237, 0x8A17F54D, 0x2E69C0B5, 0xF1B83E29, 0x63D4A7F1, 0x95A21C0B]

/-- `index(k, lvl)` (R239). -/
def gridIndex (g : Grid) (lvl : Nat) (k : List Nat) : Nat :=
  let n := g.res.getD lvl 0
  if (n + 1) ^ g.dims ≤ 2 ^ g.log2t then k.foldl (fun t x => t * (n + 1) + x) 0
  else
    let hv := (k.zip gridPi).foldl (fun t x => t ^^^ (x.1 * x.2 % 2 ^ 32)) 0
    (if g.salted then hv ^^^ g.salt.getD lvl 0 else hv) % 2 ^ g.log2t

/-- The floor of a finite number. -/
def numFloor : Num → Int
  | .fin n m e => Num.toIntRnd ⟨3, 0⟩ n m e
  | _ => 0

/-- An FP32 rounding. -/
def r32 (x : Num) : Num := fmt32.rnd rneMode x

/-- One dimension of a point in a level: the lower coordinate, the upper and lower weights (R237); none when invalid. -/
def gridAxis (wrap : Bool) (n : Nat) (x : Num) : Option (Nat × Num × Num) :=
  if x.isNan || (wrap && x.isInf) then none
  else
    let one : Num := .fin false 1 0
    let y := if wrap then Num.add false x (.ofInt (-(numFloor x)))
      else if x.lt .zero || x.isZero then .zero else if one.lt x then one else x
    let u := y.mul (.ofInt n)
    let c := if wrap then (numFloor u).toNat else min (numFloor u).toNat (n - 1)
    let wf := r32 (Num.add false u (.ofInt (-(c : Int))))
    some (c, wf, r32 (Num.add false one wf.neg))

/-- The axes of a point in a level. -/
def gridAxes (g : Grid) (lvl : Nat) (xs : List Num) : Option (List (Nat × Num × Num)) :=
  xs.foldr (fun x r => match gridAxis g.wrap (g.res.getD lvl 0) x, r with | some a, some r => some (a :: r) | _, _ => none) (some [])

/-- A corner: its entry address and its weight (R238). -/
structure Corner where
  addr : Nat
  om : Num
deriving DecidableEq, Repr, Inhabited

/-- Corner `q` of a point in a level (R238, R239). -/
def gridCorner (g : Grid) (lvl : Nat) (ax : List (Nat × Num × Num)) (q : Nat) : Corner :=
  let n := g.res.getD lvl 0
  let up (i : Nat) : Bool := q / 2 ^ i % 2 == 1
  let ks := ((List.range ax.length).zip ax).map (fun x =>
    let k := if up x.1 then x.2.1 + 1 else x.2.1
    if g.wrap ∧ k = n then 0 else k)
  let om := ((List.range ax.length).zip ax).foldl (fun t x => r32 (t.mul (if up x.1 then x.2.2.1 else x.2.2.2))) (.fin false 1 0)
  ⟨entAddr g lvl (gridIndex g lvl ks), om⟩

/-- The corners of a lane's point, by level; none for an invalid point. -/
def gridPoint (g : Grid) (xs : List Num) : Option (List (List Corner)) :=
  (List.range g.levels).foldr (fun lvl r => match gridAxes g lvl xs, r with
    | some ax, some r => some ((List.range (2 ^ g.dims)).map (gridCorner g lvl ax) :: r)
    | _, _ => none) (some [])

/-- The place of a corner's entry: the checks of R244, then R236. -/
def findCorner (s : State) (c : Ctx) (g : Grid) (write : Bool) (a : Nat) : Except Stop Place := do
  let va : Word64 := BitVec.ofNat 64 a
  let p ← place s c { write, ty := g.ftype } va (g.fwid * featBytes g.ftype)
  raiseIf (match p.page with | some pg => leafClass pg.leaf != 3 | none => true) .hgrid 4 va
  .ok p

/-- A lane's point with the places of its corners, in level and corner order. -/
structure GridLane where
  lane : Nat
  point : Option (List (List (Corner × Place)))
deriving DecidableEq, Repr, Inhabited

/-- Finds the places of every corner, or the first trap. -/
def findCorners (s : State) (c : Ctx) (g : Grid) (write : Bool) : List Corner → Except Stop (List (Corner × Place))
  | [] => .ok []
  | x :: r => do
    let p ← findCorner s c g write x.addr
    let rest ← findCorners s c g write r
    .ok ((x, p) :: rest)

def findLevels (s : State) (c : Ctx) (g : Grid) (write : Bool) : List (List Corner) → Except Stop (List (List (Corner × Place)))
  | [] => .ok []
  | x :: r => do
    let p ← findCorners s c g write x
    let rest ← findLevels s c g write r
    .ok (p :: rest)

/-- The points of the active lanes, or the trap of the lowest faulting one with every faulting lane (R147, R244). -/
def gridLanes (s : State) (c : Ctx) (e : LaneEnv) (w : LaneWord) (g : Grid) (write : Bool) : Except Stop (List GridLane) :=
  let gr := selfGroup s
  let one (l : Nat) : Except Stop GridLane :=
    match gridPoint g ((List.range g.dims).map (fun i => fmt32.decode (Vec.get (Vec.get gr.v (w.a.toNat + i)) l).toNat)) with
    | none => .ok ⟨l, none⟩
    | some ls => do
      let ps ← findLevels s c g write ls
      .ok ⟨l, some ps⟩
  let rs := ((List.range 32).filter e.on).map (fun l => (l, one l))
  let faults : List LaneFault := rs.filterMap (fun r => match r.2 with | .error (.trap t) => some ⟨r.1, t.cls, t.detail, t.addr⟩ | _ => none)
  match faults with
  | x :: _ => .error (.trap { cls := x.cls, detail := x.detail, addr := x.addr, faults := faults })
  | [] =>
    if rs.any (fun r => match r.2 with | .error _ => true | .ok _ => false) then .error .stall
    else .ok (rs.filterMap (fun r => match r.2 with | .ok x => some x | .error _ => none))

/-- The registers of ranges, each a first register and a length. -/
def rangeRegs (rs : List (Nat × Nat)) : List Nat := rs.flatMap (fun r => (List.range r.2).map (r.1 + ·))

/-- The register ranges of R242: their bounds, the wait for registers still awaited, the errors of the registers; `srcs` are
those it reads (R122, R147, R302). -/
def gridRanges (s : State) (e : LaneEnv) (rs srcs : List (Nat × Nat)) : Except Stop Unit := do
  raiseIf (rs.any (fun r => decide (min 256 (selfVn s) < r.1 + r.2))) .bound 2
  stallIf ((rangeRegs rs).any (fun r => (selfGroup s).vawait.contains r))
  match registerErrors s e.ag (rangeRegs rs) (rangeRegs srcs) ((List.range 32).filter e.on) with
  | some t => .error (.trap t)
  | none => .ok ()

/-- The accesses of the entries that are read: those of every corner of every lane that is not silent (R243). -/
def readCorners (ls : List GridLane) : List LaneRef :=
  ls.flatMap (fun g => ((g.point.getD []).flatten.filter (fun x => !x.1.om.isZero)).map (fun x => ⟨g.lane, BitVec.ofNat 64 x.1.addr, false, x.2⟩))

/-- The interpolated value of a feature in a level (R243). -/
def gridFeature (s : State) (c : Ctx) (g : Grid) (cs : List (Corner × Place)) (f : Nat) : Nat :=
  let e := featBytes g.ftype
  fmt32.round rneMode (cs.foldl (fun acc x =>
    if x.1.om.isZero then acc
    else
      let phi := (stdFmt g.ftype).decode (leNat (readOwn s c { x.2 with loc := locAdd x.2.loc (f * e) } e))
      r32 (Num.add false acc (x.1.om.mul phi))) .zero)

/-- `HGLD` (R243, R244). -/
def bodyHgld (w : LaneWord) (s : State) : Eff := do
  let e ← laneEnter w.msel [(w.a, false), (w.dst, false)] s
  let c := selfCtx s
  let h ← laneHandle e w (selfGroup s)
  let (g, s) ← gridSnapshot c h s
  gridRanges s e [(w.a.toNat, g.dims), (w.dst.toNat, g.levels * g.fwid)] [(w.a.toNat, g.dims)]
  let ls ← gridLanes s c e w g false
  stallIf (decide (63 ≤ (self s).ld))
  if ls = [] then .ok s
  else
    let rs := readCorners ls
    let s := seqAll (fun r s => foldAt r.place.loc s) rs s
    let value (gl : GridLane) (i : Nat) : Nat :=
      match gl.point with
      | none => fmt32.nanCode
      | some lv => gridFeature s c g (lv.getD (i / g.fwid) []) (i % g.fwid)
    let regs := (List.range (g.levels * g.fwid)).map (w.dst.toNat + ·)
    let dests := ls.flatMap (fun gl => ((List.range regs.length).zip regs).map (fun i => Dest.v i.2 gl.lane (BitVec.ofNat 32 (value gl i.1))))
    let n := g.fwid * featBytes g.ftype
    let err := (laneError s c e.id none 9 n rs).map (fun d => { d with vregs := regs })
    .ok (issueLoad s.cur { dests := dests, err := err, badKeys := badKeys s c (rs.map (·.place)) n } (seqAll (fun r s => fillLine s.cur r.place s) rs s))
def execHgld (w : LaneWord) (s : State) : Out := laneStep (bodyHgld w) s

/-- One contribution of `HGSC`. -/
structure Contribution where
  lane : Nat
  va : Word64
  place : Place
  delta : Word32
deriving DecidableEq, Repr, Inhabited

/-- The contributions in the order of R245. -/
def gridContributions (g : Grid) (grad : Nat → Nat → Num) (ls : List GridLane) : List Contribution :=
  let e := featBytes g.ftype
  ls.flatMap (fun gl => ((List.range g.levels).zip (gl.point.getD [])).flatMap (fun lv => lv.2.flatMap (fun x =>
    if x.1.om.isZero then []
    else (List.range g.fwid).map (fun f =>
      { lane := gl.lane, va := BitVec.ofNat 64 (x.1.addr + f * e), place := { x.2 with loc := locAdd x.2.loc (f * e) }
        delta := BitVec.ofNat 32 (fmt32.round rneMode (x.1.om.mul (grad (lv.1 * g.fwid + f) gl.lane))) }))))

/-- Collects a partial: an element is an address and a feature type (R246). DESIGN CHOICE: log entry 114. -/
def addPartial (ftype : Nat) (va : Word64) (key : Nat) (mat : Under) (d : Word32) (q : QBuf) : QBuf :=
  match q.partials.find? (fun p => p.key == key && p.ftype == ftype) with
  | none => { q with partials := q.partials ++ [⟨va, key, mat, ftype, d⟩] }
  | some _ => { q with partials := q.partials.map (fun p => if p.key = key ∧ p.ftype = ftype then
      { p with val := BitVec.ofNat 32 (fmt32.round rneMode (Num.add false (fmt32.decode p.val.toNat) (fmt32.decode d.toNat))) } else p) }

/-- Collects contributions in the group's buffer, or traps QUANTUM (R246). -/
def collect (ag : Agent) (ftype : Nat) : List Contribution → QBuf → State → Except Stop QBuf
  | [], q, _ => .ok q
  | x :: r, q, s =>
    let q := match x.place.loc with | .phys k => addPartial ftype x.va k x.place.mat x.delta q | .scr _ => q
    if qlGroup s ag < qbufLines q then
      raise .quantum 2
    else collect ag ftype r q s

/-- `HGSC` (R245 to R247). -/
def bodyHgsc (w : LaneWord) (s : State) : Eff := do
  let e ← laneEnter w.msel [(w.a, false), (w.c, false)] s
  let c := selfCtx s
  let h ← laneHandle e w (selfGroup s)
  let (g, s) ← gridSnapshot c h s
  let rs := [(w.a.toNat, g.dims), (w.c.toNat, g.levels * g.fwid)]
  gridRanges s e rs rs
  let ls ← gridLanes s c e w g true
  stallIf (decide (63 ≤ (self s).st))
  let gr := selfGroup s
  let xs := gridContributions g (fun i l => fmt32.decode (Vec.get (Vec.get gr.v (w.c.toNat + i)) l).toNat) ls
  if ls = [] then .ok s
  else if ordered s c.ag then do
    let q ← collect c.ag g.ftype xs gr.qbuf s
    .ok (issueWrite c.ag { inUw := false } [] (mapSelfGroup (fun y => { y with qbuf := q }) s))
  else
    let core := (coreOf c.ag).getD (0, 0)
    let s := noteLanes c e.id none (featBytes g.ftype) (xs.map (fun x => ⟨x.lane, x.va, false, x.place⟩)) s
    .ok (issueWrite c.ag { vas := (xs.map (·.va)).eraseDups } [] (seqAll (fun x s => match x.place.loc with
      | .phys k => contribute core k x.place.mat g.ftype x.delta s
      | .scr _ => s) xs s))
def execHgsc (w : LaneWord) (s : State) : Out := laneStep (bodyHgsc w) s

/-- The coordinates of `HGIX` in a level; one beyond the resolution traps with the address of the coordinates (R249).
DEDUCED: log entry 22. -/
def hgixCoords (g : Grid) (lvl : Nat) (va : Word64) (ks : List Nat) : Except Stop (List Nat) :=
  let n := g.res.getD lvl 0
  if g.wrap then .ok (ks.map (· % n))
  else if ks.any (fun k => decide (n < k)) then raise .hgrid 5 va
  else .ok ks

/-- `HGIX` (R249). -/
def execHgix (w : LongWord) (s : State) : Out :=
  finish s (do
    let c := selfCtx s
    let h := reg s w.a
    let va := reg s w.c
    raiseIf (decide (2 ^ 32 ≤ h.toNat)) .hgrid 1
    stallIf (decide (63 ≤ (self s).ld))
    let (g, s) ← gridSnapshot c h.toNat s
    let lvl := (reg s w.b).toNat
    raiseIf (decide (g.levels ≤ lvl)) .hgrid 5
    raiseIf (va.toNat % 64 != 0) .hgrid 6 va
    let p ← place s c {} va (4 * g.dims)
    stallIf (!lineFull s c p.loc)
    let s := foldAt p.loc s
    let bs := readOwn s c p (4 * g.dims)
    let ks ← hgixCoords g lvl va ((List.range g.dims).map (fun i => numAt bs (4 * i) 4))
    let i := gridIndex g lvl ks
    let dd : Dest := .s w.d (BitVec.ofNat 64 (entAddr g lvl i))
    let err : Option Deferred := (badAt s c p.loc (4 * g.dims)).map (fun n => { sregs := [w.d.toNat, w.e.toNat], detail := n, addr := va })
    .ok (advance 8 (issueLoad s.cur { dests := if w.d = w.e then [dd] else [.s w.e (BitVec.ofNat 64 i), dd], err := err, badKeys := badKeys s c [p] (4 * g.dims) } s)))

end Sys2Proof.Machine
end

