-- ==== Sys2Proof/Machine/Repeat.lean ====
section
/-! DEFINITION. The prefixes `REP` (R70, R139) and `EXT` (R60). -/

namespace Sys2Proof.Machine

/-- A lane form that `REP` accepts: its word, its effect, and for each operand field that may name a lane register,
whether it names a pair (R13, R139). -/
structure LaneForm where
  word : LaneWord
  body : LaneWord → State → Eff
  d : Option Bool
  a : Option Bool
  b : Option Bool
  c : Option Bool

/-- The form of a lane instruction; lane control forms and `REP` have none (R134, R139). -/
def laneForm : Instr → Option LaneForm
  | .fadd w => some ⟨w, bodyFadd, some (tyIs64 w.ty), some (tyIs64 w.ty), some (tyIs64 w.ty), none⟩
  | .fsub w => some ⟨w, bodyFsub, some (tyIs64 w.ty), some (tyIs64 w.ty), some (tyIs64 w.ty), none⟩
  | .fmul w => some ⟨w, bodyFmul, some (tyIs64 w.ty), some (tyIs64 w.ty), some (tyIs64 w.ty), none⟩
  | .fmin w => some ⟨w, bodyFmin, some (tyIs64 w.ty), some (tyIs64 w.ty), some (tyIs64 w.ty), none⟩
  | .fmax w => some ⟨w, bodyFmax, some (tyIs64 w.ty), some (tyIs64 w.ty), some (tyIs64 w.ty), none⟩
  | .fminn w => some ⟨w, bodyFminn, some (tyIs64 w.ty), some (tyIs64 w.ty), some (tyIs64 w.ty), none⟩
  | .fmaxn w => some ⟨w, bodyFmaxn, some (tyIs64 w.ty), some (tyIs64 w.ty), some (tyIs64 w.ty), none⟩
  | .iadd w => some ⟨w, bodyIadd, some (tyIs64 w.ty), some (tyIs64 w.ty), some (tyIs64 w.ty), none⟩
  | .isub w => some ⟨w, bodyIsub, some (tyIs64 w.ty), some (tyIs64 w.ty), some (tyIs64 w.ty), none⟩
  | .imul w => some ⟨w, bodyImul, some (tyIs64 w.ty), some (tyIs64 w.ty), some (tyIs64 w.ty), none⟩
  | .imulh w => some ⟨w, bodyImulh, some (tyIs64 w.ty), some (tyIs64 w.ty), some (tyIs64 w.ty), none⟩
  | .iadds w => some ⟨w, bodyIadds, some (tyIs64 w.ty), some (tyIs64 w.ty), some (tyIs64 w.ty), none⟩
  | .isubs w => some ⟨w, bodyIsubs, some (tyIs64 w.ty), some (tyIs64 w.ty), some (tyIs64 w.ty), none⟩
  | .imin w => some ⟨w, bodyImin, some (tyIs64 w.ty), some (tyIs64 w.ty), some (tyIs64 w.ty), none⟩
  | .imax w => some ⟨w, bodyImax, some (tyIs64 w.ty), some (tyIs64 w.ty), some (tyIs64 w.ty), none⟩
  | .iand w => some ⟨w, bodyIand, some (tyIs64 w.ty), some (tyIs64 w.ty), some (tyIs64 w.ty), none⟩
  | .ior w => some ⟨w, bodyIor, some (tyIs64 w.ty), some (tyIs64 w.ty), some (tyIs64 w.ty), none⟩
  | .ixor w => some ⟨w, bodyIxor, some (tyIs64 w.ty), some (tyIs64 w.ty), some (tyIs64 w.ty), none⟩
  | .iandn w => some ⟨w, bodyIandn, some (tyIs64 w.ty), some (tyIs64 w.ty), some (tyIs64 w.ty), none⟩
  | .ishl w => some ⟨w, bodyIshl, some (tyIs64 w.ty), some (tyIs64 w.ty), some (tyIs64 w.ty), none⟩
  | .ishr w => some ⟨w, bodyIshr, some (tyIs64 w.ty), some (tyIs64 w.ty), some (tyIs64 w.ty), none⟩
  | .iror w => some ⟨w, bodyIror, some (tyIs64 w.ty), some (tyIs64 w.ty), some (tyIs64 w.ty), none⟩
  | .sel w => some ⟨w, bodySel, some (tyIs64 w.ty), some (tyIs64 w.ty), some (tyIs64 w.ty), none⟩
  | .ffma w => some ⟨w, bodyFfma, some (tyIs64 w.ty), some (tyIs64 w.ty), some (tyIs64 w.ty), some (tyIs64 w.ty)⟩
  | .ffms w => some ⟨w, bodyFfms, some (tyIs64 w.ty), some (tyIs64 w.ty), some (tyIs64 w.ty), some (tyIs64 w.ty)⟩
  | .fnma w => some ⟨w, bodyFnma, some (tyIs64 w.ty), some (tyIs64 w.ty), some (tyIs64 w.ty), some (tyIs64 w.ty)⟩
  | .fnms w => some ⟨w, bodyFnms, some (tyIs64 w.ty), some (tyIs64 w.ty), some (tyIs64 w.ty), some (tyIs64 w.ty)⟩
  | .imad w => some ⟨w, bodyImad, some (tyIs64 w.ty), some (tyIs64 w.ty), some (tyIs64 w.ty), some (tyIs64 w.ty)⟩
  | .fabs w => some ⟨w, bodyFabs, some (tyIs64 w.ty), some (tyIs64 w.ty), none, none⟩
  | .fneg w => some ⟨w, bodyFneg, some (tyIs64 w.ty), some (tyIs64 w.ty), none, none⟩
  | .frint w => some ⟨w, bodyFrint, some (tyIs64 w.ty), some (tyIs64 w.ty), none, none⟩
  | .frcp w => some ⟨w, bodyFrcp, some (tyIs64 w.ty), some (tyIs64 w.ty), none, none⟩
  | .frsq w => some ⟨w, bodyFrsq, some (tyIs64 w.ty), some (tyIs64 w.ty), none, none⟩
  | .fexp2 w => some ⟨w, bodyFexp2, some (tyIs64 w.ty), some (tyIs64 w.ty), none, none⟩
  | .flog2 w => some ⟨w, bodyFlog2, some (tyIs64 w.ty), some (tyIs64 w.ty), none, none⟩
  | .ipopc w => some ⟨w, bodyIpopc, some (tyIs64 w.ty), some (tyIs64 w.ty), none, none⟩
  | .iclz w => some ⟨w, bodyIclz, some (tyIs64 w.ty), some (tyIs64 w.ty), none, none⟩
  | .mov w => some ⟨w, bodyMov, some (tyIs64 w.ty), some (tyIs64 w.ty), none, none⟩
  | .bcst w => some ⟨w, bodyBcst, some (tyIs64 w.ty), some (tyIs64 w.ty), none, none⟩
  | .fcmp w => some ⟨w, bodyFcmp, none, some (tyIs64 w.ty), some (tyIs64 w.ty), none⟩
  | .icmp w => some ⟨w, bodyIcmp, none, some (tyIs64 w.ty), some (tyIs64 w.ty), none⟩
  | .cvt w => some ⟨w, bodyCvt, some (tyIs64 w.ty), some (tyIs64 (w.imm.extractLsb' 0 5)), none, none⟩
  | .pkn w => some ⟨w, bodyPkn, some false, some false, some false, none⟩
  | .pkb w => some ⟨w, bodyPkb, some false, some false, some false, none⟩
  | .pkh w => some ⟨w, bodyPkh, some false, some false, some false, none⟩
  | .upn w => some ⟨w, bodyUpn, some false, some false, none, none⟩
  | .upb w => some ⟨w, bodyUpb, some false, some false, none, none⟩
  | .uph w => some ⟨w, bodyUph, some false, some false, none, none⟩
  | .vany w => some ⟨w, bodyVany, some false, some false, none, none⟩
  | .vall w => some ⟨w, bodyVall, some false, some false, none, none⟩
  | .vbal w => some ⟨w, bodyVbal, some false, some false, none, none⟩
  | .shflIdx w => some ⟨w, bodyShflIdx, some (tyIs64 w.ty), some (tyIs64 w.ty), some false, none⟩
  | .shflUp w => some ⟨w, bodyShflUp, some (tyIs64 w.ty), some (tyIs64 w.ty), some false, none⟩
  | .shflDn w => some ⟨w, bodyShflDn, some (tyIs64 w.ty), some (tyIs64 w.ty), some false, none⟩
  | .shflXor w => some ⟨w, bodyShflXor, some (tyIs64 w.ty), some (tyIs64 w.ty), some false, none⟩
  | .mset w => some ⟨w, bodyMset, none, some false, none, none⟩
  | .mand w => some ⟨w, bodyMand, none, none, none, none⟩
  | .mor w => some ⟨w, bodyMor, none, none, none, none⟩
  | .mxor w => some ⟨w, bodyMxor, none, none, none, none⟩
  | .mandn w => some ⟨w, bodyMandn, none, none, none, none⟩
  | .gred op w => some ⟨w, (bodyGred op), some (tyIs64 w.ty), some (tyIs64 w.ty), none, none⟩
  | .scan op w => some ⟨w, (bodyScan op), some (tyIs64 w.ty), some (tyIs64 w.ty), none, none⟩
  | .scanx op w => some ⟨w, (bodyScanx op), some (tyIs64 w.ty), some (tyIs64 w.ty), none, none⟩
  | .greds op w => some ⟨w, (bodyGreds op), some (tyIs64 w.ty), some (tyIs64 w.ty), some false, none⟩
  | .ldl w => some ⟨w, bodyLdl, some (tyIs64 w.ty), some true, if w.md.getLsbD 0 then some false else none, none⟩
  | .ldt w => some ⟨w, bodyLdt, some (tyIs64 w.ty), some true, if w.md.getLsbD 0 then some false else none, none⟩
  | .stl w => some ⟨w, bodyStl, none, some true, if w.md.getLsbD 0 then some false else none, some (tyIs64 w.ty)⟩
  | .stt w => some ⟨w, bodyStt, none, some false, none, some false⟩
  | .sttWait w => some ⟨w, bodySttWait, none, some false, none, some false⟩
  | .lda w => some ⟨w, bodyLda, some false, some false, none, none⟩
  | .atomLane op w => some ⟨w, (bodyAtomLane op), some (tyIs64 w.ty), some true, if w.md.getLsbD 0 then some false else none, some (tyIs64 w.ty)⟩
  | .redLane op w => some ⟨w, (bodyRedLane op), none, some true, if w.md.getLsbD 0 then some false else none, some (tyIs64 w.ty)⟩
  | .amaxrdLane w => some ⟨w, bodyAmaxrdLane, some false, some true, if w.md.getLsbD 0 then some false else none, none⟩
  | .segl w => some ⟨w, bodySegl, some false, some false, some false, none⟩
  | .segb w => some ⟨w, bodySegb, some false, some false, some false, none⟩
  | .hgld w => some ⟨w, bodyHgld, some false, some false, some false, none⟩
  | .hgsc w => some ⟨w, bodyHgsc, none, some false, some false, some false⟩
  | _ => none

/-- The lane registers that a form names. -/
def LaneForm.regs (f : LaneForm) : List (Nat × Bool) :=
  ([(f.d, f.word.dst), (f.a, f.word.a), (f.b, f.word.b), (f.c, f.word.c)].filterMap (fun x => x.1.map (fun wd => (x.2.toNat, wd)))).filter (fun x => decide (x.1 < 0x100))

/-- A selector in iteration `i`, when its advance bit is set (R70). -/
def stepSel (on : Bool) (o : Option Bool) (i stride : Nat) (x : BitVec 9) : BitVec 9 :=
  if on && o.isSome && decide (x.toNat < 0x100) then x + BitVec.ofNat 9 (i * stride) else x

/-- The form in iteration `i` of a repeat (R70). -/
def LaneForm.iterate (f : LaneForm) (adv : BitVec 4) (i stride : Nat) : LaneForm :=
  { f with word := { f.word with
      dst := stepSel (adv.getLsbD 3) f.d i stride f.word.dst
      a := stepSel (adv.getLsbD 2) f.a i stride f.word.a
      b := stepSel (adv.getLsbD 1) f.b i stride f.word.b
      c := stepSel (adv.getLsbD 0) f.c i stride f.word.c } }

/-- A register number beyond 255 or VN in the last iteration (R139). -/
def LaneForm.beyond (f : LaneForm) (adv : BitVec 4) (last stride vn : Nat) : Bool :=
  [(adv.getLsbD 3, f.d, f.word.dst), (adv.getLsbD 2, f.a, f.word.a), (adv.getLsbD 1, f.b, f.word.b), (adv.getLsbD 0, f.c, f.word.c)].any (fun x =>
    match x.2.1 with
    | some wd => x.1 && decide (x.2.2.toNat < 0x100) && decide (min 256 vn ≤ x.2.2.toNat + last * stride + (if wd then 1 else 0))
    | none => false)

/-- A 64-bit operand named by an odd register number (R13). -/
def LaneForm.odd (f : LaneForm) : Bool := f.regs.any (fun r => r.2 && r.1 % 2 == 1)

/-- The iteration that a `REP` of a split runs next (R29, R139). -/
def repeatIndex (g : Group) (id : Nat) : Nat :=
  match g.rep with
  | some (j, k) => if j = id then k else 0
  | none => 0

/-- The lane form that follows a `REP` in the lane code, or ILLEGAL (R70, R139). -/
def repeated (next : BitVec 96) : Except Stop LaneForm :=
  match decode (.lane next 0) with
  | .error _ => raise .illegal 0
  | .ok i => match laneForm i with
    | none => raise .illegal 0
    | some f => .ok f

/-- `REP`: each turn runs one iteration of the prefixed word as a complete instruction; the LPC stays at the `REP` until
the last has run; an iteration that names a 64-bit operand by an odd number is ILLEGAL (R13, R139). DESIGN CHOICE: log entry 45. -/
def execRep (n stride : BitVec 8) (adv : BitVec 4) (next : BitVec 96) (s : State) : Out :=
  finishLane s (do
    let (id, _) ← ctlEnter s
    let f ← repeated next
    let i := repeatIndex (selfGroup s) id
    let passed (s : State) : State := ctlDone (mapSelfGroup (fun g => { g with rep := none }) (mapSplit id (fun sp => { sp with lpc := sp.lpc + 24 }) s))
    if n.toNat ≤ i then .ok (passed s)
    else do
      raiseIf (f.beyond adv (n.toNat - 1) stride.toNat (selfVn s)) .bound 2
      let g := f.iterate adv i stride.toNat
      raiseIf g.odd .illegal 0
      let s ← g.body g.word s
      .ok (if i + 1 = n.toNat then passed s else retire (mapSelfGroup (fun g => { g with rep := some (id, i + 1) }) s)))

/-- `EXT`: the next word with its immediate extended, or ILLEGAL at the `EXT` (R60). -/
def execExt (imm : BitVec 26) (next : BitVec 32) (s : State) : Out :=
  let x {w : Nat} (low : BitVec w) : Form := extForm imm low s
  match decode (.scalar next 0) with
  | .ok (.addi d a k) => addiForm d a (x k) s
  | .ok (.andi d a k) => andiForm d a (x k) s
  | .ok (.ori d a k) => oriForm d a (x k) s
  | .ok (.xori d a k) => xoriForm d a (x k) s
  | .ok (.muli d a k) => muliForm d a (x k) s
  | .ok (.slti d a k) => sltiForm d a (x k) s
  | .ok (.sltiu d a k) => sltiuForm d a (x k) s
  | .ok (.beq a b k) => beqForm a b (x k) s
  | .ok (.bne a b k) => bneForm a b (x k) s
  | .ok (.blt a b k) => bltForm a b (x k) s
  | .ok (.bge a b k) => bgeForm a b (x k) s
  | .ok (.bltu a b k) => bltuForm a b (x k) s
  | .ok (.bgeu a b k) => bgeuForm a b (x k) s
  | .ok (.loop a b k) => loopForm a b (x k) s
  | .ok (.j k) => jForm (x k) s
  | .ok (.call k) => callForm (x k) s
  | .ok (.jr a k) => jrForm a (x k) s
  | .ok (.callr d a k) => callrForm d a (x k) s
  | .ok (.ldsI8 d a k) => ldsForm true 1 d a (x k) s
  | .ok (.ldsN8 d a k) => ldsForm false 1 d a (x k) s
  | .ok (.ldsI16 d a k) => ldsForm true 2 d a (x k) s
  | .ok (.ldsN16 d a k) => ldsForm false 2 d a (x k) s
  | .ok (.ldsI32 d a k) => ldsForm true 4 d a (x k) s
  | .ok (.ldsN32 d a k) => ldsForm false 4 d a (x k) s
  | .ok (.ldsN64 d a k) => ldsForm false 8 d a (x k) s
  | .ok (.stsN8 b a k) => stsForm 1 b a (x k) s
  | .ok (.stsN16 b a k) => stsForm 2 b a (x k) s
  | .ok (.stsN32 b a k) => stsForm 4 b a (x k) s
  | .ok (.stsN64 b a k) => stsForm 8 b a (x k) s
  | .ok (.lrun k) => lrunForm (x k) s
  | .ok (.yield k) => yieldForm (x k) s
  | _ => finish s (raise .illegal 0)

end Sys2Proof.Machine
end

