-- ==== Sys2Proof/Machine/Counters.lean ====
section
/-! DEFINITION. Counter records and the ends of levels, failure lists, failures recorded at a queue (R320, R321, R324 to
R327). -/

namespace Sys2Proof.Machine

/-- The context in which the device reads and writes for a launch or a queue (R320, R325).
DESIGN CHOICE: log entry 14. -/
def deviceCtx (s : State) (pkg : Nat) (ctxid : Word32) (ptbase : Word64) : Ctx where
  ag := .ctl pkg 0
  pkg := pkg
  user := false
  ctxid := ctxid
  ptbase := ptbase
  identity := false
  block := none
  limit := 0
  slots := (s.pkg pkg).fmtDefault

/-- A place of control space for `n` bytes on a multiple of `align`. -/
def controlPlace (s : State) (c : Ctx) (write : Bool) (align : Nat) (va : Word64) : Except Stop Place :=
  match spaceOf va with
  | some (.control off) => do
    raiseIf (va.toNat % align != 0) .protection 0x15 va
    translate s c { write } va (.control off)
  | _ => raise .protection 0x15 va

/-- Reads control memory through a context: the bytes, or the fault. -/
def readVia (s : State) (c : Ctx) (align : Nat) (va : Word64) (n : Nat) : Except Stop (List Byte) := do
  let p ← controlPlace s c false align va
  match badAt s c p.loc n with
  | some d => raise .memerr d va
  | none => .ok (readPlace (match p.loc with | .phys k => foldLine (k / 128) s | .scr _ => s) c p n)

/-- A device's reads of control memory through a context fold the shadows of the lines read (R158). -/
def foldReads (c : Ctx) (vas : List Word64) (s : State) : State :=
  if s.cores.all (fun k => k.2.shadows == []) then s
  else seqAll (fun va s => match controlPlace s c false 1 va with | .ok p => foldAt p.loc s | .error _ => s) vas s

/-- A device write to control memory, performed at both homes (R288, R325). -/
def putDevice (p : Place) (bs : List Byte) (s : State) : State := devicePuts (putsAt p.mat p.loc bs) s

/-- Records a failure at a command queue (R320 step 3, R321). -/
def queueFail (pkg q : Nat) (st : Word16) (s : State) : State :=
  let base := (s.pkg pkg).qtab % 2 ^ 36 + 64 * q
  let n := readCtl s pkg (base + 0x2C) 4
  let s := if n = 0 then writeCtl pkg (base + 0x2A) (leBytes 2 st.toNat) s else s
  writeCtl pkg (base + 0x2C) (leBytes 4 (if n = 2 ^ 32 - 1 then n else n + 1)) s

/-- `end(rec, s)`: one step at a counter record, and at the next level's when the count reaches 0 (R325); a record that
cannot be read or written stops the chain there. The levels are four (R179); the fuel covers longer chains. -/
def endRecord (c : Ctx) : Nat → Word64 → Word16 → State → Except Stop (Option Trap × State)
  | 0, _, _, s => .ok (none, s)
  | fuel + 1, va, st, s =>
    match controlPlace s c true 32 va with
    | .error .stall => .error .stall
    | .error (.trap t) => .ok (some t, s)
    | .ok p =>
      match badAt s c p.loc 32 with
      | some d => .ok (some { cls := .memerr, detail := d, addr := va }, s)
      | none =>
        let s := foldAt p.loc s
        let bs := readPlace s c p 32
        let old : Word16 := BitVec.ofNat 16 (numAt bs 0x10 2)
        let st' := if st ≠ 0 ∧ old = 0 then st else old
        let nfail := if st ≠ 0 ∧ numAt bs 0x14 4 < 2 ^ 32 - 1 then numAt bs 0x14 4 + 1 else numAt bs 0x14 4
        let count := (numAt bs 0 8 + 2 ^ 64 - 1) % 2 ^ 64
        let up : Word64 := BitVec.ofNat 64 (numAt bs 8 8)
        let s := putDevice p (leBytes 8 count ++ leBytes 8 up.toNat ++ leBytes 2 st'.toNat ++ leBytes 2 (numAt bs 0x12 2) ++ leBytes 4 nfail) s
        if count = 0 ∧ up ≠ 0 then endRecord c fuel up st' s else .ok (none, s)

/-- Ends an item at a counter record; a record of the chain that cannot be written takes the failure to its queue, and what
was done below it stands (R321, R325, R338). DESIGN CHOICE: log entry 61. -/
def endAt (c : Ctx) (queue : Option Nat) (va : Word64) (st : Word16) (s : State) : Eff := do
  let (t, s) ← endRecord c 64 va st s
  .ok (match t, queue with
    | some t, some q => queueFail c.pkg q (if t.cls = .bound then stBound else if t.cls = .memerr then stMemerr else stProtection) s
    | _, _ => s)

/-- Writes a failed block into a failure list (R324); a list that cannot be reached takes nothing.
DESIGN CHOICE: log entry 54. -/
def failureEntry (c : Ctx) (frep : Word64) (index : Nat) (st : Word16) (lcore : Nat) (s : State) : State :=
  if frep = 0 then s
  else
    match controlPlace s c true 16 frep with
    | .error _ => s
    | .ok p =>
      let s := foldAt p.loc s
      let bs := readPlace s c p 12
      let n := numAt bs 0 8
      let s := if n < numAt bs 8 4 then
          match controlPlace s c true 16 (frep + 16 + BitVec.ofNat 64 (16 * n)) with
          | .error _ => s
          | .ok q => putDevice q (leBytes 8 index ++ leBytes 2 st.toNat ++ leBytes 2 0 ++ leBytes 4 lcore) s
        else s
      putDevice p (leBytes 8 (if n = 2 ^ 64 - 1 then n else n + 1)) s

/-- The context of a launch's device accesses. -/
def launchCtx (s : State) (l : Launch) : Ctx := { deviceCtx s l.pkg l.ctxid l.ptbase with slots := l.fs }

/-- Blocks of a launch's grid (R322). -/
def Launch.count (l : Launch) : Nat := l.gridx * l.gridy * l.gridz

/-- Ends one block of a launch with a status: its failure-list entry, then its counter record (R324, R326). -/
def endLaunchBlock (id index : Nat) (st : Word16) (lcore : Nat) (s : State) : Eff := do
  let l := s.launch id
  let c := launchCtx s l
  let s := if st = 0 then s else failureEntry c l.frep index st lcore s
  let s ← endAt c l.queue l.cc st s
  let s := mapLaunch id (fun l => { l with ended := l.ended ++ [index] }) s
  .ok (if l.ended.length + 1 = l.count then mapPkg l.pkg (fun p => { p with accepted := p.accepted.filter (· != id) }) s else s)

/-- LCORE of a block that did not end where it stood: the core it was last placed on (R324, R376). -/
def lastCore (s : State) (l : Launch) (index : Nat) : Nat :=
  match Table.find? l.last index with
  | some c => (logicalCore (s.pkg l.pkg).muniment c).getD 0xFFFFFFFF
  | none => 0xFFFFFFFF

/-- Ends every block of a launch that waits for its placement (R323, R327). -/
def endUnplaced (id : Nat) (st : Word16) (s : State) : Eff :=
  let l := s.launch id
  let left := ((List.range l.count).filter (fun i => l.next ≤ i || l.redo.contains i)).filter (fun i => !l.ended.contains i)
  seqEff (fun i s => endLaunchBlock id i st (lastCore s l i) s) left (mapLaunch id (fun l => { l with next := l.count, redo := [] }) s)

/-- Whether a record of a counter chain is cancelled (R327). -/
def chainCancelled (s : State) (c : Ctx) : Nat → Word64 → Bool
  | 0, _ => false
  | fuel + 1, va =>
    if va = 0 then false
    else match readVia s c 32 va 32 with
      | .error _ => false
      | .ok bs => numAt bs 0x12 2 % 2 == 1 || chainCancelled s c fuel (BitVec.ofNat 64 (numAt bs 8 8))

/-- Whether a counter chain holds a record at an address, within a context (R178). -/
def chainHas (s : State) (c : Ctx) (target : Nat) : Nat → Word64 → Bool
  | 0, _ => false
  | fuel + 1, va =>
    if va = 0 then false
    else match controlPlace s c false 32 va with
      | .ok p => p.loc == .phys target ||
        (match readVia s c 32 va 32 with
         | .ok bs => chainHas s c target fuel (BitVec.ofNat 64 (numAt bs 8 8))
         | .error _ => false)
      | .error _ => false

end Sys2Proof.Machine
end

