-- ==== Sys2Proof/Machine/Items.lean ====
section
/-! DEFINITION. Items: their making, their queues, their ends (R171 to R174, R251 to R254, R261, R262, R277). -/

namespace Sys2Proof.Machine

/-- The block an agent's items belong to: a group's own, the rank 0 block of an MCC's gang (R254). -/
def itemBlock (s : State) (ag : Agent) : Option Nat :=
  match ag with
  | .group _ _ _ => some (s.group ag).block
  | .mcc p c => ((s.mcc (p, c)).gang.head?).map (·.2)
  | .ctl _ _ => none

/-- The number by which a saved block finds an issuer again: a group's index, 255 for the MCC. -/
def itemGidx (s : State) (ag : Agent) : Nat := if isGroup ag then (s.group ag).gidx else 255

/-- The live items that an agent issued. -/
def liveItems (s : State) (ag : Agent) : List Nat :=
  (s.items.filter (fun x => x.2.issuer == ag && !x.2.orphan && x.2.block == itemBlock s ag && !x.2.sched)).map (·.1)

/-- The owner of an agent's eight engine queues (R253). -/
def queueOwner (s : State) (ag : Agent) : QOwner :=
  match ag with
  | .group _ _ _ => .block (s.group ag).block
  | a => .agent a

/-- An item of an agent that has just issued. -/
def freshItem (s : State) (ag : Agent) (kind : ItemKind) (c : Ctx) : Item where
  kind := kind
  issuer := ag
  block := itemBlock s ag
  gidx := itemGidx s ag
  orphan := false
  owner := none
  waits := []
  scope := 5
  statusReg := 0
  valueReg := 0
  value := 0
  acquire := false
  release := false
  holdFor := []
  ctx := c
  peers := []
  phase := .queued
  elems := []
  sends := []
  outs := []
  data := []
  puts := []
  lines := []
  status := 0
  xfer := 0
  nan := 0
  missing := []
  counted := false
  phaser := 0
  crec := none
  cc := 0
  queue := none
  sched := false

/-- Whether an engine queue holds its 32 items (R337). -/
def queueFull (s : State) (o : QOwner × Nat) : Bool := decide (32 ≤ (s.engine o).items.length)

/-- Gives an item the next number, and its place in its queue: it waits for what stands before it there (R253, R267). -/
def addItem (x : Item) (s : State) : State :=
  let id := s.nextId
  let s := { s with nextId := id + 1 }
  match x.owner with
  | none => s.setItem id x
  | some o =>
    let q := s.engine o
    (s.setItem id { x with waits := q.items ++ q.after }).setEngine o { q with items := q.items ++ [id] }

/-- Whether every item that an item waits for has ended. -/
def allEnded (s : State) (ids : List Nat) : Bool := ids.all (fun i => (Table.find? s.items i).isNone)

/-- Takes an ended item out of the queues. -/
def leaveQueues (id : Nat) (s : State) : State :=
  { s with engq := (s.engq.map (fun q => (q.1, { items := q.2.items.filter (· != id), after := q.2.after.filter (· != id) }))) }

/-- Marks scratch lines of a block full. -/
def fillLines (blk : Option Nat) (ls : List Nat) (s : State) : State :=
  match blk with
  | some b => if ls = [] then s else mapBlock b (fun x => { x with empty := x.empty.filter (fun l => !ls.contains l) }) s
  | none => s

/-- The 64 bytes of a completion record (R262). -/
def completionBytes (x : Item) (st : Word16) : List Byte :=
  let (cid, seq) := match x.kind with | .coll d _ _ => (d.cid, d.seq) | _ => (0, 0)
  leBytes 2 st.toNat ++ leBytes 2 1 ++ leBytes 4 x.nan ++ leBytes 8 ((x.xfer + 1) / 2) ++ leBytes 4 cid ++ leBytes 4 seq ++ leBytes 8 0 ++
    leBytes 32 (x.missing.foldl (fun m k => m + 2 ^ k) 0)

/-- Registers that an item delivers: its status, and a fetched value, 0 on a failure (R172, R261). -/
def itemRegs (x : Item) (st : Word16) : List (Nat × Word64) :=
  (if x.valueReg = 0 then [] else [(x.valueReg, if st = 0 then x.value else 0)]) ++
    (if x.statusReg = 0 then [] else [(x.statusReg, st.zeroExtend 64)])

/-- Delivers registers to a stream. DEDUCED: log entry 91. -/
def deliverRegs (rs : List (Nat × Word64)) (x : Stream) : Stream :=
  rs.foldl (fun (x : Stream) r => { writeS (BitVec.ofNat 6 r.1) r.2 x with await := x.await.erase r.1 }) x

/-- Counters that an item still holds in its issuer: CP until its source is reusable, ST until its status returns. -/
def heldCp (x : Item) : Nat := if x.counted then 1 else 0
def heldSt (x : Item) : Nat := match x.kind with | .ratom _ _ _ _ _ | .rrel _ _ _ => 1 | _ => 0

/-- The agent that counts an item's failure: group 0 for a schedule entry's copy (R265). -/
def failureAgent (s : State) (x : Item) : Agent :=
  match x.block with
  | some b => if x.sched then ((s.block b).groups.find? (fun a => (s.group a).gidx == 0)).getD x.issuer else x.issuer
  | none => x.issuer

/-- Whether an item's block waits in its save image. -/
def blockSaved (s : State) (x : Item) : Bool :=
  match x.block with
  | some b => match (s.block b).preempt with | .saved _ => true | _ => false
  | none => false

/-- An item of the command front end, which no stream issued (R318, R319). -/
def Item.ofFront (x : Item) : Bool := match x.owner with | some (.front _, _) => true | _ => false

/-- Applies an item's end to its issuer's context, or keeps it for the resumption of a saved block (R174, R254). -/
def settle (x : Item) (st : Word16) (s : State) : State :=
  if x.orphan ∨ x.ofFront then s
  else if blockSaved s x then
    mapBlock (x.block.getD 0) (fun b => { b with late := b.late ++ [⟨if x.sched then 0 else x.gidx, heldCp x, heldSt x, st, itemRegs x st⟩] }) s
  else
    let s := mapStream x.issuer (fun y => { deliverRegs (itemRegs x st) y with cp := y.cp - heldCp x, st := y.st - heldSt x }) s
    mapStream (failureAgent s x) (noteFailure st) s

/-- Signals a completion phaser, where its handle still lives (R261). -/
def signalPhaser (viewer : Nat) (h : Word32) (who : Member → Bool) (v : Word32) (s : State) : State :=
  if h ≠ 0 ∧ handleLive s viewer h = true ∧ ¬ (handleRef viewer h).pkg ∈ (s.pkg viewer).lost then
    setPhaser (handleRef viewer h) (signalAny (phaserAt s (handleRef viewer h)) who v) s
  else s

/-- A discarded attempt's scratchpad goes with the last item that reads it (R254). -/
def dropAttempt (x : Item) (s : State) : State :=
  match x.ctx.block with
  | some b =>
    if x.orphan && !s.items.any (fun y => y.2.ctx.block == some b) && !s.mccs.any (fun m => m.2.gang.any (fun g => g.2 == b)) then
      { s with past := Table.del s.past b }
    else s
  | none => s

/-- The end of an item with its status: its destination lines are full, its records written, its phaser signalled, its
counters and registers delivered (R172, R174, R252, R261 to R263, R326). -/
def endItem (id : Nat) (st : Word16) (s : State) : Eff := do
  let x := s.item id
  let s := fillLines x.ctx.block x.lines s
  let s := match x.crec with | some p => putDevice p (completionBytes x st) s | none => s
  let s ← if x.cc = 0 then .ok s else endAt x.ctx x.queue x.cc st s
  let s := mapPkg x.ctx.pkg (fun p => { p with accepted := p.accepted.filter (· != id) }) s
  let s := signalPhaser x.ctx.pkg x.phaser (isMember x.issuer (if isMcc x.issuer then none else x.block)) (st.zeroExtend 32) s
  let s := settle x st s
  let s := if x.acquire then acquireAt x.issuer s else s
  .ok (dropAttempt x (leaveQueues id { s with items := Table.del s.items id }))

/-- The status that a failed check gives an item (R265, R321). -/
def stopStatus : Stop → Word16
  | .stall => stOK
  | .trap t => if t.cls = .memerr then stMemerr else if t.cls = .remote then stPeerLost else classStatus (classNum t.cls)

/-- The lease record of a handle at a lender, as the Stacks give it: its bytes, with the line read (R278).
DEDUCED: log entry 53. -/
def leaseBytes (s : State) (owner h : Nat) : List Byte × Nat :=
  let line := physKey owner 0 (h * 64) / 128
  ((stackLine s h (slotMaterial s owner 0) line).drop (h * 64 % 128), line)

/-- The lease-record handle of a page at its owner (R296). -/
def leaseHandle (s : State) (owner root : Nat) (p : Page) : Nat := readCtl s owner (root + 0x4000 + 4 * leafLidx p.leaf) 4

/-- What a lease record says to an item of a package that reaches a byte: `none` if it may pass (R278, R279). A reserved state,
and a reserved byte at 0x12 that is not zero, give PROTECTION. DEDUCED: log entry 52. DESIGN CHOICE: log entry 115. -/
def leaseStatus (bs : List Byte) (pkg pa : Nat) : Option Word16 :=
  if numAt bs 0x10 1 ≠ pkg then some stProtection
  else if numAt bs 0x11 1 = 0 ∨ numAt bs 0x11 1 = 2 then some stLeaseRevoked
  else if numAt bs 0x11 1 ≠ 1 ∨ numAt bs 0x12 2 ≠ 0 then some stProtection
  else if pa < numAt bs 0 8 ∨ numAt bs 0 8 + numAt bs 8 8 ≤ pa then some stBound
  else none

/-- A copy or a collective, which alone write pages of class compressed-weight (R291). -/
def movesData : ItemKind → Bool
  | .copy _ _ | .coll _ _ _ => true
  | .ratom _ _ _ _ _ | .rrel _ _ _ => false

/-- Whether a package counts as lost to another: its loss is applied there, or was applied in the panel before the other came
(R365, R373). -/
def lostTo (s : State) (me p : Nat) : Bool :=
  (s.pkg me).lost.contains p || (Table.find? s.pkgs p).isNone ||
    ((s.panel (panelOf p)).lost.contains p && !(s.pkg me).notices.any (fun n => n.2 == p))

/-- Whether an access of an item of a package waits at a package that is down and whose loss is not applied there yet (R172,
R373). -/
def awaitsOwner (s : State) (me : Nat) (va : Word64) : Bool :=
  match spaceOf va with
  | some (.tensor _ p _) => p != me && !pkgUp s p && !lostTo s me p
  | _ => false

/-- An owner's translation of a byte of tensor space for an item (R171, R172, R258, R277, R278, R296). An item of the
owner's own package goes through its context's tables. DEDUCED: log entry 51. -/
def reach (s : State) (x : Item) (write : Bool) (ty : Nat) (va : Word64) : Except Word16 Place :=
  let me := x.ctx.pkg
  match spaceOf va with
  | some (.tensor _ owner _) =>
    if owner ≠ me ∧ lostTo s me owner = true then .error stPeerLost
    else if (decide (x.scope ≤ 3) && owner != me) || (x.scope == 4 && panelOf owner != panelOf me) then .error stProtection
    else
      let foreign := owner != me
      let c := { x.ctx with pkg := owner }
      let root := (Table.findD (s.pkg owner).jroots (jobOf x.ctx.ctxid) 0).toNat % 2 ^ 36
      if foreign && (Table.find? (s.pkg owner).jroots (jobOf x.ctx.ctxid)).isNone then .error stProtection
      else
        match (if foreign then walkFrom s owner (asidOf x.ctx.ctxid) va false (levelsOf va false) (physKey owner 0 root) else walk s x.ctx va false) with
        | .error d => .error (if d.1 = .memerr then stMemerr else stProtection)
        | .ok p =>
          let o := va.toNat % 2 ^ p.pb
          let pa := leafPa p.leaf + o
          match pageFault s c { write, ty, item := movesData x.kind, remote := !movesData x.kind, lease := foreign } p o with
          | some _ => .error stProtection
          | none =>
            match (if foreign && leafL p.leaf then leaseStatus (leaseBytes s owner (leaseHandle s owner root p)).1 me pa else none) with
            | some st => .error st
            | none => .ok ⟨.phys (paKey s owner (leafTgt p.leaf) pa), slotMaterial s owner (leafKey p.leaf), some p, o⟩
  | _ => .error stProtection

/-- An item's access through a leased page reads the lease record's line, whose shadows fold (R158, R278). -/
def touchLease (x : Item) (va : Word64) (s : State) : State :=
  match spaceOf va with
  | some (.tensor _ owner _) =>
    let root := (Table.findD (s.pkg owner).jroots (jobOf x.ctx.ctxid) 0).toNat % 2 ^ 36
    if owner = x.ctx.pkg then s
    else match walkFrom s owner (asidOf x.ctx.ctxid) va false (levelsOf va false) (physKey owner 0 root) with
      | .error _ => s
      | .ok p => if leafL p.leaf then foldLine (leaseBytes s owner (leaseHandle s owner root p)).2 s else s
  | _ => s

/-- The bytes of an item's side once it is translated; each byte has its own place. -/
def sideBytes (s : State) (c : Ctx) (d : Side) : List Byte := d.places.flatMap (fun p => readPlace s c p 1)

/-- An uncorrectable error in the bytes of a side. -/
def sideBad (s : State) (c : Ctx) (d : Side) : Bool := d.places.any (fun p => (badAt s c p.loc 1).isSome)

/-- The keys of a side's bytes with an uncorrectable error (R379). -/
def sideBadKeys (s : State) (c : Ctx) (d : Side) : List Nat := badKeys s c d.places 1

/-- The keys of a side's bytes in memory. -/
def sideKeys (d : Side) : List Nat := d.places.filterMap (fun p => match p.loc with | .phys k => some k | .scr _ => none)

/-- The scratch lines of a side. -/
def sideLines (d : Side) : List Nat := (d.places.filterMap (fun p => match p.loc with | .scr o => some (o / 128) | .phys _ => none)).eraseDups

/-- The address of a byte of a side. -/
def sideVa (pos i : Nat) : Word64 := BitVec.ofNat 64 (pos / 2 + i)

/-- A package that an item's addresses name besides its own. -/
def foreignPkg (me : Nat) (va : Word64) : Option Nat :=
  match spaceOf va with
  | some (.tensor _ p _) => if p = me then none else some p
  | _ => none

/-- The nibbles of an element of a type at an address; a `.pg` element takes its page's slot, at the owner for a remote
page (R257). -/
def typeNibbles (s : State) (x : Item) (t : Nat) (va : Word64) : Nat :=
  if 16 ≤ t then narrowNibbles (slotOf x.ctx.slots (t - 16))
  else if t = 13 then
    match foreignPkg x.ctx.pkg va with
    | none => (pageNibbles s x.ctx va).getD 2
    | some _ => match reach s x false 9 va with
      | .ok p => (match p.page with | some pg => if leafFv pg.leaf then narrowNibbles (slotOf x.ctx.slots (leafFslot pg.leaf)) else 2 | none => 2)
      | .error _ => 2
  else 2 * tyBytes t

/-- Bytes that an element of `n` nibbles lies in. -/
def nibbleBytes (n : Nat) : Nat := max 1 (n / 2)

/-- Translates one byte of an item's own side, of an element of `elem` nibbles for `.pg` (R257, R259 step 6). -/
def bytePlace (s : State) (c : Ctx) (write : Bool) (ty : Nat) (elem : Option Nat) (va : Word64) : Except Stop Place :=
  match spaceOf va with
  | none => raise .translation 1 va
  | some sp => do
    match sp with
    | .scratch off => raiseIf (decide (c.limit ≤ off)) .bound 3 va
    | _ => .ok ()
    translate s c { write, ty, item := true, elem } va sp

/-- Translates bytes of an item's own side. -/
def bytePlaces (s : State) (c : Ctx) (write : Bool) (ty : Nat) (elem : Option Nat) (pos : Nat) : List Nat → Except Stop (List Place)
  | [] => .ok []
  | i :: r => do
    let p ← bytePlace s c write ty elem (sideVa pos i)
    let ps ← bytePlaces s c write ty elem pos r
    .ok (p :: ps)

/-- A narrow element on a block-scaled page whose scale slot is unset (R39). -/
def scaleUnset (c : Ctx) (ty : Nat) (p : Place) : Bool :=
  decide (16 ≤ ty) && (match p.page with | some pg => leafGeom pg.leaf != 0 && slotOf c.slots (leafSslot pg.leaf) == none | none => false)

/-- A side of an element of `n` nibbles: translated here, or left to its owner (R39, R257, R259).
DEDUCED: log entry 100. -/
def ownSide (s : State) (x : Item) (write : Bool) (ty n pos : Nat) : Except Stop Side := do
  needSlot x.ctx ty
  match foreignPkg x.ctx.pkg (sideVa pos 0) with
  | some _ => .ok ⟨pos, []⟩
  | none =>
    let ps ← bytePlaces s x.ctx write ty (if ty = 13 then some n else none) pos (List.range (nibbleBytes n))
    raiseIf (ps.any (scaleUnset x.ctx ty)) .illegal 0
    .ok ⟨pos, ps⟩

/-- Translates the bytes of a side at its owner. -/
def reachBytes (s : State) (x : Item) (write : Bool) (ty pos : Nat) : List Nat → Except Word16 (List Place)
  | [] => .ok []
  | i :: r => do
    let p ← reach s x write ty (sideVa pos i)
    let ps ← reachBytes s x write ty pos r
    .ok (p :: ps)

/-- Translates a side that its owner has not translated yet; a page with another element size is refused (R257). -/
def farSide (s : State) (x : Item) (write : Bool) (ty n : Nat) (d : Side) : Except Word16 Side :=
  if d.places ≠ [] then .ok d
  else do
    let ps ← reachBytes s x write ty d.pos (List.range (nibbleBytes n))
    if (ty = 13 ∧ typeNibbles s x ty (sideVa d.pos 0) ≠ n) ∨ ps.any (scaleUnset x.ctx ty) = true then .error stProtection else .ok { d with places := ps }

end Sys2Proof.Machine
end

