-- ==== Sys2Proof/Machine/Copies.lean ====
section
/-! DEFINITION. Copy descriptors, the elements of a copy, their conversion (R224, R255 to R260). -/

namespace Sys2Proof.Machine

/-- The fields of a copy descriptor (R255). -/
def copyOf (bs : List Byte) : CopyDesc where
  src := BitVec.ofNat 64 (numAt bs 0 8)
  dst := BitVec.ofNat 64 (numAt bs 8 8)
  spitch := sextInt (numAt bs 0x10 8) 64
  dpitch := sextInt (numAt bs 0x18 8) 64
  count := numAt bs 0x20 4
  rows := numAt bs 0x24 4
  sty := numAt bs 0x28 1
  dty := numAt bs 0x29 1
  rm := numAt bs 0x2A 1
  rg := numAt bs 0x2B 1 % 2 == 1
  rdst := numAt bs 0x2B 1 / 2 % 2 == 1
  waite := numAt bs 0x2B 1 / 4 % 2 == 1
  cons := numAt bs 0x2B 1 / 8 % 2 == 1
  handle := numAt bs 0x2C 4
  phaser := BitVec.ofNat 32 (numAt bs 0x30 4)
  crec := BitVec.ofNat 64 (numAt bs 0x38 8)

/-- Whether an address lies in the scratch window. -/
def isScratch (va : Word64) : Bool := match spaceOf va with | some (.scratch _) => true | _ => false

/-- Whether an address lies in control space on a multiple. -/
def controlOn (align : Nat) (va : Word64) : Bool :=
  va.toNat % align == 0 && (match spaceOf va with | some (.control _) => true | _ => false)

/-- The addresses of a descriptor are valid (R255, R256). -/
def sidesOk (pkg : Nat) (d : CopyDesc) : Bool :=
  (spaceOf d.src).isSome && (spaceOf d.dst).isSome && !((foreignPkg pkg d.src).isSome && (foreignPkg pkg d.dst).isSome) &&
    (!d.rg || !isScratch (if d.rdst then d.dst else d.src))

/-- A descriptor's own fields are valid (R255, R256). -/
def copyOk (pkg : Nat) (bs : List Byte) : Bool :=
  let d := copyOf bs
  sidesOk pkg d && recordTy d.sty && recordTy d.dty && decide (d.rm ≤ 4) &&
    decide (numAt bs 0x2B 1 < 16) && (d.rg == (d.handle != 0)) && numAt bs 0x34 4 == 0 && (d.crec == 0 || controlOn 64 d.crec) &&
    (!d.rg || ((if d.rdst then d.dpitch else d.spitch) == 0 && d.count == 0 && d.rows == 0))

/-- Reads a 64-byte descriptor (R259 step 2). -/
def readDesc (s : State) (c : Ctx) (va : Word64) : Except Stop (List Byte) := do
  raiseIf (!controlOn 64 va) .protection 0x18 va
  let p ← place s c {} va 64
  match badAt s c p.loc 64 with
  | some d => raise .memerr d va
  | none => .ok (readPlace (foldAt p.loc s) c p 64)

/-- The starts of successive boxes along RDIM (R224, R257). -/
def boxStarts (r : Ragged) : Nat → Nat → List Nat
  | 0, _ => []
  | fuel + 1, p =>
    if r.bounds.getD r.nseg 0 ≤ p then []
    else
      let t := r.tile.getD r.rdim 1
      p :: boxStarts r fuel (if r.policy = 1 then min (p + t) (r.bounds.getD ((segOf r p).toNat + 1) 0) else p + t)

/-- The digits of a number in mixed radix, the first the fastest. -/
def digits : List Nat → Nat → List Nat
  | [], _ => []
  | b :: r, n => n % max 1 b :: digits r (n / max 1 b)

/-- Along each dimension, the number of boxes. -/
def boxCounts (r : Ragged) : List Nat :=
  (List.range r.ndim).map (fun d => if d = r.rdim then 1 else ceilDiv (r.size.getD d 0) (max 1 (r.tile.getD d 1)))

/-- Elements of a box. -/
def boxSize (r : Ragged) : Nat := (r.tile.take r.ndim).foldl (· * ·) 1

/-- The origins of a record's boxes in order (R257). -/
def boxes (r : Ragged) : List (List Nat) :=
  let starts := boxStarts r (r.bounds.getD r.nseg 0 - r.bounds.getD 0 0) (r.bounds.getD 0 0)
  let others := (List.range ((boxCounts r).foldl (· * ·) 1)).map (digits (boxCounts r))
  starts.flatMap (fun p => others.map (fun o => (List.range r.ndim).map (fun d => if d = r.rdim then p else o.getD d 0 * r.tile.getD d 1)))

/-- The indices of position `k` of a box. -/
def boxIndex (r : Ragged) (o : List Nat) (k : Nat) : List Nat := o.zipWith (· + ·) (digits (r.tile.take r.ndim) k)

/-- Whether a position along RDIM belongs to the box's reference segment (R224). -/
def inSegment (r : Ragged) (p0 p : Nat) : Bool := segOf r p0 != -1 && segOf r p == segOf r p0

/-- Whether an index of a box is moved (R224, R257). -/
def boxHas (r : Ragged) (o ix : List Nat) : Bool :=
  (List.range r.ndim).all (fun d => decide (ix.getD d 0 < r.size.getD d 0)) && inSegment r (o.getD r.rdim 0) (ix.getD r.rdim 0)

/-- The sum of index times stride. -/
def strideOf (r : Ragged) (ix : List Nat) : Int := (ix.zipWith (fun (i : Nat) (st : Int) => (i : Int) * st) r.stride).foldl (· + ·) 0

/-- A box crosses a boundary (R224). DEDUCED: log entry 49. -/
def boxCrosses (r : Ragged) : Bool :=
  (boxes r).any (fun o => (List.range (r.tile.getD r.rdim 1)).any (fun i => !inSegment r (o.getD r.rdim 0) (o.getD r.rdim 0 + i)))

/-- A distance in nibbles: pitches and strides count nibbles for elements of one nibble, and bytes otherwise (R257). -/
def inNibbles (n : Nat) (x : Int) : Int := if n = 1 then x else 2 * x

/-- The nibble position of an address and a distance. -/
def nibblePos (va : Word64) (d : Int) : Nat := wrapNat 65 (2 * va.toNat + d)

/-- Source and destination positions of the elements of a copy whose elements take `ns` and `nd` nibbles; a padded
element has no source (R257). DEDUCED: log entry 47. -/
def copyPositions (d : CopyDesc) (rag : Option Ragged) (ns nd : Nat) : List (Option Nat × Nat) :=
  match rag with
  | none =>
    (List.range d.rows).flatMap (fun (r : Nat) => (List.range d.count).map (fun (i : Nat) =>
      (some (nibblePos d.src (r * inNibbles ns d.spitch + i * ns)), nibblePos d.dst (r * inNibbles nd d.dpitch + i * nd))))
  | some r =>
    let bs := boxes r
    ((List.range bs.length).zip bs).flatMap (fun b => (List.range (boxSize r)).filterMap (fun k =>
      let ix := boxIndex r b.2 k
      let dense (va : Word64) (pitch : Int) (n : Nat) : Nat := nibblePos va (b.1 * inNibbles n pitch + k * n)
      if d.rdst then
        if boxHas r b.2 ix then some (some (dense d.src d.spitch ns), nibblePos d.dst (inNibbles nd (strideOf r ix))) else none
      else
        some (if boxHas r b.2 ix then some (nibblePos d.src (inNibbles ns (strideOf r ix))) else none, dense d.dst d.dpitch nd)))

/-- The elements of a copy, its own sides translated (R257, R259 step 6). -/
def copyElems (s : State) (x : Item) (sty dty ns nd : Nat) : List (Option Nat × Nat) → Except Stop (List Elem)
  | [] => .ok []
  | (sp, dp) :: r => do
    let src ← match sp with
      | some p => (ownSide s x false sty ns p).map some
      | none => Except.ok none
    let dst ← ownSide s x true dty nd dp
    let es ← copyElems s x sty dty ns nd r
    .ok (⟨src, dst, []⟩ :: es)

/-- The checks of a copy with its record: dense pitch, boundary crossing (R256, R259 steps 3 and 4). -/
def copyRecord (x : Item) (d : CopyDesc) (s : State) : Except Stop (Option Ragged × State) :=
  if d.rg then do
    let (r, s) ← snapshot x.ctx d.handle s
    let n := typeNibbles s x (if d.rdst then d.sty else d.dty) (if d.rdst then d.src else d.dst)
    raiseIf (decide (inNibbles n (if d.rdst then d.spitch else d.dpitch) < boxSize r * n)) .protection 0x19
    raiseIf (r.policy == 2 && boxCrosses r) .ragged 6
    .ok (some r, s)
  else .ok (none, s)

/-- The check of a completion phaser as of a `PHSIG` by an agent, which `member` asks to be registered (R259 step 5). -/
def checkPhaser (pkg : Nat) (who : Member → Bool) (member : Bool) (h : Word32) (s : State) : Except Stop Unit :=
  if h = 0 then .ok ()
  else do
    let r := handleRef pkg h
    raiseIf (r.gen != 0 && (s.pkg pkg).lost.contains r.pkg) .remote 0x30
    raiseIf (!handleLive s pkg h) .sync 0x20
    raiseIf (member && !(phaserAt s r).members.any (fun m => who m && m.signals)) .sync 0x21

/-- The place of a completion record (R259 step 6). -/
def recordPlace (s : State) (c : Ctx) (va : Word64) : Except Stop (Option Place) :=
  if va = 0 then .ok none else (place s c { write := true } va 64).map some

/-- The item of a copy: its elements with its own sides translated, its destination lines, the packages it needs, the place
of its completion record (R257, R259 step 6). -/
def copyItem (x : Item) (d : CopyDesc) (rag : Option Ragged) (crec : Option Place) (s : State) : Except Stop Item := do
  let ns := typeNibbles s x d.sty d.src
  let nd := typeNibbles s x d.dty d.dst
  let es ← copyElems s x d.sty d.dty ns nd (copyPositions d rag ns nd)
  .ok { x with
    kind := .copy d rag
    elems := es
    lines := (es.flatMap (fun e => sideLines e.dst)).eraseDups
    peers := ([foreignPkg x.ctx.pkg d.src, foreignPkg x.ctx.pkg d.dst].filterMap id).eraseDups
    phaser := d.phaser
    crec := crec }

/-- The scale of an element that an item moves, on a block-scaled page, whichever narrow type names it (R51, R256). -/
def itemScale (s : State) (c : Ctx) (t : Nat) (p : Place) : Option Num :=
  (scaleSpot s c t p).map (fun x => x.2.decode (leNat (readPlace s c x.1 1)))

/-- The exact value of a narrow element under its block's scale (R48, R256). -/
def narrowNum (s : State) (c : Ctx) (t : Nat) (d : Side) (b : Byte) : Num :=
  let p := d.places.getD 0 default
  let f := narrowFmt c t p
  let x := f.decode (narrowCode f (d.pos % 2 == 1) b)
  match itemScale s c t p with
  | some sc => x.mul sc
  | none => x

/-- Whether a type is a narrow one, of a slot or of a page (R35). -/
def isNarrow (t : Nat) : Bool := t == 13 || decide (16 ≤ t)

/-- The places of the scale codes that moving an element between two sides reads. -/
def scalePlaces (s : State) (c : Ctx) (t : Nat) (d : Side) : List Place :=
  if isNarrow t then (d.places.take 1).filterMap (fun p => (scaleSpot s c t p).map (·.1)) else []

/-- The bits of an element of `n` nibbles at a side. -/
def sideRaw (n : Nat) (d : Side) (bs : List Byte) : Nat := if n = 1 then leNat bs / (if d.pos % 2 = 1 then 16 else 1) % 16 else leNat bs

/-- The byte writes of an element of `n` nibbles, its bits as they stand. -/
def sidePuts (n : Nat) (d : Side) (raw : Nat) : List Put :=
  if n = 1 then
    d.places.map (fun p => ⟨p.loc, p.mat, if d.pos % 2 = 1 then 0xF0 else 0x0F, BitVec.ofNat 8 (if d.pos % 2 = 1 then raw * 16 else raw)⟩)
  else d.places.zipWith (fun p b => ⟨p.loc, p.mat, 0xFF, b⟩) (leBytes d.places.length raw)

/-- The slot of a side's page, and whether its page is block-scaled. -/
def sidePage (d : Side) : Nat × Bool :=
  match (d.places.getD 0 default).page with
  | some p => (leafFslot p.leaf, leafGeom p.leaf != 0)
  | none => (16, false)

/-- Whether two sides have the same format and neither is block-scaled, so that bytes move as they stand (R256). -/
def sameFormat (sty dty : Nat) (a b : Side) : Bool :=
  sty == dty && (!isNarrow sty || ((sty != 13 || (sidePage a).1 == (sidePage b).1) && !(sidePage a).2 && !(sidePage b).2))

/-- The writes of a value in a type at a side (R42, R34, R51, R128). -/
def valuePuts (s : State) (c : Ctx) (k : Rnd) (dty n : Nat) (d : Side) (v : Num) : List Put :=
  if isNarrow dty then
    let p := d.places.getD 0 default
    [narrowPut (narrowFmt c dty p) p (d.pos % 2 == 1) (encodeNarrow (narrowFmt c dty p) k (itemScale s c dty p) v)]
  else if tyIsFloat dty then sidePuts n d ((stdFmt dty).round k v)
  else sidePuts n d (wrapNat (8 * tyBytes dty) (v.toType k (tySigned dty) (8 * tyBytes dty)))

/-- The writes that a moved element makes from the bytes read at its source (R256). -/
def movedPuts (s : State) (c : Ctx) (d : CopyDesc) (ns nd : Nat) (a b : Side) (bs : List Byte) : List Put :=
  if sameFormat d.sty d.dty a b then sidePuts nd b (sideRaw ns a bs)
  else
    let k : Rnd := { mode := d.rm }
    let v : Num := if isNarrow d.sty then narrowNum s c d.sty a (bs.getD 0 0)
      else if tyIsFloat d.sty then (stdFmt d.sty).decode (leNat bs) else .ofInt (intOf d.sty (leNat bs))
    valuePuts s c k d.dty nd b v

/-- The writes of a padded element: zeros, or PADW, an FP32 value, converted to the destination's type (R224).
DEDUCED: log entry 48. -/
def padPuts (s : State) (c : Ctx) (d : CopyDesc) (nd : Nat) (r : Ragged) (b : Side) : List Put :=
  if r.padmode = 0 then sidePuts nd b 0 else valuePuts s c rneMode d.dty nd b (fmt32.decode r.padw.toNat)

end Sys2Proof.Machine
end

