-- ==== Sys2Proof/Machine/Engines.lean ====
section
/-! DEFINITION. The engines: copies and schedules, joins, remote atomics, `FENCE.TC`, `CPSTEP`, leases (R171 to R175, R218,
R252 to R267, R277 to R279). -/

namespace Sys2Proof.Machine

/-- The agent for which a block's schedule issues: group 0 (R265). -/
def scheduleAgent (s : State) (b : Nat) : Agent :=
  ((s.block b).groups.find? (fun a => (s.group a).gidx == 0)).getD (.group (s.block b).pkg (s.block b).core 0)

/-- The scratch lines that the positions of a copy's destination cover. -/
def scratchLines (n : Nat) (ps : List (Option Nat × Nat)) : List Nat :=
  (ps.flatMap (fun p => (List.range (nibbleBytes n)).filterMap (fun i => match spaceOf (sideVa p.2 i) with | some (.scratch o) => some (o / 128) | _ => none))).eraseDups

/-- The item of a schedule entry's copy, with the destination lines it owes (R264, R265). -/
def entryItem (s : State) (b : Nat) (e : SchedEntry) : Item :=
  let ag := scheduleAgent s b
  let x := { freshItem s ag (.copy e.desc e.rag) { ctxOf s ag with user := true } with
    sched := true, owner := some (.block b, e.queue), phaser := e.desc.phaser }
  let n := typeNibbles s x e.desc.dty e.desc.dst
  { x with lines := scratchLines n (copyPositions e.desc e.rag (typeNibbles s x e.desc.sty e.desc.src) n) }

/-- Releases one schedule entry; a failure of its memory checks becomes its status (R265). -/
def releaseEntry (b i : Nat) (e : SchedEntry) (s : State) : Eff :=
  let s := mapBlock b (fun k => { k with released := k.released ++ [i] }) s
  let x := entryItem s b e
  let id := s.nextId
  match copyItem x e.desc e.rag e.crec s with
  | .ok it => let s := addItem it s; if it.elems = [] then endItem id stOK s else .ok s
  | .error .stall => .error .stall
  | .error (.trap t) => endItem id (stopStatus (.trap t)) (addItem { x with crec := e.crec } s)

/-- Whether a schedule entry is due (R265). -/
def entryDue (k : Block) (i : Nat) (e : SchedEntry) : Bool := !k.released.contains i && decide ((k.stage - e.stage).toNat < 2 ^ 31)

/-- Releases the due entries of a block whose queue has room, in ascending order (R265, R337). -/
def releaseDue (b : Nat) (s : State) : Eff :=
  match (s.block b).preempt with
  | .saved _ => .ok s
  | _ =>
    seqEff (fun (e : Nat × SchedEntry) s =>
      if entryDue (s.block b) e.1 e.2 && !queueFull s (.block b, e.2.queue) then releaseEntry b e.1 e.2 s else .ok s)
      ((List.range (s.block b).sched.length).zip (s.block b).sched) s

/-- Ends an item; schedule entries that waited for room in its queue follow (R265). -/
def finishItem (id : Nat) (st : Word16) (s : State) : Eff := do
  let o := (s.item id).owner
  let s ← endItem id st s
  match o with
  | some (.block b, _) => releaseDue b s
  | _ => .ok s

/-- Issues an item of the running stream: CP and ST rise, its registers are awaited; an empty copy ends at once (R252,
R257). -/
def issueItem (x : Item) (s : State) : Eff :=
  let id := s.nextId
  let s := addItem x s
  let s := mapSelf (fun y => { y with
    cp := y.cp + heldCp x
    st := y.st + heldSt x
    await := y.await ++ ([x.valueReg, x.statusReg].filter (· != 0)) }) s
  match x.kind with
  | .copy _ _ => if x.elems = [] then finishItem id stOK s else .ok s
  | _ => .ok s

/-- The status register of a `.st` form. -/
def statusOf (w : LongWord) : Nat := if w.st = 1 then w.e.toNat else 0

/-- `CPY` (R258 to R261): its checks in order, then its item. -/
def execCpy (w : LongWord) (s : State) : Out :=
  finish s (do
    let c := selfCtx s
    let va := reg s w.a
    let bs ← readDesc s c va
    raiseIf (!copyOk c.pkg bs) .protection 0x19
    let s := foldReads c [va] s
    let d := copyOf bs
    let x := { freshItem s s.cur (.copy d none) c with
      scope := w.scope.toNat, owner := some (queueOwner s s.cur, (w.aux.extractLsb' 0 3).toNat), counted := !isCtl s.cur, statusReg := statusOf w }
    let (rag, s) ← copyRecord x d s
    checkPhaser c.pkg (isMe s) true d.phaser s
    let it ← copyItem x d rag none s
    let p ← recordPlace s c d.crec
    stallIf (it.counted && decide (31 ≤ (self s).cp))
    stallIf (queueFull s (queueOwner s s.cur, (w.aux.extractLsb' 0 3).toNat))
    let s ← issueItem { it with crec := p } s
    .ok (advance 8 s))

/-- `QFENCE`: items that reach a named queue later wait for all that stand in any of them now (R267). -/
def execQfence (w : LongWord) (s : State) : Out :=
  finish s (do
    raiseIf (w.aux == 0) .illegal 0
    let o := queueOwner s s.cur
    let named := (List.range 8).filter (fun n => w.aux.getLsbD n)
    let ahead := (named.flatMap (fun n => (s.engine (o, n)).items ++ (s.engine (o, n)).after)).eraseDups
    .ok (advance 8 (seqAll (fun n s => s.setEngine (o, n) { s.engine (o, n) with after := ahead }) named s)))

/-- The blocks whose stage counter a stream steps (R266). -/
def stageBlocks (s : State) : List Nat :=
  match s.cur with
  | .group _ _ _ => [(selfGroup s).block]
  | .mcc p c => (s.mcc (p, c)).gang.map (·.2)
  | .ctl _ _ => []

/-- `CPSTEP` (R265, R266). -/
def execCpstep (d : SReg) (imm : BitVec 14) (s : State) : Out :=
  finish s (do
    raiseIf (isCtl s.cur) .sync 0x15
    let bs := stageBlocks s
    let s := seqAll (fun b s => mapBlock b (fun k => { k with stage := k.stage + imm.zeroExtend 32 }) s) bs s
    let v := (s.block (bs.getD 0 0)).stage
    let s ← seqEff releaseDue bs s
    .ok (advance 4 (setReg d (v.zeroExtend 64) s)))

/-- `FENCE.TC` (R175). -/
def execFenceTc (w : LongWord) (s : State) : Out :=
  finish s (do
    drain s
    whenPerformed (commitOwn s.cur s) (fun s =>
      if liveItems s s.cur != [] then .ok s
      else
        let x := self s
        .ok (advance 8 (if w.st = 1 then mapSelf (fun y => { y with fcnt := 0, fstat := 0 }) (setReg w.d (x.fcnt.zeroExtend 64) s) else s))))

/-- The address of a remote atomic or release, checked at issue (R171). -/
def remoteAddr (t : Nat) (va : Word64) : Except Stop Nat :=
  match spaceOf va with
  | none => raise .translation 1 va
  | some (.tensor _ p _) => do
    raiseIf (va.toNat % tyBytes t != 0) .protection 0x11 va
    .ok p
  | some _ => raise .protection 0x16 va

/-- Live tensor-space write items of the running stream to a package (R173). DEDUCED: log entry 50. -/
def streamItems (s : State) (p : Nat) : List Nat :=
  (liveItems s s.cur).filter (fun i =>
    let x := s.item i
    match x.kind with
    | .copy d _ => (foreignPkg x.ctx.pkg d.dst).getD x.ctx.pkg == p
    | .ratom _ _ va _ _ => (foreignPkg x.ctx.pkg va).getD x.ctx.pkg == p
    | .rrel _ va _ => (foreignPkg x.ctx.pkg va).getD x.ctx.pkg == p
    | .coll _ _ _ => false)

/-- `RATOM` (R171 to R173). -/
def execRatom (w : LongWord) (s : State) : Out :=
  finish s (do
    let t := w.ty.toNat
    let va := reg s w.a
    let code := (w.aux.extractLsb' 4 4).toNat
    let p ← remoteAddr t va
    stallIf (decide (63 ≤ (self s).st))
    releaseFirst (w.aux.getLsbD 3) s (fun s => do
      let cas := code == 7
      let x := { freshItem s s.cur (.ratom code t va (if cas then reg s w.c else reg s w.b) (reg s w.b)) (selfCtx s) with
        scope := w.scope.toNat, statusReg := statusOf w, valueReg := w.d.toNat, acquire := w.aux.getLsbD 2,
        release := w.aux.getLsbD 3, holdFor := if w.aux.getLsbD 3 then streamItems s p else [],
        peers := (foreignPkg (agentPkg s.cur) va).toList }
      let s ← issueItem x s
      .ok (advance 8 s)))

/-- `RREL` (R171 to R173). -/
def execRrel (w : LongWord) (s : State) : Out :=
  finish s (do
    let t := w.ty.toNat
    let va := reg s w.a
    let p ← remoteAddr t va
    stallIf (decide (63 ≤ (self s).st))
    releaseFirst true s (fun s => do
      let x := { freshItem s s.cur (.rrel t va (reg s w.b)) (selfCtx s) with
        scope := w.scope.toNat, statusReg := statusOf w, release := true, holdFor := streamItems s p,
        peers := (foreignPkg (agentPkg s.cur) va).toList }
      let s ← issueItem x s
      .ok (advance 8 s)))

/-- What an owner does with a remote atomic or release: its status and the fetched value, and the state after (R172). -/
def performRemote (x : Item) (s : State) : Word16 × Word64 × State :=
  let go (t : Nat) (va : Word64) (f : Nat → Nat) : Word16 × Word64 × State :=
    let s := touchLease x va s
    match reach s x true 9 va with
    | .error st => (st, 0, s)
    | .ok p =>
      let c := { x.ctx with ag := .ctl (match p.loc with | .phys k => keyPkg k | .scr _ => x.ctx.pkg) 0, block := none }
      if (badAt s c p.loc (tyBytes t)).isSome then (stMemerr, 0, noteBad (badKeys s c [p] (tyBytes t)) s)
      else
        let (old, s) := rmw c p (tyBytes t) f s
        (stOK, oldValue t old, s)
  match x.kind with
  | .ratom code t va y cmp => go t va (fun old => atomNew (atomOp code) t old (y.toNat % 2 ^ (8 * tyBytes t)) (cmp.toNat % 2 ^ (8 * tyBytes t)))
  | .rrel t va y => go t va (fun _ => y.toNat % 2 ^ (8 * tyBytes t))
  | _ => (stOK, 0, s)

/-- Performs a queued remote item and holds its status for its issuer. -/
def performItem (id : Nat) (s : State) : State :=
  let x := s.item id
  let (st, v, s) := performRemote x s
  s.setItem id { x with phase := .performed, status := st, value := v }

/-- Whether an item is a remote atomic or release. -/
def isRemote (x : Item) : Bool := match x.kind with | .ratom _ _ _ _ _ | .rrel _ _ _ => true | _ => false

/-- The addresses that an item reaches at their owners. -/
def Item.reaches (x : Item) : List Word64 :=
  match x.kind with
  | .copy d _ => [d.src, d.dst].filter (fun va => (foreignPkg x.ctx.pkg va).isSome)
  | .ratom _ _ va _ _ | .rrel _ va _ => [va]
  | .coll _ _ _ => []

/-- Whether an item's owners answer: one that is down answers nothing until its loss is applied where the item issued, which
ends the item (R172, R277, R373). -/
def ownersAnswer (s : State) (x : Item) : Bool := !x.reaches.any (awaitsOwner s x.ctx.pkg)

/-- A live item's event: an item that has ended, or is in another phase, takes no event. -/
def itemEvent (id : Nat) (ok : Item → Bool) (f : State → Eff) (s : State) : Out :=
  finishEvent s (match Table.find? s.items id with
    | none => .error .stall
    | some x => if ok x then f s else .error .stall)

/-- `REMOTE_ITEM_PERFORM`: the owner performs an item that is no release (R172). -/
def execRemoteItemPerform (id : Nat) (s : State) : Out :=
  itemEvent id (fun x => isRemote x && !x.release && x.phase == .queued && ownersAnswer s x) (fun s => .ok (performItem id s)) s

/-- `REMOTE_RELEASE_PERFORM`: the target performs a release once the items before it have ended there (R173). -/
def execRemoteReleasePerform (id : Nat) (s : State) : Out :=
  itemEvent id (fun x => isRemote x && x.release && x.phase == .queued && allEnded s x.holdFor && ownersAnswer s x) (fun s => .ok (performItem id s)) s

/-- `REMOTE_ITEM_STATUS`: the status reaches the issuer (R172). -/
def execRemoteItemStatus (id : Nat) (s : State) : Out :=
  itemEvent id (fun x => isRemote x && x.phase == .performed) (fun s => finishItem id (s.item id).status s) s

/-- Changes a copy's sides to their owners' translations (R296). -/
def startElems (s : State) (x : Item) (d : CopyDesc) (ns nd : Nat) : List Elem → Except Word16 (List Elem)
  | [] => .ok []
  | e :: r => do
    let src ← match e.src with
      | some a => (farSide s x false d.sty ns a).map some
      | none => Except.ok none
    let dst ← farSide s x true d.dty nd e.dst
    let es ← startElems s x d ns nd r
    .ok ({ e with src, dst } :: es)

/-- The nibbles of a copy's two element types. -/
def copyNibbles (s : State) (x : Item) (d : CopyDesc) : Nat × Nat := (typeNibbles s x d.sty d.src, typeNibbles s x d.dty d.dst)

/-- The nibbles that writes cover. -/
def putNibbles (ps : List Put) : Nat := (ps.map (fun p => if p.mask = 0xFF then 2 else 1)).foldl (· + ·) 0

/-- Makes an item's writes to memory, at both homes of a control line. -/
def writeItem (id : Nat) (ps : List Put) (s : State) : State :=
  mapItem id (fun x => { x with xfer := x.xfer + putNibbles ps }) (annexCopy (homesOf ps) (applyPuts none ps s))

/-- Marks empty the source lines that a consuming copy has read for the last time (R263). -/
def consumeLines (x : Item) (d : CopyDesc) (done rest : List Elem) (s : State) : State :=
  let linesOf (es : List Elem) : List Nat := (es.flatMap (fun e => match e.src with | some a => sideLines a | none => [])).eraseDups
  if d.cons then
    match x.ctx.block with
    | some b => mapBlock b (fun k => { k with empty := (linesOf done).foldl (fun l n => if (linesOf rest).contains n then l else addOnce n l) k.empty }) s
    | none => s
  else s

/-- A source byte that a copy can read now: its scratch line is full (R263); in what a discarded attempt left no one fills or
empties lines any more (R254). DEDUCED: log entry 69. -/
def byteReady (s : State) (x : Item) (p : Place) : Bool := x.orphan || lineFull s x.ctx p.loc

/-- The aligned words of a side, each by its first location. -/
def sideWords (d : Side) : List Loc := (d.places.map (fun p => wordLoc p.loc)).eraseDups

/-- The bytes of an element that a turn reads, by number: those of the words that `pick` takes by their number, not read
before and ready (R260). -/
def bytesNow (s : State) (x : Item) (pick : Nat → Bool) (e : Elem) : List (Nat × Place) :=
  match e.src with
  | none => []
  | some a =>
    let ws := sideWords a
    ((List.range a.places.length).zip a.places).filter (fun b =>
      pick (ws.idxOf (wordLoc b.2.loc)) && !e.got.any (fun g => g.1 == b.1) && byteReady s x b.2)

/-- Whether every source byte of an element has been read. -/
def Elem.whole (e : Elem) : Bool := match e.src with | none => true | some a => e.got.length == a.places.length

/-- The source bytes of an element, once they are all read. -/
def Elem.bytes (e : Elem) : List Byte :=
  (List.range e.got.length).map (fun i => ((e.got.find? (fun g => g.1 == i)).map (·.2)).getD 0)

/-- The writes of an element whose source is read: padding where it has none (R224, R256). -/
def elemPuts (s : State) (x : Item) (d : CopyDesc) (rag : Option Ragged) (e : Elem) : List Put :=
  let (ns, nd) := copyNibbles s x d
  match e.src with
  | none => padPuts s x.ctx d nd (rag.getD default) e.dst
  | some a => movedPuts s x.ctx d ns nd a e.dst e.bytes

/-- The places of the scale codes that forming an element's writes reads (R256). -/
def elemScales (s : State) (x : Item) (d : CopyDesc) (e : Elem) : List Place :=
  (match e.src with | some a => scalePlaces s x.ctx d.sty a | none => []) ++ scalePlaces s x.ctx d.dty e.dst

/-- The keys of places in memory. -/
def placeKeys (ps : List Place) : List Nat := ps.filterMap (fun p => match p.loc with | .phys k => some k | .scr _ => none)

/-- Reads source words of a copy, those that `pick` takes by element and word, in no order, and forms the writes of the
elements that are then read whole; an uncorrectable error ends it (R256, R260, R263, R302). -/
def readSome (id : Nat) (pick : Nat → Nat → Bool) (s : State) : Except (Word16 × State) State :=
  let x := s.item id
  match x.kind with
  | .copy d rag =>
    let now := ((List.range x.elems.length).zip x.elems).map (fun e => (e.2, bytesNow s x (pick e.1) e.2))
    let src := now.flatMap (fun e => e.2.map (·.2))
    let f := foldKeys (placeKeys src) s
    let es := now.map (fun e => { e.1 with got := e.1.got ++ e.2.map (fun b => (b.1, (readPlace f x.ctx b.2 1).getD 0 0)) })
    let done := es.filter Elem.whole
    let rest := es.filter (fun e => !e.whole)
    let codes := done.flatMap (elemScales s x d)
    if (src ++ codes).any (fun p => (badAt s x.ctx p.loc 1).isSome) then .error (stMemerr, noteBad (badKeys s x.ctx (src ++ codes) 1) s)
    else
      let s := foldKeys (placeKeys codes) f
      let s := s.setItem id { x with elems := rest, puts := x.puts ++ done.flatMap (elemPuts s x d rag) }
      .ok (consumeLines x d done rest s)
  | _ => .ok s

/-- The state after reads, or the copy's end. -/
def afterReads (id : Nat) (r : Except (Word16 × State) State) : Eff :=
  match r with
  | .ok s => .ok s
  | .error (st, s) => finishItem id st s

/-- A write to memory, as against one to the scratchpad. -/
def putInMemory (p : Put) : Bool := match p.loc with | .phys _ => true | .scr _ => false

/-- The words that a copy can write: every write of the copy to the word is formed, so that the word comes wholly from this
copy or from another write (R284). -/
def writableWords (x : Item) : List Loc :=
  let later := x.elems.flatMap (fun e => sideWords e.dst)
  (((x.puts.filter putInMemory).map (fun p => wordLoc p.loc)).eraseDups).filter (fun w => !later.contains w)

/-- Makes some of an item's writes to memory before its visible event: of the words it can write, those that `pick` takes, in
no order (R260, R284). -/
def writeSome (id : Nat) (pick : Nat → Bool) (s : State) : State :=
  let x := s.item id
  let ws := writableWords x
  let mine (p : Put) : Bool := putInMemory p && ws.contains (wordLoc p.loc) && pick (ws.idxOf (wordLoc p.loc))
  writeItem id (x.puts.filter mine) (s.setItem id { x with puts := x.puts.filter (fun p => !mine p) })

/-- The translation of the sides that lie with owners, at the start of an item (R253, R296). -/
def startItem (id : Nat) (s : State) : Eff :=
  let x := s.item id
  match x.kind with
  | .copy d _ =>
    let (ns, nd) := copyNibbles s x d
    let s := seqAll (fun va s => touchLease x va s) x.reaches s
    match startElems s x d ns nd x.elems with
    | .ok es => .ok (s.setItem id { x with elems := es, phase := .started })
    | .error st => finishItem id st s
  | _ => .ok (s.setItem id { x with phase := .started })

/-- `ITEM_START`: an item starts when those before it have ended (R253, R267); in later turns it reads and writes some words
of its elements, as free values say (R260). -/
def execItemStart (id : Nat) (s : State) : Out :=
  itemEvent id (fun x => !isRemote x && ownersAnswer s x && ([.started, .read, .performed].contains x.phase || (x.phase == .queued && allEnded s x.waits))) (fun s =>
    let x := s.item id
    if x.phase = .queued then startItem id s
    else do
      let s ← afterReads id (readSome id (fun e w => Config.freeNat s.choice (e * 16 + w + 1) % 2 == 1) s)
      .ok (if (Table.find? s.items id).isSome then writeSome id (fun w => Config.freeNat s.choice (2 ^ 60 + w) % 2 == 1) s else s)) s

/-- CP falls when a source is reusable (R252); for a saved block the fall waits for its resumption (R254). -/
def dropCp (id : Nat) (s : State) : State :=
  let x := s.item id
  let s := s.setItem id { x with counted := false }
  if !x.counted || x.orphan then s
  else if blockSaved s x then mapBlock (x.block.getD 0) (fun b => { b with late := b.late ++ [⟨x.gidx, 1, 0, 0, []⟩] }) s
  else mapStream x.issuer (fun y => { y with cp := y.cp - 1 }) s

/-- `DESTINATION_LINE_FULL`: a scratch destination line takes its bytes once it is empty, where the copy waits for that,
and every source byte for it is read; it is then full (R263). -/
def execDestinationLineFull (id line : Nat) (s : State) : Out :=
  let waits (x : Item) : Bool := !x.orphan && (x.sched || match x.kind with | .copy d _ => d.waite | _ => false)
  let isEmpty (x : Item) : Bool := match x.ctx.block with | some b => (s.block b).empty.contains line | none => true
  itemEvent id (fun x => (x.phase == .started || x.phase == .read) && x.lines.contains line && ownersAnswer s x &&
      !x.elems.any (fun e => (sideLines e.dst).contains line) && (!waits x || isEmpty x)) (fun s =>
    let x := s.item id
    let mine (p : Put) : Bool := match p.loc with | .scr o => o / 128 == line | .phys _ => false
    let now := x.puts.filter mine
    let s := s.setItem id { x with puts := x.puts.filter (fun p => !mine p), lines := x.lines.filter (· != line), xfer := x.xfer + putNibbles now }
    .ok (fillLines x.ctx.block [line] (applyPuts x.ctx.block now s))) s

/-- `RFLUSH`; one that completes on the handle of a lease under notice gives that notice: the items that have reached the
range are remembered, and the notice phaser is signalled once (R218, R279). -/
def giveNotice (h : Nat) (s : State) : State :=
  let p := agentPkg s.cur
  let named := (s.pkg p).jroots.any (fun r => (List.range 32).any (fun i => readCtl s p (r.2.toNat % 2 ^ 36 + 0x4000 + 4 * i) 4 == h))
  let bs := (leaseBytes s p h).1
  if named && numAt bs 0x11 1 == 2 && (Table.find? (s.pkg p).leases h).isNone then
    let reached := (s.items.filter (fun x => x.2.phase != .queued && x.2.peers.contains p)).map (·.1)
    signalPhaser p (BitVec.ofNat 32 (numAt bs 0x14 4)) (fun _ => false) 4 (mapPkg p (fun k => { k with leases := Table.put k.leases h reached }) s)
  else s

def execRflush (a : SReg) (s : State) : Out :=
  finish s ((rflush a s).map (fun s' => if reg s a = 0 then s' else giveNotice (reg s a).toNat s'))

/-- `LEASE_RECLAIM`: the lender takes a range back when every item accepted before the notice has ended (R279). -/
def execLeaseReclaim (pkg handle : Nat) (s : State) : Out :=
  finishEvent s (match Table.find? (s.pkg pkg).leases handle with
    | none => .error .stall
    | some ids => if allEnded s ids then .ok (mapPkg pkg (fun k => { k with leases := Table.del k.leases handle }) s) else .error .stall)

end Sys2Proof.Machine
end

