-- ==== Sys2Proof/Machine/Collectives.lean ====
section
/-! DEFINITION. Collectives and in-switch reduction slots; the events that end the source and the work of items (R230, R252,
R268 to R277). -/

namespace Sys2Proof.Machine

/-- The fields of a collective descriptor, with its form from the instruction and its member table (R268, R269). -/
def collOf (w : LongWord) (bs : List Byte) (memb : List Nat) : CollDesc where
  sbuf := BitVec.ofNat 64 (numAt bs 0 8)
  rbuf := BitVec.ofNat 64 (numAt bs 8 8)
  count := numAt bs 0x10 4
  rank := numAt bs 0x16 1
  insw := numAt bs 0x17 1 % 2 == 1
  memb := memb
  cid := numAt bs 0x20 4
  seq := numAt bs 0x24 4
  shandle := numAt bs 0x28 4
  dhandle := numAt bs 0x2C 4
  deadline := numAt bs 0x30 4
  phaser := BitVec.ofNat 32 (numAt bs 0x34 4)
  crec := BitVec.ofNat 64 (numAt bs 0x38 8)
  op := (w.aux.extractLsb' 3 3).toNat
  rop := (w.aux.extractLsb' 6 2).toNat
  ty := w.ty.toNat

/-- An address in the tensor space of a package. -/
def isLocalTensor (pkg : Nat) (va : Word64) : Bool := match spaceOf va with | some (.tensor _ p _) => p == pkg | _ => false

/-- The combination of form, reduction, type and switch reduction is one of R269 (log entry 25, DEDUCED). -/
def collCombOk (d : CollDesc) : Bool :=
  let float := decide (d.ty = 0 ∨ d.ty = 1 ∨ d.ty = 3 ∨ d.ty = 4)
  let int := decide (d.ty = 7 ∨ d.ty = 8 ∨ d.ty = 11 ∨ d.ty = 12)
  (if d.op < 2 then float || (int && d.rop != 2) else d.rop == 0) && (!d.insw || (d.op == 0 && [1, 3, 4, 7, 11].contains d.ty))

/-- The fields of a collective descriptor but its member table are valid (R268 to R270). -/
def collFieldsOk (pkg : Nat) (bs : List Byte) (d : CollDesc) : Bool :=
  let n := numAt bs 0x14 2
  let ragged := decide (3 ≤ d.op)
  isLocalTensor pkg d.sbuf && isLocalTensor pkg d.rbuf && decide (1 ≤ n) && decide (n ≤ 256) && decide (d.rank < n) &&
    decide (numAt bs 0x17 1 < 2) && controlOn 2 (BitVec.ofNat 64 (numAt bs 0x18 8)) && (d.crec == 0 || controlOn 64 d.crec) &&
    (if ragged then d.count == 0 && d.shandle != 0 && d.dhandle != 0 else d.shandle == 0 && d.dhandle == 0) &&
    (d.insw == (d.deadline != 0)) && collCombOk d

/-- Reads a member table: its packages, each entry's upper byte zero (R268). -/
def readMembers (s : State) (c : Ctx) (va : Word64) : List Nat → Except Stop (List Nat)
  | [] => .ok []
  | i :: r => do
    let a := va + BitVec.ofNat 64 (2 * i)
    let p ← place s c {} a 2
    match badAt s c p.loc 2 with
    | some d => raise .memerr d a
    | none => do
      let x := leNat (readPlace (foldAt p.loc s) c p 2)
      raiseIf (decide (256 ≤ x)) .protection 0x19
      let rest ← readMembers s c va r
      .ok (x :: rest)

/-- The member table agrees with the issuer and with the reach of the form (R270). -/
def membersOk (pkg : Nat) (scope : Nat) (d : CollDesc) : Bool :=
  d.memb.getD d.rank 256 == pkg % 256 && (!(d.insw || scope == 4) || d.memb.all (fun p => panelOf p == panelOf pkg))

/-- Numbers a place of a ragged form: segment, position in it, index in the other dimensions (R272, R273). -/
def raggedKey (j q o : Nat) : Nat := (j * 2 ^ 32 + q) * 2 ^ 160 + o

/-- The sizes of the dimensions that are not ragged, 1 for RDIM. -/
def otherSizes (r : Ragged) : List Nat := (List.range r.ndim).map (fun d => if d = r.rdim then 1 else r.size.getD d 0)

/-- Whether a position along RDIM is moved when the record is traversed box by box: under SPLIT boxes end with their segment;
else it must lie in the segment in which its box begins (R224, R257). DEDUCED: log entry 57. -/
def positionMoved (r : Ragged) (p : Nat) : Bool :=
  let lo := r.bounds.getD 0 0
  let t := max 1 (r.tile.getD r.rdim 1)
  r.policy == 1 || inSegment r (lo + (p - lo) / t * t) p

/-- The elements of a record's segments that `own` selects, those that are moved or those that are not: their keys and their
distances from the record's base in the record's units (R224, R272). DEDUCED: log entry 57. -/
def raggedPlaces (r : Ragged) (moved : Bool) (own : Nat → Bool) (key : Nat → Nat → Nat → Nat) : List (Nat × Int) :=
  (List.range r.nseg).flatMap (fun j =>
    if own j then
      let lo := r.bounds.getD j 0
      ((List.range (r.bounds.getD (j + 1) 0 - lo)).filter (fun q => positionMoved r (lo + q) == moved)).flatMap (fun q =>
        (List.range ((otherSizes r).foldl (· * ·) 1)).map (fun o =>
          (key j q o, strideOf r ((List.range r.ndim).map (fun d => if d = r.rdim then lo + q else (digits (otherSizes r) o).getD d 0)))))
    else [])

/-- The elements that a member's record holds for a ragged form: all its segments in an all-to-all, the shards of the member's
package in a permute, numbered so that sender and receiver name an element alike (R272, R273). -/
def memberPlaces (d : CollDesc) (r : Ragged) (moved : Bool) : List (Nat × Int) :=
  if d.op = 3 then raggedPlaces r moved (fun _ => true) raggedKey
  else raggedPlaces r moved (fun j => r.own.getD j 256 == d.memb.getD d.rank 256) (fun j q o => raggedKey 0 (r.bounds.getD j 0 + q) o)

/-- The keys and positions of the elements that a member sends (R269, R272, R273). -/
def sendPositions (d : CollDesc) (rag : Option Ragged) (n : Nat) : List (Nat × Nat) :=
  let at_ (i : Nat) : Nat := nibblePos d.sbuf (i * n)
  match d.op, rag with
  | 0, _ => (List.range d.count).map (fun i => (i, at_ i))
  | 1, _ => (List.range (d.memb.length * d.count)).map (fun i => (i, at_ i))
  | 2, _ => (List.range d.count).map (fun i => (d.rank * d.count + i, at_ i))
  | _, some r => (memberPlaces d r true).map (fun x => (x.1, nibblePos d.sbuf (inNibbles n x.2)))
  | _, none => []

/-- The keys and positions of the elements that a member receives. -/
def receivePositions (d : CollDesc) (rag : Option Ragged) (n : Nat) : List (Nat × Nat) :=
  let at_ (i : Nat) : Nat := nibblePos d.rbuf (i * n)
  match d.op, rag with
  | 0, _ => (List.range d.count).map (fun i => (i, at_ i))
  | 1, _ => (List.range d.count).map (fun i => (d.rank * d.count + i, at_ i))
  | 2, _ => (List.range (d.memb.length * d.count)).map (fun i => (i, at_ i))
  | _, some r => (memberPlaces d r true).map (fun x => (x.1, nibblePos d.rbuf (inNibbles n x.2)))
  | _, none => []

/-- The extent of positions of elements of `n` nibbles. -/
def extent (n : Nat) (ps : List (Nat × Nat)) : Option (Nat × Nat) :=
  ps.foldl (fun e p => match e with
    | none => some (p.2, p.2 + n)
    | some (lo, hi) => some (min lo p.2, max hi (p.2 + n))) none

/-- SBUF and RBUF overlap in a way that R270 forbids. DEDUCED: log entry 62. -/
def overlapBad (d : CollDesc) (n : Nat) (snd rcv : List (Nat × Nat)) : Bool :=
  if d.sbuf = d.rbuf then d.op != 0 && d.op != 4
  else match extent n snd, extent n rcv with
    | some (a, b), some (c, e) => decide (a < e ∧ c < b)
    | _, _ => false

/-- The keyed sides of a member's buffer. -/
def keyedSides (s : State) (x : Item) (write : Bool) (ty n : Nat) : List (Nat × Nat) → Except Stop (List (Nat × Side))
  | [] => .ok []
  | (k, p) :: r => do
    let a ← ownSide s x write ty n p
    let rest ← keyedSides s x write ty n r
    .ok ((k, a) :: rest)

/-- The nibbles of a collective's element. -/
def collNibbles (c : Ctx) (d : CollDesc) : Nat := if 16 ≤ d.ty then narrowNibbles (slotOf c.slots (d.ty - 16)) else 2 * tyBytes d.ty

/-- A collective's record, where its form takes one: NMEM segments in an all-to-all, owners in a permute (R272, R273). -/
def collRecord (c : Ctx) (d : CollDesc) (h : Nat) (s : State) : Except Stop (Option Ragged × State) :=
  if d.op < 3 then .ok (none, s)
  else do
    let (r, s) ← snapshot c h s
    raiseIf ((d.op == 3 && r.nseg != d.memb.length) || (d.op == 4 && r.own.length != r.nseg)) .protection 0x19
    raiseIf (r.policy == 2 && boxCrosses r) .ragged 6
    .ok (some r, s)

/-- `COLL` (R269, R270): its checks in order, then its item. -/
def execColl (w : LongWord) (s : State) : Out :=
  finish s (do
    let c := selfCtx s
    let va := reg s w.a
    let bs ← readDesc s c va
    let d0 := collOf w bs []
    raiseIf (!collFieldsOk c.pkg bs d0) .protection 0x19
    let memb ← readMembers s c (BitVec.ofNat 64 (numAt bs 0x18 8)) (List.range (numAt bs 0x14 2))
    let d := collOf w bs memb
    raiseIf (!membersOk c.pkg w.scope.toNat d) .protection 0x19
    let s := foldReads c (va :: (List.range d.memb.length).map (fun i => BitVec.ofNat 64 (numAt bs 0x18 8 + 2 * i))) s
    let n := collNibbles c d
    raiseIf (d.sbuf == d.rbuf && d.op != 0 && d.op != 4) .protection 0x1A
    let (srag, s) ← collRecord c d d.shandle s
    let (drag, s) ← collRecord c d d.dhandle s
    let snd := sendPositions d srag n
    let rcv := receivePositions d drag n
    raiseIf (overlapBad d n snd rcv) .protection 0x1A
    checkPhaser c.pkg (isMe s) true d.phaser s
    let q := (w.aux.extractLsb' 0 3).toNat
    let x := { freshItem s s.cur (.coll d srag drag) c with
      scope := w.scope.toNat, owner := some (queueOwner s s.cur, q), counted := !isCtl s.cur, statusReg := statusOf w, phaser := d.phaser,
      peers := if d.insw then [] else (d.memb.filter (· != c.pkg)).eraseDups }
    let sends ← keyedSides s x false d.ty n snd
    let outs ← keyedSides s x true d.ty n rcv
    let p ← recordPlace s c d.crec
    stallIf (x.counted && decide (31 ≤ (self s).cp))
    stallIf (queueFull s (queueOwner s s.cur, q))
    let s ← issueItem { x with sends := sends, outs := outs, crec := p } s
    .ok (advance 8 s))

/-- The descriptor of a collective item. -/
def collDesc (x : Item) : Option CollDesc := match x.kind with | .coll d _ _ => some d | _ => none

/-- The key by which members are matched (R270). -/
def collKey (x : Item) (d : CollDesc) : CollKey := (jobOf x.ctx.ctxid, d.cid, d.seq)

/-- Whether an arrival of a key agrees with the first: members, count, operation, combination, type and, in a permute, the
shards (R270). DEDUCED: log entry 56. -/
def collAgrees (x y : ItemKind) : Bool :=
  match x, y with
  | .coll d srag drag, .coll e srag' drag' =>
    let len (r : Option Ragged) : List Nat := match r with | some r => r.bounds | none => []
    d.memb.length == e.memb.length && d.count == e.count && d.op == e.op && d.rop == e.rop && d.ty == e.ty &&
      (d.op != 4 || (len srag == len srag' && len drag == len drag'))
  | _, _ => false

/-- Ends the arrived items of a key that have not ended with BOUND. -/
def endAll (ids : List Nat) (st : Word16) (s : State) : Eff :=
  seqEff (fun i s => if (Table.find? s.items i).isSome then finishItem i st s else .ok s) ids s

/-- A share that a permute in place may not send (R273). DEDUCED: log entry 58. -/
def shareTooLarge (x : Item) (d : CollDesc) : Bool :=
  d.op == 4 && d.sbuf == d.rbuf && decide (2 ^ 26 * 2 < x.sends.length * collNibbles x.ctx d)

/-- `COLLECTIVE_ARRIVAL`: a member reaches the collective engine (R270). -/
def execCollectiveArrival (id : Nat) (s : State) : Out :=
  itemEvent id (fun x => x.phase == .started && (match collDesc x with | some d => !d.insw | none => false)) (fun s =>
    let x := s.item id
    let d := (collDesc x).getD default
    let k := collKey x d
    let g := Table.findD s.colls k ⟨x.kind, []⟩
    if s.closed.contains k then finishItem id stBound s
    else if x.peers.any (fun p => (s.pkg x.ctx.pkg).lost.contains p) then finishItem id stPeerLost s
    else if !collAgrees g.first x.kind || shareTooLarge x d then
      endAll (g.items ++ [id]) stBound { s with closed := s.closed ++ [k], colls := Table.del s.colls k }
    else .ok ({ s with colls := Table.put s.colls k { g with items := g.items ++ [id] } }.setItem id { x with phase := .arrived })) s

/-- A floating type in the wide form of a reduction: FP64, or FP32 (R271, R274). -/
def wideFmt (t : Nat) : Fmt := if t = 0 then fmt64 else fmt32

/-- An element in the wide form (R271). -/
def widenElem (t x : Nat) : Nat := if tyIsFloat t then (wideFmt t).round rneMode ((stdFmt t).decode x) else x

/-- The first contribution of an element (R269, R271). -/
def combFirst (t rop x : Nat) : Nat :=
  if rop = 2 then (if ((wideFmt t).decode x).isNan then 0 else x % 2 ^ ((wideFmt t).width - 1)) else x

/-- The combination of a contribution (R269, R271). -/
def comb (t rop a b : Nat) : Nat :=
  if tyIsFloat t then
    let f := wideFmt t
    match rop with
    | 0 => f.round rneMode (Num.add false (f.decode a) (f.decode b))
    | 1 => fminmax f true a b
    | 2 => if (f.decode b).isNan then a else fminmax f true a (b % 2 ^ (f.width - 1))
    | _ => fminmax f false a b
  else
    match rop with
    | 0 => (a + b) % 2 ^ (8 * tyBytes t)
    | 1 => if intOf t a ≤ intOf t b then b else a
    | _ => if intOf t a ≤ intOf t b then a else b

/-- The reduced element from contributions in order; none gives nothing (R271, R274). -/
def reduceElem (t rop : Nat) (xs : List Nat) : Option Nat :=
  match xs.map (widenElem t) with
  | [] => none
  | x :: r =>
    let v := r.foldl (comb t rop) (combFirst t rop x)
    some (if tyIsFloat t then (stdFmt t).round rneMode ((wideFmt t).decode v) else v)

/-- NaN contributions to an element that `.amax` ignores. -/
def ignoredNans (t rop : Nat) (xs : List Nat) : Nat :=
  if rop = 2 then (xs.filter (fun x => ((stdFmt t).decode x).isNan)).length else 0

/-- The element of a key in what a member sent. -/
def sentAt (x : Item) (k : Nat) : Option Nat := (x.data.find? (fun e => e.1 == k)).map (·.2)

/-- The member items of a key in rank order. -/
def byRank (s : State) (ids : List Nat) (n : Nat) : List Item :=
  (List.range n).filterMap (fun r => (ids.map s.item).find? (fun x => (match collDesc x with | some d => d.rank == r | none => false)))

/-- What a member receives at a key, and the NaN contributions ignored (R269, R271 to R273). -/
def receivedAt (ms : List Item) (d : CollDesc) (k : Nat) : Option Nat × Nat :=
  match d.op with
  | 0 | 1 =>
    let xs := ms.filterMap (fun m => sentAt m k)
    (reduceElem d.ty d.rop xs, ignoredNans d.ty d.rop xs)
  | 3 =>
    let from_ := k / 2 ^ 192
    ((ms[from_]?).bind (fun m => sentAt m (d.rank * 2 ^ 192 + k % 2 ^ 192)), 0)
  | _ => ((ms.findSome? (fun m => sentAt m k)), 0)

/-- Segment lengths of an all-to-all between two ranks differ (R272). -/
def lengthsDiffer (a b : Item) : Bool :=
  match a.kind, b.kind with
  | .coll d (some r) _, .coll e _ (some q) =>
    let len (x : Ragged) (j : Nat) : Nat := x.bounds.getD (j + 1) 0 - x.bounds.getD j 0
    len r e.rank != len q d.rank
  | _, _ => false

/-- The writes of a member's received elements. -/
def receivedPuts (x : Item) (d : CollDesc) (vals : List (Side × Option Nat)) : List Put :=
  vals.flatMap (fun v => match v.2 with | some raw => sidePuts (collNibbles x.ctx d) v.1 raw | none => [])

/-- Gives one member its result (R271 to R273). -/
def performMember (ms : List Item) (id : Nat) (s : State) : State :=
  let x := s.item id
  let d := (collDesc x).getD default
  let got := x.outs.map (fun o => (o.2, receivedAt ms d o.1))
  let bound := d.op == 3 && ms.any (fun m => lengthsDiffer m x || lengthsDiffer x m)
  s.setItem id { x with
    phase := .performed
    puts := receivedPuts x d (got.map (fun g => (g.1, g.2.1)))
    nan := (got.map (fun g => g.2.2)).foldl (· + ·) 0
    status := if bound then stBound else stOK }

/-- Performs a collective once every member has arrived and been read (R270, R271).
DESIGN CHOICE: log entry 102. -/
def performColl (k : CollKey) (s : State) : State :=
  let g := Table.findD s.colls k default
  let ids := g.items
  let n := match g.first with | .coll d _ _ => d.memb.length | _ => 0
  if ids.length = n ∧ n ≠ 0 ∧ ids.all (fun i => (Table.find? s.items i).isSome && (s.item i).phase == .read) = true then
    let ms := byRank s ids n
    seqAll (performMember ms) ids { s with closed := s.closed ++ [k], colls := Table.del s.colls k }
  else s

/-- The bits of a record's pad value in a type (R224). DEDUCED: log entry 48. -/
def padRaw (c : Ctx) (ty : Nat) (r : Ragged) : Nat :=
  let v := fmt32.decode r.padw.toNat
  if r.padmode = 0 then 0
  else if isNarrow ty then ((slotOf c.slots (ty - 16)).getD (slotFmt 0)).round rneMode v
  else if tyIsFloat ty then (stdFmt ty).round rneMode v
  else wrapNat (8 * tyBytes ty) (v.toType rneMode (tySigned ty) (8 * tyBytes ty))

/-- What a member sends for the positions of its record that are not read: the pad value (R224). -/
def padSent (x : Item) : List (Nat × Nat) :=
  match x.kind with
  | .coll d (some r) _ => (memberPlaces d r false).map (fun p => (p.1, padRaw x.ctx d.ty r))
  | _ => []

/-- Reads a collective's source whole (R260). -/
def readColl (id : Nat) (s : State) : Eff :=
  let x := s.item id
  if x.sends.any (fun e => sideBad s x.ctx e.2) then
    finishItem id stMemerr (noteBad ((x.sends.flatMap (fun e => sideBadKeys s x.ctx e.2)).take 1) s)
  else
    let s := foldKeys (x.sends.flatMap (fun e => sideKeys e.2)) s
    let n := match collDesc x with | some d => collNibbles x.ctx d | none => 2
    let s := mapItem id (fun y => { y with data := x.sends.map (fun e => (e.1, sideRaw n e.2 (sideBytes s x.ctx e.2))) ++ padSent x, phase := .read }) (dropCp id s)
    .ok (match collDesc x with | some d => if d.insw then s else performColl (collKey x d) s | none => s)

/-- `ITEM_SOURCE_REUSABLE`: the rest of the source is read, and CP falls (R252). -/
def execItemSourceReusable (id : Nat) (s : State) : Out :=
  itemEvent id (fun x => match x.kind with
    | .copy _ _ => x.phase == .started && ownersAnswer s x
    | .coll _ _ _ => x.phase == .arrived
    | _ => false) (fun s =>
    match (s.item id).kind with
    | .coll _ _ _ => readColl id s
    | _ => do
      let s ← afterReads id (readSome id (fun _ _ => true) s)
      if (Table.find? s.items id).isSome && (s.item id).elems == [] then .ok (mapItem id (fun x => { x with phase := .read }) (dropCp id s))
      else .ok s) s

/-- Whether the signal of an item's visible event would put its issuer two phases ahead, and so waits for the open phase to
complete (R169, R261). DEDUCED: log entry 99. -/
def signalHeld (s : State) (x : Item) : Bool :=
  let r := handleRef x.ctx.pkg x.phaser
  x.phaser != 0 && handleLive s x.ctx.pkg x.phaser && !(s.pkg x.ctx.pkg).lost.contains r.pkg &&
    (phaserAt s r).members.any (fun m => isMember x.issuer (if isMcc x.issuer then none else x.block) m && m.signals && decide ((phaserAt s r).phase + 2 ≤ m.next))

/-- `ITEM_VISIBLE`: every destination byte has been written; the item ends (R252). -/
def execItemVisible (id : Nat) (s : State) : Out :=
  itemEvent id (fun x => match x.kind with
    | .copy _ _ => x.phase == .read && x.lines == [] && ownersAnswer s x && !signalHeld s x
    | .coll _ _ _ => x.phase == .performed && !signalHeld s x
    | _ => false) (fun s =>
    let x := s.item id
    finishItem id x.status (writeItem id (x.puts.filter putInMemory) (s.setItem id { x with puts := [] }))) s

/-- The panel and die of an item's in-switch slot (R274). -/
def slotHome (x : Item) (d : CollDesc) : Nat × Nat := (panelOf x.ctx.pkg, d.cid % 16)

/-- Changes the slots of a panel. -/
def mapPanel (n : Nat) (f : Panel → Panel) (s : State) : State := s.setPanel n (f (s.panel n))

/-- An order of the numbers below `n` that free values name: the order of arrival of one chunk (R274).
DESIGN CHOICE: log entry 55. -/
def freeOrder (choice salt : Nat) : Nat → List Nat → List Nat
  | 0, _ => []
  | fuel + 1, l =>
    if l = [] then []
    else
      let i := Config.freeNat choice (salt * 512 + l.length) % l.length
      l.getD i 0 :: freeOrder choice salt fuel (removeAt l i)

/-- A slot's result at an element: its contributors combined in the order in which their chunks arrived; with no
contributor +0 for `.amax`, its identity, else a free value (R269, R274, R275). DESIGN CHOICE: log entry 55. -/
def slotResult (s : State) (c : Ctx) (sl : Slot) (k : Nat) : Nat :=
  let n := collNibbles c sl.first
  let chunk := k * n / 512
  let order := freeOrder s.choice (chunk + 1) sl.gave.length (List.range sl.gave.length)
  let xs := order.filterMap (fun i => (sl.gave.getD i (0, [])).2.find? (fun e => e.1 == k) |>.map (·.2))
  (reduceElem sl.first.ty sl.first.rop xs).getD (if sl.first.rop = 2 then 0 else Config.freeNat s.choice (2 ^ 40 + k) % 2 ^ (4 * n))

/-- Gives one arrived member a slot's result. -/
def performSlotMember (sl : Slot) (st : Word16) (id : Nat) (s : State) : State :=
  if (Table.find? s.items id).isSome then
    let s := dropCp id s
    let x := s.item id
    let d := (collDesc x).getD default
    let miss := (List.range sl.first.memb.length).filter (fun r => !sl.gave.any (fun g => g.1 == r))
    let nans := (x.outs.map (fun o => ignoredNans d.ty d.rop (sl.gave.filterMap (fun g => (g.2.find? (fun e => e.1 == o.1)).map (·.2))))).foldl (· + ·) 0
    s.setItem id { x with
      phase := .performed
      status := st
      nan := nans
      missing := if st = stPartial then miss else []
      puts := receivedPuts x d (x.outs.map (fun o => (o.2, some (slotResult s x.ctx sl o.1)))) }
  else s

/-- Completes a slot: its result goes to every member that has arrived, it is freed, and its SEQ becomes the watermark
(R275). -/
def completeSlot (panel i : Nat) (st : Word16) (s : State) : State :=
  let sl := (s.panel panel).slots.getD i default
  let s := seqAll (performSlotMember sl st) sl.arrived s
  mapPanel panel (fun p => { p with
    slots := removeAt p.slots i
    marks := Table.put p.marks (sl.die, sl.key.1, sl.key.2.1) sl.key.2.2 }) s

/-- Frees a slot whose members disagree, each item ending with BOUND (R270). DEDUCED: log entry 59. -/
def breakSlot (panel i : Nat) (s : State) : Eff :=
  let sl := (s.panel panel).slots.getD i default
  endAll sl.arrived stBound (mapPanel panel (fun p => { p with
    slots := removeAt p.slots i
    marks := Table.put p.marks (sl.die, sl.key.1, sl.key.2.1) sl.key.2.2 }) s)

/-- Whether an arrival at a slot agrees with the first (R270). -/
def slotAgrees (d e : CollDesc) : Bool := d.memb.length == e.memb.length && d.count == e.count && d.op == e.op && d.rop == e.rop && d.ty == e.ty

/-- The slot of an item's key, by its number in the panel (R274). -/
def slotIndex (s : State) (x : Item) : Option Nat :=
  let d := (collDesc x).getD default
  (s.panel (slotHome x d).1).slots.findIdx? (fun sl => sl.die == (slotHome x d).2 && sl.key == collKey x d)

/-- A member's last chunk arrives: it has contributed; with the last member the slot completes (R274, R275). -/
def giveSlot (id : Nat) (s : State) : Eff :=
  let x := s.item id
  let d := (collDesc x).getD default
  let pn := (slotHome x d).1
  match slotIndex s x with
  | none => .error .stall
  | some i =>
    let sl := (s.panel pn).slots.getD i default
    let sl' : Slot := { sl with gave := sl.gave ++ [(d.rank, x.data)] }
    let s := mapPanel pn (fun p => { p with slots := p.slots.set i sl' }) (s.setItem id { x with phase := .contributed })
    .ok (if sl'.gave.length = sl'.first.memb.length then completeSlot pn i stOK s else s)

/-- A member that has arrived; data of one chunk arrive with it (R274). -/
def afterArrival (id : Nat) (s : State) : Eff :=
  let d := (collDesc (s.item id)).getD default
  if d.count * collNibbles (s.item id).ctx d ≤ 512 then do
    let s ← readColl id s
    if (Table.find? s.items id).isSome then giveSlot id s else .ok s
  else .ok s

/-- `SWITCH_ARRIVAL`: a member's arrival at its slot, and in a later turn the arrival of its last chunk (R270, R274 to
R276). -/
def execSwitchArrival (id : Nat) (s : State) : Out :=
  itemEvent id (fun x => (x.phase == .started || x.phase == .read) && (match collDesc x with | some d => d.insw | none => false)) (fun s =>
    let x := s.item id
    let d := (collDesc x).getD default
    let (pn, die) := slotHome x d
    let k := collKey x d
    if x.phase = .read then giveSlot id s
    else if (match Table.find? (s.panel pn).marks (die, k.1, k.2.1) with | some w => decide ((w + 2 ^ 32 - d.seq) % 2 ^ 32 < 2 ^ 31) | none => false) then
      finishItem id stExpired s
    else
      match slotIndex s x with
      | some i =>
        let sl := (s.panel pn).slots.getD i default
        let s := mapPanel pn (fun p => { p with slots := p.slots.set i { sl with arrived := sl.arrived ++ [id] } }) s
        if slotAgrees d sl.first then afterArrival id (s.setItem id { x with phase := .arrived }) else breakSlot pn i s
      | none =>
        if 2048 ≤ ((s.panel pn).slots.filter (fun sl => sl.die == die)).length then .error .stall
        else afterArrival id (mapPanel pn (fun p => { p with slots := p.slots ++ [⟨die, k, d, [id], [], d.deadline⟩] }) (s.setItem id { x with phase := .arrived }))) s

/-- `SWITCH_SLOT_DEADLINE`: a slot whose deadline has passed completes with what it has (R275). -/
def execSwitchSlotDeadline (panel slot : Nat) (s : State) : Out :=
  finishEvent s (match (s.panel panel).slots[slot]? with
    | none => .error .stall
    | some sl => if sl.left = 0 then .ok (completeSlot panel slot stPartial s) else .error .stall)

end Sys2Proof.Machine
end

