-- ==== Sys2Proof/Machine/System.lean ====
section
/-! DEFINITION. Waiting on counters, system registers, the system family and the privileged forms of control cores (R112 to
R120, R299, R300, R348). -/

namespace Sys2Proof.Machine

/-- Instructions that control cores reject (R63). -/
def notOnCtl (s : State) : Except Stop Unit := raiseIf (isCtl s.cur) .illegal 0

/-- `WAIT` (R112). -/
def execWait (ld st : BitVec 6) (cp tl : BitVec 5) (s : State) : Out :=
  finish s (do
    notOnCtl s
    stallIf (!countersWithin ld.toNat st.toNat cp.toNat tl.toNat (self s))
    .ok (advance 4 s))

/-- Leaves the active and pending sets of the issue slot (R113, R170). -/
def leaveSlot (r : Run) (s : State) : State :=
  mapSelfGroup (fun g => { g with slot := .away, age := 0 }) (mapSelf (fun x => { x with run := r }) s)

/-- `WAITY` (R113): it resumes at the next instruction. One that stalls on the segment queue is tested afresh at each turn.
DESIGN CHOICE: log entry 110. -/
def execWaity (ld st : BitVec 6) (cp tl : BitVec 5) (s : State) : Out :=
  finish s (do
    notOnCtl s
    raiseIf (isGroup s.cur && sysMode s s.cur) .illegal 0
    if countersWithin ld.toNat st.toNat cp.toNat tl.toNat (self s) then .ok (advance 4 s)
    else if isMcc s.cur ∨ (selfGroup s).segq ≠ [] then .error .stall
    else .ok (leaveSlot (.awayWait ld.toNat st.toNat cp.toNat tl.toNat) (advance 4 s)))

/-- The cycle count of an agent's core: its own, ahead of the package's cycles by what the core keeps (R25).
DESIGN CHOICE: log entry 19. -/
def cycOf (s : State) (ag : Agent) : Word64 :=
  (s.pkg (agentPkg ag)).cyc + (match ag with
    | .group p c _ => (s.core (p, c)).ahead
    | .mcc p c => (s.mcc (p, c)).ahead
    | .ctl p i => (s.ctl (p, i)).ahead)

/-- BLKID of a linear block index (R24, R25). -/
def blkid (l : Launch) (index : Nat) : Word64 :=
  let x := index % max 1 l.gridx
  let y := index / max 1 l.gridx % max 1 l.gridy
  let z := index / max 1 (l.gridx * l.gridy)
  BitVec.ofNat 64 (x * 2 ^ 44 + y * 2 ^ 24 + z * 2 ^ 4)

/-- A system register as `MFS` reads it (R25, R114, R115, R430; log entry 11 for registers a control core lacks).
DESIGN CHOICE: log entry 11. -/
def readSys (s : State) (n : Nat) : Word64 :=
  let ag := s.cur
  let x := self s
  let m := (s.pkg (agentPkg ag)).muniment
  let l := match launchOf s ag with | some l => s.launch l | none => default
  let num (k : Nat) : Word64 := BitVec.ofNat 64 k
  match n with
  | 0x01 => cycOf s ag
  | 0x02 => num (agentPkg ag % 256)
  | 0x03 => num (agentDie ag)
  | 0x04 => match ag with
    | .group _ c _ => num ((logicalCore m c).getD 0xFFFF)
    | .mcc _ c => num (0x4000 + (logicalCluster m c).getD 0xFF)
    | .ctl _ i => num (0x8000 + i)
  | 0x05 => match ag with
    | .group _ c _ => num c
    | .mcc _ c => num (0xF00 + c)
    | .ctl _ i => num (0x8000 + i)
  | 0x06 => match ag with
    | .group _ c _ => num ((logicalCluster m (clusterOfCore c)).getD 0xFF)
    | .mcc _ c => num ((logicalCluster m c).getD 0xFF)
    | .ctl _ _ => 0xFF
  | 0x07 => match ag with | .group _ _ w => num w | _ => 0
  | 0x08 => match ag with | .group _ _ _ => num (selfGroup s).gidx | _ => 0
  | 0x09 => match ag with | .group _ _ _ => blkid l (s.block (selfGroup s).block).index | _ => 0
  | 0x0A => if isCtl ag then 0 else num l.recAddr.toNat
  | 0x0B => match ag with | .group _ _ _ => (s.block (selfGroup s).block).partw.zeroExtend 64 | _ => 0
  | 0x0C => if isCtl ag then 0 else l.srseed
  | 0x0D => if isCtl ag then 0 else l.lcode
  | 0x0E => x.mode.zeroExtend 64
  | 0x10 => trapBaseOf s ag
  | 0x11 => x.trappc
  | 0x12 => x.trapcause.zeroExtend 64
  | 0x13 => x.trapaddr
  | 0x14 => match ag with | .group p c _ => (s.core (p, c)).sidebuf | .mcc p c => (s.mcc (p, c)).sidebuf | .ctl _ _ => 0
  | 0x15 => (ctxOf s ag).ptbase
  | 0x16 => (ctxOf s ag).ctxid.zeroExtend 64
  | 0x17 => match ag with | .group p c _ => (s.core (p, c)).savebase | .mcc p c => (s.mcc (p, c)).savebase | .ctl _ _ => 0
  | k => (Vec.get (ctxOf s ag).slots (k - 0x40)).zeroExtend 64

/-- Whether a system register is one of the trap registers (R341). -/
def isTrapReg (n : Nat) : Bool := decide (0x11 ≤ n ∧ n ≤ 0x13)

/-- Registers that only system mode reads (R114). -/
def sysPriv (n : Nat) : Bool := n == 0x05 || (decide (0x10 ≤ n) && decide (n ≤ 0x17))

/-- `MFS` (R114, R363). -/
def execMfs (d : SReg) (num : BitVec 14) (s : State) : Out :=
  finish s (do
    raiseIf (!mfsOk num.toNat) .illegal 0
    raiseIf (sysPriv num.toNat && !sysMode s s.cur) .priv 0
    if isTrapReg num.toNat && trapRegBad s s.cur then .ok (areaFault s.cur stMemerr (recordBase s s.cur) s)
    else .ok (advance 4 (setReg d (readSys s num.toNat) s)))

/-- A value that PTBASE accepts (R294). -/
def ptbaseOk (pkg : Nat) (v : Word64) : Bool :=
  v.extractLsb' 42 22 == 0 && v.extractLsb' 0 17 == 0 && (v.extractLsb' 36 6).toNat == pkg % 64

/-- A register of a core, an MCC or a control core that holds a vector or area base. -/
def setBase (n : Nat) (v : Word64) (s : State) : State :=
  match s.cur with
  | .group p c _ => mapCore (p, c) (fun x => if n = 0x10 then { x with trapbase := v } else if n = 0x14 then { x with sidebuf := v } else { x with savebase := v }) s
  | .mcc p c => mapMcc (p, c) (fun x => if n = 0x10 then { x with trapbase := v } else if n = 0x14 then { x with sidebuf := v } else { x with savebase := v }) s
  | .ctl p i => if n = 0x10 then mapCtl (p, i) (fun x => { x with trapbase := v }) s else s

/-- PTBASE and CTXID of a block, an MCC stream or a control core (R430). -/
def setPtbase (v : Word64) (s : State) : State :=
  match s.cur with
  | .group _ _ _ => mapBlock (selfGroup s).block (fun b => { b with ptbase := v }) s
  | .mcc p c => mapMcc (p, c) (fun x => { x with ptbase := v }) s
  | .ctl p i => mapCtl (p, i) (fun x => { x with ptbase := v }) s

def setCtxid (v : Word32) (s : State) : State :=
  match s.cur with
  | .group _ _ _ => mapBlock (selfGroup s).block (fun b => { b with ctxid := v }) s
  | .mcc p c => mapMcc (p, c) (fun x => { x with ctxid := v }) s
  | .ctl p i => mapCtl (p, i) (fun x => { x with ctxid := v }) s

/-- A write to MODE: a change of [1] first commits the served group's buffer (R116). -/
def setMode (v : Word64) (s : State) : State :=
  let s := if v.getLsbD 1 ≠ (self s).mode.getLsbD 1 then commitOwn s.cur s else s
  mapSelf (fun x => { x with mode := v.setWidth 8 }) s

/-- Whether a base lies in control space on a multiple (R25, R341). -/
def baseOk (align : Nat) (v : Word64) : Bool :=
  v.toNat % align == 0 && (match spaceOf v with | some (.control _) => true | _ => false)

/-- The effect of `MTS` in system mode (R116, R294, R341). -/
def writeSys (n : Nat) (v : Word64) (s : State) : Eff :=
  match n with
  | 0x0E => do raiseIf (v.toNat % 256 / 4 != 0 || !v.getLsbD 0) .illegal 0; .ok (setMode v s)
  | 0x10 => do raiseIf (v.toNat % 4096 != 0) .illegal 0; .ok (setBase 0x10 v s)
  | 0x11 => .ok (mapSelf (fun x => { x with trappc := v }) s)
  | 0x12 => .ok (mapSelf (fun x => { x with trapcause := v.setWidth 32 }) s)
  | 0x13 => .ok (mapSelf (fun x => { x with trapaddr := v }) s)
  | 0x14 => do raiseIf (!baseOk 0x8000 v) .illegal 0; .ok (setBase 0x14 v s)
  | 0x15 => do raiseIf (!ptbaseOk (agentPkg s.cur) v) .illegal 0; .ok (setPtbase v s)
  | 0x16 => .ok (setCtxid (v.setWidth 32) s)
  | 0x17 => do raiseIf (!baseOk 0x200000 v) .illegal 0; .ok (setBase 0x17 v s)
  | k => do
    let w : Word32 := v.setWidth 32
    raiseIf (w != 0 && !slotOk w) .illegal 0
    .ok (mapPkg (agentPkg s.cur) (fun p => { p with fmtDefault := Vec.set p.fmtDefault (k - 0x40) w }) s)

/-- `MTS` (R114, R116): a write to a format slot outside a control core is ILLEGAL before PRIV (R72). -/
def execMts (a : SReg) (num : BitVec 14) (s : State) : Out :=
  finish s (do
    raiseIf (!mtsOk num.toNat || (decide (0x40 ≤ num.toNat) && !isCtl s.cur)) .illegal 0
    raiseIf (!sysMode s s.cur) .priv 0
    let s ← writeSys num.toNat (reg s a) s
    .ok (advance 4 s))

def execNop (s : State) : Out := .next (advance 4 s)
def execCyc (d : SReg) (s : State) : Out := .next (advance 4 (setReg d (cycOf s s.cur) s))
def execBrk (s : State) : Out := finish s (raise .brk 0x800)
def execTrap (a : SReg) (s : State) : Out := finish s (raise .brk ((reg s a).toNat % 2 ^ 11))

/-- `TRET` (R117, R348). -/
def execTret (s : State) : Out := finish s (trapReturn s)

/-- `HALT` (R118, R349, R363). -/
def halt (s : State) : Eff :=
  let x := self s
  if sysMode s s.cur && trapRegBad s s.cur then .ok (areaFault s.cur stMemerr (recordBase s s.cur) s)
  else match s.cur with
  | .group p c w =>
    if sysMode s s.cur then .ok (endFailed (.group p c w) (classStatus (x.trapcause.extractLsb' 28 4).toNat) (retire s))
    else do
      stallIf ((selfGroup s).segq != [])
      stallIf (!countersWithin 0 0 0 0 x)
      .ok (endGroup (.group p c w) (retire s))
  | .mcc p c =>
    if sysMode s s.cur then .ok (endGang (p, c) (classStatus (x.trapcause.extractLsb' 28 4).toNat) s)
    else do
      stallIf (x.tl != 0)
      .ok (mapSelf (fun x => { x with run := .ended }) s)
  | .ctl _ _ => do
    raiseIf (!sysMode s s.cur) .priv 0
    .ok (mapSelf (fun x => { x with run := .ended }) s)

def execHalt (s : State) : Out := finish s (halt s)

/-- A form of control cores: ILLEGAL elsewhere, PRIV in user mode (R65, R119, R299). -/
def ctlOnly (s : State) : Except Stop Unit := do
  raiseIf (!isCtl s.cur) .illegal 0
  raiseIf (!sysMode s s.cur) .priv 0

/-- The control core index of the running agent. -/
def selfCtl (s : State) : Nat × Nat := match s.cur with | .ctl p i => (p, i) | a => (agentPkg a, 0)

/-- `SLEEP` (R119, R120). -/
def execSleep (_w : LongWord) (s : State) : Out :=
  finish s (do
    ctlOnly s
    if (s.ctl (selfCtl s)).wake then .ok (advance 8 (mapCtl (selfCtl s) (fun c => { c with wake := false }) s))
    else .ok (mapSelf (fun x => { x with run := .sleeping }) (advance 8 s)))

/-- Wakes a control core: a sleeping one resumes, and the flag is set otherwise (R119, R120). -/
def wakeCtl (p i : Nat) (s : State) : State :=
  if (s.stream (.ctl p i)).run = .sleeping then mapStream (.ctl p i) (fun x => { x with run := .running }) s
  else mapCtl (p, i) (fun c => { c with wake := true }) s

/-- A package that the panel of another still holds (R120, R365). -/
def packageUp (s : State) (viewer p : Nat) : Bool :=
  (Table.find? s.pkgs p).isSome && (s.pkg p).present && !(s.pkg p).fenced && !(s.pkg viewer).lost.contains p

/-- `WAKE` (R119, R120): a target outside the coherent domain, lost or retired is discarded. -/
def execWake (w : LongWord) (s : State) : Out :=
  finish s (do
    ctlOnly s
    let v := (reg s w.a).toNat
    raiseIf (decide (2 ^ 11 ≤ v)) .illegal 0
    let p := panelOf (agentPkg s.cur) * 64 + v / 32
    let i := v % 32
    let s := if packageUp s (agentPkg s.cur) p && (s.pkg p).muniment.ctls.getD i 0 == 1 then wakeCtl p i s else s
    .ok (advance 8 s))

/-- The packages that a scope of a control core's package takes in (R299). -/
def scopePkgs (s : State) (scope : BitVec 3) : List Nat :=
  if scope = 3 then [agentPkg s.cur] else (s.pkgs.map (·.1)).filter (fun p => panelOf p == panelOf (agentPkg s.cur))

/-- Whether an access to an address may have used an entry that an invalidation drops: compared by the largest page of its
space (R289, R300). -/
def mayUse (kind : Inval) (asid : Nat) (va : Word64) : Bool :=
  match spaceOf va with
  | some (.control _) => covers asid 21 va kind
  | some (.tensor _ _ _) => covers asid 25 va kind
  | _ => false

/-- The addresses that a quantum buffer holds stores to. -/
def QBuf.vas (q : QBuf) : List Word64 := q.bytes.map (·.va) ++ q.partials.map (·.va)

/-- The addresses of the accesses of an item that are translated and not yet performed. -/
def Item.vas (it : Item) : List Word64 := if it.phase = .performed then [] else
  (it.elems.flatMap (fun e => e.dst :: e.src.toList) ++ it.sends.map (·.2) ++ it.outs.map (·.2)).map (fun d => BitVec.ofNat 64 (d.pos / 2)) ++
    (match it.kind with | .ratom _ _ a _ _ => [a] | .rrel _ a _ => [a] | _ => [])

/-- An access that used an entry in a scope and has not been performed: of a stream, a quantum buffer, an item or a tile
operation (R300). DESIGN CHOICE: log entry 111. -/
def usesDropped (s : State) (pkgs : List Nat) (kind : Inval) : Bool :=
  s.streams.any (fun x => pkgs.contains (agentPkg x.1) && x.2.stores.any (fun o => o.vas.any (mayUse kind (asidOf (ctxOf s x.1).ctxid)))) ||
  s.groups.any (fun g => pkgs.contains (agentPkg g.1) && g.2.qbuf.vas.any (mayUse kind (asidOf (ctxOf s g.1).ctxid))) ||
  s.blocks.any (fun b => pkgs.contains b.2.pkg && b.2.held.any (fun h => h.2.2.vas.any (mayUse kind (asidOf b.2.ctxid)))) ||
  s.items.any (fun i => pkgs.contains i.2.ctx.pkg && i.2.vas.any (mayUse kind (asidOf i.2.ctx.ctxid))) ||
  s.mccs.any (fun m => pkgs.contains m.1.1 && (m.2.arriving ++ m.2.ops.toList.flatten).any (fun o =>
    o.pages.any (fun x => mayUse kind (asidOf o.ctx.ctxid) (BitVec.ofNat 64 (x.1 * 2 ^ 21)))))

/-- `TLBINV` drops cached translations in its scope, once every access that used them has been performed (R299, R300).
DESIGN CHOICE: log entry 111. -/
def execTlbinv (w : LongWord) (s : State) : Out :=
  finish s (do
    ctlOnly s
    let asid := (reg s w.a).toNat % 2 ^ 16
    let kind : Inval := match w.aux.toNat with | 0 => .all | 1 => .ctx asid | _ => .page asid (reg s w.b)
    let pkgs := scopePkgs s w.scope
    stallIf (usesDropped s pkgs kind)
    .ok (advance 8 { s with stale := s.stale.map (fun x => if keyPkg (x.word * 8) ∈ pkgs then { x with gone := addOnce kind x.gone } else x) }))

/-- `JROOT` sets or removes a job's tensor root (R299, R300). -/
def execJroot (w : LongWord) (s : State) : Out :=
  finish s (do
    ctlOnly s
    let job := (reg s w.a).toNat
    let root := (reg s w.b).toNat
    let p := agentPkg s.cur
    raiseIf (decide (2 ^ 16 ≤ job)) .illegal 0
    raiseIf (root != 0 && (root % 0x8000 != 0 || root / 2 ^ 36 != p % 64 || decide (ctlSize ≤ root % 2 ^ 36))) .illegal 0
    .ok (advance 8 (mapPkg p (fun x => { x with jroots := if root = 0 then Table.del x.jroots job else Table.put x.jroots job (reg s w.b) }) s)))

/-- `KBIND` binds a key slot to a job, or unbinds it and erases its material (R299, R300; log entry 12 for slot 0).
DESIGN CHOICE: log entry 12. -/
def execKbind (w : LongWord) (s : State) : Out :=
  finish s (do
    ctlOnly s
    let slot := (reg s w.a).toNat
    let v := (reg s w.b).toNat
    let job := v % 2 ^ 16
    let p := agentPkg s.cur
    raiseIf (decide (2 ^ 8 ≤ slot) || decide (2 ^ 17 ≤ v) || (slot == 0 && job != 0)) .illegal 0
    let x := s.pkg p
    let old := Table.findD x.keys slot ⟨none, x.nextMaterial⟩
    let fresh := (Table.find? x.keys slot).isNone
    if v / 2 ^ 16 = 1 then
      if slot = 0 then .ok (advance 8 s)
      else .ok (advance 8 (mapPkg p (fun x => { x with keys := Table.put x.keys slot ⟨none, x.nextMaterial⟩, nextMaterial := x.nextMaterial + 2 }) s))
    else
      .ok (advance 8 (mapPkg p (fun x => { x with
        keys := Table.put x.keys slot { old with job := some job }
        nextMaterial := if fresh then x.nextMaterial + 2 else x.nextMaterial }) s)))

end Sys2Proof.Machine
end

