-- ==== Sys2Proof/Machine/Launching.lean ====
section
/-! DEFINITION. Launch records, command queues, ring entries, gates, `LAUNCH`, `KICK` (R176, R177, R318 to R328). -/

namespace Sys2Proof.Machine

/-- A launch queue of a package: 0 to 63 the hardware launch queues, 64 the child queue (R318, R328). -/
def queueAt (s : State) (pkg q : Nat) : LaunchQ := if q < 64 then Vec.get (s.pkg pkg).queues q else (s.pkg pkg).child

def mapLaunchQ (pkg q : Nat) (f : LaunchQ → LaunchQ) (s : State) : State :=
  mapPkg pkg (fun p => if q < 64 then { p with queues := Vec.set p.queues q (f (Vec.get p.queues q)) } else { p with child := f p.child }) s

/-- A launch from its record's bytes, its slots resolved at acceptance (R23, R322). -/
def parseLaunch (s : State) (pkg : Nat) (queue : Option Nat) (rec' : Word64) (ctxid : Word32) (ptbase : Word64) (e : Nat) (bs : List Byte) : Launch where
  pkg := pkg
  queue := queue
  recAddr := rec'
  scode := BitVec.ofNat 64 (numAt bs 0 8)
  lcode := BitVec.ofNat 64 (numAt bs 8 8)
  mcode := BitVec.ofNat 64 (numAt bs 0x10 8)
  param := BitVec.ofNat 64 (numAt bs 0x18 8)
  gridx := numAt bs 0x20 4
  gridy := numAt bs 0x24 4
  gridz := numAt bs 0x28 4
  groups := numAt bs 0x2C 1
  nbar := numAt bs 0x2D 1
  prio := min (numAt bs 0x2E 1 % 4) e
  ord := numAt bs 0x2F 1 % 2 == 1
  idem := numAt bs 0x2F 1 / 2 % 2 == 1
  partw := BitVec.ofNat 32 (numAt bs 0x30 4)
  expect := numAt bs 0x38 8
  trig := BitVec.ofNat 32 (numAt bs 0x40 4)
  tphase := BitVec.ofNat 32 (numAt bs 0x44 4)
  cc := BitVec.ofNat 64 (numAt bs 0x48 8)
  srseed := BitVec.ofNat 64 (numAt bs 0x50 8)
  sched := BitVec.ofNat 64 (numAt bs 0x58 8)
  nsched := numAt bs 0x60 4
  stage0 := BitVec.ofNat 32 (numAt bs 0x64 4)
  frep := BitVec.ofNat 64 (numAt bs 0x68 8)
  fs := Vec.make 16 (fun n => let w : Word32 := BitVec.ofNat 32 (numAt bs (0x80 + 4 * n) 4); if w = 0 then Vec.get (s.pkg pkg).fmtDefault n else w)
  ctxid := ctxid
  ptbase := ptbase
  next := 0
  rows := []
  redo := []
  flushed := []
  last := []
  ended := []
  cancelled := false

/-- A code address in control space or in the package's own tensor space (R323). -/
def codeOk (pkg : Nat) (va : Word64) : Bool :=
  match spaceOf va with
  | some (.control _) => true
  | some (.tensor _ p _) => p == pkg
  | _ => false

/-- The partition word's tests (R20). -/
def partitionOk (l : Launch) : Bool :=
  let f (hi lo : Nat) : Nat := bits l.partw.toNat hi lo
  decide (f 31 24 + f 23 16 + f 15 8 + f 7 0 ≤ 128) && f 31 24 != 0 && decide (8 ≤ vnOf l.partw l.groups) &&
    (!l.ord || (decide (f 7 0 * 128 % max 1 l.groups = 0) && [16, 32, 64].contains (qlOf l.partw l.groups)))

/-- The record's own fields are valid (R20, R39, R322, R323). -/
def launchOk (l : Launch) (bs : List Byte) : Bool :=
  l.scode.toNat % 4 == 0 && l.lcode.toNat % 16 == 0 && l.mcode.toNat % 4 == 0 && codeOk l.pkg l.scode && codeOk l.pkg l.lcode &&
    (l.mcode == 0 || codeOk l.pkg l.mcode) && controlOn 1 l.param && decide (l.gridx ≤ 2 ^ 20) && decide (l.gridy ≤ 2 ^ 20) &&
    decide (l.gridz ≤ 2 ^ 20) && decide (1 ≤ l.groups) && decide (l.groups ≤ 32) && decide (l.nbar ≤ 48) && decide (numAt bs 0x2E 1 < 4) &&
    decide (numAt bs 0x2F 1 < 4) && numAt bs 0x34 4 == 0 && controlOn 32 l.cc &&
    (if l.sched = 0 then l.nsched == 0 else l.sched.toNat % 32 == 0 && decide (l.nsched ≤ 4096)) && (l.frep == 0 || controlOn 16 l.frep) &&
    numAt bs 0x70 8 == 0 && numAt bs 0x78 8 == 0 && numAt bs 0xC0 64 == 0 && l.fs.toList.all (fun w => w == 0 || slotOk w) && partitionOk l

/-- The context of a launch's blocks, for the checks of its schedule (R265). -/
def scheduleCtx (s : State) (l : Launch) : Ctx := { launchCtx s l with user := true, limit := spuBytes l.partw }

/-- One schedule entry with its descriptor, read at acceptance and checked (R264, R265, R338). -/
def readRow (l : Launch) (i : Nat) (s : State) : Except Stop (ScheduleRow × State) := do
  let c := scheduleCtx s l
  let va := l.sched + BitVec.ofNat 64 (32 * i)
  let bs ← readVia s c 32 va 32
  raiseIf (decide (8 ≤ numAt bs 0xC 1) || numAt bs 0xD 3 != 0) .bound 0
  let ds ← readDesc s c (BitVec.ofNat 64 (numAt bs 0 8))
  raiseIf (!copyOk c.pkg ds) .bound 0
  .ok (⟨copyOf ds, BitVec.ofNat 32 (numAt bs 8 4), numAt bs 0xC 1, sextInt (numAt bs 0x10 8) 64, sextInt (numAt bs 0x18 8) 64⟩,
    foldReads c [va, BitVec.ofNat 64 (numAt bs 0 8)] s)

/-- A launch's schedule, read at acceptance. -/
def readRows (l : Launch) : List Nat → State → Except Stop (List ScheduleRow × State)
  | [], s => .ok ([], s)
  | i :: r, s => do
    let (e, s) ← readRow l i s
    let (es, s) ← readRows l r s
    .ok (e :: es, s)

/-- A schedule entry for a block: its steps applied, its record's snapshot taken, its checks made but those of its memory
(R264, R265 steps 1 and 2, R262). -/
def readEntry (l : Launch) (index : Nat) (r : ScheduleRow) (s : State) : Except Stop (SchedEntry × State) := do
  let c := scheduleCtx s l
  let d := { r.desc with src := r.desc.src + BitVec.ofInt 64 (index * r.sstep), dst := r.desc.dst + BitVec.ofInt 64 (index * r.dstep) }
  raiseIf (!sidesOk c.pkg d) .bound 0
  let (rag, s) ← copyRecord (freshItem s c.ag (.copy d none) c) d s
  checkPhaser c.pkg (fun _ => false) false d.phaser s
  let p ← recordPlace s c d.crec
  .ok (⟨d, r.stage, r.queue, rag, p⟩, s)

/-- A launch's schedule for a block: that of a discarded attempt stands (R265). DEDUCED: log entry 63. -/
def readSchedule (l : Launch) (index : Nat) : List ScheduleRow → State → Except Stop (List SchedEntry × State)
  | [], s => .ok ([], s)
  | i :: r, s => do
    let (e, s) ← readEntry l index i s
    let (es, s) ← readSchedule l index r s
    .ok (e :: es, s)

def blockSchedule (l : Launch) (index : Nat) (s : State) : Except Stop (List SchedEntry × State) :=
  match Table.find? l.flushed index with
  | some es => .ok (es, s)
  | none => readSchedule l index l.rows s

/-- The counter record of a launch (R323). -/
def counterOf (s : State) (l : Launch) : Except Stop (List Byte) := readVia s (launchCtx s l) 32 l.cc 32

/-- Ends an invalid launch: every block with BOUND at a counter record that can be read, else at its queue (R323). -/
def rejectLaunch (id : Nat) (s : State) : Eff :=
  let l := s.launch id
  match counterOf s l, controlPlace s (launchCtx s l) true 32 l.cc with
  | .ok _, .ok p => endUnplaced id stBound (putDevice p (leBytes 8 l.count) s)
  | _, _ => .ok (match l.queue with | some q => queueFail l.pkg q stBound s | none => s)

/-- A launch of no blocks: one item of the level above ends (R322). -/
def emptyLaunch (l : Launch) (bs : List Byte) (s : State) : Eff :=
  let up : Word64 := BitVec.ofNat 64 (numAt bs 8 8)
  if up = 0 then .ok s else endAt (launchCtx s l) l.queue up stOK s

/-- The addresses of a counter chain's records (R325, R327). -/
def chainRecords (s : State) (c : Ctx) : Nat → Word64 → List Word64
  | 0, _ => []
  | fuel + 1, va =>
    if va = 0 then []
    else match readVia s c 32 va 32 with
      | .error _ => []
      | .ok bs => va :: chainRecords s c fuel (BitVec.ofNat 64 (numAt bs 8 8))

/-- A launch whose record is good, with its schedule's rows, and the state in which they were read (R323). -/
def goodLaunch (l : Launch) (bs c : List Byte) (s : State) : Option (Launch × State) :=
  if launchOk l bs && numAt c 0 8 == l.count then
    match readRows l (List.range l.nsched) s with
    | .error _ => none
    | .ok (rows, s) =>
      let l := { l with rows := rows }
      match readSchedule l 0 rows s with
      | .error _ => none
      | .ok _ => some (l, s)
  else none

/-- Accepts a launch record (R323, R325, R327, R338): `put` places it in its queue. -/
def acceptLaunch (l : Launch) (bs : List Byte) (put : Nat → State → State) (s : State) : Eff :=
  let id := s.nextId
  let s := { s with nextId := id + 1 }.setLaunch id l
  let dc := launchCtx s l
  let s := foldReads dc ([l.recAddr, l.recAddr + 128, l.cc] ++ chainRecords s dc 4 l.cc) s
  match counterOf s l with
  | .error _ => rejectLaunch id s
  | .ok c =>
    match goodLaunch l bs c s with
    | none => rejectLaunch id s
    | some (l, s) =>
      let s := s.setLaunch id l
      if l.count = 0 then emptyLaunch l c s
      else if chainCancelled s (launchCtx s l) 4 l.cc then endUnplaced id stCancelled s
      else .ok (put id (mapPkg l.pkg (fun p => { p with accepted := p.accepted ++ [id] }) s))

/-- The context and priority that a child launch inherits (R328, R430). DEDUCED: log entry 66. -/
def childPair (s : State) : Word32 × Word64 × Nat :=
  match s.cur with
  | .group _ _ _ => let b := s.block (selfGroup s).block; (b.ctxid, b.ptbase, (s.launch b.launch).prio)
  | .mcc p c => ((s.mcc (p, c)).ctxid, (s.mcc (p, c)).ptbase, 0)
  | .ctl p i => ((s.ctl (p, i)).ctxid, (s.ctl (p, i)).ptbase, 3)

/-- `LAUNCH` (R176, R177, R328). DEDUCED: log entry 65. -/
def execLaunch (w : LongWord) (s : State) : Out :=
  finish s (do
    raiseIf (isMcc s.cur) .illegal 0
    drain s
    let va := reg s w.a
    raiseIf (!controlOn 256 va) .protection 0x15 va
    whenPerformed (commitOwn s.cur s) (fun s => do
      let p := agentPkg s.cur
      stallIf (decide (256 ≤ (s.pkg p).child.items.length))
      let (ctxid, ptbase, e) := childPair s
      let c := selfCtx s
      let bs ← readVia s c 256 va 256
      let l := parseLaunch s p none va ctxid ptbase e bs
      let s ← acceptLaunch l bs (fun id => mapLaunchQ p 64 (fun q => { q with items := q.items ++ [.launch id [] false] })) s
      .ok (advance 8 s)))

/-- The queue descriptor in the queue table (R318). -/
def queueDescAt (s : State) (pkg q : Nat) : Nat := (s.pkg pkg).qtab % 2 ^ 36 + 64 * q

/-- A queue descriptor within R318. -/
def queueDescOk (pkg : Nat) (bs : List Byte) : Bool :=
  let ring := numAt bs 0 8
  let n := numAt bs 8 4
  ring % 64 == 0 && ring / 2 ^ 36 == pkg % 64 && decide (ring % 2 ^ 36 < ctlSize) && decide (2 ≤ n) && decide (n ≤ 65536) && n == 2 ^ Nat.log2 n &&
    ptbaseOk pkg (BitVec.ofNat 64 (numAt bs 0x10 8)) && decide (numAt bs 0x28 1 ≤ 3) && decide (numAt bs 0x29 1 ≤ 1) &&
    numAt bs 0x30 8 == 0 && numAt bs 0x38 8 == 0

/-- Fails a descriptor (R320 step 3). -/
def failQueue (pkg q : Nat) (s : State) : State :=
  queueFail pkg q stBound (writeCtl pkg (queueDescAt s pkg q + 0x29) [0] (mapLaunchQ pkg q (fun x => { x with kicked := none }) s))

/-- The front end's answer to a `KICK` (R320). DESIGN CHOICE: log entry 27. -/
def kick (pkg q : Nat) (s : State) : State :=
  let s := foldLine (physKey pkg 0 (queueDescAt s pkg q) / 128) s
  let bs := readRange s (slotMaterial s pkg 0) (physKey pkg 0 (queueDescAt s pkg q)) 64
  let tail := numAt bs 0x18 8
  if numAt bs 0x29 1 = 0 then mapLaunchQ pkg q (fun x => { x with kicked := none }) s
  else if !queueDescOk pkg bs then failQueue pkg q s
  else if numAt bs 8 4 < (tail + 2 ^ 64 - numAt bs 0x20 8) % 2 ^ 64 then failQueue pkg q s
  else mapLaunchQ pkg q (fun x => { x with
    kicked := if tail = numAt bs 0x20 8 then none else some (BitVec.ofNat 64 tail)
    ring := numAt bs 0 8
    nent := numAt bs 8 4
    ctxid := BitVec.ofNat 32 (numAt bs 0xC 4)
    ptbase := BitVec.ofNat 64 (numAt bs 0x10 8)
    qprio := numAt bs 0x28 1 }) s

/-- `KICK` (R119, R320). -/
def execKick (w : LongWord) (s : State) : Out :=
  finish s (do
    ctlOnly s
    raiseIf (decide (64 ≤ (reg s w.a).toNat)) .illegal 0
    stallIf ((self s).uw != 0)
    .ok (advance 8 (kick (agentPkg s.cur) (reg s w.a).toNat s)))

/-- The next ring entry of a queue that a kick covers and that has room (R320, R321). -/
def ringEntry (s : State) (pkg q : Nat) : Option (Nat × List Byte) :=
  let x := queueAt s pkg q
  match x.kicked with
  | none => none
  | some _ =>
    if 64 ≤ q ∨ 16 ≤ x.items.length ∨ (s.pkg pkg).fenced ∨ !(s.pkg pkg).booted then none
    else
      let head := readCtl s pkg (queueDescAt s pkg q + 0x20) 8
      let k := physKey pkg 0 (x.ring % 2 ^ 36 + 64 * (head % max 1 x.nent))
      some (head, readRange (foldLine (k / 128) s) (slotMaterial s pkg 0) k 64)

/-- A ring entry within R319. -/
def entryOk (bs : List Byte) : Bool :=
  let kind := numAt bs 0 1
  decide (kind ≤ 3) && decide (numAt bs 1 1 < 2) && decide (numAt bs 2 1 < 8) && (kind == 2 || numAt bs 2 1 == 0) && numAt bs 3 5 == 0 &&
    (if kind = 1 then controlOn 256 (BitVec.ofNat 64 (numAt bs 8 8)) else if kind = 2 then controlOn 64 (BitVec.ofNat 64 (numAt bs 8 8)) else numAt bs 8 8 == 0) &&
    (if kind = 2 then controlOn 32 (BitVec.ofNat 64 (numAt bs 0x10 8)) else numAt bs 0x10 8 == 0) &&
    (kind != 3 || numAt bs 1 1 == 0) && numAt bs 0x38 8 == 0 &&
    (List.range 4).all (fun i => numAt bs (0x18 + 8 * i) 8 == 0 || controlOn 32 (BitVec.ofNat 64 (numAt bs (0x18 + 8 * i) 8)))

/-- The gates of a ring entry. -/
def entryGates (bs : List Byte) : List Word64 := ((List.range 4).map (fun i => BitVec.ofNat 64 (numAt bs (0x18 + 8 * i) 8))).filter (· != 0)

/-- Consumes a ring entry: HEAD rises, and the kick ends at its TAIL (R321 step 4). -/
def consume (pkg q head : Nat) (s : State) : State :=
  let h : Word64 := BitVec.ofNat 64 (head + 1)
  let x := queueAt s pkg q
  let s := foldLine (physKey pkg 0 (x.ring % 2 ^ 36 + 64 * (head % max 1 x.nent)) / 128) s
  mapLaunchQ pkg q (fun x => { x with kicked := if x.kicked = some h then none else x.kicked })
    (writeCtl pkg (queueDescAt s pkg q + 0x20) (leBytes 8 h.toNat) s)

/-- The context of a queue's entries (R318, R321). -/
def queueCtx (s : State) (pkg q : Nat) : Ctx := deviceCtx s pkg (queueAt s pkg q).ctxid (queueAt s pkg q).ptbase

/-- What the front end reads of an entry's object: its bytes, or the status of a failure (R321 step 2). -/
def entryObject (s : State) (pkg q : Nat) (bs : List Byte) : Except Stop (List Byte) :=
  let va : Word64 := BitVec.ofNat 64 (numAt bs 8 8)
  if numAt bs 0 1 = 1 then readVia s (queueCtx s pkg q) 256 va 256 else readDesc s (queueCtx s pkg q) va

/-- A step of the front end on the next ring entry, when it has the wanted form. DESIGN CHOICE: log entry 26. -/
def ringStep (pkg q : Nat) (ok : List Byte → Bool) (f : List Byte → State → Eff) (s : State) : Out :=
  finishEvent s (match ringEntry s pkg q with
    | none => .error .stall
    | some (head, bs) => if ok bs then (f bs s).map (consume pkg q head) else .error .stall)

/-- Whether an entry of a kind is good and its object, where it has one, can be read. -/
def entryGood (s : State) (pkg q kind : Nat) (bs : List Byte) : Bool :=
  entryOk bs && numAt bs 0 1 == kind && (kind == 0 || kind == 3 || (match entryObject s pkg q bs with | .ok _ => true | .error _ => false))

/-- `RING_ENTRY_SKIP` (R319). -/
def execRingEntrySkip (pkg queue : Nat) (s : State) : Out := ringStep pkg queue (entryGood s pkg queue 0) (fun _ s => .ok s) s

/-- `RING_ENTRY_LAUNCH` (R321, R323, R328). -/
def execRingEntryLaunch (pkg queue : Nat) (s : State) : Out :=
  ringStep pkg queue (entryGood s pkg queue 1) (fun bs s => do
    let x := queueAt s pkg queue
    let obj ← entryObject s pkg queue bs
    let l := parseLaunch s pkg (some queue) (BitVec.ofNat 64 (numAt bs 8 8)) x.ctxid x.ptbase x.qprio obj
    acceptLaunch l obj (fun id => mapLaunchQ pkg queue (fun y => { y with items := y.items ++ [.launch id (entryGates bs) (numAt bs 1 1 == 1)] })) s) s

/-- The item of a ring copy (R319, R326). -/
def ringItem (pkg q : Nat) (r : RingCopy) (s : State) : Item :=
  let c := deviceCtx s pkg r.ctxid r.ptbase
  { freshItem s c.ag (.copy r.desc none) c with
    owner := some (.front pkg, r.cq), cc := r.cc, queue := some q, phaser := r.desc.phaser, crec := r.crec, block := none, gidx := 255 }

/-- Enters a ring copy's item under the number it has had since it was accepted. -/
def addRingItem (id : Nat) (x : Item) (s : State) : State :=
  let next := s.nextId
  { addItem x { s with nextId := id } with nextId := next }

/-- Ends a ring copy that has not run: its completion record, its phaser and its counter record take the status (R326). -/
def endRingCopy (pkg q : Nat) (r : RingCopy) (st : Word16) (s : State) : Eff := endItem r.id st (addRingItem r.id (ringItem pkg q r s) s)

/-- `RING_ENTRY_COPY` (R321, R262): an invalid descriptor ends the copy with BOUND at its counter record. -/
def execRingEntryCopy (pkg queue : Nat) (s : State) : Out :=
  ringStep pkg queue (entryGood s pkg queue 2) (fun bs s => do
    let x := queueAt s pkg queue
    let c := queueCtx s pkg queue
    let cc : Word64 := BitVec.ofNat 64 (numAt bs 0x10 8)
    let obj ← entryObject s pkg queue bs
    let d := copyOf obj
    let s := foldReads c (BitVec.ofNat 64 (numAt bs 8 8) :: chainRecords s c 4 cc) s
    if !copyOk pkg obj then endAt c (some queue) cc stBound s
    else
      match recordPlace s c d.crec with
      | .error .stall => .error .stall
      | .error (.trap _) => endAt c (some queue) cc stProtection s
      | .ok p =>
        let r : RingCopy := ⟨s.nextId, d, p, numAt bs 2 1, cc, entryGates bs, numAt bs 1 1 == 1, x.ctxid, x.ptbase⟩
        let s := { s with nextId := s.nextId + 1 }
        if chainCancelled s c 4 cc then endRingCopy pkg queue r stCancelled s
        else .ok (mapPkg pkg (fun p => { p with accepted := p.accepted ++ [r.id] })
          (mapLaunchQ pkg queue (fun y => { y with items := y.items ++ [.copy r] }) s))) s

/-- `RING_ENTRY_GATE` (R319). -/
def execRingEntryGate (pkg queue : Nat) (s : State) : Out :=
  ringStep pkg queue (entryGood s pkg queue 3) (fun bs s =>
    let x := queueAt s pkg queue
    .ok (mapLaunchQ pkg queue (fun y => { y with items := y.items ++ [.gate (entryGates bs) x.ctxid x.ptbase] }) s)) s

/-- `RING_ENTRY_FAILURE`: an entry that breaks R319 or whose object cannot be read; the blocks of a launch whose record can
be read end BOUND, a copy's counter record takes the status where it can be read, and the queue otherwise (R321, R323). -/
def execRingEntryFailure (pkg queue : Nat) (s : State) : Out :=
  ringStep pkg queue (fun bs => !(List.range 4).any (fun k => entryGood s pkg queue k bs)) (fun bs s =>
    let st : Word16 := if !entryOk bs then stBound else match entryObject s pkg queue bs with
      | .error (.trap t) => if t.cls = .translation ∨ t.cls = .protection then stProtection else stBound
      | _ => stBound
    let cc : Word64 := BitVec.ofNat 64 (numAt bs 0x10 8)
    let object := if numAt bs 0 1 = 1 then readVia s (queueCtx s pkg queue) 256 (BitVec.ofNat 64 (numAt bs 8 8)) 256 else .error .stall
    match object with
    | .ok obj =>
      let x := queueAt s pkg queue
      let id := s.nextId
      rejectLaunch id ({ s with nextId := id + 1 }.setLaunch id
        (parseLaunch s pkg (some queue) (BitVec.ofNat 64 (numAt bs 8 8)) x.ctxid x.ptbase x.qprio obj))
    | .error _ =>
    if numAt bs 0 1 = 2 ∧ (match readVia s (queueCtx s pkg queue) 32 cc 32 with | .ok _ => true | .error _ => false) = true then
      endAt (queueCtx s pkg queue) (some queue) cc st s
    else .ok (queueFail pkg queue st s)) s

/-- What the gates of a head say: wait, go on, or a status that ends the item (R327, R338). -/
inductive Gate where
  | wait
  | open
  | ends (st : Word16)
deriving DecidableEq, Repr, Inhabited

/-- The gates of an item (R327). DESIGN CHOICE: log entry 28. -/
def gateState (s : State) (c : Ctx) (afterok : Bool) (gates : List Word64) : Gate :=
  let seen := gates.map (fun g => readVia s c 32 g 32)
  if seen.any (fun r => match r with | .error .stall => true | _ => false) then .wait
  else if seen.any (fun r => match r with | .error _ => true | .ok _ => false) then .ends stProtection
  else if seen.any (fun r => match r with | .ok bs => numAt bs 0 8 != 0 | .error _ => false) then .wait
  else if afterok && seen.any (fun r => match r with | .ok bs => numAt bs 0x10 2 != 0 | .error _ => false) then .ends stCancelled
  else .open

/-- The trigger of a launch (R327). -/
def triggerState (s : State) (l : Launch) : Gate :=
  if l.trig = 0 then .open
  else
    let r := handleRef l.pkg l.trig
    if r.gen != 0 && (s.pkg l.pkg).lost.contains r.pkg then .ends stPeerLost
    else if !handleLive s l.pkg l.trig then .ends stBound
    else match (phaserAt s r).newest with
      | none => .wait
      | some (c, _) => if (BitVec.ofNat 32 c - l.tphase).toNat < 2 ^ 31 then .open else .wait

/-- Frees the cores that were held for a head (R331). -/
def unreserve (pkg q : Nat) (s : State) : State :=
  { s with cores := s.cores.map (fun c => (c.1, if c.2.reserved = some (pkg, q) then { c.2 with reserved := none } else c.2)) }

/-- Takes the head from a queue; what was held for it is free (R331). -/
def popHead (pkg q : Nat) (s : State) : State :=
  unreserve pkg q (mapLaunchQ pkg q (fun x => { x with items := x.items.drop 1, eligible := false, chosen := false, unplaced := 0 }) s)

/-- What the gates of a head say, and its trigger if it is a launch (R327, R338). -/
def headState (s : State) (pkg : Nat) : QItem → Gate
  | .gate gs ctxid ptbase => gateState s (deviceCtx s pkg ctxid ptbase) false gs
  | .copy r => gateState s (deviceCtx s pkg r.ctxid r.ptbase) r.afterok r.gates
  | .launch id gs ok =>
    match gateState s (launchCtx s (s.launch id)) ok gs with
    | .open => triggerState s (s.launch id)
    | g => g

/-- Reading the gates of a head folds their lines (R158). -/
def foldGates (pkg : Nat) (x : QItem) (s : State) : State :=
  match x with
  | .gate gs ctxid ptbase => foldReads (deviceCtx s pkg ctxid ptbase) gs s
  | .copy r => foldReads (deviceCtx s pkg r.ctxid r.ptbase) r.gates s
  | .launch id gs _ => foldReads (launchCtx s (s.launch id)) gs s

/-- Ends a head by its gates or its trigger; a gate entry as a failure of its queue (R321, R326, R327, R338). -/
def endHead (pkg q : Nat) (x : QItem) (st : Word16) (s : State) : Eff :=
  let s := popHead pkg q s
  match x with
  | .gate _ _ _ => .ok (queueFail pkg q st s)
  | .copy r => endRingCopy pkg q r st s
  | .launch id _ _ => endUnplaced id st s

/-- `ITEM_ELIGIBLE`: the head of a queue passes its gates and its trigger, or ends by them; a gate entry is consumed (R327,
R338). -/
def execItemEligible (pkg queue : Nat) (s : State) : Out :=
  let x := queueAt s pkg queue
  finishEvent s (if x.eligible then .error .stall else
    match x.items.head? with
    | none => .error .stall
    | some i =>
      let s' := foldGates pkg i s
      match headState s pkg i, i with
      | .wait, _ => .error .stall
      | .ends st, _ => endHead pkg queue i st s'
      | .open, .gate _ _ _ => .ok (popHead pkg queue s')
      | .open, _ => .ok (mapLaunchQ pkg queue (fun y => { y with eligible := true }) s'))

end Sys2Proof.Machine
end

