-- ==== Sys2Proof/Machine/Placement.lean ====
section
/-! DEFINITION. The distributor: what fits where, placement of blocks and gangs, ends of blocks, issue-slot sets
(R21, R22, R27, R28, R44, R181, R182, R326, R329 to R335). -/

namespace Sys2Proof.Machine

/-- Blocks resident on a core: placed and not in a save image. -/
def isSaved (b : Block) : Bool := match b.preempt with | .saved _ => true | _ => false
def residents (s : State) (k : Nat × Nat) : List (Nat × Block) :=
  s.blocks.filter (fun b => b.2.pkg == k.1 && b.2.core == k.2 && !isSaved b.2)

/-- The wave slot of a group. -/
def waveOf : Agent → Nat
  | .group _ _ w => w
  | _ => 0

/-- Pool units of a partition word (R19). -/
def unitsOf (partw : Word32) : Nat := ((List.range 4).map (fun i => bits partw.toNat (8 * i + 7) (8 * i))).foldl (· + ·) 0

/-- The lowest `n` consecutive barrier ids that no block of a list holds (R22). -/
def freeBarriers (bs : List Block) (n : Nat) : Option Nat :=
  (List.range (49 - n)).find? (fun lo => bs.all (fun b => b.nbar == 0 || decide (b.barbase + b.nbar ≤ lo) || decide (lo + n ≤ b.barbase)))

/-- Free wave slots of an issue slot, ascending, beside blocks of a list. -/
def freeWaves (bs : List Block) (i : Nat) : List Nat :=
  ((List.range 16).map (fun j => 4 * j + i)).filter (fun w => !bs.any (fun b => b.groups.any (fun a => waveOf a == w)))

/-- Groups of a block that issue from an issue slot. -/
def groupsOn (g i : Nat) : Nat := ((List.range g).filter (fun x => x % 4 == i)).length

/-- Save images that wait for a core, with their priorities (R332). -/
def imagesAt (s : State) (k : Nat × Nat) : List (Nat × Block) := s.blocks.filter (fun b => b.2.pkg == k.1 && b.2.core == k.2 && isSaved b.2)

/-- The launch at the head of a queue. -/
def headLaunch (s : State) (pkg q : Nat) : Option Nat :=
  match (queueAt s pkg q).items.head? with
  | some (.launch id _ _) => some id
  | _ => none

/-- The priority of a head (R328); a copy runs at its queue's (log entry 16). DESIGN CHOICE: log entry 16. -/
def headPrio (s : State) (q : Nat × Nat) : Nat := match headLaunch s q.1 q.2 with | some id => (s.launch id).prio | none => (queueAt s q.1 q.2).qprio

/-- A core takes placements: in service, not fenced, its trap registers set, not held for another head (R331, R332, R341). -/
def coreOpen (s : State) (k : Nat × Nat) (who e : Nat) : Bool :=
  let c := s.core k
  (logicalCore (s.pkg k.1).muniment k.2).isSome && !c.fenced && c.trapbase != 0 && c.sidebuf != 0 && c.savebase != 0 &&
    (match c.reserved with | none => true | some r => r == (k.1, who) || decide (headPrio s r < e))

/-- A block fits a core beside a list of blocks (R332). -/
def fitsBeside (l : Launch) (bs : List Block) : Bool :=
  decide ((bs.map (fun b => unitsOf b.partw)).foldl (· + ·) 0 + unitsOf l.partw ≤ 128) &&
    (List.range 4).all (fun i => decide (groupsOn l.groups i ≤ (freeWaves bs i).length)) && (freeBarriers bs l.nbar).isSome

/-- A block of a launch in queue `who` fits a core (R332). -/
def fitsCore (s : State) (l : Launch) (who : Nat) (k : Nat × Nat) : Bool :=
  coreOpen s k who l.prio && fitsBeside l ((residents s k).map (·.2)) && !(imagesAt s k).any (fun b => decide (l.prio ≤ (s.launch b.2.launch).prio))

/-- Cores of a package in ascending logical number. -/
def logicalCores (s : State) (pkg : Nat) : List Nat :=
  (List.range 4).flatMap (fun d => (usableClusters (s.pkg pkg).muniment d).take 12) |>.flatMap (serviceCores (s.pkg pkg).muniment)

/-- Resident groups of a core. -/
def groupCount (s : State) (k : Nat × Nat) : Nat := ((residents s k).map (fun b => b.2.groups.length)).foldl (· + ·) 0

/-- The core for a block: the fewest resident groups, then the lowest logical number (R332). -/
def chooseCore (s : State) (l : Launch) (who : Nat) : Option Nat :=
  ((logicalCores s l.pkg).filter (fun c => fitsCore s l who (l.pkg, c))).foldl (fun best c => match best with
    | none => some c
    | some b => if groupCount s (l.pkg, c) < groupCount s (l.pkg, b) then some c else some b) none

/-- Whether an MCC is free: it runs no stream, and no block or item of its last gang is left (R181). -/
def mccFree (s : State) (k : Nat × Nat) : Bool :=
  let m := s.mcc k
  !m.fenced && m.trapbase != 0 && m.sidebuf != 0 && m.savebase != 0 &&
    (m.launch == none || ((s.stream (.mcc k.1 k.2)).run == .ended && m.gang.all (fun g => (Table.find? s.blocks g.2).isNone) && liveItems s (.mcc k.1 k.2) == []))

/-- The cluster for a gang: the lowest logical one that fits (R332). -/
def chooseCluster (s : State) (l : Launch) (who : Nat) : Option Nat :=
  ((List.range 4).flatMap (fun d => (usableClusters (s.pkg l.pkg).muniment d).take 12)).find? (fun c =>
    mccFree s (l.pkg, c) && (serviceCores (s.pkg l.pkg).muniment c).all (fun k => fitsCore s l who (l.pkg, k)))

/-- The next block index of a launch: those of a flushed attempt come first (R329, R355). -/
def nextIndex (l : Launch) : Nat := l.redo.headD l.next

/-- Takes the next block index from a launch. -/
def takeIndex (l : Launch) : Launch := if l.redo = [] then { l with next := l.next + 1 } else { l with redo := l.redo.drop 1 }

/-- Whether every block of a launch has been placed. -/
def allPlaced (l : Launch) : Bool := l.redo == [] && decide (l.count ≤ l.next)

/-- Wave slots for the groups of a block, in ascending group index (R333 step 2). -/
def waveSlots (bs : List Block) (g : Nat) : List Nat := (List.range g).map (fun x => (freeWaves bs (x % 4)).getD (x / 4) 0)

/-- A group's scalar stream at placement (R27, R28). -/
def groupStream (l : Launch) (index g : Nat) : Stream :=
  { Stream.reset with
    spc := l.scode
    s := Vec.set (Vec.set (Vec.set (Vector.replicate 64 0) 1 l.param) 2 (BitVec.ofNat 64 index)) 3 (BitVec.ofNat 64 g)
    mode := if l.ord then 2 else 0
    run := .running }

/-- Groups in the active and the pending set of an issue slot of a core. -/
def slotGroups (s : State) (k : Nat × Nat) (i : Nat) (set : SlotSet) : List Agent :=
  ((s.groups.filter (fun g => match g.1 with | .group p c w => p == k.1 && c == k.2 && w % 4 == i && g.2.slot == set | _ => false)).map (·.1)).filter
    (fun a => (s.stream a).run == .running && !isSaved (s.block (s.group a).block))

/-- The set that a group enters (R333 step 6, R335). -/
def entrySet (s : State) (k : Nat × Nat) (w : Nat) : SlotSet := if (slotGroups s k (w % 4) .active).length < 8 then .active else .pending

/-- A group at placement (R27). -/
def groupAtPlacement (blk g : Nat) (slot : SlotSet) : Group where
  block := blk
  gidx := g
  segq := []
  inSeg := false
  frame := Vector.replicate 16 0
  live := 0
  splits := Vector.replicate 4 none
  parked := []
  rep := none
  queues := Vector.replicate 8 Queue.reset
  v := Vector.replicate 256 (Vector.replicate 32 0)
  qbuf := ⟨[], []⟩
  vawait := []
  tsync := []
  arrived := []
  slot := slot
  age := 0
  issued := 0
  issuedLane := 0

/-- Places one group; its cleared registers and buffer hold no errors (R21, R302). -/
def placeGroup (l : Launch) (blk index : Nat) (k : Nat × Nat) (x : Nat × Nat) (s : State) : State :=
  let ag := Agent.group k.1 k.2 x.2
  let s := { s with bad := s.bad.filter (fun w => match w with | .vreg a _ _ | .qbuf a _ => a != ag | _ => true) }
  (s.setStream ag (groupStream l index x.1)).setGroup ag (groupAtPlacement blk x.1 (entrySet s k x.2))

/-- The logical core number that seeds a converter (R44). -/
def logicalNum (s : State) (k : Nat × Nat) : Nat := (logicalCore (s.pkg k.1).muniment k.2).getD 0xFFFF

/-- Seeds the converters of the issue slots that a block's groups use (R44). -/
def seedConverters (l : Launch) (k : Nat × Nat) (g : Nat) (s : State) : State :=
  seqAll (fun i s => if groupsOn g i = 0 then s else mapCore k (fun c => { c with conv := Vec.set c.conv i (converterSeed l.srseed (logicalNum s k) i) }) s) (List.range 4) s

/-- Scratch lines that a block's schedule fills (R265 step 3). -/
def scheduleLines (s : State) (b : Nat) : List Nat := ((s.block b).sched.flatMap (fun e => (entryItem s b e).lines)).eraseDups

/-- The addresses of a block's save slots and side-buffer records that are translated at placement (R346, R357).
DESIGN CHOICE: log entry 68. -/
def lockedAreas (s : State) (b : Block) : List (Agent × Word64) :=
  let k := (b.pkg, b.core)
  let ag := b.groups.headD (.group b.pkg b.core 0)
  (b.groups.map (fun a => (a, recordBase s a))) ++
    (List.range (16 * 48)).map (fun i => (ag, (s.core k).savebase + BitVec.ofNat 64 (i * 65536)))

/-- Locks the translations of a block's context areas under its own context; a failure raises MACHINE on its core (R357,
R363). -/
def lockAreas (blk : Nat) (s : State) : State :=
  let b := s.block blk
  let seen := (lockedAreas s b).map (fun a => (a, lockedPlace s (blockCtx s blk a.1) [] true a.2))
  match seen.find? (fun a => match a.2 with | .error (.trap _) => true | _ => false) with
  | none =>
    let pages := seen.filterMap (fun a => match a.2 with | .ok p => p.page.map (fun g => (a.1.2.toNat / 2 ^ g.pb, g)) | .error _ => none)
    mapBlock blk (fun x => { x with locked := pages.eraseDups }) s
  | some a => machineCore (b.pkg, b.core) (waveOf a.1.1) a.1.2 (failBlock blk stProtection s)

/-- The record of a placed block. -/
def blockAtPlacement (l : Launch) (id index : Nat) (k : Nat × Nat) (groups : List Agent) (bar : Nat) (es : List SchedEntry) : Block where
  launch := id
  index := index
  pkg := k.1
  core := k.2
  partw := l.partw
  groups := groups
  nbar := l.nbar
  barbase := bar
  ctxid := l.ctxid
  ptbase := l.ptbase
  ord := l.ord
  scratch := []
  empty := []
  acc := []
  bars := []
  sched := es
  stage := l.stage0
  released := []
  rt := 0
  e := 0
  held := []
  status := 0
  cancelled := false
  preempt := .none
  late := []
  locked := []
  endAfter := []
  away := []
  awayMcc := none

/-- Places the next block of a launch on a core (R333): a schedule that fails its checks places nothing, and ends the
launch's unplaced blocks with BOUND (R265). -/
def placeBlock (id : Nat) (core : Nat) (s : State) : Eff :=
  let l := s.launch id
  let index := nextIndex l
  let k := (l.pkg, core)
  match blockSchedule l index s with
  | .error .stall => .error .stall
  | .error (.trap _) => endUnplaced id stBound s
  | .ok (es, s) => do
    let here := (residents s k).map (·.2)
    let waves := waveSlots here l.groups
    let blk := s.nextId
    let groups := waves.map (fun w => Agent.group k.1 k.2 w)
    let s := { s with nextId := blk + 1 }.setBlock blk (blockAtPlacement l id index k groups ((freeBarriers here l.nbar).getD 0) es)
    let s := mapLaunch id (fun l => { takeIndex l with last := Table.put l.last index core, flushed := Table.del l.flushed index }) s
    let s := seedConverters l k l.groups s
    let s := seqAll (placeGroup l blk index k) ((List.range l.groups).zip waves) s
    let s := mapBlock blk (fun b => { b with empty := scheduleLines s blk }) s
    let s := lockAreas blk s
    if (s.core k).fenced then .ok s else releaseDue blk s

/-- Notes the hardware launch queue that was served last; the child queue takes no turn (R329). -/
def noteQueue (pkg q : Nat) (s : State) : State := mapPkg pkg (fun p => { p with served := if q < 64 then q else p.served }) s

/-- After a placement from a queue's head: the queue was served, what was held for it is free, and it leaves when all its
blocks are placed (R329, R331). -/
def afterPlace (pkg q id : Nat) (s : State) : State :=
  let s := unreserve pkg q (noteQueue pkg q (mapLaunchQ pkg q (fun x => { x with chosen := false, unplaced := 0 }) s))
  if allPlaced (s.launch id) then popHead pkg q s else s

/-- Eligible queues with their priorities, in the order the distributor serves them (R329). -/
def serveOrder (s : State) (pkg : Nat) : List Nat :=
  let p := s.pkg pkg
  let rr := (List.range 64).map (fun i => (p.served + 1 + i) % 64)
  let ready := (64 :: rr).filter (fun q => (queueAt s pkg q).eligible)
  [3, 2, 1, 0].flatMap (fun e => ready.filter (fun q => headPrio s (pkg, q) == e))

/-- Whether a queue's head can be served now: a copy whose engine queue has room, a launch that fits (R329). -/
def servable (s : State) (pkg q : Nat) : Bool :=
  match (queueAt s pkg q).items.head? with
  | some (.copy r) => !queueFull s (.front pkg, r.cq)
  | some (.launch id _ _) =>
    let l := s.launch id
    if l.mcode = 0 then (chooseCore s l q).isSome else (chooseCluster s l q).isSome
  | _ => false

/-- The first head in the distributor's order that can be served (R329). -/
def bestHead (s : State) (pkg : Nat) : Option Nat := (serveOrder s pkg).find? (servable s pkg)

/-- A head that the distributor chose, and that still comes first (R329). -/
def mayPlace (s : State) (pkg q : Nat) : Bool := (queueAt s pkg q).chosen && bestHead s pkg == some q

/-- `BLOCK_PLACE`: the head that the distributor chose places its next block (R329, R332, R333). -/
def execBlockPlace (pkg queue : Nat) (s : State) : Out :=
  finishEvent s (match headLaunch s pkg queue with
    | none => .error .stall
    | some id =>
      let l := s.launch id
      if !mayPlace s pkg queue ∨ l.mcode ≠ 0 then .error .stall
      else match chooseCore s l queue with
        | none => .error .stall
        | some c => (placeBlock id c s).map (afterPlace pkg queue id))

/-- The MCC stream at the start of its gang (R182). -/
def mccStream (l : Launch) (first mask : Nat) : Stream :=
  { Stream.reset with
    spc := l.mcode
    s := Vec.set (Vec.set (Vec.set (Vector.replicate 64 0) 1 l.param) 2 (BitVec.ofNat 64 first)) 3 (BitVec.ofNat 64 mask)
    mode := 0
    run := .running }

/-- Starts the MCC stream of a gang whose blocks stand on cores by logical index (R44, R182, R430). -/
def startMcc (id first : Nat) (k : Nat × Nat) (gang : List (Nat × Nat)) (s : State) : State :=
  let l := s.launch id
  let mask := (gang.map (fun g => 2 ^ g.1)).foldl (· + ·) 0
  let s := s.setStream (.mcc k.1 k.2) (mccStream l first mask)
  let s := { s with
    engq := s.engq.filter (fun q => q.1.1 != .agent (.mcc k.1 k.2))
    past := s.past.filter (fun b => !(s.mcc k).gang.any (fun g => g.2 == b.1)) }
  mapMcc k (fun m => { m with
    launch := some id
    gang := gang
    first := first
    ctxid := l.ctxid
    ptbase := l.ptbase
    conv := converterSeed l.srseed (384 + (logicalCluster (s.pkg k.1).muniment k.2).getD 0) 4
    tsc := Vector.replicate 8 0
    ops := Vector.replicate 8 []
    arriving := []
    bind := Vector.replicate 8 none
    endstat := 0 }) s

/-- The next blocks of a launch, in the order they are placed. -/
def comingIndices (l : Launch) (n : Nat) : List Nat := (l.redo ++ (List.range n).map (· + l.next)).take n |>.filter (fun i => decide (i < l.count))

/-- How many numbers at the head of a list follow each other. -/
def runLength : List Nat → Nat
  | [] => 0
  | [_] => 1
  | a :: b :: r => if b = a + 1 then runLength (b :: r) + 1 else 1

/-- Places the blocks of a gang, consecutive ones, one to a core in ascending rank; the weight buffers are cleared first (R181,
R182). -/
def placeGang (id clu : Nat) (s : State) : Eff := do
  let l := s.launch id
  let k := (l.pkg, clu)
  let cores := serviceCores (s.pkg l.pkg).muniment clu
  let coming := comingIndices l cores.length
  let n := runLength coming
  let first := nextIndex l
  if (coming.take n).any (fun i => match blockSchedule l i s with | .error (.trap _) => true | _ => false) then endUnplaced id stBound s
  else do
  let s := seqAll (fun c s => mapCore (l.pkg, c) (fun x => { x with wbuf := [] }) s) cores s
  let s := { s with bad := s.bad.filter (fun w => match w with | .wbuf p c _ => p != l.pkg || !cores.contains c | _ => true) }
  let base := s.nextId
  let s ← seqEff (fun c s => placeBlock id c s) (cores.take n) s
  let gang := (s.blocks.filter (fun b => b.2.launch == id && decide (base ≤ b.1))).map (fun b => (cores.findIdx (· == b.2.core), b.1))
  .ok (if gang.length = n ∧ !(s.mcc k).fenced then startMcc id first k gang s else s)

/-- `GANG_PLACE`: the head that the distributor chose places a whole gang (R181, R329, R332). -/
def execGangPlace (pkg queue : Nat) (s : State) : Out :=
  finishEvent s (match headLaunch s pkg queue with
    | none => .error .stall
    | some id =>
      let l := s.launch id
      if !mayPlace s pkg queue ∨ l.mcode = 0 then .error .stall
      else match chooseCluster s l queue with
        | none => .error .stall
        | some c => (placeGang id c s).map (afterPlace pkg queue id))

/-- Hands a copy to the front end's engine queue; a failed check becomes its status (R259, R321, R326, R329).
DEDUCED: log entry 64. -/
def handCopy (pkg q : Nat) (r : RingCopy) (s : State) : Eff :=
  let x := ringItem pkg q r s
  let fails (t : Stop) : Eff := match t with
    | .stall => .error .stall
    | .trap t => endRingCopy pkg q r (stopStatus (.trap t)) s
  match copyRecord x r.desc s with
  | .error e => fails e
  | .ok (rag, s) =>
    match checkPhaser pkg (fun _ => false) false r.desc.phaser s, copyItem x r.desc rag r.crec s with
    | .error e, _ => fails e
    | _, .error e => fails e
    | .ok _, .ok it => if it.elems = [] then endItem r.id stOK (addRingItem r.id it s) else .ok (addRingItem r.id it s)

/-- `DISTRIBUTOR_SELECT`: the first head in the distributor's order that can be served is chosen to place next; a copy is
handed over at once (R329). -/
def execDistributorSelect (pkg : Nat) (s : State) : Out :=
  finishEvent s (match bestHead s pkg with
    | none => .error .stall
    | some q =>
      match (queueAt s pkg q).items.head? with
      | some (.copy r) => handCopy pkg q r (noteQueue pkg q (popHead pkg q s))
      | _ => .ok (seqAll (fun i s => mapLaunchQ pkg i (fun x => { x with chosen := i == q }) s) (List.range 65) s))

/-- Whether an item belongs to a block: its groups', its schedule's (R326). -/
def blockItems (s : State) (blk : Nat) : List Nat :=
  (s.items.filter (fun x => x.2.block == some blk && !x.2.orphan && !isMcc x.2.issuer)).map (·.1)

/-- Whether the streams of a block have ended, their writes are performed, their items and tile operations ended, and the
blocks that end before it (R326, R364). -/
def blockDone (s : State) (b : Block) (blk : Nat) : Bool :=
  b.endAfter.all (fun x => (Table.find? s.blocks x).isNone) &&
  b.groups.all (fun a => let x := s.stream a; (x.run == .ended || x.run == .fenced) && x.uw == 0 && x.tl == 0) && blockItems s blk == []

/-- The status of a block that ends (R326). -/
def blockStatus (s : State) (b : Block) : Word16 :=
  if b.cancelled then stCancelled
  else if b.status ≠ 0 then b.status
  else
    match (b.groups.filter (fun a => (s.stream a).fcnt != 0)).head? with
    | some a => (s.stream a).fstat
    | none => stOK

/-- Removes a block with its groups (R169, R333). -/
def removeBlock (blk : Nat) (s : State) : State :=
  let b := s.block blk
  let s := seqAll (fun p s => dropAll (fun m => m.block == some blk) p s) (s.pkgs.map (·.1)) s
  let held := s.mccs.any (fun m => m.2.gang.any (fun g => g.2 == blk))
  { s with
    blocks := Table.del s.blocks blk
    early := s.early.filter (fun w => w.block != blk)
    past := if held then Table.put s.past blk { b with groups := [], sched := [], held := [], preempt := .none } else s.past
    streams := if isSaved b then s.streams else s.streams.filter (fun x => !b.groups.contains x.1)
    groups := if isSaved b then s.groups else s.groups.filter (fun x => !b.groups.contains x.1)
    engq := s.engq.filter (fun q => q.1.1 != .block blk)
    bad := s.bad.filter (fun w => match w with
      | .scratch x _ | .acc x _ => x != blk || held
      | .vreg a _ _ | .qbuf a _ => isSaved b || !b.groups.contains a
      | _ => true) }

/-- `BLOCK_END`: the block-end commit, and in a later turn the end at the launch's records (R164, R326). -/
def execBlockEnd (blk : Nat) (s : State) : Out :=
  finishEvent s (match Table.find? s.blocks blk with
    | none => .error .stall
    | some b =>
      if isSaved b ∨ !b.groups.all (fun a => (s.stream a).run == .ended || (s.stream a).run == .fenced) then .error .stall
      else if b.held ≠ [] ∨ s.early.any (fun w => w.block == blk) then .ok (commitBlock blk b.groups s)
      else if !blockDone s b blk then .error .stall
      else do
        let s ← endLaunchBlock b.launch b.index (blockStatus s b) (logicalNum s (b.pkg, b.core)) s
        .ok (removeBlock blk s))

/-- `GROUP_ELIGIBLE`: a group that left its slot under `WAITY` or `YIELD` returns when its counters allow (R113, R170,
R335). -/
def execGroupEligible (ag : Agent) (s : State) : Out :=
  finishEvent s (match ag with
    | .group p c w =>
      let x := s.stream ag
      let back (pc : Word64) (s : State) : State :=
        mapGroup ag (fun g => { g with slot := entrySet s (p, c) w, age := 0 }) (mapStream ag (fun x => { x with run := .running, spc := pc }) s)
      if isSaved (s.block (s.group ag).block) then .error .stall
      else match x.run with
        | .awayWait ld st cp tl => if countersWithin ld st cp tl x then .ok (back x.spc s) else .error .stall
        | .awayYield target => if x.cp = 0 then .ok (back target s) else .error .stall
        | _ => .error .stall
    | _ => .error .stall)

/-- Whether two groups share an issue slot, one in its active and one in its pending set. -/
def slotPair (s : State) (a b : Agent) : Bool :=
  match a, b with
  | .group p c w, .group p' c' w' =>
    p == p' && c == c' && w % 4 == w' % 4 && (s.group a).slot == .active && (s.group b).slot == .pending
  | _, _ => false

/-- Changes the places of two groups. -/
def swapSlots (a b : Agent) (s : State) : State :=
  mapGroup b (fun g => { g with slot := .active, age := 0 }) (mapGroup a (fun g => { g with slot := .pending, age := 0 }) s)

/-- `ACTIVE_WAIT_SWAP`: an active group that has waited long for 32 cycles changes places with the pending group that has been
ready longest (R335). DESIGN CHOICE: log entry 15. -/
def execActiveWaitSwap (active pending : Agent) (s : State) : Out :=
  let longest : Bool := match pending with
    | .group p c w => decide (1 ≤ (s.group pending).age) && (slotGroups s (p, c) (w % 4) .pending).all (fun a => decide ((s.group a).age ≤ (s.group pending).age))
    | _ => false
  finishEvent s (if slotPair s active pending && decide (32 ≤ (s.group active).age) && longest then .ok (swapSlots active pending s) else .error .stall)

/-- When a group issued last, in either stream (R335). -/
def lastIssued (g : Group) : Nat := max g.issued g.issuedLane

/-- `PENDING_READY_SWAP`: a pending group that has been ready for 256 cycles changes places with the active group that issued
least recently (R335). DESIGN CHOICE: log entry 15. -/
def execPendingReadySwap (active pending : Agent) (s : State) : Out :=
  let least : Bool := match active with
    | .group p c w => (slotGroups s (p, c) (w % 4) .active).all (fun a => decide (lastIssued (s.group active) ≤ lastIssued (s.group a)))
    | _ => false
  finishEvent s (if slotPair s active pending && decide (256 ≤ (s.group pending).age) && least then .ok (swapSlots active pending s) else .error .stall)

/-- `HEAD_RESERVE`: a head that has stayed unplaced for 1,048,576 cycles holds a core, a gang a whole cluster; no block of
its priority or lower is placed there until it is placed (R330, R331). DESIGN CHOICE: log entry 29. -/
def execHeadReserve (pkg queue : Nat) (s : State) : Out :=
  let x := queueAt s pkg queue
  finishEvent s (if x.eligible && decide (1048576 ≤ x.unplaced) && !s.cores.any (fun c => c.2.reserved == some (pkg, queue)) then
    let free (c : Nat) : Bool := !(s.core (pkg, c)).fenced && (s.core (pkg, c)).reserved == none
    let hold (c : Nat) (s : State) : State := mapCore (pkg, c) (fun k => { k with reserved := some (pkg, queue) }) s
    let gang := match headLaunch s pkg queue with | some id => (s.launch id).mcode != 0 | none => false
    if gang then
      match ((List.range 4).flatMap (fun d => (usableClusters (s.pkg pkg).muniment d).take 12)).find? (fun u => (serviceCores (s.pkg pkg).muniment u).all free) with
      | none => .error .stall
      | some u => .ok (seqAll hold (serviceCores (s.pkg pkg).muniment u) s)
    else
      match (logicalCores s pkg).find? free with
      | none => .error .stall
      | some c => .ok (hold c s)
  else .error .stall)

end Sys2Proof.Machine
end

