-- ==== Sys2Proof/Machine/TileIssue.lean ====
section
/-! DEFINITION. Tile instructions at issue: descriptors, shapes, the checks of R193, `TSYNC` (R184 to R206, R226, R227). -/

namespace Sys2Proof.Machine

/-- Nibbles of an element of a matrix type (R41, R188). -/
def matNibbles (slots : Vector Word32 16) (t : Nat) : Nat :=
  match t with
  | 2 => 8
  | 3 | 4 => 4
  | 5 | 9 => 2
  | _ => narrowNibbles (slotOf slots (t - 16))

/-- Terms of a K-step (R53). -/
def ksOf (slots : Vector Word32 16) (t : Nat) : Nat := 64 / matNibbles slots t

/-- A matrix element's value (R33, R55, R194). -/
def matNum (slots : Vector Word32 16) (t raw : Nat) : Num :=
  match t with
  | 2 => fmtT32.rnd rneMode (fmt32.decode raw)
  | 3 => fmt16.decode raw
  | 4 => fmtB16.decode raw
  | 5 => .ofInt (sextInt raw 8)
  | 9 => .ofInt (raw % 256 : Nat)
  | _ => let f := (slotOf slots (t - 16)).getD (slotFmt 0); f.decode (raw % 2 ^ f.width)

/-- The tile word of a tile instruction. -/
def tileWordOf : Instr → TileWord
  | .mma w | .mmd w | .mzero w | .wloadImg w | .wloadDense w | .wupd w | .accst w | .accld w | .tred w | .tcvt w | .tnorm w | .tsmax w
  | .tsync w => w
  | _ => default

/-- An operand shape (R190); `k` is the depth. -/
structure Shape where
  mc : Nat
  n : Nat
  k : Nat
  lr : Option Nat
  lc : Option Nat
  lk : Option Nat
deriving DecidableEq, Repr, Inhabited

/-- The shape that a register holds under an instruction's mask flags. -/
def shapeOf (w : TileWord) (v : Word64) : Shape where
  mc := 16 * (bits v.toNat 2 0 + 1)
  n := 16 * (bits v.toNat 9 4 + 1)
  k := 16 * (bits v.toNat 17 10 + 1)
  lr := if w.mrow = 1 then some (bits v.toNat 28 18) else none
  lc := if w.mcol = 1 then some (bits v.toNat 39 29) else none
  lk := if w.mdep = 1 then some (bits v.toNat 52 40) else none

/-- A row, column or depth that the limits leave unmasked (R190). -/
def under (limit : Option Nat) (x : Nat) : Bool := match limit with | some l => decide (x < l) | none => true

/-- Checks in order: the first that holds traps. DESIGN CHOICE: log entry 71. -/
def checkAll : List (Bool × TrapClass × Nat) → Except Stop Unit
  | [] => .ok ()
  | (c, cl, d) :: r => do
    raiseIf c cl d
    checkAll r

/-- The checks of a shape register (R190): MB, NB and KB may be unused. -/
def shapeChecks (w : TileWord) (v : Word64) (useM useK : Bool) : List (Bool × TrapClass × Nat) :=
  let x := v.toNat
  [(bits x 63 53 != 0 || bits x 3 3 != 0 || (w.mrow == 0 && bits x 28 18 != 0) || (w.mcol == 0 && bits x 39 29 != 0) ||
    (w.mdep == 0 && bits x 52 40 != 0) || (!useM && bits x 3 0 != 0) || (!useK && bits x 17 10 != 0), .tile, 1)]

/-- The parts of an accumulator descriptor (R187). -/
def accMask (v : Word64) : Nat := bits v.toNat 39 32
def accPitch (v : Word64) : Nat := 128 * bits v.toNat 31 24
def accOff (v : Word64) : Nat := bits v.toNat 23 0

/-- The checks of an accumulator descriptor for rows of `n` elements; a second descriptor has no CMASK (R187, R210). -/
def accChecks (second : Bool) (v : Word64) (n : Nat) : List (Bool × TrapClass × Nat) :=
  [(bits v.toNat 63 40 != 0, .tile, 1), (second && accMask v != 0, .tile, 3), (decide (accPitch v < max 1 (4 * n)), .tile, 4)]

/-- Its bounds over blocks (R193 step 3). -/
def accBounds (s : State) (blocks : List Nat) (v : Word64) (rows n : Nat) : List (Bool × TrapClass × Nat) :=
  [(accOff v % 128 != 0, .bound, 4),
   (blocks.any (fun b => decide (acuBytes (s.block b).partw < accOff v + (rows - 1) * accPitch v + 4 * n)), .bound, 3)]

/-- The parts of a scratch descriptor (R188). -/
def scrPitch (v : Word64) : Nat := 128 * bits v.toNat 31 24
def scrOff (v : Word64) : Nat := bits v.toNat 23 0
def scrCons (v : Word64) : Bool := v.getLsbD 32
def scrScaled (v : Word64) : Bool := v.getLsbD 52

/-- The scale of a scratch operand (R188). -/
def scrScale (slots : Vector Word32 16) (v : Word64) : Num :=
  if scrScaled v then ((slotOf slots (bits v.toNat 51 48)).getD (slotFmt 0)).decode (bits v.toNat 47 40) else .fin false 1 0

/-- A slot that holds scales: set, without sign and fraction (R188, R197). -/
def scaleSlot (slots : Vector Word32 16) (n : Nat) : Bool := match slotOf slots n with | some f => !f.sgn && f.man == 0 | none => false

/-- The checks of a scratch descriptor whose rows are `n` elements (R188, R210). -/
def scrChecks (slots : Vector Word32 16) (t : Nat) (v : Word64) (n : Nat) : List (Bool × TrapClass × Nat) :=
  [(bits v.toNat 63 53 != 0 || bits v.toNat 39 33 != 0 ||
    (if scrScaled v then decide (t < 16) || !scaleSlot slots (bits v.toNat 51 48) else bits v.toNat 51 40 != 0), .tile, 1),
   (decide (2 * scrPitch v < max 1 (n * matNibbles slots t)), .tile, 4)]

/-- Its bounds over blocks. -/
def scrBounds (s : State) (slots : Vector Word32 16) (t : Nat) (blocks : List Nat) (v : Word64) (rows n : Nat) : List (Bool × TrapClass × Nat) :=
  [(scrOff v % 128 != 0, .bound, 4),
   (blocks.any (fun b => decide (2 * spuBytes (s.block b).partw < 2 * scrOff v + (rows - 1) * 2 * scrPitch v + n * matNibbles slots t)), .bound, 3)]

/-- The byte offset of a weight descriptor, and its checks (R189). -/
def wgtOff (v : Word64) : Nat := bits v.toNat 17 0
def wgtChecks (load : Bool) (v : Word64) : List (Bool × TrapClass × Nat) :=
  [(bits v.toNat 63 40 != 0 || bits v.toNat 31 18 != 0, .tile, 1), (!load && accMask v != 0, .tile, 3)]
def wgtBounds (v : Word64) : List (Bool × TrapClass × Nat) := [(wgtOff v % 128 != 0, .bound, 4)]

/-- A type whose slot is unset (R39). -/
def unsetSlot (slots : Vector Word32 16) (t : BitVec 5) : Bool := decide (16 ≤ t.toNat) && (slotOf slots (t.toNat - 16)).isNone

/-- The MCC of the running agent's launch (R184). -/
def ownMcc (s : State) : Except Stop (Nat × Nat) :=
  match s.cur with
  | .mcc p c => .ok (p, c)
  | .group p c _ => do
    raiseIf ((s.launch (s.block (selfGroup s).block).launch).mcode == 0) .illegal 0
    .ok (p, clusterOfCore c)
  | .ctl _ _ => raise .illegal 0

/-- The MCC stream's own (R184, R191). -/
def mccOnly (s : State) : Except Stop (Nat × Nat) :=
  match s.cur with
  | .mcc p c => .ok (p, c)
  | _ => raise .illegal 0

/-- The blocks that a CMASK names, in ascending rank (R187, R190). -/
def maskBlocks (s : State) (k : Nat × Nat) (mask : Nat) : List Nat := ((s.mcc k).gang.filter (fun g => mask.testBit g.1)).map (·.2)

/-- A core that holds a block of the gang at this moment: a block that has ended is held no more, though an operation issued
while it ran still works on what it left (R181, R210). DEDUCED: log entry 23. -/
def holdsGang (s : State) (k : Nat × Nat) (j : Nat) : Bool := (s.mcc k).gang.any (fun g => g.1 == j && (Table.find? s.blocks g.2).isSome)

/-- A CMASK that is zero or names a core without a block of the gang (R187, R210). -/
def maskChecks (s : State) (k : Nat × Nat) (mask : Nat) : List (Bool × TrapClass × Nat) :=
  [(mask == 0 || (List.range 8).any (fun j => mask.testBit j && !holdsGang s k j), .tile, 2)]

/-- A blank operation of an instruction with the values of its registers. -/
def newOp (i : Instr) (s : State) : TileOp :=
  let w := tileWordOf i
  { instr := i, vd := reg s w.d, va := reg s w.a, vb := reg s w.b, vc := reg s w.c,
    vd1 := reg s (w.d + 1), va1 := reg s (w.a + 1), issuer := s.cur, block := blockOf s s.cur, ctx := { selfCtx s with user := !sysMode s s.cur },
    blocks := [], bind := none, headers := [], pages := [], desc := [], step := 0, sub := 0, buf := [], seed := 0, err := false }

/-- The ordering stream of an instruction. -/
def snOf (i : Instr) : Nat := (tileWordOf i).sn.toNat

/-- Hands a checked operation to its stream, counted in TL; a full stream or counter stalls (R18, R184, R185, R337). -/
def issueTile (k : Nat × Nat) (op : TileOp) (s : State) : Eff := do
  let n := snOf op.instr
  let m := s.mcc k
  stallIf (decide (31 ≤ (self s).tl))
  stallIf (decide (16 ≤ (Vec.get m.ops n).length + (m.arriving.filter (fun o => snOf o.instr == n && (match o.instr with | .tsync _ => false | _ => true))).length))
  let s := mapSelf (fun x => { x with tl := x.tl + 1 }) s
  let s := mapMcc k (fun m => if isMcc s.cur then { m with ops := Vec.set m.ops n (Vec.get m.ops n ++ [op]) } else { m with arriving := m.arriving ++ [op] }) s
  .ok (advance 8 s)

/-- A tile instruction: its checks, then its operation's place in the stream. -/
def tileInstr (who : State → Except Stop (Nat × Nat)) (checks : Nat × Nat → State → Except Stop (TileOp × State)) (s : State) : Out :=
  finish s (do
    let k ← who s
    let (op, s) ← checks k s
    issueTile k op s)

/-- An access of the memory side of a tile instruction: local tensor space, and the scratch window of a core's own block
where `scratch` (R26, R193 step 4, R199, R201, R206). DEDUCED: log entry 72. -/
def tilePlace (s : State) (c : Ctx) (u : Use) (scratch : Option Nat) (va : Word64) (size : Nat) : Except Stop Place := do
  let limit := match scratch with | some b => spuBytes (s.block b).partw | none => 2 ^ 24
  let sp ← decodeVa { c with limit := limit } va size
  match sp with
  | .control _ => raise .protection 0x16 va
  | .scratch _ => raiseIf scratch.isNone .protection 0x16 va
  | .tensor _ _ _ => .ok ()
  translate s c u va sp

/-- Adds a translation to those of an operation. -/
def addPage (va : Word64) (p : Place) (ps : List (Nat × Place)) : List (Nat × Place) :=
  match p.loc with
  | .phys _ => if ps.any (fun x => x.1 == va.toNat / 2 ^ 21) then ps else ps ++ [(va.toNat / 2 ^ 21, p)]
  | .scr _ => ps

/-- Checks accesses in order and keeps their translations (R193 step 4). -/
def checkPlaces (s : State) (c : Ctx) (u : Use) : List (Option Nat × Word64 × Nat) → List (Nat × Place) → Except Stop (List (Nat × Place))
  | [], ps => .ok ps
  | (blk, va, size) :: r, ps => do
    let p ← tilePlace s c u blk va size
    checkPlaces s c u r (addPage va p ps)

/-- Checks a range of bytes, 128-byte line by line. -/
def rangeChunks (va : Word64) : Nat → Nat → List (Option Nat × Word64 × Nat)
  | 0, _ => []
  | fuel + 1, n =>
    if n = 0 then []
    else let k := min n (128 - va.toNat % 128); (none, va, k) :: rangeChunks (va + BitVec.ofNat 64 k) fuel (n - k)

/-- The place of an address under an operation's own translations (R193). -/
def opPlace (s : State) (op : TileOp) (va : Word64) : Place :=
  match spaceOf va with
  | some (.scratch off) => ⟨.scr off, default, none, off⟩
  | _ => match op.pages.find? (fun x => x.1 == va.toNat / 2 ^ 21) with
    | some (_, p) => match p.page with
      | some pg =>
        let o := va.toNat % 2 ^ pg.pb
        { p with loc := .phys (paKey s op.ctx.pkg (leafTgt pg.leaf) (leafPa pg.leaf + o)), off := o }
      | none => default
    | none => default

/-- Nibbles of an element of a memory type: `.pg` takes its size from the page that holds s_a (R201). -/
def memNibbles (s : State) (op : TileOp) (t : Nat) : Nat :=
  if t = 13 then
    match (opPlace s op op.va).page with
    | some pg => narrowNibbles (slotOf op.ctx.slots (leafFslot pg.leaf))
    | none => (pageNibbles s op.ctx op.va).getD 2
  else if 16 ≤ t then narrowNibbles (slotOf op.ctx.slots (t - 16)) else 2 * tyBytes t

/-- A distance of `pitch` in nibbles: it counts nibbles for elements of one nibble (R201).
DEDUCED: log entry 17. -/
def memPitch (n pitch : Nat) : Nat := if n = 1 then pitch else 2 * pitch

/-- The nibble position of element (r, c) (R201). -/
def memPos (op : TileOp) (n r c : Nat) : Nat := nibblePos op.va (r * memPitch n (bits op.vb.toNat 31 0) + c * n : Nat)

/-- The elements (rank, i, c) of a band that an accumulator transfer touches (R201, R208). -/
def bandElems (op : TileOp) (band : Nat) : List (Nat × Nat × Nat) :=
  let h := shapeOf (tileWordOf op.instr) op.vc
  (List.range op.blocks.length).flatMap (fun q => (List.range 16).flatMap (fun j =>
    let i := 16 * band + j
    if under h.lr (q * h.mc + i) then ((List.range h.n).filter (under h.lc)).map (fun c => (q, i, c)) else []))

/-- All of them. -/
def allElems (op : TileOp) : List (Nat × Nat × Nat) :=
  (List.range ((shapeOf (tileWordOf op.instr) op.vc).mc / 16)).flatMap (bandElems op)

/-- The memory side of an element (R201). -/
def memSide (s : State) (op : TileOp) (t : Nat) (e : Nat × Nat × Nat) : Side :=
  let h := shapeOf (tileWordOf op.instr) op.vc
  let n := memNibbles s op t
  let pos := memPos op n (e.1 * h.mc + e.2.1) e.2.2
  ⟨pos, (List.range (nibbleBytes n)).map (fun i => opPlace s op (sideVa pos i))⟩

/-- The memory checks of `ACCST`, `ACCLD` and `TCVT` over every element (R193 step 4, R201). -/
def elemChecks (s : State) (op : TileOp) (u : Use) : Except Stop TileOp := do
  let h := shapeOf (tileWordOf op.instr) op.vc
  let n := memNibbles s op u.ty
  let es := allElems op
  let u := if u.ty = 13 then { u with elem := some n } else u
  let ps ← checkPlaces s op.ctx u (es.map (fun e => (some (op.blocks.getD e.1 0), sideVa (memPos op n (e.1 * h.mc + e.2.1) e.2.2) 0, nibbleBytes n))) []
  .ok { op with pages := ps }

/-- The block that holds an element on a block-scaled page: the key of its scale code and the number of its elements (R47,
R202, R292). -/
def scaleKey (s : State) (op : TileOp) (sd : Side) : Option (Nat × Nat) :=
  let p := sd.places.getD 0 default
  match p.page, scaleSpot s op.ctx (tileWordOf op.instr).tya.toNat p with
  | some pg, some (⟨.phys k, _, _, _⟩, _) => some (k, if leafGeom pg.leaf = 1 then 16 else if leafGeom pg.leaf = 2 then 32 else 1024)
  | _, _ => none

/-- The binding and snapshot that an operation with RG captures at issue (R205, R226). -/
def captureBind (k : Nat × Nat) (op : TileOp) (s : State) : Except Stop (TileOp × State) :=
  let w := tileWordOf op.instr
  if w.aux.getLsbD 3 then
    match Vec.get (s.mcc k).bind w.sn.toNat with
    | none => raise .tile 0xB
    | some b => do
      let (r, s) ← snapshot op.ctx b.handle s
      .ok ({ op with bind := some (b, r) }, s)
  else .ok (op, s)

/-- RG without a bound record (R210). -/
def bindCheck (s : State) (k : Nat × Nat) (w : TileWord) : List (Bool × TrapClass × Nat) :=
  [(w.aux.getLsbD 3 && (Vec.get (s.mcc k).bind w.sn.toNat).isNone, .tile, 0xB)]

/-- The segment rule for the indices that a case has (R227). -/
def admits (op : TileOp) (row col dep : Option Nat) : Bool :=
  match op.bind with
  | none => true
  | some (b, r) =>
    let pos (k : Nat) (origin : Nat) (x : Option Nat) : List Int :=
      match x with | some i => if b.dims.getLsbD k then [segOf r (origin + i : Nat)] else [] | none => []
    let segs := pos 0 b.rows row ++ pos 1 b.cols col ++ pos 2 b.depth dep
    match segs with
    | [] => true
    | j :: rest => j != -1 && rest.all (· == j)

/-- A FAULT policy met by an excluded element or term (R227). -/
def faultPolicy (op : TileOp) (cases : List (Option Nat × Option Nat × Option Nat)) : Except Stop Unit :=
  match op.bind with
  | some (_, r) => raiseIf (r.policy == 2 && cases.any (fun x => !admits op x.1 x.2.1 x.2.2)) .ragged 7
  | none => .ok ()

/-- The fields of a weight-image header (R197). -/
def hdrK (b : List Byte) : Nat := numAt b 0 4
def hdrN (b : List Byte) : Nat := numAt b 4 4
def hdrType (b : List Byte) : Nat := numAt b 8 1
def hdrSparse (b : List Byte) : Nat := numAt b 9 1
def hdrGeom (b : List Byte) : Nat := numAt b 0xA 1
def hdrSlot (b : List Byte) : Nat := numAt b 0xB 1
def hdrTotal (b : List Byte) : Nat := numAt b 0xC 4

/-- The next multiple of 128. -/
def pad128 (x : Nat) : Nat := ceilDiv x 128 * 128

/-- Sizes in bytes of an image's three parts (R197). -/
def hdrValues (slots : Vector Word32 16) (b : List Byte) : Nat :=
  hdrN b * hdrK b * matNibbles slots (hdrType b) / 2 / (if hdrSparse b = 0 then 1 else if hdrSparse b = 1 then 2 else 4)
def hdrIndices (b : List Byte) : Nat :=
  hdrN b * hdrK b / 4 * (if hdrSparse b = 0 then 0 else if hdrSparse b = 1 then 4 else 2) / 8
def hdrScales (b : List Byte) : Nat :=
  if hdrGeom b = 0 then 0 else hdrN b * hdrK b / (if hdrGeom b = 1 then 16 else if hdrGeom b = 2 then 32 else 1024)

/-- A valid header (R197). DEDUCED: log entry 77. -/
def hdrOk (slots : Vector Word32 16) (b : List Byte) : Bool :=
  decide (16 ≤ hdrK b) && decide (hdrK b ≤ 4096) && hdrK b % 16 == 0 && decide (16 ≤ hdrN b) && decide (hdrN b ≤ 1024) && hdrN b % 16 == 0 &&
    ([2, 3, 4, 5, 9].contains (hdrType b) || (decide (16 ≤ hdrType b) && decide (hdrType b ≤ 31) && (slotOf slots (hdrType b - 16)).isSome)) &&
    decide (hdrSparse b ≤ 2) && decide (hdrGeom b ≤ 3) && decide (hdrSlot b ≤ 15) && (b.drop 16).all (· == 0) &&
    (if hdrGeom b = 0 then hdrSlot b == 0 else decide (16 ≤ hdrType b) && scaleSlot slots (hdrSlot b)) &&
    (decide (hdrGeom b ≤ 1) || hdrK b % 32 == 0) && (hdrGeom b != 3 || hdrN b % 32 == 0) &&
    hdrTotal b == 128 + pad128 (hdrValues slots b) + pad128 (hdrIndices b) + pad128 (hdrScales b)

/-- The header of a dense image of a K × N array (R199). -/
def denseHeader (slots : Vector Word32 16) (k n t : Nat) : List Byte :=
  leBytes 4 k ++ leBytes 4 n ++ leBytes 1 t ++ leBytes 3 0 ++ leBytes 4 (128 + pad128 (n * k * matNibbles slots t / 2)) ++ leBytes 112 0

/-- The source position of value `v` of a dense image, in nibbles (R198, R199). -/
def densePos (op : TileOp) (n v : Nat) : Nat :=
  let w := tileWordOf op.instr
  let kd := (shapeOf w op.vc).k
  let k := v % kd
  let c := v / kd
  let pitch := 2 * bits op.vb.toNat 31 0
  nibblePos op.va (if w.tb = 1 then c * pitch + k * n else k * pitch + c * n : Nat)

/-- A source byte as it stands in memory. -/
def sourceByte (s : State) (op : TileOp) (va : Word64) : Nat := leNat (readPlace s op.ctx (opPlace s op va) 1)

/-- The byte at an offset of the image that a `WLOAD` writes (R199). -/
def imageByte (s : State) (op : TileOp) (o : Nat) : Byte :=
  let hd := op.headers.getD 0 []
  if o < 128 then hd.getD o 0
  else
    match op.instr with
    | .wloadDense w =>
      let n := matNibbles op.ctx.slots w.tyb.toNat
      let total := hdrN hd * hdrK hd
      let nib (v : Nat) : Nat :=
        let pos := densePos op n v
        if v < total then sourceByte s op (sideVa pos 0) / (if pos % 2 = 1 then 16 else 1) % 16 else 0
      if n = 1 then BitVec.ofNat 8 (nib (2 * (o - 128)) + 16 * nib (2 * (o - 128) + 1))
      else
        let v := 2 * (o - 128) / n
        if v < total then BitVec.ofNat 8 (sourceByte s op (sideVa (densePos op n v) ((o - 128) % (n / 2)))) else 0
    | _ => BitVec.ofNat 8 (sourceByte s op (op.va + BitVec.ofNat 64 o))

/-- The weight-buffer offset of a `WLOAD`. -/
def loadOff (op : TileOp) : Nat := wgtOff op.vd

/-- The core that holds a block. -/
def blockCore (s : State) (b : Nat) : Nat × Nat := ((s.block b).pkg, (s.block b).core)

/-- The header that an image will hold when an operation of a stream begins: what stands in the buffer, and over it what
the stream's earlier `WLOAD` operations write (R193). -/
def plannedHeader (s : State) (ops : List TileOp) (blk off : Nat) : List Byte :=
  let now := (s.core (blockCore s blk)).wbuf.readN off 128
  ops.foldl (fun (hd : List Byte) o =>
    match o.instr with
    | .wloadImg _ | .wloadDense _ =>
      if o.blocks.contains blk then
        (List.range 128).map (fun i =>
          if loadOff o ≤ off + i ∧ off + i < loadOff o + hdrTotal (o.headers.getD 0 []) then imageByte s o (off + i - loadOff o) else hd.getD i 0)
      else hd
    | _ => hd) now

/-- Raises an uncorrectable error that an operation meets at issue later: the first of an operation alone (R209). -/
def errorAtIssue (e : Option (Nat × Word64)) (op : TileOp) (s : State) : TileOp × State :=
  match e with
  | none => (op, s)
  | some (d, a) =>
    if op.err then (op, s)
    else
      let x : Deferred := { tileStream := if isMcc s.cur then some (snOf op.instr) else none, detail := d, addr := a }
      ({ op with err := true }, mapSelf (fun y => { y with deferred := y.deferred ++ [x] }) s)

/-- The first uncorrectable byte of a range of memory under an operation's translations (R209). -/
def rangeBad (s : State) (op : TileOp) (va : Word64) (n : Nat) : Option (Nat × Word64) :=
  (List.range n).findSome? (fun i => let a := va + BitVec.ofNat 64 i; (badAt s op.ctx (opPlace s op a).loc 1).map (fun d => (d, a)))

/-- The keys of a range of memory under an operation's translations. -/
def rangeKeys (s : State) (op : TileOp) (va : Word64) (n : Nat) : List Nat :=
  sideKeys ⟨0, (List.range n).map (fun i => opPlace s op (va + BitVec.ofNat 64 i))⟩

/-- The error of a header that stands in a weight buffer and that no earlier operation of the stream writes over (R193,
R209, R302). -/
def headerBad (s : State) (ops : List TileOp) (blk off : Nat) : Option (Nat × Word64) :=
  let written := ops.any (fun o => (match o.instr with | .wloadImg _ | .wloadDense _ => true | _ => false) && o.blocks.contains blk &&
    decide (loadOff o ≤ off ∧ off < loadOff o + hdrTotal (o.headers.getD 0 [])))
  if !written && s.bad.any (fun b => match b with | .wbuf p c x => (p, c) == blockCore s blk && decide (off / 8 ≤ x ∧ x < off / 8 + 16) | _ => false)
  then some (5, 0) else none

/-- The checks of a weight image for a K × N operand (R193, R194, R197, R198). -/
def imageChecks (slots : Vector Word32 16) (off t kdim ndim : Nat) (hd : List Byte) : List (Bool × TrapClass × Nat) :=
  [(decide (0x40000 < off + hdrTotal hd), .tile, 5), (!hdrOk slots hd, .tile, 6),
   (decide (hdrK hd < kdim) || decide (hdrN hd < ndim) || hdrType hd != t, .tile, 7)]

/-- The headers of a product's images, checked (R193). -/
def productHeaders (s : State) (k : Nat × Nat) (op : TileOp) (kdim ndim : Nat) : Except Stop (TileOp × State) := do
  let w := tileWordOf op.instr
  let off := wgtOff op.vb
  let ops := Vec.get (s.mcc k).ops w.sn.toNat
  let hs := op.blocks.map (fun b => plannedHeader s ops b off)
  checkAll (hs.flatMap (imageChecks op.ctx.slots off w.tyb.toNat kdim ndim))
  .ok (errorAtIssue (op.blocks.findSome? (fun b => headerBad s ops b off)) { op with headers := hs } s)

/-- Two accumulator regions share a byte (R196, R203). -/
def regionsMeet (a : Word64) (ra na : Nat) (b : Word64) (rb nb : Nat) : Bool :=
  (List.range ra).any (fun i => (List.range rb).any (fun j =>
    decide (accOff a + i * accPitch a < accOff b + j * accPitch b + 4 * nb ∧ accOff b + j * accPitch b < accOff a + i * accPitch a + 4 * na)))

/-- A destination that overlaps its source without being it (R203). -/
def overlapCheck (a b : Word64) (rows n : Nat) : List (Bool × TrapClass × Nat) :=
  [(!(accOff a == accOff b && accPitch a == accPitch b) && regionsMeet a rows n b rows n, .tile, 0xA)]

/-- `MMA` (R193 to R195). -/
def mmaOp (w : TileWord) (k : Nat × Nat) (s : State) : Except Stop (TileOp × State) := do
  let op := newOp (.mma w) s
  let slots := op.ctx.slots
  let ta := w.tya.toNat
  raiseIf (unsetSlot slots w.tya || unsetSlot slots w.tyb) .illegal 0
  let h := shapeOf w op.vc
  let (rows, cols) := if w.ta = 1 then (h.k, h.mc) else (h.mc, h.k)
  checkAll (accChecks false op.vd h.n ++ maskChecks s k (accMask op.vd) ++ scrChecks slots ta op.va cols ++ wgtChecks false op.vb ++ shapeChecks w op.vc true true ++ bindCheck s k w)
  let op := { op with blocks := maskBlocks s k (accMask op.vd) }
  checkAll (accBounds s op.blocks op.vd h.mc h.n ++ scrBounds s slots ta op.blocks op.va rows cols ++ wgtBounds op.vb)
  let (op, s) ← productHeaders s k op (if w.tb = 1 then h.n else h.k) (if w.tb = 1 then h.k else h.n)
  let (op, s) ← captureBind k op s
  faultPolicy op ((List.range op.blocks.length).flatMap (fun q => ((List.range h.mc).filter (fun i => under h.lr (q * h.mc + i))).flatMap (fun i =>
    ((List.range h.n).filter (under h.lc)).flatMap (fun c => ((List.range h.k).filter (under h.lk)).map (fun d => (some (q * h.mc + i), some c, some d))))))
  .ok (op, s)

def execMma (w : TileWord) (s : State) : Out := tileInstr mccOnly (mmaOp w) s

/-- `MMD` (R196). -/
def mmdOp (w : TileWord) (k : Nat × Nat) (s : State) : Except Stop (TileOp × State) := do
  let op := newOp (.mmd w) s
  let slots := op.ctx.slots
  let ta := w.tya.toNat
  raiseIf (unsetSlot slots w.tya || unsetSlot slots w.tyb) .illegal 0
  let h := shapeOf w op.vc
  checkAll (accChecks false op.vd h.k ++ maskChecks s k (accMask op.vd) ++ accChecks true op.vd1 h.n ++ scrChecks slots ta op.va h.n ++
    scrChecks slots ta op.va1 h.k ++ wgtChecks false op.vb ++ shapeChecks w op.vc true true ++
    [(decide (1024 < h.k), .tile, 0xC), (regionsMeet op.vd h.mc h.k op.vd1 h.k h.n, .tile, 0xA)] ++ bindCheck s k w)
  let op := { op with blocks := maskBlocks s k (accMask op.vd) }
  checkAll (accBounds s op.blocks op.vd h.mc h.k ++ accBounds s op.blocks op.vd1 h.k h.n ++ scrBounds s slots ta op.blocks op.va h.mc h.n ++
    scrBounds s slots ta op.blocks op.va1 h.mc h.k ++ wgtBounds op.vb)
  let (op, s) ← productHeaders s k op h.k h.n
  let (op, s) ← captureBind k op s
  faultPolicy op ((List.range op.blocks.length).flatMap (fun q => ((List.range h.mc).filter (fun i => under h.lr (q * h.mc + i))).flatMap (fun i =>
    ((List.range h.n).filter (under h.lc)).flatMap (fun c => ((List.range h.k).filter (under h.lk)).map (fun d => (some (q * h.mc + i), some c, some d))))))
  .ok (op, s)

def execMmd (w : TileWord) (s : State) : Out := tileInstr mccOnly (mmdOp w) s

/-- `MZERO` (R200). -/
def mzeroOp (w : TileWord) (k : Nat × Nat) (s : State) : Except Stop (TileOp × State) := do
  let op := newOp (.mzero w) s
  let h := shapeOf w op.vc
  checkAll (accChecks false op.vd h.n ++ maskChecks s k (accMask op.vd) ++ shapeChecks w op.vc true false)
  let op := { op with blocks := maskBlocks s k (accMask op.vd) }
  checkAll (accBounds s op.blocks op.vd h.mc h.n)
  .ok (op, s)

def execMzero (w : TileWord) (s : State) : Out := tileInstr mccOnly (mzeroOp w) s

/-- A tile instruction that accesses memory waits for the stream's own accesses (R193). -/
def tileDrained (s : State) : Except Stop Unit := stallIf ((self s).ld != 0 || (self s).st != 0)

/-- Bytes as they stand are read in any type; 9 is one byte. -/
def byteUse : Use := { ty := 9 }

/-- `WLOAD.img` (R197, R199). -/
def wloadImgOp (w : TileWord) (k : Nat × Nat) (s : State) : Except Stop (TileOp × State) := do
  tileDrained s
  let op := newOp (.wloadImg w) s
  checkAll (wgtChecks true op.vd ++ maskChecks s k (accMask op.vd) ++ [(op.vb != 0 || op.vc != 0, .tile, 1)])
  let op := { op with blocks := maskBlocks s k (accMask op.vd) }
  checkAll (wgtBounds op.vd)
  let ps ← checkPlaces s op.ctx byteUse (rangeChunks op.va 3 128) []
  let op := { op with pages := ps }
  let s := foldKeys (rangeKeys s op op.va 128) s
  let hd := (List.range 128).map (fun i => BitVec.ofNat 8 (sourceByte s op (op.va + BitVec.ofNat 64 i)))
  checkAll [(decide (0x40000 < wgtOff op.vd + hdrTotal hd), .tile, 5), (!hdrOk op.ctx.slots hd, .tile, 6)]
  let ps ← checkPlaces s op.ctx byteUse (rangeChunks op.va (hdrTotal hd / 128 + 2) (hdrTotal hd)) []
  .ok (errorAtIssue (rangeBad s op op.va 128) { op with pages := ps, headers := [hd] } s)

def execWloadImg (w : TileWord) (s : State) : Out := tileInstr mccOnly (wloadImgOp w) s

/-- `WLOAD.dense` (R199). -/
def wloadDenseOp (w : TileWord) (k : Nat × Nat) (s : State) : Except Stop (TileOp × State) := do
  let op := newOp (.wloadDense w) s
  let slots := op.ctx.slots
  raiseIf (unsetSlot slots w.tyb) .illegal 0
  tileDrained s
  let h := shapeOf w op.vc
  let n := matNibbles slots w.tyb.toNat
  let pitch := bits op.vb.toNat 31 0
  let hd := denseHeader slots h.k h.n w.tyb.toNat
  checkAll (wgtChecks true op.vd ++ maskChecks s k (accMask op.vd) ++ [(bits op.vb.toNat 63 32 != 0, .tile, 1),
    (decide (2 * pitch < max 1 ((if w.tb = 1 then h.k else h.n) * n)), .tile, 4)] ++ shapeChecks w op.vc false true ++
    [(decide (0x40000 < wgtOff op.vd + hdrTotal hd), .tile, 5)])
  let op := { op with blocks := maskBlocks s k (accMask op.vd), headers := [hd] }
  checkAll (wgtBounds op.vd)
  let ps ← checkPlaces s op.ctx byteUse ((List.range (h.k * h.n)).flatMap (fun v =>
    (List.range (nibbleBytes n)).map (fun i => ((none : Option Nat), sideVa (densePos op n v) i, 1)))) []
  .ok ({ op with pages := ps }, s)

def execWloadDense (w : TileWord) (s : State) : Out := tileInstr mccOnly (wloadDenseOp w) s

/-- The fields of the optimiser descriptor (R206). -/
def wupdAddr (op : TileOp) (o : Nat) : Word64 := BitVec.ofNat 64 (numAt op.desc o 8)
def wupdNum (op : TileOp) (o : Nat) : Num := fmt32.decode (numAt op.desc o 4)

/-- The arrays that an algorithm uses, with element bytes and whether they are written (R206, R207). -/
def wupdArrays (op : TileOp) : List (Word64 × Nat × Bool) :=
  let w := tileWordOf op.instr
  [(wupdAddr op 0, 4, true), (wupdAddr op 8, tyBytes w.tya.toNat, false)] ++ (if w.aux = 2 then [] else [(wupdAddr op 0x10, 4, true)]) ++
    (if w.aux = 0 then [(wupdAddr op 0x18, 4, true)] else [])

/-- Checks the arrays of an update in turn. -/
def arrayChecks (s : State) (op : TileOp) (e0 n : Nat) : List (Word64 × Nat × Bool) → List (Nat × Place) → Except Stop (List (Nat × Place))
  | [], ps => .ok ps
  | (va, size, wr) :: r, ps => do
    let ps ← checkPlaces s op.ctx { ty := 9, write := wr } ((List.range n).map (fun j => ((none : Option Nat), va + BitVec.ofNat 64 ((e0 + j) * size), size))) ps
    arrayChecks s op e0 n r ps

/-- `WUPD` (R206, R207): with the predicate set it makes no check and no access. -/
def wupdOp (w : TileWord) (_k : Nat × Nat) (s : State) : Except Stop (TileOp × State) := do
  let op := newOp (.wupd w) s
  if op.vd != 0 then .ok (op, s)
  else do
    tileDrained s
    let n := op.vb.toNat
    let e0 := op.vc.toNat
    raiseIf (op.va.toNat % 64 != 0 || decide (16384 < n) || decide (2 ^ 40 ≤ e0)) .tile 9
    raiseIf (match spaceOf op.va with | some (.control _) => false | some (.tensor _ p _) => p == op.ctx.pkg | some (.scratch _) => true | none => false) .protection 0x16 op.va
    let p ← place s op.ctx {} op.va 64
    let s := foldAt p.loc s
    let op := { op with desc := readPlace s op.ctx p 64 }
    raiseIf ((wupdArrays op).any (fun a => a.1.toNat % a.2.1 != 0)) .tile 9
    let ps ← arrayChecks s op e0 n (wupdArrays op) []
    .ok (errorAtIssue ((firstBad s op.ctx p.loc 64).map (fun e => (e.2, op.va + BitVec.ofNat 64 e.1))) { op with pages := ps } s)

def execWupd (w : TileWord) (s : State) : Out := tileInstr mccOnly (wupdOp w) s

/-- The operation of `ACCST`, `ACCLD` or `TCVT` with its checks up to the bounds (R193 steps 2 and 3, R201). -/
def transferOp (k : Nat × Nat) (i : Instr) (s : State) : Except Stop TileOp := do
  let w := tileWordOf i
  let op := newOp i s
  raiseIf (unsetSlot op.ctx.slots w.tya) .illegal 0
  tileDrained s
  let h := shapeOf w op.vc
  let n := memNibbles s op w.tya.toNat
  checkAll (accChecks (isGroup s.cur) op.vd h.n ++ (if isGroup s.cur then [] else maskChecks s k (accMask op.vd)) ++
    [(bits op.vb.toNat 63 32 != 0, .tile, 1), (decide (memPitch n (bits op.vb.toNat 31 0) < max 1 (h.n * n)), .tile, 4)] ++ shapeChecks w op.vc true false)
  let op := { op with blocks := if isGroup s.cur then [(selfGroup s).block] else maskBlocks s k (accMask op.vd) }
  checkAll (accBounds s op.blocks op.vd h.mc h.n)
  .ok op

/-- `.pg` on a block-scaled page (R193 step 5, R201). -/
def scaledChecks (s : State) (op : TileOp) (t : Nat) : Except Stop Unit :=
  raiseIf (t == 13 && (allElems op).any (fun e => (scaleKey s op (memSide s op t e)).isSome)) .tile 8

/-- `ACCST` (R201), also from a group (R184). -/
def accstOp (w : TileWord) (k : Nat × Nat) (s : State) : Except Stop (TileOp × State) := do
  let op ← transferOp k (.accst w) s
  let op ← elemChecks s op { write := true, ty := w.tya.toNat }
  scaledChecks s op w.tya.toNat
  .ok (op, s)

def execAccst (w : TileWord) (s : State) : Out := tileInstr ownMcc (accstOp w) s

/-- `ACCLD` (R201). -/
def accldOp (w : TileWord) (k : Nat × Nat) (s : State) : Except Stop (TileOp × State) := do
  let op ← transferOp k (.accld w) s
  let op ← elemChecks s op { ty := w.tya.toNat }
  scaledChecks s op w.tya.toNat
  .ok (op, s)

def execAccld (w : TileWord) (s : State) : Out := tileInstr mccOnly (accldOp w) s

/-- The elements of a `TCVT` with the keys of their blocks, and the sizes of those (R202). -/
def blockElems (s : State) (op : TileOp) : List ((Nat × Nat) × (Nat × Nat × Nat)) :=
  (allElems op).filterMap (fun e => (scaleKey s op (memSide s op (tileWordOf op.instr).tya.toNat e)).map (fun k => (k, e)))

/-- `TCVT` (R39, R202). DEDUCED: log entry 22. -/
def tcvtOp (w : TileWord) (k : Nat × Nat) (s : State) : Except Stop (TileOp × State) := do
  let op ← transferOp k (.tcvt w) s
  let op ← elemChecks s op { write := true, ty := w.tya.toNat }
  raiseIf ((allElems op).any (fun e => (memSide s op w.tya.toNat e).places.any (scaleUnset op.ctx w.tya.toNat))) .illegal 0
  let bs := blockElems s op
  raiseIf (bs.length != (allElems op).length || ((bs.map (·.1)).eraseDups).any (fun g => (bs.filter (fun x => x.1 == g)).length != g.2)) .tile 8
  .ok (op, s)

def execTcvt (w : TileWord) (s : State) : Out := tileInstr mccOnly (tcvtOp w) s

/-- The operation of `TRED`, `TNORM` or `TSMAX`, its source and destination checked (R203 to R205). -/
def rowOp (k : Nat × Nat) (i : Instr) (scalar : Bool) (s : State) : Except Stop TileOp := do
  let w := tileWordOf i
  let op := newOp i s
  let h := shapeOf w op.vc
  checkAll (accChecks false op.vd h.n ++ maskChecks s k (accMask op.vd) ++ accChecks true op.va h.n ++
    [(scalar && bits op.vb.toNat 63 32 != 0, .tile, 1)] ++ shapeChecks w op.vc true false ++ overlapCheck op.vd op.va h.mc h.n ++ bindCheck s k w)
  let op := { op with blocks := maskBlocks s k (accMask op.vd) }
  checkAll (accBounds s op.blocks op.vd h.mc h.n ++ accBounds s op.blocks op.va h.mc h.n)
  .ok op

/-- Unmasked (row, column) pairs of a band of `TNORM`, `TSMAX`: global rows (R190, R227). -/
def globalPairs (op : TileOp) : List (Option Nat × Option Nat × Option Nat) :=
  (allElems op).map (fun e => (some (e.1 * (shapeOf (tileWordOf op.instr) op.vc).mc + e.2.1), some e.2.2, none))

/-- `TRED` (R203): its limits count local rows. -/
def tredOp (w : TileWord) (k : Nat × Nat) (s : State) : Except Stop (TileOp × State) := do
  let op ← rowOp k (.tred w) false s
  let (op, s) ← captureBind k op s
  let h := shapeOf w op.vc
  faultPolicy op (((List.range h.mc).filter (under h.lr)).flatMap (fun i => ((List.range h.n).filter (under h.lc)).map (fun c => (some i, some c, none))))
  .ok (op, s)

def execTred (w : TileWord) (s : State) : Out := tileInstr mccOnly (tredOp w) s

/-- `TNORM` (R204). -/
def tnormOp (w : TileWord) (k : Nat × Nat) (s : State) : Except Stop (TileOp × State) := do
  let op ← rowOp k (.tnorm w) true s
  let (op, s) ← captureBind k op s
  faultPolicy op (globalPairs op)
  .ok (op, s)

def execTnorm (w : TileWord) (s : State) : Out := tileInstr mccOnly (tnormOp w) s

/-- `TSMAX` (R205). -/
def tsmaxOp (w : TileWord) (k : Nat × Nat) (s : State) : Except Stop (TileOp × State) := do
  let op ← rowOp k (.tsmax w) true s
  let (op, s) ← captureBind k op s
  faultPolicy op (globalPairs op)
  .ok (op, s)

def execTsmax (w : TileWord) (s : State) : Out := tileInstr mccOnly (tsmaxOp w) s

/-- A stream count that has reached a target (R186). -/
def tscReached (tsc : Word32) (target : Word64) : Bool := decide ((tsc - target.setWidth 32).toNat < 2 ^ 31)

/-- `TSYNC` (R186): the MCC stream stalls; a group's is counted in TL until its condition holds. DEDUCED: log entry 70. -/
def execTsync (w : TileWord) (s : State) : Out :=
  finish s (do
    let k ← ownMcc s
    let op := newOp (.tsync w) s
    if isMcc s.cur then do
      stallIf (!tscReached (Vec.get (s.mcc k).tsc w.sn.toNat) op.va)
      .ok (advance 8 s)
    else do
      stallIf (decide (31 ≤ (self s).tl))
      .ok (advance 8 (mapMcc k (fun m => { m with arriving := m.arriving ++ [op] }) (mapSelf (fun x => { x with tl := x.tl + 1 }) s))))

end Sys2Proof.Machine
end

