-- ==== Sys2Proof/Machine/TileRun.lean ====
section
/-! DEFINITION. Tile operations in execution: element-level updates, tile steps, arrivals, completions
(R53 to R55, R185, R186, R194 to R209, R227). -/

namespace Sys2Proof.Machine

/-- One indivisible update of a tile operation (R185). `q` is a rank. -/
inductive TileUnit where
  /-- A K-step's addition into C(i, c) (R194). -/
  | mac (q i c kb : Nat)
  /-- A K-step's addition into dX(i, k) or dW(k, c) (R196). -/
  | dx (q i k kb : Nat)
  | dw (q k c kb : Nat)
  | zero (q i c : Nat)
  | store (q i c : Nat)
  | load (q i c : Nat)
  /-- Reads a source element. -/
  | read (q i c : Nat)
  /-- Writes the combined element (i, c) on a core; the last write of it forgets the elements read (R203). -/
  | combine (q i c : Nat) (last : Bool)
  /-- Writes element number `n` of a normalised row (R204, R205). -/
  | row (q i c n : Nat) (last : Bool)
  /-- Writes a quantised block: its scale key and its elements (R202). -/
  | block (key : Nat) (elems : List (Nat × Nat × Nat))
  /-- Writes 128-byte line `n` of an image (R199). -/
  | line (q n : Nat)
  /-- Updates element `j` (R207). -/
  | update (j : Nat)
deriving DecidableEq, Repr, Inhabited

/-- An operation's shape and its number of tile steps (R208). -/
def TileOp.shape (op : TileOp) : Shape := shapeOf (tileWordOf op.instr) op.vc

/-- K-steps of a product's depth, and of the two parts of `MMD` (R53, R194, R196). -/
def ksMma (op : TileOp) : Nat :=
  let w := tileWordOf op.instr
  min (ksOf op.ctx.slots w.tya.toNat) (ksOf op.ctx.slots w.tyb.toNat)
def ksDw (op : TileOp) : Nat := ksOf op.ctx.slots (tileWordOf op.instr).tya.toNat
def dxSteps (op : TileOp) : Nat := op.shape.mc / 16 * ceilDiv op.shape.n (ksMma op)
def dwSteps (op : TileOp) : Nat := op.shape.k / 16 * ceilDiv op.shape.mc (ksDw op)

def tileSteps (op : TileOp) : Nat :=
  match op.instr with
  | .mma _ => op.shape.mc / 16 * ceilDiv op.shape.k (ksMma op)
  | .mmd _ => dxSteps op + dwSteps op
  | .wloadImg _ | .wloadDense _ => ceilDiv (hdrTotal (op.headers.getD 0 [])) 16384
  | .wupd _ => 1
  | _ => op.shape.mc / 16

/-- Ranks of an operation, and the rows of a band. -/
def ranks (op : TileOp) : List Nat := List.range op.blocks.length
def bandRows (band : Nat) : List Nat := (List.range 16).map (fun j => 16 * band + j)

/-- The step in which a block of `TCVT` is written: that of its last row (R202, R208).
DESIGN CHOICE: log entry 76. -/
def blockStep (es : List (Nat × Nat × Nat)) : Nat := es.foldl (fun m e => max m (e.2.1 / 16)) 0

/-- V of a row: the columns that the limits and the segment rule leave (R204, R227). -/
def rowCols (op : TileOp) (q i : Nat) : List Nat :=
  (List.range op.shape.n).filter (fun c => under op.shape.lc c && admits op (some (q * op.shape.mc + i)) (some c) none)

/-- A product with a limit of 0 writes no element (R190). -/
def maskedOut (op : TileOp) : Bool :=
  (match op.instr with | .mma _ | .mmd _ => true | _ => false) && (op.shape.lr == some 0 || op.shape.lc == some 0 || op.shape.lk == some 0)

/-- The updates of one tile step, in order (R208). DEDUCED: log entry 73. -/
def stepUnits (s : State) (op : TileOp) (t : Nat) : List TileUnit :=
  let h := op.shape
  if maskedOut op then []
  else match op.instr with
  | .mma _ =>
    let n := ceilDiv h.k (ksMma op)
    (ranks op).flatMap (fun q => ((bandRows (t / n)).filter (fun i => under h.lr (q * h.mc + i))).flatMap (fun i =>
      ((List.range h.n).filter (fun c => under h.lc c && admits op (some (q * h.mc + i)) (some c) none)).map (fun c => .mac q i c (t % n))))
  | .mmd _ =>
    if t < dxSteps op then
      let n := ceilDiv h.n (ksMma op)
      (ranks op).flatMap (fun q => ((bandRows (t / n)).filter (fun i => under h.lr (q * h.mc + i))).flatMap (fun i =>
        ((List.range h.k).filter (fun k => under h.lk k && admits op (some (q * h.mc + i)) none (some k))).map (fun k => .dx q i k (t % n))))
    else
      let n := ceilDiv h.mc (ksDw op)
      let t := t - dxSteps op
      (ranks op).flatMap (fun q => ((bandRows (t / n)).filter (under h.lk)).flatMap (fun k =>
        ((List.range h.n).filter (fun c => under h.lc c && admits op none (some c) (some k))).map (fun c => .dw q k c (t % n))))
  | .mzero _ => (bandElems op t).map (fun e => .zero e.1 e.2.1 e.2.2)
  | .accst _ => (bandElems op t).map (fun e => .store e.1 e.2.1 e.2.2)
  | .accld _ => (bandElems op t).map (fun e => .load e.1 e.2.1 e.2.2)
  | .tcvt _ =>
    let bs := blockElems s op
    ((bs.map (·.1)).eraseDups).flatMap (fun g =>
      let es := (bs.filter (fun x => x.1 == g)).map (·.2)
      if blockStep es = t then es.map (fun e => .read e.1 e.2.1 e.2.2) ++ [.block g.1 es] else [])
  | .tred w =>
    ((bandRows t).filter (under h.lr)).flatMap (fun i => ((List.range h.n).filter (fun c => under h.lc c && admits op (some i) (some c) none)).flatMap (fun c =>
      let dst := if w.aux.getLsbD 0 then ranks op else [0]
      (ranks op).map (fun q => .read q i c) ++ dst.map (fun q => .combine q i c (q + 1 == dst.length))))
  | .tnorm _ | .tsmax _ =>
    (ranks op).flatMap (fun q => ((bandRows t).filter (fun i => under h.lr (q * h.mc + i))).flatMap (fun i =>
      let cs := rowCols op q i
      cs.map (fun c => .read q i c) ++ ((List.range cs.length).zip cs).map (fun x => .row q i x.2 x.1 (x.1 + 1 == cs.length))))
  | .wloadImg _ | .wloadDense _ =>
    (ranks op).flatMap (fun q => ((List.range 128).filter (fun n => decide ((t * 128 + n) * 128 < hdrTotal (op.headers.getD 0 [])))).map (fun n => .line q (t * 128 + n)))
  | .wupd _ => if op.vd != 0 then [] else (List.range op.vb.toNat).map .update
  | _ => []

/-- Nibble position of element (i, k) of a scratch operand, `tr` for TA (R188). -/
def scrPos (slots : Vector Word32 16) (t : Nat) (v : Word64) (tr : Bool) (i k : Nat) : Nat :=
  let n := matNibbles slots t
  if tr then 2 * scrOff v + k * 2 * scrPitch v + i * n else 2 * scrOff v + i * 2 * scrPitch v + k * n

/-- The element of a block's scratchpad at a nibble position. -/
def scrElem (s : State) (blk n pos : Nat) : Nat :=
  let b := s.block blk
  if n = 1 then (b.scratch.read (pos / 2)).toNat / (if pos % 2 = 1 then 16 else 1) % 16 else leNat (b.scratch.readN (pos / 2) (n / 2))

/-- The value of an element of a scratch operand with its scale (R188, R194). -/
def scrNum (s : State) (op : TileOp) (t : Nat) (v : Word64) (tr : Bool) (q i k : Nat) : Num :=
  (matNum op.ctx.slots t (scrElem s (op.blocks.getD q 0) (matNibbles op.ctx.slots t) (scrPos op.ctx.slots t v tr i k))).mul (scrScale op.ctx.slots v)

/-- Bits of a weight buffer at a nibble position. -/
def bufNibbles (s : State) (k : Nat × Nat) (pos n : Nat) : Nat :=
  let m := (s.core k).wbuf
  if n = 1 then (m.read (pos / 2)).toNat / (if pos % 2 = 1 then 16 else 1) % 16 else leNat (m.readN (pos / 2) (n / 2))

/-- The place of the stored value of weight (k, c), none for a structural zero (R198). -/
def weightIndex (s : State) (core : Nat × Nat) (off : Nat) (hd : List Byte) (slots : Vector Word32 16) (k c : Nat) : Option Nat :=
  let g := c * (hdrK hd / 4) + k / 4
  let idx := off + 128 + pad128 (hdrValues slots hd)
  if hdrSparse hd = 0 then some (c * hdrK hd + k)
  else if hdrSparse hd = 1 then
    let x := bufNibbles s core (2 * idx + g) 1
    if k % 4 = x / 4 then some (2 * g + 1) else if k % 4 = x % 4 then some (2 * g) else none
  else
    let x := ((s.core core).wbuf.read (idx + g / 4)).toNat / 4 ^ (g % 4) % 4
    if k % 4 = x then some g else none

/-- The byte of the scale of weight (k, c) (R198). -/
def scaleByte (off : Nat) (hd : List Byte) (slots : Vector Word32 16) (k c : Nat) : Nat :=
  off + 128 + pad128 (hdrValues slots hd) + pad128 (hdrIndices hd) +
    (if hdrGeom hd = 1 then c * (hdrK hd / 16) + k / 16 else if hdrGeom hd = 2 then c * (hdrK hd / 32) + k / 32 else c / 32 * (hdrK hd / 32) + k / 32)

/-- The bytes of an image that weight (k, c) is read from: its value, its index, its scale (R198). -/
def weightBytes (s : State) (core : Nat × Nat) (off : Nat) (hd : List Byte) (slots : Vector Word32 16) (k c : Nat) : List Nat :=
  let g := c * (hdrK hd / 4) + k / 4
  let idx := off + 128 + pad128 (hdrValues slots hd)
  let n := matNibbles slots (hdrType hd)
  (match weightIndex s core off hd slots k c with
    | some v => (List.range (nibbleBytes n)).map (fun i => off + 128 + v * n / 2 + i)
    | none => []) ++
    (if hdrSparse hd = 0 then [] else if hdrSparse hd = 1 then [idx + g / 2] else [idx + g / 4]) ++
    (if hdrGeom hd = 0 then [] else [scaleByte off hd slots k c])

/-- b(k, c) of an image, none for a structural zero (R198). -/
def weightNum (s : State) (core : Nat × Nat) (off : Nat) (hd : List Byte) (slots : Vector Word32 16) (k c : Nat) : Option Num :=
  (weightIndex s core off hd slots k c).map (fun v =>
    let n := matNibbles slots (hdrType hd)
    let x := matNum slots (hdrType hd) (bufNibbles s core (2 * (off + 128) + v * n) n)
    if hdrGeom hd = 0 then x else x.mul (((slotOf slots (hdrSlot hd)).getD (slotFmt 0)).decode ((s.core core).wbuf.read (scaleByte off hd slots k c)).toNat))

/-- b(k, c) of a product's operand on the core of a rank, the image position exchanged under TB (R194). -/
def opWeight (s : State) (op : TileOp) (q k c : Nat) : Option Num :=
  let w := tileWordOf op.instr
  let core := blockCore s (op.blocks.getD q 0)
  if w.tb = 1 then weightNum s core (wgtOff op.vb) (op.headers.getD q []) op.ctx.slots c k
  else weightNum s core (wgtOff op.vb) (op.headers.getD q []) op.ctx.slots k c

/-- The bytes of the image that b(k, c) is read from. -/
def opWeightBytes (s : State) (op : TileOp) (q k c : Nat) : List Nat :=
  let w := tileWordOf op.instr
  let core := blockCore s (op.blocks.getD q 0)
  if w.tb = 1 then weightBytes s core (wgtOff op.vb) (op.headers.getD q []) op.ctx.slots c k
  else weightBytes s core (wgtOff op.vb) (op.headers.getD q []) op.ctx.slots k c

/-- An accumulator element of a region (R187). -/
def accAt (v : Word64) (i c : Nat) : Nat := accOff v + i * accPitch v + 4 * c
def accRead (s : State) (blk o : Nat) : Nat := leNat ((s.block blk).acc.readN o 4)

/-- Writes an element; `pair` when the operation also writes the other half of the word, which clears its error (R302).
DEDUCED: log entry 101. -/
def accWrite (blk o : Nat) (pair : Bool) (x : Nat) (s : State) : State :=
  { mapBlock blk (fun b => { b with acc := b.acc.writeN o (leBytes 4 x) }) s with
    bad := if pair then s.bad.filter (· != .acc blk (o / 8)) else s.bad }

/-- Changes the operation at the head of a stream. -/
def mapHead (k : Nat × Nat) (n : Nat) (f : TileOp → TileOp) (s : State) : State :=
  mapMcc k (fun m => { m with ops := Vec.set m.ops n (match Vec.get m.ops n with | [] => [] | o :: r => f o :: r) }) s

/-- Raises an uncorrectable error later: the first of an operation alone (R209). -/
def tileError (k : Nat × Nat) (n : Nat) (op : TileOp) (e : Option (Nat × Word64)) (s : State) : State :=
  match e with
  | none => s
  | some (d, a) =>
    if (match Vec.get (s.mcc k).ops n with | o :: _ => o.err | [] => true) then s
    else
      let x : Deferred := { tileStream := if isMcc op.issuer then some n else none, detail := d, addr := a }
      mapStream op.issuer (fun y => { y with deferred := y.deferred ++ [x] }) (mapHead k n (fun o => { o with err := true }) s)

/-- The error in an accumulator element, in scratch bytes, in the weights (k, c) read, in memory (R209, R302). -/
def accBad (s : State) (blk o : Nat) : Option (Nat × Word64) := if s.bad.contains (.acc blk (o / 8)) then some (3, 0xC000000000000000 + BitVec.ofNat 64 o) else none
def scrBad (s : State) (blk pos : Nat) : Option (Nat × Word64) :=
  if s.bad.contains (.scratch blk (pos / 16)) then some (2, 0x8000000000000000 + BitVec.ofNat 64 (pos / 2)) else none
def wgtBad (s : State) (op : TileOp) (q : Nat) (ix : List (Nat × Nat)) : Option (Nat × Word64) :=
  if s.bad.any (fun b => match b with
    | .wbuf p c x => (p, c) == blockCore s (op.blocks.getD q 0) && ix.any (fun y => (opWeightBytes s op q y.1 y.2).any (fun o => o / 8 == x))
    | _ => false) then some (5, 0) else none
def sideError (s : State) (c : Ctx) (d : Side) : Option (Nat × Word64) :=
  ((List.range d.places.length).zip d.places).findSome? (fun x => (badAt s c x.2.loc 1).map (fun e => (e, sideVa d.pos x.1)))

/-- The first of several findings. -/
def firstOf (es : List (Option (Nat × Word64))) : Option (Nat × Word64) := es.findSome? id

/-- Numbers of one K-step. -/
def kIndices (ks kb : Nat) : List Nat := (List.range ks).map (fun j => kb * ks + j)

/-- An accumulator after a K-step's sum: integers modulo 2^32, else one rounding to FP32 (R53, R55). -/
def accumulate (int : Bool) (acc : Nat) (x : Num) : Nat :=
  if int then (match x with | .fin neg m e => wrapNat 32 (acc + Num.toIntRnd rneMode neg m e) | _ => acc)
  else fmt32.round rneMode (Num.add false (fmt32.decode acc) x)

/-- An integer product (R55). -/
def intOp (op : TileOp) : Bool := let t := (tileWordOf op.instr).tya.toNat; t == 5 || t == 9

/-- The terms of an `MMA` element's K-step (R54, R194, R227). -/
def mmaTerms (s : State) (op : TileOp) (q i c kb : Nat) : List Num :=
  let w := tileWordOf op.instr
  let h := op.shape
  (kIndices (ksMma op) kb).map (fun k =>
    if k < h.k ∧ under h.lk k = true ∧ admits op (some (q * h.mc + i)) (some c) (some k) = true then
      match opWeight s op q k c with
      | some b => (scrNum s op w.tya.toNat op.va (w.ta == 1) q i k).mul b
      | none => .zero
    else .zero)

/-- The terms of a dX element and of a dW element (R196, R227). -/
def dxTerms (s : State) (op : TileOp) (q i k kb : Nat) : List Num :=
  let t := (tileWordOf op.instr).tya.toNat
  let h := op.shape
  (kIndices (ksMma op) kb).map (fun c =>
    if c < h.n ∧ under h.lc c = true ∧ admits op (some (q * h.mc + i)) (some c) (some k) = true then
      match opWeight s op q k c with
      | some b => (scrNum s op t op.va false q i c).mul b
      | none => .zero
    else .zero)
def dwTerms (s : State) (op : TileOp) (q k c kb : Nat) : List Num :=
  let t := (tileWordOf op.instr).tya.toNat
  let h := op.shape
  (kIndices (ksDw op) kb).map (fun i =>
    if i < h.mc ∧ under h.lr (q * h.mc + i) = true ∧ admits op (some (q * h.mc + i)) (some c) (some k) = true then
      (scrNum s op t op.va1 false q i k).mul (scrNum s op t op.va false q i c)
    else .zero)

/-- A K-step's addition into an element of a region; Z starts from +0 (R194, R196). -/
def addStep (k : Nat × Nat) (n : Nat) (op : TileOp) (blk o kb : Nat) (terms : List Num) (bad : List (Option (Nat × Word64))) (s : State) : State :=
  let z := (tileWordOf op.instr).aux.getLsbD 0 && kb == 0
  let acc := if z then 0 else accRead s blk o
  let s := tileError k n op (firstOf ((if z then none else accBad s blk o) :: bad)) s
  accWrite blk o false (accumulate (intOp op) acc (sumTerms terms)) s

/-- sqrt of a number to the kept bits. -/
def numSqrt : Num → Num
  | .nan => .nan
  | .inf n => if n then .nan else .inf false
  | .fin n m e =>
    if m = 0 then .fin n 0 0
    else if n then .nan
    else
      let m' := if e % 2 = 0 then m else 2 * m
      let e' := if e % 2 = 0 then e else e - 1
      let t := m' * 2 ^ (2 * seriesBits)
      let r := isqrt t
      sticky r (r * r != t) (e' / 2 - seriesBits) false

/-- A quotient to the kept bits (IEEE 754). -/
def numDiv : Num → Num → Num
  | .nan, _ => .nan
  | _, .nan => .nan
  | .inf _, .inf _ => .nan
  | .inf a, .fin b _ _ => .inf (a != b)
  | .fin a _ _, .inf b => .fin (a != b) 0 0
  | .fin a m e, .fin b n f =>
    if n = 0 then (if m = 0 then .nan else .inf (a != b))
    else if m = 0 then .fin (a != b) 0 0
    else
      let t := m * 2 ^ (seriesBits + Nat.log2 n)
      sticky (t / n) (t % n != 0) (e - f - (seriesBits + Nat.log2 n : Nat)) (a != b)

/-- e^x to the kept bits, by its power series on a reduced argument. -/
def numExp : Num → Num
  | .nan => .nan
  | .inf n => if n then .fin false 0 0 else .inf false
  | .fin n m e =>
    if m = 0 then .fin false 1 0
    else if 8 < e + Nat.log2 m then (if n then .fin false 1 (-4096) else .fin false 1 4096)
    else
      let (g, r, sh) := gridSplit m e (-seriesBits)
      let tiny := r != 0 || sh != 0
      let x := if n then (if tiny then g + 1 else g) else g
      -- |x| = i * ln 2 + r in units of 2^-160
      let i := x / ln2Fixed
      let r := x % ln2Fixed
      if n then sticky (2 ^ seriesBits + expGo 64 (ln2Fixed - r) 1 (2 ^ seriesBits)) true (-(i : Int) - 1 - seriesBits) false
      else sticky (2 ^ seriesBits + expGo 64 r 1 (2 ^ seriesBits)) true (i - seriesBits) false


/-- The results of a normalised row (R204). -/
def normRow (rms : Bool) (eps : Num) (xs : List Num) : List Num :=
  let n := Num.ofInt xs.length
  let sum := xs.foldl (fun a x => r32 (Num.add false a x)) (.fin true 0 0)
  let mu := r32 (numDiv sum n)
  let ds := if rms then xs else xs.map (fun x => r32 (Num.add false x mu.neg))
  let q := ds.foldl (fun a d => r32 (Num.add false a (r32 (d.mul d)))) .zero
  let t := r32 (Num.add false (r32 (numDiv q n)) eps)
  let rs := r32 t.rsqrt
  ds.map (fun d => r32 (d.mul rs))

/-- The results of a softmax row (R205). -/
def softRow (tau : Num) (xs : List Num) : List Num :=
  let us := xs.map (fun x => r32 (x.mul tau))
  let m := us.foldl (fun a u => fminmaxn fmt32 true a (fmt32.round rneMode u)) (fmt32.infCode true)
  let m := fmt32.decode m
  if m = .inf true then us.map (fun _ => .zero)
  else
    let es := us.map (fun u => r32 (numExp (r32 (Num.add false u m.neg))))
    let sum := es.foldl (fun a x => r32 (Num.add false a x)) .zero
    es.map (fun x => r32 (numDiv x sum))

/-- The combination of `TRED` (R203). -/
def redCombine (op : Nat) (t x : Nat) : Nat :=
  match op with
  | 0 => fmt32.round rneMode (Num.add false (fmt32.decode t) (fmt32.decode x))
  | 1 => fminmax fmt32 true t x
  | 2 => fminmax fmt32 true (t % 2 ^ 31) (x % 2 ^ 31)
  | _ => (t + x) % 2 ^ 32

/-- The rounding of element (q, i, c) of a transfer: under `.rsr` the draw of its run of 32 columns, drawn in ascending
rank, row, run from the converter as the operation found it (R43, R45, R201). -/
def drawsIn (op : TileOp) : Nat := let h := op.shape; ceilDiv (min h.n (h.lc.getD h.n)) 32
def rowsBelow (op : TileOp) (r : Nat) : Nat := match op.shape.lr with | some l => min l r | none => r
def nthDraw : Nat → Word32 → Word32
  | 0, z => z
  | n + 1, z => nthDraw n (xorshift32 z)
def elemRnd (op : TileOp) (q i c : Nat) : Rnd :=
  let rm := (tileWordOf op.instr).rm.toNat
  if rm = 5 then { mode := 5, rv := drawRv (nthDraw (rowsBelow op (q * op.shape.mc + i) * drawsIn op + c / 32 + 1) op.seed) c } else { mode := rm }

/-- An operation with a converted element: integer accumulators move as they stand and draw nothing (R45, R201).
DEDUCED: log entry 119. -/
def converts (op : TileOp) : Bool := match op.instr with | .accst w | .accld w => w.aux != 1 | _ => true

/-- A transfer under `.rsr` takes its draws when it begins (R201). DEDUCED: log entry 74. -/
def takeDraws (k : Nat × Nat) (n : Nat) (op : TileOp) (s : State) : State :=
  if (tileWordOf op.instr).rm = 5 ∧ converts op = true ∧ op.step = 0 ∧ op.sub = 0 then
    let z := (s.mcc k).conv
    mapHead k n (fun o => { o with seed := z })
      (mapMcc k (fun m => { m with conv := nthDraw (rowsBelow op (op.blocks.length * op.shape.mc) * drawsIn op) z }) s)
  else s

/-- Marks the scratch lines of a side full. -/
def fillSide (blk : Nat) (d : Side) (s : State) : State := fillLines (some blk) (sideLines d) s

/-- A side of a transfer: an `.fsN` access knows no block scale (R51, R201). DEDUCED: log entry 34. -/
def unscaled (t : Nat) (d : Side) : Side := if 16 ≤ t then { d with places := d.places.map (fun p => { p with page := none }) } else d

/-- Stores one accumulator element (R201). -/
def storeUnit (k : Nat × Nat) (n : Nat) (op : TileOp) (q i c : Nat) (s : State) : State :=
  let w := tileWordOf op.instr
  let t := w.tya.toNat
  let blk := op.blocks.getD q 0
  let o := accAt op.vd i c
  let x := accRead s blk o
  let d := unscaled t (memSide s op t (q, i, c))
  let ctx := { op.ctx with block := some blk }
  let puts := if w.aux = 1 then sidePuts 8 d x else valuePuts s ctx (elemRnd op q i c) t (memNibbles s op t) d (fmt32.decode x)
  fillSide blk d (applyPuts (some blk) puts (tileError k n op (accBad s blk o) s))

/-- Loads one accumulator element (R201). -/
def loadUnit (k : Nat × Nat) (n : Nat) (op : TileOp) (q i c : Nat) (s : State) : State :=
  let w := tileWordOf op.instr
  let t := w.tya.toNat
  let blk := op.blocks.getD q 0
  let d := unscaled t (memSide s op t (q, i, c))
  let ctx := { op.ctx with block := some blk }
  let s := foldKeys (sideKeys d) s
  let bs := sideBytes s ctx d
  let v : Num := if isNarrow t then narrowNum s ctx t d (bs.getD 0 0)
    else if tyIsFloat t then (stdFmt t).decode (leNat bs) else .ofInt (intOf t (leNat bs))
  let x := if w.aux = 1 then leNat bs else fmt32.round (elemRnd op q i c) v
  accWrite blk (accAt op.vd i c) (c % 2 == 1) x (tileError k n op (sideError s ctx d) s)

/-- Reads one source element into the operation. -/
def readUnit (k : Nat × Nat) (n : Nat) (op : TileOp) (q i c : Nat) (s : State) : State :=
  let blk := op.blocks.getD q 0
  let o := accAt op.vd i c
  mapHead k n (fun x => { x with buf := x.buf ++ [BitVec.ofNat 32 (accRead s blk o)] }) (tileError k n op (accBad s blk o) s)

/-- Forgets the elements read. -/
def clearBuf (k : Nat × Nat) (n : Nat) (last : Bool) (s : State) : State := if last then mapHead k n (fun x => { x with buf := [] }) s else s

/-- Writes a reduced element (R203). -/
def combineUnit (k : Nat × Nat) (n : Nat) (op : TileOp) (q i c : Nat) (last : Bool) (s : State) : State :=
  let rd := bits (tileWordOf op.instr).aux.toNat 2 1
  let x := match op.buf.map (·.toNat) with
    | [] => 0
    | t :: r => r.foldl (redCombine rd) t
  clearBuf k n last (accWrite (op.blocks.getD q 0) (accAt op.va i c) (c % 2 == 1 && admits op (some i) (some (c - 1)) none) x s)

/-- Writes an element of a normalised row (R204, R205). -/
def rowUnit (k : Nat × Nat) (n : Nat) (op : TileOp) (q i c j : Nat) (last : Bool) (s : State) : State :=
  let p := fmt32.decode (op.vb.toNat % 2 ^ 32)
  let xs := op.buf.map (fun x => fmt32.decode x.toNat)
  let ys := match op.instr with
    | .tnorm w => normRow (w.aux.getLsbD 0) p xs
    | _ => softRow p xs
  clearBuf k n last (accWrite (op.blocks.getD q 0) (accAt op.va i c) (c % 2 == 1 && (rowCols op q i).contains (c - 1)) (fmt32.round rneMode (ys.getD j .zero)) s)

/-- Writes a quantised block with its scale (R49, R202). A set scale slot is taken as it is, a sign or a fraction in it too.
DEDUCED: log entry 118. -/
def blockUnit (k : Nat × Nat) (n : Nat) (op : TileOp) (key : Nat) (es : List (Nat × Nat × Nat)) (s : State) : State :=
  let t := (tileWordOf op.instr).tya.toNat
  let d0 := memSide s op t (es.getD 0 default)
  let pg := ((d0.places.getD 0 default).page).getD default
  let f := (slotOf op.ctx.slots (leafFslot pg.leaf)).getD (slotFmt 0)
  let sf := (slotOf op.ctx.slots (leafSslot pg.leaf)).getD (slotFmt 0)
  let xs := op.buf.map (fun x => fmt32.decode x.toNat)
  let e := blockScaleExp f sf xs
  let mat := (d0.places.getD 0 default).mat
  let puts := (es.zip xs).flatMap (fun x =>
    let d := memSide s op t x.1
    sidePuts (narrowNibbles (some f)) d (encodeScaled f (elemRnd op x.1.1 x.1.2.1 x.1.2.2) e x.2))
  let scale : Put := ⟨.phys key, mat, 0xFF, BitVec.ofNat 8 (sf.round rneMode (.fin false 1 e))⟩
  clearBuf k n true (applyPuts none (puts ++ [scale]) s)

/-- The addresses of the source bytes of line `j` of an image (R199). -/
def sourceVas (op : TileOp) (j len : Nat) : List Word64 :=
  match op.instr with
  | .wloadImg _ => (List.range len).map (fun i => op.va + BitVec.ofNat 64 (128 * j + i))
  | _ =>
    let n := matNibbles op.ctx.slots (tileWordOf op.instr).tyb.toNat
    let hd := op.headers.getD 0 []
    let first := 256 * (j - 1) / n
    if j = 0 then []
    else (List.range (2 * len / n)).flatMap (fun i =>
      if first + i < hdrN hd * hdrK hd then (List.range (nibbleBytes n)).map (sideVa (densePos op n (first + i))) else [])

/-- The physical bytes of whose lines a read is made: a read through column lines recalls every row line of its sectors
(R199, R284). -/
def recallKeys (s : State) (op : TileOp) (vas : List Word64) : List Nat :=
  vas.flatMap (fun va =>
    let p := opPlace s op va
    match p.loc, op.instr with
    | .phys k, .wloadDense w =>
      if w.tb = 1 && (match p.page with | some pg => leafClass pg.leaf == 1 | none => false) then (List.range 8).map (fun i => k / 1024 * 1024 + 128 * i)
      else [k]
    | .phys k, _ => [k]
    | .scr _, _ => [])

/-- Writes a line of an image into a weight buffer (R185, R199). -/
def lineUnit (k : Nat × Nat) (n : Nat) (op : TileOp) (q j : Nat) (s : State) : State :=
  let core := blockCore s (op.blocks.getD q 0)
  let o := loadOff op + 128 * j
  let len := min 128 (hdrTotal (op.headers.getD 0 []) - 128 * j)
  let vas := sourceVas op j len
  let bad := vas.findSome? (fun va => (badAt s op.ctx (opPlace s op va).loc 1).map (fun d => (d, va)))
  let s := foldKeys (recallKeys s op vas) (tileError k n op bad s)
  let bytes := (List.range len).map (fun i => imageByte s op (128 * j + i))
  { mapCore core (fun c => { c with wbuf := c.wbuf.writeN o bytes }) s with
    bad := s.bad.filter (fun b => match b with | .wbuf p c x => !((p, c) == core && decide (o ≤ 8 * x ∧ 8 * x < o + len)) | _ => true) }

/-- An element of an array of `WUPD`. -/
def arrayRead (s : State) (op : TileOp) (size : Nat) (va : Word64) : Nat := leNat (readPlace s op.ctx (opPlace s op va) size)
def arrayWrite (op : TileOp) (va : Word64) (x : Num) (s : State) : State :=
  applyPuts none (putsAt (opPlace s op va).mat (opPlace s op va).loc (leBytes 4 (fmt32.round rneMode x))) s

/-- Updates one element (R207). -/
def updateUnit (k : Nat × Nat) (n : Nat) (op : TileOp) (j : Nat) (s : State) : State :=
  let w := tileWordOf op.instr
  let e := op.vc.toNat + j
  let at_ (o size : Nat) : Word64 := wupdAddr op o + BitVec.ofNat 64 (e * size)
  let vas := (wupdArrays op).map (fun a => (a.1 + BitVec.ofNat 64 (e * a.2.1), a.2.1))
  let bad := firstOf (vas.map (fun a => (badAt s op.ctx (opPlace s op a.1).loc a.2).map (fun d => (d, a.1))))
  let s := foldKeys (sideKeys ⟨0, vas.map (fun a => opPlace s op a.1)⟩) (tileError k n op bad s)
  let gs := tyBytes w.tya.toNat
  let f := wupdNum op
  let p := fmt32.decode (arrayRead s op 4 (at_ 0 4))
  let g := r32 (((stdFmt w.tya.toNat).decode (arrayRead s op gs (at_ 8 gs))).mul (f 0x30))
  let m1 := fmt32.decode (arrayRead s op 4 (at_ 0x10 4))
  let m2 := fmt32.decode (arrayRead s op 4 (at_ 0x18 4))
  let one : Num := .fin false 1 0
  let c1 := r32 (Num.add false one (f 0x24).neg)
  let c2 := r32 (Num.add false one (f 0x28).neg)
  let (lr, wd) := (f 0x20, f 0x34)
  let less (p x : Num) : Num := r32 (Num.add false p (lr.mul (Num.add false x (wd.mul p))).neg)
  match w.aux.toNat with
  | 0 =>
    let m := r32 (Num.add false ((f 0x24).mul m1) (c1.mul g))
    let v := r32 (Num.add false ((f 0x28).mul m2) ((c2.mul g).mul g))
    let den := r32 (Num.add false (r32 (numSqrt (r32 (v.mul (f 0x3C))))) (f 0x2C))
    arrayWrite op (at_ 0 4) (less p (r32 (numDiv (r32 (m.mul (f 0x38))) den))) (arrayWrite op (at_ 0x18 4) v (arrayWrite op (at_ 0x10 4) m s))
  | 1 =>
    let m := r32 (Num.add false ((f 0x24).mul m1) g)
    arrayWrite op (at_ 0 4) (less p m) (arrayWrite op (at_ 0x10 4) m s)
  | _ => arrayWrite op (at_ 0 4) (less p g) s

/-- The errors in what a K-step's update reads: the weights, then the elements of the scratch operands of its terms. -/
def macBad (s : State) (op : TileOp) (q i c kb : Nat) : List (Option (Nat × Word64)) :=
  let w := tileWordOf op.instr
  let ks := (kIndices (ksMma op) kb).filter (fun k => decide (k < op.shape.k) && under op.shape.lk k && admits op (some (q * op.shape.mc + i)) (some c) (some k))
  wgtBad s op q (ks.map (fun k => (k, c))) ::
    ks.map (fun k => scrBad s (op.blocks.getD q 0) (scrPos op.ctx.slots w.tya.toNat op.va (w.ta == 1) i k))
def dxBad (s : State) (op : TileOp) (q i k kb : Nat) : List (Option (Nat × Word64)) :=
  let cs := (kIndices (ksMma op) kb).filter (fun c => decide (c < op.shape.n) && under op.shape.lc c && admits op (some (q * op.shape.mc + i)) (some c) (some k))
  wgtBad s op q (cs.map (fun c => (k, c))) ::
    cs.map (fun c => scrBad s (op.blocks.getD q 0) (scrPos op.ctx.slots (tileWordOf op.instr).tya.toNat op.va false i c))
def dwBad (s : State) (op : TileOp) (q k c kb : Nat) : List (Option (Nat × Word64)) :=
  let b := op.blocks.getD q 0
  let t := (tileWordOf op.instr).tya.toNat
  ((kIndices (ksDw op) kb).filter (fun i => decide (i < op.shape.mc) && under op.shape.lr (q * op.shape.mc + i) &&
      admits op (some (q * op.shape.mc + i)) (some c) (some k))).flatMap (fun i =>
    [scrBad s b (scrPos op.ctx.slots t op.va1 false i k), scrBad s b (scrPos op.ctx.slots t op.va false i c)])

/-- One update of the operation at the head of a stream (R185). -/
def runUnit (k : Nat × Nat) (n : Nat) (u : TileUnit) (s : State) : State :=
  match Vec.get (s.mcc k).ops n with
  | [] => s
  | op :: _ =>
    let blk (q : Nat) : Nat := op.blocks.getD q 0
    match u with
    | .mac q i c kb => addStep k n op (blk q) (accAt op.vd i c) kb (mmaTerms s op q i c kb) (macBad s op q i c kb) s
    | .dx q i d kb => addStep k n op (blk q) (accAt op.vd i d) kb (dxTerms s op q i d kb) (dxBad s op q i d kb) s
    | .dw q d c kb => addStep k n op (blk q) (accAt op.vd1 d c) kb (dwTerms s op q d c kb) (dwBad s op q d c kb) s
    | .zero q i c => accWrite (blk q) (accAt op.vd i c) (c % 2 == 1) 0 s
    | .store q i c => storeUnit k n op q i c s
    | .load q i c => loadUnit k n op q i c s
    | .read q i c => readUnit k n op q i c s
    | .combine q i c last => combineUnit k n op q i c last s
    | .row q i c j last => rowUnit k n op q i c j last s
    | .block key es => blockUnit k n op key es s
    | .line q j => lineUnit k n op q j s
    | .update j => updateUnit k n op j s

/-- The scratch lines (block, line) that a scratch operand's elements take. -/
def operandLines (op : TileOp) (t : Nat) (v : Word64) (tr : Bool) (q : Nat) (ix : List (Nat × Nat)) : List (Nat × Nat) :=
  (ix.map (fun x => (op.blocks.getD q 0, scrPos op.ctx.slots t v tr x.1 x.2 / 256))).eraseDups

/-- The lines that a tile step reads of the operand of dY or A, and of X, with CONS of each (R195, R196).
DEDUCED: log entry 75. -/
def stepLines (op : TileOp) (t : Nat) : List (Nat × Nat) × List (Nat × Nat) :=
  let w := tileWordOf op.instr
  let h := op.shape
  let ty := w.tya.toNat
  if maskedOut op then ([], [])
  else match op.instr with
  | .mma _ =>
    let n := ceilDiv h.k (ksMma op)
    let any (q i k : Nat) : Bool := (List.range h.n).any (fun c => under h.lc c && admits op (some (q * h.mc + i)) (some c) (some k))
    ((ranks op).flatMap (fun q => operandLines op ty op.va (w.ta == 1) q
      (((bandRows (t / n)).filter (fun i => under h.lr (q * h.mc + i))).flatMap (fun i =>
        ((kIndices (ksMma op) (t % n)).filter (fun k => decide (k < h.k) && under h.lk k && any q i k)).map (fun k => (i, k))))), [])
  | .mmd _ =>
    if t < dxSteps op then
      let n := ceilDiv h.n (ksMma op)
      ((ranks op).flatMap (fun q => operandLines op ty op.va false q
        (((bandRows (t / n)).filter (fun i => under h.lr (q * h.mc + i))).flatMap (fun i =>
          ((kIndices (ksMma op) (t % n)).filter (fun c => decide (c < h.n) && under h.lc c)).map (fun c => (i, c))))), [])
    else
      let n := ceilDiv h.mc (ksDw op)
      let t := t - dxSteps op
      let rows (q : Nat) : List Nat := (kIndices (ksDw op) (t % n)).filter (fun i => decide (i < h.mc) && under h.lr (q * h.mc + i))
      ((ranks op).flatMap (fun q => operandLines op ty op.va false q ((rows q).flatMap (fun i => ((List.range h.n).filter (under h.lc)).map (fun c => (i, c))))),
       (ranks op).flatMap (fun q => operandLines op ty op.va1 false q ((rows q).flatMap (fun i => ((bandRows (t / n)).filter (under h.lk)).map (fun k => (i, k))))))
  | .accld _ =>
    ((bandElems op t).filterMap (fun e => match spaceOf (sideVa (memPos op (if 16 ≤ ty then narrowNibbles (slotOf op.ctx.slots (ty - 16)) else 2 * tyBytes ty) (e.1 * h.mc + e.2.1) e.2.2) 0) with
      | some (.scratch o) => some (op.blocks.getD e.1 0, o / 128)
      | _ => none), [])
  | _ => ([], [])

/-- Every line that a step reads is full (R195, R201). -/
def stepReady (s : State) (op : TileOp) : Bool :=
  let ls := stepLines op op.step
  (ls.1 ++ ls.2).all (fun l => !(s.block l.1).empty.contains l.2)

/-- Lines whose last read was in a step (R195). -/
def lastLines (op : TileOp) (pick : List (Nat × Nat) × List (Nat × Nat) → List (Nat × Nat)) : List (Nat × Nat) :=
  let later := (List.range (tileSteps op - op.step - 1)).flatMap (fun j => pick (stepLines op (op.step + 1 + j)))
  (pick (stepLines op op.step)).filter (fun l => !later.contains l)

/-- Empties the consumed lines at a step's end (R195). -/
def consumeStep (op : TileOp) (s : State) : State :=
  let product := match op.instr with | .mma _ | .mmd _ => true | _ => false
  let ls := (if product && scrCons op.va then lastLines op (·.1) else []) ++ (if product && scrCons op.va1 then lastLines op (·.2) else [])
  seqAll (fun l s => mapBlock l.1 (fun b => { b with empty := addOnce l.2 b.empty }) s) ls s

/-- A step of the operation at the head of a stream goes on by a
free number of updates, and ends when all are done (R185, R208). -/
def advanceStep (k : Nat × Nat) (n : Nat) (op : TileOp) (s : State) : State :=
  let us := (stepUnits s op op.step).drop op.sub
  let m := 1 + Config.freeNat s.choice n % max 1 us.length
  let s := takeDraws k n op s
  let s := seqAll (runUnit k n) (us.take m) s
  if us.length ≤ m then mapHead k n (fun o => { o with step := o.step + 1, sub := 0 }) (consumeStep op s)
  else mapHead k n (fun o => { o with sub := o.sub + m }) s

/-- A gang whose context is being saved or discarded stops at a tile-step boundary (R208). -/
def gangStops (s : State) (k : Nat × Nat) : Bool :=
  (s.mcc k).gang.any (fun g => match (s.block g.2).preempt with | .save | .flush | .saved _ => true | _ => false)

/-- `TILE_STEP` (R208). -/
def execTileStep (pkg clu : Nat) (stream : BitVec 3) (s : State) : Out :=
  let k := (pkg, clu)
  finishEvent s (match Vec.get (s.mcc k).ops stream.toNat with
    | [] => .error .stall
    | op :: _ =>
      if tileSteps op ≤ op.step ∨ (s.mcc k).fenced = true ∨ (op.sub = 0 ∧ gangStops s k = true) ∨ stepReady s op = false then .error .stall
      else .ok (advanceStep k stream.toNat op s))

/-- The issuer's TL falls at an operation's end, where it still stands in the same block (R186). -/
def dropTl (op : TileOp) (s : State) : State :=
  if blockOf s op.issuer = op.block then
    { s with streams := Table.upd s.streams op.issuer (fun x => { x with tl := x.tl - 1 }) }
  else s

/-- `TILE_OP_COMPLETE` (R186). -/
def execTileOpComplete (pkg clu : Nat) (stream : BitVec 3) (s : State) : Out :=
  let k := (pkg, clu)
  let n := stream.toNat
  finishEvent s (match Vec.get (s.mcc k).ops n with
    | [] => .error .stall
    | op :: r =>
      if op.step < tileSteps op then .error .stall
      else .ok (dropTl op (mapMcc k (fun m => { m with ops := Vec.set m.ops n r, tsc := Vec.set m.tsc n (Vec.get m.tsc n + 1) }) s)))

/-- The MCC that serves an agent. -/
def mccOf : Agent → Nat × Nat
  | .group p c _ => (p, clusterOfCore c)
  | .mcc p c => (p, c)
  | .ctl p i => (p, i)

/-- `TILE_OP_ARRIVAL`: a group's operation joins the tail of its stream, or its `TSYNC` completes (R185, R186). -/
def execTileOpArrival (ag : Agent) (s : State) : Out :=
  let k := mccOf ag
  let m := s.mcc k
  let ready (o : TileOp) : Bool := o.issuer == ag && (match o.instr with
    | .tsync w => tscReached (Vec.get m.tsc w.sn.toNat) o.va
    | _ => true)
  finishEvent s (match m.arriving.findIdx? ready with
    | none => .error .stall
    | some i =>
      let o := m.arriving.getD i default
      let s := mapMcc k (fun m => { m with arriving := removeAt m.arriving i }) s
      match o.instr with
      | .tsync _ => .ok (dropTl o s)
      | _ => .ok (mapMcc k (fun m => { m with ops := Vec.set m.ops (snOf o.instr) (Vec.get m.ops (snOf o.instr) ++ [o]) }) s))

end Sys2Proof.Machine
end

