-- ==== Sys2Proof/Machine/Cancel.lean ====
section
/-! DEFINITION. `CANCEL` (R178, R254, R327, R356, R377). -/

namespace Sys2Proof.Machine

/-- Launches of the coherent domain with a block that has not ended (R178). -/
def liveLaunches (s : State) (pkg : Nat) : List (Nat × Launch) :=
  s.launches.filter (fun l => panelOf l.2.pkg == panelOf pkg && decide (l.2.ended.length < l.2.count) && (!l.2.cancelled || homesGone s l.2.pkg))

/-- Whether a launch lies within the level of a record at a physical key. -/
def launchWithin (s : State) (target : Nat) (l : Launch) : Bool := chainHas s (launchCtx s l) target 64 l.cc

/-- Graph nodes that are copies and still stand in a queue: the package, the queue (64 for child launches), the copy. -/
def queuedCopies (s : State) : List (Nat × Nat × RingCopy) :=
  s.pkgs.flatMap (fun p => (List.range 65).flatMap (fun q => (queueAt s p.1 q).items.filterMap (fun x => match x with
    | .copy r => some (p.1, q, r)
    | _ => none)))

/-- The context of a queued copy's device accesses. -/
def queuedCtx (s : State) (x : Nat × Nat × RingCopy) : Ctx := deviceCtx s x.1 x.2.2.ctxid x.2.2.ptbase

/-- Copies handed to the engines (R326). -/
def handedCopies (s : State) : List (Nat × Item) := s.items.filter (fun x => x.2.cc != 0)

/-- Takes entries out of a queue; one that loses its head has another to make eligible, and the cores that were held for
that head are free (R331). -/
def cutQueue (p : QItem → Bool) (pkg q : Nat) (s : State) : State :=
  let x := queueAt s pkg q
  let s := if (match x.items.head? with | some i => p i | none => false) then
      unreserve pkg q (mapLaunchQ pkg q (fun y => { y with eligible := false, chosen := false, unplaced := 0 }) s)
    else s
  if x.items.any p then mapLaunchQ pkg q (fun y => { y with items := y.items.filter (fun i => !p i) }) s else s

/-- Takes entries out of the queues of every package. -/
def dropQueued (p : QItem → Bool) (s : State) : State :=
  seqAll (fun (k : Nat × Package) s => seqAll (cutQueue p k.1) (List.range 65) s) s.pkgs s

/-- Whether an item's memory effects have all been made. -/
def itemPerformed (x : Item) : Bool := x.phase == .performed

/-- Sets STATE of a saved block's image, through its own locked pages (R356 to R358, R362). -/
def imageState (blk : Nat) (v : Byte) (s : State) : State :=
  let b := s.block blk
  match b.preempt with
  | .saved n =>
    match lockedPlace s (blockCtx s blk (.group b.pkg b.core 0)) b.locked true ((s.core (b.pkg, b.core)).savebase + BitVec.ofNat 64 (n * 0x300000)) with
    | .ok p => putDevice p [v] s
    | .error _ => s
  | _ => s

/-- Stops a running block without drain: its buffers are discarded, its items not performed end CANCELLED (R178, R356). -/
def cancelBlock (blk : Nat) (s : State) : Eff := do
  let s := killBlock stCancelled .ended blk (imageState blk 0 s)
  let s := { mapBlock blk (fun b => { b with held := [], sched := [], cancelled := true }) s with early := s.early.filter (fun w => w.block != blk) }
  let own := (s.items.filter (fun x => x.2.block == some blk && !x.2.orphan && !itemPerformed x.2)).map (·.1)
  seqEff (fun i s => if (Table.find? s.items i).isSome then endItem i stCancelled s else .ok s) own s

/-- Ends the MCC stream of a cancelled launch; its tile operations end with it (R178, R186). -/
def cancelMcc (k : Nat × Nat) (s : State) : State :=
  let m := s.mcc k
  let ops := m.ops.toList.flatMap id ++ m.arriving
  let s := mapStream (.mcc k.1 k.2) (fun x => { x with run := .ended, posted := none }) s
  let s := seqAll dropTl ops s
  mapMcc k (fun m => { m with
    tsc := Vec.make 8 (fun n => Vec.get m.tsc n + BitVec.ofNat 32 (Vec.get m.ops n).length)
    ops := Vector.replicate 8 []
    arriving := [] }) s

/-- Cancels a launch (R178). -/
def cancelLaunch (id : Nat) (s : State) : Eff := do
  let s ← endUnplaced id stCancelled (mapLaunch id (fun l => { l with cancelled := true }) s)
  let s := dropQueued (fun x => match x with | .launch i _ _ => i == id | _ => false) s
  let s := seqAll cancelMcc ((s.mccs.filter (fun m => m.2.launch == some id)).map (·.1)) s
  seqEff cancelBlock ((s.blocks.filter (fun b => b.2.launch == id)).map (·.1)) s

/-- Ends a queued copy with a status (R178, R326, R376). -/
def endQueued (st : Word16) (x : Nat × Nat × RingCopy) (s : State) : Eff :=
  endRingCopy x.1 x.2.1 x.2.2 st (dropQueued (fun y => match y with | .copy r => r.id == x.2.2.id | _ => false) s)

/-- Ends a launch of a lost package: its unended blocks in ascending linear index (R376, R377). -/
def endLostLaunch (id : Nat) (s : State) : Eff := do
  let l := s.launch id
  let left := (List.range l.count).filter (fun i => !l.ended.contains i)
  let s ← seqEff (fun i s => endLaunchBlock id i stPeerLost (lastCore s l i) s) left s
  let s := dropQueued (fun x => match x with | .launch i _ _ => i == id | _ => false) s
  let mine := (s.blocks.filter (fun b => b.2.launch == id)).map (·.1)
  let s := { s with items := s.items.map (fun x => (x.1, if mine.any (fun b => x.2.block == some b) then { x.2 with orphan := true } else x.2)) }
  .ok (seqAll removeBlock mine s)

/-- Ends a graph node of a lost package that is a copy already handed to its engines (R376). -/
def endLostCopy (id : Nat) (s : State) : Eff := do
  let x := s.item id
  let s ← endAt x.ctx x.queue x.cc stPeerLost s
  let s := mapPkg x.ctx.pkg (fun p => { p with accepted := p.accepted.filter (· != id) }) s
  .ok (s.setItem id { x with cc := 0 })

/-- What stands under the record at a physical key: launches, copies in queues, copies handed to the engines. -/
structure Named where
  launches : List (Nat × Launch)
  queued : List (Nat × Nat × RingCopy)
  handed : List (Nat × Item)

/-- The live items of a panel under a record (R178). -/
def namedBy (s : State) (pkg key : Nat) : Named where
  launches := (liveLaunches s pkg).filter (fun l => launchWithin s key l.2)
  queued := (queuedCopies s).filter (fun x => panelOf x.1 == panelOf pkg && chainHas s (queuedCtx s x) key 64 x.2.2.cc)
  handed := (handedCopies s).filter (fun x => panelOf x.2.ctx.pkg == panelOf pkg && chainHas s x.2.ctx key 64 x.2.cc)

/-- The items of packages that a test on the package picks. -/
def Named.at (n : Named) (p : Nat → Bool) : Named :=
  ⟨n.launches.filter (fun l => p l.2.pkg), n.queued.filter (fun x => p x.1), n.handed.filter (fun x => p x.2.ctx.pkg)⟩

/-- An item that belongs to another job (R178). -/
def Named.foreign (n : Named) (job : Nat) : Bool :=
  n.launches.any (fun l => jobOf l.2.ctxid != job) || n.queued.any (fun x => jobOf x.2.2.ctxid != job) || n.handed.any (fun x => jobOf x.2.ctx.ctxid != job)

/-- Ends the items of packages of which no copy is left (R377). -/
def endGone (n : Named) (s : State) : Eff := do
  let s ← seqEff (fun (l : Nat × Launch) s => endLostLaunch l.1 s) n.launches s
  let s ← seqEff (endQueued stPeerLost) n.queued s
  seqEff (fun (x : Nat × Item) s => endLostCopy x.1 s) n.handed s

/-- Ends items CANCELLED (R178). -/
def endNamed (n : Named) (s : State) : Eff := do
  let s ← seqEff (fun l s => cancelLaunch l.1 s) n.launches s
  let s ← seqEff (endQueued stCancelled) n.queued s
  seqEff (fun x s => if (Table.find? s.items x.1).isSome && !itemPerformed x.2 then endItem x.1 stCancelled s else .ok s) n.handed s

/-- `CANCEL` at any level: the record names the item, whatever its level, and the item is live while COUNT is not 0 and CANC is
0 (R178, R325). What the lists of packages with no copy left hold within it ends PEER_LOST first (R377).
DEDUCED: log entry 78. -/
def cancelForm (w : LongWord) (s : State) : Eff := do
  raiseIf (isMcc s.cur) .illegal 0
  let c := selfCtx s
  let va := reg s w.a
  raiseIf (!controlOn 8 va) .protection 0x15 va
  let p ← place s c { write := true } va 8
  let done (v : Word64) (s : State) : State := advance 8 (setReg w.d v s)
  match p.loc with
  | .scr _ => .ok (done 0 s)
  | .phys key =>
    let named := namedBy s c.pkg key
    raiseIf (named.foreign (jobOf c.ctxid)) .protection 0x14
    let lost := named.at (homesGone s)
    let bad := badAt s c p.loc 0x14
    if lost.launches = [] ∧ lost.queued = [] ∧ lost.handed = [] then
      match bad with
      | some d => raise .memerr d va
      | none => pure ()
    let s ← endGone lost s
    match bad with
    | some d => .ok (advance 8 (mapSelf (fun x => { x with posted := some { cls := .memerr, detail := d, addr := va } }) s))
    | none =>
      let s := foldAt p.loc s
      let bs := readPlace s c p 0x14
      if numAt bs 0 8 = 0 ∨ numAt bs 0x12 2 % 2 = 1 then .ok (done 0 s)
      else do
        let s := putDevice { p with loc := .phys (key + 0x12) } (leBytes 2 (numAt bs 0x12 2 + 1)) s
        let s ← endNamed (named.at (fun q => !homesGone s q)) s
        .ok (if (self s).run = .ended then s else done 1 s)

/-- `CANCEL.launch`, `.graph`, `.phase`, `.job` (R178). DESIGN CHOICE: log entry 60. -/
def execCancel (w : LongWord) (s : State) : Out := finish s (cancelForm w s)

end Sys2Proof.Machine
end

