-- ==== Sys2Proof/Machine/Preempt.lean ====
section
/-! DEFINITION. Pre-emption: victims, modes, drain, save images, flush-and-restart, resumption (R208, R219, R254, R330 to
R332, R350 to R362). -/

namespace Sys2Proof.Machine

/-- The estimate of a block's remaining cycles, none for infinity (R350). -/
def estimate (s : State) (b : Block) : Option Nat :=
  let ex := (s.launch b.launch).expect
  if ex = 0 ∨ b.rt = 0 ∨ ex ≤ b.rt then none else some (ceilDiv ((ex - b.rt) * b.e) b.rt)

/-- The mode of a victim, a gang as one (R351). -/
def preemptMode (s : State) (bs : List Nat) : Preempt :=
  if bs.all (fun b => match estimate s (s.block b) with | some e => decide (e < 65536) | none => false) then .drain 0
  else if (s.launch (s.block (bs.headD 0)).launch).idem then .flush
  else .save

/-- Whether a block is leaving its core. -/
def leaving (b : Block) : Bool := b.preempt != .none

/-- Save slots of a core that are taken or promised (R357). -/
def slotsTaken (s : State) (k : Nat × Nat) : Nat :=
  (s.blocks.filter (fun b => b.2.pkg == k.1 && b.2.core == k.2 && (match b.2.preempt with | .saved _ | .save => true | _ => false))).length

/-- Units that may be pre-empted together for work of priority `e` (R330, R357): the blocks of a gang go as one. -/
def victimUnits (s : State) (e : Nat) (cores : List (Nat × Nat)) : List (List Nat) :=
  let here := (cores.flatMap (residents s)).filter (fun b => !leaving b.2 && decide ((s.launch b.2.launch).prio < e))
  let ok (blk : Nat) : Bool := let b := s.block blk; (s.launch b.launch).idem || decide (slotsTaken s (b.pkg, b.core) < 16)
  ((here.map (fun b => gangOfBlock s b.1)).eraseDups).filter (fun u => u.all ok)

/-- Lower priority first, and the most recently placed among equals (R330). -/
def beforeUnit (s : State) (a b : List Nat) : Bool :=
  let p (u : List Nat) : Nat := (s.launch (s.block (u.headD 0)).launch).prio
  decide (p a < p b) || (p a == p b && decide (b.foldl max 0 < a.foldl max 0))

def insertUnit (s : State) (u : List Nat) : List (List Nat) → List (List Nat)
  | [] => [u]
  | x :: r => if beforeUnit s u x then u :: x :: r else x :: insertUnit s u r

/-- Sublists of `k` elements, in order. -/
def subsetsOfSize {α : Type} : Nat → List α → List (List α)
  | 0, _ => [[]]
  | _ + 1, [] => []
  | k + 1, x :: r => (subsetsOfSize k r).map (x :: ·) ++ subsetsOfSize (k + 1) r

/-- The smallest set of victims that makes something fit, counting blocks that leave already as gone (R330). -/
def victims (s : State) (e : Nat) (cores : List (Nat × Nat)) (fits : List Nat → Bool) : Option (List (List Nat)) :=
  let us := (victimUnits s e cores).foldr (insertUnit s) []
  let gone := (s.blocks.filter (fun b => leaving b.2)).map (·.1)
  ((List.range (us.length + 1)).flatMap (fun k => subsetsOfSize k us)).find? (fun v => fits (gone ++ v.flatMap id))

/-- A block of a launch fits a core once some blocks have left it (R330, R332). -/
def fitsWithout (s : State) (l : Launch) (who : Nat) (k : Nat × Nat) (gone : List Nat) : Bool :=
  coreOpen s k who l.prio && fitsBeside l (((residents s k).filter (fun b => !gone.contains b.1)).map (·.2)) &&
    !(imagesAt s k).any (fun b => decide (l.prio ≤ (s.launch b.2.launch).prio))

/-- An MCC is free once some blocks have left (R181, R332). -/
def mccFreeWithout (s : State) (k : Nat × Nat) (gone : List Nat) : Bool :=
  let m := s.mcc k
  mccFree s k || (!m.fenced && m.gang != [] && m.gang.all (fun g => gone.contains g.2 || (Table.find? s.blocks g.2).isNone))

/-- Victims for a block of a launch on a core, or for a gang on a cluster. -/
def victimsFor (s : State) (l : Launch) (who : Nat) (place : Nat) : Option (List (List Nat)) :=
  if l.mcode = 0 then victims s l.prio [(l.pkg, place)] (fitsWithout s l who (l.pkg, place))
  else
    let ks := (serviceCores (s.pkg l.pkg).muniment place).map (fun c => (l.pkg, c))
    victims s l.prio ks (fun gone => mccFreeWithout s (l.pkg, place) gone && ks.all (fun k => fitsWithout s l who k gone))

/-- The highest priority among victims, and their number. -/
def victimRank (s : State) (v : List (List Nat)) : Nat × Nat :=
  ((v.map (fun u => (s.launch (s.block (u.headD 0)).launch).prio + 1)).foldl max 0, (v.flatMap id).length)

/-- The best of the candidates in ascending logical number (R330). -/
def bestVictims (s : State) : List (List (List Nat)) → Option (List (List Nat))
  | [] => none
  | v :: r => match bestVictims s r with
    | none => some v
    | some w => let a := victimRank s v; let b := victimRank s w; if a.1 < b.1 ∨ (a.1 = b.1 ∧ a.2 ≤ b.2) then some v else some w

/-- Fixes the modes of chosen victims (R351). -/
def markVictims (v : List (List Nat)) (s : State) : State :=
  seqAll (fun u s =>
    let m := preemptMode s u
    seqAll (fun b s => mapBlock b (fun x => { x with preempt := m }) s) (u.filter (fun b => (Table.find? s.blocks b).isSome)) s) v s

/-- `PREEMPT_DECISION`: an eligible head of priority 1 or more that fits nowhere pre-empts (R330, R351). -/
def execPreemptDecision (pkg queue : Nat) (s : State) : Out :=
  finishEvent s (match headLaunch s pkg queue with
    | none => .error .stall
    | some id =>
      let l := s.launch id
      let places := if l.mcode = 0 then logicalCores s pkg else (List.range 4).flatMap (fun d => (usableClusters (s.pkg pkg).muniment d).take 12)
      if !(queueAt s pkg queue).eligible ∨ l.prio = 0 ∨ servable s pkg queue = true then .error .stall
      else match bestVictims s (places.filterMap (victimsFor s l queue)) with
        | none => .error .stall
        | some [] => .error .stall
        | some v => .ok (markVictims v s))

/-- `DRAIN_FALLBACK`: a drained block that has not ended at 65,536 cycles is flushed or saved (R352). -/
def execDrainFallback (block : Nat) (s : State) : Out :=
  finishEvent s (match Table.find? s.blocks block with
    | none => .error .stall
    | some b =>
      match b.preempt with
      | .drain age =>
        if age < 65536 then .error .stall
        else
          let m : Preempt := if (s.launch b.launch).idem then .flush else .save
          .ok (seqAll (fun i s => mapBlock i (fun x => match x.preempt with | .drain _ => { x with preempt := m } | _ => x) s) (gangOfBlock s block) s)
      | _ => .error .stall)

/-- A part of an image: its offset, its length, how it is written and how it is read back. -/
abbrev Part (α : Type) := Nat × Nat × (α → List Byte) × (List Byte → α → α)

/-- A number of `n` bytes. -/
def numPart {α : Type} (off n : Nat) (get : α → Nat) (put : Nat → α → α) : Part α := (off, n, fun x => leBytes n (get x), fun bs x => put (leNat bs) x)

/-- A part that is only written. -/
def outPart {α : Type} (off n : Nat) (get : α → List Byte) : Part α := (off, n, get, fun _ x => x)

/-- A 1 for true. -/
def oneIf (b : Bool) : Nat := if b then 1 else 0

/-- The parts of a scalar stream's counters and registers at the places of a record (R359, R361). -/
def streamRegs {α : Type} (base : Nat) (get : α → Stream) (put : Stream → α → α) : List (Part α) :=
  (List.range 63).map (fun i => numPart (base + 8 * i) 8 (fun x => (Vec.get (get x).s (i + 1)).toNat)
    (fun v x => put { get x with s := Vec.set (get x).s (i + 1) (BitVec.ofNat 64 v) } x))

/-- A group's context: its stream and its own part. -/
abbrev GroupCtx := Stream × Group

/-- The program counter that an image holds: the continuation of `YIELD`; a `WAITY` that left its slot issues again.
DEDUCED: log entry 80. -/
def imageSpc (x : Stream) : Word64 :=
  match x.run with
  | .awayYield t => t
  | .awayWait _ _ _ _ => x.spc - 4
  | _ => x.spc

def isAwayYield (x : Stream) : Bool := match x.run with | .awayYield _ => true | _ => false

/-- How a stream whose image is read goes on (R362). -/
def runFromImage (away : Bool) (pc : Word64) (r : Run) : Run :=
  match r with
  | .ended => .ended
  | .fenced => .fenced
  | _ => if away then .awayYield pc else .running

/-- A segment's, a split's and a parked record's bytes (R359). -/
def segBytes (g : Segment) : List Byte := leBytes 8 g.start.toNat ++ g.frame.toList.flatMap (fun w => leBytes 4 w.toNat)
def splitBytes : Option Split → List Byte
  | none => leBytes 40 0
  | some p => leBytes 8 p.lpc.toNat ++ leBytes 4 p.mask.toNat ++ p.m.toList.flatMap (fun w => leBytes 4 w.toNat)
def parkedBytes (p : Parked) : List Byte :=
  leBytes 4 p.pmask.toNat ++ leBytes 1 (oneIf p.hold) ++ leBytes 3 0 ++ leBytes 8 p.plpc.toNat ++ leBytes 8 p.pjoin.toNat ++ p.pm.toList.flatMap (fun w => leBytes 4 w.toNat) ++ leBytes 12 0

def word32At (bs : List Byte) (o : Nat) : Word32 := BitVec.ofNat 32 (numAt bs o 4)
def word64At (bs : List Byte) (o : Nat) : Word64 := BitVec.ofNat 64 (numAt bs o 8)

def segOfBytes (bs : List Byte) : Segment := { start := word64At bs 0, frame := Vec.make 16 (fun j => word32At bs (8 + 4 * j)) }
def splitOfBytes (bs : List Byte) : Option Split :=
  if numAt bs 8 4 = 0 then none else some { lpc := word64At bs 0, mask := word32At bs 8, m := Vec.make 7 (fun j => word32At bs (12 + 4 * j)) }
def parkedOfBytes (bs : List Byte) : Parked :=
  { pmask := word32At bs 0, plpc := word64At bs 8, pjoin := word64At bs 16, hold := numAt bs 4 1 == 1, pm := Vec.make 7 (fun j => word32At bs (24 + 4 * j)) }

/-- The first `n` records of a part, of `size` bytes each. -/
def recordsOf {β : Type} (f : List Byte → β) (size n : Nat) (bs : List Byte) : List β := (List.range n).map (fun j => f ((bs.drop (size * j)).take size))

/-- Pads bytes with zeros to a length. -/
def padTo (n : Nat) (bs : List Byte) : List Byte := (bs ++ List.replicate n (0 : Byte)).take n

/-- An operand queue's descriptor as 64 bytes in the order of R104: base, strides with counts, handle, fill word; and a byte
for what those leave out, its element type, RDIM and an unset BASE. No descriptor's is 0, since no stream has type 0.
DESIGN CHOICE: log entry 18. -/
def descBytes (d : AaeDesc) : List Byte :=
  leBytes 8 (d.base.getD 0).toNat ++ d.dims.toList.flatMap (fun x => leBytes 8 x.1.toNat ++ leBytes 4 x.2) ++ leBytes 4 d.handle.toNat ++ leBytes 4 d.pad.toNat
def descTag (d : AaeDesc) : Nat := d.ty.toNat + 32 * (d.rdim % 4) + 128 * oneIf d.base.isNone
def descOf (bs : List Byte) (tag : Nat) : AaeDesc :=
  { base := if tag / 128 = 1 then none else some (word64At bs 0), ty := BitVec.ofNat 5 tag,
    dims := Vec.make 4 (fun i => (word64At bs (8 + 12 * i), numAt bs (16 + 12 * i) 4)), handle := word32At bs 56, rdim := tag / 32 % 4, pad := word32At bs 60 }

/-- The entries that are poisoned, a bit for each. -/
def poisonBits (q : Queue) : Nat :=
  ((List.range q.entries.length).zip q.entries).foldl (fun m e => match e.2 with | .poison _ _ _ => m + 2 ^ e.1 | .words _ => m) 0

/-- The AAE part of a queue (R359), the tags of its three descriptors behind its poison bits (log entry 18). -/
def queueBytes (q : Queue) : List Byte :=
  let st (x : Option AaeStream) : List Byte := match x with | some y => descBytes y.desc | none => leBytes 64 0
  let tag (x : Option AaeStream) : Nat := match x with | some y => descTag y.desc | none => 0
  descBytes q.staged ++ st q.running ++ st q.pending ++
    (match q.running with | some x => leBytes 4 x.pass ++ leBytes 4 x.pos | none => leBytes 8 0) ++ leBytes 1 q.entries.length ++ leBytes 1 (poisonBits q) ++
    leBytes 1 (descTag q.staged) ++ leBytes 1 (tag q.running) ++ leBytes 1 (tag q.pending)

/-- A queue read back from its part: the descriptors, the progress and the entries that the part counts; the faults of
poisoned entries and what a stream took from its record are the device's own (log entry 18). -/
def queueOf (bs : List Byte) (q : Queue) : Queue :=
  let st (o t : Nat) (old : Option AaeStream) : Option AaeStream :=
    if numAt bs t 1 = 0 then none else some { old.getD default with desc := descOf (bs.drop o) (numAt bs t 1) }
  { staged := descOf bs (numAt bs 202 1)
    running := (st 64 203 q.running).map (fun x => { x with pass := numAt bs 192 4, pos := numAt bs 196 4 })
    pending := st 128 204 q.pending
    entries := (List.range (min 8 (numAt bs 200 1))).map (fun i =>
      match (numAt bs 201 1).testBit i, q.entries[i]? with
      | true, some (.poison c d a) => .poison c d a
      | _, some (.words v) => .words v
      | _, _ => .words default) }

/-- The entries of a queue: 128 bytes each, oldest first. -/
def entryBytes (q : Queue) : List Byte :=
  q.entries.flatMap (fun e => match e with | .words v => v.toList.flatMap (fun w => leBytes 4 w.toNat) | .poison _ _ _ => leBytes 128 0)

/-- Reads the words of a queue's entries back. -/
def entriesFrom (bs : List Byte) (es : List QEntry) : List QEntry :=
  ((List.range es.length).zip es).map (fun e => match e.2 with
    | .words _ => .words (Vec.make 32 (fun l => word32At bs (128 * e.1 + 4 * l)))
    | p => p)

/-- A group record (R359). -/
def groupParts (wslot : Nat) : List (Part GroupCtx) :=
  let st (f : Stream → Nat) : GroupCtx → Nat := fun x => f x.1
  let set (f : Nat → Stream → Stream) : Nat → GroupCtx → GroupCtx := fun v x => (f v x.1, x.2)
  [numPart 0x000 8 (st (fun x => (imageSpc x).toNat)) (set (fun v x => { x with spc := BitVec.ofNat 64 v })),
   numPart 0x008 1 (st (·.mode.toNat)) (set (fun v x => { x with mode := BitVec.ofNat 8 v })),
   numPart 0x009 1 (fun x => oneIf x.1.ext.isSome + 2 * oneIf (isAwayYield x.1) + 4 * oneIf x.2.rep.isSome)
     (fun v x => ({ x.1 with ext := if v % 2 = 1 then some 0 else none, run := runFromImage (v / 2 % 2 == 1) x.1.spc x.1.run },
       { x.2 with rep := if v / 4 % 2 = 1 then some (0, 0) else none })),
   numPart 0x00A 1 (fun _ => wslot) (fun _ x => x),
   numPart 0x00B 1 (fun x => match x.2.rep with | some r => r.2 | none => 0) (fun v x => (x.1, { x.2 with rep := x.2.rep.map (fun r => (r.1, v)) })),
   numPart 0x00C 4 (st (fun x => (x.ext.getD 0).toNat * 64)) (set (fun v x => { x with ext := x.ext.map (fun _ => BitVec.ofNat 26 (v / 64)) })),
   numPart 0x010 1 (st (·.ld)) (set (fun v x => { x with ld := v })),
   numPart 0x011 1 (st (·.st)) (set (fun v x => { x with st := v })),
   numPart 0x012 1 (st (·.cp)) (set (fun v x => { x with cp := v })),
   numPart 0x013 1 (st (·.tl)) (set (fun v x => { x with tl := v })),
   numPart 0x014 2 (st (·.fstat.toNat)) (set (fun v x => { x with fstat := BitVec.ofNat 16 v })),
   numPart 0x016 1 (fun x => match x.2.rep with | some r => r.1 | none => 0) (fun v x => (x.1, { x.2 with rep := x.2.rep.map (fun r => (v % 4, r.2)) })),
   numPart 0x017 1 (fun _ => 0) (fun _ x => x),
   numPart 0x018 4 (st (·.fcnt.toNat)) (set (fun v x => { x with fcnt := BitVec.ofNat 32 v })),
   numPart 0x01C 4 (fun x => x.2.live.toNat) (fun v x => (x.1, { x.2 with live := BitVec.ofNat 32 v })),
   numPart 0x020 8 (st (·.trappc.toNat)) (set (fun v x => { x with trappc := BitVec.ofNat 64 v })),
   numPart 0x028 8 (st (·.trapaddr.toNat)) (set (fun v x => { x with trapaddr := BitVec.ofNat 64 v })),
   numPart 0x030 4 (st (·.trapcause.toNat)) (set (fun v x => { x with trapcause := BitVec.ofNat 32 v })),
   numPart 0x034 4 (fun _ => 0) (fun _ x => x),
   -- the field holds one `TSYNC`; others are the device's own (log entry 18)
   numPart 0x038 8 (fun x => match x.2.tsync with | t :: _ => 2 ^ 63 + t.1 * 2 ^ 32 + t.2.toNat | [] => 0)
     (fun v x => (x.1, { x.2 with tsync := (if v / 2 ^ 63 = 1 then [(v / 2 ^ 32 % 8, BitVec.ofNat 32 v)] else []) ++ x.2.tsync.drop 1 }))] ++
  streamRegs 0x040 (·.1) (fun y x => (y, x.2)) ++
  [outPart 0x238 8 (fun _ => leBytes 8 0),
   (0x240, 64, fun x => x.2.frame.toList.flatMap (fun w => leBytes 4 w.toNat), fun bs x => (x.1, { x.2 with frame := Vec.make 16 (fun j => word32At bs (4 * j)) })),
   -- the counts come before the lists that they cut
   (0x3A0, 32, fun x => padTo 32 (leBytes 1 x.2.segq.length), fun bs x => (x.1, { x.2 with segq := List.replicate (min 4 (numAt bs 0 1)) default })),
   (0x280, 288, fun x => padTo 288 (x.2.segq.flatMap segBytes), fun bs x => (x.1, { x.2 with segq := recordsOf segOfBytes 72 x.2.segq.length bs })),
   (0x3C0, 160, fun x => x.2.splits.toList.flatMap splitBytes, fun bs x => (x.1, { x.2 with
     splits := Vec.make 4 (fun i => splitOfBytes ((bs.drop (40 * i)).take 40))
     inSeg := (List.range 4).any (fun i => numAt bs (40 * i + 8) 4 != 0) })),
   (0x460, 32, fun x => padTo 32 (leBytes 1 x.2.parked.length), fun bs x => (x.1, { x.2 with parked := List.replicate (min 8 (numAt bs 0 1)) default })),
   (0x480, 512, fun x => padTo 512 (x.2.parked.flatMap parkedBytes), fun bs x => (x.1, { x.2 with parked := recordsOf parkedOfBytes 64 x.2.parked.length bs }))] ++
  (List.range 8).map (fun n => (0x680 + 256 * n, 256, fun x => padTo 256 (queueBytes (Vec.get x.2.queues n)),
    fun bs x => (x.1, { x.2 with queues := Vec.set x.2.queues n (queueOf bs (Vec.get x.2.queues n)) }))) ++
  [outPart 0xE80 384 (fun _ => leBytes 384 0)] ++
  (List.range 8).map (fun n => (0x1000 + 1024 * n, 1024, fun x => padTo 1024 (entryBytes (Vec.get x.2.queues n)),
    fun bs x => (x.1, { x.2 with queues := Vec.set x.2.queues n { Vec.get x.2.queues n with entries := entriesFrom bs (Vec.get x.2.queues n).entries } })))

/-- A barrier as an image holds it (R358). -/
def barWord (b : Option Barrier) : Nat :=
  match b with
  | some x => (x.arrived.map (fun i => 2 ^ i)).foldl (· + ·) 0 * 2 ^ 32 + x.count.getD 0 * 256 + oneIf x.count.isSome
  | none => 0
def barOfWord (v : Nat) (old : Option Barrier) : Barrier :=
  { count := if v % 2 = 1 then some (v / 256 % 64) else none, arrived := (List.range 32).filter (fun i => (v / 2 ^ 32).testBit i), phase := match old with | some x => x.phase | none => 0 }

/-- Flags as bytes, bit n of the whole for number n; and back. -/
def flagBytes (n : Nat) (p : Nat → Bool) : List Byte := (List.range n).map (fun i => BitVec.ofNat 8 (((List.range 8).map (fun j => if p (8 * i + j) then 2 ^ j else 0)).foldl (· + ·) 0))
def flagSet (n : Nat) (bs : List Byte) : List Nat := (List.range n).filter (fun i => (bs.getD (i / 8) 0).getLsbD (i % 8))

/-- Bytes of the pool units of each kind (R19, R360). -/
def rfuBytes (partw : Word32) : Nat := (partw.extractLsb' 24 8).toNat * 16384
def qbuBytes (partw : Word32) : Nat := (partw.extractLsb' 0 8).toNat * 16384

/-- The block header and the full/empty bits, with STATE left out (R357, R358). -/
def blockParts (recAddr : Word64) (prio ngrp : Nat) (gang mccHere : Bool) : List (Part Block) :=
  let w (n : Nat) : Nat → Part Block := fun o => outPart o n (fun _ => leBytes n 0)
  [w 1 1, numPart 0x002 2 (·.core) (fun _ b => b), numPart 0x004 1 (fun _ => ngrp) (fun _ b => b), numPart 0x005 1 (fun _ => prio) (fun _ b => b),
   numPart 0x006 1 (·.barbase) (fun _ b => b), numPart 0x007 1 (·.nbar) (fun _ b => b), numPart 0x008 8 (fun _ => recAddr.toNat) (fun _ b => b),
   numPart 0x010 8 (·.index) (fun _ b => b), numPart 0x018 4 (·.partw.toNat) (fun _ b => b),
   numPart 0x01C 4 (·.stage.toNat) (fun v b => { b with stage := BitVec.ofNat 32 v }),
   numPart 0x020 8 (·.rt) (fun v b => { b with rt := v }), numPart 0x028 8 (·.e) (fun v b => { b with e := v }),
   numPart 0x030 4 (·.ctxid.toNat) (fun v b => { b with ctxid := BitVec.ofNat 32 v }),
   numPart 0x034 4 (fun _ => oneIf gang + 2 * oneIf mccHere) (fun _ b => b),
   numPart 0x038 8 (·.ptbase.toNat) (fun v b => { b with ptbase := BitVec.ofNat 64 v }), w 64 0x40] ++
  (List.range 48).map (fun i => numPart (0x080 + 8 * i) 8 (fun b => barWord (Table.find? b.bars i))
    (fun v b => if i < b.nbar then { b with bars := Table.put b.bars i (barOfWord v (Table.find? b.bars i)) } else b)) ++
  [(0x200, 512, fun b => flagBytes 512 b.released.contains, fun bs b => { b with released := flagSet 4096 bs }), w 3072 0x400,
   (0x1000, 2048, fun b => flagBytes 2048 (fun n => decide (128 * n < spuBytes b.partw) && !b.empty.contains n),
     fun bs b => { b with empty := (List.range (spuBytes b.partw / 128)).filter (fun n => !(bs.getD (n / 8) 0).getLsbD (n % 8)) }), w 2048 0x1800]

/-- The MCC context (R361); streams hold what the device reads back (log entry 18). -/
def mccParts (w01 : Instr → Nat × Nat) (instr : Nat → Nat → Option Instr) : List (Part (Stream × Mcc)) :=
  let st (f : Stream → Nat) : Stream × Mcc → Nat := fun x => f x.1
  let set (f : Nat → Stream → Stream) : Nat → Stream × Mcc → Stream × Mcc := fun v x => (f v x.1, x.2)
  let opBytes (o : TileOp) : List Byte :=
    leBytes 4 (w01 o.instr).1 ++ leBytes 4 (w01 o.instr).2 ++ [o.vd, o.va, o.vb, o.vc, o.vd1, o.va1].flatMap (fun v => leBytes 8 v.toNat) ++ leBytes 8 o.step
  -- an operation read back; what the device keeps of its checks is its own (log entry 18)
  let opOf (bs : List Byte) (o : TileOp) : TileOp :=
    { o with instr := (instr (numAt bs 0 4) (numAt bs 4 4)).getD o.instr, vd := word64At bs 8, va := word64At bs 16, vb := word64At bs 24, vc := word64At bs 32, vd1 := word64At bs 40, va1 := word64At bs 48, step := numAt bs 56 8 }
  let opsOf (bs : List Byte) (old : List TileOp) : List TileOp :=
    ((List.range 16).filter (fun j => numAt bs (64 * j) 4 != 0)).map (fun j => opOf ((bs.drop (64 * j)).take 64) (old.getD j default))
  let opsPart (n : Nat) : Part (Stream × Mcc) :=
    (0x400 + 1024 * n, 1024, fun x => padTo 1024 ((Vec.get x.2.ops n).flatMap opBytes),
      fun bs x => (x.1, { x.2 with ops := Vec.set x.2.ops n (opsOf bs (Vec.get x.2.ops n)) }))
  [numPart 0x000 8 (st (fun x => (imageSpc x).toNat)) (set (fun v x => { x with spc := BitVec.ofNat 64 v })),
   numPart 0x008 1 (st (·.mode.toNat)) (set (fun v x => { x with mode := BitVec.ofNat 8 v })),
   numPart 0x009 1 (st (fun x => oneIf x.ext.isSome)) (set (fun v x => { x with ext := if v % 2 = 1 then some 0 else none })),
   outPart 0x00A 2 (fun _ => leBytes 2 0),
   numPart 0x00C 4 (st (fun x => (x.ext.getD 0).toNat)) (set (fun v x => { x with ext := x.ext.map (fun _ => BitVec.ofNat 26 v) })),
   numPart 0x010 1 (st (·.ld)) (set (fun v x => { x with ld := v })),
   numPart 0x011 1 (st (·.st)) (set (fun v x => { x with st := v })),
   numPart 0x012 1 (st (·.cp)) (set (fun v x => { x with cp := v })),
   numPart 0x013 1 (st (·.tl)) (set (fun v x => { x with tl := v })),
   numPart 0x014 2 (st (·.fstat.toNat)) (set (fun v x => { x with fstat := BitVec.ofNat 16 v })),
   numPart 0x016 4 (st (·.fcnt.toNat)) (set (fun v x => { x with fcnt := BitVec.ofNat 32 v })),
   outPart 0x01A 6 (fun _ => leBytes 6 0),
   numPart 0x020 8 (st (·.trappc.toNat)) (set (fun v x => { x with trappc := BitVec.ofNat 64 v })),
   numPart 0x028 8 (st (·.trapaddr.toNat)) (set (fun v x => { x with trapaddr := BitVec.ofNat 64 v })),
   numPart 0x030 4 (st (·.trapcause.toNat)) (set (fun v x => { x with trapcause := BitVec.ofNat 32 v })),
   outPart 0x034 12 (fun _ => leBytes 12 0)] ++
  streamRegs 0x040 (·.1) (fun y x => (y, x.2)) ++
  (List.range 8).map (fun n => numPart (0x240 + 4 * n) 4 (fun x => (Vec.get x.2.tsc n).toNat) (fun v x => (x.1, { x.2 with tsc := Vec.set x.2.tsc n (BitVec.ofNat 32 v) }))) ++
  [numPart 0x260 4 (fun x => x.2.ctxid.toNat) (fun v x => (x.1, { x.2 with ctxid := BitVec.ofNat 32 v })),
   outPart 0x264 4 (fun _ => leBytes 4 0),
   numPart 0x268 8 (fun x => x.2.ptbase.toNat) (fun v x => (x.1, { x.2 with ptbase := BitVec.ofNat 64 v })),
   outPart 0x270 144 (fun _ => leBytes 144 0)] ++
  (List.range 8).map (fun n => (0x300 + 32 * n, 32,
    fun x => match Vec.get x.2.bind n with
      | some b => padTo 32 (leBytes 4 b.handle ++ leBytes 1 b.dims.toNat ++ leBytes 3 0 ++ leBytes 4 b.rows ++ leBytes 4 b.cols ++ leBytes 4 b.depth)
      | none => leBytes 32 0,
    fun bs x => (x.1, { x.2 with bind := Vec.set x.2.bind n (if numAt bs 0 4 = 0 then none
      else some ⟨numAt bs 0 4, BitVec.ofNat 3 (numAt bs 4 1), numAt bs 8 4, numAt bs 12 4, numAt bs 16 4⟩) }))) ++
  (List.range 8).map opsPart

/-- The words of a tile instruction. -/
def tileWords (i : Instr) : Nat × Nat :=
  match encode i with
  | some (.scalar w0 w1) => (w0.toNat, w1.toNat)
  | _ => (0, 0)

/-- The tile instruction of two words. -/
def tileInstrOf (w0 w1 : Nat) : Option Instr :=
  match decode (.scalar (BitVec.ofNat 32 w0) (BitVec.ofNat 32 w1)) with
  | .ok i => some i
  | .error _ => none

/-- Where a save slot lies (R357). -/
def slotAt (s : State) (b : Block) (n : Nat) : Word64 := (s.core (b.pkg, b.core)).savebase + BitVec.ofNat 64 (n * 0x300000)

/-- The context of a block's image, the block's own (R357). -/
def imageCtx (s : State) (blk : Nat) : Ctx := blockCtx s blk (.group (s.block blk).pkg (s.block blk).core 0)

/-- A place of a block's image, through its locked pages. -/
def imagePlace (s : State) (blk : Nat) (va : Word64) : Except Stop Place := lockedPlace s (imageCtx s blk) (s.block blk).locked true va

/-- Writes STATE of a block's image; a failure gives its address and status (R358, R363). -/
def writeState (blk : Nat) (base : Word64) (v : Byte) (s : State) : Except (Word64 × Word16) State :=
  match imagePlace s blk base with
  | .error _ => .error (base, stProtection)
  | .ok p => if (badAt s (imageCtx s blk) p.loc 1).isSome then .error (base, stMemerr) else .ok (putDevice p [v] s)

/-- Words of an image are written whole, so their errors go (R302). -/
def clearWords (l : Loc) (n : Nat) (s : State) : State :=
  match l with
  | .phys k => { s with bad := s.bad.filter (fun w => match w with | .mem x => !decide (k / 8 ≤ x ∧ x ≤ (k + n - 1) / 8) | _ => true) }
  | .scr _ => s

/-- Writes chunks of an image in turn, each within a 64 KiB page; a failure gives its address and status (R357, R363). -/
def writeChunks (blk : Nat) (base : Word64) : List (Nat × List Byte) → State → Except (Word64 × Word16) State
  | [], s => .ok s
  | (o, bs) :: r, s =>
    match imagePlace s blk (base + BitVec.ofNat 64 o) with
    | .error _ => .error (base + BitVec.ofNat 64 o, stProtection)
    | .ok p => writeChunks blk base r (clearWords p.loc bs.length (putDevice p bs s))

/-- Bytes of an image; a failure gives its address and status (R362, R363). -/
def readChunk (s : State) (blk : Nat) (base : Word64) (o n : Nat) : Except (Word64 × Word16) (List Byte) :=
  let va := base + BitVec.ofNat 64 o
  match imagePlace s blk va with
  | .error _ => .error (va, stProtection)
  | .ok p => if (badAt s (imageCtx s blk) p.loc n).isSome then .error (va, stMemerr) else .ok (readPlace s (imageCtx s blk) p n)

/-- Reading an image folds its lines (R158). -/
def foldImage (blk : Nat) (base : Word64) (s : State) : State :=
  if s.cores.all (fun k => k.2.shadows == []) then s
  else seqAll (fun i s => match imagePlace s blk (base + BitVec.ofNat 64 (128 * i)) with | .ok p => foldAt p.loc s | .error _ => s) (List.range 24576) s

/-- Reads parts back into a value. -/
def readParts {α : Type} (s : State) (blk : Nat) (base : Word64) (at_ : Nat) : List (Part α) → α → Except (Word64 × Word16) α
  | [], x => .ok x
  | (o, n, _, put) :: r, x => do
    let bs ← readChunk s blk base (at_ + o) n
    readParts s blk base at_ r (put bs x)

/-- The chunks of parts. -/
def partChunks {α : Type} (at_ : Nat) (ps : List (Part α)) (x : α) : List (Nat × List Byte) := ps.map (fun p => (at_ + p.1, p.2.2.1 x))

/-- A memory as chunks of 128 bytes. -/
def cellChunks (at_ n : Nat) (m : Cells) : List (Nat × List Byte) := (List.range (n / 128)).map (fun i => (at_ + 128 * i, m.readN (128 * i) 128))

/-- Reads a memory back. -/
def readCells (s : State) (blk : Nat) (base : Word64) (at_ : Nat) : List Nat → Cells → Except (Word64 × Word16) Cells
  | [], m => .ok m
  | i :: r, m => do
    let bs ← readChunk s blk base (at_ + 128 * i) 128
    readCells s blk base at_ r (m.writeN (128 * i) bs)

/-- The offsets of an image's regions (R357, R360). -/
def recAt (g : Nat) : Nat := 0x2000 + 0x3000 * g
def poolAt : Nat := 0x62000
def regAt (vn g n : Nat) : Nat := poolAt + 128 * (g * vn + n)
def scratchAt (partw : Word32) : Nat := poolAt + rfuBytes partw
def accumAt (partw : Word32) : Nat := scratchAt partw + spuBytes partw
def qbufAt (partw : Word32) : Nat := accumAt partw + acuBytes partw
def wbufAt : Nat := 0x262000
def mccAt : Nat := 0x2A2000

/-- The part of the quantum-buffer units: the groups' lines, tags and partials as the device holds them (R360).
DESIGN CHOICE: log entry 18. -/
def qbufChunks (partw : Word32) (qs : List (Nat × QBuf)) : List (Nat × List Byte) :=
  (List.range (qbuBytes partw / 128)).map (fun i => (qbufAt partw + 128 * i, (List.range 128).map (fun j => Config.qbufForm qs (128 * i + j))))

/-- Whether a block belongs to a gang, and whether it is the rank 0 block of one. -/
def gangHead (s : State) (blk : Nat) : Option ((Nat × Nat) × Mcc) := List.find? (fun (m : (Nat × Nat) × Mcc) => ((m.2.gang.filter (fun g => (Table.find? s.blocks g.2).isSome)).head?.map (·.2)) == some blk) s.mccs
def inGang (s : State) (blk : Nat) : Bool := s.mccs.any (fun m => m.2.gang.any (fun g => g.2 == blk))

/-- Everything of a block's image but STATE (R357 to R361). -/
def imageChunks (s : State) (blk : Nat) : List (Nat × List Byte) :=
  let b := s.block blk
  let vn := vnOf b.partw b.groups.length
  let rank0 := gangHead s blk
  partChunks 0 (blockParts (s.launch b.launch).recAddr (s.launch b.launch).prio b.groups.length (inGang s blk) rank0.isSome) b ++
    b.groups.flatMap (fun a => partChunks (recAt (s.group a).gidx) (groupParts (waveOf a)) (s.stream a, s.group a)) ++
    b.groups.flatMap (fun a => (List.range vn).map (fun n => (regAt vn (s.group a).gidx n, (Vec.get (s.group a).v n).toList.flatMap (fun w => leBytes 4 w.toNat)))) ++
    cellChunks (scratchAt b.partw) (spuBytes b.partw) b.scratch ++ cellChunks (accumAt b.partw) (acuBytes b.partw) b.acc ++
    qbufChunks b.partw (b.groups.map (fun a => ((s.group a).gidx, (s.group a).qbuf))) ++
    (if inGang s blk then cellChunks wbufAt 0x40000 (s.core (b.pkg, b.core)).wbuf else []) ++
    (match rank0 with | some (k, m) => partChunks mccAt (mccParts tileWords tileInstrOf) (s.stream (.mcc k.1 k.2), m) | none => [])

/-- Whether a side lies in the scratch window, in whole or in part. -/
def scratchSide (d : Side) : Bool := d.places.any (fun p => match p.loc with | .scr _ => true | .phys _ => false)

/-- An address of the scratch window. -/
def scratchVa (va : Word64) : Bool := match spaceOf va with | some (.scratch _) => true | _ => false

/-- An item that reads or writes the scratch window of its block (R254); the side that a record places holds no window
(R256). -/
def touchesScratch (x : Item) : Bool :=
  (match x.kind with
    | .copy d _ => (!(d.rg && !d.rdst) && scratchVa d.src) || (!(d.rg && d.rdst) && scratchVa d.dst)
    | _ => false) ||
    x.elems.any (fun e => scratchSide e.dst || (match e.src with | some d => scratchSide d | none => false)) ||
    x.sends.any (fun d => scratchSide d.2) || x.outs.any (fun d => scratchSide d.2)

/-- A block is ready to be saved: its loads and stores have ended, and so has every item that reads or writes its scratchpad
(R254, R354). -/
def quiet (s : State) (blk : Nat) : Bool :=
  (s.block blk).groups.all (fun a => (s.stream a).loads == [] && (s.stream a).stores == [] && (s.stream a).ld == 0 && (s.stream a).st == 0) &&
    !s.items.any (fun x => x.2.block == some blk && !x.2.orphan && touchesScratch x.2)

/-- The MCC of a gang stands at a tile-step boundary (R208). -/
def mccBoundary (s : State) (blk : Nat) : Bool :=
  s.mccs.all (fun m => !m.2.gang.any (fun g => g.2 == blk) ||
    m.2.ops.toList.all (fun q => match q with | o :: _ => o.sub == 0 | [] => true))

/-- The lowest free save slot of a core (R357). -/
def freeSlot (s : State) (k : Nat × Nat) : Option Nat := (List.range 16).find? (fun n => !(imagesAt s k).any (fun b => b.2.preempt == .saved n))

/-- Withdraws the group-issued `TSYNC` operations of a block (R354 step 3). -/
def withdrawSyncs (blk : Nat) (s : State) : State :=
  seqAll (fun (m : (Nat × Nat) × Mcc) s => seqAll (fun (o : TileOp) s =>
    match o.instr with
    | .tsync w =>
      if o.block = some blk then
        dropTl o (mapGroup o.issuer (fun g => { g with tsync := g.tsync ++ [(w.sn.toNat, o.va.setWidth 32)] }) (mapMcc m.1 (fun x => { x with arriving := x.arriving.erase o }) s))
      else s
    | _ => s) m.2.arriving s) s.mccs s

/-- Moves a saved block's contexts out of the core (R354 step 5). -/
def putAway (blk n : Nat) (s : State) : State :=
  let b := s.block blk
  let ctxs := b.groups.map (fun a => (a, s.stream a, s.group a))
  let (more, m) := match gangHead s blk with
    | some (k, m) => ([(Agent.mcc k.1 k.2, s.stream (.mcc k.1 k.2), (default : Group))], some m)
    | none => ([], none)
  mapBlock blk (fun x => { x with preempt := .saved n, away := ctxs ++ more, awayMcc := m })
    { s with
      streams := s.streams.filter (fun x => !b.groups.contains x.1)
      groups := s.groups.filter (fun x => !b.groups.contains x.1) }

/-- Frees the MCC of a gang that has left (R181). -/
def releaseMcc (k : Nat × Nat) (s : State) : State :=
  let s := mapStream (.mcc k.1 k.2) (fun x => { x with run := .ended, posted := none, loads := [], stores := [], deferred := [], await := [] }) s
  mapMcc k (fun m => { m with launch := none, gang := [], ops := Vector.replicate 8 [], arriving := [], bind := Vector.replicate 8 none }) s

/-- A failure on a block's image: MACHINE on its core, and the block's status (R363). -/
def imageFailure (blk : Nat) (e : Word64 × Word16) (s : State) : State :=
  machineCore ((s.block blk).pkg, (s.block blk).core) 0xFF e.1 (failBlock blk e.2 s)

/-- Writes a block's image, STATE 1 first and STATE 2 last (R354 step 4). -/
def saveImage (blk : Nat) (base : Word64) (s : State) : Except (Word64 × Word16) State := do
  let s ← writeState blk base 1 s
  let s ← writeChunks blk base (imageChunks s blk) s
  writeState blk base 2 s

/-- Saves a block; a failure raises MACHINE (R354, R363). -/
def saveBlock (blk n : Nat) (s : State) : State :=
  match saveImage blk (slotAt s (s.block blk) n) s with
  | .ok s => s
  | .error e => imageFailure blk e s

/-- The MCCs whose gang holds a block. -/
def gangMccs (s : State) (blk : Nat) : List (Nat × Nat) := (s.mccs.filter (fun m => m.2.gang.any (fun g => g.2 == blk))).map (·.1)

/-- `SAVE`: a victim's image is written and its places are freed, a gang as one (R351, R354). -/
def execSave (block : Nat) (s : State) : Out :=
  let bs := (gangOfBlock s block).filter (fun b => (Table.find? s.blocks b).isSome)
  finishEvent s (
    if (Table.find? s.blocks block).isNone ∨ !bs.all (fun b => (s.block b).preempt == .save && quiet s b && mccBoundary s b && (freeSlot s ((s.block b).pkg, (s.block b).core)).isSome) then .error .stall
    else
      let s := seqAll withdrawSyncs bs s
      let slots := bs.map (fun b => (b, (freeSlot s ((s.block b).pkg, (s.block b).core)).getD 0))
      let ms := gangMccs s block
      let s := seqAll (fun x s => saveBlock x.1 x.2 s) slots s
      let s := seqAll (fun x s => if (s.core ((s.block x.1).pkg, (s.block x.1).core)).fenced then s else putAway x.1 x.2 s) slots s
      .ok (seqAll releaseMcc ms s))

/-- Cuts an item of a discarded attempt loose: it runs on, in the attempt's own scratchpad, and changes no context (R254,
R355). -/
def orphanItem (id : Nat) (s : State) : State := mapItem id (fun y => { y with orphan := true, block := none }) s

/-- Discards a block's attempt; its index returns to its launch with the schedule that it read (R265, R355). What its
items still need of its scratchpad stays for them (R254). DEDUCED: log entry 69. -/
def flushBlock (blk : Nat) (s : State) : State :=
  let b := s.block blk
  let s := seqAll (fun a s => annexAck ((s.stream a).stores.flatMap (·.homes)) s) b.groups s
  let s := seqAll orphanItem ((s.items.filter (fun x => x.2.block == some blk && !x.2.orphan)).map (·.1)) s
  let s := mapLaunch b.launch (fun l => { l with
    redo := (l.redo.filter (decide <| · < b.index)) ++ [b.index] ++ l.redo.filter (decide <| b.index < ·)
    flushed := Table.put l.flushed b.index b.sched }) s
  let s := removeBlock blk s
  { s with past :=
    if s.items.any (fun x => x.2.orphan && x.2.ctx.block == some blk) then
      Table.put s.past blk { b with groups := [], sched := [], held := [], empty := [], preempt := .none }
    else Table.del s.past blk }

/-- Puts a launch that has left its queue back at the head (R355). -/
def requeue (id : Nat) (s : State) : State :=
  let l := s.launch id
  let q := l.queue.getD 64
  if headLaunch s l.pkg q = some id then s
  else unreserve l.pkg q (mapLaunchQ l.pkg q (fun x => { x with items := .launch id [] false :: x.items, eligible := true, chosen := false, unplaced := 0 }) s)

/-- `FLUSH_AND_RESTART`: a victim stops at once and starts again from the beginning, a gang as one (R208, R355). -/
def execFlushAndRestart (block : Nat) (s : State) : Out :=
  let bs := (gangOfBlock s block).filter (fun b => (Table.find? s.blocks b).isSome)
  finishEvent s (
    if (Table.find? s.blocks block).isNone ∨ !bs.all (fun b => (s.block b).preempt == .flush && mccBoundary s b) then .error .stall
    else
      let id := (s.block block).launch
      let ms := gangMccs s block
      let mccItems := (s.items.filter (fun x => !x.2.orphan && ms.any (fun k => x.2.issuer == .mcc k.1 k.2))).map (·.1)
      let s := seqAll orphanItem mccItems s
      let s := seqAll flushBlock bs s
      .ok (requeue id (seqAll releaseMcc ms s)))

/-- A saved block's unit fits its core: its wave slots, its barrier ids, its pool units (R332, R362). -/
def imageFits (s : State) (blk : Nat) (gone : List Nat) : Bool :=
  let b := s.block blk
  let k := (b.pkg, b.core)
  let here := ((residents s k).filter (fun x => !gone.contains x.1)).map (·.2)
  let prio := (s.launch b.launch).prio
  let mine := gangOfBlock s blk
  !(s.core k).fenced && (logicalCore (s.pkg k.1).muniment k.2).isSome &&
    (match (s.core k).reserved with | none => true | some r => decide (headPrio s r < prio)) &&
    decide ((here.map (fun x => unitsOf x.partw)).foldl (· + ·) 0 + unitsOf b.partw ≤ 128) &&
    b.groups.all (fun a => !here.any (fun x => x.groups.contains a)) &&
    here.all (fun x => x.nbar == 0 || b.nbar == 0 || decide (x.barbase + x.nbar ≤ b.barbase) || decide (b.barbase + b.nbar ≤ x.barbase)) &&
    !(imagesAt s k).any (fun x => !mine.contains x.1 && (decide (prio < (s.launch x.2.launch).prio) || (prio == (s.launch x.2.launch).prio && decide (x.1 < blk))))

/-- The MCC of a saved gang's cluster is free (R332, R362). -/
def imageMccFree (s : State) (blk : Nat) (gone : List Nat) : Bool :=
  (gangOfBlock s blk).all (fun b => match (s.block b).awayMcc with
    | some _ => let k := ((s.block b).pkg, clusterOfCore (s.block b).core); mccFreeWithout s k gone || (s.mcc k).launch == none
    | none => true)

/-- Applies the ends of items that came after a save (R254, R362). -/
def applyLate (gidx : Nat) (ls : List Late) (x : Stream) : Stream :=
  (ls.filter (·.gidx == gidx)).foldl (fun (x : Stream) l => noteFailure l.status { deliverRegs l.regs x with cp := x.cp - l.cp, st := x.st - l.st }) x

/-- Takes a fresh snapshot for a stream; where its record has become invalid its next push raises the fault (R219). -/
def freshStream (c : Ctx) (x : Option AaeStream) (s : State) : Option AaeStream × State :=
  match x with
  | none => (none, s)
  | some y =>
    if y.rag.isNone then (some y, s)
    else match snapshot c y.desc.handle.toNat s with
      | .error (.trap t) => (some { y with fault := some t }, s)
      | .error .stall => (some y, s)
      | .ok (r, s) => match streamOrigin c s y.desc r with
        | .error (.trap t) => (some { y with fault := some t }, s)
        | .error .stall => (some y, s)
        | .ok o => (some { y with rag := some r, origin := o }, s)

/-- Takes fresh snapshots for a queue's running and pending streams (R219). -/
def freshQueue (c : Ctx) (q : Queue) (s : State) : Queue × State :=
  let (r, s) := freshStream c q.running s
  let (p, s) := freshStream c q.pending s
  ({ q with running := r, pending := p }, s)

/-- Fresh snapshots for a resumed group. -/
def freshGroup (ag : Agent) (s : State) : State :=
  seqAll (fun n s =>
    let (q, s) := freshQueue { ctxOf s ag with user := true } (Vec.get (s.group ag).queues n) s
    mapGroup ag (mapQueue n (fun _ => q)) s) (List.range 8) s

/-- Fresh snapshots for the operations of a resumed MCC; one that has become invalid raises its trap and its operation
ends without its remaining steps (R219). DEDUCED: log entry 121. -/
def freshOps (k : Nat × Nat) (s : State) : State :=
  seqAll (fun n s =>
    let (ops, s) := (Vec.get (s.mcc k).ops n).foldl (fun (r : List TileOp × State) o =>
      match o.bind with
      | none => (r.1 ++ [o], r.2)
      | some (b, _) => match snapshot o.ctx b.handle r.2 with
        | .ok (rag, s) => (r.1 ++ [{ o with bind := some (b, rag) }], s)
        | .error (.trap t) => (r.1 ++ [{ o with step := tileSteps o }], mapStream o.issuer (fun x => { x with posted := some t }) r.2)
        | .error .stall => (r.1 ++ [o], r.2)) ([], s)
    mapMcc k (fun m => { m with ops := Vec.set m.ops n ops }) s) (List.range 8) s

/-- Hands the withdrawn `TSYNC`s again (R362). -/
def handSync (ag : Agent) (s : State) : State :=
  let one (t : Nat × Word32) (s : State) : State :=
    let op : TileOp := { newOp (.tsync { (default : TileWord) with sn := BitVec.ofNat 3 t.1 }) { s with cur := ag } with va := t.2.zeroExtend 64 }
    mapMcc (mccOf ag) (fun m => { m with arriving := m.arriving ++ [op] }) (mapStream ag (fun x => { x with tl := x.tl + 1 }) s)
  mapGroup ag (fun g => { g with tsync := [] }) (seqAll one (s.group ag).tsync s)

/-- Reads a group back from its record and its registers (R359, R360). -/
def resumeGroup (s : State) (blk : Nat) (base : Word64) (b : Block) (x : Agent × Stream × Group) : Except (Word64 × Word16) (Agent × Stream × Group) := do
  let vn := vnOf b.partw b.groups.length
  let g := x.2.2.gidx
  let (st, gr) ← readParts s blk base (recAt g) (groupParts (waveOf x.1)) (x.2.1, x.2.2)
  let regs : List (Part Group) := (List.range vn).map (fun n => (regAt vn 0 n - regAt vn 0 0, 128, fun _ => [], fun bs y => { y with v := Vec.set y.v n (Vec.make 32 (fun l => word32At bs (4 * l))) }))
  let gr ← readParts s blk base (regAt vn g 0) regs gr
  .ok (x.1, applyLate g b.late st, gr)

/-- Reads groups back in turn. -/
def resumeGroups (s : State) (blk : Nat) (base : Word64) (b : Block) : List (Agent × Stream × Group) → Except (Word64 × Word16) (List (Agent × Stream × Group))
  | [] => .ok []
  | x :: r => do
    let y ← resumeGroup s blk base b x
    let ys ← resumeGroups s blk base b r
    .ok (y :: ys)

/-- Everything of a block that its image gives back (R362 step 2). -/
def readImage (s : State) (blk : Nat) (base : Word64) : Except (Word64 × Word16) State := do
  let b := s.block blk
  let b' ← readParts s blk base 0 (blockParts 0 0 0 false false) b
  let scratch ← readCells s blk base (scratchAt b.partw) (List.range (spuBytes b.partw / 128)) []
  let acc ← readCells s blk base (accumAt b.partw) (List.range (acuBytes b.partw / 128)) []
  let _ ← readCells s blk base (qbufAt b.partw) (List.range (qbuBytes b.partw / 128)) []
  let gs ← resumeGroups s blk base b (b.away.filter (fun x => isGroup x.1))
  let k := (b.pkg, clusterOfCore b.core)
  let gang := (gangOfBlock s blk).length > 1 || b.awayMcc.isSome
  let w ← if gang then readCells s blk base wbufAt (List.range 2048) [] else .ok []
  let s := s.setBlock blk { b' with scratch := scratch, acc := acc, preempt := .none, late := [], away := [], awayMcc := none }
  let s := if gang then mapCore (b.pkg, b.core) (fun c => { c with wbuf := w }) s else s
  let s := seqAll (fun x s => (s.setStream x.1 x.2.1).setGroup x.1 { x.2.2 with slot := if x.2.1.run = .running then entrySet s (b.pkg, b.core) (waveOf x.1) else .away, age := 0 }) gs s
  match b.awayMcc, b.away.find? (fun x => isMcc x.1) with
  | some m, some (a, st, _) => do
    let (st', m') ← readParts s blk base mccAt (mccParts tileWords tileInstrOf) (st, m)
    let now := s.mcc k
    .ok ((s.setStream a (applyLate 255 b.late st')).setMcc k { m' with
      trapbase := now.trapbase, sidebuf := now.sidebuf, savebase := now.savebase, conv := now.conv, fenced := now.fenced, watch := now.watch, ahead := now.ahead })
  | _, _ => .ok s

/-- Resumes one image: STATE 3, the reading, STATE 0; a failure raises MACHINE (R362, R363). -/
def resumeBlock (blk : Nat) (s : State) : State :=
  match (s.block blk).preempt with
  | .saved n =>
    let base := slotAt s (s.block blk) n
    let steps : Except (Word64 × Word16) State := do
      let s ← writeState blk base 3 s
      let s ← readImage (foldImage blk base s) blk base
      writeState blk base 0 s
    match steps with
    | .ok s => s
    | .error e => imageFailure blk e s
  | _ => s

/-- `IMAGE_RESUME`: an image that fits its core resumes with the rest of its gang; one of priority 1 or more that does not
fit pre-empts (R330, R332, R362). DESIGN CHOICE: log entry 79. -/
def execImageResume (pkg core slot : Nat) (s : State) : Out :=
  finishEvent s (match List.find? (fun (b : Nat × Block) => b.2.pkg == pkg && b.2.core == core && b.2.preempt == .saved slot) s.blocks with
    | none => .error .stall
    | some (blk, b) =>
      let bs := (gangOfBlock s blk).filter (fun x => (Table.find? s.blocks x).isSome)
      let fits (gone : List Nat) : Bool := bs.all (fun x => isSaved (s.block x) && imageFits s x gone) && imageMccFree s blk gone
      if fits [] then
        let s := seqAll resumeBlock bs s
        let groups := bs.flatMap (fun x => (s.block x).groups)
        let s := seqAll freshGroup (groups.filter (fun a => (Table.find? s.groups a).isSome)) s
        let s := if b.awayMcc.isSome ∨ bs.length > 1 then freshOps (pkg, clusterOfCore core) s else s
        let s := seqAll handSync (groups.filter (fun a => (Table.find? s.groups a).isSome)) s
        seqEff releaseDue (bs.filter (fun x => (Table.find? s.blocks x).isSome && !(s.core ((s.block x).pkg, (s.block x).core)).fenced)) s
      else
        let e := (s.launch b.launch).prio
        if e = 0 then .error .stall
        else match victims s e (bs.map (fun x => ((s.block x).pkg, (s.block x).core))) fits with
          | some (v :: vs) => .ok (markVictims (v :: vs) s)
          | _ => .error .stall)

end Sys2Proof.Machine
end

