-- ==== Sys2Proof/Machine/Events.lean ====
section
/-! DEFINITION. Memory completions, trap entries that no instruction of the stream itself raises, and the L1's own events
(R18, R88, R158, R166, R288, R308, R342, R343, R347). -/

namespace Sys2Proof.Machine

/-- Delivers one value (R88, R122). -/
def deliverDest (ag : Agent) (d : Dest) (s : State) : State :=
  match d with
  | .s r v => mapStream ag (fun x => { writeS r v x with await := x.await.erase r.toNat }) s
  | .v r l v => mapGroup ag (fun g => { g with v := Vec.set g.v r (Vec.set (Vec.get g.v r) l v) }) s

/-- The lanes of a register that an operation delivers. -/
def destLanes (ds : List Dest) (r : Nat) : List Nat := ds.filterMap (fun d => match d with | .v r' l _ => if r' = r then some l else none | .s _ _ => none)

/-- A delivery clears the uncorrectable words of lane registers that it writes whole (R302). -/
def clearDelivered (ag : Agent) (ds : List Dest) (s : State) : State :=
  seqAll (fun r => clearRegs ag [r] (destLanes ds r)) (destVregs ds).eraseDups s

/-- Delivers the values of an operation and frees the registers it holds. -/
def deliverAll (ag : Agent) (ds : List Dest) (s : State) : State :=
  let s := seqAll (deliverDest ag) ds s
  if destVregs ds = [] then s
  else clearDelivered ag ds (mapGroup ag (fun g => { g with vawait := (destVregs ds).eraseDups.foldl (fun l r => l.erase r) g.vawait }) s)

/-- `LOAD_DATA_RETURN`: the data of load `k` in flight arrive; its destination takes its value, LD falls, an uncorrectable
error waits for the instruction that raises it (R18, R88, R90, R147, R379). -/
def execLoadDataReturn (ag : Agent) (k : Nat) (s : State) : Out :=
  finishEvent s (match (s.stream ag).loads[k]? with
    | none => .error .stall
    | some op =>
      let s := deliverAll ag op.dests s
      let s := mapStream ag (fun x => { x with
        ld := x.ld - 1
        loads := removeAt x.loads k
        deferred := x.deferred ++ op.err.toList }) s
      .ok (noteBad op.badKeys s))

/-- `STORE_ACKNOWLEDGE`: store, atomic or commit `k` is performed at its annex homes too and acknowledged; ST and UW fall
and a fetched value is delivered (R18, R154, R288, R311). -/
def execStoreAcknowledge (ag : Agent) (k : Nat) (s : State) : Out :=
  finishEvent s (match (s.stream ag).stores[k]? with
    | none => .error .stall
    | some op =>
      if !op.homes.all (fun h => ackReady s h.key) then .error .stall
      else
        -- the operation leaves before its annex copies are made: they are then no longer due
        let s := mapStream ag (fun x => { x with
          st := if op.inSt then x.st - 1 else x.st
          uw := if op.inUw then x.uw - 1 else x.uw
          stores := removeAt x.stores k }) s
        .ok (deliverAll ag op.dests (annexAck op.homes s)))

/-- `TRAP_ENTRY` of a trap that another step raised in this stream: a barrier that can no longer complete, a phaser's end,
an uncorrectable word at a commit (R166, R169, R302, R347). DEDUCED: log entry 94. -/
def execTrapEntry (ag : Agent) (s : State) : Out :=
  finishEvent s (match (s.stream ag).posted with
    | none => .error .stall
    | some t => if (s.stream ag).run = .running then .ok (takeTrap ag t false s) else .error .stall)

/-- A control core at an instruction boundary of user mode, or at its `SLEEP` (R342). -/
def ctlInterruptible (s : State) (ag : Agent) : Bool :=
  let x := s.stream ag
  (x.run == .running && !sysMode s ag) || x.run == .sleeping

/-- `MACHINE_EVENT`: the oldest event of a die is taken on its lowest control core in service (R342). -/
def execMachineEvent (ag : Agent) (s : State) : Out :=
  finishEvent s (match ag with
    | .ctl p i =>
      match Table.findD (s.pkg p).machine (i / 8) [] with
      | [] => .error .stall
      | e :: r =>
        if dieCtl s p (i / 8) = some i ∧ (s.pkg p).booted = true ∧ ctlInterruptible s ag = true then
          let s := mapPkg p (fun x => { x with machine := Table.put x.machine (i / 8) r }) s
          let s := enterVector ag 15 (causeWord 15 e.number e.slot 15) e.addr s
          .ok (mapStream ag (fun x => { x with run := .running }) s)
        else .error .stall
    | _ => .error .stall)

/-- `PREEMPT_TRAP`: a control core in user mode whose wake flag is set takes PREEMPT and clears the flag (R343). -/
def execPreemptTrap (ag : Agent) (s : State) : Out :=
  finishEvent s (match ag with
    | .ctl p i =>
      if (s.ctl (p, i)).wake = true ∧ (s.stream ag).run = .running ∧ sysMode s ag = false then
        .ok (enterVector ag 14 (causeWord 14 0 0xFE 15) 0 (mapCtl (p, i) (fun c => { c with wake := false }) s))
      else .error .stall
    | _ => .error .stall)

/-- Whether a core's L1 holds a line. -/
def l1Holds (c : Core) (line : Nat) : Bool :=
  c.clean.any (fun x => x.line == line) || c.owned.contains line || c.shadows.any (fun sh => sh.key / 128 == line)

/-- `L1_EVICTION`: a line leaves a core's L1; its shadows fold (R158). -/
def execL1Eviction (pkg core line : Nat) (s : State) : Out :=
  let k := (pkg, core)
  finishEvent s (if l1Holds (s.core k) line then
    let s := foldCoreLine line (k, s.core k) s
    .ok (mapCore k (fun c => { c with clean := c.clean.filter (fun x => x.line != line), owned := c.owned.filter (· != line) }) s)
  else .error .stall)

/-- `L1_LINE_EXPIRE`: a clean local-tensor line leaves the L1, within 16,384 cycles of its fill (R308). -/
def execL1LineExpire (pkg core line : Nat) (s : State) : Out :=
  let k := (pkg, core)
  finishEvent s (if (s.core k).clean.any (fun x => x.line == line) then
    .ok (mapCore k (fun c => { c with clean := c.clean.filter (fun x => x.line != line) }) s)
  else .error .stall)

end Sys2Proof.Machine
end

