-- ==== Sys2Proof/Machine/Fabric.lean ====
section
/-! DEFINITION. The Galec fabric: links, heartbeats, losses and what they leave, the package clock (R368 to R377, R379,
R392, R393). -/

namespace Sys2Proof.Machine

/-- The switch die at which a link ends (R368). -/
def linkDie (n : Nat) : Nat := if n < 32 then n / 2 else 4 * (n - 32)

/-- A link as it stands: at reset it has the lanes that the Muniment tables leave it (R369, R380). -/
def linkOf (p : Package) (n : Nat) : Link :=
  match Table.find? p.links n with
  | some l => l
  | none =>
    let lanes := (List.range 8).filter (fun i => !(Table.findD p.muniment.lanes n []).contains i)
    ⟨if lanes.length < 4 then [] else lanes, false, decide (lanes.length < 4)⟩

/-- Links of a package to a switch die, and those that a heartbeat can take now (R369). -/
def linksOf (p : Package) (die : Nat) : List Nat := (List.range 36).filter (fun n => linkDie n == die && !(linkOf p n).retired)
def linksTo (p : Package) (die : Nat) : List Nat := (linksOf p die).filter (fun n => !(linkOf p n).retraining)

/-- Fences a package: every stream stops, and nothing more leaves it (R373). -/
def fencePackage (pkg : Nat) (s : State) : State :=
  let s := mapPkg pkg (fun p => { p with fenced := true }) s
  { s with streams := s.streams.map (fun x => (x.1, if agentPkg x.1 = pkg ∧ x.2.run ≠ .ended then { x.2 with run := .fenced } else x.2)) }

/-- A heartbeat of a package reaches switch dies that count its silence (R371). -/
def beatAt (pkg : Nat) (dies : List Nat) (s : State) : State :=
  mapPanel (panelOf pkg) (fun x => { x with silent := dies.foldl (fun t d => Table.upd t (d, pkg) (fun _ => 0)) x.silent }) s

/-- `HEARTBEAT_SEND`: a heartbeat reaches every switch die that a link of the package reaches; where every link of the
package to a die retrains it waits (R369, R371). DESIGN CHOICE: log entry 104. -/
def execHeartbeatSend (pkg : Nat) (s : State) : Out :=
  finishEvent s (
    let p := s.pkg pkg
    if pkgUp s pkg = true ∧ p.booted = true ∧ 4096 ≤ p.sinceBeat then
      let now := (List.range 16).filter (fun d => linksTo p d != [])
      let wait := (List.range 16).filter (fun d => linksTo p d == [] && linksOf p d != [])
      .ok (mapPkg pkg (fun p => { p with sinceBeat := 0, beats := wait }) (beatAt pkg now s))
    else .error .stall)

/-- Packages of every joined panel. -/
def presentPkgs (s : State) : List Nat := (s.pkgs.filter (fun p => p.2.present && p.2.booted)).map (·.1)

/-- `LOSS_DECLARE`: a die that no heartbeat of a package has reached for 65,536 cycles gives its loss the panel's next
number and sends the notices; a package already lost makes none (R371, R372). DEDUCED: log entry 95. -/
def execLossDeclare (die pkg : Nat) (s : State) : Out :=
  finishEvent s (
    let x := s.panel (panelOf pkg)
    if die < 16 ∧ (Table.find? s.pkgs pkg).isSome = true ∧ ¬ pkg ∈ x.lost ∧
        65536 ≤ Table.findD x.silent (die, pkg) 0 then
      let s := s.setPanel (panelOf pkg) { x with nextSeq := x.nextSeq + 1, lost := x.lost ++ [pkg] }
      .ok (seqAll (fun q s => mapPkg q (fun p => { p with notices := p.notices ++ [(x.nextSeq, pkg)] }) s) (presentPkgs s) s)
    else .error .stall)

/-- The notice of lowest number among a package's notices (R372). DESIGN CHOICE: log entry 82. -/
def firstNotice (ns : List (Nat × Nat)) : Option (Nat × Nat) :=
  ns.foldl (fun best n => match best with
    | none => some n
    | some b => if n.1 < b.1 then some n else some b) none

/-- The home bytes of a set of agents' writes that are not acknowledged (R288, R317). -/
def unackedOf (s : State) (who : Agent → Bool) : List HomeByte :=
  (s.streams.filter (fun x => who x.1)).flatMap (fun x => x.2.stores.flatMap (·.homes))

/-- The latest of some writes of a byte. -/
def latest (k : Nat) (hs : List HomeByte) : Option HomeByte :=
  (hs.filter (fun h => h.key == k)).foldl (fun m h => match m with
    | none => some h
    | some x => if x.serial < h.serial then some h else some x) none

/-- The value at the annex home of a byte. -/
def annexValue (s : State) (k : Nat) : Byte := readByte s (annexMaterial s k) (annexKey k)

/-- What a home byte holds once the writes of a lost package that no one acknowledged are gone: nothing changes where a later
write stands; else the latest write of a package that is up and has still to be acknowledged, or the annex value (R317,
R374). DEDUCED: log entry 84. -/
def revertedValue (s : State) (lost k : Nat) : Option Byte :=
  match latest k (unackedOf s (fun a => agentPkg a == lost)) with
  | none => none
  | some gone =>
    match latest k (unackedOf s (fun a => pkgUp s (agentPkg a))), Table.find? s.annexed k with
    | some h, a =>
      if gone.serial < h.serial ∨ a.any (fun n => decide (gone.serial < n)) = true then none
      else if a.any (fun n => decide (h.serial < n)) then some (annexValue s k) else some h.val
    | none, a => if a.any (fun n => decide (gone.serial < n)) then none else some (annexValue s k)

/-- Reverts a home byte (R317). -/
def revertByte (lost k : Nat) (s : State) : State :=
  match revertedValue s lost k, lineKey s (k / 128) with
  | some v, some l => writeByte l.under k v s
  | _, _ => s

/-- The home bytes of a package that the writes of a lost one may have to leave. -/
def revertedBytes (s : State) (lost home : Nat) : List Nat :=
  (((unackedOf s (fun a => agentPkg a == lost)).map (·.key)).filter (fun k => keyPkg k == home)).eraseDups

/-- An entry of a loss report: the key slot and the PA of a reverted line (R285, R375). -/
def reportEntry (s : State) (line : Nat) : Nat :=
  (match lineKey s line with | some l => l.under.slot | none => 0) * 2 ^ 56 + (keyPkg (line * 128) % 64 * 2 ^ 36 + keyOff (line * 128))

/-- Inserts a number in ascending order, once. -/
def insertNat (x : Nat) : List Nat → List Nat
  | [] => [x]
  | y :: r => if x < y then x :: y :: r else if x = y then y :: r else y :: insertNat x r

/-- The lines of a home that a package holds in M or O, in ascending order: those that it wrote last (R309, R374).
DEDUCED: log entry 84. -/
def heldLines (s : State) (who home : Nat) : List Nat :=
  ((s.owners.filter (fun o => o.2 == who && keyPkg (o.1 * 128) == home)).map (·.1)).foldr insertNat []

/-- Takes back what a lost package held of a home. -/
def dropOwned (who home : Nat) (s : State) : State :=
  { s with owners := s.owners.filter (fun o => !(o.2 == who && keyPkg (o.1 * 128) == home)) }

/-- Writes a loss report in its slot, DONE last (R375). -/
def writeReport (pkg seq lost flags nitem : Nat) (lines : List Nat) (s : State) : State :=
  let base := 0x100000 + seq % 16 * 0x10000
  let flags := flags + (if 8184 < lines.length then 2 else 0)
  let body := leBytes 8 seq ++ leBytes 1 (lost % 64) ++ leBytes 1 flags ++ leBytes 6 0 ++ leBytes 8 lines.length ++ leBytes 8 nitem ++
    leBytes 32 0 ++ (lines.take 8184).flatMap (fun l => leBytes 8 (reportEntry s l))
  writeCtl pkg (base + 9) (leBytes 1 (flags + 1)) (writeCtl pkg base body s)

/-- Whether no copy of a package's control homes is left once it is lost (R377). -/
def noAnnex (s : State) (lost : Nat) : Bool := homesGone s lost

/-- Items of a package that need a lost one end PEER_LOST (R277). -/
def endPeers (pkg lost : Nat) (s : State) : Eff :=
  let mine := (s.items.filter (fun x => x.2.ctx.pkg == pkg && x.2.peers.contains lost)).map (·.1)
  seqEff (fun i s => if (Table.find? s.items i).isSome then finishItem i stPeerLost s else .ok s) mine s

/-- Items of a lost package that a survivor had not accepted are discarded, and its held release items (R374). A graph node
that is a copy stays on the list of its package, which is fenced, and is never performed (R376). -/
def discardFrom (pkg lost : Nat) (s : State) : State :=
  let out (x : Item) : Bool := x.ctx.pkg == lost && x.cc == 0 && x.peers.contains pkg && (x.phase == .queued || (x.release && x.phase != .performed))
  let ids := (s.items.filter (fun x => out x.2)).map (·.1)
  seqAll leaveQueues ids { s with items := s.items.filter (fun x => !out x.2) }

/-- What every survivor does on a loss: it notes it, drops the lost package's members from its phasers, ends its items that
need it, discards what it had not accepted (R169, R277, R374). -/
def applyLoss (pkg lost : Nat) (s : State) : Eff :=
  let s := mapPkg pkg (fun p => { p with
    lost := addOnce lost p.lost
    lseq := p.lseq + 1 }) s
  let s := dropAll (fun m => agentPkg m.who == lost) pkg s
  endPeers pkg lost (discardFrom pkg lost s)

/-- A survivor of the lost package's panel takes back the lines homed at it that the lost one held: their bytes revert where
an annex home has what they held (R374, R377). -/
def takeBack (pkg lost : Nat) (s : State) : List Nat × State :=
  let bytes := if (s.pkg pkg).unmirrored then [] else revertedBytes s lost pkg
  (heldLines s lost pkg, dropOwned lost pkg (seqAll (revertByte lost) bytes s))

/-- Orders writes of home bytes. -/
def insertHome (h : HomeByte) : List HomeByte → List HomeByte
  | [] => [h]
  | x :: r => if h.serial < x.serial then h :: x :: r else x :: insertHome h r

/-- Performs a survivor's outstanding write to a lost home at its annex home, unless a later one is there (R305, R374). -/
def rebuildByte (h : HomeByte) (s : State) : State :=
  if (Table.find? s.annexed h.key).any (fun n => decide (h.serial < n)) then s else mirrorValue h.key h.val s

/-- The acting home starts its rebuild: it takes the survivors' outstanding writes to the lost homes, and no longer
mirrors its own (R374). -/
def startRebuild (pkg lost : Nat) (s : State) : State :=
  let hs := (unackedOf s (fun a => pkgUp s (agentPkg a))).filter (fun h => keyPkg h.key == lost)
  let s := seqAll rebuildByte (hs.foldr insertHome []) s
  mapPkg pkg (fun p => { p with unmirrored := true, rebuilding := addOnce lost p.rebuilding }) s

/-- `LOSS_NOTICE_APPLY`: a package applies its notice of lowest number. One that names itself fences it (R372 to R375). The
acting home writes its report at its rebuild, every other survivor now.
DESIGN CHOICE: log entry 81. DEDUCED: log entry 83. -/
def execLossNoticeApply (pkg : Nat) (s : State) : Out :=
  finishEvent s (match firstNotice (s.pkg pkg).notices with
    | none => .error .stall
    | some (seq, lost) =>
      let s' := mapPkg pkg (fun p => { p with notices := p.notices.filter (· != (seq, lost)) }) s
      if lost = pkg then .ok (fencePackage pkg s')
      else if pkgUp s pkg = false ∨ (s.pkg lost).fenced = false then .error .stall
      else do
        let acting := pkg == lost ^^^ 1
        let near := panelOf pkg == panelOf lost
        let na := noAnnex s' lost
        let s ← applyLoss pkg lost s'
        let (lines, s) := if near then takeBack pkg lost s else ([], s)
        let s := if acting && !na then startRebuild pkg lost s
          else writeReport pkg seq lost (if na then 8 else 0) 0 lines (if acting then mapPkg pkg (fun p => { p with unmirrored := true }) s else s)
        .ok (writeDescriptorFlags pkg (if acting && !na then mapPkg pkg (fun p => { p with reverted := p.reverted ++ [(seq, lost, lines)] }) s else s)))

/-- `PACKAGE_SELF_FENCE`: a package that can reach no switch die for 65,536 cycles (R373). -/
def execPackageSelfFence (pkg : Nat) (s : State) : Out :=
  finishEvent s (
    let x := s.panel (panelOf pkg)
    if pkgUp s pkg = true ∧ (s.pkg pkg).booted = true ∧ (List.range 16).all (fun d => decide (65536 ≤ Table.findD x.silent (d, pkg) 0)) = true then
      .ok (fencePackage pkg s)
    else .error .stall)

/-- The number of ends that one entry of an accepted list takes: a launch's unended blocks, or one copy. -/
def entryEnds (s : State) (id : Nat) : Nat :=
  match Table.find? s.launches id with
  | some l => l.count - l.ended.length
  | none => 1

/-- Ends one entry of a lost package's list of accepted items (R376). -/
def endLostEntry (pkg id : Nat) (s : State) : Eff :=
  if (Table.find? s.launches id).isSome then endLostLaunch id s
  else
    match (queuedCopies s).find? (fun x => x.1 == pkg && x.2.2.id == id) with
    | some x => endQueued stPeerLost x s
    | none => if (Table.find? s.items id).isSome then endLostCopy id s else .ok s

/-- `DIRECTORY_REBUILD`: the acting home ends the lost package's items in order of acceptance, finishes its rebuild and
writes its loss report (R374 to R376). -/
def execDirectoryRebuild (pkg : Nat) (s : State) : Out :=
  finishEvent s (match (s.pkg pkg).reverted with
    | [] => .error .stall
    | (seq, lost, lines) :: r =>
      if pkgUp s pkg = false then .error .stall
      else do
        let all := (heldLines s lost lost).foldr insertNat lines
        let n := ((s.pkg lost).accepted.map (entryEnds s)).foldl (· + ·) 0
        let s := dropOwned lost lost (mapPkg pkg (fun p => { p with rebuilding := p.rebuilding.filter (· != lost), reverted := r }) s)
        let s ← seqEff (endLostEntry lost) (s.pkg lost).accepted s
        .ok (writeReport pkg seq lost 4 n all s))

/-- `LANE_FAILURE`: the link goes on retraining at one lane fewer, or is retired (R369, R379). -/
def execLaneFailure (pkg link lane : Nat) (s : State) : Out :=
  finishEvent s (
    let l := linkOf (s.pkg pkg) link
    if (Table.find? s.pkgs pkg).isSome = true ∧ link < 36 ∧ l.retired = false ∧ lane ∈ l.lanes then
      let lanes := l.lanes.filter (· != lane)
      let l' : Link := if lanes.length < 4 then ⟨[], false, true⟩ else ⟨lanes, true, false⟩
      let s := mapPkg pkg (fun p => { p with links := Table.put p.links link l' }) s
      let s := queueFault pkg (.linkLane link lane) s
      .ok (if l'.retired then queueFault pkg (.link link) s else s)
    else .error .stall)

/-- `LINK_RETRAIN_COMPLETE`: a heartbeat that waited for the link arrives (R369). -/
def execLinkRetrainComplete (pkg link : Nat) (s : State) : Out :=
  finishEvent s (
    let l := linkOf (s.pkg pkg) link
    if l.retraining && (Table.find? s.pkgs pkg).isSome then
      let d := linkDie link
      let s' := mapPkg pkg (fun p => { p with links := Table.put p.links link { l with retraining := false }, beats := p.beats.filter (· != d) }) s
      .ok (if (s.pkg pkg).beats.contains d && pkgUp s pkg then beatAt pkg [d] s' else s')
    else .error .stall)

/-- The readings beyond their limits, as CAUSE has them (R392). -/
def powerCause (p : Package) : BitVec 3 :=
  (if 3600 < p.watts then 1 else 0) ||| (if 105 < p.tj then 2 else 0) ||| (if 45 < p.inlet then 4 else 0)

/-- Writes the power status (R392). -/
def writePower (pkg : Nat) (s : State) : State :=
  let p := s.pkg pkg
  writeCtl pkg 0x40 (leBytes 1 p.step ++ leBytes 1 p.cause.toNat ++ leBytes 2 p.tj ++ leBytes 4 p.watts ++ leBytes 8 p.nstep ++ leBytes 16 0) s

/-- `CLOCK_STEP_DOWN` (R392). DESIGN CHOICE: log entry 87. -/
def execClockStepDown (pkg : Nat) (s : State) : Out :=
  finishEvent s (
    let p := s.pkg pkg
    if pkgUp s pkg = true ∧ p.booted = true ∧ powerCause p ≠ 0 ∧ p.step < 4 then
      .ok (writePower pkg (mapPkg pkg (fun p => { p with step := p.step + 1, nstep := p.nstep + 1, cause := powerCause p, calm := 0 }) s))
    else .error .stall)

/-- Cycles of 10 ms at a clock step (R392). -/
def calmCycles (step : Nat) : Nat := [36000000, 32000000, 28000000, 24000000, 18000000].getD step 18000000

/-- `CLOCK_STEP_UP` (R392). -/
def execClockStepUp (pkg : Nat) (s : State) : Out :=
  finishEvent s (
    let p := s.pkg pkg
    if pkgUp s pkg = true ∧ p.booted = true ∧ powerCause p = 0 ∧ 0 < p.step ∧ calmCycles p.step ≤ p.calm then
      .ok (writePower pkg (mapPkg pkg (fun p => { p with step := p.step - 1, cause := 0, calm := 0 }) s))
    else .error .stall)

/-- `THERMAL_FENCE` (R393). -/
def execThermalFence (pkg : Nat) (s : State) : Out :=
  finishEvent s (if pkgUp s pkg = true ∧ 125 ≤ (s.pkg pkg).tj then .ok (fencePackage pkg s) else .error .stall)

end Sys2Proof.Machine
end

