-- ==== Sys2Proof/Machine/Bringup.lean ====
section
/-! DEFINITION. Resets, boot, the configuration descriptor, the release of the cores, keys and attestation, the Ibkel port
(R378 to R391). -/

namespace Sys2Proof.Machine

/-- Folds a fault record into the Muniment tables (R378, R379). -/
def foldFault (u : FaultUnit) (m : Muniment) : Muniment :=
  match u with
  | .core n => { m with cores := m.cores.set n 0 }
  | .ctlCore n => { m with ctls := m.ctls.set n 0 }
  | .cluster c => { m with cores := (clusterCores c).foldl (fun l n => l.set n 0) m.cores }
  | .channel n => { m with chans := m.chans.filter (· != n) }
  | .linkLane l n => { m with lanes := Table.put m.lanes l (addOnce n (Table.findD m.lanes l [])) }
  | .link l => { m with lanes := Table.put m.lanes l (List.range 8) }

/-- Folds the waiting records into tables that verify, which are signed again; the revision rises with a change (R378, R379,
R385). -/
def foldFaults (us : List FaultUnit) (m : Muniment) : Muniment :=
  let new := us.foldl (fun m u => foldFault u m) m
  if !m.signed || new == m then m else { new with mseq := m.mseq + 1 }

/-- Clusters in service of a die (R380). -/
def dieClusters (m : Muniment) (die : Nat) : List Nat := (usableClusters m die).take 12

/-- Links not retired, by the Muniment tables (R380). -/
def liveLanes (m : Muniment) (n : Nat) : List Nat := (List.range 8).filter (fun i => !(Table.findD m.lanes n []).contains i)
def linkUp (m : Muniment) (n : Nat) : Bool := decide (4 ≤ (liveLanes m n).length)

/-- Control cores in service of a die. -/
def dieCtls (m : Muniment) (die : Nat) : List Nat := ((List.range 8).map (fun i => die * 8 + i)).filter (fun i => m.ctls.getD i 0 == 1)

/-- The limits within which a package presents a configuration (R381). -/
def withinLimits (m : Muniment) : Bool :=
  (List.range 4).all (fun d => decide (10 ≤ (dieClusters m d).length) && decide (4 ≤ (dieCtls m d).length)) &&
    decide (480 ≤ m.chans.length) &&
    (List.range 16).all (fun d => (List.range 36).any (fun n => linkDie n == d && linkUp m n))

/-- The flash bank that boots: it verifies, is no older than the rollback count, and has the highest version (R385). -/
def bootBank (p : Package) : Option Nat :=
  (List.range p.flash.length).foldl (fun best i =>
    let b := p.flash.getD i default
    if !b.verifies || decide (b.version < p.rollback) then best
    else match best with
      | none => some i
      | some j => if (p.flash.getD j default).version < b.version then some i else some j) none

/-- Whether a package presents a configuration when it is reset now (R378, R381, R385).
DESIGN CHOICE: log entry 86. -/
def boots (p : Package) : Bool := p.muniment.signed && withinLimits (foldFaults p.faults p.muniment) && (bootBank p).isSome

/-- A logical cluster's entry of the descriptor (R382). -/
def clusterEntry (m : Muniment) (n : Nat) : Nat :=
  match (dieClusters m (n / 12))[n % 12]? with
  | none => 0xFFFFFFFF
  | some c =>
    let cs := serviceCores m c
    cs.length * 2 ^ 56 + n / 12 * 2 ^ 48 + c % 13 * 2 ^ 40 +
      ((List.range 8).map (fun i => (match cs[i]? with | some k => k % 117 % 9 | none => 0xF) * 16 ^ i)).foldl (· + ·) 0

/-- A link's entry of the descriptor (R382). -/
def linkEntry (m : Muniment) (n : Nat) : Nat :=
  let ls := if linkUp m n then liveLanes m n else []
  ls.length + (ls.map (fun i => 2 ^ i)).foldl (· + ·) 0 * 2 ^ 8 + linkDie n * 2 ^ 16

/-- The sum of numbers. -/
def sumNat (l : List Nat) : Nat := l.foldl (· + ·) 0

/-- The control cores in service, by bit (R382). -/
def ctlMask (m : Muniment) : Nat := sumNat (((List.range 32).filter (fun i => m.ctls.getD i 0 == 1)).map (fun i => 2 ^ i))

/-- Panels joined (R367). -/
def joined (s : State) : Nat := ((s.pkgs.map (fun p => panelOf p.1)).eraseDups).length

/-- The configuration descriptor (R382). -/
def descriptorBytes (s : State) (pkg : Nat) : List Byte :=
  let p := s.pkg pkg
  let m := p.muniment
  let cores := ((List.range 4).flatMap (fun d => (dieClusters m d).map (fun c => (serviceCores m c).length))).foldl (· + ·) 0
  let clus := ((List.range 4).map (fun d => (dieClusters m d).length)).foldl (· + ·) 0
  leBytes 4 0x43464447 ++ leBytes 2 1 ++ leBytes 1 (panelOf pkg) ++ leBytes 1 (pkg % 64) ++ leBytes 4 m.mseq ++ leBytes 2 cores ++
  leBytes 1 clus ++ leBytes 1 ((if p.unmirrored then 1 else 0) + (if p.faults = [] then 0 else 2)) ++
  leBytes 2 m.chans.length ++ leBytes 1 ((List.range 36).filter (linkUp m)).length ++ leBytes 1 (joined s) ++ leBytes 4 p.faults.length ++
  leBytes 8 (m.chans.length * 0x60000000) ++ leBytes 8 (tier2Bytes s pkg) ++ leBytes 8 0x100000 ++
  leBytes 4 (ctlMask m) ++ leBytes 4 0 ++ leBytes 8 p.lseq ++ (List.range 48).flatMap (fun n => leBytes 8 (clusterEntry m n)) ++
  (List.range 512).flatMap (fun i => leBytes 2 (m.chans.getD i 0xFFFF)) ++
  (List.range 36).flatMap (fun n => leBytes 4 (linkEntry m n)) ++ leBytes 0x1B0 0

/-- The boot block's fields at reset (R387). -/
def bootBlockBytes : List Byte := leBytes 4 0x544F4F42 ++ leBytes 92 0

/-- The streams of the control cores in service: the lowest-numbered starts, the others wait for a `WAKE` (R385). DESIGN CHOICE: log entry 7. -/
def ctlStreams (pkg : Nat) (m : Muniment) : List (Agent × Stream) :=
  match (List.range 32).filter (fun i => m.ctls.getD i 0 == 1) with
  | [] => []
  | i :: r => (.ctl pkg i, { Stream.reset with run := .running }) :: r.map (fun j => (.ctl pkg j, Stream.reset))

/-- A phaser after a reset: free, and no earlier handle names it (R168, R384). -/
def resetPhaser (x : Phaser) : Phaser :=
  { gen := if x.live then (if x.gen = 4095 then 1 else x.gen + 1) else x.gen, live := false, max := false, phase := 0, gather := 0,
    newest := none, members := [], signalled := false, ahead := none }

/-- Whether a package stays out of its panel until the panel's reset (R373). -/
def staysOut (s : State) (pkg : Nat) : Bool := (s.pkg pkg).fenced || (s.panel (panelOf pkg)).lost.contains pkg

/-- The ports whose devices train, in ascending die order (R287). -/
def trainPorts (p : Package) : Table Nat Nat := (List.range 4).filterMap (fun d => (Table.find? p.devices d).map (fun n => (d, n)))

/-- A package's own record after a reset: what R384 keeps, and everything else at its reset value. The list of accepted items
of a package that stays out is mirrored, and waits for its acting home (R376). -/
def resetRecord (out : Bool) (p : Package) : Package :=
  let m := foldFaults p.faults p.muniment
  let ports := trainPorts p
  let r := { Package.reset with
    fenced := p.fenced
    keys := [(0, ⟨some 0, p.nextMaterial⟩)]
    nextMaterial := p.nextMaterial + 2
    ctlMaterial := p.ctlMaterial
    phasers := p.phasers.map (fun e => (e.1, resetPhaser e.2))
    muniment := m
    faults := if p.muniment.signed then [] else p.faults
    lost := p.lost
    notices := p.notices
    flash := p.flash
    inUse := p.inUse
    rollback := p.rollback
    kek := p.kek
    devices := p.devices
    trained := ports
    epoch := if p.muniment.chans = m.chans ∧ p.trained = ports then p.epoch else p.epoch + 1
    watts := p.watts
    tj := p.tj
    inlet := p.inlet }
  if out then { r with unmirrored := p.unmirrored, accepted := p.accepted, queues := p.queues, child := p.child } else r

/-- A key's members that are left when the items of a package go. -/
def keptMembers (s : State) (pkg : Nat) (g : Gathering) : Gathering := { g with items := g.items.filter (fun i => (s.item i).ctx.pkg != pkg) }

/-- Takes out what a reset ends: streams, placements, launches, items, queues, caches of a package; memory, pools and weight
buffers stay (R384), and so does the list of accepted items of a package that stays out (R376). DESIGN CHOICE: log entry 96. -/
def clearPackage (pkg : Nat) (s : State) : State :=
  let away (b : Nat) : Bool := (s.block b).pkg == pkg
  let out := staysOut s pkg
  { s with
    streams := s.streams.filter (fun x => agentPkg x.1 != pkg)
    groups := s.groups.filter (fun x => agentPkg x.1 != pkg)
    launches := s.launches.filter (fun x => x.2.pkg != pkg || out)
    items := s.items.filter (fun x => x.2.ctx.pkg != pkg || (out && x.2.cc != 0))
    colls := (s.colls.map (fun c => (c.1, keptMembers s pkg c.2))).filter (fun c => c.2.items != [])
    engq := (s.engq.filter (fun q => match q.1.1 with | .block b => !away b | .agent a => agentPkg a != pkg | .front p => p != pkg))
    blocks := s.blocks.filter (fun b => b.2.pkg != pkg)
    past := s.past.filter (fun b => b.2.pkg != pkg)
    early := s.early.filter (fun w => !away w.block)
    cores := s.cores.map (fun c => (c.1, if c.1.1 = pkg then { Core.reset with wbuf := c.2.wbuf } else c.2))
    mccs := s.mccs.filter (fun m => m.1.1 != pkg)
    ctls := s.ctls.filter (fun c => c.1.1 != pkg)
    stale := s.stale.filter (fun x => keyPkg (x.word * 8) != pkg)
    bad := s.bad.filter (fun w => match w with
      | .mem _ => true
      | .scratch b _ | .acc b _ => !away b
      | .vreg a _ _ | .qbuf a _ | .trapReg a => agentPkg a != pkg
      | .wbuf _ _ _ => true)
    pkgs := Table.put s.pkgs pkg (resetRecord out (s.pkg pkg)) }

/-- The boot sequence of the security engine, in its order (R385 to R387): a package whose tables do not verify, outside the
limits, or lost in its panel presents no configuration; one without firmware has its descriptor and stays out of its panel.
DEDUCED: log entry 88. -/
def bootPackage (pkg : Nat) (buddyUp : Bool) (s : State) : State :=
  let p := s.pkg pkg
  if staysOut s pkg || !p.muniment.signed || !withinLimits p.muniment then mapPkg pkg (fun p => { p with present := false }) s
  else
    let s := mapPkg pkg (fun p => { p with unmirrored := !buddyUp }) s
    let s := writeCtl pkg 0 bootBlockBytes s
    let s := writeCtl pkg 0x1000 (descriptorBytes s pkg) s
    let s := writeCtl pkg 0x2000 (leBytes 256 0) s
    match bootBank p with
    | none => mapPkg pkg (fun p => { p with present := false }) s
    | some i =>
      let s := mapPkg pkg (fun p => { p with inUse := i, booted := true }) s
      let s := writeCtl pkg 0x200000 (p.flash.getD i default).image s
      let s := writePower pkg s
      let s := s.setPanel (panelOf pkg) { s.panel (panelOf pkg) with silent := (List.range 16).foldl (fun t d => Table.put t (d, pkg) 0) (s.panel (panelOf pkg)).silent }
      { s with streams := s.streams ++ ctlStreams pkg p.muniment }

/-- Whether the buddy of a package presents a configuration (R288). DEDUCED: log entry 97. -/
def buddyUp (s : State) (pkg : Nat) : Bool := pkgUp s (pkg ^^^ 1) && (s.pkg (pkg ^^^ 1)).booted

/-- A panel's record, made when its first package is powered (R372). -/
def ensurePanel (n : Nat) (s : State) : State :=
  if (Table.find? s.panels n).isSome then s else s.setPanel n ⟨1, [], [], [], []⟩

/-- A package reset, with its boot (R384, R385). -/
def resetPackage (pkg : Nat) (s : State) : State :=
  bootPackage pkg (buddyUp s pkg) (clearPackage pkg (ensurePanel (panelOf pkg) s))

/-- `PACKAGE_RESET` (R384). -/
def execPackageReset (pkg : Nat) (s : State) : Out :=
  finishEvent s (if (Table.find? s.pkgs pkg).isSome then .ok (resetPackage pkg s) else .error .stall)

/-- Control memory after a loss of power: zero, under the key slot 0 that this reset makes (R384, R298). -/
def clearControl (pkg : Nat) (s : State) : State :=
  let ctl (k : Nat) : Bool := keyPkg k == pkg && keyTgt k == 0
  let s := { s with
    mem := s.mem.filter (fun c => !ctl c.1)
    lineKeys := s.lineKeys.filter (fun l => !ctl (l.1 * 128))
    bad := s.bad.filter (fun w => match w with | .mem n => !ctl (n * 8) | _ => true) }
  mapPkg pkg (fun p => { p with ctlMaterial := p.nextMaterial }) s

/-- `POWER_ON_RESET` (R384). -/
def execPowerOnReset (pkg : Nat) (s : State) : Out :=
  finishEvent s (if pkg < 256 then .ok (resetPackage pkg (clearControl pkg s)) else .error .stall)

/-- `PANEL_RESET` resets every package of a panel at once; losses, switch slots and watermarks are gone (R372, R373, R384). -/
def execPanelReset (panel : Nat) (s : State) : Out :=
  finishEvent s (
    let mine := (s.pkgs.map (·.1)).filter (fun p => panelOf p == panel)
    let s := s.setPanel panel ⟨1, [], [], [], []⟩
    let s := { s with pkgs := s.pkgs.map (fun p => (p.1, { p.2 with
      fenced := p.2.fenced && panelOf p.1 != panel
      lost := p.2.lost.filter (fun q => panelOf q != panel)
      notices := p.2.notices.filter (fun n => panelOf n.2 != panel) })) }
    let good := mine.filter (fun p => boots (s.pkg p))
    let s := seqAll clearPackage mine s
    .ok (seqAll (fun p s => bootPackage p (good.contains (p ^^^ 1)) s) mine s))

/-- A control-memory PA of a package's own homes (R285, R387). -/
def ownPa (pkg align v : Nat) : Bool := v % align == 0 && v / 2 ^ 36 == pkg % 64 && decide (v % 2 ^ 36 < ctlSize)

/-- The boot block's fields as a release reads them (R387). -/
def bootBlockOk (pkg : Nat) (bs : List Byte) : Bool :=
  numAt bs 0 4 == 0x544F4F42 && ownPa pkg 4096 (numAt bs 8 8) && ownPa pkg 64 (numAt bs 0x10 8) && numAt bs 0x18 8 % 4096 == 0 &&
    decide (numAt bs 0x20 4 ≤ 1) && numAt bs 0x24 28 == 0

/-- An entry of the core setup table: TRAPBASE, SIDEBUF, SAVEBASE, a bad value loaded as 0 (R25, R341, R388). -/
def setupEntry (s : State) (pkg base n : Nat) : Word64 × Word64 × Word64 :=
  let v (o : Nat) : Word64 := BitVec.ofNat 64 (readCtl s pkg (base + 32 * n + o) 8)
  (if (v 0).toNat % 4096 = 0 then v 0 else 0, if baseOk 0x8000 (v 8) then v 8 else 0, if baseOk 0x200000 (v 16) then v 16 else 0)

/-- Loads the core setup table (R341, R388). -/
def loadSetup (pkg base : Nat) (s : State) : State :=
  let m := (s.pkg pkg).muniment
  let s := seqAll (fun n s =>
    let e := setupEntry s pkg base n
    mapCore (pkg, n) (fun c => { c with trapbase := e.1, sidebuf := e.2.1, savebase := e.2.2 }) s) ((List.range 468).filter (coreUp m)) s
  seqAll (fun c s =>
    let e := setupEntry s pkg base (468 + c)
    mapMcc (pkg, c) (fun x => { x with trapbase := e.1, sidebuf := e.2.1, savebase := e.2.2 }) s) ((List.range 52).filter (clusterUsable m)) s

/-- What the device reads of a package's boot block and mailbox, as a turn leaves them: the boot block when GO has gone from 0
to 1 while the device holds it at 0, the mailbox when CMD has left 0 while the engine is idle (R387, R390). -/
def observePort (before : State) (pkg : Nat) (s : State) : State :=
  let p := s.pkg pkg
  let bytes (off n : Nat) : List Byte := readRange s (slotMaterial s pkg 0) (physKey pkg 0 off) n
  let s := if p.goRead.isNone && p.go == 0 && readCtl before pkg 4 4 == 0 && readCtl s pkg 4 4 == 1 then
      mapPkg pkg (fun p => { p with goRead := some (bytes 0 64) }) s
    else s
  if p.mail.isNone && readCtl before pkg 0x2000 4 == 0 && readCtl s pkg 0x2000 4 != 0 then
    mapPkg pkg (fun p => { p with mail := some (bytes 0x2000 256) }) s
  else s

/-- The same for every package whose engine runs. -/
def observePorts (before s : State) : State :=
  seqAll (observePort before) ((s.pkgs.filter (fun p => pkgUp s p.1 && p.2.booted)).map (·.1)) s

/-- `GO_RELEASE`: the device has read the boot block; it refuses, or loads the core setup table and releases the cores (R387,
R388). DESIGN CHOICE: log entry 30. -/
def execGoRelease (pkg : Nat) (s : State) : Out :=
  finishEvent s (
    match (s.pkg pkg).goRead with
    | none => .error .stall
    | some bs =>
      if pkgUp s pkg = true ∧ (s.pkg pkg).booted = true then
        let held (v : Nat) (s : State) : State := mapPkg pkg (fun p => { p with go := v, goRead := none }) (writeCtl pkg 4 (leBytes 4 v) s)
        if bootBlockOk pkg bs then
          .ok (held 3 (mapPkg pkg (fun p => { p with qtab := numAt bs 8 8 }) (loadSetup pkg (numAt bs 0x10 8 % 2 ^ 36) s)))
        else .ok (held 2 s)
      else .error .stall)

/-- The engine's answer in the mailbox: STATUS, then CMD (R390). -/
def answer (pkg status : Nat) (s : State) : State :=
  mapPkg pkg (fun p => { p with mail := none }) (writeCtl pkg 0x2000 (leBytes 4 0) (writeCtl pkg 0x2004 (leBytes 4 status) s))

/-- The mailbox as copied, where its command is one of some (R390). -/
def mailboxHas (s : State) (pkg : Nat) (p : Nat → Bool) : Option (List Byte) :=
  if pkgUp s pkg && (s.pkg pkg).booted then (s.pkg pkg).mail.filter (fun bs => p (numAt bs 0 4)) else none

/-- `LOADKEY` unwraps a slot's key material (R297, R390); a package without a key-encryption key verifies nothing.
DESIGN CHOICE: log entry 89. -/
def execLoadkey (pkg : Nat) (s : State) : Out :=
  finishEvent s (
    match mailboxHas s pkg (· == 1) with
    | none => .error .stall
    | some mail =>
      let slot := numAt mail 8 4
      let arg := numAt mail 0x10 8
      if slot = 0 ∨ 255 < slot ∨ ownPa pkg 1 arg = false ∨ ctlSize < arg % 2 ^ 36 + 72 then .ok (answer pkg 2 s)
      else
        let at_ := physKey pkg 0 (arg % 2 ^ 36)
        let s := foldKeys ((List.range 72).map (at_ + ·)) s
        let bytes := readRange s (slotMaterial s pkg 0) at_ 72
        match (s.pkg pkg).kek with
        | none => .ok (answer pkg 1 s)
        | some kek =>
          match unwrapMaterial (leBytes 32 kek) bytes with
          | none => .ok (answer pkg 1 s)
          | some m =>
            let job := (Table.findD (s.pkg pkg).keys slot ⟨none, 0⟩).job
            .ok (answer pkg 0 (mapPkg pkg (fun p => { p with keys := Table.put p.keys slot ⟨job, 2 * leNat m + 2⟩ }) s)))

/-- A digest of 64 bytes. DESIGN CHOICE: log entry 20. -/
def digest (bs : List Byte) : List Byte := (List.range 64).map (Config.shake256 bs)

/-- The Muniment tables as the engine signs them (R378; log entry 20). -/
def munimentBytes (m : Muniment) : List Byte :=
  m.cores.flatMap (leBytes 1) ++ m.ctls.flatMap (leBytes 1) ++ m.chans.flatMap (leBytes 2) ++
    (List.range 36).flatMap (fun n => leBytes 1 (((liveLanes m n).map (fun i => 2 ^ i)).foldl (· + ·) 0)) ++ leBytes 4 m.mseq

/-- The attestation report (R390; log entry 20): digests of 64 bytes, a signature of 1,280 bytes. -/
def reportBytes (s : State) (pkg : Nat) (nonce : List Byte) : List Byte :=
  let p := s.pkg pkg
  let body := digest (p.flash.getD p.inUse default).image ++ digest (munimentBytes p.muniment) ++ leBytes 4 p.muniment.mseq ++
    digest (readRange s (slotMaterial s pkg 0) (physKey pkg 0 0x1000) 2048) ++ nonce ++ (List.range 1793).map (Config.identityKey pkg)
  body ++ (List.range 1280).map (Config.falconSign pkg (digest body))

/-- `ATTEST` writes a report (R390). -/
def execAttest (pkg : Nat) (s : State) : Out :=
  finishEvent s (
    match mailboxHas s pkg (· == 2) with
    | none => .error .stall
    | some mail =>
      let arg := numAt mail 0x10 8
      if ownPa pkg 4096 arg = false then .ok (answer pkg 2 s)
      else .ok (answer pkg 0 (writeCtl pkg (arg % 2 ^ 36) (reportBytes s pkg ((mail.drop 0x18).take 32)) s)))

/-- `BAD_COMMAND`: a command that the engine does not know (R390). -/
def execBadCommand (pkg : Nat) (s : State) : Out :=
  finishEvent s (match mailboxHas s pkg (fun c => decide (3 ≤ c)) with | some _ => .ok (answer pkg 2 s) | none => .error .stall)

/-- `IBKEL_READ_STATUS` reads the descriptor and the power status, and changes nothing (R391). -/
def execIbkelReadStatus (_pkg : Nat) (s : State) : Out := .next s

/-- Whether a firmware image ends in a signature block that verifies under the fused vendor key (R86, R385). -/
def firmwareVerifies (image : List Byte) : Bool :=
  (List.range image.length).any (fun o =>
    let sec := image.drop o
    numAt sec 0 4 == 1 && sec.length == 0x50 + numAt sec 8 4 && decide (1 ≤ numAt sec 8 4) && decide (numAt sec 8 4 ≤ 1280) &&
      (sec.drop 0x10).take 64 == digest (image.take o) &&
      Config.falconVerify ((List.range 1793).map Config.vendorKey) ((sec.drop 0x10).take 64) (sec.drop 0x50))

/-- A request at the port of a package that there is. -/
def portEvent (pkg : Nat) (f : State → State) (s : State) : Out :=
  finishEvent s (if (Table.find? s.pkgs pkg).isSome then .ok (f s) else .error .stall)

/-- `IBKEL_WRITE_FIRMWARE` writes the bank that is not in use; the next reset verifies it (R385, R391). -/
def execIbkelWriteFirmware (pkg version : Nat) (image : List Byte) (s : State) : Out :=
  portEvent pkg (mapPkg pkg (fun p => { p with flash := p.flash.set (1 - p.inUse) ⟨version, image, firmwareVerifies image⟩ })) s

/-- `IBKEL_RESET_REQUEST` (R384, R391). -/
def execIbkelResetRequest (pkg : Nat) (s : State) : Out :=
  finishEvent s (if (Table.find? s.pkgs pkg).isSome then .ok (resetPackage pkg s) else .error .stall)

/-- `IBKEL_RETIRE_REQUEST` queues a fault record (R379, R391). -/
def execIbkelRetireRequest (pkg : Nat) (unit : FaultUnit) (s : State) : Out := portEvent pkg (queueFault pkg unit) s

/-- `IBKEL_PROVISION_KEK` provisions the key-encryption key once (R390, R391). -/
def execIbkelProvisionKek (pkg key : Nat) (s : State) : Out :=
  portEvent pkg (mapPkg pkg (fun p => { p with kek := some (p.kek.getD key) })) s

/-- Adds a watchpoint to a core by its number in the setup table's order, control cores after it: none to a core that has
four (R388, R391). DESIGN CHOICE: log entry 21. -/
def addWatch (pkg core : Nat) (w : Watch) (s : State) : Option State :=
  let add (old : List Watch) (f : State) : Option State := if old.length < 4 then some f else none
  if core < 468 then add (s.core (pkg, core)).watch (mapCore (pkg, core) (fun c => { c with watch := c.watch ++ [w] }) s)
  else if core < 520 then add (s.mcc (pkg, core - 468)).watch (mapMcc (pkg, core - 468) (fun c => { c with watch := c.watch ++ [w] }) s)
  else if core < 552 then add (s.ctl (pkg, core - 520)).watch (mapCtl (pkg, core - 520) (fun c => { c with watch := c.watch ++ [w] }) s)
  else none

/-- `IBKEL_SET_WATCHPOINT` sets one of a core's four watchpoints; it takes a debug token, which stays valid until the next
reset and which a free value presents (R391). DESIGN CHOICE: log entry 21. -/
def execIbkelSetWatchpoint (pkg core : Nat) (lo hi : Word64) (reads writes : Bool) (s : State) : Out :=
  finishEvent s (
    if ((s.pkg pkg).token || Config.freeBit s.choice pkg) && (Table.find? s.pkgs pkg).isSome then
      match addWatch pkg core ⟨lo, hi, reads, writes⟩ s with
      | some s => .ok (mapPkg pkg (fun p => { p with token := true }) s)
      | none => .error .stall
    else .error .stall)

end Sys2Proof.Machine
end

