-- ==== Sys2Proof/Machine/Issue.lean ====
section
/-! DEFINITION. What a turn of a stream issues: whether the stream may issue, the fetch, the decoding, the waits and the
errors that come before an instruction's own effect (R11, R14, R57, R72, R88, R90, R98, R121, R147, R173, R209, R302, R334,
R342 to R345); what the turns of time and of the world outside do to one package (R25, R287, R301, R308, R331, R350, R352,
R378, R392). -/

namespace Sys2Proof.Machine

/-- What a turn comes to: nothing, a trap before any instruction runs, an instruction. -/
inductive Issue where
  | hold
  | trap (t : Trap)
  | run (i : Instr)
deriving DecidableEq, Repr, Inhabited

/-- A block whose groups issue: it is not being put away (R353, R354). -/
def blockIssues (b : Block) : Bool := match b.preempt with | .none | .drain _ => true | _ => false

/-- A control core that has an event to take before its next instruction of user mode: a MACHINE event of its die, or its wake
flag (R342, R343). -/
def interrupted (s : State) (ag : Agent) : Bool :=
  match ag with
  | .ctl p i => !sysMode s ag && ((s.ctl (p, i)).wake || (Table.findD (s.pkg p).machine (i / 8) [] != [] && dieCtl s p (i / 8) == some i))
  | _ => false

/-- An agent of a running package that may issue: a running stream without a trap or an event to enter, and for a group a
place in the active set of its issue slot (R334, R342, R343, R373). DESIGN CHOICE: log entry 15. -/
def mayIssue (s : State) (ag : Agent) : Bool :=
  match Table.find? s.streams ag with
  | none => false
  | some x =>
    x.run == .running && x.posted.isNone && pkgUp s (agentPkg ag) && (s.pkg (agentPkg ag)).booted && !interrupted s ag &&
      (match ag with
        | .group _ _ _ => (s.group ag).slot == .active && blockIssues (s.block (s.group ag).block)
        | _ => true)

/-- Fetches a word at an address (R26, R98, R293, R302). -/
def fetchWord (s : State) (ag : Agent) (va : Word64) : Except Stop (BitVec 32) := do
  let c := ctxOf s ag
  match spaceOf va with
  | some (.scratch _) => raise .translation 1 va
  | _ => .ok ()
  let p ← place s c { fetch := true } va 4
  match badAt s c p.loc 4 with
  | some d => raise .memerr d va
  | none => .ok (BitVec.ofNat 32 (leNat (readPlace (foldAt p.loc s) c p 4)))

/-- A scalar word that a second word follows: `EXT` and the long forms (R57, R60, R64). -/
def twoWords (w : BitVec 32) : Bool := decide (0x3E ≤ (fOp w).toNat) || fOp w == 0x33

/-- The scalar fetch window (R11). -/
def fetchScalar (s : State) (ag : Agent) : Except Stop Code := do
  let pc := (s.stream ag).spc
  let w0 ← fetchWord s ag pc
  if twoWords w0 then do
    let w1 ← fetchWord s ag (pc + 4)
    .ok (.scalar w0 w1)
  else .ok (.scalar w0 0)

/-- The three words of a lane instruction (R15, R57). -/
def fetchLaneWord (s : State) (ag : Agent) (va : Word64) : Except Stop (BitVec 96) := do
  let a ← fetchWord s ag va
  let b ← fetchWord s ag (va + 4)
  let c ← fetchWord s ag (va + 8)
  .ok (c ++ b ++ a)

/-- The lane code base of an agent's launch (R15). -/
def laneBase (s : State) (ag : Agent) : Word64 := (s.launch (s.block (s.group ag).block).launch).lcode

/-- The lane fetch window: a `REP` and the word it prefixes, or one word (R70). -/
def fetchLane (s : State) (ag : Agent) (lpc : Word64) : Except Stop Code := do
  let va := laneBase s ag + lpc
  let w ← fetchLaneWord s ag va
  if w.extractLsb' 54 10 = 0x3FE then do
    let n ← fetchLaneWord s ag (va + 12)
    .ok (.lane w n)
  else .ok (.lane w 0)

/-- The words that the fetch window of a stream takes in, a second word only where there is one (R57, R70). -/
def scalarWindow (s : State) (ag : Agent) : List Word64 :=
  let pc := (s.stream ag).spc
  pc :: (match fetchWord s ag pc with | .ok w => if twoWords w then [pc + 4] else [] | .error _ => [])

def laneWindow (s : State) (ag : Agent) : List Word64 :=
  match lowestSplit (s.group ag) with
  | none => []
  | some (_, sp) =>
    let va := laneBase s ag + sp.lpc
    let more : List Word64 := match fetchLaneWord s ag va with
      | .ok w => if w.extractLsb' 54 10 = 0x3FE then [va + 12, va + 16, va + 20] else []
      | .error _ => []
    [va, va + 4, va + 8] ++ more

/-- A fetch reads through the coherence protocol: it folds the lines that it reads (R158). -/
def foldFetch (ag : Agent) (vas : List Word64) (s : State) : State :=
  seqAll (fun va s => match place s (ctxOf s ag) { fetch := true } va 4 with | .ok p => foldAt p.loc s | .error _ => s) vas s

/-- Scalar registers of the long forms. -/
def longRegs (w : LongWord) : List Nat := [w.d.toNat, w.a.toNat, w.b.toNat, w.c.toNat, w.e.toNat]
def tileRegs (w : TileWord) : List Nat := [w.d.toNat, w.a.toNat, w.b.toNat, w.c.toNat]

/-- Scalar registers that an instruction names (R88). -/
def instrRegs : Instr → List Nat
  | .add d a b => [d.toNat, a.toNat, b.toNat]
  | .sub d a b => [d.toNat, a.toNat, b.toNat]
  | .mul d a b => [d.toNat, a.toNat, b.toNat]
  | .mulh d a b => [d.toNat, a.toNat, b.toNat]
  | .mulhu d a b => [d.toNat, a.toNat, b.toNat]
  | .div d a b => [d.toNat, a.toNat, b.toNat]
  | .divu d a b => [d.toNat, a.toNat, b.toNat]
  | .rem d a b => [d.toNat, a.toNat, b.toNat]
  | .remu d a b => [d.toNat, a.toNat, b.toNat]
  | .sh1add d a b => [d.toNat, a.toNat, b.toNat]
  | .sh2add d a b => [d.toNat, a.toNat, b.toNat]
  | .sh3add d a b => [d.toNat, a.toNat, b.toNat]
  | .and d a b => [d.toNat, a.toNat, b.toNat]
  | .or d a b => [d.toNat, a.toNat, b.toNat]
  | .xor d a b => [d.toNat, a.toNat, b.toNat]
  | .andn d a b => [d.toNat, a.toNat, b.toNat]
  | .shl d a b => [d.toNat, a.toNat, b.toNat]
  | .shr d a b => [d.toNat, a.toNat, b.toNat]
  | .sra d a b => [d.toNat, a.toNat, b.toNat]
  | .ror d a b => [d.toNat, a.toNat, b.toNat]
  | .slt d a b => [d.toNat, a.toNat, b.toNat]
  | .sltu d a b => [d.toNat, a.toNat, b.toNat]
  | .seq d a b => [d.toNat, a.toNat, b.toNat]
  | .min d a b => [d.toNat, a.toNat, b.toNat]
  | .max d a b => [d.toNat, a.toNat, b.toNat]
  | .minu d a b => [d.toNat, a.toNat, b.toNat]
  | .maxu d a b => [d.toNat, a.toNat, b.toNat]
  | .clz d a => [d.toNat, a.toNat]
  | .ctz d a => [d.toNat, a.toNat]
  | .popc d a => [d.toNat, a.toNat]
  | .addi d a _ => [d.toNat, a.toNat]
  | .andi d a _ => [d.toNat, a.toNat]
  | .ori d a _ => [d.toNat, a.toNat]
  | .xori d a _ => [d.toNat, a.toNat]
  | .shli d a _ => [d.toNat, a.toNat]
  | .shri d a _ => [d.toNat, a.toNat]
  | .srai d a _ => [d.toNat, a.toNat]
  | .muli d a _ => [d.toNat, a.toNat]
  | .slti d a _ => [d.toNat, a.toNat]
  | .sltiu d a _ => [d.toNat, a.toNat]
  | .bfxI64 d a _ _ => [d.toNat, a.toNat]
  | .bfxN64 d a _ _ => [d.toNat, a.toNat]
  | .bfi d a _ _ => [d.toNat, a.toNat]
  | .beq a b _ => [a.toNat, b.toNat]
  | .bne a b _ => [a.toNat, b.toNat]
  | .blt a b _ => [a.toNat, b.toNat]
  | .bge a b _ => [a.toNat, b.toNat]
  | .bltu a b _ => [a.toNat, b.toNat]
  | .bgeu a b _ => [a.toNat, b.toNat]
  | .loop a b _ => [a.toNat, b.toNat]
  | .call _ => [47]
  | .jr a _ => [a.toNat]
  | .callr d a _ => [d.toNat, a.toNat]
  | .ldsI8 d a _ => [d.toNat, a.toNat]
  | .ldsN8 d a _ => [d.toNat, a.toNat]
  | .ldsI16 d a _ => [d.toNat, a.toNat]
  | .ldsN16 d a _ => [d.toNat, a.toNat]
  | .ldsI32 d a _ => [d.toNat, a.toNat]
  | .ldsN32 d a _ => [d.toNat, a.toNat]
  | .ldsN64 d a _ => [d.toNat, a.toNat]
  | .stsN8 b a _ => [b.toNat, a.toNat]
  | .stsN16 b a _ => [b.toNat, a.toNat]
  | .stsN32 b a _ => [b.toNat, a.toNat]
  | .stsN64 b a _ => [b.toNat, a.toNat]
  | .qset d a _ _ => [d.toNat, a.toNat]
  | .qgo a _ => [a.toNat]
  | .lrun _ => (List.range 16).map (· + 48)
  | .mfs d _ => [d.toNat]
  | .mts a _ => [a.toNat]
  | .cyc d => [d.toNat]
  | .trap a => [a.toNat]
  | .tret => [60, 61, 62, 63]
  | .barArr a _ _ => [a.toNat]
  | .barWait a _ _ => [a.toNat]
  | .barSync a _ _ => [a.toNat]
  | .phnew d a => [d.toNat, a.toNat]
  | .phfree a => [a.toNat]
  | .phreg a b => [a.toNat, b.toNat]
  | .phdrop a => [a.toNat]
  | .phsig a b => [a.toNat, b.toNat]
  | .phwait d a => [d.toNat, a.toNat]
  | .phsw d a b => [d.toNat, a.toNat, b.toNat]
  | .atomShort d a b _ _ => [d.toNat, a.toNat, b.toNat]
  | .chunk d a b => [d.toNat, a.toNat, b.toNat]
  | .cpstep d _ => [d.toNat]
  | .rflush a => [a.toNat]
  | .rqryNseg d a => [d.toNat, a.toNat]
  | .rqryStart d a b => [d.toNat, a.toNat, b.toNat]
  | .rqryLen d a b => [d.toNat, a.toNat, b.toNat]
  | .rqryTotal d a => [d.toNat, a.toNat]
  | .atomLong w => longRegs w
  | .redScalar w => longRegs w
  | .amaxrdScalar w => longRegs w
  | .ratom w => longRegs w
  | .rrel w => longRegs w
  | .fenceTc w => longRegs w
  | .launch w => longRegs w
  | .cancel w => longRegs w
  | .ccrd w => longRegs w
  | .ccwt w => longRegs w
  | .cpy w => longRegs w
  | .qfence w => longRegs w
  | .coll w => longRegs w
  | .segof w => longRegs w
  | .rbind w => longRegs w
  | .hgix w => longRegs w
  | .kick w => longRegs w
  | .sleep w => longRegs w
  | .wake w => longRegs w
  | .tlbinv w => longRegs w
  | .jroot w => longRegs w
  | .kbind w => longRegs w
  | .mma w => tileRegs w
  | .mmd w => tileRegs w ++ [(w.d + 1).toNat, (w.a + 1).toNat]
  | .mzero w => tileRegs w
  | .wloadImg w => tileRegs w
  | .wloadDense w => tileRegs w
  | .wupd w => tileRegs w
  | .accst w => tileRegs w
  | .accld w => tileRegs w
  | .tred w => tileRegs w
  | .tcvt w => tileRegs w
  | .tnorm w => tileRegs w
  | .tsmax w => tileRegs w
  | .tsync w => tileRegs w
  | _ => []

/-- Scalar registers that an instruction names, for an `EXT` those of the instruction it extends (R60, R88). -/
def namedSregs (i : Instr) : List Nat :=
  match i with
  | .ext _ next => match decode (.scalar next 0) with | .ok j => instrRegs j | .error _ => []
  | _ => instrRegs i

/-- An instruction that names a register whose value has still to be delivered; s0 takes no value (R88). -/
def awaitsRegs (x : Stream) (i : Instr) : Bool := (namedSregs i).any (fun r => r != 0 && x.await.contains r)

/-- The instruction an `EXT` extends, or the instruction itself. -/
def inner (i : Instr) : Instr :=
  match i with
  | .ext _ next => match decode (.scalar next 0) with | .ok j => j | .error _ => i
  | _ => i

/-- Drain instructions (R91). -/
def isDrain (i : Instr) : Bool :=
  match inner i with
  | .barArr _ _ _ | .barSync _ _ _ | .phsig _ _ | .phsw _ _ _ | .fence _ | .fenceTc _ | .launch _ | .yield _ | .halt => true
  | _ => false

/-- A `WAIT` or `WAITY`. -/
def isWait (i : Instr) : Bool := match i with | .wait _ _ _ _ | .waity _ _ _ _ => true | _ => false
def isHalt (i : Instr) : Bool := match i with | .halt => true | _ => false
def isTsync (i : Instr) : Bool := match i with | .tsync _ => true | _ => false

/-- The ordering stream of a tile instruction. -/
def tileStreamOf (i : Instr) : Option Nat :=
  match i with
  | .mma w | .mmd w | .mzero w | .wloadImg w | .wloadDense w | .wupd w | .accst w | .accld w | .tred w | .tcvt w | .tnorm w | .tsmax w => some w.sn.toNat
  | _ => none

/-- Whether a scalar instruction raises an earlier error (R90, R209). -/
def raisesDeferred (ag : Agent) (i : Instr) (d : Deferred) : Bool :=
  d.split.isNone &&
    (if d.tileStream.isSome && isMcc ag then isWait i || isTsync i || isHalt i || (tileStreamOf i).isSome && tileStreamOf i == d.tileStream
     else (namedSregs i).any (fun r => d.sregs.contains r) || isWait i || isDrain i)

/-- A load in flight whose data hold an error waits for the first instruction that raises it: one that no register names does
not go ahead of the data (R90). -/
def errorDue (x : Stream) (i : Instr) : Bool :=
  (isWait i || isDrain i) && x.loads.any (fun l => match l.err with | some d => d.split.isNone | none => false)

/-- Instructions of the scalar stream that access memory or issue an item; they wait for an acquiring item (R173). -/
def isAccess (i : Instr) : Bool :=
  match inner i with
  | .ldsI8 _ _ _ | .ldsN8 _ _ _ | .ldsI16 _ _ _ | .ldsN16 _ _ _ | .ldsI32 _ _ _ | .ldsN32 _ _ _ | .ldsN64 _ _ _
  | .stsN8 _ _ _ | .stsN16 _ _ _ | .stsN32 _ _ _ | .stsN64 _ _ _
  | .atomShort _ _ _ _ _ | .atomLong _ | .redScalar _ | .amaxrdScalar _ | .ratom _ | .rrel _ | .launch _ | .cancel _ | .ccrd _ | .ccwt _
  | .cpy _ | .coll _ | .cpstep _ _ | .chunk _ _ _ | .segof _ | .rbind _ | .hgix _ | .kick _ | .lrun _ | .qgo _ _
  | .rqryNseg _ _ | .rqryStart _ _ _ | .rqryLen _ _ _ | .rqryTotal _ _
  | .mma _ | .mmd _ | .wloadImg _ | .wloadDense _ | .wupd _ | .accst _ | .accld _ | .tred _ | .tcvt _ | .tnorm _ | .tsmax _ => true
  | _ => false

/-- An acquiring item of an agent that has not completed (R173). DEDUCED: log entry 92. -/
def acquiring (s : State) (ag : Agent) : Bool := s.items.any (fun x => x.2.issuer == ag && x.2.acquire && !x.2.orphan)

/-- A tile instruction that the issuing stream does not accept, or that names an unset element slot (R39, R63, R184, R191). -/
def tileFault (s : State) (ag : Agent) (groupToo : Bool) (w : TileWord) : Bool :=
  let slots := (ctxOf s ag).slots
  isCtl ag || (isGroup ag && (!groupToo || (s.launch (s.block (s.group ag).block).launch).mcode == 0)) || unsetSlot slots w.tya || unsetSlot slots w.tyb

/-- Decode faults that an instruction's own meaning raises, because its form does not fit the stream or the mode: they come
before every earlier error and every wait (R63, R65, R72, R118, R345). -/
def decodeFault (s : State) (ag : Agent) (i : Instr) : Bool :=
  let sys := sysMode s ag
  match inner i with
  | .wait _ _ _ _ => isCtl ag
  | .waity _ _ _ _ | .yield _ => isCtl ag || (isGroup ag && sys)
  | .lrun _ | .qset _ _ _ _ | .qgo _ _ => !isGroup ag || sys
  | .launch _ | .cancel _ => isMcc ag
  | .rbind _ => !isMcc ag
  | .kick _ | .sleep _ | .wake _ | .tlbinv _ | .jroot _ | .kbind _ => !isCtl ag || !sys
  | .mfs _ n => !mfsOk n.toNat || (sysPriv n.toNat && !sys)
  | .mts _ n => !mtsOk n.toNat || (decide (0x40 ≤ n.toNat) && !isCtl ag) || !sys
  | .tret => !sys
  | .halt => isCtl ag && !sys
  | .accst w | .tsync w => tileFault s ag true w
  | .mma w | .mmd w | .mzero w | .wloadImg w | .wloadDense w | .wupd w | .accld w | .tred w | .tcvt w | .tnorm w | .tsmax w => tileFault s ag false w
  | _ => false

/-- What holds an instruction before it takes effect, or what it raises first (R72, R88, R90, R173, R209). -/
def beforeEffect (s : State) (ag : Agent) (i : Instr) : Issue :=
  if decodeFault s ag i then .run i
  else
    match (s.stream ag).deferred.find? (raisesDeferred ag i) with
    | some d => .trap d.trap
    | none => if awaitsRegs (s.stream ag) i || errorDue (s.stream ag) i || (isAccess i && acquiring s ag) then .hold else .run i

/-- What the scalar stream of an agent issues. -/
def issueScalar (s : State) (ag : Agent) : Issue :=
  if !mayIssue s ag then .hold
  else
    match fetchScalar s ag with
    | .error .stall => .hold
    | .error (.trap t) => .trap t
    | .ok c =>
      match decode c with
      | .error _ => .trap { cls := .illegal, detail := 0 }
      | .ok i => beforeEffect s ag i

/-- The lane form of a lane instruction, in the present iteration for a `REP` (R70). -/
def presentForm (g : Group) (id : Nat) (i : Instr) : Option LaneForm :=
  match i with
  | .rep n stride adv next =>
    if n.toNat ≤ repeatIndex g id then none
    else match repeated next with
      | .ok f => some (f.iterate adv (repeatIndex g id) stride.toNat)
      | .error _ => none
  | _ => laneForm i

/-- The words of lane registers that a form names, pairs counted. -/
def wholeRegs (rs : List (Nat × Bool)) : List Nat := rs.flatMap (fun r => if r.2 then [r.1, r.1 + 1] else [r.1])

/-- Lane registers that a form reads. -/
def sourceRegs (f : LaneForm) : List Nat := wholeRegs ({ f with d := none } : LaneForm).regs

/-- The active lanes of a form in a split. -/
def formLanes (sp : Split) (f : LaneForm) : List Nat :=
  let act := sp.mask &&& maskOf sp f.word.msel.toNat
  (List.range 32).filter (fun l => act.getLsbD l)

/-- The instruction that a `REP` repeats, or the instruction itself (R70). -/
def innerLane (i : Instr) : Instr :=
  match i with
  | .rep _ _ _ next => match decode (.lane next 0) with | .ok j => j | .error _ => i
  | _ => i

/-- Decode faults of a lane form: a register beyond the allotment, a 64-bit operand of odd number, an unset slot (R13, R39,
R72, R139). -/
def laneFault (s : State) (ag : Agent) (i : Instr) (f : LaneForm) : Bool :=
  let b := s.block (s.group ag).block
  let vn := vnOf b.partw b.groups.length
  let unset (t : Nat) : Bool := decide (16 ≤ t) && slotOf (ctxOf s ag).slots (t - 16) == none
  f.odd || f.regs.any (fun r => beyondVn vn (BitVec.ofNat 9 r.1, r.2)) || unset f.word.ty.toNat ||
    (match innerLane i with | .cvt w => unset (w.imm.extractLsb' 0 5).toNat | _ => false) ||
    (match i with | .rep n stride adv next => (match repeated next with | .ok f => f.beyond adv (n.toNat - 1) stride.toNat vn | .error _ => false) | _ => false)

/-- A form that names ranges of registers, whose errors its own meaning looks for (R242). -/
def isGrid (i : Instr) : Bool := match innerLane i with | .hgld _ | .hgsc _ => true | _ => false

/-- What a lane instruction meets before it runs: after its decode faults, an earlier error of a register it names, an
uncorrectable register (R72, R147, R302). -/
def laneCheck (s : State) (ag : Agent) (id : Nat) (sp : Split) (i : Instr) : Issue :=
  match presentForm (s.group ag) id i with
  | none => .run i
  | some f =>
    if isGrid i || laneFault s ag i f then .run i
    else match registerErrors s ag (wholeRegs f.regs) (sourceRegs f) (formLanes sp f) with
      | some t => .trap t
      | none => .run i

/-- What the lane stream of a group issues: the live split of lowest LPC, in user mode (R121, R345). -/
def issueLane (s : State) (ag : Agent) : Issue :=
  if !isGroup ag || !mayIssue s ag || sysMode s ag || !(s.group ag).inSeg then .hold
  else
    match lowestSplit (s.group ag) with
    | none => .hold
    | some (id, sp) =>
      match fetchLane s ag sp.lpc with
      | .error .stall => .hold
      | .error (.trap t) => .trap t
      | .ok c =>
        match decode c with
        | .error _ => .trap { cls := .illegal, detail := 0 }
        | .ok i => laneCheck s ag id sp i

/-- The lane registers that a lane instruction writes whole lose their uncorrectable words, where it retired (R302). -/
def noteLane (ag : Agent) (before : State) (i : Instr) (s : State) : State :=
  match lowestSplit (before.group ag) with
  | none => s
  | some (id, sp) => match presentForm (before.group ag) id i with
    | none => s
    | some f => if (s.block (before.group ag).block).rt = (before.block (before.group ag).block).rt then s
      else clearRegs ag (match f.d with | some wd => wholeRegs [(f.word.dst.toNat, wd)] | none => []) (formLanes sp f) s

/-- The package in which an event happens; none for an event of a switch die. -/
def eventPkg (s : State) : Instr → Option Nat
  | .loadDataReturn a _ | .storeAcknowledge a _ | .trapEntry a | .machineEvent a | .preemptTrap a | .segmentBegin a | .aaePush a _
  | .tileOpArrival a | .groupEligible a | .activeWaitSwap a _ | .pendingReadySwap a _ => some (agentPkg a)
  | .remoteItemStatus i | .itemStart i | .itemSourceReusable i | .itemVisible i | .collectiveArrival i | .switchArrival i
  | .destinationLineFull i _ => some (s.item i).ctx.pkg
  | .leaseReclaim p _ | .tileStep p _ _ | .tileOpComplete p _ _ | .ringEntrySkip p _ | .ringEntryLaunch p _ | .ringEntryCopy p _
  | .ringEntryGate p _ | .ringEntryFailure p _ | .itemEligible p _ | .distributorSelect p | .blockPlace p _ | .gangPlace p _
  | .preemptDecision p _ | .headReserve p _ | .imageResume p _ _ | .l1Eviction p _ _ | .l1LineExpire p _ _ => some p
  | .blockEnd b | .drainFallback b | .save b | .flushAndRestart b => some (s.block b).pkg
  | _ => none

/-- Writes of an item that a survivor accepted still happen after its package is fenced (R374). -/
def acceptedWork (s : State) : Instr → Bool
  | .itemStart i => (s.item i).phase == .started
  | _ => false

/-- Whether an event can happen: nothing happens in a package that is fenced, out, or not yet booted, but for writes that
others have accepted (R373, R374, R385). DESIGN CHOICE: log entry 103. -/
def eventMay (s : State) (i : Instr) : Bool :=
  (encode i).isNone &&
    (match eventPkg s i with
      | none => true
      | some p => (pkgUp s p && (s.pkg p).booted) || acceptedWork s i)

/-- The readings of the power monitor after a while (R392): free values. -/
def sampleMonitor (pkg n : Nat) (s : State) : State :=
  let s' := mapPkg pkg (fun p =>
    let q := { p with watts := Config.watts s.choice, tj := Config.junction s.choice, inlet := Config.inlet s.choice }
    { q with calm := if powerCause q = 0 then p.calm + n else 0 }) s
  if (s'.pkg pkg).booted && pkgUp s' pkg then writePower pkg s' else s'

/-- Ages of a block: E while it is resident, the cycles since a drain decision (R350, R352). -/
def ageBlock (pkg n : Nat) (x : Nat × Block) : Nat × Block :=
  if x.2.pkg ≠ pkg then x
  else match x.2.preempt with
    | .saved _ => x
    | .drain a => (x.1, { x.2 with e := x.2.e + n, preempt := .drain (a + n) })
    | _ => (x.1, { x.2 with e := x.2.e + n })

/-- Clean lines age, and none outlives 16,384 cycles (R308). -/
def ageCore (pkg n : Nat) (x : (Nat × Nat) × Core) : (Nat × Nat) × Core :=
  if x.1.1 = pkg then (x.1, { x.2 with clean := (x.2.clean.map (fun l => { l with age := l.age + n })).filter (fun l => decide (l.age ≤ 16384)) }) else x

/-- An eligible head ages (R331). -/
def ageQueue (n : Nat) (q : LaunchQ) : LaunchQ := if q.eligible then { q with unplaced := q.unplaced + n } else q

/-- The counts that a package, its blocks and its caches keep of cycles (R25, R308, R331, R350, R352, R371, R392). -/
def countCycles (pkg n : Nat) (s : State) : State :=
  let s := mapPkg pkg (fun p => { p with
    cyc := p.cyc + BitVec.ofNat 64 n
    sinceBeat := p.sinceBeat + n
    queues := Vec.make 64 (fun i => ageQueue n (Vec.get p.queues i))
    child := ageQueue n p.child }) s
  { s with blocks := s.blocks.map (ageBlock pkg n), cores := s.cores.map (ageCore pkg n) }

/-- The count of one core runs ahead: counts of cores are not related to one another (R25). DESIGN CHOICE: log entry 19. -/
def drift (ag : Agent) (n : Nat) (s : State) : State :=
  match ag with
  | .group p c _ => mapCore (p, c) (fun k => { k with ahead := k.ahead + BitVec.ofNat 64 n }) s
  | .mcc p c => mapMcc (p, c) (fun k => { k with ahead := k.ahead + BitVec.ofNat 64 n }) s
  | .ctl p i => mapCtl (p, i) (fun k => { k with ahead := k.ahead + BitVec.ofNat 64 n }) s

/-- A stored word comes to hold an uncorrectable error, or a device answers with poison (R287, R301). -/
def upset (w : BadWord) (s : State) : State := { s with bad := addOnce w s.bad }

/-- A memory device stands at a CXL port of a package, 3,072 GB at most, or none does (R287). DESIGN CHOICE: log entry 90. -/
def attachDevice (pkg port bytes : Nat) (s : State) : State :=
  if port < 4 ∧ bytes ≤ 3072 * 10 ^ 9 ∧ (Table.find? s.pkgs pkg).isSome = true then
    mapPkg pkg (fun p => { p with devices := if bytes = 0 then Table.del p.devices port else Table.put p.devices port bytes }) s
  else s

/-- The Muniment tables of a package no longer verify (R378). DESIGN CHOICE: log entry 86. -/
def tamper (pkg : Nat) (s : State) : State :=
  if (Table.find? s.pkgs pkg).isSome = true then mapPkg pkg (fun p => { p with muniment := { p.muniment with signed := false } }) s else s

/-- Takes the next turn off the agenda, or the one that a free value names; every turn counts a choice. -/
def nextTurn (s : State) : Turn := s.agenda.headD (Config.chooseTurn s.choice)
def beginTurn (s : State) : State := { s with agenda := s.agenda.drop 1, choice := s.choice + 1 }

end Sys2Proof.Machine
end

