-- ==== Sys2Proof/Machine/Load.lean ====
section
/-! DEFINITION. Placing an instruction where the next turn fetches it (log entry 10): a scalar word at a control core, a
lane word in a segment of a placed group. -/

namespace Sys2Proof.Machine

/-- Stores bytes in package 0's control memory under its slot 0, their words without errors. -/
def storeCode (off : Nat) (bs : List Byte) (s : State) : State :=
  let s := writeRange (slotMaterial s 0 0) (physKey 0 0 off) bs s
  { s with bad := s.bad.filter (fun w => match w with | .mem n => decide (n < off / 8 ∨ (off + bs.length) / 8 < n) | _ => true) }

/-- Package 0 after its boot, its control core 0 in service. -/
def bootedPackage (p : Package) : Package := { p with present := true, booted := true, fenced := false }

/-- The control core's stream, ready to issue at an address of its identity mapping (R386). -/
def readyStream (x : Stream) : Stream :=
  { x with
    spc := if x.spc.toNat % 4 = 0 ∧ x.spc.toNat + 8 ≤ ctlSize ∧ 8 ≤ x.spc.toNat then x.spc else firmwareEntry
    await := []
    deferred := []
    run := .running
    posted := none
    mode := x.mode ||| 1 }

/-- A scalar word and the one after it at control core 0's program counter. -/
def loadScalar (w : Nat) (s : State) : State :=
  let ag := Agent.ctl 0 0
  let s := mapPkg 0 bootedPackage s
  let s := mapStream ag readyStream (mapCtl (0, 0) (fun c => { c with ptbase := 0 }) s)
  let s := storeCode (s.stream ag).spc.toNat (leBytes 8 w) s
  { s with agenda := .issue ag :: s.agenda }

/-- A launch whose lane code stands at 0x20_0000, with every lane register, 256 KiB of each pool (R19, R322). -/
def loadLaunch : Launch where
  pkg := 0
  queue := none
  recAddr := 0
  scode := 0x200000
  lcode := 0x200000
  mcode := 0
  param := 0
  gridx := 1
  gridy := 1
  gridz := 1
  groups := 1
  nbar := 0
  prio := 0
  ord := false
  idem := false
  partw := 0x02101010
  expect := 0
  trig := 0
  tphase := 0
  cc := 0
  srseed := 0
  sched := 0
  nsched := 0
  stage0 := 0
  frep := 0
  fs := Vector.replicate 16 0
  ctxid := 0
  ptbase := 0x1000000
  next := 1
  rows := []
  redo := []
  flushed := []
  last := []
  ended := []
  cancelled := false

/-- A group on core 0 that runs a segment at its first word. -/
def loadGroup (blk : Nat) : Group :=
  { groupAtPlacement blk 0 .active with
    segq := [⟨0x200000, Vector.replicate 16 0⟩]
    inSeg := true
    live := 0xFFFFFFFF
    splits := Vec.set (Vector.replicate 4 none) 0 (some { lpc := 0, mask := 0xFFFFFFFF, m := Vector.replicate 7 0 }) }

/-- A lane word and the one after it at the lane program counter of a group placed for it; its page tables map the 2 MiB at
0x20_0000 of control space onto themselves (R289, R290). -/
def loadLane (w : Nat) (s : State) : State :=
  let ag := Agent.group 0 0 0
  let n := s.nextId
  let s := mapPkg 0 bootedPackage { s with nextId := n + 2 }
  let s := s.setLaunch n loadLaunch
  let s := s.setBlock (n + 1) (blockAtPlacement loadLaunch n 0 (0, 0) [ag] 0 [])
  let s := (s.setStream ag (groupStream loadLaunch 0 0)).setGroup ag (loadGroup (n + 1))
  let s := mapCore (0, 0) (fun c => { c with trapbase := 0x210000, sidebuf := 0x208000, savebase := 0x200000 }) s
  let s := mapPkg 0 (fun p => { p with keys := Table.put p.keys 0 ⟨some 0, (slotMaterial s 0 0).material⟩ }) s
  let s := storeCode 0x1000000 (leBytes 8 0x1020001) s
  let s := storeCode 0x1020000 (leBytes 8 0x1021001) s
  let s := storeCode 0x1021008 (leBytes 8 0x4001F) s
  let s := storeCode 0x200000 (leBytes 24 w) { s with stale := [] }
  { s with agenda := .lane ag :: s.agenda }

end Sys2Proof.Machine
end

