-- ==== Sys2Proof/Machine/Dispatch.lean ====
section
/-! DEFINITION. The meaning of every step of the part: one call for each row of the opcode table. -/

namespace Sys2Proof.Machine

/-- The meaning of an instruction or event (the opcode table). -/
def exec (i : Instr) (s : State) : Host.Outcome State Fault Refusal :=
  match i with
  | .add d a b => Sys2Proof.Machine.execAdd d a b s
  | .sub d a b => Sys2Proof.Machine.execSub d a b s
  | .mul d a b => Sys2Proof.Machine.execMul d a b s
  | .mulh d a b => Sys2Proof.Machine.execMulh d a b s
  | .mulhu d a b => Sys2Proof.Machine.execMulhu d a b s
  | .div d a b => Sys2Proof.Machine.execDiv d a b s
  | .divu d a b => Sys2Proof.Machine.execDivu d a b s
  | .rem d a b => Sys2Proof.Machine.execRem d a b s
  | .remu d a b => Sys2Proof.Machine.execRemu d a b s
  | .sh1add d a b => Sys2Proof.Machine.execSh1add d a b s
  | .sh2add d a b => Sys2Proof.Machine.execSh2add d a b s
  | .sh3add d a b => Sys2Proof.Machine.execSh3add d a b s
  | .and d a b => Sys2Proof.Machine.execAnd d a b s
  | .or d a b => Sys2Proof.Machine.execOr d a b s
  | .xor d a b => Sys2Proof.Machine.execXor d a b s
  | .andn d a b => Sys2Proof.Machine.execAndn d a b s
  | .shl d a b => Sys2Proof.Machine.execShl d a b s
  | .shr d a b => Sys2Proof.Machine.execShr d a b s
  | .sra d a b => Sys2Proof.Machine.execSra d a b s
  | .ror d a b => Sys2Proof.Machine.execRor d a b s
  | .slt d a b => Sys2Proof.Machine.execSlt d a b s
  | .sltu d a b => Sys2Proof.Machine.execSltu d a b s
  | .seq d a b => Sys2Proof.Machine.execSeq d a b s
  | .min d a b => Sys2Proof.Machine.execMin d a b s
  | .max d a b => Sys2Proof.Machine.execMax d a b s
  | .minu d a b => Sys2Proof.Machine.execMinu d a b s
  | .maxu d a b => Sys2Proof.Machine.execMaxu d a b s
  | .clz d a => Sys2Proof.Machine.execClz d a s
  | .ctz d a => Sys2Proof.Machine.execCtz d a s
  | .popc d a => Sys2Proof.Machine.execPopc d a s
  | .addi d a imm => Sys2Proof.Machine.execAddi d a imm s
  | .andi d a imm => Sys2Proof.Machine.execAndi d a imm s
  | .ori d a imm => Sys2Proof.Machine.execOri d a imm s
  | .xori d a imm => Sys2Proof.Machine.execXori d a imm s
  | .shli d a amount => Sys2Proof.Machine.execShli d a amount s
  | .shri d a amount => Sys2Proof.Machine.execShri d a amount s
  | .srai d a amount => Sys2Proof.Machine.execSrai d a amount s
  | .muli d a imm => Sys2Proof.Machine.execMuli d a imm s
  | .slti d a imm => Sys2Proof.Machine.execSlti d a imm s
  | .sltiu d a imm => Sys2Proof.Machine.execSltiu d a imm s
  | .bfxI64 d a len1 pos => Sys2Proof.Machine.execBfxI64 d a len1 pos s
  | .bfxN64 d a len1 pos => Sys2Proof.Machine.execBfxN64 d a len1 pos s
  | .bfi d a len1 pos => Sys2Proof.Machine.execBfi d a len1 pos s
  | .beq a b off => Sys2Proof.Machine.execBeq a b off s
  | .bne a b off => Sys2Proof.Machine.execBne a b off s
  | .blt a b off => Sys2Proof.Machine.execBlt a b off s
  | .bge a b off => Sys2Proof.Machine.execBge a b off s
  | .bltu a b off => Sys2Proof.Machine.execBltu a b off s
  | .bgeu a b off => Sys2Proof.Machine.execBgeu a b off s
  | .loop a b off => Sys2Proof.Machine.execLoop a b off s
  | .j off => Sys2Proof.Machine.execJ off s
  | .call off => Sys2Proof.Machine.execCall off s
  | .jr a imm => Sys2Proof.Machine.execJr a imm s
  | .callr d a imm => Sys2Proof.Machine.execCallr d a imm s
  | .ldsI8 d a imm => Sys2Proof.Machine.execLdsI8 d a imm s
  | .ldsN8 d a imm => Sys2Proof.Machine.execLdsN8 d a imm s
  | .ldsI16 d a imm => Sys2Proof.Machine.execLdsI16 d a imm s
  | .ldsN16 d a imm => Sys2Proof.Machine.execLdsN16 d a imm s
  | .ldsI32 d a imm => Sys2Proof.Machine.execLdsI32 d a imm s
  | .ldsN32 d a imm => Sys2Proof.Machine.execLdsN32 d a imm s
  | .ldsN64 d a imm => Sys2Proof.Machine.execLdsN64 d a imm s
  | .stsN8 b a imm => Sys2Proof.Machine.execStsN8 b a imm s
  | .stsN16 b a imm => Sys2Proof.Machine.execStsN16 b a imm s
  | .stsN32 b a imm => Sys2Proof.Machine.execStsN32 b a imm s
  | .stsN64 b a imm => Sys2Proof.Machine.execStsN64 b a imm s
  | .qset d a queue fld => Sys2Proof.Machine.execQset d a queue fld s
  | .qgo a queue => Sys2Proof.Machine.execQgo a queue s
  | .lrun off => Sys2Proof.Machine.execLrun off s
  | .wait ld st cp tl => Sys2Proof.Machine.execWait ld st cp tl s
  | .waity ld st cp tl => Sys2Proof.Machine.execWaity ld st cp tl s
  | .mfs d num => Sys2Proof.Machine.execMfs d num s
  | .mts a num => Sys2Proof.Machine.execMts a num s
  | .nop => Sys2Proof.Machine.execNop s
  | .cyc d => Sys2Proof.Machine.execCyc d s
  | .brk => Sys2Proof.Machine.execBrk s
  | .trap a => Sys2Proof.Machine.execTrap a s
  | .tret => Sys2Proof.Machine.execTret s
  | .halt => Sys2Proof.Machine.execHalt s
  | .ext imm next => Sys2Proof.Machine.execExt imm next s
  | .fence scope => Sys2Proof.Machine.execFence scope s
  | .barArr a id cnt => Sys2Proof.Machine.execBarArr a id cnt s
  | .barWait a id cnt => Sys2Proof.Machine.execBarWait a id cnt s
  | .barSync a id cnt => Sys2Proof.Machine.execBarSync a id cnt s
  | .phnew d a => Sys2Proof.Machine.execPhnew d a s
  | .phfree a => Sys2Proof.Machine.execPhfree a s
  | .phreg a b => Sys2Proof.Machine.execPhreg a b s
  | .phdrop a => Sys2Proof.Machine.execPhdrop a s
  | .phsig a b => Sys2Proof.Machine.execPhsig a b s
  | .phwait d a => Sys2Proof.Machine.execPhwait d a s
  | .phsw d a b => Sys2Proof.Machine.execPhsw d a b s
  | .atomShort d a b code ty => Sys2Proof.Machine.execAtomShort d a b code ty s
  | .chunk d a b => Sys2Proof.Machine.execChunk d a b s
  | .cpstep d imm => Sys2Proof.Machine.execCpstep d imm s
  | .yield off => Sys2Proof.Machine.execYield off s
  | .rflush a => Sys2Proof.Machine.execRflush a s
  | .rqryNseg d a => Sys2Proof.Machine.execRqryNseg d a s
  | .rqryStart d a b => Sys2Proof.Machine.execRqryStart d a b s
  | .rqryLen d a b => Sys2Proof.Machine.execRqryLen d a b s
  | .rqryTotal d a => Sys2Proof.Machine.execRqryTotal d a s
  | .atomLong w => Sys2Proof.Machine.execAtomLong w s
  | .redScalar w => Sys2Proof.Machine.execRedScalar w s
  | .amaxrdScalar w => Sys2Proof.Machine.execAmaxrdScalar w s
  | .ratom w => Sys2Proof.Machine.execRatom w s
  | .rrel w => Sys2Proof.Machine.execRrel w s
  | .fenceTc w => Sys2Proof.Machine.execFenceTc w s
  | .launch w => Sys2Proof.Machine.execLaunch w s
  | .cancel w => Sys2Proof.Machine.execCancel w s
  | .ccrd w => Sys2Proof.Machine.execCcrd w s
  | .ccwt w => Sys2Proof.Machine.execCcwt w s
  | .cpy w => Sys2Proof.Machine.execCpy w s
  | .qfence w => Sys2Proof.Machine.execQfence w s
  | .coll w => Sys2Proof.Machine.execColl w s
  | .segof w => Sys2Proof.Machine.execSegof w s
  | .rbind w => Sys2Proof.Machine.execRbind w s
  | .hgix w => Sys2Proof.Machine.execHgix w s
  | .kick w => Sys2Proof.Machine.execKick w s
  | .sleep w => Sys2Proof.Machine.execSleep w s
  | .wake w => Sys2Proof.Machine.execWake w s
  | .tlbinv w => Sys2Proof.Machine.execTlbinv w s
  | .jroot w => Sys2Proof.Machine.execJroot w s
  | .kbind w => Sys2Proof.Machine.execKbind w s
  | .mma w => Sys2Proof.Machine.execMma w s
  | .mmd w => Sys2Proof.Machine.execMmd w s
  | .mzero w => Sys2Proof.Machine.execMzero w s
  | .wloadImg w => Sys2Proof.Machine.execWloadImg w s
  | .wloadDense w => Sys2Proof.Machine.execWloadDense w s
  | .wupd w => Sys2Proof.Machine.execWupd w s
  | .accst w => Sys2Proof.Machine.execAccst w s
  | .accld w => Sys2Proof.Machine.execAccld w s
  | .tred w => Sys2Proof.Machine.execTred w s
  | .tcvt w => Sys2Proof.Machine.execTcvt w s
  | .tnorm w => Sys2Proof.Machine.execTnorm w s
  | .tsmax w => Sys2Proof.Machine.execTsmax w s
  | .tsync w => Sys2Proof.Machine.execTsync w s
  | .fadd w => Sys2Proof.Machine.execFadd w s
  | .fsub w => Sys2Proof.Machine.execFsub w s
  | .fmul w => Sys2Proof.Machine.execFmul w s
  | .ffma w => Sys2Proof.Machine.execFfma w s
  | .ffms w => Sys2Proof.Machine.execFfms w s
  | .fnma w => Sys2Proof.Machine.execFnma w s
  | .fnms w => Sys2Proof.Machine.execFnms w s
  | .fmin w => Sys2Proof.Machine.execFmin w s
  | .fmax w => Sys2Proof.Machine.execFmax w s
  | .fminn w => Sys2Proof.Machine.execFminn w s
  | .fmaxn w => Sys2Proof.Machine.execFmaxn w s
  | .fabs w => Sys2Proof.Machine.execFabs w s
  | .fneg w => Sys2Proof.Machine.execFneg w s
  | .frint w => Sys2Proof.Machine.execFrint w s
  | .fcmp w => Sys2Proof.Machine.execFcmp w s
  | .frcp w => Sys2Proof.Machine.execFrcp w s
  | .frsq w => Sys2Proof.Machine.execFrsq w s
  | .fexp2 w => Sys2Proof.Machine.execFexp2 w s
  | .flog2 w => Sys2Proof.Machine.execFlog2 w s
  | .iadd w => Sys2Proof.Machine.execIadd w s
  | .isub w => Sys2Proof.Machine.execIsub w s
  | .imul w => Sys2Proof.Machine.execImul w s
  | .imulh w => Sys2Proof.Machine.execImulh w s
  | .imad w => Sys2Proof.Machine.execImad w s
  | .iadds w => Sys2Proof.Machine.execIadds w s
  | .isubs w => Sys2Proof.Machine.execIsubs w s
  | .imin w => Sys2Proof.Machine.execImin w s
  | .imax w => Sys2Proof.Machine.execImax w s
  | .iand w => Sys2Proof.Machine.execIand w s
  | .ior w => Sys2Proof.Machine.execIor w s
  | .ixor w => Sys2Proof.Machine.execIxor w s
  | .iandn w => Sys2Proof.Machine.execIandn w s
  | .ishl w => Sys2Proof.Machine.execIshl w s
  | .ishr w => Sys2Proof.Machine.execIshr w s
  | .iror w => Sys2Proof.Machine.execIror w s
  | .ipopc w => Sys2Proof.Machine.execIpopc w s
  | .iclz w => Sys2Proof.Machine.execIclz w s
  | .icmp w => Sys2Proof.Machine.execIcmp w s
  | .cvt w => Sys2Proof.Machine.execCvt w s
  | .pkn w => Sys2Proof.Machine.execPkn w s
  | .pkb w => Sys2Proof.Machine.execPkb w s
  | .pkh w => Sys2Proof.Machine.execPkh w s
  | .upn w => Sys2Proof.Machine.execUpn w s
  | .upb w => Sys2Proof.Machine.execUpb w s
  | .uph w => Sys2Proof.Machine.execUph w s
  | .mov w => Sys2Proof.Machine.execMov w s
  | .sel w => Sys2Proof.Machine.execSel w s
  | .shflIdx w => Sys2Proof.Machine.execShflIdx w s
  | .shflUp w => Sys2Proof.Machine.execShflUp w s
  | .shflDn w => Sys2Proof.Machine.execShflDn w s
  | .shflXor w => Sys2Proof.Machine.execShflXor w s
  | .bcst w => Sys2Proof.Machine.execBcst w s
  | .mset w => Sys2Proof.Machine.execMset w s
  | .mand w => Sys2Proof.Machine.execMand w s
  | .mor w => Sys2Proof.Machine.execMor w s
  | .mxor w => Sys2Proof.Machine.execMxor w s
  | .mandn w => Sys2Proof.Machine.execMandn w s
  | .vany w => Sys2Proof.Machine.execVany w s
  | .vall w => Sys2Proof.Machine.execVall w s
  | .vbal w => Sys2Proof.Machine.execVbal w s
  | .gred op w => Sys2Proof.Machine.execGred op w s
  | .scan op w => Sys2Proof.Machine.execScan op w s
  | .scanx op w => Sys2Proof.Machine.execScanx op w s
  | .brl w => Sys2Proof.Machine.execBrl w s
  | .brln w => Sys2Proof.Machine.execBrln w s
  | .joinl w => Sys2Proof.Machine.execJoinl w s
  | .lret w => Sys2Proof.Machine.execLret w s
  | .exit w => Sys2Proof.Machine.execExit w s
  | .rep n stride adv next => Sys2Proof.Machine.execRep n stride adv next s
  | .ldl w => Sys2Proof.Machine.execLdl w s
  | .ldt w => Sys2Proof.Machine.execLdt w s
  | .stl w => Sys2Proof.Machine.execStl w s
  | .stt w => Sys2Proof.Machine.execStt w s
  | .sttWait w => Sys2Proof.Machine.execSttWait w s
  | .lda w => Sys2Proof.Machine.execLda w s
  | .atomLane op w => Sys2Proof.Machine.execAtomLane op w s
  | .redLane op w => Sys2Proof.Machine.execRedLane op w s
  | .amaxrdLane w => Sys2Proof.Machine.execAmaxrdLane w s
  | .segl w => Sys2Proof.Machine.execSegl w s
  | .segb w => Sys2Proof.Machine.execSegb w s
  | .greds op w => Sys2Proof.Machine.execGreds op w s
  | .hgld w => Sys2Proof.Machine.execHgld w s
  | .hgsc w => Sys2Proof.Machine.execHgsc w s
  | .powerOnReset pkg => Sys2Proof.Machine.execPowerOnReset pkg s
  | .packageReset pkg => Sys2Proof.Machine.execPackageReset pkg s
  | .loadDataReturn ag k => Sys2Proof.Machine.execLoadDataReturn ag k s
  | .storeAcknowledge ag k => Sys2Proof.Machine.execStoreAcknowledge ag k s
  | .trapEntry ag => Sys2Proof.Machine.execTrapEntry ag s
  | .machineEvent ag => Sys2Proof.Machine.execMachineEvent ag s
  | .preemptTrap ag => Sys2Proof.Machine.execPreemptTrap ag s
  | .segmentBegin ag => Sys2Proof.Machine.execSegmentBegin ag s
  | .aaePush ag queue => Sys2Proof.Machine.execAaePush ag queue s
  | .l1Eviction pkg core line => Sys2Proof.Machine.execL1Eviction pkg core line s
  | .l1LineExpire pkg core line => Sys2Proof.Machine.execL1LineExpire pkg core line s
  | .remoteItemStatus item => Sys2Proof.Machine.execRemoteItemStatus item s
  | .remoteReleasePerform item => Sys2Proof.Machine.execRemoteReleasePerform item s
  | .itemStart item => Sys2Proof.Machine.execItemStart item s
  | .itemSourceReusable item => Sys2Proof.Machine.execItemSourceReusable item s
  | .itemVisible item => Sys2Proof.Machine.execItemVisible item s
  | .collectiveArrival item => Sys2Proof.Machine.execCollectiveArrival item s
  | .switchArrival item => Sys2Proof.Machine.execSwitchArrival item s
  | .switchSlotDeadline panel slot => Sys2Proof.Machine.execSwitchSlotDeadline panel slot s
  | .leaseReclaim pkg handle => Sys2Proof.Machine.execLeaseReclaim pkg handle s
  | .tileOpArrival ag => Sys2Proof.Machine.execTileOpArrival ag s
  | .tileStep pkg clu stream => Sys2Proof.Machine.execTileStep pkg clu stream s
  | .tileOpComplete pkg clu stream => Sys2Proof.Machine.execTileOpComplete pkg clu stream s
  | .ringEntrySkip pkg queue => Sys2Proof.Machine.execRingEntrySkip pkg queue s
  | .ringEntryLaunch pkg queue => Sys2Proof.Machine.execRingEntryLaunch pkg queue s
  | .ringEntryCopy pkg queue => Sys2Proof.Machine.execRingEntryCopy pkg queue s
  | .ringEntryGate pkg queue => Sys2Proof.Machine.execRingEntryGate pkg queue s
  | .itemEligible pkg queue => Sys2Proof.Machine.execItemEligible pkg queue s
  | .distributorSelect pkg => Sys2Proof.Machine.execDistributorSelect pkg s
  | .blockPlace pkg queue => Sys2Proof.Machine.execBlockPlace pkg queue s
  | .gangPlace pkg queue => Sys2Proof.Machine.execGangPlace pkg queue s
  | .blockEnd block => Sys2Proof.Machine.execBlockEnd block s
  | .groupEligible ag => Sys2Proof.Machine.execGroupEligible ag s
  | .activeWaitSwap active pending => Sys2Proof.Machine.execActiveWaitSwap active pending s
  | .pendingReadySwap active pending => Sys2Proof.Machine.execPendingReadySwap active pending s
  | .preemptDecision pkg queue => Sys2Proof.Machine.execPreemptDecision pkg queue s
  | .headReserve pkg queue => Sys2Proof.Machine.execHeadReserve pkg queue s
  | .drainFallback block => Sys2Proof.Machine.execDrainFallback block s
  | .save block => Sys2Proof.Machine.execSave block s
  | .flushAndRestart block => Sys2Proof.Machine.execFlushAndRestart block s
  | .imageResume pkg core slot => Sys2Proof.Machine.execImageResume pkg core slot s
  | .heartbeatSend pkg => Sys2Proof.Machine.execHeartbeatSend pkg s
  | .lossDeclare die pkg => Sys2Proof.Machine.execLossDeclare die pkg s
  | .lossNoticeApply pkg => Sys2Proof.Machine.execLossNoticeApply pkg s
  | .packageSelfFence pkg => Sys2Proof.Machine.execPackageSelfFence pkg s
  | .directoryRebuild pkg => Sys2Proof.Machine.execDirectoryRebuild pkg s
  | .laneFailure pkg link lane => Sys2Proof.Machine.execLaneFailure pkg link lane s
  | .linkRetrainComplete pkg link => Sys2Proof.Machine.execLinkRetrainComplete pkg link s
  | .clockStepDown pkg => Sys2Proof.Machine.execClockStepDown pkg s
  | .clockStepUp pkg => Sys2Proof.Machine.execClockStepUp pkg s
  | .thermalFence pkg => Sys2Proof.Machine.execThermalFence pkg s
  | .panelReset panel => Sys2Proof.Machine.execPanelReset panel s
  | .goRelease pkg => Sys2Proof.Machine.execGoRelease pkg s
  | .loadkey pkg => Sys2Proof.Machine.execLoadkey pkg s
  | .attest pkg => Sys2Proof.Machine.execAttest pkg s
  | .ibkelReadStatus pkg => Sys2Proof.Machine.execIbkelReadStatus pkg s
  | .ibkelWriteFirmware pkg version image => Sys2Proof.Machine.execIbkelWriteFirmware pkg version image s
  | .ibkelResetRequest pkg => Sys2Proof.Machine.execIbkelResetRequest pkg s
  | .ibkelRetireRequest pkg unit => Sys2Proof.Machine.execIbkelRetireRequest pkg unit s
  | .ibkelProvisionKek pkg key => Sys2Proof.Machine.execIbkelProvisionKek pkg key s
  | .ibkelSetWatchpoint pkg core lo hi reads writes => Sys2Proof.Machine.execIbkelSetWatchpoint pkg core lo hi reads writes s
  | .remoteItemPerform item => Sys2Proof.Machine.execRemoteItemPerform item s
  | .destinationLineFull item line => Sys2Proof.Machine.execDestinationLineFull item line s
  | .badCommand pkg => Sys2Proof.Machine.execBadCommand pkg s
  | .ringEntryFailure pkg queue => Sys2Proof.Machine.execRingEntryFailure pkg queue s

end Sys2Proof.Machine
end

