-- ==== Sys2Proof/Machine/Turns.lean ====
section
/-! DEFINITION. The machine's turns: which group an issue slot lets issue, how long groups wait, what the passing of cycles
does at a package and at the switch dies (R25, R121, R275, R334, R335, R371). -/

namespace Sys2Proof.Machine

/-- Applies a function to the next state of an outcome. -/
def onNext (f : State → State) (o : Out) : Out :=
  match o with
  | .next s => .next (f s)
  | .fault r => .fault r
  | .refused r => .refused r

/-- What the scalar stream of an agent does when it is picked. -/
def scalarTurn (ag : Agent) (s : State) : Out :=
  let s := { s with cur := ag }
  let s := if mayIssue s ag then foldFetch ag (scalarWindow s ag) s else s
  match issueScalar s ag with
  | .hold => .next s
  | .trap t => .next (takeTrap ag t false s)
  | .run i => exec i s

/-- What the lane stream of a group does when it is picked. -/
def laneTurn (ag : Agent) (s : State) : Out :=
  let s := { s with cur := ag }
  let s := if mayIssue s ag then foldFetch ag (laneWindow s ag) s else s
  match issueLane s ag with
  | .hold => .next s
  | .trap t => .next (takeTrap ag t true s)
  | .run i => onNext (noteLane ag s i) (exec i s)

/-- Whether an agent's turn did anything: an instruction that stays at issue leaves its streams as they are (R344). -/
def moved (ag : Agent) (s t : State) : Bool :=
  (t.block (s.group ag).block).rt != (s.block (s.group ag).block).rt || t.stream ag != s.stream ag || t.group ag != s.group ag

/-- Whether a stream is ready: its turn would do something. -/
def ready (o : Out) (ag : Agent) (s : State) : Bool := match o with | .next t => moved ag s t | _ => true

/-- Whether a slot picks a group: no other ready group of its active set issued in that stream less recently (R334).
DESIGN CHOICE: log entry 15. -/
def picked (turn : Agent → State → Out) (last : Group → Nat) (ag : Agent) (s : State) : Bool :=
  match ag with
  | .group p c w => (slotGroups s (p, c) (w % 4) .active).all (fun a =>
      decide (last (s.group ag) ≤ last (s.group a)) || a == ag || !ready (turn a s) a s)
  | _ => true

/-- Notes when a group has issued in a stream, and that it does not wait (R334, R335). -/
def noteIssue (mark : Nat → Group → Group) (ag : Agent) (before s : State) : State :=
  if isGroup ag && (Table.find? s.groups ag).isSome && moved ag before s then mapGroup ag (fun g => mark before.choice { g with age := 0 }) s else s

/-- The scalar stream of an agent issues, where its slot picks it. -/
def turnScalar (ag : Agent) (s : State) : Out :=
  if picked scalarTurn (·.issued) ag s then onNext (noteIssue (fun n g => { g with issued := n }) ag s) (scalarTurn ag s) else .next s

/-- The lane stream of a group issues, where its slot picks it. -/
def turnLane (ag : Agent) (s : State) : Out :=
  if picked laneTurn (·.issuedLane) ag s then onNext (noteIssue (fun n g => { g with issuedLane := n }) ag s) (laneTurn ag s) else .next s

/-- What holds a stalled scalar instruction is a cause of R335: a register or a line waited for, a counter wait, a barrier or
phaser, a full segment queue. -/
def scalarWaits (s : State) (ag : Agent) : Bool :=
  let x := s.stream ag
  match fetchScalar s ag with
  | .error _ => false
  | .ok c => match decode c with
    | .error _ => false
    | .ok i =>
      awaitsRegs x i || isWait i || isTsync i ||
        (match inner i with
          | .ccwt _ | .barWait _ _ _ | .phwait _ _ | .lrun _ => true
          | .barSync _ _ _ | .phsw _ _ _ => x.half.isSome
          | .ldsI8 _ _ _ | .ldsN8 _ _ _ | .ldsI16 _ _ _ | .ldsN16 _ _ _ | .ldsI32 _ _ _ | .ldsN32 _ _ _ | .ldsN64 _ _ _
          | .atomShort _ _ _ _ _ | .atomLong _ | .redScalar _ | .amaxrdScalar _ => decide (x.ld < 63) && decide (x.st < 63) && !acquiring s ag
          | _ => false)

/-- The same for the lane stream, which holds nothing up while it has no segment: a register waited for, an empty operand
queue, a line waited for. -/
def laneWaits (s : State) (ag : Agent) : Bool :=
  let g := s.group ag
  if sysMode s ag then true
  else if !g.inSeg then g.segq == []
  else match lowestSplit g with
    | none => false
    | some (id, sp) => match fetchLane s ag sp.lpc with
      | .error _ => false
      | .ok c => match decode c with
        | .error _ => false
        | .ok i => match presentForm g id i with
          | none => errorInFlight { s with cur := ag }
          | some f =>
            let empty (o : Option Bool) (r : BitVec 9) : Bool :=
              o.isSome && decide (0x110 ≤ r.toNat) && decide (r.toNat < 0x120) && (Vec.get g.queues (r.toNat % 8)).entries == []
            (wholeRegs f.regs).any g.vawait.contains || empty f.a f.word.a || empty f.b f.word.b || empty f.c f.word.c ||
              (match innerLane i with
                | .sttWait _ | .ldl _ | .ldt _ | .atomLane _ _ | .redLane _ _ | .amaxrdLane _ => decide ((s.stream ag).ld < 63) && decide ((s.stream ag).st < 63)
                | _ => false)

/-- Whether a group could issue in either stream, its slot apart. -/
def groupReady (ag : Agent) (s : State) : Bool :=
  let s := mapGroup ag (fun g => { g with slot := .active }) s
  ready (scalarTurn ag s) ag s || ready (laneTurn ag s) ag s

/-- Ages of a group of a package that stands in a slot set: how long an active one has waited, how long a pending one has been
ready (R335). DESIGN CHOICE: log entry 15. -/
def ageGroup (s : State) (pkg n : Nat) (x : Agent × Group) : Agent × Group :=
  if agentPkg x.1 ≠ pkg then x
  else
    let on := match x.2.slot with
      | .active => scalarWaits s x.1 && laneWaits s x.1 && !groupReady x.1 s
      | .pending => groupReady x.1 s
      | .away => false
    (x.1, { x.2 with age := if on then x.2.age + n else 0 })

/-- The cycles that pass in a package that runs. -/
def passCycles (pkg n : Nat) (s : State) : State :=
  if !(pkgUp s pkg && (s.pkg pkg).booted) then s
  else sampleMonitor pkg n (countCycles pkg n { s with groups := s.groups.map (ageGroup s pkg n) })

/-- A package whose heartbeats reach a switch die in time: it runs, and a link joins it to the die (R369, R371). -/
def heartbeats (s : State) (die pkg : Nat) : Bool :=
  pkgUp s pkg && (s.pkg pkg).booted && linksOf (s.pkg pkg) die != [] && !(s.panel (panelOf pkg)).lost.contains pkg

/-- Completes the slots of a panel whose deadline passes within `n` cycles; a slot whose deadline is just reached stands
(R275). -/
def expireSlots (panel n : Nat) : Nat → State → State
  | 0, s => s
  | i + 1, s =>
    let s := match (s.panel panel).slots[i]? with
      | none => s
      | some sl => if sl.left < n then completeSlot panel i stPartial s else s
    expireSlots panel n i s

/-- The cycles that pass at the switch dies of a panel: the silence of every package, the deadlines of slots (R275, R371). A
package that runs is heard in time. DESIGN CHOICE: log entry 103. -/
def passDieCycles (panel n : Nat) (s : State) : State :=
  match Table.find? s.panels panel with
  | none => s
  | some x =>
    if x.silent.any (fun e => heartbeats s e.1.1 e.1.2 && decide (65536 ≤ e.2 + n)) then s
    else
      let s := expireSlots panel n x.slots.length s
      mapPanel panel (fun x => { x with
        silent := x.silent.map (fun e => (e.1, e.2 + n))
        slots := x.slots.map (fun sl => { sl with left := sl.left - n }) }) s

/-- What a turn does. -/
def takeTurn (t : Turn) (s : State) : Out :=
  match t with
  | .issue ag => turnScalar ag s
  | .lane ag => turnLane ag s
  | .event i => if eventMay s i then exec i s else .next s
  | .cycles pkg n => .next (passCycles pkg n s)
  | .dieCycles panel n => .next (passDieCycles panel n s)
  | .drift ag n => .next (drift ag n s)
  | .upset w => .next (upset w s)
  | .attach pkg port bytes => .next (attachDevice pkg port bytes s)
  | .tamper pkg => .next (tamper pkg s)

/-- A turn, at whose end the devices read their ports (R387, R390). -/
def runTurn (t : Turn) (s : State) : Out := onNext (observePorts s) (takeTurn t s)

end Sys2Proof.Machine
end

