-- ==== Sys2Proof/Machine/Step.lean ====
section
/-! DEFINITION. One step of the machine: the next turn, taken. -/

namespace Sys2Proof.Machine

/-- One step. -/
def step (s : State) : Host.Outcome State Fault Refusal := runTurn (nextTurn s) (beginTurn s)

/-- The instruction of `nbits` bits `w`, with zeros above, where the next step fetches it (log entry 10): up to 64 bits are
scalar words, more are lane words. DESIGN CHOICE: log entry 10. -/
def State.withFetchWord (s : State) (nbits w : Nat) : State :=
  if nbits ≤ 64 then loadScalar (w % 2 ^ nbits) s else loadLane (w % 2 ^ nbits) s

end Sys2Proof.Machine
end

