-- ==== Sys2Proof/Safety.lean ====
section
/-! DEFINITION. What the claims call safe: a step that answers a next state, a memory in canonical form, a legal mode; and
what they call unchanged: the bytes of memory, the streams, the groups. -/

namespace Sys2Proof.Machine

/-- A step goes on: neither a fault nor a refusal. -/
def Goes (s : State) : Prop := ∃ t, step s = .next t

/-- The pools of every block of a table are in canonical form. -/
def PoolsWf (t : Table Nat Block) : Prop := ∀ e, e ∈ t → e.2.scratch.wf = true ∧ e.2.acc.wf = true

/-- Every byte memory of a state is in canonical form: the memory of the packages, the scratchpads and accumulators of
blocks, the weight buffers of cores. -/
structure Canonical (s : State) : Prop where
  mem : s.mem.wf = true
  blocks : PoolsWf s.blocks
  past : PoolsWf s.past
  wbufs : ∀ e, e ∈ s.cores → e.2.wbuf.wf = true

/-- A MODE value with its reserved bits zero (R25). -/
def legalMode (m : BitVec 8) : Bool := m.toNat / 4 == 0

/-- Every byte of physical memory reads as before under every key material, and every byte of every block's scratchpad and
accumulators holds what it held. -/
def SameBytes (s t : State) : Prop :=
  (∀ mat k, readByte t mat k = readByte s mat k) ∧
  ∀ b o, (t.block b).scratch.read o = (s.block b).scratch.read o ∧ (t.block b).acc.read o = (s.block b).acc.read o

/-- Nothing of a block changes but the count of its retired instructions (R350). -/
def SameBlocks (s t : State) : Prop := ∀ b, t.block b = { s.block b with rt := (t.block b).rt }

/-- Nothing changes but the running agent's scalar stream and the count of retired instructions: no byte of memory, no
other stream, no lane stream, no other register of any unit. -/
structure StreamStep (s t : State) : Prop where
  rest : t = { s with streams := t.streams, blocks := t.blocks, past := t.past }
  others : ∀ a, a ≠ s.cur → t.stream a = s.stream a
  blocks : SameBlocks s t
  bytes : SameBytes s t

/-- Nothing changes but the running agent's scalar and lane streams and the count of retired instructions. -/
structure GroupStep (s t : State) : Prop where
  rest : t = { s with streams := t.streams, groups := t.groups, blocks := t.blocks, past := t.past }
  others : ∀ a, a ≠ s.cur → t.stream a = s.stream a ∧ t.group a = s.group a
  blocks : SameBlocks s t
  bytes : SameBytes s t

/-- The scalar register `d` takes `v`, s0 none; the program counter moves on by `n`; every other register of the stream
keeps its value (R10, R11). -/
structure RegWrite (d : SReg) (v : Word64) (n : Nat) (s t : State) : Prop where
  frame : StreamStep s t
  stream : self t = { self s with s := (self t).s, spc := (self s).spc + BitVec.ofNat 64 n }
  value : ∀ r, reg t r = if r = d ∧ d ≠ 0 then v else reg s r

/-- The program counter becomes `pc`, the link register `d` takes `v`; every other register keeps its value. -/
structure Transfers (pc : Word64) (d : SReg) (v : Word64) (s t : State) : Prop where
  frame : StreamStep s t
  stream : self t = { self s with s := (self t).s, spc := pc }
  value : ∀ r, reg t r = if r = d ∧ d ≠ 0 then v else reg s r

end Sys2Proof.Machine
end

