-- ==== Sys2Proof/Certificates/Slice0/Obligations.lean ====
section
/-! DEFINITION. The statements for the provers. -/

open Sys2Proof Sys2Proof.Machine

namespace Sys2Proof.Claims

/-- The scalar word `w`, whatever follows it, decodes to `i`. -/
def Decodes (w : BitVec 32) (i : Instr) : Prop := ∀ w1 : BitVec 32, decode (.scalar w w1) = .ok i

/-- The scalar word `w`, whatever follows it, is no instruction: the device raises ILLEGAL. -/
def Illegal (w : BitVec 32) : Prop := ∀ w1 : BitVec 32, ∃ r, decode (.scalar w w1) = .error r

/-- `i` completes: it writes `v` to the scalar register `d` and moves `n` bytes on. -/
def Sets (i : Instr) (s : State) (d : SReg) (v : Word64) (n : Nat) : Prop := ∃ t, exec i s = .next t ∧ RegWrite d v n s t

/-- `i` completes: the program counter moves `n` bytes on and every register keeps its value. -/
def Passes (i : Instr) (s : State) (n : Nat) : Prop := ∃ t, exec i s = .next t ∧ RegWrite 0 0 n s t

/-- `i` raises a trap of the scalar stream: the state that taking it leaves. -/
def Traps (i : Instr) (s : State) (cls : TrapClass) (detail : Nat) (addr : Word64) : Prop :=
  exec i s = .next (takeTrap s.cur { cls := cls, detail := detail, addr := addr } false s)

/-- A register form of R92: its word and its result. -/
def RegisterForm (func : BitVec 8) (i : Instr) (d a b : SReg) (s : State) (v : Word64) : Prop :=
  Decodes ((0x01 : BitVec 6) ++ d ++ a ++ b ++ func) i ∧ Sets i s d v 4

/-- The function values that R92 assigns. -/
def aluFuncs : List Nat :=
  [0x00, 0x01, 0x02, 0x03, 0x04, 0x05, 0x06, 0x07, 0x08, 0x09, 0x0A, 0x0B, 0x10, 0x11, 0x12, 0x13, 0x18, 0x19, 0x1A, 0x1B,
   0x20, 0x21, 0x22, 0x28, 0x29, 0x2A, 0x2B, 0x30, 0x31, 0x32]

/-- One for a true condition, zero for a false one. -/
def flag (b : Bool) : Word64 := if b then 1 else 0

/-- The number of bits of `x`, from the bit that `at_` numbers 0 on, before the first one bit; 64 where there is none. -/
def IsZeroRun (at_ : Nat → Bool) (n : Nat) : Prop := n ≤ 64 ∧ (∀ i, i < n → at_ i = false) ∧ (n < 64 → at_ n = true)

/-- An instruction with a sign-extended immediate: its word, its effect, and its effect under an `EXT` (R60, R93). -/
def SignedForm (op : BitVec 6) (i : Instr) (d a : SReg) (imm : BitVec 14) (s : State) (f : Word64 → Word64) : Prop :=
  Decodes (op ++ d ++ a ++ imm) i ∧ Sets i s d (f (imm.signExtend 64)) 4 ∧
  ∀ hi : BitVec 26, Sets (.ext hi (op ++ d ++ a ++ imm)) s d (f ((hi ++ imm).signExtend 64)) 8

/-- The same for a zero-extended immediate. -/
def UnsignedForm (op : BitVec 6) (i : Instr) (d a : SReg) (imm : BitVec 14) (s : State) (f : Word64 → Word64) : Prop :=
  Decodes (op ++ d ++ a ++ imm) i ∧ Sets i s d (f (imm.zeroExtend 64)) 4 ∧
  ∀ hi : BitVec 26, Sets (.ext hi (op ++ d ++ a ++ imm)) s d (f ((hi ++ imm).zeroExtend 64)) 8

/-- A shift by an immediate amount: nonzero reserved bits are ILLEGAL, and so is an `EXT` before it. -/
def ShiftForm (op : BitVec 6) (i : Instr) (d a : SReg) (amount : BitVec 6) (s : State) (v : Word64) : Prop :=
  Decodes (op ++ d ++ a ++ (0 : BitVec 8) ++ amount) i ∧ Sets i s d v 4 ∧
  (∀ r : BitVec 8, r ≠ 0 → Illegal (op ++ d ++ a ++ r ++ amount)) ∧
  ∀ hi : BitVec 26, Traps (.ext hi (op ++ d ++ a ++ (0 : BitVec 8) ++ amount)) s .illegal 0 0

/-- The word of a bit-field instruction (R94). -/
def fieldWord (op : BitVec 6) (d a : SReg) (sext : BitVec 1) (len1 pos : BitVec 6) : BitVec 32 :=
  op ++ d ++ a ++ (0 : BitVec 1) ++ sext ++ len1 ++ pos

/-- A target at which a transfer of the running agent raises nothing: a multiple of 4 in control space or in its own package's
tensor ranges; any other fault of it is raised at the target (R11, R26, R98). -/
def Reaches (s : State) (t : Word64) : Prop :=
  t.toNat % 4 = 0 ∧ (t.extractLsb' 62 2 = 0 ∨ (t.extractLsb' 62 2 = 1 ∧ (t.extractLsb' 53 8).toNat = agentPkg s.cur))

/-- The trap of a transfer to `t` that does not reach it: class, detail and address (R11, R98). -/
def TargetTrap (s : State) (t : Word64) (cls : TrapClass) (detail : Nat) (addr : Word64) : Prop :=
  (t.toNat % 4 ≠ 0 ∧ cls = .illegal ∧ detail = 0 ∧ addr = 0) ∨
  (t.toNat % 4 = 0 ∧ t.extractLsb' 62 2 = 1 ∧ (t.extractLsb' 53 8).toNat ≠ agentPkg s.cur ∧ cls = .remote ∧ detail = 0 ∧ addr = t) ∨
  (t.toNat % 4 = 0 ∧ (t.extractLsb' 62 2 = 2 ∨ t.extractLsb' 62 2 = 3) ∧ cls = .translation ∧ detail = 1 ∧ addr = t)

/-- `i` completes as a transfer to `t` that writes `v` to the register `d`. -/
def Jumps (i : Instr) (s : State) (t : Word64) (d : SReg) (v : Word64) : Prop := ∃ u, exec i s = .next u ∧ Transfers t d v s u

/-- `i` transfers to `t` with the link `v` in `d`, or raises the trap of the target, the link unwritten. -/
def TransfersOrTraps (i : Instr) (s : State) (t : Word64) (d : SReg) (v : Word64) : Prop :=
  (Reaches s t → Jumps i s t d v) ∧ ∀ cls detail addr, TargetTrap s t cls detail addr → Traps i s cls detail addr

/-- The target of `off` words from `pc` (R95, R97). -/
def wordsFrom {w : Nat} (pc : Word64) (off : BitVec w) : Word64 := pc + 4 * off.signExtend 64

/-- A conditional branch whose condition is `c`, alone and under an `EXT`: the offset counts from the branch word (R95). -/
def BranchForm (op : BitVec 6) (i : Instr) (a b : SReg) (off : BitVec 14) (s : State) (c : Bool) : Prop :=
  let w := op ++ a ++ b ++ off
  let pc := (self s).spc
  Decodes w i ∧
  (c = true → TransfersOrTraps i s (wordsFrom pc off) 0 0) ∧
  (c = false → Passes i s 4) ∧
  ∀ hi : BitVec 26,
    (c = true → TransfersOrTraps (.ext hi w) s (wordsFrom (pc + 4) (hi ++ off)) 0 0) ∧
    (c = false → Passes (.ext hi w) s 8)

/-- The state of memory once the shadows of the line of a location are folded, which an access does first (R158). -/
def folded (l : Loc) (s : State) : State := foldAt l s

/-- The value of `n` little-endian bytes, sign- or zero-extended (R99). -/
def extended (signed : Bool) (n : Nat) (bs : List Byte) : Word64 :=
  if signed then (BitVec.ofNat (8 * n) (leNat bs)).signExtend 64 else BitVec.ofNat 64 (leNat bs)

/-- Nothing changes but the running stream, the retired count, and which lines the cores' L1 hold clean or own. -/
structure AccessStep (s t : State) : Prop where
  rest : t = { s with streams := t.streams, groups := t.groups, blocks := t.blocks, past := t.past, cores := t.cores }
  others : ∀ a, a ≠ s.cur → t.stream a = s.stream a ∧ t.group a = s.group a
  group : selfGroup t = { selfGroup s with vawait := (selfGroup t).vawait }
  blocks : SameBlocks s t
  cores : ∀ k, t.core k = { s.core k with clean := (t.core k).clean }
  bytes : SameBytes s t

/-- A load of the running stream has issued: it counts in LD, delivers `v` to `d` when its data return, and the instruction
of `len` bytes is behind it (R18, R88, R101). -/
structure LoadIssued (d : SReg) (v : Word64) (len : Nat) (s t : State) : Prop where
  stream : self t = { self s with
    spc := (self s).spc + BitVec.ofNat 64 len
    ld := (self s).ld + 1
    loads := (self t).loads
    await := if d = 0 then (self s).await else (self s).await ++ [d.toNat] }
  loads : ∃ op, (self t).loads = (self s).loads ++ [op] ∧ op.dests = [.s d v]
  frame : AccessStep s t

/-- A scalar load of `n` bytes from `ea` completes where the access is allowed, LD has room and its line is full. -/
def LoadForm (op : BitVec 6) (i : Instr) (signed : Bool) (n : Nat) (d a : SReg) (imm : BitVec 14) (s : State) : Prop :=
  let w := op ++ d ++ a ++ imm
  let does (i : Instr) (ea : Word64) (len : Nat) : Prop :=
    (∀ p, place s (selfCtx s) {} ea n = .ok p → (self s).ld < 63 → lineFull s (selfCtx s) p.loc = true →
      ∃ t, exec i s = .next t ∧ LoadIssued d (extended signed n (readOwn (folded p.loc s) (selfCtx s) p n)) len (folded p.loc s) t) ∧
    (∀ x, place s (selfCtx s) {} ea n = .error (.trap x) → exec i s = .next (takeTrap s.cur x false s)) ∧
    (∀ p, place s (selfCtx s) {} ea n = .ok p → (63 ≤ (self s).ld ∨ lineFull s (selfCtx s) p.loc = false) → exec i s = .next s)
  Decodes w i ∧ does i (reg s a + imm.signExtend 64) 4 ∧ ∀ hi : BitVec 26, does (.ext hi w) (reg s a + (hi ++ imm).signExtend 64) 8

/-- The state of memory once the shadows of the lines of a write of `n` bytes are folded (R158). -/
def foldedFor (p : Place) (n : Nat) (s : State) : State := foldKeys (putKeys (putsAt p.mat p.loc (List.replicate n 0))) s

/-- The `n` low bytes of `v` stand at a place, written there by an access of block `blk`: those bytes and no other byte
changed. A byte of a held GO word keeps its value; a line takes the key material of its last write, so that its other bytes
read as before under that material (R99, R298, R387). -/
structure Stored (blk : Option Nat) (p : Place) (n : Nat) (v : Word64) (s t : State) : Prop where
  written : ∀ k, p.loc = .phys k → ∀ i, i < n →
    readByte t p.mat (k + i) = if goHeld s (k + i) = true then readByte s p.mat (k + i) else v.extractLsb' (8 * i) 8
  others : ∀ j, (∀ k, p.loc = .phys k → j < k ∨ k + n ≤ j) → readByte t p.mat j = readByte s p.mat j
  lines : ∀ mat j, (∀ k i, p.loc = .phys k → i < n → j / 128 ≠ (k + i) / 128) → readByte t mat j = readByte s mat j
  scratch : ∀ b o, p.loc = .scr o → blk = some b → (Table.find? s.blocks b).isSome →
    ∀ j, (t.block b).scratch.read j = if o ≤ j ∧ j < o + n then v.extractLsb' (8 * (j - o)) 8 else (s.block b).scratch.read j
  pools : ∀ b j, (∀ o, p.loc = .scr o → blk ≠ some b) → (t.block b).scratch.read j = (s.block b).scratch.read j
  acc : ∀ b j, (t.block b).acc.read j = (s.block b).acc.read j

/-- What a store at a place changes besides the bytes it writes: the running stream, which counts it in ST, and in UW where it is
to memory, and is `len` bytes on; the words whose errors it clears, the earlier values that walks may use, the key of its
lines, the clean lines of the L1 that it writes through, the commits it settles, the control lines its package now holds. -/
structure StoreStep (len : Nat) (p : Place) (s t : State) : Prop where
  rest : t = { s with
    streams := t.streams, blocks := t.blocks, past := t.past, cores := t.cores, mem := t.mem, lineKeys := t.lineKeys,
    early := t.early, owners := t.owners, serial := t.serial, stale := t.stale, bad := t.bad }
  others : ∀ a, a ≠ s.cur → t.stream a = s.stream a
  stream : self t = { self s with
    spc := (self s).spc + BitVec.ofNat 64 len, st := (self s).st + 1,
    uw := (self s).uw + (match p.loc with | .phys _ => 1 | .scr _ => 0), stores := (self t).stores }
  blocks : ∀ b, t.block b = { s.block b with rt := (t.block b).rt, scratch := (t.block b).scratch }
  cores : ∀ k, t.core k = { s.core k with clean := (t.core k).clean }

/-- A store held in the quantum buffer: memory and every register unchanged (R103). -/
structure BufferStep (len : Nat) (q : QBuf) (s t : State) : Prop where
  rest : t = { s with streams := t.streams, groups := t.groups, blocks := t.blocks, past := t.past }
  others : ∀ a, a ≠ s.cur → t.stream a = s.stream a ∧ t.group a = s.group a
  stream : self t = { self s with
    spc := (self s).spc + BitVec.ofNat 64 len, st := (self s).st + 1, stores := (self t).stores }
  group : selfGroup t = { selfGroup s with qbuf := q }
  blocks : SameBlocks s t
  bytes : SameBytes s t

/-- A plain store to control space that waits for an earlier one of its stream to be acknowledged (R310, R311). -/
def StoreWaits (p : Place) (s : State) : Prop :=
  (∃ k, p.loc = .phys k ∧ keyTgt k = 0) ∧ ∃ op, op ∈ (self s).stores ∧ op.control = true

/-- A scalar store of the `n` low bytes of s_b to `ea`: at once, to control space after its stream's earlier ones, or with
ordered stores on into the quantum buffer, where a store that needs a line beyond QL traps. -/
def StoreForm (op : BitVec 6) (i : Instr) (n : Nat) (b a : SReg) (imm : BitVec 14) (s : State) : Prop :=
  let w := op ++ b ++ a ++ imm
  let c := selfCtx s
  let does (i : Instr) (ea : Word64) (len : Nat) : Prop :=
    (∀ p, place s c { write := true } ea n = .ok p → (self s).st < 63 → buffered s s.cur ea = false → ¬StoreWaits p s →
      ∃ t, exec i s = .next t ∧ StoreStep len p (foldedFor p n s) t ∧ Stored c.block p n (reg s b) (foldedFor p n s) t) ∧
    (∀ p, place s c { write := true } ea n = .ok p → (self s).st < 63 → buffered s s.cur ea = false → StoreWaits p s → exec i s = .next s) ∧
    (∀ p, place s c { write := true } ea n = .ok p → (self s).st < 63 → buffered s s.cur ea = true →
      let q := seqAll (qbufPut false ea) (putsAt p.mat p.loc (leBytes n (reg s b).toNat)) (selfGroup s).qbuf
      (qbufLines q ≤ qlGroup s s.cur → ∃ t, exec i s = .next t ∧ BufferStep len q s t) ∧
      (qlGroup s s.cur < qbufLines q → exec i s = .next (takeTrap s.cur { cls := .quantum, detail := 1, addr := ea } false s))) ∧
    (∀ x, place s c { write := true } ea n = .error (.trap x) → exec i s = .next (takeTrap s.cur x false s)) ∧
    (∀ p, place s c { write := true } ea n = .ok p → 63 ≤ (self s).st → exec i s = .next s)
  Decodes w i ∧ does i (reg s a + imm.signExtend 64) 4 ∧ ∀ hi : BitVec 26, does (.ext hi w) (reg s a + (hi ++ imm).signExtend 64) 8

/-- The bases of the running agent's unit after an `MTS`: nothing else changes (R116, R341). -/
def BasesAre (s t : State) (tb sb sv : Word64) : Prop :=
  match s.cur with
  | .group p c _ => t = { advance 4 s with cores := t.cores } ∧
      t.core (p, c) = { s.core (p, c) with trapbase := tb, sidebuf := sb, savebase := sv } ∧ ∀ k, k ≠ (p, c) → t.core k = s.core k
  | .mcc p c => t = { advance 4 s with mccs := t.mccs } ∧
      t.mcc (p, c) = { s.mcc (p, c) with trapbase := tb, sidebuf := sb, savebase := sv } ∧ ∀ k, k ≠ (p, c) → t.mcc k = s.mcc k
  | .ctl p i => t = { advance 4 s with ctls := t.ctls } ∧
      t.ctl (p, i) = { s.ctl (p, i) with trapbase := tb } ∧ ∀ k, k ≠ (p, i) → t.ctl k = s.ctl k

/-- The side-buffer and save-area bases of an agent's unit; a control core has none (log entry 11). -/
def sideBase (s : State) : Agent → Word64
  | .group p c _ => (s.core (p, c)).sidebuf
  | .mcc p c => (s.mcc (p, c)).sidebuf
  | .ctl _ _ => 0

def saveBase (s : State) : Agent → Word64
  | .group p c _ => (s.core (p, c)).savebase
  | .mcc p c => (s.mcc (p, c)).savebase
  | .ctl _ _ => 0

/-- The page-table root and the context of the running agent after an `MTS`: nothing else changes (R430). -/
def ContextIs (s t : State) (pt : Word64) (cx : Word32) : Prop :=
  match s.cur with
  | .group _ _ _ => (Table.find? s.blocks (selfGroup s).block).isSome → t = { advance 4 s with blocks := t.blocks } ∧
      t.block (selfGroup s).block = { (advance 4 s).block (selfGroup s).block with ptbase := pt, ctxid := cx } ∧
      ∀ b, b ≠ (selfGroup s).block → t.block b = (advance 4 s).block b
  | .mcc p c => t = { advance 4 s with mccs := t.mccs } ∧
      t.mcc (p, c) = { s.mcc (p, c) with ptbase := pt, ctxid := cx } ∧ ∀ k, k ≠ (p, c) → t.mcc k = s.mcc k
  | .ctl p i => t = { advance 4 s with ctls := t.ctls } ∧
      t.ctl (p, i) = { s.ctl (p, i) with ptbase := pt, ctxid := cx } ∧ ∀ k, k ≠ (p, i) → t.ctl k = s.ctl k

/-- The numbers that `MFS` and `MTS` accept, and those that only system mode reads (R114). -/
def readable (n : Nat) : Prop := (1 ≤ n ∧ n ≤ 0x0E) ∨ (0x10 ≤ n ∧ n ≤ 0x17) ∨ (0x40 ≤ n ∧ n ≤ 0x4F)
def writable (n : Nat) : Prop := n = 0x0E ∨ (0x10 ≤ n ∧ n ≤ 0x17) ∨ (0x40 ≤ n ∧ n ≤ 0x4F)
def privateRead (n : Nat) : Prop := n = 0x05 ∨ (0x10 ≤ n ∧ n ≤ 0x17)

/-- A control-space address that is a multiple of `align`. -/
def controlBase (align : Nat) (v : Word64) : Prop := v.toNat < 2 ^ 52 ∧ v.toNat % align = 0

/-- The identity of a group on core `c` of package `p` in wave slot `w`, as its system registers read (R24, R25). -/
def GroupIdentity (s : State) (p c w : Nat) (read : Nat → Word64 → Prop) : Prop :=
  let g := selfGroup s
  let b := s.block g.block
  let l := s.launch b.launch
  let m := (s.pkg p).muniment
  read 0x02 (BitVec.ofNat 64 (p % 256)) ∧ read 0x03 (BitVec.ofNat 64 (c / 117)) ∧
  read 0x04 (BitVec.ofNat 64 ((logicalCore m c).getD 0xFFFF)) ∧
  read 0x05 (BitVec.ofNat 64 c) ∧
  read 0x06 (BitVec.ofNat 64 ((logicalCluster m (c / 117 * 13 + c % 117 / 9)).getD 0xFF)) ∧
  read 0x07 (BitVec.ofNat 64 w) ∧ read 0x08 (BitVec.ofNat 64 g.gidx) ∧
  read 0x0A l.recAddr ∧ read 0x0B (b.partw.zeroExtend 64) ∧ read 0x0C l.srseed ∧ read 0x0D l.lcode ∧
  read 0x14 (s.core (p, c)).sidebuf ∧ read 0x17 (s.core (p, c)).savebase ∧ read 0x10 (s.core (p, c)).trapbase ∧
  read 0x15 b.ptbase ∧ read 0x16 (b.ctxid.zeroExtend 64) ∧
  ∀ i, i < 16 → read (0x40 + i) ((Vec.get l.fs i).zeroExtend 64)

/-- The identity of the MCC stream of cluster `c` (R115). -/
def MccIdentity (s : State) (p c : Nat) (read : Nat → Word64 → Prop) : Prop :=
  let k := s.mcc (p, c)
  let m := (s.pkg p).muniment
  read 0x03 (BitVec.ofNat 64 (c / 13)) ∧ read 0x04 (BitVec.ofNat 64 (0x4000 + (logicalCluster m c).getD 0xFF)) ∧ read 0x05 (BitVec.ofNat 64 (0xF00 + c)) ∧
  read 0x06 (BitVec.ofNat 64 ((logicalCluster m c).getD 0xFF)) ∧
  read 0x07 0 ∧ read 0x08 0 ∧ read 0x09 0 ∧ read 0x0B 0 ∧
  (∀ l, k.launch = some l → read 0x0A (s.launch l).recAddr ∧ read 0x0C (s.launch l).srseed ∧ read 0x0D (s.launch l).lcode ∧
    ∀ i, i < 16 → read (0x40 + i) ((Vec.get (s.launch l).fs i).zeroExtend 64)) ∧
  read 0x10 k.trapbase ∧ read 0x14 k.sidebuf ∧ read 0x15 k.ptbase ∧ read 0x16 (k.ctxid.zeroExtend 64) ∧ read 0x17 k.savebase

/-- The identity of control core `i` (R115). -/
def CtlIdentity (s : State) (p i : Nat) (read : Nat → Word64 → Prop) : Prop :=
  let k := s.ctl (p, i)
  read 0x03 (BitVec.ofNat 64 (i / 8)) ∧ read 0x04 (BitVec.ofNat 64 (0x8000 + i)) ∧ read 0x05 (BitVec.ofNat 64 (0x8000 + i)) ∧ read 0x06 0xFF ∧
  read 0x07 0 ∧ read 0x08 0 ∧ read 0x09 0 ∧ read 0x0A 0 ∧ read 0x0B 0 ∧ read 0x0C 0 ∧ read 0x0D 0 ∧
  read 0x10 k.trapbase ∧ read 0x15 k.ptbase ∧ read 0x16 (k.ctxid.zeroExtend 64) ∧
  ∀ j, j < 16 → read (0x40 + j) ((Vec.get (s.pkg p).fmtDefault j).zeroExtend 64)

/-- The cycle count of the running agent's core (R25). -/
def cycleCount (s : State) : Word64 :=
  (s.pkg (agentPkg s.cur)).cyc + (match s.cur with
    | .group p c _ => (s.core (p, c)).ahead
    | .mcc p c => (s.mcc (p, c)).ahead
    | .ctl p i => (s.ctl (p, i)).ahead)

/-- A value that PTBASE accepts on a package (R294). -/
def PtbaseLegal (p : Nat) (v : Word64) : Prop := v.extractLsb' 42 22 = 0 ∧ v.extractLsb' 0 17 = 0 ∧ (v.extractLsb' 36 6).toNat = p % 64

/-- TRAPCAUSE: class, detail, wave slot, split id or 0xF for the scalar stream (R25, R341). -/
def cause (cls detail wslot split : Nat) : Word32 :=
  BitVec.ofNat 4 cls ++ BitVec.ofNat 12 detail ++ BitVec.ofNat 8 wslot ++ BitVec.ofNat 4 split ++ (0 : BitVec 4)

/-- The trap registers and the vector of an entry (R339, R347). -/
def Vectored (ag : Agent) (t : Trap) (c : Word32) (s u : State) : Prop :=
  (u.stream ag).trappc = (s.stream ag).spc ∧ (u.stream ag).trapcause = c ∧ (u.stream ag).trapaddr = t.addr ∧
  (u.stream ag).mode = (s.stream ag).mode ||| 1 ∧ (u.stream ag).spc = trapBaseOf s ag + BitVec.ofNat 64 (256 * classNum t.cls) ∧
  (u.stream ag).run = (s.stream ag).run ∧ ∀ a, a ≠ ag → u.stream a = s.stream a

/-- A number in the bytes of a record at a place. -/
def recordField (s : State) (mat : Under) (k off n : Nat) : Nat := leNat (readRange s mat (k + off) n)

/-- The wave slot that a cause and a record carry: an MCC's is 0xFF (R341). -/
def wslotOf : Agent → Nat
  | .group _ _ w => w
  | .mcc _ _ => 0xFF
  | .ctl _ _ => 0xFE

/-- The status of a block that a trap class ends (R339). -/
def endStatus (cls : Nat) : Word16 := if cls = 6 then 7 else if cls = 1 ∨ cls = 2 ∨ cls = 3 ∨ cls = 7 ∨ cls = 12 then 6 else 5

/-- The group has ended failed: it runs no more, and its block holds the status that ended it first (R349). -/
def GroupEndedFailed (ag : Agent) (st : Word16) (s u : State) : Prop :=
  (u.stream ag).run = .ended ∧ (u.group ag).segq = [] ∧ (u.group ag).qbuf = ⟨[], []⟩ ∧
  ((Table.find? s.blocks (s.group ag).block).isSome →
    (u.block (s.group ag).block).status = if (s.block (s.group ag).block).status = 0 then st else (s.block (s.group ag).block).status) ∧
  u.mem = s.mem ∧ u.cores = s.cores ∧ u.pkgs = s.pkgs

/-- What `QSET` makes of a staged descriptor: field `sel` from the values of s_a and s_d (R104). -/
def Staged (sel : Nat) (x y : Word64) (q q' : AaeDesc) : Prop :=
  (sel = 0 ∧ (y.toNat ∈ [1, 3, 4, 5, 6, 7, 9, 10, 11, 13] ∨ (16 ≤ y.toNat ∧ y.toNat ≤ 31)) ∧ q' = { q with base := some x, ty := y.setWidth 5 }) ∨
  (1 ≤ sel ∧ sel ≤ 4 ∧ y.toNat < 2 ^ 32 ∧ q' = { q with dims := Vec.set q.dims (sel - 1) (x, y.toNat) }) ∨
  (sel = 5 ∧ x.toNat < 2 ^ 32 ∧ y.toNat < 4 ∧ q' = { q with handle := x.setWidth 32, rdim := y.toNat }) ∨
  (sel = 6 ∧ x.toNat < 2 ^ 32 ∧ q' = { q with pad := x.setWidth 32 })

/-- A group in user mode, the only kind of stream that has a lane stream and operand queues (R63, R345). -/
def UserGroup (s : State) : Prop := isGroup s.cur = true ∧ sysMode s s.cur = false

/-- The running group's queue `n` becomes `q`, and the instruction of `len` bytes is behind it: nothing else changes. -/
structure QueueStep (n : Nat) (q : Queue) (len : Nat) (s t : State) : Prop where
  frame : GroupStep s t
  stream : self t = { self s with spc := (self s).spc + BitVec.ofNat 64 len }
  group : selfGroup t = { selfGroup s with queues := Vec.set (selfGroup s).queues n q }

/-- Where a stream starts in its queue: at once, or as the pending stream (R106). -/
def Started (x : AaeStream) (q q' : Queue) : Prop :=
  (q.running = none ∧ q' = { q with running := some x }) ∨
  (q.running.isSome ∧ q.pending = none ∧ q' = { q with pending := some x })

/-- The entries that are not poisoned. -/
def sound (es : List QEntry) : List QEntry := es.filter (fun e => match e with | .words _ => true | .poison _ _ _ => false)

/-- `LRUN` of `off` lane words appends a segment with the frame captured from s48 to s63, or stalls on a full queue (R110). -/
def QueuesSegment (i : Instr) (off : Word64) (len : Nat) (s : State) : Prop :=
  let g := selfGroup s
  let seg : Segment := {
    start := (s.launch (s.block g.block).launch).lcode + 12 * off
    frame := Vec.make 16 (fun j => (readS (self s) (BitVec.ofNat 6 (48 + j))).setWidth 32) }
  (g.segq.length < 4 → ∃ t, exec i s = .next t ∧ GroupStep s t ∧
    self t = { self s with spc := (self s).spc + BitVec.ofNat 64 len } ∧ selfGroup t = { g with segq := g.segq ++ [seg] }) ∧
  (4 ≤ g.segq.length → exec i s = .next s)

/-- Only a group's lane stream changes: an event of the engine or of the lane stream itself. -/
structure LaneStreamStep (ag : Agent) (s t : State) : Prop where
  rest : t = { s with groups := t.groups }
  others : ∀ a, a ≠ ag → t.group a = s.group a

/-- The split with which a segment begins (R111). -/
def firstSplit (lpc : Word64) : Split := { lpc := lpc, mask := 0xFFFFFFFF, m := Vector.replicate 7 0 }

/-- A drain instruction may begin: the group's segment queue is empty; other streams have none (R91). -/
def Drained (s : State) : Prop := isGroup s.cur = true → (selfGroup s).segq = []

/-- The places of a buffer are distinct, and all under one key material. -/
def PlainBuffer (m : Under) (q : QBuf) : Prop := (q.bytes.map (·.loc)).Nodup ∧ ∀ x, x ∈ q.bytes → x.mat = m

/-- The barrier `id` of a block. -/
def theBarrier (s : State) (b id : Nat) : Barrier := barrierAt (s.block b) id

/-- A group may use barrier `id` with `n` participants: it exists, and the count is within the block (R22, R165, R180). -/
def BarrierOk (id n : Nat) (s : State) : Prop :=
  isGroup s.cur = true ∧ id < (s.block (selfGroup s).block).nbar ∧ 1 ≤ n ∧ n ≤ 32 ∧ n ≤ (s.block (selfGroup s).block).groups.length ∧
  (Table.find? s.blocks (selfGroup s).block).isSome

/-- The phase that an arrival or a wait with count `n` meets: the open one with that count, or a new one (R166). -/
def Phase (x : Barrier) (n : Nat) (arrived : List Nat) : Prop := (x.count = none ∧ arrived = []) ∨ (x.count = some n ∧ arrived = x.arrived)

/-- Only one barrier of the running group's block, the group's note of its arrivals, its stream and its count of retired
instructions change. -/
structure BarrierStep (id : Nat) (x : Barrier) (s t : State) : Prop where
  rest : t = { s with streams := t.streams, groups := t.groups, blocks := t.blocks }
  group : selfGroup t = { selfGroup s with arrived := (selfGroup t).arrived }
  otherGroups : ∀ a, a ≠ s.cur → t.group a = s.group a
  block : t.block (selfGroup s).block =
    { s.block (selfGroup s).block with rt := (t.block (selfGroup s).block).rt, bars := Table.put (s.block (selfGroup s).block).bars id x }
  otherBlocks : ∀ b, b ≠ (selfGroup s).block → t.block b = s.block b

/-- The phaser that a handle register names (R167, R168). -/
def handleOf (s : State) (v : Word64) : PhaserRef where
  pkg := agentPkg s.cur / 64 * 64 + (v.extractLsb' 26 6).toNat
  num := (v.extractLsb' 12 14).toNat
  gen := (v.extractLsb' 0 12).toNat

/-- The handle is that of a live phaser: its upper half zero, its generation the phaser's, not null (R168, R169). -/
def HandleOk (s : State) (v : Word64) : Prop :=
  v.extractLsb' 32 32 = 0 ∧ v.extractLsb' 0 12 ≠ 0 ∧ (phaserAt s (handleOf s v)).live = true ∧ (phaserAt s (handleOf s v)).gen = (handleOf s v).gen

/-- An acquire by an agent: the L1 of its core uses no clean tensor line that it was filled with before; nothing else changes
(R308). -/
def Acquires (ag : Agent) (s t : State) : Prop :=
  t = { s with cores := t.cores } ∧ ∀ k, t.core k = if coreOf ag = some k then { s.core k with clean := [] } else s.core k

/-- The handle names a phaser of a package lost from the panel (R169). -/
def HandleLost (s : State) (v : Word64) : Prop := (s.pkg (agentPkg s.cur)).lost.contains (handleOf s v).pkg = true

/-- The running agent is a member of the phaser. -/
def memberOf (s : State) (r : PhaserRef) : Option Member := (phaserAt s r).members.find? (isMe s)

/-- Only a phaser changes, besides the running stream, which the instruction of 4 bytes leaves with `v` in `d`. -/
def PhaserStep (r : PhaserRef) (x : Phaser) (d : SReg) (v : Word64) (s t : State) : Prop := RegWrite d v 4 (setPhaser r x s) t

/-- Every signalling member of a phaser has signalled its open phase, and somebody has (R167). -/
def PhaseFull (x : Phaser) : Prop := x.signalled = true ∧ ∀ m, m ∈ x.members → m.signals = true → x.phase < m.next

/-- The open phase completes when it is full: its gather word becomes the newest, and the next phase opens with what was given one
phase ahead; and so on (R167, R169). -/
inductive Completes : Phaser → Phaser → Prop
  | open : ∀ x, ¬PhaseFull x → Completes x x
  | full : ∀ x z, PhaseFull x →
      Completes { x with newest := some (x.phase, x.gather), phase := x.phase + 1, gather := x.ahead.getD 0, signalled := x.ahead.isSome, ahead := none } z →
      Completes x z

/-- How a phaser combines two values: the unsigned maximum, or the bitwise OR (R167). -/
def gathers (x : Phaser) (a b : Word32) : Word32 := if x.max then (if a.ult b then b else a) else a ||| b

/-- A phaser whose member `m`, the one that `me` finds, has signalled with a value: the open phase takes the value where the
member has not signalled it, the phase after it where it has; phases that are then full complete (R167, R169). -/
def Signals (me : Member → Bool) (m : Member) (v : Word32) (x z : Phaser) : Prop :=
  let y : Phaser := { x with members := x.members.map (fun k => if me k then { k with next := k.next + 1 } else k) }
  Completes (if m.next ≤ x.phase then { y with gather := gathers x x.gather v, signalled := true } else { y with ahead := some (gathers x (x.ahead.getD 0) v) }) z

/-- The bits of an integer or floating atomic type: 32 or 64 (R35). -/
def atomBits (t : Nat) : Nat := if t = 1 ∨ t = 7 ∨ t = 11 then 32 else 64

/-- The new value of an atomic's location (R152, R154): integers wrap and compare by the signedness of the type; floating
sums round once to nearest even, floating minima and maxima are those of `FMIN` and `FMAX`; `.cas` compares bit patterns. -/
def atomResult (op : AtomOp) (t : Nat) (old x cmp : Nat) : Nat :=
  let n := atomBits t
  let o := BitVec.ofNat n old
  let y := BitVec.ofNat n x
  let less (a b : BitVec n) : Bool := if t = 7 ∨ t = 8 then a.slt b else a.ult b
  let f := if t = 1 then fmt32 else fmt64
  match op with
  | .add => if t ≤ 1 then f.round rneMode (Sys2Proof.Machine.Num.add false (f.decode old) (f.decode x)) else (o + y).toNat
  | .and => (o &&& y).toNat
  | .or => (o ||| y).toNat
  | .xor => (o ^^^ y).toNat
  | .min => if t ≤ 1 then fminmax f false old x else if less y o then x else old
  | .max => if t ≤ 1 then fminmax f true old x else if less o y then x else old
  | .xchg => x
  | .cas => if old = cmp then x else old
  | .amax => fminmax f true (old % 2 ^ (n - 1)) (x % 2 ^ (n - 1))

/-- The operation codes of R151. -/
def atomCode (k : Nat) : AtomOp := [.add, .and, .or, .xor, .min, .max, .xchg, .cas].getD k .cas
def redCode (k : Nat) : AtomOp := [.add, .min, .max, .and, .or, .xor, .amax].getD k .amax

/-- The value that a register takes from an old location value: sign-extended for `.i` types (R154). -/
def oldInto (t old : Nat) : Word64 :=
  if t = 7 then (BitVec.ofNat 32 old).signExtend 64 else BitVec.ofNat 64 old

/-- An atomic or reduction has been performed: it counts in ST and UW, delivers `dests`, and is `len` bytes behind. -/
structure AtomStep (len : Nat) (dests : List Dest) (base t : State) : Prop where
  rest : t = { base with
    streams := t.streams, blocks := t.blocks, past := t.past, mem := t.mem, lineKeys := t.lineKeys,
    early := t.early, owners := t.owners, serial := t.serial, stale := t.stale, bad := t.bad }
  others : ∀ a, a ≠ base.cur → t.stream a = base.stream a
  stream : ∃ op : StoreOp, op.dests = dests ∧ op.inSt = true ∧ op.inUw = true ∧ self t = { self base with
    spc := (self base).spc + BitVec.ofNat 64 len, st := (self base).st + 1, uw := (self base).uw + 1,
    stores := (self base).stores ++ [op], await := (self base).await ++ destRegs dests }
  blocks : ∀ b, t.block b = { base.block b with rt := (t.block b).rt, scratch := (t.block b).scratch }

/-- The memory that an atomic of `n` bytes finds at a place: its line taken exclusively, its shadows folded (R153, R158). -/
def atomBase (p : Place) (n : Nat) (s : State) : State := foldedFor p n (takeLine s.cur p.loc s)

/-- The number that an atomic finds. -/
def found (p : Place) (n : Nat) (s : State) : Nat := leNat (readPlace (takeLine s.cur p.loc s) (selfCtx s) p n)

/-- The conditions at issue of an atomic of `n` bytes whose access is allowed: ST has room, its scratch line is full, the data it
finds are sound (R18, R90, R153). -/
def AtomReady (s : State) (p : Place) (n : Nat) : Prop :=
  (self s).st < 63 ∧ lineFull s (selfCtx s) p.loc = true ∧ badAt s (selfCtx s) p.loc n = none

/-- An atomic that finds unsound data keeps their error for a later instruction, and completes all the same (R90, R302). -/
def KeepsError (i : Instr) (s : State) (p : Place) (n : Nat) (sregs : List Nat) (va : Word64) (len : Nat) : Prop :=
  ∀ k, badAt s (selfCtx s) p.loc n = some k → (self s).st < 63 → lineFull s (selfCtx s) p.loc = true →
    ∃ t, exec i s = .next t ∧ (self t).spc = (self s).spc + BitVec.ofNat 64 len ∧
      (self t).deferred = (self s).deferred ++ [{ sregs := sregs, detail := k, addr := va }]

/-- One scalar atomic at a place: the location takes the operation's result, the register what was found (R153, R154). -/
def AtomDone (op : AtomOp) (t : Nat) (d : SReg) (x cmp : Word64) (len : Nat) (p : Place) (s u : State) : Prop :=
  let n := atomBits t / 8
  let old := found p n s
  AtomStep len [.s d (oldInto t old)] (atomBase p n s) u ∧
  Stored (selfCtx s).block p n (BitVec.ofNat 64 (atomResult op t old (x.toNat % 2 ^ (8 * n)) (cmp.toNat % 2 ^ (8 * n)))) (atomBase p n s) u

/-- The 32-bit word that an agent fetches at an address: its bytes are readable and executable there, hold no error, and are
little-endian (R26, R57, R98). -/
def Fetched (s : State) (ag : Agent) (va : Word64) (w : BitVec 32) : Prop :=
  (∀ off, spaceOf va ≠ some (.scratch off)) ∧ ∃ p, place s (ctxOf s ag) { fetch := true } va 4 = .ok p ∧
    badAt s (ctxOf s ag) p.loc 4 = none ∧ ∀ i, i < 4 → w.extractLsb' (8 * i) 8 = (readPlace (foldAt p.loc s) (ctxOf s ag) p 4).getD i 0

/-- Nothing keeps the scalar instruction of an agent: no earlier error that it raises or waits for, no register it awaits, no
acquiring item (R88, R90, R173). -/
def Unhindered (s : State) (ag : Agent) (i : Instr) : Prop :=
  (∀ d, d ∈ (s.stream ag).deferred → raisesDeferred ag i d = false) ∧ awaitsRegs (s.stream ag) i = false ∧
  errorDue (s.stream ag) i = false ∧ (isAccess i = true → acquiring s ag = false)

/-- The lane words at the program counter of a split (R15, R67). -/
def LaneFetched (s : State) (ag : Agent) (lpc : Word64) (w : BitVec 96) : Prop :=
  Fetched s ag (laneBase s ag + lpc) (w.extractLsb' 0 32) ∧ Fetched s ag (laneBase s ag + lpc + 4) (w.extractLsb' 32 32) ∧
  Fetched s ag (laneBase s ag + lpc + 8) (w.extractLsb' 64 32)

/-- The word of a `REP`, the only lane word with a second one behind it (R70). -/
def repWord (w : BitVec 96) : Prop := w.extractLsb' 54 10 = 0x3FE

/-- A scalar word with a second word behind it: `EXT` and the two long spaces (R57, R60). -/
def hasSecond (w : BitVec 32) : Prop := w.extractLsb' 26 6 = 0x33 ∨ w.extractLsb' 26 6 = 0x3E ∨ w.extractLsb' 26 6 = 0x3F

/-- A load whose values were read at issue has been counted in LD; `dests` await its data, and `len` bytes are behind it
(R18, R88, R220). -/
def Delivering (dests : List Dest) (len : Nat) (base t : State) : Prop :=
  ∃ op : LoadOp, op.dests = dests ∧ StreamStep base t ∧ self t = { self base with
    spc := (self base).spc + BitVec.ofNat 64 len, ld := (self base).ld + 1, loads := (self base).loads ++ [op], await := (self base).await ++ destRegs dests }

/-- A query of the record that a handle names (R218, R220): with `v` of the record where `v` answers, RAGGED 0x004 where it
does not; the record's own errors are those of its snapshot; a handle of more than 32 bits, or 0, is RAGGED 0x001. -/
def QueryForm (i : Instr) (d a : SReg) (v : Ragged → Option Nat) (s : State) : Prop :=
  (self s).ld < 63 →
  (∀ r s1, snapshotReg (selfCtx s) (reg s a) s = .ok (r, s1) →
    (∀ n, v r = some n → ∃ t, exec i s = .next t ∧ Delivering [.s d (BitVec.ofNat 64 n)] 4 s1 t) ∧
    (v r = none → Traps i s .ragged 4 0)) ∧
  (∀ x, snapshotReg (selfCtx s) (reg s a) s = .error (.trap x) → exec i s = .next (takeTrap s.cur x false s)) ∧
  (reg s a = 0 ∨ 2 ^ 32 ≤ (reg s a).toNat → Traps i s .ragged 1 0)

/-- Only the staged state of items and their queues changes, besides the running stream: the new item has the next number, and
the counters and the registers that its end will deliver are noted (R88, R172, R252). -/
structure ItemIssued (x : Item) (len : Nat) (base t : State) : Prop where
  rest : t = { base with streams := t.streams, items := t.items, engq := t.engq, nextId := base.nextId + 1, blocks := t.blocks, past := t.past }
  others : ∀ a, a ≠ base.cur → t.stream a = base.stream a
  stream : self t = { self base with
    spc := (self base).spc + BitVec.ofNat 64 len
    cp := (self base).cp + (if x.counted then 1 else 0)
    st := (self base).st + (match x.kind with | .ratom _ _ _ _ _ | .rrel _ _ _ => 1 | _ => 0)
    await := (self base).await ++ [x.valueReg, x.statusReg].filter (· ≠ 0) }
  item : t.item base.nextId = { x with waits := (t.item base.nextId).waits }
  waits : ∀ o, x.owner = some o → (t.item base.nextId).waits = (base.engine o).items ++ (base.engine o).after ∧
    t.engine o = { base.engine o with items := (base.engine o).items ++ [base.nextId] }
  free : x.owner = none → (t.item base.nextId).waits = x.waits ∧ t.engq = base.engq
  queues : ∀ o, x.owner ≠ some o → t.engine o = base.engine o
  items : ∀ i, i ≠ base.nextId → t.item i = base.item i
  blocks : SameBlocks base t

/-- Control space at a multiple of `align`. -/
def controlAt (align : Nat) (va : Word64) : Prop := va.toNat < 2 ^ 52 ∧ va.toNat % align = 0

/-- A form that only a control core in system mode accepts: PRIV in user mode there, ILLEGAL elsewhere in any mode (R65, R72,
R119, R299). -/
def ControlForm (i : Instr) (s : State) : Prop :=
  (isCtl s.cur = false → Traps i s .illegal 0 0) ∧ (isCtl s.cur = true → sysMode s s.cur = false → Traps i s .priv 0 0)

/-- The stream has moved 8 bytes on over `base`, and nothing else has changed. -/
def Steps8 (base t : State) : Prop := RegWrite 0 0 8 base t

/-- The address of a remote item and what it is turned away with (R171): reserved space, a misaligned tensor address, control
space or the scratch window. -/
def RemoteOk (t : Nat) (va : Word64) : Prop := va.extractLsb' 62 2 = 1 ∧ (spaceOf va).isSome ∧ va.toNat % (atomBits t / 8) = 0
def RemoteTrap (t : Nat) (va : Word64) (cls : TrapClass) (detail : Nat) : Prop :=
  (spaceOf va = none ∧ cls = .translation ∧ detail = 1) ∨
  ((spaceOf va).isSome ∧ va.extractLsb' 62 2 = 1 ∧ va.toNat % (atomBits t / 8) ≠ 0 ∧ cls = .protection ∧ detail = 0x11) ∨
  ((spaceOf va).isSome ∧ va.extractLsb' 62 2 ≠ 1 ∧ cls = .protection ∧ detail = 0x16)

/-- A remote item issues (R171 to R173): a release form first commits the buffer and waits until the stream's writes are
performed; then the item is made. -/
def RemoteForm (i : Instr) (t : Nat) (va : Word64) (release : Bool) (is : Item → Prop) (s : State) : Prop :=
  let b := if release then commitOwn s.cur s else s
  (RemoteOk t va → (self s).st < 63 → (release = true → (self b).uw = 0) →
    ∃ x u, exec i s = .next u ∧ ItemIssued x 8 b u ∧ is x ∧ x.issuer = s.cur ∧ x.phase = .queued ∧ x.release = release) ∧
  (RemoteOk t va → (self s).st < 63 → release = true → (self b).uw ≠ 0 → exec i s = .next b) ∧
  (RemoteOk t va → 63 ≤ (self s).st → exec i s = .next s) ∧
  ∀ cls detail, RemoteTrap t va cls detail → Traps i s cls detail va

/-- A 64-byte descriptor at an address: the bytes there, or PROTECTION 0x018, or the faults of a load (R259 step 2). -/
def DescriptorAt (s : State) (va : Word64) (bs : List Byte) : Prop :=
  controlAt 64 va ∧ ∃ p, place s (selfCtx s) {} va 64 = .ok p ∧ badAt s (selfCtx s) p.loc 64 = none ∧
    bs = readPlace (foldAt p.loc s) (selfCtx s) p 64
def DescriptorTrap (s : State) (va : Word64) (x : Trap) : Prop :=
  (¬controlAt 64 va ∧ x = { cls := .protection, detail := 0x18, addr := va }) ∨
  (controlAt 64 va ∧ place s (selfCtx s) {} va 64 = .error (.trap x))

/-- The number in the `n` bytes at an offset of a descriptor. -/
def field (bs : List Byte) (o n : Nat) : Nat := leNat ((bs.drop o).take n)

/-- The status register of a `.st` form. -/
def statusReg (w : LongWord) : Nat := if w.st = 1 then w.e.toNat else 0

/-- The fields of a copy descriptor (R255). -/
def IsCopy (bs : List Byte) (d : CopyDesc) : Prop :=
  d.src = BitVec.ofNat 64 (field bs 0 8) ∧ d.dst = BitVec.ofNat 64 (field bs 8 8) ∧
  d.spitch = (BitVec.ofNat 64 (field bs 0x10 8)).toInt ∧ d.dpitch = (BitVec.ofNat 64 (field bs 0x18 8)).toInt ∧
  d.count = field bs 0x20 4 ∧ d.rows = field bs 0x24 4 ∧ d.sty = field bs 0x28 1 ∧ d.dty = field bs 0x29 1 ∧ d.rm = field bs 0x2A 1 ∧
  d.rg = (field bs 0x2B 1).testBit 0 ∧ d.rdst = (field bs 0x2B 1).testBit 1 ∧ d.waite = (field bs 0x2B 1).testBit 2 ∧ d.cons = (field bs 0x2B 1).testBit 3 ∧
  d.handle = field bs 0x2C 4 ∧ d.phaser = BitVec.ofNat 32 (field bs 0x30 4) ∧ d.crec = BitVec.ofNat 64 (field bs 0x38 8)

/-- The fields of a launch record, by which its blocks run (R322). -/
def IsLaunch (bs : List Byte) (l : Launch) : Prop :=
  l.scode = BitVec.ofNat 64 (field bs 0 8) ∧ l.lcode = BitVec.ofNat 64 (field bs 8 8) ∧ l.mcode = BitVec.ofNat 64 (field bs 0x10 8) ∧
  l.param = BitVec.ofNat 64 (field bs 0x18 8) ∧ l.gridx = field bs 0x20 4 ∧ l.gridy = field bs 0x24 4 ∧ l.gridz = field bs 0x28 4 ∧
  l.groups = field bs 0x2C 1 ∧ l.nbar = field bs 0x2D 1 ∧ l.ord = (field bs 0x2F 1).testBit 0 ∧ l.idem = (field bs 0x2F 1).testBit 1 ∧
  l.partw = BitVec.ofNat 32 (field bs 0x30 4) ∧ l.expect = field bs 0x38 8 ∧ l.trig = BitVec.ofNat 32 (field bs 0x40 4) ∧
  l.tphase = BitVec.ofNat 32 (field bs 0x44 4) ∧ l.cc = BitVec.ofNat 64 (field bs 0x48 8) ∧ l.srseed = BitVec.ofNat 64 (field bs 0x50 8) ∧
  l.sched = BitVec.ofNat 64 (field bs 0x58 8) ∧ l.nsched = field bs 0x60 4 ∧ l.stage0 = BitVec.ofNat 32 (field bs 0x64 4) ∧
  l.frep = BitVec.ofNat 64 (field bs 0x68 8) ∧ l.next = 0 ∧ l.ended = [] ∧ l.cancelled = false

/-- An operation has joined its ordering stream: at its tail from the MCC, among those on their way from a group; it counts in
TL, and the instruction is 8 bytes behind (R18, R184, R185). -/
structure TileQueued (k : Nat × Nat) (op : TileOp) (base t : State) : Prop where
  rest : t = { base with streams := t.streams, mccs := t.mccs, blocks := t.blocks, past := t.past }
  others : ∀ a, a ≠ base.cur → t.stream a = base.stream a
  stream : self t = { self base with spc := (self base).spc + 8, tl := (self base).tl + 1 }
  mcc : t.mcc k = if isMcc base.cur then { base.mcc k with ops := Vec.set (base.mcc k).ops (snOf op.instr) (Vec.get (base.mcc k).ops (snOf op.instr) ++ [op]) }
    else { base.mcc k with arriving := (base.mcc k).arriving ++ [op] }
  mccs : ∀ j, j ≠ k → t.mcc j = base.mcc j
  blocks : SameBlocks base t

/-- Operations of ordering stream `n` on their way from groups, joins apart. -/
def onTheWay (s : State) (k : Nat × Nat) (n : Nat) : List TileOp :=
  (s.mcc k).arriving.filter (fun o => snOf o.instr == n && (match o.instr with | .tsync _ => false | _ => true))

/-- TL and the ordering stream have room (R18, R337). -/
def TileRoom (s : State) (k : Nat × Nat) (n : Nat) : Prop :=
  (self s).tl < 31 ∧ (Vec.get (s.mcc k).ops n).length + (onTheWay s k n).length < 16

/-- A tile instruction whose checks `checks` make its operation: it is queued, waits for room, or traps (R193). -/
def TileForm (i : Instr) (k : Nat × Nat) (sn : Nat) (checks : Except Stop (TileOp × State)) (s : State) : Prop :=
  (∀ op b, checks = .ok (op, b) → op.instr = i ∧ op.issuer = s.cur ∧ op.step = 0 ∧ op.sub = 0 ∧
    (TileRoom s k sn → ∃ t, exec i s = .next t ∧ TileQueued k op b t) ∧ (¬TileRoom s k sn → exec i s = .next s)) ∧
  (∀ x, checks = .error (.trap x) → exec i s = .next (takeTrap s.cur x false s)) ∧
  (checks = .error .stall → exec i s = .next s)

/-- A shape register within R190 for an instruction that uses no depth, or that uses one. -/
def ShapeOk (w : TileWord) (v : Word64) (depth : Bool) : Prop :=
  v.extractLsb' 53 11 = 0 ∧ v.getLsbD 3 = false ∧ (w.mrow = 0 → v.extractLsb' 18 11 = 0) ∧ (w.mcol = 0 → v.extractLsb' 29 11 = 0) ∧
  (w.mdep = 0 → v.extractLsb' 40 13 = 0) ∧ (depth = false → v.extractLsb' 10 8 = 0)

/-- The blocks that a CMASK names (R187). -/
def named (s : State) (k : Nat × Nat) (v : Word64) : List Nat := ((s.mcc k).gang.filter (fun g => v.getLsbD (32 + g.1))).map (·.2)

/-- A CMASK is a nonempty set of cores that hold a block of the gang (R187, R210). -/
def MaskOk (s : State) (k : Nat × Nat) (v : Word64) : Prop :=
  v.extractLsb' 32 8 ≠ 0 ∧ ∀ j, j < 8 → v.getLsbD (32 + j) = true → ∃ g, g ∈ (s.mcc k).gang ∧ g.1 = j ∧ (Table.find? s.blocks g.2).isSome

/-- An accumulator region of `rows` rows of `n` elements within the allotments of blocks (R187, R193). -/
def AccOk (s : State) (v : Word64) (rows n : Nat) (blocks : List Nat) : Prop :=
  let pit := 128 * (v.extractLsb' 24 8).toNat
  let off := (v.extractLsb' 0 24).toNat
  v.extractLsb' 40 24 = 0 ∧ 4 * n ≤ pit ∧ 0 < pit ∧ off % 128 = 0 ∧ ∀ b, b ∈ blocks → off + (rows - 1) * pit + 4 * n ≤ acuBytes (s.block b).partw

/-- A scratch region of `rows` rows of `n` elements of a matrix type (R188, R193). -/
def ScrOk (s : State) (slots : Vector Word32 16) (t : Nat) (v : Word64) (rows n : Nat) (blocks : List Nat) : Prop :=
  let pit := 128 * (v.extractLsb' 24 8).toNat
  let off := (v.extractLsb' 0 24).toNat
  v.extractLsb' 53 11 = 0 ∧ v.extractLsb' 33 7 = 0 ∧ (v.getLsbD 52 = false → v.extractLsb' 40 12 = 0) ∧
  (v.getLsbD 52 = true → 16 ≤ t ∧ scaleSlot slots (v.extractLsb' 48 4).toNat = true) ∧
  0 < pit ∧ n * matNibbles slots t ≤ 2 * pit ∧ off % 128 = 0 ∧
  ∀ b, b ∈ blocks → 2 * off + (rows - 1) * (2 * pit) + n * matNibbles slots t ≤ 2 * spuBytes (s.block b).partw

/-- A weight descriptor of a product, and the images it names on each core: within the buffer, valid, large enough, of the
operand's type (R189, R193, R194). -/
def WgtOk (s : State) (k : Nat × Nat) (slots : Vector Word32 16) (sn t : Nat) (v : Word64) (kdim ndim : Nat) (blocks : List Nat) : Prop :=
  v.extractLsb' 18 46 = 0 ∧ (v.extractLsb' 0 18).toNat % 128 = 0 ∧
  ∀ b, b ∈ blocks →
    let hd := plannedHeader s (Vec.get (s.mcc k).ops sn) b (v.extractLsb' 0 18).toNat
    headerBad s (Vec.get (s.mcc k).ops sn) b (v.extractLsb' 0 18).toNat = none ∧
    (v.extractLsb' 0 18).toNat + hdrTotal hd ≤ 0x40000 ∧ hdrOk slots hd = true ∧ kdim ≤ hdrK hd ∧ ndim ≤ hdrN hd ∧ hdrType hd = t

/-- Rows per core, columns and depth of a shape register (R190). -/
def mcOf (v : Word64) : Nat := 16 * ((v.extractLsb' 0 3).toNat + 1)
def nOf (v : Word64) : Nat := 16 * ((v.extractLsb' 4 6).toNat + 1)
def kOf (v : Word64) : Nat := 16 * ((v.extractLsb' 10 8).toNat + 1)

/-- The operation of a tile instruction of the MCC with the values of its registers, and nothing done. -/
def FreshOp (i : Instr) (w : TileWord) (s : State) (op : TileOp) : Prop :=
  op.instr = i ∧ op.vd = reg s w.d ∧ op.va = reg s w.a ∧ op.vb = reg s w.b ∧ op.vc = reg s w.c ∧ op.vd1 = reg s (w.d + 1) ∧ op.va1 = reg s (w.a + 1) ∧
  op.issuer = s.cur ∧ op.step = 0 ∧ op.sub = 0 ∧ op.buf = [] ∧ op.err = false

/-- Only the accumulator bytes `a` to `a + 3` of a block, and the notes of errors, change. -/
structure AccStep (blk a : Nat) (s t : State) : Prop where
  rest : t = { s with blocks := t.blocks, past := t.past, streams := t.streams, mccs := t.mccs, bad := t.bad }
  bytes : ∀ o, o < a ∨ a + 4 ≤ o → (t.block blk).acc.read o = (s.block blk).acc.read o
  block : t.block blk = { s.block blk with acc := (t.block blk).acc }
  others : ∀ b, b ≠ blk → t.block b = s.block b
  spc : ∀ a, (t.stream a).spc = (s.stream a).spc ∧ (t.stream a).tl = (s.stream a).tl

/-- The accumulator element (i, c) of a descriptor's region (R187): its offset. -/
def elementAt (v : Word64) (i c : Nat) : Nat := (v.extractLsb' 0 24).toNat + i * (128 * (v.extractLsb' 24 8).toNat) + 4 * c

/-- What a lane word with mask select `msel` runs in: the live split of lowest LPC, of lowest id among equals, and the lanes
that its active mask and the selected mask both hold; m0 selects all (R15, R30, R67, R121). -/
structure LaneAt (s : State) (msel : BitVec 3) (e : LaneEnv) : Prop where
  ag : e.ag = s.cur
  split : e.id < 4 ∧ Vec.get (selfGroup s).splits e.id = some e.sp
  lowest : ∀ i sp, i < 4 → Vec.get (selfGroup s).splits i = some sp →
    e.sp.lpc.toNat < sp.lpc.toNat ∨ (e.sp.lpc = sp.lpc ∧ e.id ≤ i)
  act : ∀ l, l < 32 → e.act.getLsbD l = (e.sp.mask.getLsbD l && (if msel = 0 then true else (Vec.get e.sp.m (msel.toNat - 1)).getLsbD l))

/-- Lane register `r` is one that a word names, the pair counted for a 64-bit operand (R13). -/
def Names (regs : List (BitVec 9 × Bool)) (r : Nat) : Prop :=
  ∃ x, x ∈ regs ∧ x.1.toNat < 0x100 ∧ (r = x.1.toNat ∨ (x.2 = true ∧ r = x.1.toNat + 1))

/-- Every named register is within VN, and none awaits a load (R13, R122). -/
def RegsReady (s : State) (regs : List (BitVec 9 × Bool)) : Prop :=
  ∀ r, Names regs r → r < selfVn s ∧ r ∉ (selfGroup s).vawait

/-- A lane word runs: a group of the user, its split, its registers at hand. -/
def LaneRuns (s : State) (msel : BitVec 3) (regs : List (BitVec 9 × Bool)) (e : LaneEnv) : Prop :=
  UserGroup s ∧ LaneAt s msel e ∧ RegsReady s regs

/-- A register at or beyond VN traps with BOUND, detail 2, before any effect; an awaited one holds the word back (R13, R122). -/
def RegisterRules (i : Instr) (msel : BitVec 3) (regs : List (BitVec 9 × Bool)) (s : State) : Prop :=
  UserGroup s → (∃ e, LaneAt s msel e) →
    ((∃ r, Names regs r ∧ selfVn s ≤ r) → exec i s = .next (takeTrap s.cur { cls := .bound, detail := 2 } true s)) ∧
    ((∀ r, Names regs r → r < selfVn s) → (∃ r, Names regs r ∧ r ∈ (selfGroup s).vawait) → exec i s = .next s)

/-- The draw of a word with rounding code `rm`: under `.rsr` the converter of the stream steps once (R43, R45). -/
def Draws (rm : Nat) (s : State) (z : Word32) (s1 : State) : Prop :=
  (rm ≠ 5 → z = 0 ∧ s1 = s) ∧ (rm = 5 → z = xorshift32 (converterOf s s.cur) ∧ s1 = setConverter z s)

/-- A group whose split `id` has moved one word on and merged with an equal one (R16, R121). -/
def stepped (id : Nat) (g : Group) : Group :=
  mergeSplits { g with splits := Vec.set g.splits id ((Vec.get g.splits id).map (fun sp => { sp with lpc := sp.lpc + 12 })) }

/-- Only the running group's lane stream changes, to `g`, and the count of retired instructions. -/
structure LaneStep (g : Group) (s t : State) : Prop where
  rest : t = { s with groups := t.groups, blocks := t.blocks, past := t.past }
  others : ∀ a, a ≠ s.cur → t.group a = s.group a
  group : selfGroup t = g
  blocks : SameBlocks s t
  bytes : SameBytes s t

/-- A result `val` in the lanes that `on` holds of register `dst`, and of the next one the high half of a wide result; every
other register and lane keeps its value (R122, R123). -/
structure LaneWrites (dst : Nat) (wide : Bool) (on : Nat → Bool) (val : Nat → Nat) (g g' : Group) : Prop where
  rest : g' = { g with v := g'.v }
  value : ∀ r l, r < 256 → l < 32 → Vec.get (Vec.get g'.v r) l =
    if on l && decide (r = dst) then BitVec.ofNat 32 (val l)
    else if on l && wide && decide (r = dst + 1) then BitVec.ofNat 32 (val l / 2 ^ 32)
    else Vec.get (Vec.get g.v r) l

/-- How a word whose operands have the types `ts` ends when an operand is not there: the trap of the read, or a stall. -/
def ReadRules (i : Instr) (w : LaneWord) (ts : List Nat) (regs : List (BitVec 9 × Bool)) (s : State) : Prop :=
  ∀ e, LaneRuns s w.msel regs e →
    (∀ x, readOps e (selfSlots s) w ts (selfGroup s) = .error (.trap x) → exec i s = .next (takeTrap s.cur x true s)) ∧
    (readOps e (selfSlots s) w ts (selfGroup s) = .error .stall → exec i s = .next s)

/-- A lane word with operands of types `ts` and a result of type `td` in v registers: from the operands of every lane and the
draw, `val` is each lane's result. -/
def LaneResult (i : Instr) (w : LaneWord) (ts : List Nat) (td rm : Nat) (val : LaneEnv → List (List Nat) → Word32 → Nat → Nat) (s : State) : Prop :=
  let wide := td == 0 || td == 8 || td == 12
  let regs := namedRegs w ts (some wide)
  (∀ e ops g z s1, LaneRuns s w.msel regs e → readOps e (selfSlots s) w ts (selfGroup s) = .ok (ops, g) → Draws rm s z s1 →
    ∃ g' t, exec i s = .next t ∧ LaneWrites w.dst.toNat wide e.on (val e ops z) g g' ∧ LaneStep (stepped e.id g') s1 t) ∧
  ReadRules i w ts regs s ∧ RegisterRules i w.msel regs s

/-- A lane word with a result of one bit for each active lane in a mask register; the bits of other lanes keep their values
(R69, R124). -/
def MaskResult (i : Instr) (w : LaneWord) (ts : List Nat) (bit : LaneEnv → List (List Nat) → Nat → Bool) (s : State) : Prop :=
  let regs := namedRegs w ts none
  (∀ e ops g, LaneRuns s w.msel regs e → readOps e (selfSlots s) w ts (selfGroup s) = .ok (ops, g) →
    ∃ m : Vector Word32 7, ∃ t, exec i s = .next t ∧
      (∀ k l, k < 7 → l < 32 → (Vec.get m k).getLsbD l = if e.on l && decide (k + 1 = w.dst.toNat) then bit e ops l else (Vec.get e.sp.m k).getLsbD l) ∧
      LaneStep (stepped e.id { g with splits := Vec.set g.splits e.id (some { e.sp with m := m }) }) s t) ∧
  ReadRules i w ts regs s ∧ RegisterRules i w.msel regs s

/-- The operand `k` of lane `l` as the format `f` reads it. -/
def fop (f : Fmt) (ops : List (List Nat)) (k l : Nat) : Sys2Proof.Machine.Num := f.decode ((ops.getD k []).getD l 0)

/-- The bits that a type reads and writes (R123). -/
def typeBits (slots : Vector Word32 16) (t : Nat) : Option Nat :=
  if t < 13 then some ([64, 32, 32, 16, 16, 8, 16, 32, 64, 8, 16, 32, 64].getD t 0) else if t < 16 then none else (slotOf slots (t - 16)).map Fmt.width

/-- The tree of R56: level `k` combines the result at element `i` with the one 2^k further on. -/
def pairTree (f : Nat → Nat → Nat → Nat) (x : Nat → Nat) : Nat → Nat → Nat
  | 0, i => x i
  | k + 1, i => f i (pairTree f x k i) (pairTree f x k (i + 2 ^ k))

/-- A number's smaller or larger neighbour in the order of `FMIN` and `FMAX`, -0 below +0 (R126). -/
def fbelow (f : Fmt) (a b : Nat) : Bool :=
  (f.decode a).lt (f.decode b) || (!(f.decode b).lt (f.decode a) && (f.decode a).isNeg && !(f.decode b).isNeg)

/-- `FMIN` or `FMAX` on bits (R126). -/
def fpick (f : Fmt) (max : Bool) (a b : Nat) : Nat :=
  let nan (x : Nat) : Bool := (f.decode x).isNan
  if nan a && nan b then f.nanCode else if nan a then b else if nan b then a
  else if (if max then fbelow f a b else fbelow f b a) then b else a

/-- The value of the low bits of an integer type (R34). -/
def intVal' (t x : Nat) : Int :=
  let n := if t = 8 ∨ t = 12 then 64 else 32
  if (t = 7 ∨ t = 8) ∧ 2 ^ (n - 1) ≤ x % 2 ^ n then (x % 2 ^ n : Nat) - 2 ^ n else (x % 2 ^ n : Nat)

/-- One combination of `GRED`, `SCAN` and `GREDS`: add, max, min, and, or, xor (R56, R133). -/
def combines (op t : Nat) (k : Rnd) (a b : Nat) : Nat :=
  let fl := t ∈ [0, 1, 3, 4]
  let n := if t = 8 ∨ t = 12 then 64 else 32
  match op with
  | 0 => if fl then (stdFmt t).round k (((stdFmt t).decode a).add (k.mode == 3) ((stdFmt t).decode b)) else (a + b) % 2 ^ n
  | 1 => if fl then fpick (stdFmt t) true a b else if intVal' t a ≤ intVal' t b then b else a
  | 2 => if fl then fpick (stdFmt t) false a b else if intVal' t a ≤ intVal' t b then a else b
  | 3 => a &&& b
  | 4 => a ||| b
  | _ => a ^^^ b

/-- The identities of R56. -/
def identity (op t : Nat) : Nat :=
  let f := stdFmt t
  let n := if t = 8 ∨ t = 12 then 64 else 32
  let signed := t = 7 ∨ t = 8
  match op with
  | 0 => if t ∈ [0, 1, 3, 4] then 2 ^ (f.exp + f.man) else 0
  | 1 => if t ∈ [0, 1, 3, 4] then f.round rneMode (.inf true) else if signed then 2 ^ (n - 1) else 0
  | 2 => if t ∈ [0, 1, 3, 4] then f.round rneMode (.inf false) else if signed then 2 ^ (n - 1) - 1 else 2 ^ n - 1
  | 3 => 2 ^ n - 1
  | _ => 0

/-- The tree over the lanes that `on` holds, the others contributing the identity (R45, R56). -/
def treeOf (op t rm : Nat) (z : Word32) (on : Nat → Bool) (x : Nat → Nat) : Nat :=
  pairTree (fun i a b => combines op t ⟨rm, drawRv z i⟩ a b) (fun l => if on l then x l else identity op t) 5 0

/-- What a scan has combined before lane `l` (R133). -/
def scanned (op t rm : Nat) (z : Word32) (on : Nat → Bool) (x : Nat → Nat) : Nat → Nat
  | 0 => identity op t
  | l + 1 => if on l then combines op t ⟨rm, drawRv z l⟩ (scanned op t rm z on x l) (x l) else scanned op t rm z on x l

/-- The mask registers with those of a record's lanes restored (R137, R138). -/
def Restores (p : Parked) (m m' : Vector Word32 7) : Prop :=
  ∀ k l, k < 7 → l < 32 → (Vec.get m' k).getLsbD l = if p.pmask.getLsbD l then (Vec.get p.pm k).getLsbD l else (Vec.get m k).getLsbD l

/-- The live-lane mask holds the lanes of the splits and of the parked records (R15). -/
def LiveLanes (g : Group) : Prop :=
  ∀ l, l < 32 → (g.live.getLsbD l = true ↔
    (∃ i sp, i < 4 ∧ Vec.get g.splits i = some sp ∧ sp.mask.getLsbD l = true) ∨ ∃ p, p ∈ g.parked ∧ p.pmask.getLsbD l = true)

/-- The end of split `id`, whose masks are `m`: it takes the record written last, or becomes free; with no split left the
segment leaves the queue; the live-lane mask follows (R15, R138). -/
def EndsSplit (id : Nat) (m : Vector Word32 7) (g g' : Group) : Prop :=
  let free := { g with splits := Vec.set g.splits id none, live := g'.live }
  let left := ∃ i, i < 4 ∧ i ≠ id ∧ Vec.get g.splits i ≠ none
  LiveLanes g' ∧
  (∀ pre p m', g.parked = pre ++ [p] → Restores p m m' →
    g' = { g with parked := pre, live := g'.live,
                  splits := Vec.set g.splits id (some { lpc := if p.hold then p.plpc + 12 else p.plpc, mask := p.pmask, m := m' }) }) ∧
  (g.parked = [] → left → g' = free) ∧
  (g.parked = [] → ¬left → g' = { free with segq := g.segq.drop 1, inSeg := false, rep := none })

/-- No error of a lane load waits to be raised by the end of a split (R147). -/
def NoLaneErrors (s : State) : Prop :=
  (∀ d, d ∈ (self s).deferred → d.split = none) ∧ ∀ l d, l ∈ (self s).loads → l.err = some d → d.split = none

/-- The lane register, frame word or lane index that a base, index or offset selector names, in a lane (R68, R141). -/
def laneSource (g : Group) (imm : Word32) (sel : BitVec 9) (l : Nat) : Word32 :=
  if sel.toNat < 0x100 then Vec.get (Vec.get g.v sel.toNat) l
  else if sel.toNat < 0x110 then Vec.get g.frame (sel.toNat - 0x100)
  else if sel = 0x121 then BitVec.ofNat 32 l else imm

/-- Nibbles of an element of a type (R141). -/
def elementNibbles (slots : Vector Word32 16) (t : Nat) : Nat :=
  if t < 13 then (typeBits slots t).getD 0 / 4 else match slotOf slots (t - 16) with
    | some f => if f.width ≤ 4 then 1 else 2
    | none => 2

/-- The nibble position of a lane's element, modulo 2^65 (R141). -/
def nibblePos (g : Group) (w : LaneWord) (nw l : Nat) : BitVec 65 :=
  let base := laneSource g w.imm (w.a + 1) l ++ laneSource g w.imm w.a l
  let idx : Int := if w.md.getLsbD 0 then (if w.md.getLsbD 1 then (laneSource g w.imm w.b l).toInt else (laneSource g w.imm w.b l).toNat) else 0
  BitVec.ofInt 65 (2 * (base.toNat + w.imm.toInt) + idx * (if w.md.getLsbD 2 then nw else 2))

/-- The effective address of a lane's element (R141). -/
def laneEa (g : Group) (w : LaneWord) (nw l : Nat) : Word64 := (nibblePos g w nw l).extractLsb' 1 64

/-- The registers that a lane access names: its base pair, an index register, its data and its result (R13, R141). -/
def accessRegs (w : LaneWord) (data dst : Option Bool) : List (BitVec 9 × Bool) :=
  (w.a, true) :: ((if w.md.getLsbD 0 then [(w.b, false)] else []) ++ (data.toList.map (fun x => (w.c, x))) ++ (dst.toList.map (fun x => (w.dst, x))))

/-- The nibbles that count for lane `l`: those of the type, or for `.pg` those of the page that holds the lane's address before
its index, which the element's own page must share (R141). -/
def NibblesAre (s : State) (w : LaneWord) (l nw : Nat) (p : Place) : Prop :=
  let c := selfCtx s
  let base := laneSource (selfGroup s) w.imm (w.a + 1) l ++ laneSource (selfGroup s) w.imm w.a l
  if w.ty = 13 then pageNibbles s c (BitVec.ofInt 64 (base.toNat + w.imm.toInt)) = some nw ∧
    ∃ pg, p.page = some pg ∧ nw = (match slotOf c.slots (leafFslot pg.leaf) with | some f => if f.width ≤ 4 then 1 else 2 | none => 2)
  else nw = elementNibbles c.slots w.ty.toNat

/-- Finds the place of an element; a `.pg` element brings the nibbles that its page must have (R141, R293). -/
abbrev Finder := Option Nat → Word64 → Except Stop Place

/-- The accesses of the active lanes in ascending order, each at its address and at a place where it is allowed (R141, R147). -/
def LaneRefsAre (s : State) (w : LaneWord) (e : LaneEnv) (find : Finder) (rs : List LaneRef) : Prop :=
  rs.map (·.lane) = (List.range 32).filter (fun l => e.act.getLsbD l) ∧
  ∀ r, r ∈ rs → ∃ nw, NibblesAre s w r.lane nw r.place ∧ r.va = laneEa (selfGroup s) w nw r.lane ∧
    r.odd = (nibblePos (selfGroup s) w nw r.lane).getLsbD 0 ∧ find (if w.ty = 13 then some nw else none) r.va = .ok r.place

/-- The faults of the active lanes, in ascending order (R147). -/
def laneFaults (s : State) (w : LaneWord) (e : LaneEnv) (find : Finder) : List LaneFault :=
  ((List.range 32).filter (fun l => e.act.getLsbD l)).filterMap (fun l =>
    match find none (laneEa (selfGroup s) w (elementNibbles (selfCtx s).slots w.ty.toNat) l) with
    | .error (.trap x) => some ⟨l, x.cls, x.detail, x.addr⟩
    | _ => none)

/-- What every lane access does before it has an effect: a lane that faults stops it with the fault of the lowest such lane and
a record of all; registers beyond VN or still awaited stop it as R13 and R122 say. -/
def AccessRules (i : Instr) (w : LaneWord) (regs : List (BitVec 9 × Bool)) (find : Finder) (s : State) : Prop :=
  (∀ e x xs, LaneRuns s w.msel regs e → w.ty ≠ 13 → (16 ≤ w.ty.toNat → (slotOf (selfSlots s) (w.ty.toNat - 16)).isSome) →
    laneFaults s w e find = x :: xs →
    exec i s = .next (takeTrap s.cur { cls := x.cls, detail := x.detail, addr := x.addr, faults := x :: xs } true s)) ∧
  ((16 ≤ w.ty.toNat → (slotOf (selfSlots s) (w.ty.toNat - 16)).isSome) → RegisterRules i w.msel regs s)

/-- The registers of a delivered element (R123). -/
def lanePair (dst : BitVec 9) (wide : Bool) (l x : Nat) : List Dest :=
  .v dst.toNat l (BitVec.ofNat 32 x) :: (if wide then [.v (dst.toNat + 1) l (BitVec.ofNat 32 (x / 2 ^ 32))] else [])

/-- What only a lane access changes: the counters and operations of the stream, the lane stream with its awaited registers, which
lines the L1 of the core holds, the full bits of the block. -/
structure LaneAccess (g : Group) (base t : State) : Prop where
  rest : t = { base with streams := t.streams, groups := t.groups, blocks := t.blocks, past := t.past, cores := t.cores }
  others : ∀ a, a ≠ base.cur → t.stream a = base.stream a ∧ t.group a = base.group a
  group : selfGroup t = g
  blocks : ∀ b, t.block b = { base.block b with rt := (t.block b).rt, empty := (t.block b).empty }
  cores : ∀ k, t.core k = { base.core k with clean := (t.core k).clean }
  bytes : SameBytes base t

/-- A group that awaits registers of a lane word's result (R122). -/
def awaiting (rs : List Nat) (g : Group) : Group := { g with vawait := g.vawait ++ rs }

/-- What remains of a byte after writes of some of its bits, in order (R143, R144). -/
def bytesAfter (puts : List Put) (l : Loc) (b : Byte) : Byte :=
  puts.foldl (fun b p => if p.loc = l then (p.val &&& p.mask) ||| (b &&& ~~~p.mask) else b) b

/-- Writes under one key material have been performed, in order, and no other byte has changed (R144, R298). -/
structure PutsDone (blk : Nat) (m : Under) (puts : List Put) (base t : State) : Prop where
  written : ∀ j, goHeld base j = false → readByte t m j = bytesAfter puts (.phys j) (readByte base m j)
  lines : ∀ mat j, (∀ p k, p ∈ puts → p.loc = .phys k → j / 128 ≠ k / 128) → readByte t mat j = readByte base mat j
  scratch : (Table.find? base.blocks blk).isSome → ∀ o, (t.block blk).scratch.read o = bytesAfter puts (.scr o) ((base.block blk).scratch.read o)
  pools : ∀ b o, b ≠ blk → (t.block b).scratch.read o = (base.block b).scratch.read o
  acc : ∀ b o, (t.block b).acc.read o = (base.block b).acc.read o

/-- The writes of a stored element: its low bytes, or the code of an FP32 value in the element's format, a narrow one in its own
nibble (R41, R143). -/
def elementWrites (s : State) (t : Nat) (k : Rnd) (r : LaneRef) (x : Nat) : List Put :=
  let c := selfCtx s
  if t = 13 ∨ 16 ≤ t then
    let f := narrowFmt c t r.place
    let code := encodeNarrow f k (scaleAt s c t r.place) (fmt32.decode x)
    [⟨r.place.loc, r.place.mat, if 4 < f.width then 0xFF else if r.odd then 0xF0 else 0x0F, BitVec.ofNat 8 (if f.width ≤ 4 ∧ r.odd then code * 16 else code)⟩]
  else (List.range ((typeBits c.slots t).getD 0 / 8)).map (fun i => ⟨locAdd r.place.loc i, r.place.mat, 0xFF, BitVec.ofNat 8 (x / 2 ^ (8 * i))⟩)

/-- Nothing but memory, the pools of the block, the words whose errors a write clears and the commits that it settles. -/
def MemoryStep (base t : State) : Prop :=
  t = { base with mem := t.mem, lineKeys := t.lineKeys, early := t.early, stale := t.stale, bad := t.bad, blocks := t.blocks, past := t.past } ∧
  ∀ b, t.block b = { base.block b with scratch := (t.block b).scratch }

/-- Read-modify-writes of lanes one after another: what each found, and the memory after the last (R156). -/
def LanesInTurn (n : Nat) (f : Nat → Nat → Nat) : List LaneRef → List (Nat × Nat) → State → State → Prop
  | [], olds, s, t => olds = [] ∧ t = s
  | r :: rs, olds, s, t => ∃ u rest, olds = (r.lane, found r.place n s) :: rest ∧
      MemoryStep (atomBase r.place n s) u ∧
      Stored (selfCtx s).block r.place n (BitVec.ofNat 64 (f r.lane (found r.place n s))) (atomBase r.place n s) u ∧
      LanesInTurn n f rs rest u t

/-- A lane atomic or store has been counted over the memory `u` that it left, in UW `n` times: it awaits its results, and its word
is behind. -/
structure LaneCounted (dests : List Dest) (n : Nat) (g : Group) (u t : State) : Prop where
  rest : t = { u with streams := t.streams, groups := t.groups, blocks := t.blocks, past := t.past, owners := t.owners, serial := t.serial }
  others : ∀ a, a ≠ u.cur → t.stream a = u.stream a ∧ t.group a = u.group a
  stream : ∃ op : StoreOp, op.dests = dests ∧ op.inSt = true ∧ self t = { self u with
    st := (self u).st + 1, uw := (self u).uw + n, stores := (self u).stores ++ [op] }
  group : selfGroup t = g
  blocks : SameBlocks u t
  bytes : SameBytes u t

/-- The data that the accesses of a lane word find, and the scale codes that they need, hold no error (R51, R147). -/
def SoundLanes (s : State) (c : Ctx) (t n : Nat) (rs : List LaneRef) : Prop := ∀ r, r ∈ rs → narrowBad s c t r.place n = none

/-- The error that the accesses of a lane word met: its first is that of the lowest lane, and it names every lane (R147, R346). -/
def LaneErrorIs (s : State) (c : Ctx) (id t n : Nat) (regs : List Nat) (rs : List LaneRef) (d : Deferred) : Prop :=
  d.vregs = regs ∧ d.split = some id ∧ d.sregs = [] ∧
  d.faults = rs.filterMap (fun r => (narrowBad s c t r.place n).map (fun k => ⟨r.lane, .memerr, k, r.va⟩)) ∧
  ∀ f, d.faults.head? = some f → d.detail = f.detail ∧ d.addr = f.addr

/-- A lane word that completes keeps an error that its accesses met for a later one (R147). -/
def KeepsLaneError (i : Instr) (p : Deferred → Prop) (s : State) : Prop :=
  ∃ d t, p d ∧ exec i s = .next t ∧ (self t).deferred = (self s).deferred ++ [d]

/-- A write goes through the L1 of the core: only the clean lines that the core holds change (R282). -/
def WrittenThrough (s t : State) : Prop := t = { s with cores := t.cores } ∧ ∀ k, t.core k = { s.core k with clean := (t.core k).clean }

/-- The offset operand of `STT` and `LDA`: a v register counts in the lowest lane of the split (R148). -/
def tileOffsetOf (g : Group) (w : LaneWord) (sp : Split) : Nat :=
  (laneSource g w.imm w.a (((List.range 32).find? (fun l => sp.mask.getLsbD l)).getD 0)).toNat

/-- What a scalar or lane register holds after values have been delivered in order; s0 takes none (R10, R88). -/
def deliveredS (ds : List Dest) (r : SReg) (old : Word64) : Word64 :=
  ds.foldl (fun x d => match d with | .s q v => if q = r ∧ r ≠ 0 then v else x | .v _ _ _ => x) old
def deliveredV (ds : List Dest) (r l : Nat) (old : Word32) : Word32 :=
  ds.foldl (fun x d => match d with | .v q j v => if q = r ∧ j = l then v else x | .s _ _ => x) old

/-- The values of an operation have reached their registers, which are awaited no more; no other register has changed. -/
structure Delivered (ag : Agent) (ds : List Dest) (b t : State) : Prop where
  scalars : ∀ r, readS (t.stream ag) r = deliveredS ds r (readS (b.stream ag) r)
  lanes : ∀ r l, r < 256 → l < 32 → Vec.get (Vec.get (t.group ag).v r) l = deliveredV ds r l (Vec.get (Vec.get (b.group ag).v r) l)
  await : (t.stream ag).await = ds.foldl (fun a d => match d with | .s r _ => a.erase r.toNat | .v _ _ _ => a) (b.stream ag).await
  vawait : (t.group ag).vawait = (destVregs ds).eraseDups.foldl (fun a r => a.erase r) (b.group ag).vawait
  group : t.group ag = { b.group ag with v := (t.group ag).v, vawait := (t.group ag).vawait }

/-- An item whose end has no effect outside its issuer and its queue: no record, no phaser, no counter record of a graph, no
scratch line, a live attempt of a block that is not saved, with no schedule behind it. -/
structure PlainItem (s : State) (x : Item) : Prop where
  live : x.orphan = false ∧ x.ofFront = false ∧ blockSaved s x = false ∧ failureAgent s x = x.issuer
  quiet : x.cc = 0 ∧ x.phaser = 0 ∧ x.crec = none ∧ x.lines = []
  regs : x.statusReg < 64 ∧ x.valueReg < 64
  alone : ∀ b n, x.owner = some (.block b, n) → (s.block b).sched = []

/-- The item has ended with a status: its counters have fallen, its registers hold what R172 and R261 give them, a failure is
counted, and it stands in no queue (R172, R174, R252, R261). -/
structure ItemEnds (id : Nat) (x : Item) (st : Word16) (b t : State) : Prop where
  rest : t = { b with streams := t.streams, items := t.items, engq := t.engq, pkgs := t.pkgs, cores := t.cores }
  gone : Table.find? t.items id = none ∧ ∀ j, j ≠ id → t.item j = b.item j
  others : ∀ a, a ≠ x.issuer → t.stream a = b.stream a
  counters : (t.stream x.issuer).cp = (b.stream x.issuer).cp - (if x.counted then 1 else 0) ∧
    (t.stream x.issuer).st = (b.stream x.issuer).st - (match x.kind with | .ratom _ _ _ _ _ | .rrel _ _ _ => 1 | _ => 0)
  failures : (t.stream x.issuer).fcnt = (if st = 0 ∨ (b.stream x.issuer).fcnt = 0xFFFFFFFF then (b.stream x.issuer).fcnt else (b.stream x.issuer).fcnt + 1) ∧
    (t.stream x.issuer).fstat = (if st ≠ 0 ∧ (b.stream x.issuer).fcnt = 0 then st else (b.stream x.issuer).fstat)
  regs : ∀ r : SReg, readS (t.stream x.issuer) r =
    if r ≠ 0 ∧ r.toNat = x.statusReg then st.zeroExtend 64
    else if r ≠ 0 ∧ r.toNat = x.valueReg then (if st = 0 then x.value else 0) else readS (b.stream x.issuer) r
  queues : ∀ o, t.engine o = { items := (b.engine o).items.filter (· != id), after := (b.engine o).after.filter (· != id) }
  pkgs : ∀ p, t.pkg p = { b.pkg p with accepted := if p = x.ctx.pkg then (b.pkg p).accepted.filter (· != id) else (b.pkg p).accepted }
  cores : ∀ k, t.core k = if x.acquire = true ∧ coreOf x.issuer = some k then { b.core k with clean := [] } else b.core k

/-- What an owner does with a remote atomic or release: where its access is allowed and its data are sound, the location takes
the result and the item the old value with status OK; else the item takes the status that the access has, and memory keeps
its bytes (R172). -/
def PerformedAt (i : Instr) (id : Nat) (x : Item) (t : Nat) (va : Word64) (result : Nat → Nat) (s : State) : Prop :=
  let b := touchLease x va s
  let n := atomBits t / 8
  (∀ p k, reach b x true 9 va = .ok p → p.loc = .phys k →
    let c : Ctx := { x.ctx with ag := .ctl (keyPkg k) 0, block := none }
    let f := foldLine (k / 128) b
    let old := leNat (readPlace f c p n)
    let base := foldedFor p n f
    badAt b c p.loc n = none → ∃ u, exec i s = .next u ∧
      u = { base with mem := u.mem, lineKeys := u.lineKeys, early := u.early, stale := u.stale, bad := u.bad, items := u.items, cores := u.cores } ∧
      (∀ q, u.core q = { base.core q with owned := (base.core q).owned.filter (· ≠ k / 128), clean := (base.core q).clean.filter (·.line ≠ k / 128) }) ∧
      u.item id = { x with phase := .performed, status := 0, value := oldInto t old } ∧ (∀ j, j ≠ id → u.item j = base.item j) ∧
      Stored none p n (BitVec.ofNat 64 (result old)) base u) ∧
  (∀ p, reach b x true 9 va = .ok p → badAt b x.ctx p.loc n ≠ none → (∃ k, p.loc = .phys k) → ∃ u, exec i s = .next u ∧ SameBytes b u ∧
    u.item id = { x with phase := .performed, status := 7, value := 0 } ∧ ∀ j, j ≠ id → u.item j = b.item j) ∧
  (∀ st, reach b x true 9 va = .error st → ∃ u, exec i s = .next u ∧ u = { b with items := u.items } ∧
    u.item id = { x with phase := .performed, status := st, value := 0 } ∧ ∀ j, j ≠ id → u.item j = b.item j)

/-- Bytes that the device writes to control memory from key `k` on, under key material `m`, at the home and the annex home: those
bytes take their values, a held GO word apart, and no other byte changes (R288, R298, R325, R387). -/
structure DeviceWritten (m : Under) (k : Nat) (bs : List Byte) (s t : State) : Prop where
  rest : let b := foldedFor ⟨.phys k, m, none, 0⟩ bs.length s
    t = { b with mem := t.mem, lineKeys := t.lineKeys, early := t.early, annexed := t.annexed, stale := t.stale, bad := t.bad }
  written : ∀ i, i < bs.length → goHeld s (k + i) = false → readByte t m (k + i) = bs.getD i 0
  mirrored : pkgUp s (keyPkg k) = true → (s.pkg (keyPkg k)).unmirrored = false →
    keyTgt k = 0 → keyOff k + bs.length ≤ ctlSize → ∀ i, i < bs.length → t.mem.read (annexKey (k + i)) = t.mem.read (k + i)
  beside : let b := foldedFor ⟨.phys k, m, none, 0⟩ bs.length s
    ∀ j, (j < k ∨ k + bs.length ≤ j) → (∀ i, i < bs.length → j / 128 ≠ annexKey (k + i) / 128) → readByte t m j = readByte b m j
  others : let b := foldedFor ⟨.phys k, m, none, 0⟩ bs.length s
    ∀ m' j, (∀ i, i < bs.length → j / 128 ≠ (k + i) / 128 ∧ j / 128 ≠ annexKey (k + i) / 128) → readByte t m' j = readByte b m' j

/-- A state with one launch queue of a package changed; numbers from 64 on name the child queue. -/
def withQueue (p q : Nat) (x : LaunchQ) (s : State) : State :=
  s.setPkg p (if q < 64 then { s.pkg p with queues := Vec.set (s.pkg p).queues q x } else { s.pkg p with child := x })

/-- Where entry `head` of a queue's ring lies (R318). -/
def ringKey (x : LaunchQ) (p head : Nat) : Nat := physKey p 0 (x.ring % 2 ^ 36 + 64 * (head % max 1 x.nent))

/-- The ring entry that the front end reads next: a kick covers it and its hardware launch queue has room (R318, R320, R321). -/
def NextEntry (s : State) (p q head : Nat) (bs : List Byte) : Prop :=
  let x := queueAt s p q
  q < 64 ∧ x.kicked.isSome = true ∧ x.items.length < 16 ∧ (s.pkg p).fenced = false ∧ (s.pkg p).booted = true ∧
  head = readCtl s p ((s.pkg p).qtab % 2 ^ 36 + 64 * q + 0x20) 8 ∧
  let k := ringKey x p head
  bs = readRange (folded (.phys k) s) (slotMaterial s p 0) k 64

/-- A ring entry within the table of R319. -/
def RingEntryOk (bs : List Byte) : Prop :=
  let kind := field bs 0 1
  kind ≤ 3 ∧ field bs 1 1 < 2 ∧ (kind = 3 → field bs 1 1 = 0) ∧ field bs 2 1 < 8 ∧ (kind ≠ 2 → field bs 2 1 = 0) ∧ field bs 3 5 = 0 ∧
  (kind = 1 → controlAt 256 (BitVec.ofNat 64 (field bs 8 8))) ∧ (kind = 2 → controlAt 64 (BitVec.ofNat 64 (field bs 8 8))) ∧
  (kind = 0 ∨ kind = 3 → field bs 8 8 = 0) ∧ (kind = 2 → controlAt 32 (BitVec.ofNat 64 (field bs 0x10 8))) ∧ (kind ≠ 2 → field bs 0x10 8 = 0) ∧
  field bs 0x38 8 = 0 ∧ ∀ i, i < 4 → field bs (0x18 + 8 * i) 8 = 0 ∨ controlAt 32 (BitVec.ofNat 64 (field bs (0x18 + 8 * i) 8))

/-- The gates of an entry that are not zero. -/
def gatesOf (bs : List Byte) : List Word64 := ([0x18, 0x20, 0x28, 0x30].map (fun o => BitVec.ofNat 64 (field bs o 8))).filter (· ≠ 0)

/-- The entry is consumed: HEAD has risen by 1 and the kick ends where it reaches the TAIL it read (R321). -/
def Consumes (i : Instr) (p q head : Nat) (s b : State) : Prop :=
  let h : Word64 := BitVec.ofNat 64 (head + 1)
  let w := writeCtl p ((b.pkg p).qtab % 2 ^ 36 + 64 * q + 0x20) (leBytes 8 h.toNat) (folded (.phys (ringKey (queueAt b p q) p head)) b)
  let x := queueAt w p q
  exec i s = .next (withQueue p q { x with kicked := if x.kicked = some h then none else x.kicked } w)

/-- Every gate can be read, and its COUNT and STATUS are as told (R325, R327). -/
def GatesRead (s : State) (c : Ctx) (gates : List Word64) (p : Nat → Nat → Prop) : Prop :=
  ∀ g, g ∈ gates → ∃ bs, readVia s c 32 g 32 = .ok bs ∧ p (field bs 0 8) (field bs 0x10 2)

/-- The gates let the item run: every COUNT is 0 and, under AFTEROK, every STATUS is 0 (R327). -/
def GatesOpen (s : State) (c : Ctx) (gates : List Word64) (afterok : Bool) : Prop :=
  GatesRead s c gates (fun count st => count = 0 ∧ (afterok = true → st = 0))

/-- Some gate's COUNT is not yet 0 (R327). -/
def GatesShut (s : State) (c : Ctx) (gates : List Word64) : Prop :=
  GatesRead s c gates (fun _ _ => True) ∧ ∃ g bs, g ∈ gates ∧ readVia s c 32 g 32 = .ok bs ∧ field bs 0 8 ≠ 0

/-- Every gate has ended, and AFTEROK meets a failed one (R327). -/
def GatesFailed (s : State) (c : Ctx) (gates : List Word64) (afterok : Bool) : Prop :=
  GatesRead s c gates (fun count _ => count = 0) ∧ afterok = true ∧ ∃ g bs, g ∈ gates ∧ readVia s c 32 g 32 = .ok bs ∧ field bs 0x10 2 ≠ 0

/-- The trigger phaser of a launch, and what its newest completed phase says (R327). -/
def triggerRef (l : Launch) : PhaserRef where
  pkg := l.pkg / 64 * 64 + (l.trig.extractLsb' 26 6).toNat
  num := (l.trig.extractLsb' 12 14).toNat
  gen := (l.trig.extractLsb' 0 12).toNat
def Triggered (s : State) (l : Launch) (p : Option (Nat × Word32) → Prop) : Prop :=
  l.trig ≠ 0 ∧ (s.pkg l.pkg).lost.contains (triggerRef l).pkg = false ∧ (triggerRef l).gen ≠ 0 ∧ (phaserAt s (triggerRef l)).live = true ∧
  (phaserAt s (triggerRef l)).gen = (triggerRef l).gen ∧ p (phaserAt s (triggerRef l)).newest
def reachedPhase (l : Launch) (x : Option (Nat × Word32)) : Prop := ∃ c v, x = some (c, v) ∧ (BitVec.ofNat 32 c - l.tphase).toNat < 2 ^ 31

/-- The units that a partition word takes from a core's pool (R19). -/
def poolUnits (w : Word32) : Nat := (w.extractLsb' 24 8).toNat + (w.extractLsb' 16 8).toNat + (w.extractLsb' 8 8).toNat + (w.extractLsb' 0 8).toNat

/-- A wave slot that a resident block holds (R332). -/
def waveHeld (here : List (Nat × Block)) (w : Nat) : Prop := ∃ b a, b ∈ here ∧ a ∈ b.2.groups ∧ waveOf a = w

/-- Barrier ids that no resident block holds (R22). -/
def barsFree (here : List (Nat × Block)) (lo n : Nat) : Prop :=
  lo + n ≤ 48 ∧ ∀ b, b ∈ here → b.2.nbar = 0 ∨ b.2.barbase + b.2.nbar ≤ lo ∨ lo + n ≤ b.2.barbase

/-- A block of a launch at the head of queue `q` fits a core (R332, R341). -/
structure FitsOn (s : State) (l : Launch) (q c : Nat) : Prop where
  serves : c ∈ logicalCores s l.pkg ∧ (s.core (l.pkg, c)).fenced = false
  based : (s.core (l.pkg, c)).trapbase ≠ 0 ∧ (s.core (l.pkg, c)).sidebuf ≠ 0 ∧ (s.core (l.pkg, c)).savebase ≠ 0
  free : ∀ r, (s.core (l.pkg, c)).reserved = some r → r = (l.pkg, q) ∨ headPrio s r < l.prio
  units : ((residents s (l.pkg, c)).map (fun b => poolUnits b.2.partw)).sum + poolUnits l.partw ≤ 128
  waves : ∀ i, i < 4 → ∃ ws : List Nat, ws.Nodup ∧ (∀ w, w ∈ ws → w < 64 ∧ w % 4 = i ∧ ¬waveHeld (residents s (l.pkg, c)) w) ∧
    ((List.range l.groups).filter (· % 4 = i)).length ≤ ws.length
  bars : ∃ lo, barsFree (residents s (l.pkg, c)) lo l.nbar
  images : ∀ b, b ∈ imagesAt s (l.pkg, c) → (s.launch b.2.launch).prio < l.prio

/-- The seed of a converter (R44). -/
def seedOf (srseed : Word64) (c i : Nat) : Word32 :=
  let z := srseed.extractLsb' 0 32 ^^^ srseed.extractLsb' 32 32 ^^^ BitVec.ofNat 32 (c * 0x9E3779B9) ^^^ BitVec.ofNat 32 (i * 0x85EBCA6B)
  if z = 0 then 0x6D2B79F5 else z

/-- A stream that starts with `a1`, `a2`, `a3` in s1 to s3 and every other register zero (R27, R182). -/
structure StartsAt (x : Stream) (pc a1 a2 a3 : Word64) (mode : BitVec 8) : Prop where
  regs : ∀ r : SReg, readS x r = if r = 1 then a1 else if r = 2 then a2 else if r = 3 then a3 else 0
  rest : x.spc = pc ∧ x.mode = mode ∧ x.run = .running ∧ x.ext = none ∧ x.fcnt = 0 ∧ x.fstat = 0
  counts : x.ld = 0 ∧ x.st = 0 ∧ x.cp = 0 ∧ x.tl = 0 ∧ x.uw = 0 ∧ x.loads = [] ∧ x.stores = []

/-- The next block index of a launch, and the launch once it is taken (R329, R355). -/
def indexOf (l : Launch) : Nat := match l.redo with | i :: _ => i | [] => l.next
def indexTaken (l : Launch) (core : Nat) : Launch :=
  { l with
    next := if l.redo = [] then l.next + 1 else l.next, redo := l.redo.drop 1, last := Table.put l.last (indexOf l) core,
    flushed := Table.del l.flushed (indexOf l) }

/-- The next block of launch `id`, which takes no copy schedule, stands on core `c` as the block `blk` (R21, R22, R27, R28, R44,
R333). -/
structure BlockPlaced (id blk c : Nat) (waves : List Nat) (bar : Nat) (s b : State) : Prop where
  rest : b = { s with
    nextId := blk + 1, streams := b.streams, groups := b.groups, blocks := b.blocks, launches := b.launches, cores := b.cores, bad := b.bad }
  number : blk = s.nextId
  slots : waves.length = (s.launch id).groups ∧ ∀ g w, waves[g]? = some w →
    w < 64 ∧ w % 4 = g % 4 ∧ ¬waveHeld (residents s ((s.launch id).pkg, c)) w ∧
    ∀ v, v < w → v % 4 = g % 4 → waveHeld (residents s ((s.launch id).pkg, c)) v ∨ ∃ h : Nat, h < g ∧ waves[h]? = some v
  barriers : barsFree (residents s ((s.launch id).pkg, c)) bar (s.launch id).nbar
  block : let l := s.launch id
    let x := b.block blk
    x.launch = id ∧ x.index = indexOf l ∧ x.pkg = l.pkg ∧ x.core = c ∧ x.partw = l.partw ∧ x.groups = waves.map (Agent.group l.pkg c) ∧ x.nbar = l.nbar ∧
    x.barbase = bar ∧ x.ctxid = l.ctxid ∧ x.ptbase = l.ptbase ∧ x.ord = l.ord ∧ x.scratch = [] ∧ x.acc = [] ∧ x.empty = [] ∧ x.bars = [] ∧ x.sched = [] ∧
    x.stage = l.stage0 ∧ x.rt = 0 ∧ x.e = 0 ∧ x.status = 0 ∧ x.cancelled = false ∧ x.preempt = .none ∧ x.held = [] ∧ x.late = [] ∧ x.endAfter = []
  blocks : ∀ n, n ≠ blk → b.block n = s.block n
  launch : b.launch id = indexTaken (s.launch id) c ∧ ∀ n, n ≠ id → b.launch n = s.launch n
  streams : ∀ g w, waves[g]? = some w → let l := s.launch id
    StartsAt (b.stream (.group l.pkg c w)) l.scode l.param (BitVec.ofNat 64 (indexOf l)) (BitVec.ofNat 64 g) (if l.ord then 2 else 0)
  groups : ∀ g w, waves[g]? = some w →
    let x := b.group (.group (s.launch id).pkg c w)
    x.block = blk ∧ x.gidx = g ∧ x.segq = [] ∧ x.inSeg = false ∧ (∀ n, n < 4 → Vec.get x.splits n = none) ∧ x.parked = [] ∧ x.rep = none ∧
    (∀ n, n < 8 → Vec.get x.queues n = Queue.reset) ∧ (∀ r l, Vec.get (Vec.get x.v r) l = 0) ∧ x.qbuf = ⟨[], []⟩ ∧ x.tsync = [] ∧ x.slot ≠ .away
  others : ∀ a, (∀ w, w ∈ waves → a ≠ .group (s.launch id).pkg c w) → b.stream a = s.stream a ∧ b.group a = s.group a
  seeds : ∀ i n, i < 4 → logicalCore (s.pkg (s.launch id).pkg).muniment c = some n →
    Vec.get (b.core ((s.launch id).pkg, c)).conv i =
      if ∃ g, g < (s.launch id).groups ∧ g % 4 = i then seedOf (s.launch id).srseed n i else Vec.get (s.core ((s.launch id).pkg, c)).conv i
  cores : ∀ k, k ≠ ((s.launch id).pkg, c) → b.core k = s.core k

/-- A state in which queue `q` of a package was served last; the child queue takes no turn (R329). -/
def servedBy (p q : Nat) (s : State) : State := s.setPkg p { s.pkg p with served := if q < 64 then q else (s.pkg p).served }

/-- After a placement: the choice is spent, the queue was served, the cores held for the head are free, and a head whose blocks
all stand leaves its queue (R329, R331). -/
def HeadPlaced (p q id : Nat) (b t : State) : Prop :=
  let x := queueAt b p q
  let done := (b.launch id).redo = [] ∧ (b.launch id).count ≤ (b.launch id).next
  (∀ k, t.core k = if (b.core k).reserved = some (p, q) then { b.core k with reserved := none } else b.core k) ∧
  (¬done → t = { servedBy p q (withQueue p q { x with chosen := false, unplaced := 0 } b) with cores := t.cores }) ∧
  (done → t = { servedBy p q (withQueue p q { x with items := x.items.drop 1, eligible := false, chosen := false, unplaced := 0 } b) with cores := t.cores })

/-- One head comes before another in the distributor's order (R329). -/
def Precedes (s : State) (p a b : Nat) : Prop :=
  let turn (q : Nat) : Nat := (q + 63 - (s.pkg p).served % 64) % 64
  headPrio s (p, b) < headPrio s (p, a) ∨ (headPrio s (p, b) = headPrio s (p, a) ∧ (a = 64 ∨ (b ≠ 64 ∧ turn a < turn b)))

/-- The head that the distributor serves next: eligible, one that can be served, and before every other such (R329). -/
def Leads (s : State) (p q : Nat) : Prop :=
  q ≤ 64 ∧ headPrio s (p, q) ≤ 3 ∧ (queueAt s p q).eligible = true ∧ servable s p q = true ∧
  ∀ r, r ≤ 64 → r ≠ q → (queueAt s p r).eligible = true → servable s p r = true → Precedes s p q r

/-- The `n` blocks of a gang: as many of the launch's coming ones as follow each other and have a core (R181). -/
def GangOf (l : Launch) (cores n : Nat) : Prop :=
  let coming := ((l.redo ++ (List.range cores).map (· + l.next)).take cores).filter (· < l.count)
  n ≤ coming.length ∧ (coming ≠ [] → 0 < n) ∧ (∀ i, i + 1 < n → coming.getD (i + 1) 0 = coming.getD i 0 + 1) ∧
  (0 < n → n < coming.length → coming.getD n 0 ≠ coming.getD (n - 1) 0 + 1)

/-- A group has come back to the set of its issue slot that has room (R335). -/
def ComesBack (ag : Agent) (p c w : Nat) (pc : Word64) (s t : State) : Prop :=
  t = { s with streams := t.streams, groups := t.groups } ∧ (∀ a, a ≠ ag → t.stream a = s.stream a ∧ t.group a = s.group a) ∧
  t.stream ag = { s.stream ag with run := .running, spc := pc } ∧
  t.group ag = { s.group ag with slot := (t.group ag).slot, age := 0 } ∧
  (t.group ag).slot = if (slotGroups s (p, c) (w % 4) .active).length < 8 then .active else .pending

/-- The estimate of a block's remaining cycles, none for infinity (R350). -/
def estOf (expect rt e : Nat) : Option Nat := if expect = 0 ∨ rt = 0 ∨ expect ≤ rt then none else some (((expect - rt) * e + rt - 1) / rt)

/-- The mode of a unit of victims (R351). -/
def modeOf (s : State) (u : List Nat) (m : Preempt) : Prop :=
  let soon (b : Nat) : Prop := ∃ n, estOf (s.launch (s.block b).launch).expect (s.block b).rt (s.block b).e = some n ∧ n < 65536
  ((∀ b, b ∈ u → soon b) → m = .drain 0) ∧
  ((∃ b, b ∈ u ∧ ¬soon b) → m = if (s.launch (s.block (u.headD 0)).launch).idem then .flush else .save)

/-- A block that stands in no gang. -/
def Alone (s : State) (blk : Nat) : Prop := gangOfBlock s blk = [blk] ∧ ∀ m, m ∈ s.mccs → ∀ g, g ∈ m.2.gang → g.2 ≠ blk

/-- A group's context within the widths of its record (R359). -/
structure RecordFits (x : Stream × Group) : Prop where
  counts : x.1.ld < 256 ∧ x.1.st < 256 ∧ x.1.cp < 256 ∧ x.1.tl < 256
  rep : ∀ i n, x.2.rep = some (i, n) → i < 4 ∧ n < 256
  tsync : ∀ y, y ∈ x.2.tsync → y.1 < 8
  lengths : x.2.segq.length ≤ 4 ∧ x.2.parked.length ≤ 8
  splits : ∀ n sp, n < 4 → Vec.get x.2.splits n = some sp → sp.mask ≠ 0
  inSeg : x.2.inSeg = true ↔ ∃ n, n < 4 ∧ Vec.get x.2.splits n ≠ none

/-- The stream and group that come back are those that were saved: a `WAITY` that left its slot issues again, a `YIELD` stays
away at its continuation (R359, R362). -/
structure ContextBack (x z : Stream × Group) : Prop where
  pc : z.1.spc = match x.1.run with | .awayYield t => t | .awayWait _ _ _ _ => x.1.spc - 4 | _ => x.1.spc
  run : z.1.run = match x.1.run with | .awayYield t => .awayYield t | .ended => .ended | .fenced => .fenced | _ => .running
  regs : ∀ r, readS z.1 r = readS x.1 r
  status : z.1.mode = x.1.mode ∧ z.1.ext = x.1.ext ∧ z.1.fcnt = x.1.fcnt ∧ z.1.fstat = x.1.fstat
  trap : z.1.trappc = x.1.trappc ∧ z.1.trapcause = x.1.trapcause ∧ z.1.trapaddr = x.1.trapaddr
  counts : z.1.ld = x.1.ld ∧ z.1.st = x.1.st ∧ z.1.cp = x.1.cp ∧ z.1.tl = x.1.tl
  lanes : z.2.frame = x.2.frame ∧ z.2.live = x.2.live ∧ z.2.segq = x.2.segq ∧ z.2.inSeg = x.2.inSeg ∧ z.2.parked = x.2.parked ∧
    (∀ n, n < 4 → Vec.get z.2.splits n = Vec.get x.2.splits n) ∧ z.2.rep = x.2.rep ∧ z.2.tsync = x.2.tsync

/-- A fenced or lost package stays out of its panel until the panel's reset (R373). -/
def StaysOut (p : Nat) (s : State) : Prop := (s.pkg p).fenced = true ∨ p ∈ (s.panel (panelOf p)).lost

/-- A package comes up at a reset: its tables verify and, with the fault records folded in, lie within the limits, a flash bank
verifies, and it does not stay out of its panel (R373, R378, R381, R385). -/
def ComesUp (p : Nat) (s : State) : Prop :=
  let x := s.pkg p
  x.muniment.signed = true ∧ withinLimits (foldFaults x.faults x.muniment) = true ∧ (bootBank x).isSome = true ∧ ¬StaysOut p s

/-- What a reset of one package leaves (R378, R384 to R387). -/
structure PackageReset (p : Nat) (s t : State) : Prop where
  gone : (∀ e, e ∈ t.blocks → e.2.pkg ≠ p) ∧ (∀ e, e ∈ t.groups → agentPkg e.1 ≠ p) ∧
    (StaysOut p s → t.launches = s.launches ∧ ∀ e, e ∈ t.items → e.2.ctx.pkg = p → e.2.cc ≠ 0) ∧
    (¬StaysOut p s → (∀ e, e ∈ t.launches → e.2.pkg ≠ p) ∧ ∀ e, e ∈ t.items → e.2.ctx.pkg ≠ p)
  kept : ∀ k, keyTgt k ≠ 0 → t.mem.read k = s.mem.read k
  pools : ∀ c, (t.core (p, c)).wbuf = (s.core (p, c)).wbuf
  cores : ∀ c, t.core (p, c) = { Core.reset with wbuf := (s.core (p, c)).wbuf }
  mccs : ∀ c, t.mcc (p, c) = Mcc.reset
  ctls : ∀ i, t.ctl (p, i) = Ctl.reset
  keys : (t.pkg p).keys = [(0, ⟨some 0, (s.pkg p).nextMaterial⟩)] ∧ (s.pkg p).nextMaterial < (t.pkg p).nextMaterial
  phasers : ∀ n x y, Table.find? (s.pkg p).phasers n = some x → Table.find? (t.pkg p).phasers n = some y →
    y.live = false ∧ y.members = [] ∧ y.phase = 0 ∧ (x.live = true → x.gen < 4096 → y.gen ≠ x.gen)
  queues : (¬StaysOut p s → (∀ i, i < 64 → Vec.get (t.pkg p).queues i = LaunchQ.reset) ∧ (t.pkg p).child = LaunchQ.reset ∧ (t.pkg p).accepted = []) ∧
    (StaysOut p s → (t.pkg p).queues = (s.pkg p).queues ∧ (t.pkg p).child = (s.pkg p).child ∧ (t.pkg p).accepted = (s.pkg p).accepted)
  tables : (t.pkg p).muniment = foldFaults (s.pkg p).faults (s.pkg p).muniment ∧ (t.pkg p).faults = (if (s.pkg p).muniment.signed then [] else (s.pkg p).faults) ∧
    (t.pkg p).cyc = 0 ∧ (t.pkg p).go = 0 ∧ (t.pkg p).goRead = none ∧ (t.pkg p).mail = none ∧ (t.pkg p).step = 0 ∧
    (t.pkg p).devices = (s.pkg p).devices ∧ ∀ d n, (d, n) ∈ (t.pkg p).trained ↔ d < 4 ∧ Table.find? (s.pkg p).devices d = some n
  others : (∀ a, agentPkg a ≠ p → t.stream a = s.stream a ∧ t.group a = s.group a) ∧ (∀ q, q ≠ p → t.pkg q = s.pkg q) ∧ 
    ∀ k, k.1 ≠ p → t.mcc k = s.mcc k ∧
      t.core k = { s.core k with shadows := (t.core k).shadows }
  down : ¬ComesUp p s → (t.pkg p).present = false ∧ (t.pkg p).booted = false ∧ ∀ e, e ∈ t.streams → agentPkg e.1 ≠ p
  up : ComesUp p s → (t.pkg p).booted = true ∧ (∀ i, (∀ j, j < i → (t.pkg p).muniment.ctls.getD j 0 ≠ 1) → i < 32 → (t.pkg p).muniment.ctls.getD i 0 = 1 →
      t.stream (.ctl p i) = { Stream.reset with run := .running } ∧ (∀ j, i < j → j < 32 → (t.pkg p).muniment.ctls.getD j 0 = 1 → t.stream (.ctl p j) = Stream.reset)) ∧
    (∀ e, e ∈ t.streams → agentPkg e.1 = p → ∃ i, e.1 = .ctl p i)
  block : ComesUp p s → readCtl t p 0 4 = 0x544F4F42 ∧ readCtl t p 4 4 = 0 ∧ readCtl t p 8 8 = 0 ∧ readCtl t p 0x1000 4 = 0x43464447 ∧ readCtl t p 0x2000 4 = 0

/-- The boot block within the table of R387. -/
def BootBlockOk (p : Nat) (bs : List Byte) : Prop :=
  let own (align v : Nat) : Prop := v % align = 0 ∧ v / 2 ^ 36 = p % 64 ∧ v % 2 ^ 36 < ctlSize
  field bs 0 4 = 0x544F4F42 ∧ own 4096 (field bs 8 8) ∧ own 64 (field bs 0x10 8) ∧ field bs 0x18 8 % 4096 = 0 ∧ field bs 0x20 4 ≤ 1 ∧ field bs 0x24 28 = 0

/-- The engine of a package that is up has copied a mailbox with a command (R390). -/
def Mailbox (s : State) (p cmd : Nat) (mail : List Byte) : Prop :=
  pkgUp s p = true ∧ (s.pkg p).booted = true ∧ (s.pkg p).mail = some mail ∧ mail.length = 256 ∧ field mail 0 4 = cmd

/-- The engine's answer: STATUS, then CMD 0; it is idle again (R390). -/
def Answers (i : Instr) (p st : Nat) (s b : State) : Prop :=
  let t := writeCtl p 0x2000 (leBytes 4 0) (writeCtl p 0x2004 (leBytes 4 st) b)
  exec i s = .next (t.setPkg p { t.pkg p with mail := none })

/-- The page-table entry that stands at a key, read under slot 0 through the coherence protocol (R158, R289). -/
def entryAt (s : State) (p k : Nat) : Word64 := BitVec.ofNat 64 (leNat (readRange (folded (.phys k) s) (slotMaterial s p 0) k 8))

/-- A leaf of 2^pb bytes that breaks a rule of R291, with the PA range of its target (R285). -/
def LeafFaulty (s : State) (p : Nat) (control : Bool) (pb : Nat) (w : Word64) : Prop :=
  let geom := (w.extractLsb' 45 2).toNat
  let cls := (w.extractLsb' 43 2).toNat
  let tgt := (w.extractLsb' 41 2).toNat
  let pa := (w.extractLsb' 13 28).toNat * 65536
  let fv := w.getLsbD 47
  w.extractLsb' 5 2 ≠ 0 ∨ (w.extractLsb' 52 4 ≠ 0 ∧ geom = 0) ∨ (w.extractLsb' 48 4 ≠ 0 ∧ fv = false) ∨ (w.extractLsb' 8 5 ≠ 0 ∧ w.getLsbD 7 = false) ∨
  pa % 2 ^ pb ≠ 0 ∨
  (tgt = 0 ∧ ctlSize ≤ pa % 2 ^ 36) ∨ (tgt = 1 ∧ (s.pkg p).muniment.chans.length * 0x60000000 ≤ pa) ∨ (tgt = 2 ∧ ((s.pkg p).trained.map (·.2)).sum ≤ pa) ∨ tgt = 3 ∨
  (tgt = 0 ∧ 2 ^ 42 ≤ pa) ∨
  (control = true ∧ (tgt ≠ 0 ∨ cls ≠ 0 ∨ geom ≠ 0 ∨ fv = true ∨ w.getLsbD 7 = true)) ∨ (control = false ∧ tgt = 0) ∨
  (geom = 3 ∧ cls ≠ 1) ∨ (geom ≠ 0 ∧ fv = false) ∨ (2 ≤ cls ∧ (geom ≠ 0 ∨ fv = true))

/-- A pointer to a table of `size` bytes that breaks a rule of R291. -/
def PointerFaulty (size : Nat) (w : Word64) : Prop :=
  let next := (w.extractLsb' 7 29).toNat * 128
  w.extractLsb' 36 28 ≠ 0 ∨ w.extractLsb' 2 5 ≠ 0 ∨ next % size ≠ 0 ∨ ctlSize ≤ next

/-- What a walk finds from a table on: `leaf` and `next` are the page bits of a leaf and the size of the next table there
(R289 to R291, R293). -/
inductive WalkFinds (s : State) (p : Nat) (control : Bool) : List (Nat × Option Nat × Option Nat) → Nat → Except Nat Page → Prop
  | invalid : ∀ i leaf next r table, (entryAt s p (table + 8 * i)).getLsbD 0 = false → WalkFinds s p control ((i, leaf, next) :: r) table (.error 2)
  | leaf : ∀ i pb next r table w, w = entryAt s p (table + 8 * i) →
      w.getLsbD 0 = true → w.getLsbD 1 = true → ¬LeafFaulty s p control pb w → WalkFinds s p control ((i, some pb, next) :: r) table (.ok ⟨w, pb⟩)
  | badLeaf : ∀ i pb next r table w, w = entryAt s p (table + 8 * i) →
      w.getLsbD 0 = true → w.getLsbD 1 = true → LeafFaulty s p control pb w → WalkFinds s p control ((i, some pb, next) :: r) table (.error 3)
  | highLeaf : ∀ i next r table w, w = entryAt s p (table + 8 * i) →
      w.getLsbD 0 = true → w.getLsbD 1 = true → WalkFinds s p control ((i, none, next) :: r) table (.error 3)
  | lowPointer : ∀ i leaf r table w, w = entryAt s p (table + 8 * i) →
      w.getLsbD 0 = true → w.getLsbD 1 = false → WalkFinds s p control ((i, leaf, none) :: r) table (.error 3)
  | badPointer : ∀ i leaf size r table w, w = entryAt s p (table + 8 * i) →
      w.getLsbD 0 = true → w.getLsbD 1 = false → PointerFaulty size w → WalkFinds s p control ((i, leaf, some size) :: r) table (.error 3)
  | pointer : ∀ i leaf size r table x w, w = entryAt s p (table + 8 * i) →
      w.getLsbD 0 = true → w.getLsbD 1 = false → ¬PointerFaulty size w → WalkFinds s p control r (physKey p 0 ((w.extractLsb' 7 29).toNat * 128)) x →
      WalkFinds s p control ((i, leaf, some size) :: r) table x

/-- The indices of a walk, and what may stand at each level (R289). -/
def controlLevels (va : Word64) : List (Nat × Option Nat × Option Nat) :=
  [((va.extractLsb' 39 13).toNat, none, some 4096), ((va.extractLsb' 30 9).toNat, none, some 4096), ((va.extractLsb' 21 9).toNat, some 21, some 256),
   ((va.extractLsb' 16 5).toNat, some 16, none)]
def tensorLevels (va : Word64) : List (Nat × Option Nat × Option Nat) :=
  [((va.extractLsb' 61 1 ++ va.extractLsb' 43 10).toNat, none, some 4096), ((va.extractLsb' 34 9).toNat, none, some 4096),
   ((va.extractLsb' 25 9).toNat, some 25, some 128), ((va.extractLsb' 21 4).toNat, some 21, none)]

/-- Steps 3 to 11 of R293 in order for an access to a page, each with what it raises: whether it fails, class, detail. -/
def pageChecks (s : State) (c : Ctx) (u : Use) (p : Page) (off : Nat) : List (Bool × TrapClass × Nat) :=
  let w := p.leaf
  let geom := (w.extractLsb' 45 2).toNat
  let cls := (w.extractLsb' 43 2).toNat
  let fv := w.getLsbD 47
  let pg := u.ty == 13
  let fs := decide (16 ≤ u.ty)
  let el := slotOf c.slots (w.extractLsb' 48 4).toNat
  let scaleBytes := 2 ^ p.pb / quantum geom (match el with | some f => f.width | none => 8)
  let badScale := match slotOf c.slots (w.extractLsb' 52 4).toNat with | none => true | some f => f.sgn || f.man != 0
  let otherSize := match u.elem, el with | some n, some f => n != (if f.width ≤ 4 then 1 else 2) | _, _ => false
  [(c.user && !w.getLsbD 4, .protection, 1),
   ((u.write && !w.getLsbD 2) || (u.fetch && !w.getLsbD 3), .protection, 2),
   (u.write && cls == 2 && !u.item && (u.remote || !isCtl c.ag), .protection, 6),
   (match Table.find? (s.pkg c.pkg).keys (w.extractLsb' 56 8).toNat with | some k => k.job != some (jobOf c.ctxid) | none => true, .protection, 4),
   (w.getLsbD 7 && !u.lease, .protection, 5),
   ((pg || fs) && cls == 3, .protection, 0x17),
   (fs && (!fv || (w.extractLsb' 48 4).toNat != u.ty - 16), .protection, 7),
   (pg && (!fv || (geom != 0 && badScale) || otherSize), .protection, 9),
   ((pg || fs) && geom != 0 && decide (2 ^ p.pb - scaleBytes ≤ off), .protection, 8),
   ((pg || fs) && el.isNone, .illegal, 0)]

/-- R96: `LOOP` decrements s_a, then compares it with s_b, which it reads after that write. -/
def LoopCountsDown : Prop :=
∀ (s : State) (a b : SReg) (off : BitVec 14),
    let t := reg s a - 1
    let y := if b = a ∧ a ≠ 0 then t else reg s b
    let w := (0x16 : BitVec 6) ++ a ++ b ++ off
    let pc := (self s).spc
    Decodes w (.loop a b off) ∧
    (t ≠ y → TransfersOrTraps (.loop a b off) s (wordsFrom pc off) a t) ∧
    (t = y → Sets (.loop a b off) s a t 4) ∧
    (∀ hi : BitVec 26,
      (t ≠ y → TransfersOrTraps (.ext hi w) s (wordsFrom (pc + 4) (hi ++ off)) a t) ∧
      (t = y → Sets (.ext hi w) s a t 8)) ∧
    Decodes 0x58903FFE (.loop 9 0 0x3FFE)

/-- R97, R98: jumps and calls, alone and under an `EXT`; the link is written only where no trap is raised. -/
def JumpsAndCalls : Prop :=
∀ (s : State) (d a : SReg) (imm : BitVec 14) (off : BitVec 26),
    let pc := (self s).spc
    let jw := (0x18 : BitVec 6) ++ off
    let cw := (0x19 : BitVec 6) ++ off
    let rw := (0x1A : BitVec 6) ++ (0 : SReg) ++ a ++ imm
    let lw := (0x1B : BitVec 6) ++ d ++ a ++ imm
    Decodes jw (.j off) ∧ TransfersOrTraps (.j off) s (wordsFrom pc off) 0 0 ∧
    Decodes cw (.call off) ∧ TransfersOrTraps (.call off) s (wordsFrom pc off) 47 (pc + 4) ∧
    Decodes rw (.jr a imm) ∧ TransfersOrTraps (.jr a imm) s (reg s a + imm.signExtend 64) 0 0 ∧
    Decodes lw (.callr d a imm) ∧ TransfersOrTraps (.callr d a imm) s (reg s a + imm.signExtend 64) d (pc + 4) ∧
    (∀ hi : BitVec 26,
      TransfersOrTraps (.ext hi jw) s (wordsFrom (pc + 4) (hi ++ off)) 0 0 ∧
      TransfersOrTraps (.ext hi cw) s (wordsFrom (pc + 4) (hi ++ off)) 47 (pc + 8) ∧
      TransfersOrTraps (.ext hi rw) s (reg s a + (hi ++ imm).signExtend 64) 0 0 ∧
      TransfersOrTraps (.ext hi lw) s (reg s a + (hi ++ imm).signExtend 64) d (pc + 8)) ∧
    (∀ r : SReg, r ≠ 0 → Illegal ((0x1A : BitVec 6) ++ r ++ a ++ imm))

/-- R114, R115, R363: `MFS` reads the register its number names; PRIV in user mode where that is private, ILLEGAL where it names
none; a trap register with an uncorrectable error is an error of the context area. -/
def SystemRegistersRead : Prop :=
∀ (s : State) (d : SReg),
    let sound (n : Nat) : Prop := 0x11 ≤ n → n ≤ 0x13 → trapRegBad s s.cur = false
    let read (n : Nat) (v : Word64) : Prop := (privateRead n → sysMode s s.cur = true) → sound n → Sets (.mfs d (BitVec.ofNat 14 n)) s d v 4
    (∀ n, n < 2 ^ 14 → ¬readable n → Traps (.mfs d (BitVec.ofNat 14 n)) s .illegal 0 0) ∧
    (∀ n, privateRead n → sysMode s s.cur = false → Traps (.mfs d (BitVec.ofNat 14 n)) s .priv 0 0) ∧
    (∀ n, ¬sound n → sysMode s s.cur = true → exec (.mfs d (BitVec.ofNat 14 n)) s = .next (areaFault s.cur 7 (recordBase s s.cur) s)) ∧
    read 0x01 (cycleCount s) ∧ read 0x0E ((self s).mode.zeroExtend 64) ∧
    read 0x11 (self s).trappc ∧ read 0x12 ((self s).trapcause.zeroExtend 64) ∧ read 0x13 (self s).trapaddr ∧
    (∀ n, readable n → ∃ v, read n v) ∧
    (∀ p c w, s.cur = .group p c w → GroupIdentity s p c w read) ∧
    (∀ p c, s.cur = .mcc p c → MccIdentity s p c read) ∧
    (∀ p i, s.cur = .ctl p i → CtlIdentity s p i read) ∧
    Decodes 0xC0400008 (.mfs 4 8)

/-- R114, R116, R294, R341: `MTS` in system mode sets the register its number names and no other; a value outside the
register's range is ILLEGAL, and user mode is PRIV. -/
def SystemRegistersWrite : Prop :=
∀ (s : State) (a : SReg),
    let v := reg s a
    let mts (n : Nat) : Instr := .mts a (BitVec.ofNat 14 n)
    let sets (n : Nat) (f : State → Prop) : Prop := ∃ t, exec (mts n) s = .next t ∧ f t
    let step (x : Stream) (b t : State) : Prop := StreamStep b t ∧ self t = { x with spc := (self s).spc + 4 }
    (∀ n, n < 2 ^ 14 → ¬writable n → Traps (mts n) s .illegal 0 0) ∧
    (∀ n, writable n → n < 0x40 → sysMode s s.cur = false → Traps (mts n) s .priv 0 0) ∧
    (sysMode s s.cur = true →
      sets 0x11 (step { self s with trappc := v } s) ∧
      sets 0x12 (step { self s with trapcause := v.setWidth 32 } s) ∧
      sets 0x13 (step { self s with trapaddr := v } s) ∧
      (v.toNat % 4096 = 0 → sets 0x10 (fun t => BasesAre s t v (sideBase s s.cur) (saveBase s s.cur))) ∧
      (v.toNat % 4096 ≠ 0 → Traps (mts 0x10) s .illegal 0 0) ∧
      (controlBase 0x8000 v → sets 0x14 (fun t => BasesAre s t (trapBaseOf s s.cur) v (saveBase s s.cur))) ∧
      (¬controlBase 0x8000 v → Traps (mts 0x14) s .illegal 0 0) ∧
      (controlBase 0x200000 v → sets 0x17 (fun t => BasesAre s t (trapBaseOf s s.cur) (sideBase s s.cur) v)) ∧
      (¬controlBase 0x200000 v → Traps (mts 0x17) s .illegal 0 0) ∧
      (PtbaseLegal (agentPkg s.cur) v → sets 0x15 (fun t => ContextIs s t v (selfCtx s).ctxid)) ∧
      (¬PtbaseLegal (agentPkg s.cur) v → Traps (mts 0x15) s .illegal 0 0) ∧
      sets 0x16 (fun t => ContextIs s t (selfCtx s).ptbase (v.setWidth 32)) ∧
      (∀ b, b = (if v.getLsbD 1 = (self s).mode.getLsbD 1 then s else commitOwn s.cur s) → v.extractLsb' 2 6 = 0 → v.getLsbD 0 = true →
        sets 0x0E (step { self b with mode := v.setWidth 8 } b)) ∧
      (v.extractLsb' 2 6 ≠ 0 ∨ v.getLsbD 0 = false → Traps (mts 0x0E) s .illegal 0 0) ∧
      (isCtl s.cur = true → ∀ i, i < 16 → (v.setWidth 32 = (0 : Word32) ∨ slotOk (v.setWidth 32) = true) →
        sets (0x40 + i) (fun t => StreamStep { s with pkgs := t.pkgs } t ∧ self t = { self s with spc := (self s).spc + 4 } ∧
          t.pkg (agentPkg s.cur) = { s.pkg (agentPkg s.cur) with fmtDefault := Vec.set (s.pkg (agentPkg s.cur)).fmtDefault i (v.setWidth 32) } ∧
          ∀ p, p ≠ agentPkg s.cur → t.pkg p = s.pkg p)) ∧
      (isCtl s.cur = true → ∀ i, i < 16 → v.setWidth 32 ≠ (0 : Word32) → slotOk (v.setWidth 32) = false → Traps (mts (0x40 + i)) s .illegal 0 0)) ∧
    (isCtl s.cur = false → ∀ i, i < 16 → Traps (mts (0x40 + i)) s .illegal 0 0) ∧
    (isCtl s.cur = true → sysMode s s.cur = false → ∀ i, i < 16 → Traps (mts (0x40 + i)) s .priv 0 0)

/-- R341, R346, R347: on a compute core or an MCC a trap from user mode saves the registers in the record, sets the trap
registers, s60 to s63 and system mode, and goes to the vector of its class; a lane trap records its split and its lanes. The
record is written at both homes, and no other byte changes but those of the lines that its writes fold. -/
def TrapEntrySavesAndVectors : Prop :=
∀ (s : State) (ag : Agent) (t : Trap) (p : Place) (k : Nat), Canonical s → isCtl ag = false → sysMode s ag = false →
    areaPlace s ag true (recordBase s ag) = .ok p → p.loc = .phys k → (∀ i, i < 512 → goHeld s (k + i) = false) →
    let x := s.stream ag
    let base := recordBase s ag
    let landed := mapStream ag landFrame s
    let enters (lane : Bool) (split : Nat) : Prop :=
      let c := cause (classNum t.cls) t.detail (wslotOf ag) split
      let u := takeTrap ag t lane s
      Vectored ag t c s u ∧
      readS (u.stream ag) 60 = base ∧ readS (u.stream ag) 61 = c.zeroExtend 64 ∧ readS (u.stream ag) 62 = t.addr ∧ readS (u.stream ag) 63 = x.spc ∧
      (∀ r : SReg, r.toNat < 60 → readS (u.stream ag) r = readS x r) ∧
      recordField u p.mat k 0x00 4 = c.toNat ∧ recordField u p.mat k 0x08 8 = x.spc.toNat ∧ recordField u p.mat k 0x10 8 = t.addr.toNat ∧
      recordField u p.mat k 0x26 1 = t.pq.getD 0xFF % 256 ∧
      (∀ i, i < 4 → recordField u p.mat k (0x40 + 8 * i) 8 = (readS (landed.stream ag) (BitVec.ofNat 6 (60 + i))).toNat) ∧
      ∃ bs w, bs.length = 512 ∧ DeviceWritten p.mat k bs landed w ∧ u.mem = w.mem ∧ u.lineKeys = w.lineKeys
    (t.faults = [] → enters false 15 ∧
      let u := takeTrap ag t false s
      let again := if isGroup ag then (s.group ag).rep else none
      recordField u p.mat k 0x04 4 = (if again.isSome then 5 else 1) ∧ recordField u p.mat k 0x18 8 = 0 ∧ recordField u p.mat k 0x20 4 = 0 ∧
      (∀ j i, again = some (j, i) → recordField u p.mat k 0x24 1 = j % 256 ∧ recordField u p.mat k 0x25 1 = i % 256)) ∧
    (isGroup ag = true → ∀ id sp, lowestSplit (s.group ag) = some (id, sp) → enters true id ∧
      let u := takeTrap ag t true s
      let again := match (s.group ag).rep with | some (j, i) => if j = id then some i else none | none => none
      recordField u p.mat k 0x04 4 = (if again.isSome then 7 else 3) ∧ recordField u p.mat k 0x18 8 = sp.lpc.toNat ∧
      recordField u p.mat k 0x24 1 = id ∧ recordField u p.mat k 0x25 1 = again.getD 0 % 256 ∧
      (∀ l, l < 32 → (recordField u p.mat k 0x20 4).testBit l = t.faults.any (fun f => f.lane == l)) ∧
      ∀ l f, l < 32 → t.faults.find? (fun f => f.lane == l) = some f →
        recordField u p.mat k (0x80 + 8 * l) 8 = f.addr.toNat ∧
        recordField u p.mat k (0x180 + 4 * l) 4 = (cause (classNum f.cls) f.detail 0 0).toNat)

/-- R341, R349: a control core enters its handler in any mode and keeps s60 to s63; a group or an MCC that traps in system
mode ends failed, its block or every block of its gang with the status of the class. -/
def TrapsInSystemMode : Prop :=
(∀ (s : State) (p i : Nat) (t : Trap) (lane : Bool), let u := takeTrap (.ctl p i) t lane s
    Vectored (.ctl p i) t (cause (classNum t.cls) t.detail 0xFE 15) s u ∧ (u.stream (.ctl p i)).s = (s.stream (.ctl p i)).s ∧
    u = { s with streams := u.streams }) ∧
  (∀ (s : State) (p c w : Nat) (t : Trap) (lane : Bool), sysMode s (.group p c w) = true →
    GroupEndedFailed (.group p c w) (endStatus (classNum t.cls)) s (takeTrap (.group p c w) t lane s)) ∧
  (∀ (s : State) (p c : Nat) (t : Trap) (lane : Bool), sysMode s (.mcc p c) = true →
    let u := takeTrap (.mcc p c) t lane s
    (u.stream (.mcc p c)).run = .ended ∧ (u.mcc (p, c)).endstat = endStatus (classNum t.cls) ∧
    ∀ b, b ∈ (s.mcc (p, c)).gang.map (·.2) → (Table.find? s.blocks b).isSome →
      (u.block b).status = if (s.block b).status = 0 then endStatus (classNum t.cls) else (s.block b).status)

/-- A record at a place, read once the shadows of its line are folded (R346). -/
def recordAt (s : State) (p : Place) (k off n : Nat) : Nat := recordField (folded p.loc s) p.mat k off n

/-- `TRET` has left a handler whose record stands at key `k`: the stream is as the record and TRAPPC say, its `BAR.WAIT` waits on
where it is what TRAPPC names, VALID is clear at both homes, and nothing else of the stream changes (R117, R344, R348). -/
structure HandlerLeft (p : Place) (k : Nat) (s u : State) : Prop where
  regs : ∀ r : SReg, readS (self u) r =
    if 60 ≤ r.toNat then BitVec.ofNat 64 (recordAt s p k (0x40 + 8 * (r.toNat - 60)) 8) else readS (self s) r
  stream : self u = { self s with
    s := (self u).s, mode := (self s).mode &&& 0xFE, spc := (self s).trappc,
    half := ((self s).kept.filter (fun h => h.2 == (self s).trappc)).map (·.1), kept := none }
  valid : ∃ bs w, bs = leBytes 1 (recordAt s p k 4 1 / 2 * 2) ∧ DeviceWritten p.mat (k + 4) bs (folded p.loc s) w ∧ u.mem = w.mem ∧ u.lineKeys = w.lineKeys
  others : ∀ a, a ≠ s.cur → u.stream a = s.stream a ∧ u.group a = s.group a

/-- R112: `WAIT` goes on where the four counters are within its operands and stalls otherwise, raising no trap. -/
def WaitStallsOnCounters : Prop :=
∀ (s : State) (ld st : BitVec 6) (cp tl : BitVec 5), isCtl s.cur = false →
    ((self s).ld ≤ ld.toNat ∧ (self s).st ≤ st.toNat ∧ (self s).cp ≤ cp.toNat ∧ (self s).tl ≤ tl.toNat → Passes (.wait ld st cp tl) s 4) ∧
    (¬((self s).ld ≤ ld.toNat ∧ (self s).st ≤ st.toNat ∧ (self s).cp ≤ cp.toNat ∧ (self s).tl ≤ tl.toNat) → exec (.wait ld st cp tl) s = .next s) ∧
    Decodes ((0x2F : BitVec 6) ++ ld ++ st ++ cp ++ tl ++ (0 : BitVec 4)) (.wait ld st cp tl) ∧
    Decodes 0xBC003FF0 (.wait 0 0 31 31)

/-- R63, R113, R345: `WAITY` goes on as `WAIT` does, or the group leaves its slot until the counters fall; control cores and
handlers of groups reject it, and control cores reject `WAIT`. -/
def WaityLeavesTheSlot : Prop :=
∀ (s : State) (ld st : BitVec 6) (cp tl : BitVec 5),
    let met := (self s).ld ≤ ld.toNat ∧ (self s).st ≤ st.toNat ∧ (self s).cp ≤ cp.toNat ∧ (self s).tl ≤ tl.toNat
    let i : Instr := .waity ld st cp tl
    (isCtl s.cur = true → Traps i s .illegal 0 0 ∧ Traps (.wait ld st cp tl) s .illegal 0 0) ∧
    (isGroup s.cur = true → sysMode s s.cur = true → Traps i s .illegal 0 0) ∧
    (isCtl s.cur = false → (isGroup s.cur = true → sysMode s s.cur = false) →
      (met → Passes i s 4) ∧
      (¬met → isMcc s.cur = true ∨ (selfGroup s).segq ≠ [] → exec i s = .next s) ∧
      (¬met → isMcc s.cur = false → (selfGroup s).segq = [] →
        ∃ t, exec i s = .next t ∧ GroupStep s t ∧
          self t = { self s with spc := (self s).spc + 4, run := .awayWait ld.toNat st.toNat cp.toNat tl.toNat } ∧
          selfGroup t = { selfGroup s with slot := .away, age := 0 }))

/-- R104, R105, R106: `QSET` writes one field of a staged descriptor; `QGO` starts, queues or ends a stream; both are for
groups in user mode alone, and a value outside the tables is ILLEGAL. -/
def QueuesAreStagedAndStarted : Prop :=
∀ (s : State) (d a : SReg) (n fld : BitVec 3),
    let q := Vec.get (selfGroup s).queues n.toNat
    let P := (reg s a).toNat
    (¬UserGroup s → Traps (.qset d a n fld) s .illegal 0 0 ∧ Traps (.qgo a n) s .illegal 0 0) ∧
    (UserGroup s → fld ≠ 7 →
      (∀ q', Staged fld.toNat (reg s a) (reg s d) q.staged q' → ∃ t, exec (.qset d a n fld) s = .next t ∧ QueueStep n.toNat { q with staged := q' } 4 s t) ∧
      ((∀ q', ¬Staged fld.toNat (reg s a) (reg s d) q.staged q') → Traps (.qset d a n fld) s .illegal 0 0)) ∧
    (UserGroup s →
      (q.staged.base = none ∨ 2 ^ 32 ≤ P → Traps (.qgo a n) s .illegal n.toNat 0) ∧
      (q.staged.base.isSome → P = 0 →
        ∃ t, exec (.qgo a n) s = .next t ∧ QueueStep n.toNat { q with running := none, pending := none, entries := sound q.entries } 4 s t) ∧
      (q.staged.base.isSome → 0 < P → P < 2 ^ 32 → q.staged.handle = 0 → ∀ q', Started ⟨q.staged, P, 0, 0, none, 0, none⟩ q q' →
        ∃ t, exec (.qgo a n) s = .next t ∧ QueueStep n.toNat q' 4 s t) ∧
      (q.staged.base.isSome → 0 < P → P < 2 ^ 32 → q.running.isSome → q.pending.isSome → exec (.qgo a n) s = .next s) ∧
      (q.staged.base.isSome → 0 < P → P < 2 ^ 32 → q.staged.handle ≠ 0 →
        ∀ r s1 o q', snapshot (selfCtx s) q.staged.handle.toNat s = .ok (r, s1) → streamOrigin (selfCtx s1) s1 q.staged r = .ok o →
          Started ⟨q.staged, P, 0, 0, some r, o, none⟩ q q' → ∃ t, exec (.qgo a n) s = .next t ∧ QueueStep n.toNat q' 4 s1 t)) ∧
    Decodes 0xB0B29200 (.qset 11 10 2 2) ∧ Decodes 0xB4030002 (.qgo 12 2)

/-- R12, R110, R111, R345: `LRUN` queues a segment; a segment begins at its start with one split of every lane once the one
before it has left. -/
def SegmentsQueueAndBegin : Prop :=
(∀ (s : State) (off : BitVec 26) (hi : BitVec 26), UserGroup s →
    QueuesSegment (.lrun off) (off.zeroExtend 64) 4 s ∧
    QueuesSegment (.ext hi ((0x2E : BitVec 6) ++ off)) ((hi ++ off).zeroExtend 64) 8 s) ∧
  (∀ (s : State) (off : BitVec 26), ¬UserGroup s → Traps (.lrun off) s .illegal 0 0) ∧
  (∀ (s : State) (ag : Agent) (seg : Segment) (rest : List Segment), isGroup ag = true → sysMode s ag = false →
    (s.group ag).segq = seg :: rest → (s.group ag).inSeg = false →
    ∃ t, exec (.segmentBegin ag) s = .next t ∧ LaneStreamStep ag s t ∧
      t.group ag = { s.group ag with
        inSeg := true, frame := seg.frame, live := 0xFFFFFFFF, parked := [], rep := none
        splits := Vec.set (Vector.replicate 4 none) 0 (some (firstSplit (seg.start - (s.launch (s.block (s.group ag).block).launch).lcode))) }) ∧
  Decodes 0xB800000C (.lrun 12)

/-- R163, R164: a fence drains, commits the group's buffer, and goes on once every write of the stream is performed. -/
def FencesCommitAndWait : Prop :=
∀ (s : State) (scope : BitVec 3),
    (¬Drained s → exec (.fence scope) s = .next s) ∧
    (Drained s →
      let b := commitOwn s.cur s
      (isGroup s.cur = true → (selfGroup b).qbuf = ⟨[], []⟩) ∧ (isGroup s.cur = false → b = s) ∧
      ((self b).uw = 0 → ∃ t, exec (.fence scope) s = .next t ∧ RegWrite 0 0 4 b t) ∧
      ((self b).uw ≠ 0 → exec (.fence scope) s = .next b)) ∧
    (6 ≤ scope.toNat → Illegal ((0x34 : BitVec 6) ++ (0 : BitVec 23) ++ scope)) ∧
    Decodes 0xD0000001 (.fence 1) ∧ Decodes 0xD0000005 (.fence 5)

/-- R164: a commit writes the buffer's bits to memory and empties it; no other byte changes. The write-back counts until it
is acknowledged. -/
def CommitWritesTheBuffer : Prop :=
∀ (s : State) (p c w : Nat) (m : Under), Canonical s → s.cur = .group p c w →
    let q := (selfGroup s).qbuf
    let ks := putKeys (bufferPuts s s.cur q)
    let base := foldKeys ks s
    let t := commitOwn s.cur s
    q ≠ ⟨[], []⟩ → q.partials = [] → PlainBuffer m q → (∀ x, x ∈ q.bytes → qbufBad s s.cur x.loc = false) →
    (selfGroup t).qbuf = ⟨[], []⟩ ∧ (self t).uw = (self s).uw + 1 ∧ (self t).st = (self s).st ∧
    (∀ x k, x ∈ q.bytes → x.loc = .phys k → goHeld s k = false → readByte t m k = mergeByte x.mask x.val (readByte base m k)) ∧
    (∀ x o, x ∈ q.bytes → x.loc = .scr o → (Table.find? s.blocks (selfGroup s).block).isSome →
      (t.block (selfGroup s).block).scratch.read o = mergeByte x.mask x.val ((s.block (selfGroup s).block).scratch.read o)) ∧
    (∀ j, j ∉ ks → readByte t m j = readByte base m j) ∧
    (∀ mat j, (∀ k, k ∈ ks → j / 128 ≠ k / 128) → readByte t mat j = readByte base mat j)

/-- R168, R169: phasers are allocated, freed, joined and left; misuse raises the traps of R180. -/
def PhasersAreJoinedAndLeft : Prop :=
∀ (s : State) (d a b : SReg),
    let v := reg s a
    let r := handleOf s v
    let x := phaserAt s r
    (¬Drained s → exec (.phsig a b) s = .next s ∧ exec (.phsw d a b) s = .next s) ∧
    let goes (i : Instr) (y : Phaser) : Prop := ∃ t, exec i s = .next t ∧ PhaserStep r y 0 0 s t
    (v.extractLsb' 1 63 ≠ 0 → Traps (.phnew d a) s .illegal 0 0) ∧
    (v.extractLsb' 1 63 = 0 → freePhaser s (agentPkg s.cur) (agentDie s.cur) = none → Sets (.phnew d a) s d 0 4) ∧
    (v.extractLsb' 1 63 = 0 → ∀ n, freePhaser s (agentPkg s.cur) (agentDie s.cur) = some n →
      let y : PhaserRef := ⟨agentPkg s.cur, n, (phaserAt s ⟨agentPkg s.cur, n, 0⟩).gen⟩
      ∃ t, exec (.phnew d a) s = .next t ∧
        PhaserStep y ⟨y.gen, true, v.getLsbD 0, 0, 0, none, [], false, none⟩ d ((refHandle y).zeroExtend 64) s t) ∧
    (¬HandleOk s v → ¬HandleLost s v →
      Traps (.phfree a) s .sync 0x20 0 ∧ Traps (.phdrop a) s .sync 0x20 0 ∧ Traps (.phwait d a) s .sync 0x20 0 ∧
      (Drained s → Traps (.phsig a b) s .sync 0x20 0 ∧ Traps (.phsw d a b) s .sync 0x20 0) ∧
      (reg s b ≠ 0 → (reg s b).toNat < 4 → Traps (.phreg a b) s .sync 0x20 0)) ∧
    (v.extractLsb' 32 32 = 0 → v.extractLsb' 0 12 ≠ 0 → HandleLost s v →
      Traps (.phwait d a) s .remote 0x30 0 ∧ (Drained s → Traps (.phsig a b) s .remote 0x30 0 ∧ Traps (.phsw d a b) s .remote 0x30 0) ∧
      (reg s b ≠ 0 → (reg s b).toNat < 4 → Traps (.phreg a b) s .remote 0x30 0)) ∧
    (HandleOk s v →
      (x.members ≠ [] → Traps (.phfree a) s .sync 0x24 0) ∧
      (x.members = [] → goes (.phfree a) { x with live := false, gen := if x.gen = 4095 then 1 else x.gen + 1 }) ∧
      (memberOf s r = none → Traps (.phdrop a) s .sync 0x21 0) ∧
      ((memberOf s r).isSome → ∃ z, Completes { x with members := x.members.filter (fun m => !isMe s m) } z ∧ goes (.phdrop a) z) ∧
      (reg s b = 0 ∨ 4 ≤ (reg s b).toNat → Traps (.phreg a b) s .illegal 0 0) ∧
      (reg s b ≠ 0 → (reg s b).toNat < 4 → ¬HandleLost s v →
        ((memberOf s r).isSome → Traps (.phreg a b) s .sync 0x22 0) ∧
        (memberOf s r = none → 65535 ≤ x.members.length → Traps (.phreg a b) s .sync 0x23 0) ∧
        (memberOf s r = none → x.members.length < 65535 →
          let first := if x.signalled then x.phase + 1 else x.phase
          goes (.phreg a b) { x with members := x.members ++
            [⟨s.cur, memberBlock s, (reg s b).getLsbD 0, (reg s b).getLsbD 1, first, first⟩] })))

/-- R167, R168, R169: a signal drains, commits and combines its value into the phase it signals; a phase completes when every
signalling member has signalled it; a wait returns the newest completed phase with its gather word and is an acquire; `PHSW` is
the one after the other. That a value gathers into a phase that opens with 0, and that a wait counts from the member's
position, are the model's readings (log entry 24). -/
def PhasersSignalAndWait : Prop :=
∀ (s : State) (d a b : SReg) (m : Member),
    let v := reg s a
    let r := handleOf s v
    let x := phaserAt s r
    let c := commitOwn s.cur s
    let y := phaserAt c r
    HandleOk s v → ¬HandleLost s v → memberOf s r = some m →
    (m.waits = false → Traps (.phwait d a) s .sync 0x21 0) ∧
    (Drained s → m.signals = false → Traps (.phsig a b) s .sync 0x21 0) ∧
    (Drained s → m.signals = false ∨ m.waits = false → Traps (.phsw d a b) s .sync 0x21 0) ∧
    (m.signals = true → Drained s → (self c).uw ≠ 0 → exec (.phsig a b) s = .next c) ∧
    (m.signals = true → Drained s → (self c).uw = 0 → m.next < y.phase + 2 →
      ∃ z, Signals (isMe c) m ((reg s b).setWidth 32) y z ∧
        (∃ t, exec (.phsig a b) s = .next t ∧ PhaserStep r z 0 0 c t) ∧
        (m.waits = true → (self s).half = none → exec (.phsw d a b) s = .next (mapSelf (fun z => { z with half := some m.next }) (setPhaser r z c)))) ∧
    (m.signals = true → Drained s → (self c).uw = 0 → y.phase + 2 ≤ m.next → exec (.phsig a b) s = .next s) ∧
    (∀ n g, x.newest = some (n, g) →
      let taken : Phaser := { x with members := x.members.map (fun k => if isMe s k then { k with pos := n + 1 } else k) }
      let word : Word64 := BitVec.ofNat 32 n ++ g
      let returns (i : Instr) : Prop := ∃ u t, Acquires s.cur s u ∧ exec i s = .next t ∧
        RegWrite d word 4 (setPhaser r taken (mapSelf (fun z => { z with half := none }) u)) t
      (m.waits = true → m.pos ≤ n → returns (.phwait d a)) ∧
      (m.waits = true → n < m.pos → exec (.phwait d a) s = .next s) ∧
      (Drained s → m.waits = true → m.signals = true → ∀ h, (self s).half = some h → h ≤ n → returns (.phsw d a b)) ∧
      (Drained s → m.waits = true → m.signals = true → ∀ h, (self s).half = some h → n < h → exec (.phsw d a b) s = .next s)) ∧
    (x.newest = none → m.waits = true → exec (.phwait d a) s = .next s)

/-- R151, R152, R153, R154, R90: the short scalar atomic. -/
def ShortAtomicsModifyMemory : Prop :=
∀ (s : State) (d a b : SReg) (code ty : BitVec 4), Canonical s → (Instr.atomShort d a b code ty).wf = true →
    let t := [7, 11, 8, 12, 1, 0].getD ty.toNat 0
    let n := atomBits t / 8
    let i : Instr := .atomShort d a b code ty
    (∀ p, atomPlace s (selfCtx s) t (reg s a) n = .ok p →
      (AtomReady s p n → ∃ u, exec i s = .next u ∧ AtomDone (atomCode code.toNat) t d (reg s b) (reg s d) 4 p s u) ∧
      (63 ≤ (self s).st ∨ lineFull s (selfCtx s) p.loc = false → exec i s = .next s) ∧
      KeepsError i s p n [d.toNat] (reg s a) 4) ∧
    (∀ x, atomPlace s (selfCtx s) t (reg s a) n = .error (.trap x) → exec i s = .next (takeTrap s.cur x false s)) ∧
    (∀ sp, decodeVa (selfCtx s) (reg s a) n = .ok sp → (reg s a).toNat % n ≠ 0 → Traps i s .protection 0x11 (reg s a)) ∧
    Decodes 0xDC414603 (.atomShort 4 5 6 0 3)

/-- R153, R155, R308: the long scalar atomic; a release form first commits and waits until the stream's writes are performed,
an acquire form drops the clean lines of its core. -/
def LongAtomicsOrderAndModify : Prop :=
∀ (s : State) (w : LongWord), Canonical s → (Instr.atomLong w).wf = true →
    let t := w.ty.toNat
    let n := atomBits t / 8
    let op := atomCode (w.aux.extractLsb' 4 4).toNat
    let cas := op = .cas
    let va := if cas then reg s w.a else reg s w.a + reg s w.c
    let release := w.aux.getLsbD 3
    let acquire := w.aux.getLsbD 2
    let b := if release then commitOwn s.cur s else s
    (∀ p, atomPlace s (selfCtx s) t va n = .ok p → (release = true → (self b).uw = 0) → AtomReady b p n →
      ∃ u t', AtomDone op t w.d (if cas then reg s w.c else reg s w.b) (reg s w.b) 8 p b u ∧
        exec (.atomLong w) s = .next t' ∧ if acquire then Acquires s.cur u t' else t' = u) ∧
    (∀ p, atomPlace s (selfCtx s) t va n = .ok p → release = true → (self b).uw ≠ 0 → exec (.atomLong w) s = .next b) ∧
    (∀ x, atomPlace s (selfCtx s) t va n = .error (.trap x) → exec (.atomLong w) s = .next (takeTrap s.cur x false s))

/-- R161, R162: `CHUNK` draws the next chunk of a trough counter in one step, and delivers its start and its count. -/
def ChunkDrawsFromTheCounter : Prop :=
∀ (s : State) (d a b : SReg) (p : Place) (k : Nat), Canonical s →
    let c := selfCtx s
    let f := foldAt p.loc s
    let num (off n : Nat) : Nat := leNat (readRange f p.mat (k + off) n)
    let rem := num 0 8
    let next := num 8 8
    let most := max (max (num 0x14 4) 1) ((rem + num 0x18 1 * max (num 0x10 4) 1 - 1) / (num 0x18 1 * max (num 0x10 4) 1))
    let n := if rem = 0 then 0 else min rem most
    ((reg s a).toNat % 32 ≠ 0 → ∀ sp, decodeVa c (reg s a) 32 = .ok sp → Traps (.chunk d a b) s .protection 0x11 (reg s a)) ∧
    (place s c { write := true } (reg s a) 32 = .ok p → watched s c {} (reg s a) 32 = false → p.loc = .phys k → (reg s a).toNat % 32 = 0 → (self s).ld < 63 →
      (∀ i, i < 32 → goHeld s (k + i) = false) →
      (num 0x18 1 = 0 ∨ 8 < num 0x18 1 ∨ num 0x19 7 ≠ 0 → Traps (.chunk d a b) s .protection 0x12 0) ∧
      (1 ≤ num 0x18 1 → num 0x18 1 ≤ 8 → num 0x19 7 = 0 →
        ∃ u op, exec (.chunk d a b) s = .next u ∧ (∀ ag, ag ≠ s.cur → u.stream ag = s.stream ag ∧ u.group ag = s.group ag) ∧
          self u = { self s with spc := (self s).spc + 4, ld := (self s).ld + 1, loads := (self s).loads ++ [op], await := (self s).await ++ destRegs op.dests } ∧
          op.dests = [.s d (BitVec.ofNat 64 next), .s b (BitVec.ofNat 64 n)] ∧
          leNat (readRange u p.mat k 8) = rem - n ∧ leNat (readRange u p.mat (k + 8) 8) = (next + n) % 2 ^ 64 ∧
          ∀ j, j < k ∨ k + 16 ≤ j → (isHome k = true → ∀ i, i < 16 → j / 128 ≠ annexKey (k + i) / 128) → readByte u p.mat j = readByte (foldKeys (putKeys (putsAt p.mat p.loc (List.replicate 16 0))) f) p.mat j))

/-- R179, R308: `CCRD` delivers a completion counter, `CCWT` waits until it is low enough; both are acquires and reach control
space alone. An uncorrectable error is kept for the register by the one and raised by the other (R90, R302). -/
def CompletionCountersAreRead : Prop :=
∀ (s : State) (w : LongWord),
    let c := selfCtx s
    let va := reg s w.a
    let ok (p : Place) : Prop := va.toNat < 2 ^ 52 ∧ va.toNat % 8 = 0 ∧ translate s c {} va (.control va.toNat) = .ok p ∧ watched s c {} va 8 = false
    let v (p : Place) : Nat := leNat (readPlace (folded p.loc s) c p 8)
    (∀ p, ok p → (self s).ld < 63 →
      ∃ u t op, Acquires s.cur (folded p.loc s) u ∧ exec (.ccrd w) s = .next t ∧ op.dests = [.s w.d (BitVec.ofNat 64 (v p))] ∧ StreamStep u t ∧
        (badAt s c p.loc 8 = none ↔ op.err = none) ∧
        self t = { self s with spc := (self s).spc + 8, ld := (self s).ld + 1, loads := (self s).loads ++ [op], await := (self s).await ++ destRegs op.dests }) ∧
    (∀ p, ok p → 63 ≤ (self s).ld → exec (.ccrd w) s = .next s) ∧
    (∀ p, ok p → badAt s c p.loc 8 = none →
      (v p ≤ (reg s w.b).toNat → ∃ u t, Acquires s.cur (folded p.loc s) u ∧ exec (.ccwt w) s = .next t ∧ RegWrite 0 0 8 u t) ∧
      ((reg s w.b).toNat < v p → exec (.ccwt w) s = .next s)) ∧
    (∀ p k, ok p → badAt s c p.loc 8 = some k → Traps (.ccwt w) s .memerr k va) ∧
    (va.toNat < 2 ^ 52 → va.toNat % 8 ≠ 0 → Traps (.ccrd w) s .protection 0x15 va ∧ Traps (.ccwt w) s .protection 0x15 va) ∧
    (va.extractLsb' 62 2 = 1 → Traps (.ccrd w) s .protection 0x15 va ∧ Traps (.ccwt w) s .protection 0x15 va)

/-- R318 to R323, R326, R328: the front end consumes ring entries: a SKIP does nothing, a GATE, a LAUNCH and a COPY stand at the end of
the hardware launch queue, a bad entry is recorded as a failure. What is read is folded first. -/
def RingEntriesAreConsumed : Prop :=
∀ (s : State) (p q head : Nat) (bs : List Byte), NextEntry s p q head bs →
    let x := queueAt s p q
    let c := deviceCtx s p x.ctxid x.ptbase
    let obj : Word64 := BitVec.ofNat 64 (field bs 8 8)
    let cc : Word64 := BitVec.ofNat 64 (field bs 0x10 8)
    let after := field bs 1 1 == 1
    let id := s.nextId
    (RingEntryOk bs → field bs 0 1 = 0 → Consumes (.ringEntrySkip p q) p q head s s) ∧
    (RingEntryOk bs → field bs 0 1 = 3 → Consumes (.ringEntryGate p q) p q head s (withQueue p q { x with items := x.items ++ [.gate (gatesOf bs) x.ctxid x.ptbase] } s)) ∧
    (∀ rec', field bs 0 1 = 1 → readVia s c 256 obj 256 = .ok rec' →
      let l := parseLaunch s p (some q) obj x.ctxid x.ptbase x.qprio rec'
      let b0 := { s with nextId := id + 1 }.setLaunch id l
      let b := foldReads (launchCtx b0 l) ([obj, obj + 128, l.cc] ++ chainRecords b0 (launchCtx b0 l) 4 l.cc) b0
      let rejects (i : Instr) (v : State) : Prop :=
        (∀ r pl t, counterOf v l = .ok r → controlPlace v (launchCtx v l) true 32 l.cc = .ok pl →
          endUnplaced id 5 (putDevice pl (leBytes 8 l.count) v) = .ok t → Consumes i p q head s t) ∧
        (∀ e, counterOf v l = .error e → Consumes i p q head s (queueFail p q 5 v))
      (IsLaunch rec' l ∧ l.queue = some q ∧ l.ctxid = x.ctxid ∧ l.ptbase = x.ptbase ∧ l.prio = min (field rec' 0x2E 1 % 4) x.qprio) ∧
      (RingEntryOk bs → ∀ r rows b1 es, counterOf b l = .ok r → launchOk l rec' = true → field r 0 8 = l.count →
        readRows l (List.range l.nsched) b = .ok (rows, b1) → readSchedule { l with rows := rows } 0 rows b1 = .ok es →
        let b2 := b1.setLaunch id { l with rows := rows }
        let up : Word64 := BitVec.ofNat 64 (field r 8 8)
        (l.count = 0 → up = 0 → Consumes (.ringEntryLaunch p q) p q head s b2) ∧
        (l.count = 0 → up ≠ 0 → ∀ t, endRecord (launchCtx b2 l) 64 up 0 b2 = .ok (none, t) → Consumes (.ringEntryLaunch p q) p q head s t) ∧
        (l.count ≠ 0 → chainCancelled b2 (launchCtx b2 l) 4 l.cc = false →
          Consumes (.ringEntryLaunch p q) p q head s (withQueue p q { x with items := x.items ++ [.launch id (gatesOf bs) after] }
            (b2.setPkg p { b2.pkg p with accepted := (b2.pkg p).accepted ++ [id] }))) ∧
        (l.count ≠ 0 → chainCancelled b2 (launchCtx b2 l) 4 l.cc = true → ∀ t, endUnplaced id 8 b2 = .ok t → Consumes (.ringEntryLaunch p q) p q head s t)) ∧
      (RingEntryOk bs → (∀ r, counterOf b l = .ok r → launchOk l rec' = false ∨ field r 0 8 ≠ l.count ∨
          (∃ e, readRows l (List.range l.nsched) b = .error e) ∨
          ∃ rows b1 e, readRows l (List.range l.nsched) b = .ok (rows, b1) ∧ readSchedule { l with rows := rows } 0 rows b1 = .error e) →
        rejects (.ringEntryLaunch p q) b) ∧
      (¬RingEntryOk bs → rejects (.ringEntryFailure p q) b0)) ∧
    (∀ ds, RingEntryOk bs → field bs 0 1 = 2 → readDesc s c obj = .ok ds → ∃ d, IsCopy ds d ∧
      let f := foldReads c (obj :: chainRecords s c 4 cc) s
      (copyOk p ds = false → ∀ t, endRecord c 64 cc 5 f = .ok (none, t) → Consumes (.ringEntryCopy p q) p q head s t) ∧
      (copyOk p ds = true → ∀ e t, recordPlace f c d.crec = .error (.trap e) → endRecord c 64 cc 6 f = .ok (none, t) →
        Consumes (.ringEntryCopy p q) p q head s t) ∧
      (copyOk p ds = true → ∀ r, recordPlace f c d.crec = .ok r →
        let y : RingCopy := ⟨id, d, r, field bs 2 1, cc, gatesOf bs, after, x.ctxid, x.ptbase⟩
        let b := { f with nextId := id + 1 }
        (chainCancelled b c 4 cc = true → ∀ t, endRingCopy p q y 8 b = .ok t → Consumes (.ringEntryCopy p q) p q head s t) ∧
        (chainCancelled b c 4 cc = false →
          let v := withQueue p q { x with items := x.items ++ [.copy y] } b
          Consumes (.ringEntryCopy p q) p q head s (v.setPkg p { v.pkg p with accepted := (v.pkg p).accepted ++ [id] })))) ∧
    (¬RingEntryOk bs → field bs 0 1 ≠ 1 → field bs 0 1 ≠ 2 → Consumes (.ringEntryFailure p q) p q head s (queueFail p q 5 s)) ∧
    (∀ e, field bs 0 1 = 1 → readVia s c 256 obj 256 = .error (.trap e) →
      let denied := RingEntryOk bs ∧ (e.cls = .translation ∨ e.cls = .protection)
      (denied → Consumes (.ringEntryFailure p q) p q head s (queueFail p q 6 s)) ∧ (¬denied → Consumes (.ringEntryFailure p q) p q head s (queueFail p q 5 s))) ∧
    (∀ st : Word16, field bs 0 1 = 2 → (¬RingEntryOk bs ∧ st = 5) ∨ (RingEntryOk bs ∧ ∃ e, readDesc s c obj = .error (.trap e) ∧
        st = if e.cls = .translation ∨ e.cls = .protection then 6 else 5) →
      (∀ r t, readVia s c 32 cc 32 = .ok r → endRecord c 64 cc st s = .ok (none, t) → Consumes (.ringEntryFailure p q) p q head s t) ∧
      (∀ r, readVia s c 32 cc 32 = .error r → Consumes (.ringEntryFailure p q) p q head s (queueFail p q st s)))

/-- R326, R327, R331, R338: the head of a launch queue becomes eligible once its gates have ended and its trigger has been reached; it
ends CANCELLED where AFTEROK meets a failure, PROTECTION at a gate that cannot be read, BOUND at a stale trigger, PEER_LOST at a
lost one. A head that leaves frees the cores held for it. -/
def GatesAndTriggersHoldHeads : Prop :=
∀ (s : State) (p q : Nat) (h : QItem),
    let x := queueAt s p q
    let i : Instr := .itemEligible p q
    let f := foldGates p h s
    let pop := popHead p q f
    let goes := exec i s = .next (withQueue p q { x with eligible := true } f)
    let unreadable (c : Ctx) (gs : List Word64) : Prop :=
      (∀ g, g ∈ gs → readVia s c 32 g 32 ≠ .error .stall) ∧ ∃ g e, g ∈ gs ∧ readVia s c 32 g 32 = .error (.trap e)
    x.eligible = false → x.items.head? = some h →
    (pop = { withQueue p q { x with items := x.items.drop 1, eligible := false, chosen := false, unplaced := 0 } f with cores := pop.cores } ∧
      ∀ k, pop.core k = if (f.core k).reserved = some (p, q) then { f.core k with reserved := none } else f.core k) ∧
    (∀ gs cx pt, h = .gate gs cx pt → let c := deviceCtx s p cx pt
      (GatesOpen s c gs false → exec i s = .next pop) ∧ (GatesShut s c gs → exec i s = .next s) ∧
      (unreadable c gs → exec i s = .next (queueFail p q 6 pop))) ∧
    (∀ r, h = .copy r → let c := deviceCtx s p r.ctxid r.ptbase
      (GatesOpen s c r.gates r.afterok → goes) ∧ (GatesShut s c r.gates → exec i s = .next s) ∧
      (GatesFailed s c r.gates r.afterok → ∀ t, endRingCopy p q r 8 pop = .ok t → exec i s = .next t) ∧
      (unreadable c r.gates → ∀ t, endRingCopy p q r 6 pop = .ok t → exec i s = .next t)) ∧
    (∀ id gs ok, h = .launch id gs ok → let l := s.launch id
      let c := launchCtx s l
      let ends (st : Word16) : Prop := ∀ t, endUnplaced id st pop = .ok t → exec i s = .next t
      (GatesShut s c gs → exec i s = .next s) ∧ (GatesFailed s c gs ok → ends 8) ∧ (unreadable c gs → ends 6) ∧
      (GatesOpen s c gs ok →
        (l.trig = 0 → goes) ∧
        (Triggered s l (reachedPhase l) → goes) ∧
        (Triggered s l (fun n => ¬reachedPhase l n) → exec i s = .next s) ∧
        (l.trig ≠ 0 → (triggerRef l).gen ≠ 0 → (s.pkg l.pkg).lost.contains (triggerRef l).pkg = true → ends 1) ∧
        (l.trig ≠ 0 → (s.pkg l.pkg).lost.contains (triggerRef l).pkg = false →
          ((triggerRef l).gen = 0 ∨ (phaserAt s (triggerRef l)).live = false ∨ (phaserAt s (triggerRef l)).gen ≠ (triggerRef l).gen) → ends 5)))

end Sys2Proof.Claims

open Sys2Proof.Claims

/-- R92: each register form writes f(s_a, s_b) and nothing else; every other function value is ILLEGAL. -/
def Obligations.RegisterFormsWriteTheirResult : Prop :=
(∀ (s : State) (d a b : SReg),
    RegisterForm 0x00 (.add d a b) d a b s (reg s a + reg s b) ∧
    RegisterForm 0x01 (.sub d a b) d a b s (reg s a - reg s b) ∧
    RegisterForm 0x02 (.mul d a b) d a b s (reg s a * reg s b) ∧
    RegisterForm 0x03 (.mulh d a b) d a b s (((reg s a).signExtend 128 * (reg s b).signExtend 128).extractLsb' 64 64) ∧
    RegisterForm 0x04 (.mulhu d a b) d a b s (((reg s a).zeroExtend 128 * (reg s b).zeroExtend 128).extractLsb' 64 64) ∧
    RegisterForm 0x05 (.div d a b) d a b s (if reg s b = 0 then BitVec.allOnes 64 else (reg s a).sdiv (reg s b)) ∧
    RegisterForm 0x06 (.divu d a b) d a b s (if reg s b = 0 then BitVec.allOnes 64 else (reg s a).udiv (reg s b)) ∧
    RegisterForm 0x07 (.rem d a b) d a b s (if reg s b = 0 then reg s a else (reg s a).srem (reg s b)) ∧
    RegisterForm 0x08 (.remu d a b) d a b s (if reg s b = 0 then reg s a else (reg s a).umod (reg s b)) ∧
    RegisterForm 0x09 (.sh1add d a b) d a b s ((reg s a <<< 1) + reg s b) ∧
    RegisterForm 0x0A (.sh2add d a b) d a b s ((reg s a <<< 2) + reg s b) ∧
    RegisterForm 0x0B (.sh3add d a b) d a b s ((reg s a <<< 3) + reg s b) ∧
    RegisterForm 0x10 (.and d a b) d a b s (reg s a &&& reg s b) ∧
    RegisterForm 0x11 (.or d a b) d a b s (reg s a ||| reg s b) ∧
    RegisterForm 0x12 (.xor d a b) d a b s (reg s a ^^^ reg s b) ∧
    RegisterForm 0x13 (.andn d a b) d a b s (reg s a &&& ~~~reg s b) ∧
    RegisterForm 0x18 (.shl d a b) d a b s (reg s a <<< (reg s b &&& 63)) ∧
    RegisterForm 0x19 (.shr d a b) d a b s (reg s a >>> (reg s b &&& 63)) ∧
    RegisterForm 0x1A (.sra d a b) d a b s ((reg s a).sshiftRight' (reg s b &&& 63)) ∧
    RegisterForm 0x1B (.ror d a b) d a b s ((reg s a).rotateRight (reg s b &&& 63).toNat) ∧
    RegisterForm 0x20 (.slt d a b) d a b s (flag ((reg s a).slt (reg s b))) ∧
    RegisterForm 0x21 (.sltu d a b) d a b s (flag ((reg s a).ult (reg s b))) ∧
    RegisterForm 0x22 (.seq d a b) d a b s (flag (reg s a == reg s b)) ∧
    RegisterForm 0x28 (.min d a b) d a b s (if (reg s b).slt (reg s a) then reg s b else reg s a) ∧
    RegisterForm 0x29 (.max d a b) d a b s (if (reg s a).slt (reg s b) then reg s b else reg s a) ∧
    RegisterForm 0x2A (.minu d a b) d a b s (if (reg s b).ult (reg s a) then reg s b else reg s a) ∧
    RegisterForm 0x2B (.maxu d a b) d a b s (if (reg s a).ult (reg s b) then reg s b else reg s a) ∧
    (∃ n, IsZeroRun (fun i => (reg s a).getLsbD (63 - i)) n ∧ RegisterForm 0x30 (.clz d a) d a 0 s (BitVec.ofNat 64 n)) ∧
    (∃ n, IsZeroRun (fun i => (reg s a).getLsbD i) n ∧ RegisterForm 0x31 (.ctz d a) d a 0 s (BitVec.ofNat 64 n)) ∧
    RegisterForm 0x32 (.popc d a) d a 0 s (BitVec.ofNat 64 ((List.range 64).countP (fun i => (reg s a).getLsbD i)))) ∧
  (∀ (d a b : SReg) (func : BitVec 8), func.toNat ∉ aluFuncs → Illegal ((0x01 : BitVec 6) ++ d ++ a ++ b ++ func)) ∧
  (∀ (d a b : SReg) (func : BitVec 8), 0x30 ≤ func.toNat → b ≠ 0 → Illegal ((0x01 : BitVec 6) ++ d ++ a ++ b ++ func)) ∧
  Decodes 0x04518700 (.add 5 6 7)

/-- R93: each immediate form writes f(s_a, imm) and nothing else, with and without an `EXT`. -/
def Obligations.ImmediateFormsWriteTheirResult : Prop :=
∀ (s : State) (d a : SReg) (imm : BitVec 14) (amount : BitVec 6),
    SignedForm 0x02 (.addi d a imm) d a imm s (fun k => reg s a + k) ∧
    UnsignedForm 0x03 (.andi d a imm) d a imm s (fun k => reg s a &&& k) ∧
    UnsignedForm 0x04 (.ori d a imm) d a imm s (fun k => reg s a ||| k) ∧
    UnsignedForm 0x05 (.xori d a imm) d a imm s (fun k => reg s a ^^^ k) ∧
    ShiftForm 0x06 (.shli d a amount) d a amount s (reg s a <<< amount) ∧
    ShiftForm 0x07 (.shri d a amount) d a amount s (reg s a >>> amount) ∧
    ShiftForm 0x08 (.srai d a amount) d a amount s ((reg s a).sshiftRight' amount) ∧
    SignedForm 0x09 (.muli d a imm) d a imm s (fun k => reg s a * k) ∧
    SignedForm 0x0A (.slti d a imm) d a imm s (fun k => flag ((reg s a).slt k)) ∧
    UnsignedForm 0x0B (.sltiu d a imm) d a imm s (fun k => flag ((reg s a).ult k))

/-- R94: `BFX` extracts a field, `BFI` inserts one; a field that passes bit 63 is ILLEGAL, and so is an `EXT` before either. -/
def Obligations.BitFieldsExtractAndInsert : Prop :=
(∀ (s : State) (d a : SReg) (len1 pos : BitVec 6), pos.toNat + (len1.toNat + 1) ≤ 64 →
    Decodes (fieldWord 0x0C d a 1 len1 pos) (.bfxI64 d a len1 pos) ∧
    Sets (.bfxI64 d a len1 pos) s d (((reg s a).extractLsb' pos.toNat (len1.toNat + 1)).signExtend 64) 4 ∧
    Decodes (fieldWord 0x0C d a 0 len1 pos) (.bfxN64 d a len1 pos) ∧
    Sets (.bfxN64 d a len1 pos) s d (((reg s a).extractLsb' pos.toNat (len1.toNat + 1)).zeroExtend 64) 4 ∧
    Decodes (fieldWord 0x0D d a 0 len1 pos) (.bfi d a len1 pos) ∧
    ∃ v : Word64, Sets (.bfi d a len1 pos) s d v 4 ∧
      ∀ k, k < 64 → v.getLsbD k = if pos.toNat ≤ k ∧ k < pos.toNat + (len1.toNat + 1) then (reg s a).getLsbD (k - pos.toNat) else (reg s d).getLsbD k) ∧
  (∀ (d a : SReg) (sext : BitVec 1) (len1 pos : BitVec 6), 64 < pos.toNat + (len1.toNat + 1) →
    Illegal (fieldWord 0x0C d a sext len1 pos) ∧ Illegal (fieldWord 0x0D d a 0 len1 pos)) ∧
  (∀ (s : State) (hi : BitVec 26) (d a : SReg) (sext : BitVec 1) (len1 pos : BitVec 6),
    Illegal (fieldWord 0x0D d a 1 len1 pos) ∧
    Traps (.ext hi (fieldWord 0x0C d a sext len1 pos)) s .illegal 0 0 ∧ Traps (.ext hi (fieldWord 0x0D d a 0 len1 pos)) s .illegal 0 0) ∧
  Decodes 0x304150C8 (.bfxI64 4 5 3 8)

/-- R95, R98: a branch whose condition holds goes to its target, or traps there; another passes on. -/
def Obligations.BranchesFollowTheirCondition : Prop :=
∀ (s : State) (a b : SReg) (off : BitVec 14),
    BranchForm 0x10 (.beq a b off) a b off s (reg s a == reg s b) ∧
    BranchForm 0x11 (.bne a b off) a b off s (reg s a != reg s b) ∧
    BranchForm 0x12 (.blt a b off) a b off s ((reg s a).slt (reg s b)) ∧
    BranchForm 0x13 (.bge a b off) a b off s (!(reg s a).slt (reg s b)) ∧
    BranchForm 0x14 (.bltu a b off) a b off s ((reg s a).ult (reg s b)) ∧
    BranchForm 0x15 (.bgeu a b off) a b off s (!(reg s a).ult (reg s b))

/-- R96, R97, R98: `LOOP`, and jumps and calls. -/
def Obligations.LoopsJumpsAndCalls : Prop := Claims.LoopCountsDown ∧ Claims.JumpsAndCalls

/-- R99, R101: a scalar load reads its bytes, counts in LD and delivers the extended value when its data return. -/
def Obligations.LoadsReadTheirBytes : Prop :=
∀ (s : State) (d a : SReg) (imm : BitVec 14),
    LoadForm 0x20 (.ldsI8 d a imm) true 1 d a imm s ∧
    LoadForm 0x21 (.ldsN8 d a imm) false 1 d a imm s ∧
    LoadForm 0x22 (.ldsI16 d a imm) true 2 d a imm s ∧
    LoadForm 0x23 (.ldsN16 d a imm) false 2 d a imm s ∧
    LoadForm 0x24 (.ldsI32 d a imm) true 4 d a imm s ∧
    LoadForm 0x25 (.ldsN32 d a imm) false 4 d a imm s ∧
    LoadForm 0x26 (.ldsN64 d a imm) false 8 d a imm s

/-- R99, R101, R103: a scalar store writes its bytes and no others, or holds them in the group's quantum buffer. -/
def Obligations.StoresWriteTheirBytes : Prop :=
∀ (s : State) (b a : SReg) (imm : BitVec 14), Canonical s →
    StoreForm 0x28 (.stsN8 b a imm) 1 b a imm s ∧
    StoreForm 0x29 (.stsN16 b a imm) 2 b a imm s ∧
    StoreForm 0x2A (.stsN32 b a imm) 4 b a imm s ∧
    StoreForm 0x2B (.stsN64 b a imm) 8 b a imm s

/-- R114, R115, R116, R294, R341: `MFS` and `MTS`. -/
def Obligations.SystemRegistersAreMoved : Prop := Claims.SystemRegistersRead ∧ Claims.SystemRegistersWrite

/-- R341, R346, R347, R349: taking a trap, from user mode and from system mode. -/
def Obligations.TrapsAreEntered : Prop := Claims.TrapEntrySavesAndVectors ∧ Claims.TrapsInSystemMode

/-- R117, R348, R363: `TRET` in system mode restores s60 to s63 and, from a lane trap's record, the split and its repeat counter; it
clears VALID, leaves system mode and goes to TRAPPC; a control core restores nothing. In user mode it is PRIV; a misaligned
TRAPPC, a free split and an LPC that is no multiple of 12 are ILLEGAL, which ends a group failed. A record that cannot be
reached, or holds an error, raises MACHINE. -/
def Obligations.TrapReturnRestores : Prop :=
(∀ s, sysMode s s.cur = false → Traps .tret s .priv 0 0) ∧
  (∀ s, sysMode s s.cur = true → trapRegBad s s.cur = true → exec .tret s = .next (areaFault s.cur 7 (recordBase s s.cur) s)) ∧
  (∀ s, sysMode s s.cur = true → trapRegBad s s.cur = false → (self s).trappc.toNat % 4 ≠ 0 → Traps .tret s .illegal 0 0) ∧
  (∀ s, sysMode s s.cur = true → (self s).trappc.toNat % 4 = 0 → isCtl s.cur = true →
    ∃ u, exec .tret s = .next u ∧ StreamStep s u ∧ self u = { self s with
      mode := (self s).mode &&& 0xFE, spc := (self s).trappc,
      half := ((self s).kept.filter (fun h => h.2 == (self s).trappc)).map (·.1), kept := none }) ∧
  (∀ s, sysMode s s.cur = true → trapRegBad s s.cur = false → (self s).trappc.toNat % 4 = 0 → isCtl s.cur = false →
    (∀ x, areaPlace s s.cur true (recordBase s s.cur) = .error (.trap x) → exec .tret s = .next (areaFault s.cur 6 (recordBase s s.cur) s)) ∧
    (∀ p, areaPlace s s.cur true (recordBase s s.cur) = .ok p → badAt s (selfCtx s) p.loc 0x60 ≠ none →
      exec .tret s = .next (areaFault s.cur 7 (recordBase s s.cur) s)) ∧
    (∀ p k, Canonical s → areaPlace s s.cur true (recordBase s s.cur) = .ok p → p.loc = .phys k → badAt s (selfCtx s) p.loc 0x60 = none →
      goHeld s (k + 4) = false →
      let ofLane := isGroup s.cur = true ∧ recordAt s p k 4 1 / 2 % 2 = 1
      let id := recordAt s p k 0x24 1
      let lpc : Word64 := BitVec.ofNat 64 (recordAt s p k 0x18 8)
      (¬ofLane → ∃ u, exec .tret s = .next u ∧ HandlerLeft p k s u ∧ selfGroup u = selfGroup s) ∧
      (ofLane → ∀ sp, id < 4 → Vec.get (selfGroup s).splits id = some sp → lpc.toNat % 12 = 0 →
        ∃ u, exec .tret s = .next u ∧ HandlerLeft p k s u ∧
          selfGroup u = { selfGroup s with
            splits := Vec.set (selfGroup s).splits id (some { sp with lpc := lpc })
            rep := if recordAt s p k 4 1 / 4 % 2 = 1 then some (id, recordAt s p k 0x25 1) else (selfGroup s).rep }) ∧
      (ofLane → (4 ≤ id ∨ Vec.get (selfGroup s).splits id = none ∨ lpc.toNat % 12 ≠ 0) →
        ∃ u, exec .tret s = .next u ∧ GroupEndedFailed s.cur 5 s u)))

/-- R117, R118, R349, R363: the system family: `NOP`, `CYC`, `BRK`, `TRAP`, and `HALT` in each kind of stream and mode. -/
def Obligations.SystemFamily : Prop :=
∀ (s : State) (d a : SReg),
    Decodes 0xC8000000 .nop ∧ Passes .nop s 4 ∧
    Sets (.cyc d) s d (cycleCount s) 4 ∧
    Traps .brk s .brk 0x800 0 ∧ Traps (.trap a) s .brk ((reg s a).extractLsb' 0 11).toNat 0 ∧
    (isGroup s.cur = true → sysMode s s.cur = false → (selfGroup s).segq = [] →
      (self s).ld = 0 → (self s).st = 0 → (self s).cp = 0 → (self s).tl = 0 →
      ∃ t, exec .halt s = .next t ∧ (self t).run = .ended ∧ (selfGroup t).qbuf = ⟨[], []⟩ ∧ (∀ a, a ≠ s.cur → t.group a = s.group a) ∧
        (∀ mat k, readByte t mat k = readByte s mat k) ∧
        ((Table.find? s.blocks (selfGroup s).block).isSome →
          (t.block (selfGroup s).block).held = (s.block (selfGroup s).block).held ++
            (if (selfGroup s).qbuf = ⟨[], []⟩ then [] else [((selfGroup s).gidx, s.cur, (selfGroup s).qbuf)]))) ∧
    (isGroup s.cur = true → sysMode s s.cur = false →
      (selfGroup s).segq ≠ [] ∨ (self s).ld ≠ 0 ∨ (self s).st ≠ 0 ∨ (self s).cp ≠ 0 ∨ (self s).tl ≠ 0 → exec .halt s = .next s) ∧
    (isGroup s.cur = true → sysMode s s.cur = true → trapRegBad s s.cur = false →
      ∃ t, exec .halt s = .next t ∧ GroupEndedFailed s.cur (endStatus ((self s).trapcause.extractLsb' 28 4).toNat) s t) ∧
    (isMcc s.cur = true → sysMode s s.cur = false → (self s).tl = 0 →
      exec .halt s = .next (mapSelf (fun x => { x with run := .ended }) s)) ∧
    (isMcc s.cur = true → sysMode s s.cur = false → (self s).tl ≠ 0 → exec .halt s = .next s) ∧
    (isMcc s.cur = true → sysMode s s.cur = true → trapRegBad s s.cur = false →
      ∃ t, exec .halt s = .next t ∧ (self t).run = .ended) ∧
    (sysMode s s.cur = true → trapRegBad s s.cur = true → exec .halt s = .next (areaFault s.cur 7 (recordBase s s.cur) s)) ∧
    (isCtl s.cur = true → sysMode s s.cur = true → exec .halt s = .next (mapSelf (fun x => { x with run := .ended }) s)) ∧
    (isCtl s.cur = true → sysMode s s.cur = false → Traps .halt s .priv 0 0)

/-- R63, R112, R113, R345: `WAIT` and `WAITY`. -/
def Obligations.WaitsStallOrLeaveTheSlot : Prop := Claims.WaitStallsOnCounters ∧ Claims.WaityLeavesTheSlot

/-- R12, R104 to R106, R110, R111, R345: operand queues and lane segments. -/
def Obligations.QueuesAndSegmentsStart : Prop := Claims.QueuesAreStagedAndStarted ∧ Claims.SegmentsQueueAndBegin

/-- R107, R108, R109, R219, R223, R336: a push takes the next 32 elements of a stream, PAD beyond its last, and the stream moves
on; a read that faults, an invalid record or a broken FAULT policy poisons the entry and ends the streams of the queue; a
stream without elements ends at once. The engine pushes where the queue has room, no read waits and the turn is the
queue's. -/
def Obligations.EnginePushesElements : Prop :=
∀ (s : State) (ag : Agent) (n : BitVec 3) (x : AaeStream),
    let q := Vec.get (s.group ag).queues n.toNat
    let N := passLen x.desc
    let take := (planPush x).take
    let served := noteServed ag n.toNat s
    let c : Ctx := { ctxOf served ag with user := true }
    let becomes (b : State) (q' : Queue) : Prop := ∃ t, exec (.aaePush ag n) s = .next t ∧ LaneStreamStep ag b t ∧
      t.group ag = { b.group ag with queues := Vec.set (b.group ag).queues n.toNat q' }
    let poisons (b : State) (t : Trap) : Prop :=
      becomes b { q with running := none, pending := none, entries := q.entries ++ [.poison t.cls t.detail t.addr] }
    isGroup ag = true → sysMode s ag = false → (s.stream ag).run ≠ .ended → (s.stream ag).run ≠ .fenced → q.running = some x →
    (x.rag = none → ∀ l, l < 32 → take[l]? = some (if x.pos + l < N then some (x.pos + l) else none)) ∧
    (x.fault = none → N = 0 → becomes s { q with running := q.pending, pending := none }) ∧
    (x.fault.isSome ∨ N ≠ 0 → 8 ≤ q.entries.length ∨ pushTurn s ag n.toNat = false → exec (.aaePush ag n) s = .next s) ∧
    (x.fault = none → N ≠ 0 → (planPush x).bad = none → pushStalls s { ctxOf s ag with user := true } x.desc take = true → exec (.aaePush ag n) s = .next s) ∧
    (q.entries.length < 8 → pushTurn s ag n.toNat = true →
      (∀ t, x.fault = some t → poisons served t) ∧
      (∀ l, x.fault = none → N ≠ 0 → (planPush x).bad = some l →
        poisons served { cls := .ragged, detail := 6, addr := (Sys2Proof.Machine.elementAt c served x.desc (x.pos + l)).1 }) ∧
      (x.fault = none → N ≠ 0 → (planPush x).bad = none → pushStalls s { ctxOf s ag with user := true } x.desc take = false →
        (pushFault served c x.desc take = none →
          let b := foldPush c x.desc take served
          ∀ ws, pushWords b c x.desc take = .ok ws →
            let pos := x.pos + (planPush x).step
            let more : Option AaeStream := if pos < N then some { x with pos := pos } else if x.pass + 1 < x.passes then some { x with pos := 0, pass := x.pass + 1 } else q.pending
            becomes b { q with entries := q.entries ++ [.words (laneVec ws)], running := more,
                               pending := if pos < N ∨ x.pass + 1 < x.passes then q.pending else none }) ∧
        (∀ t, pushFault served c x.desc take = some t →
          poisons (noteBad (badKeys served c (pushPlaces served c x.desc take) (tyBytes x.desc.ty.toNat)) served) t)))

/-- R163, R164: fences, and what a commit writes. -/
def Obligations.FencesAndCommits : Prop := Claims.FencesCommitAndWait ∧ Claims.CommitWritesTheBuffer

/-- R91, R165, R166, R180: an arrival drains, opens or joins a phase; the last one completes it; a wait consumes a completed arrival,
or opens or joins a phase and waits for it; misuse raises SYNC or BOUND. -/
def Obligations.BarriersCountArrivals : Prop :=
∀ (s : State) (a : SReg) (id cnt : BitVec 6),
    let n := if cnt = 0 then (reg s a).toNat else cnt.toNat
    let g := selfGroup s
    let b := s.block g.block
    let x := theBarrier s g.block id.toNat
    let arr : Instr := .barArr a id cnt
    let wait : Instr := .barWait a id cnt
    let both : Instr := .barSync a id cnt
    let fresh := (self s).half = none
    let goes (i : Instr) (f : State → Prop) : Prop := ∃ t, exec i s = .next t ∧ f t
    let passed (t : State) (h : Option Nat) : Prop := self t = { self s with spc := (self s).spc + 4, half := h }
    let allTrap (cls : TrapClass) (detail : Nat) : Prop :=
      (Drained s → Traps arr s cls detail 0 ∧ (fresh → Traps both s cls detail 0)) ∧ Traps wait s cls detail 0
    (¬Drained s → exec arr s = .next s ∧ (fresh → exec both s = .next s)) ∧
    (isGroup s.cur = false → allTrap .sync 0x14) ∧
    (isGroup s.cur = true → b.nbar ≤ id.toNat → allTrap .bound 5) ∧
    (isGroup s.cur = true → id.toNat < b.nbar → n = 0 ∨ 32 < n ∨ b.groups.length < n → allTrap .sync 0x11) ∧
    (BarrierOk id.toNat n s → (self s).uw ≠ 0 → exec arr s = .next s ∧ (fresh → exec both s = .next s)) ∧
    (BarrierOk id.toNat n s → g.segq = [] → (self s).uw = 0 →
      (∀ k, x.count = some k → k ≠ n → Traps arr s .sync 0x10 0 ∧ (fresh → Traps both s .sync 0x10 0)) ∧
      (x.count = some n → g.gidx ∈ x.arrived → Traps arr s .sync 0x12 0 ∧ (fresh → Traps both s .sync 0x12 0)) ∧
      (∀ l, Phase x n l → g.gidx ∉ l → l.length + 1 ≠ n →
        goes arr (fun t => BarrierStep id.toNat { x with count := some n, arrived := l ++ [g.gidx] } s t ∧ passed t (self s).half ∧
          Table.find? (selfGroup t).arrived id.toNat = some x.phase)) ∧
      (∀ l, Phase x n l → g.gidx ∉ l → l.length + 1 = n →
        goes arr (fun t => theBarrier t g.block id.toNat = ⟨none, [], x.phase + 1⟩ ∧ (self t).spc = (self s).spc + 4 ∧
          ∀ ag, ag ∈ b.groups → isGroup ag = true → (s.group ag).block = g.block → (s.group ag).gidx < 32 → (s.group ag).gidx ∈ l ++ [g.gidx] →
            (t.group ag).qbuf = ⟨[], []⟩)) ∧
      (fresh → ∀ l, Phase x n l → g.gidx ∉ l →
        goes both (fun t => (self t).spc = (self s).spc ∧ ((self t).half = some (x.phase * 64 + id.toNat) ∨ (self t).posted.isSome) ∧
          theBarrier t g.block id.toNat = if l.length + 1 = n then ⟨none, [], x.phase + 1⟩ else { x with count := some n, arrived := l ++ [g.gidx] }))) ∧
    (BarrierOk id.toNat n s → fresh →
      (∀ ph, Table.find? g.arrived id.toNat = some ph → ph < x.phase →
        goes wait (fun t => GroupStep s t ∧ passed t none ∧ selfGroup t = { g with arrived := Table.del g.arrived id.toNat })) ∧
      ((∀ ph, Table.find? g.arrived id.toNat = some ph → x.phase ≤ ph) →
        (∀ k, x.count = some k → k ≠ n → Traps wait s .sync 0x10 0) ∧
        (∀ l, Phase x n l → goes wait (fun t => (self t).spc = (self s).spc ∧ ((self t).half = some (x.phase * 64 + id.toNat) ∨ (self t).posted.isSome) ∧
          theBarrier t g.block id.toNat = { x with count := some n, arrived := l } ∧ t.groups = s.groups ∧ SameBytes s t)))) ∧
    (BarrierOk id.toNat n s → ∀ ph, (self s).half = some (ph * 64 + id.toNat) →
      let leaves (i : Instr) : Prop := goes i (fun t => GroupStep s t ∧ passed t none ∧ selfGroup t = { g with arrived := Table.del g.arrived id.toNat })
      (ph < x.phase → leaves wait ∧ leaves both) ∧
      (x.phase ≤ ph → ¬(ph = x.phase ∧ barrierStuck s b x = true) → exec wait s = .next s ∧ exec both s = .next s) ∧
      (ph = x.phase → barrierStuck s b x = true → Traps wait s .sync 0x13 0 ∧ Traps both s .sync 0x13 0))

/-- R167, R168, R169: the phaser instructions. -/
def Obligations.PhasersAreJoinedAndSignalled : Prop := Claims.PhasersAreJoinedAndLeft ∧ Claims.PhasersSignalAndWait

/-- R151 to R155, R308: the scalar atomics, short and long. -/
def Obligations.ScalarAtomicsModifyMemory : Prop := Claims.ShortAtomicsModifyMemory ∧ Claims.LongAtomicsOrderAndModify

/-- R90, R157, R158, R160: the scalar reduction, shadowed or not, and the max-abs read. -/
def Obligations.ReductionsAndMaxReads : Prop :=
∀ (s : State) (w : LongWord), Canonical s →
    let c := selfCtx s
    let va := reg s w.a
    let t := w.ty.toNat
    let op := redCode (w.aux.extractLsb' 4 4).toNat
    let n := atomBits t / 8
    ((Instr.redScalar w).wf = true → t ∈ [0, 1, 7, 8, 11, 12] →
      ∀ p, atomPlace s c t va n = .ok p → KeepsError (.redScalar w) s p n [] va 8 ∧ (AtomReady s p n →
        ∃ u, exec (.redScalar w) s = .next u ∧ AtomStep 8 [] (atomBase p n s) u ∧
          Stored c.block p n (BitVec.ofNat 64 (atomResult op t (found p n s) ((reg s w.b).toNat % 2 ^ (8 * n)) 0)) (atomBase p n s) u)) ∧
    ((Instr.redScalar w).wf = true → t = 3 ∨ t = 4 →
      let f := if t = 3 then fmt16 else fmtB16
      let x := fmt32.decode ((reg s w.b).setWidth 32 : Word32).toNat
      (∀ p pk ck wv k, s.cur = .group pk ck wv → redPlace s c op t va = .ok p → p.loc = .phys k → AtomReady s p 2 →
        let owned := foldOther (pk, ck) (k / 128) t 0 (ownLine (pk, ck) (k / 128) s)
        let cur := match (owned.core (pk, ck)).shadows.find? (fun h => h.key == k) with
          | some h => fmt32.decode h.val.toNat
          | none => fmt32.rnd rneMode (f.decode (leNat (readRange owned p.mat k 2)))
        ∃ u, exec (.redScalar w) s = .next u ∧ (∀ m j, readByte u m j = readByte owned m j) ∧
          (∃ h, (u.core (pk, ck)).shadows.find? (fun h => h.key == k) = some h ∧ h.std = t ∧ h.mat = p.mat ∧
            h.val = BitVec.ofNat 32 (fmt32.round rneMode (Sys2Proof.Machine.Num.add false cur x))) ∧
          (self u).st = (self s).st + 1 ∧ (self u).spc = (self s).spc + 8 ∧ (self u).s = (self s).s)) ∧
    ((Instr.amaxrdScalar w).wf = true →
      ∀ p, atomPlace s c 1 va 4 = .ok p → KeepsError (.amaxrdScalar w) s p 4 [w.d.toNat] va 8 ∧ (AtomReady s p 4 →
        ∃ u, exec (.amaxrdScalar w) s = .next u ∧ AtomStep 8 [.s w.d (BitVec.ofNat 64 (found p 4 s))] (atomBase p 4 s) u ∧
          Stored c.block p 4 0 (atomBase p 4 s) u))

/-- R161, R162, R179, R308: `CHUNK`, and completion counters. -/
def Obligations.CountersAreDrawnAndRead : Prop := Claims.ChunkDrawsFromTheCounter ∧ Claims.CompletionCountersAreRead

/-- R339: every trap the device describes is entered and the machine goes on; a step ends in no fault and no refusal. -/
def Obligations.EveryStepGoesOn : Prop :=
∀ s : State, Goes s

/-- A turn of a stream that its slot picks runs the instruction that the words at its program counter decode to, on the state in
which the lines of those words are folded, or the fault that decoding it owes; a turn of an event runs the event where it can
happen; a turn of cycles passes them; any turn ends with the devices reading their ports (R158, R334, R387, R390). Around `exec`
a step notes the issue for the group's slot and the words of a load's lanes. -/
def Obligations.StepRunsDecoded : Prop :=
∀ s : State,
    let b := beginTurn s
    (∀ ag w0 w1 i, nextTurn s = .issue ag →
      let c0 := { b with cur := ag }
      let c := foldFetch ag (scalarWindow c0 ag) c0
      picked scalarTurn (·.issued) ag b = true → mayIssue c0 ag = true →
      Fetched c ag (c.stream ag).spc w0 → (hasSecond w0 → Fetched c ag ((c.stream ag).spc + 4) w1) →
      decode (.scalar w0 w1) = .ok i → decodeFault c ag i = true ∨ Unhindered c ag i →
      step s = onNext (observePorts b) (onNext (noteIssue (fun n g => { g with issued := n }) ag b) (exec i c))) ∧
    (∀ ag, nextTurn s = .issue ag → picked scalarTurn (·.issued) ag b = false → step s = .next (observePorts b b)) ∧
    (∀ ag id sp w n i, nextTurn s = .lane ag →
      let c0 := { b with cur := ag }
      let c := foldFetch ag (laneWindow c0 ag) c0
      picked laneTurn (·.issuedLane) ag b = true →
      isGroup ag = true → mayIssue c0 ag = true → sysMode c ag = false → (c.group ag).inSeg = true → lowestSplit (c.group ag) = some (id, sp) →
      LaneFetched c ag sp.lpc w → (repWord w → LaneFetched c ag (sp.lpc + 12) n) → (¬repWord w → n = 0) →
      decode (.lane w n) = .ok i → laneCheck c ag id sp i = .run i →
      step s = onNext (observePorts b) (onNext (noteIssue (fun n g => { g with issuedLane := n }) ag b) (onNext (noteLane ag c i) (exec i c)))) ∧
    (∀ ag, nextTurn s = .lane ag → picked laneTurn (·.issuedLane) ag b = false → step s = .next (observePorts b b)) ∧
    (∀ i, nextTurn s = .event i →
      (eventMay b i = true → step s = onNext (observePorts b) (exec i b)) ∧ (eventMay b i = false → step s = .next (observePorts b b))) ∧
    (∀ p n, nextTurn s = .cycles p n → step s = .next (observePorts b (passCycles p n b))) ∧
    (∀ p n, nextTurn s = .dieCycles p n → step s = .next (observePorts b (passDieCycles p n b))) ∧
    (∀ ag n, nextTurn s = .drift ag n → step s = .next (observePorts b (drift ag n b))) ∧
    (∀ w, nextTurn s = .upset w → step s = .next (observePorts b (upset w b))) ∧
    (∀ p q n, nextTurn s = .attach p q n → step s = .next (observePorts b (attachDevice p q n b))) ∧
    (∀ p, nextTurn s = .tamper p → step s = .next (observePorts b (tamper p b)))

/-- R57 to R71: the decoder reads back every instruction that the encoder writes, whatever follows a word that stands
alone. -/
def Obligations.EncodedInstructionsDecode : Prop :=
∀ i : Instr, i.wf = true →
    (∀ w0 w1, encode i = some (.scalar w0 w1) → (hasSecond w0 → decode (.scalar w0 w1) = .ok i) ∧ (¬hasSecond w0 → Decodes w0 i)) ∧
    (∀ w n, encode i = some (.lane w n) → (repWord w → decode (.lane w n) = .ok i) ∧ (¬repWord w → ∀ n', decode (.lane w n') = .ok i))

/-- R58: a word has one meaning: the encoder gives back every bit of a word that decodes, so that no reserved bit is dropped. -/
def Obligations.DecodedWordsReencode : Prop :=
(∀ (w0 w1 : BitVec 32) (i : Instr), decode (.scalar w0 w1) = .ok i →
    i.wf = true ∧ ∃ x, encode i = some (.scalar w0 x) ∧ (hasSecond w0 → x = w1)) ∧
  (∀ (w n : BitVec 96) (i : Instr), decode (.lane w n) = .ok i →
    i.wf = true ∧ ∃ x, encode i = some (.lane w x) ∧ (repWord w → x = n))

/-- The words that the spec works out bit by bit decode to the instructions that they stand for, and words that it calls reserved
decode to nothing (R92 to R96, R105, R106, R110, R112, R114, R126, R141, R228, R242). -/
def Obligations.WorkedWordsDecode : Prop :=
Decodes 0x04518700 (.add 5 6 7) ∧ Decodes 0x0850FFF4 (.addi 5 3 0x3FF4) ∧ Decodes 0xC8000000 .nop ∧ Decodes 0xD0000005 (.fence 5) ∧
  Decodes 0x304150C8 (.bfxI64 4 5 3 8) ∧ Decodes 0x58903FFE (.loop 9 0 0x3FFE) ∧ Decodes 0xC0400008 (.mfs 4 8) ∧
  Decodes 0xBC003FF0 (.wait 0 0 31 31) ∧ Decodes 0xB800000C (.lrun 12) ∧ Decodes 0xB0B29200 (.qset 11 10 2 2) ∧ Decodes 0xB4030002 (.qgo 12 2) ∧
  decode (.lane 0x0100400C04010400 0) = .ok (.ffma { imm := 0, msel := 0, ty := 1, rm := 0, c := 3, b := 2, a := 1, dst := 4, md := 0, rpf := 0 }) ∧
  decode (.lane 0x000000408000400007020A50 0) = .ok (.ldl { imm := 0x40, msel := 0, ty := 1, rm := 0, c := 0, b := 3, a := 0x102, dst := 10, md := 5, rpf := 0 }) ∧
  decode (.lane 0xA000000204040500 0) = .ok (.segl { imm := 0, msel := 0, ty := 0, rm := 0, c := 0, b := 0x102, a := 4, dst := 5, md := 0, rpf := 0 }) ∧
  decode (.lane 0xA800000206021000 0) = .ok (.hgld { imm := 0, msel := 0, ty := 0, rm := 0, c := 0, b := 0x103, a := 2, dst := 16, md := 0, rpf := 0 }) ∧
  decode (.lane 0xA84000A206020000 0) = .ok (.hgsc { imm := 0, msel := 0, ty := 0, rm := 0, c := 40, b := 0x103, a := 2, dst := 0, md := 0, rpf := 0 }) ∧
  Illegal 0 ∧ Illegal 0x045187FF ∧ (∃ r, decode (.lane 0 0) = .error r)

/-- R25, R384, R385: what power-on reset leaves: every register with a reset value holds it, the queues are empty, no byte of memory is
listed, and the one event to come is the reset of package 0. The firmware entry at which the control core stands, and the zero
of its other registers and of memory that nothing has written, are the model's (log entries 3, 4 and 5). -/
def Obligations.ResetValues : Prop :=
let s := State.reset
  let x := s.stream (.ctl 0 0)
  Canonical s ∧ (∀ mat k, readByte s mat k = 0) ∧
  x.mode = 1 ∧ x.trappc = 0 ∧ x.trapcause = 0 ∧ x.trapaddr = 0 ∧ x.ext = none ∧ x.ld = 0 ∧ x.st = 0 ∧ x.cp = 0 ∧ x.tl = 0 ∧
  x.fcnt = 0 ∧ x.fstat = 0 ∧ x.spc = firmwareEntry ∧ (∀ r, readS x r = 0) ∧
  (∀ k, (s.core k).trapbase = 0 ∧ (s.core k).sidebuf = 0 ∧ (s.core k).savebase = 0) ∧
  (∀ k, (s.mcc k).trapbase = 0 ∧ (s.mcc k).sidebuf = 0 ∧ (s.mcc k).savebase = 0 ∧ (s.mcc k).ptbase = 0 ∧ (s.mcc k).ctxid = 0 ∧ (s.mcc k).launch = none) ∧
  (∀ k, (s.ctl k).trapbase = 0 ∧ (s.ctl k).ptbase = 0 ∧ (s.ctl k).ctxid = 0) ∧
  (s.pkg 0).cyc = 0 ∧ (s.pkg 0).booted = false ∧ (∀ i, i < 16 → Vec.get (s.pkg 0).fmtDefault i = 0) ∧
  (∀ i, i < 64 → (Vec.get (s.pkg 0).queues i).items = [] ∧ (Vec.get (s.pkg 0).queues i).eligible = false) ∧
  (s.pkg 0).phasers = [] ∧ s.items = [] ∧ s.blocks = [] ∧ s.launches = [] ∧ s.agenda = [.event (.powerOnReset 0)]

/-- Every step keeps every byte memory in canonical form, whatever it runs. -/
def Obligations.StepKeepsCanonical : Prop :=
∀ s t : State, Canonical s → step s = .next t → Canonical t

/-- R170, R217, R218, R266: `CPSTEP` steps the stage counter of its block, or of every block of the gang, and reads it; `YIELD` goes
on when CP is 0, and else the group leaves its slot; `RFLUSH` waits for the stream's writes, and a later snapshot of its handle
reads the lines of the panel as they then stand. -/
def Obligations.StagesYieldsAndFlushes : Prop :=
∀ (s : State) (d a : SReg) (imm : BitVec 14) (off : BitVec 26),
    (isCtl s.cur = true → Traps (.cpstep d imm) s .sync 0x15 0) ∧
    (isGroup s.cur = true → (Table.find? s.blocks (selfGroup s).block).isSome → (s.block (selfGroup s).block).sched = [] →
      let b := (selfGroup s).block
      let v := (s.block b).stage + imm.zeroExtend 32
      ∃ t, exec (.cpstep d imm) s = .next t ∧ reg t d = (if d = 0 then 0 else v.zeroExtend 64) ∧ (self t).spc = (self s).spc + 4 ∧
        (∀ r, r ≠ d → reg t r = reg s r) ∧ t.block b = { s.block b with rt := (s.block b).rt + 1, stage := v } ∧
        t = { s with streams := t.streams, blocks := t.blocks, past := t.past } ∧ (∀ k, k ≠ b → t.block k = s.block k) ∧
        ∀ ag, ag ≠ s.cur → t.stream ag = s.stream ag) ∧
    (∀ p c, s.cur = .mcc p c → (∀ b, b ∈ (s.mcc (p, c)).gang.map (·.2) → (Table.find? s.blocks b).isSome ∧ (s.block b).sched = []) →
      ((s.mcc (p, c)).gang.map (·.2)).Nodup →
      ∃ t, exec (.cpstep d imm) s = .next t ∧ (∀ b, b ∈ (s.mcc (p, c)).gang.map (·.2) → t.block b = { s.block b with stage := (s.block b).stage + imm.zeroExtend 32 }) ∧
        (∀ b, b ∉ (s.mcc (p, c)).gang.map (·.2) → t.block b = s.block b) ∧
        (∀ b g, (s.mcc (p, c)).gang.map (·.2) = b :: g → reg t d = if d = 0 then 0 else ((s.block b).stage + imm.zeroExtend 32).zeroExtend 64)) ∧
    (isCtl s.cur = true ∨ (isGroup s.cur = true ∧ sysMode s s.cur = true) → Traps (.yield off) s .illegal 0 0) ∧
    (UserGroup s → ¬Drained s → exec (.yield off) s = .next s) ∧
    (UserGroup s → Drained s → (self s).cp = 0 →
      ∃ t, exec (.yield off) s = .next t ∧ Transfers (wordsFrom (self s).spc off) 0 0 (commitOwn s.cur s) t) ∧
    (UserGroup s → Drained s → (self s).cp ≠ 0 →
      ∃ t, exec (.yield off) s = .next t ∧ GroupStep (commitOwn s.cur s) t ∧
        self t = { self (commitOwn s.cur s) with run := .awayYield (wordsFrom (self s).spc off) } ∧
        selfGroup t = { selfGroup (commitOwn s.cur s) with slot := .away, age := 0 }) ∧
    (isMcc s.cur = true → ((self s).cp ≠ 0 → exec (.yield off) s = .next s) ∧
      ((self s).cp = 0 → ∃ t, exec (.yield off) s = .next t ∧ Transfers (wordsFrom (self s).spc off) 0 0 s t)) ∧
    (2 ^ 32 ≤ (reg s a).toNat → Traps (.rflush a) s .ragged 1 0) ∧
    ((reg s a).toNat < 2 ^ 32 → (self s).uw ≠ 0 → exec (.rflush a) s = .next s) ∧
    ((self s).uw = 0 → reg s a = 0 → Passes (.rflush a) s 4) ∧
    ((self s).uw = 0 → (reg s a).toNat < 2 ^ 32 → reg s a ≠ 0 →
      ∃ t, exec (.rflush a) s = .next t ∧ self t = { self s with spc := (self s).spc + 4 } ∧ t.mem = s.mem ∧ t.groups = s.groups ∧
        (∀ mat line, panelOf (keyPkg (line * 128)) = panelOf (agentPkg s.cur) →
          stackLine t (reg s a).toNat mat line = readRange (folded (.phys (line * 128)) t) mat (line * 128) 128) ∧
        ∀ h mat line, h ≠ (reg s a).toNat → stackLine t h mat line = stackLine s h mat line)

/-- R212, R220, R221, R226: the queries of a record and the segment of a position, read through a snapshot of it; `RBIND`
binds a record to an ordering stream of the MCC, or unbinds it. -/
def Obligations.RecordsAreQueriedAndBound : Prop :=
∀ (s : State) (d a b : SReg) (w : LongWord),
    QueryForm (.rqryNseg d a) d a (fun r => some r.nseg) s ∧
    QueryForm (.rqryStart d a b) d a (fun r => if (reg s b).toNat ≤ r.nseg then r.bounds.getD (reg s b).toNat 0 else none) s ∧
    QueryForm (.rqryLen d a b) d a (fun r =>
      if (reg s b).toNat < r.nseg then some (r.bounds.getD ((reg s b).toNat + 1) 0 - r.bounds.getD (reg s b).toNat 0) else none) s ∧
    QueryForm (.rqryTotal d a) d a (fun r => some (r.bounds.getD r.nseg 0 - r.bounds.getD 0 0)) s ∧
    ((self s).ld < 63 → ∀ r s1, snapshotReg (selfCtx s) (reg s w.a) s = .ok (r, s1) →
      let i := (reg s w.b).toNat
      let outside := 2 ^ 32 ≤ i ∨ ∀ j, j < r.nseg → ¬(r.bounds.getD j 0 ≤ i ∧ i < r.bounds.getD (j + 1) 0)
      let both (x y : Word64) : List Dest := if w.d = w.e then [.s w.d x] else [.s w.d x, .s w.e y]
      (outside → ∃ t, exec (.segof w) s = .next t ∧ Delivering (both (BitVec.allOnes 64) (BitVec.allOnes 64)) 8 s1 t) ∧
      (¬outside → r.bounds.Pairwise (· ≤ ·) → ∃ j, j < r.nseg ∧ r.bounds.getD j 0 ≤ i ∧ i < r.bounds.getD (j + 1) 0 ∧
        ∃ t, exec (.segof w) s = .next t ∧ Delivering (both (BitVec.ofNat 64 j) (BitVec.ofNat 64 (i - r.bounds.getD j 0))) 8 s1 t)) ∧
    (∀ x, (self s).ld < 63 → snapshotReg (selfCtx s) (reg s w.a) s = .error (.trap x) → exec (.segof w) s = .next (takeTrap s.cur x false s)) ∧
    (isMcc s.cur = false → Traps (.rbind w) s .illegal 0 0) ∧
    (∀ p c, s.cur = .mcc p c →
      let dims : BitVec 3 := w.aux.extractLsb' 3 3
      let n := (w.aux.extractLsb' 0 3).toNat
      let h := reg s w.a
      let binds (x : Option Binding) : Prop := ∃ t, exec (.rbind w) s = .next t ∧ Steps8 (s.setMcc (p, c) { s.mcc (p, c) with bind := Vec.set (s.mcc (p, c)).bind n x }) t
      (h ≠ 0 ∧ dims = 0 ∨ h = 0 ∧ dims ≠ 0 → Traps (.rbind w) s .illegal 0 0) ∧
      (h = 0 → dims = 0 → binds none) ∧
      (h ≠ 0 → dims ≠ 0 → 2 ^ 32 ≤ h.toNat → Traps (.rbind w) s .ragged 1 0) ∧
      (h ≠ 0 → dims ≠ 0 → h.toNat < 2 ^ 32 → binds (some ⟨h.toNat, dims, (reg s w.b).toNat % 2 ^ 32, (reg s w.c).toNat % 2 ^ 32, (reg s w.e).toNat % 2 ^ 32⟩))) ∧
    Decodes 0xEC01C000 (.rflush 7) ∧ Decodes 0xEC91CA03 (.rqryLen 9 7 10)

/-- R171, R172, R173, R175: `RATOM` and `RREL` make an item that their owner performs; `FENCE.TC` commits, waits until every
write and item of the stream has ended, and in its status form delivers and clears FCNT. -/
def Obligations.RemoteItemsAreIssuedAndFenced : Prop :=
∀ (s : State) (w : LongWord),
    ((Instr.ratom w).wf = true → RemoteForm (.ratom w) w.ty.toNat (reg s w.a) (w.aux.getLsbD 3) (fun x =>
      x.kind = .ratom (w.aux.extractLsb' 4 4).toNat w.ty.toNat (reg s w.a) (if w.aux.extractLsb' 4 4 = 7 then reg s w.c else reg s w.b) (reg s w.b) ∧
      x.valueReg = w.d.toNat ∧ x.statusReg = statusReg w ∧ x.scope = w.scope.toNat ∧ x.acquire = w.aux.getLsbD 2) s) ∧
    ((Instr.rrel w).wf = true → RemoteForm (.rrel w) w.ty.toNat (reg s w.a) true (fun x =>
      x.kind = .rrel w.ty.toNat (reg s w.a) (reg s w.b) ∧ x.valueReg = 0 ∧ x.statusReg = statusReg w ∧ x.scope = w.scope.toNat ∧ x.acquire = false) s) ∧
    (¬Drained s → exec (.fenceTc w) s = .next s) ∧
    (Drained s →
      let b := commitOwn s.cur s
      let live := ∃ i x, (i, x) ∈ b.items ∧ x.issuer = s.cur ∧ x.orphan = false ∧ x.block = itemBlock b s.cur ∧ x.sched = false
      ((self b).uw ≠ 0 ∨ live → exec (.fenceTc w) s = .next b) ∧
      ((self b).uw = 0 → ¬live → w.st = 0 → ∃ t, exec (.fenceTc w) s = .next t ∧ RegWrite 0 0 8 b t) ∧
      ((self b).uw = 0 → ¬live → w.st = 1 → ∃ t, exec (.fenceTc w) s = .next t ∧ StreamStep b t ∧
        (self t).spc = (self b).spc + 8 ∧ (self t).fcnt = 0 ∧ (self t).fstat = 0 ∧
        self t = { self b with s := (self t).s, spc := (self t).spc, fcnt := 0, fstat := 0 } ∧
        ∀ r, reg t r = if r = w.d ∧ w.d ≠ 0 then (self b).fcnt.zeroExtend 64 else reg b r)) ∧
    (∃ i, decode (.scalar 0xF8405000 0x00010000) = .ok (.fenceTc i) ∧ i.d = 5 ∧ i.st = 1) ∧
    (∃ i, decode (.scalar 0xF81061C8 0x00970100) = .ok (.ratom i) ∧ i.d = 6 ∧ i.a = 7 ∧ i.b = 8 ∧ i.e = 9 ∧ i.scope = 3)

/-- R91, R176, R178, R322, R323, R325, R328, R377: `LAUNCH` drains, commits, waits, and puts the launch that its record describes at the
end of the child queue, with the context and at most the priority of the launching stream, or ends it as its record says;
`CANCEL` takes 1 for an item it accepts, whose record has COUNT not 0 and CANC 0, and 0 for none. -/
def Obligations.ChildLaunchesAreQueuedAndCancelled : Prop :=
∀ (s : State) (w : LongWord),
    let va := reg s w.a
    let p := agentPkg s.cur
    let c := selfCtx s
    (isMcc s.cur = true → Traps (.launch w) s .illegal 0 0 ∧ Traps (.cancel w) s .illegal 0 0) ∧
    (isMcc s.cur = false → ¬Drained s → exec (.launch w) s = .next s) ∧
    (isMcc s.cur = false → Drained s → ¬controlAt 256 va → Traps (.launch w) s .protection 0x15 va) ∧
    (isMcc s.cur = false → Drained s → controlAt 256 va →
      let b := commitOwn s.cur s
      let id := b.nextId
      let gives (u : State) : Prop := exec (.launch w) s = .next (advance 8 u)
      ((self b).uw ≠ 0 → exec (.launch w) s = .next b) ∧
      ((self b).uw = 0 → 256 ≤ (b.pkg p).child.items.length → exec (.launch w) s = .next s) ∧
      ((self b).uw = 0 → (b.pkg p).child.items.length < 256 →
        (∀ x, readVia b (selfCtx b) 256 va 256 = .error (.trap x) → exec (.launch w) s = .next (takeTrap s.cur x false s)) ∧
        (∀ bs, readVia b (selfCtx b) 256 va 256 = .ok bs →
          let pair := childPair b
          let l := parseLaunch b p none va pair.1 pair.2.1 pair.2.2 bs
          let b0 := { b with nextId := id + 1 }.setLaunch id l
          let v := foldReads (launchCtx b0 l) ([va, va + 128, l.cc] ++ chainRecords b0 (launchCtx b0 l) 4 l.cc) b0
          (IsLaunch bs l ∧ l.queue = none ∧ l.ctxid = pair.1 ∧ l.ptbase = pair.2.1 ∧ l.prio ≤ pair.2.2) ∧
          (∀ r rows b1 es, counterOf v l = .ok r → launchOk l bs = true → field r 0 8 = l.count →
            readRows l (List.range l.nsched) v = .ok (rows, b1) → readSchedule { l with rows := rows } 0 rows b1 = .ok es →
            let b2 := b1.setLaunch id { l with rows := rows }
            let up : Word64 := BitVec.ofNat 64 (field r 8 8)
            (l.count = 0 → up = 0 → gives b2) ∧
            (l.count = 0 → up ≠ 0 → ∀ t, endRecord (launchCtx b2 l) 64 up 0 b2 = .ok (none, t) → gives t) ∧
            (l.count ≠ 0 → chainCancelled b2 (launchCtx b2 l) 4 l.cc = true → ∀ t, endUnplaced id 8 b2 = .ok t → gives t) ∧
            (l.count ≠ 0 → chainCancelled b2 (launchCtx b2 l) 4 l.cc = false →
              let q := (b2.pkg p).child
              gives (withQueue p 64 { q with items := q.items ++ [.launch id [] false] }
                (b2.setPkg p { b2.pkg p with accepted := (b2.pkg p).accepted ++ [id] })))) ∧
          ((∀ r, counterOf v l = .ok r → launchOk l bs = false ∨ field r 0 8 ≠ l.count ∨
              (∃ e, readRows l (List.range l.nsched) v = .error e) ∨
              ∃ rows b1 e, readRows l (List.range l.nsched) v = .ok (rows, b1) ∧ readSchedule { l with rows := rows } 0 rows b1 = .error e) →
            (∀ r pl t, counterOf v l = .ok r → controlPlace v (launchCtx v l) true 32 l.cc = .ok pl →
              endUnplaced id 5 (putDevice pl (leBytes 8 l.count) v) = .ok t → gives t) ∧
            (∀ e, counterOf v l = .error e → gives v))))) ∧
    (isMcc s.cur = false → ¬controlAt 8 va → Traps (.cancel w) s .protection 0x15 va) ∧
    (isMcc s.cur = false → controlAt 8 va →
      (∀ x, place s c { write := true } va 8 = .error (.trap x) → exec (.cancel w) s = .next (takeTrap s.cur x false s)) ∧
      ∀ q key, place s c { write := true } va 8 = .ok q → q.loc = .phys key →
        let n := namedBy s p key
        let lost := n.at (homesGone s)
        let bad := badAt s c q.loc 0x14
        (n.foreign (jobOf c.ctxid) = true → Traps (.cancel w) s .protection 0x14 0) ∧
        (n.foreign (jobOf c.ctxid) = false → ∀ v, endGone lost s = .ok v →
          (∀ k, bad = some k →
            (lost.launches = [] ∧ lost.queued = [] ∧ lost.handed = [] → Traps (.cancel w) s .memerr k va) ∧
            (lost.launches ≠ [] ∨ lost.queued ≠ [] ∨ lost.handed ≠ [] →
              exec (.cancel w) s = .next (advance 8 (mapSelf (fun x => { x with posted := some { cls := .memerr, detail := k, addr := va } }) v)))) ∧
          (bad = none →
            let f := folded q.loc v
            let bs := readPlace f c q 0x14
            let flags := field bs 0x12 2
            let dead := field bs 0 8 = 0 ∨ flags.testBit 0 = true
            (dead → ∃ t, exec (.cancel w) s = .next t ∧ RegWrite w.d 0 8 f t) ∧
            (¬dead → let g := putDevice { q with loc := .phys (key + 0x12) } (leBytes 2 (flags + 1)) f
              ∀ u, endNamed (n.at (fun k => !homesGone g k)) g = .ok u →
                ((self u).run ≠ .ended → ∃ t, exec (.cancel w) s = .next t ∧ RegWrite w.d 1 8 u t) ∧ ((self u).run = .ended → exec (.cancel w) s = .next u)))))

/-- R224, R258, R259, R262, R267, R269, R270, R272, R273: `CPY` and `COLL` check their descriptor and make one item, counted in CP for a
group or an MCC; `QFENCE` makes later items of the named queues wait for every item now in any of them. -/
def Obligations.CopiesAndCollectivesAreIssued : Prop :=
∀ (s : State) (w : LongWord),
    let va := reg s w.a
    let c := selfCtx s
    let q : QOwner × Nat := (queueOwner s s.cur, (w.aux.extractLsb' 0 3).toNat)
    let room (counted : Bool) : Prop := (counted = true → (self s).cp < 31) ∧ (s.engine q).items.length < 32
    let traps (i : Instr) (t : Trap) : Prop := exec i s = .next (takeTrap s.cur t false s)
    (∀ x, DescriptorTrap s va x → traps (.cpy w) x ∧ traps (.coll w) x) ∧
    (∀ bs, DescriptorAt s va bs → copyOk c.pkg bs = false → Traps (.cpy w) s .protection 0x19 0) ∧
    (∀ bs, DescriptorAt s va bs → copyOk c.pkg bs = true → ∃ d, IsCopy bs d ∧
      let s0 := foldReads c [va] s
      let x : Item := { freshItem s0 s.cur (.copy d none) c with scope := w.scope.toNat, owner := some q, counted := !isCtl s.cur, statusReg := statusReg w }
      (∀ t, copyRecord x d s0 = .error (.trap t) → traps (.cpy w) t) ∧
      (∀ rag s1, copyRecord x d s0 = .ok (rag, s1) →
        (∀ t, checkPhaser c.pkg (isMe s1) true d.phaser s1 = .error (.trap t) → traps (.cpy w) t) ∧
        (checkPhaser c.pkg (isMe s1) true d.phaser s1 = .ok () →
          (∀ t, copyItem x d rag none s1 = .error (.trap t) → traps (.cpy w) t) ∧
          ∀ it, copyItem x d rag none s1 = .ok it →
            (it.kind = .copy d rag ∧ it.phaser = d.phaser ∧ it.counted = x.counted ∧ it.statusReg = x.statusReg) ∧
            (∀ t, recordPlace s1 c d.crec = .error (.trap t) → traps (.cpy w) t) ∧
            ∀ r, recordPlace s1 c d.crec = .ok r →
              (¬room it.counted → exec (.cpy w) s = .next s) ∧
              (room it.counted → it.elems ≠ [] → ∃ t, exec (.cpy w) s = .next t ∧ ItemIssued { it with crec := r } 8 s1 t) ∧
              (room it.counted → it.elems = [] → blockSaved s1 it = false →
                (isGroup s.cur = true → (s1.block (selfGroup s).block).sched = []) → ∃ t, exec (.cpy w) s = .next t ∧
                Table.find? t.items s1.nextId = none ∧ (self t).spc = (self s).spc + 8 ∧ (self t).cp = (self s).cp)))) ∧
    (∀ bs, DescriptorAt s va bs → collFieldsOk c.pkg bs (collOf w bs []) = false → Traps (.coll w) s .protection 0x19 0) ∧
    (∀ bs, DescriptorAt s va bs → collFieldsOk c.pkg bs (collOf w bs []) = true →
      let table := readMembers s c (BitVec.ofNat 64 (field bs 0x18 8)) (List.range (field bs 0x14 2))
      (∀ t, table = .error (.trap t) → traps (.coll w) t) ∧
      ∀ memb, table = .ok memb →
        let d := collOf w bs memb
        let n := collNibbles c d
        let s0 := foldReads c (va :: (List.range memb.length).map (fun i => BitVec.ofNat 64 (field bs 0x18 8 + 2 * i))) s
        (membersOk c.pkg w.scope.toNat d = false → Traps (.coll w) s .protection 0x19 0) ∧
        (membersOk c.pkg w.scope.toNat d = true → d.sbuf = d.rbuf → d.op ≠ 0 → d.op ≠ 4 → Traps (.coll w) s .protection 0x1A 0) ∧
        (membersOk c.pkg w.scope.toNat d = true → (d.sbuf = d.rbuf → d.op = 0 ∨ d.op = 4) →
          (∀ t, collRecord c d d.shandle s0 = .error (.trap t) → traps (.coll w) t) ∧
          ∀ srag s1, collRecord c d d.shandle s0 = .ok (srag, s1) →
            (∀ t, collRecord c d d.dhandle s1 = .error (.trap t) → traps (.coll w) t) ∧
            ∀ drag s2, collRecord c d d.dhandle s1 = .ok (drag, s2) →
              let sent := sendPositions d srag n
              let taken := receivePositions d drag n
              (overlapBad d n sent taken = true → Traps (.coll w) s .protection 0x1A 0) ∧
              (overlapBad d n sent taken = false → (∀ t, checkPhaser c.pkg (isMe s2) true d.phaser s2 = .error (.trap t) → traps (.coll w) t) ∧
                (checkPhaser c.pkg (isMe s2) true d.phaser s2 = .ok () →
                  let x : Item := { freshItem s2 s.cur (.coll d srag drag) c with
                    scope := w.scope.toNat, owner := some q, counted := !isCtl s.cur, statusReg := statusReg w, phaser := d.phaser
                    peers := if d.insw then [] else (d.memb.filter (· ≠ c.pkg)).eraseDups }
                  ∀ sends outs r, keyedSides s2 x false d.ty n sent = .ok sends → keyedSides s2 x true d.ty n taken = .ok outs →
                    recordPlace s2 c d.crec = .ok r →
                    (room x.counted → ∃ t, exec (.coll w) s = .next t ∧ ItemIssued { x with sends := sends, outs := outs, crec := r } 8 s2 t) ∧
                    (¬room x.counted → exec (.coll w) s = .next s))))) ∧
    (w.aux ≠ 0 →
      let ahead (i : Nat) : Prop := ∃ n, n < 8 ∧ w.aux.getLsbD n = true ∧ (i ∈ (s.engine (q.1, n)).items ∨ i ∈ (s.engine (q.1, n)).after)
      ∃ t, exec (.qfence w) s = .next t ∧ self t = { self s with spc := (self s).spc + 8 } ∧
        t = { s with streams := t.streams, engq := t.engq, blocks := t.blocks, past := t.past } ∧
        (∀ n, n < 8 → w.aux.getLsbD n = true → (t.engine (q.1, n)).items = (s.engine (q.1, n)).items ∧ ∀ i, i ∈ (t.engine (q.1, n)).after ↔ ahead i) ∧
        ∀ o, (∀ n, n < 8 → w.aux.getLsbD n = true → o ≠ (q.1, n)) → t.engine o = s.engine o) ∧
    (w.aux = 0 → Traps (.qfence w) s .illegal 0 0)

/-- R65, R72, R119, R120, R299, R300, R320: the forms of control cores: `KICK`, `SLEEP`, `WAKE`, `TLBINV`, `JROOT`, `KBIND`. -/
def Obligations.ControlCoreForms : Prop :=
∀ (s : State) (w : LongWord),
    let p := agentPkg s.cur
    let a := (reg s w.a).toNat
    let b := (reg s w.b).toNat
    (∀ i, i = .kick w ∨ i = .sleep w ∨ i = .wake w ∨ i = .tlbinv w ∨ i = .jroot w ∨ i = .kbind w → ControlForm i s) ∧
    (∀ n, s.cur = .ctl p n → sysMode s s.cur = true →
      (64 ≤ a → Traps (.kick w) s .illegal 0 0) ∧
      (a < 64 → (self s).uw ≠ 0 → exec (.kick w) s = .next s) ∧
      (a < 64 → (self s).uw = 0 →
        let key := physKey p 0 ((s.pkg p).qtab % 2 ^ 36 + 64 * a)
        let f := folded (.phys key) s
        let bs := readRange f (slotMaterial s p 0) key 64
        let q := Vec.get (s.pkg p).queues a
        let takes (q' : LaunchQ) : Prop := ∃ t, exec (.kick w) s = .next t ∧ Steps8 (f.setPkg p { s.pkg p with queues := Vec.set (s.pkg p).queues a q' }) t
        (field bs 0x29 1 = 0 → takes { q with kicked := none }) ∧
        (field bs 0x29 1 ≠ 0 → queueDescOk p bs = true → (field bs 0x18 8 + 2 ^ 64 - field bs 0x20 8) % 2 ^ 64 ≤ field bs 8 4 →
          takes { q with kicked := if field bs 0x18 8 = field bs 0x20 8 then none else some (BitVec.ofNat 64 (field bs 0x18 8)), ring := field bs 0 8, nent := field bs 8 4,
                         ctxid := BitVec.ofNat 32 (field bs 0xC 4), ptbase := BitVec.ofNat 64 (field bs 0x10 8), qprio := field bs 0x28 1 }) ∧
        (field bs 0x29 1 ≠ 0 → queueDescOk p bs = false ∨ field bs 8 4 < (field bs 0x18 8 + 2 ^ 64 - field bs 0x20 8) % 2 ^ 64 →
          ∃ t, exec (.kick w) s = .next t ∧ self t = { self s with spc := (self s).spc + 8 } ∧ (Vec.get (t.pkg p).queues a).kicked = none)) ∧
      ((s.ctl (p, n)).wake = true → ∃ t, exec (.sleep w) s = .next t ∧ Steps8 (s.setCtl (p, n) { s.ctl (p, n) with wake := false }) t) ∧
      ((s.ctl (p, n)).wake = false → ∃ t, exec (.sleep w) s = .next t ∧ StreamStep s t ∧ self t = { self s with spc := (self s).spc + 8, run := .sleeping }) ∧
      (2 ^ 11 ≤ a → Traps (.wake w) s .illegal 0 0) ∧
      (a < 2 ^ 11 →
        let tp := p / 64 * 64 + a / 32
        let up := packageUp s p tp = true ∧ (s.pkg tp).muniment.ctls.getD (a % 32) 0 = 1
        let wakes (x : State) : Prop := ∃ t, exec (.wake w) s = .next t ∧ Steps8 x t
        (¬up → wakes s) ∧
        (up → (s.stream (.ctl tp (a % 32))).run = .sleeping → wakes (s.setStream (.ctl tp (a % 32)) { s.stream (.ctl tp (a % 32)) with run := .running })) ∧
        (up → (s.stream (.ctl tp (a % 32))).run ≠ .sleeping → wakes (s.setCtl (tp, a % 32) { s.ctl (tp, a % 32) with wake := true }))) ∧
      ((Instr.tlbinv w).wf = true →
        let kind : Inval := if w.aux = 0 then .all else if w.aux = 1 then .ctx (a % 2 ^ 16) else .page (a % 2 ^ 16) (reg s w.b)
        let inScope (q : Nat) : Bool := if w.scope = 3 then q == p else (Table.find? s.pkgs q).isSome && panelOf q == panelOf p
        (usesDropped s (scopePkgs s w.scope) kind = true → exec (.tlbinv w) s = .next s) ∧
        (usesDropped s (scopePkgs s w.scope) kind = false → ∃ t, exec (.tlbinv w) s = .next t ∧
          Steps8 { s with stale := s.stale.map (fun x => if inScope (keyPkg (x.word * 8)) then { x with gone := addOnce kind x.gone } else x) } t)) ∧
      (2 ^ 16 ≤ a ∨ (b ≠ 0 ∧ (b % 0x8000 ≠ 0 ∨ b / 2 ^ 36 ≠ p % 64 ∨ ctlSize ≤ b % 2 ^ 36)) → Traps (.jroot w) s .illegal 0 0) ∧
      (a < 2 ^ 16 → b % 0x8000 = 0 → b / 2 ^ 36 = p % 64 → b % 2 ^ 36 < ctlSize → b ≠ 0 →
        ∃ t, exec (.jroot w) s = .next t ∧ Steps8 (s.setPkg p { s.pkg p with jroots := Table.put (s.pkg p).jroots a (reg s w.b) }) t) ∧
      (a < 2 ^ 16 → b = 0 → ∃ t, exec (.jroot w) s = .next t ∧ Steps8 (s.setPkg p { s.pkg p with jroots := Table.del (s.pkg p).jroots a }) t) ∧
      (2 ^ 8 ≤ a ∨ 2 ^ 17 ≤ b ∨ (a = 0 ∧ b % 2 ^ 16 ≠ 0) → Traps (.kbind w) s .illegal 0 0) ∧
      (a < 2 ^ 8 → b < 2 ^ 17 → (a = 0 → b % 2 ^ 16 = 0) →
        let k := Table.find? (s.pkg p).keys a
        ∃ t, exec (.kbind w) s = .next t ∧ self t = { self s with spc := (self s).spc + 8 } ∧ (∀ q, q ≠ p → t.pkg q = s.pkg q) ∧
          t = { s with streams := t.streams, pkgs := t.pkgs } ∧
          (∀ j, j ≠ a → Table.find? (t.pkg p).keys j = Table.find? (s.pkg p).keys j) ∧
          (2 ^ 16 ≤ b → a ≠ 0 → ∃ x, Table.find? (t.pkg p).keys a = some x ∧ x.job = none ∧ x.material = (s.pkg p).nextMaterial ∧ (s.pkg p).nextMaterial < (t.pkg p).nextMaterial) ∧
          (2 ^ 16 ≤ b → a = 0 → Table.find? (t.pkg p).keys 0 = k) ∧
          (b < 2 ^ 16 → ∃ x, Table.find? (t.pkg p).keys a = some x ∧ x.job = some b ∧ (∀ y, k = some y → x.material = y.material))))

/-- R249, R250: `HGIX` delivers the index and the address of one corner's entry; its checks in order. -/
def Obligations.GridIndicesAreComputed : Prop :=
∀ (s : State) (w : LongWord),
    let c := selfCtx s
    let h := reg s w.a
    let lvl := (reg s w.b).toNat
    let va := reg s w.c
    (2 ^ 32 ≤ h.toNat → Traps (.hgix w) s .hgrid 1 0) ∧
    (h = 0 → (self s).ld < 63 → Traps (.hgix w) s .hgrid 1 0) ∧
    (h.toNat < 2 ^ 32 → (self s).ld < 63 →
      (∀ x, gridSnapshot c h.toNat s = .error (.trap x) → exec (.hgix w) s = .next (takeTrap s.cur x false s)) ∧
      ∀ g s1, gridSnapshot c h.toNat s = .ok (g, s1) →
        (g.levels ≤ lvl → Traps (.hgix w) s .hgrid 5 0) ∧
        (lvl < g.levels → va.toNat % 64 ≠ 0 → Traps (.hgix w) s .hgrid 6 va) ∧
        (lvl < g.levels → va.toNat % 64 = 0 → ∀ x, place s1 c {} va (4 * g.dims) = .error (.trap x) → exec (.hgix w) s = .next (takeTrap s.cur x false s)) ∧
        (lvl < g.levels → va.toNat % 64 = 0 → ∀ p, place s1 c {} va (4 * g.dims) = .ok p → lineFull s1 c p.loc = true → badAt (foldAt p.loc s1) c p.loc (4 * g.dims) = none →
          let b := foldAt p.loc s1
          let n := g.res.getD lvl 0
          let ks := (List.range g.dims).map (fun i => field (readOwn b c p (4 * g.dims)) (4 * i) 4)
          let ks' := if g.wrap then ks.map (· % n) else ks
          let dense := (n + 1) ^ g.dims ≤ 2 ^ g.log2t
          let hash := ((List.range g.dims).foldl (fun t i => t ^^^ (ks'.getD i 0 * gridPi.getD i 0 % 2 ^ 32)) 0) ^^^ (if g.salted then g.salt.getD lvl 0 else 0)
          let row := ((List.range g.dims).map (fun i => ks'.getD i 0 * (n + 1) ^ (g.dims - 1 - i))).sum
          let i := if dense then row else hash % 2 ^ g.log2t
          let entry : Word64 := BitVec.ofNat 64 (g.base.toNat + (lvl * 2 ^ g.log2t + i) * g.fwid * (if g.ftype = 1 then 4 else 2))
          (g.wrap = false → (∃ k, k ∈ ks ∧ n < k) → Traps (.hgix w) s .hgrid 5 va) ∧
          ((g.wrap = true ∨ ∀ k, k ∈ ks → k ≤ n) → g.dims ≤ 16 → w.d ≠ w.e → ∃ t, exec (.hgix w) s = .next t ∧ Delivering [.s w.e (BitVec.ofNat 64 i), .s w.d entry] 8 b t) ∧
          ((g.wrap = true ∨ ∀ k, k ∈ ks → k ≤ n) → g.dims ≤ 16 → w.d = w.e → ∃ t, exec (.hgix w) s = .next t ∧ Delivering [.s w.d entry] 8 b t)))

/-- A tile instruction queues an operation with its registers' values on some blocks. -/
def Queues (i : Instr) (w : TileWord) (k : Nat × Nat) (blocks : List Nat) (s : State) : Prop :=
  ∃ op b t, exec i s = .next t ∧ TileQueued k op b t ∧ FreshOp i w s op ∧ op.blocks = blocks

/-- `TRED`, `TNORM` and `TSMAX` are queued where the shape, the two regions, the scalar and the bound record are as R187, R190,
R203 to R205 and R227 ask. -/
def RowForm (i : Instr) (w : TileWord) (k : Nat × Nat) (scalar : Bool) (s : State) : Prop :=
  let vd := reg s w.d
  let va := reg s w.a
  let vc := reg s w.c
  let bs := named s k vd
  ShapeOk w vc false → MaskOk s k vd → AccOk s vd (mcOf vc) (nOf vc) bs → AccOk s va (mcOf vc) (nOf vc) bs → va.extractLsb' 32 8 = 0 →
  (scalar = true → (reg s w.b).extractLsb' 32 32 = 0) →
  (vd.extractLsb' 0 32 = va.extractLsb' 0 32 ∨ ∀ x y, x < mcOf vc → y < mcOf vc →
    elementAt vd x 0 + 4 * nOf vc ≤ elementAt va y 0 ∨ elementAt va y 0 + 4 * nOf vc ≤ elementAt vd x 0) →
  (w.aux.getLsbD 3 = true → ∃ x r b, Vec.get (s.mcc k).bind w.sn.toNat = some x ∧ snapshot (newOp i s).ctx x.handle s = .ok (r, b) ∧ r.policy ≠ 2) →
  TileRoom s k w.sn.toNat → Queues i w k bs s

/-- The nibble position of element (r, c) of the memory side of a transfer whose elements take `n` nibbles (R201). -/
def transferPos (s : State) (w : TileWord) (n r c : Nat) : Nat :=
  let pitch := ((reg s w.b).extractLsb' 0 32).toNat
  nibblePos (reg s w.a) (r * (if n = 1 then pitch else 2 * pitch) + c * n : Nat)

/-- What the registers of `ACCST`, `ACCLD` and `TCVT` hold, the memory apart: a type in use, a stream without accesses under way, the
shape, the blocks and their region, the pitch (R193, R201). -/
def TransferRegs (w : TileWord) (k : Nat × Nat) (n : Nat) (bs : List Nat) (s : State) : Prop :=
  let vd := reg s w.d
  let vb := reg s w.b
  let vc := reg s w.c
  (w.tya.toNat < 16 ∨ (slotOf (selfCtx s).slots (w.tya.toNat - 16)).isSome) ∧ (self s).ld = 0 ∧ (self s).st = 0 ∧ ShapeOk w vc false ∧
  (if isMcc s.cur then MaskOk s k vd ∧ bs = named s k vd else vd.extractLsb' 32 8 = 0 ∧ bs = [(selfGroup s).block]) ∧
  AccOk s vd (mcOf vc) (nOf vc) bs ∧ vb.extractLsb' 32 32 = 0 ∧
  nOf vc * n ≤ (if n = 1 then (vb.extractLsb' 0 32).toNat else 2 * (vb.extractLsb' 0 32).toNat)

/-- `ACCST` and `ACCLD` are queued where every element that the limits leave may be accessed, `.pg` on no block-scaled page
(R193, R201). -/
def TransferForm (i : Instr) (w : TileWord) (k : Nat × Nat) (write : Bool) (s : State) : Prop :=
  let vc := reg s w.c
  let t := w.tya.toNat
  let n := memNibbles s (newOp i s) t
  ∀ bs, TransferRegs w k n bs s →
  (∀ q r c, q < bs.length → r < mcOf vc → c < nOf vc → (w.mrow = 1 → q * mcOf vc + r < (vc.extractLsb' 18 11).toNat) → (w.mcol = 1 → c < (vc.extractLsb' 29 11).toNat) →
    ∃ p, tilePlace s (newOp i s).ctx { write, ty := t, elem := if t = 13 then some n else none } (some (bs.getD q 0))
        (sideVa (transferPos s w n (q * mcOf vc + r) c) 0) (nibbleBytes n) = .ok p ∧
      (t = 13 → ∀ pg, p.page = some pg → pg.leaf.extractLsb' 45 2 = 0)) →
  TileRoom s k w.sn.toNat → Queues i w k bs s

/-- `TCVT` is queued where its elements are whole blocks of block-scaled pages with their scale slots set (R39, R193, R202). -/
def QuantiseForm (w : TileWord) (k : Nat × Nat) (s : State) : Prop :=
  let t := w.tya.toNat
  let op := newOp (.tcvt w) s
  ∀ bs op', TransferRegs w k (memNibbles s op t) bs s → elemChecks s { op with blocks := bs } { write := true, ty := t } = .ok op' →
  (∀ e, e ∈ allElems op' → (scaleKey s op' (memSide s op' t e)).isSome ∧ ∀ p, p ∈ (memSide s op' t e).places → scaleUnset op'.ctx t p = false) →
  (∀ g, g ∈ (blockElems s op').map (·.1) → ((blockElems s op').filter (fun x => x.1 == g)).length = g.2) →
  TileRoom s k w.sn.toNat → Queues (.tcvt w) w k bs s

/-- A weight descriptor of a load (R189, R199). -/
def LoadDesc (s : State) (k : Nat × Nat) (vd : Word64) : Prop :=
  vd.extractLsb' 40 24 = 0 ∧ vd.extractLsb' 18 14 = 0 ∧ (vd.extractLsb' 0 18).toNat % 128 = 0 ∧ MaskOk s k vd ∧ (self s).ld = 0 ∧ (self s).st = 0

/-- `WLOAD.img` is queued where its header is valid, the image fits and may be read (R197, R199). -/
def ImageForm (w : TileWord) (k : Nat × Nat) (s : State) : Prop :=
  let op := newOp (.wloadImg w) s
  let may (b : State) (m : Nat) : Prop := ∀ x, x ∈ rangeChunks op.va (m / 128 + 2) m → ∃ p, tilePlace b op.ctx byteUse x.1 x.2.1 x.2.2 = .ok p
  ∀ ps, LoadDesc s k op.vd → op.vb = 0 → op.vc = 0 → checkPlaces s op.ctx byteUse (rangeChunks op.va 3 128) [] = .ok ps →
    let op1 := { op with blocks := named s k op.vd, pages := ps }
    let b := foldKeys (rangeKeys s op1 op.va 128) s
    let hd := (List.range 128).map (fun i => BitVec.ofNat 8 (sourceByte b op1 (op.va + BitVec.ofNat 64 i)))
    hdrOk op.ctx.slots hd = true → (op.vd.extractLsb' 0 18).toNat + hdrTotal hd ≤ 0x40000 → may b (hdrTotal hd) → rangeBad b op1 op.va 128 = none →
    TileRoom s k w.sn.toNat →
    ∃ op' t, exec (.wloadImg w) s = .next t ∧ TileQueued k op' b t ∧ FreshOp (.wloadImg w) w s op' ∧ op'.blocks = named s k op.vd ∧ op'.headers = [hd]

/-- `WLOAD.dense` is queued where its array fits and may be read (R199). -/
def DenseForm (w : TileWord) (k : Nat × Nat) (s : State) : Prop :=
  let vd := reg s w.d
  let vb := reg s w.b
  let vc := reg s w.c
  let slots := (selfCtx s).slots
  let n := matNibbles slots w.tyb.toNat
  let pitch := (vb.extractLsb' 0 32).toNat
  (w.tyb.toNat < 16 ∨ (slotOf slots (w.tyb.toNat - 16)).isSome) → LoadDesc s k vd → vb.extractLsb' 32 32 = 0 →
  (if w.tb = 1 then kOf vc else nOf vc) * n ≤ 2 * pitch → ShapeOk w vc true → vc.extractLsb' 0 4 = 0 →
  (vd.extractLsb' 0 18).toNat + 128 + (nOf vc * kOf vc * n / 2 + 127) / 128 * 128 ≤ 0x40000 →
  (∀ r c i, r < kOf vc → c < nOf vc → i < nibbleBytes n →
    ∃ p, tilePlace s (newOp (.wloadDense w) s).ctx byteUse none
      (sideVa (nibblePos (reg s w.a) (if w.tb = 1 then c * (2 * pitch) + r * n else r * (2 * pitch) + c * n : Nat)) i) 1 = .ok p) →
  TileRoom s k w.sn.toNat → Queues (.wloadDense w) w k (named s k vd) s

/-- R184, R185, R193, R199, R201 to R205: a tile instruction whose checks pass joins its ordering stream and counts in TL, and what
its registers, its region and its memory must be for that; the MCC stream alone issues all but `ACCST` and `TSYNC`, which a
group hands to the MCC of its launch. -/
def Obligations.TileInstructionsAreQueued : Prop :=
∀ (s : State) (w : TileWord),
    let sn := w.sn.toNat
    (∀ i, i ∈ [Instr.mma w, .mmd w, .mzero w, .wloadImg w, .wloadDense w, .wupd w, .accld w, .tred w, .tcvt w, .tnorm w, .tsmax w] →
      isMcc s.cur = false → Traps i s .illegal 0 0) ∧
    (∀ p c, s.cur = .mcc p c →
      let k := (p, c)
      TileForm (.mma w) k sn (mmaOp w k s) s ∧ TileForm (.mmd w) k sn (mmdOp w k s) s ∧ TileForm (.mzero w) k sn (mzeroOp w k s) s ∧
      TileForm (.wloadImg w) k sn (wloadImgOp w k s) s ∧ TileForm (.wloadDense w) k sn (wloadDenseOp w k s) s ∧ TileForm (.wupd w) k sn (wupdOp w k s) s ∧
      TileForm (.accst w) k sn (accstOp w k s) s ∧ TileForm (.accld w) k sn (accldOp w k s) s ∧ TileForm (.tcvt w) k sn (tcvtOp w k s) s ∧
      TileForm (.tred w) k sn (tredOp w k s) s ∧ TileForm (.tnorm w) k sn (tnormOp w k s) s ∧ TileForm (.tsmax w) k sn (tsmaxOp w k s) s ∧
      (reg s w.d ≠ 0 → TileRoom s k sn → ∃ op t, exec (.wupd w) s = .next t ∧ TileQueued k op s t ∧ FreshOp (.wupd w) w s op) ∧
      RowForm (.tred w) w k false s ∧ RowForm (.tnorm w) w k true s ∧ RowForm (.tsmax w) w k true s ∧ TransferForm (.accst w) w k true s ∧
      TransferForm (.accld w) w k false s ∧ QuantiseForm w k s ∧ ImageForm w k s ∧ DenseForm w k s) ∧
    (∀ p c v, s.cur = .group p c v →
      let k := (p, c / 117 * 13 + c % 117 / 9)
      let m := (s.launch (s.block (selfGroup s).block).launch).mcode
      (m = 0 → Traps (.accst w) s .illegal 0 0 ∧ Traps (.tsync w) s .illegal 0 0) ∧
      (m ≠ 0 → TileForm (.accst w) k sn (accstOp w k s) s ∧ TransferForm (.accst w) w k true s)) ∧
    (isCtl s.cur = true → Traps (.accst w) s .illegal 0 0 ∧ Traps (.tsync w) s .illegal 0 0)

/-- R187 to R190, R193, R194, R200, R210: `MZERO`, `MMA` and `MMD` are queued where their descriptors, shape, images and bounds
are as those rules give, and the bound record's policy allows it; the first field that breaks them traps. -/
def Obligations.TileDescriptorsAreChecked : Prop :=
∀ (s : State) (w : TileWord) (p c : Nat), s.cur = .mcc p c →
    let k := (p, c)
    let sn := w.sn.toNat
    let vd := reg s w.d
    let va := reg s w.a
    let vb := reg s w.b
    let vc := reg s w.c
    let bs := named s k vd
    let slots := (selfCtx s).slots
    let set (t : BitVec 5) : Prop := t.toNat < 16 ∨ (slotOf slots (t.toNat - 16)).isSome
    let tys := set w.tya ∧ set w.tyb
    let bound (op : TileOp) (b : State) : Prop :=
      (w.aux.getLsbD 3 = false ∧ op.bind = none ∧ b = s) ∨
      (w.aux.getLsbD 3 = true ∧ ∃ x r, Vec.get (s.mcc k).bind sn = some x ∧ snapshot op.ctx x.handle s = .ok (r, b) ∧ op.bind = some (x, r) ∧ r.policy ≠ 2)
    let queued (i : Instr) (recorded : Bool) : Prop := ∃ op b t, exec i s = .next t ∧ TileQueued k op b t ∧ FreshOp i w s op ∧ op.blocks = bs ∧ (recorded = false → b = s) ∧
      (recorded = true → bound op b)
    (ShapeOk w vc false → MaskOk s k vd → AccOk s vd (mcOf vc) (nOf vc) bs → TileRoom s k sn → queued (.mzero w) false) ∧
    (vd.extractLsb' 40 24 ≠ 0 → Traps (.mzero w) s .tile 1 0) ∧
    (ShapeOk w vc false → vd.extractLsb' 40 24 = 0 → 128 * (vd.extractLsb' 24 8).toNat < 4 * nOf vc → Traps (.mzero w) s .tile 4 0) ∧
    (ShapeOk w vc false → vd.extractLsb' 40 24 = 0 → 4 * nOf vc ≤ 128 * (vd.extractLsb' 24 8).toNat → ¬MaskOk s k vd → Traps (.mzero w) s .tile 2 0) ∧
    (vd.extractLsb' 40 24 = 0 → 4 * nOf vc ≤ 128 * (vd.extractLsb' 24 8).toNat → MaskOk s k vd → ¬ShapeOk w vc false → Traps (.mzero w) s .tile 1 0) ∧
    (ShapeOk w vc false → MaskOk s k vd → vd.extractLsb' 40 24 = 0 → 4 * nOf vc ≤ 128 * (vd.extractLsb' 24 8).toNat →
      (vd.extractLsb' 0 24).toNat % 128 ≠ 0 → Traps (.mzero w) s .bound 4 0) ∧
    (ShapeOk w vc false → MaskOk s k vd → vd.extractLsb' 40 24 = 0 → 4 * nOf vc ≤ 128 * (vd.extractLsb' 24 8).toNat →
      (vd.extractLsb' 0 24).toNat % 128 = 0 → ¬AccOk s vd (mcOf vc) (nOf vc) bs → Traps (.mzero w) s .bound 3 0) ∧
    (¬tys → Traps (.mma w) s .illegal 0 0 ∧ Traps (.mmd w) s .illegal 0 0) ∧
    (tys → ShapeOk w vc true → MaskOk s k vd → AccOk s vd (mcOf vc) (nOf vc) bs →
      ScrOk s slots w.tya.toNat va (if w.ta = 1 then kOf vc else mcOf vc) (if w.ta = 1 then mcOf vc else kOf vc) bs →
      WgtOk s k slots sn w.tyb.toNat vb (if w.tb = 1 then nOf vc else kOf vc) (if w.tb = 1 then kOf vc else nOf vc) bs → TileRoom s k sn →
      (w.aux.getLsbD 3 = true → ∃ x r b, Vec.get (s.mcc k).bind sn = some x ∧ snapshot (newOp (.mma w) s).ctx x.handle s = .ok (r, b) ∧ r.policy ≠ 2) →
      queued (.mma w) true) ∧
    (tys → ShapeOk w vc true → MaskOk s k vd → AccOk s vd (mcOf vc) (kOf vc) bs → (reg s (w.d + 1)).extractLsb' 32 8 = 0 → AccOk s (reg s (w.d + 1)) (kOf vc) (nOf vc) bs →
      ScrOk s slots w.tya.toNat va (mcOf vc) (nOf vc) bs → ScrOk s slots w.tya.toNat (reg s (w.a + 1)) (mcOf vc) (kOf vc) bs →
      WgtOk s k slots sn w.tyb.toNat vb (kOf vc) (nOf vc) bs → TileRoom s k sn → kOf vc ≤ 1024 →
      (∀ i j x y, i < mcOf vc → j < kOf vc → x < kOf vc → y < nOf vc →
        elementAt vd i x + 4 ≤ elementAt (reg s (w.d + 1)) j y ∨ elementAt (reg s (w.d + 1)) j y + 4 ≤ elementAt vd i x) →
      (w.aux.getLsbD 3 = true → ∃ x r b, Vec.get (s.mcc k).bind sn = some x ∧ snapshot (newOp (.mmd w) s).ctx x.handle s = .ok (r, b) ∧ r.policy ≠ 2) →
      queued (.mmd w) true) ∧
    (tys → w.aux.getLsbD 3 = true → Vec.get (s.mcc k).bind sn = none → ShapeOk w vc true → MaskOk s k vd → AccOk s vd (mcOf vc) (nOf vc) bs →
      ScrOk s slots w.tya.toNat va (if w.ta = 1 then kOf vc else mcOf vc) (if w.ta = 1 then mcOf vc else kOf vc) bs → vb.extractLsb' 18 46 = 0 →
      Traps (.mma w) s .tile 0xB 0)

/-- R185, R186, R194, R200, R208: the operations in a stream: a step makes its element updates, an arrival joins the tail, a
completion raises the stream count and lowers TL; `TSYNC` waits for the count. -/
def Obligations.TileOperationsRun : Prop :=
(∀ (s : State) (p c : Nat) (n : BitVec 3) (op : TileOp) (rest : List TileOp), Vec.get (s.mcc (p, c)).ops n.toNat = op :: rest →
    let k := (p, c)
    (tileSteps op ≤ op.step → ∃ t, exec (.tileOpComplete p c n) s = .next t ∧
      t.mcc k = { s.mcc k with ops := Vec.set (s.mcc k).ops n.toNat rest, tsc := Vec.set (s.mcc k).tsc n.toNat (Vec.get (s.mcc k).tsc n.toNat + 1) } ∧
      t = { s with mccs := t.mccs, streams := t.streams } ∧
      (blockOf s op.issuer = op.block → (Table.find? s.streams op.issuer).isSome → t.stream op.issuer = { s.stream op.issuer with tl := (s.stream op.issuer).tl - 1 }) ∧
      (blockOf s op.issuer ≠ op.block → t.streams = s.streams) ∧ ∀ a, a ≠ op.issuer → t.stream a = s.stream a) ∧
    (op.step < tileSteps op → exec (.tileOpComplete p c n) s = .next s) ∧
    (tileSteps op ≤ op.step ∨ (s.mcc k).fenced = true ∨ (op.sub = 0 ∧ gangStops s k = true) ∨ stepReady s op = false → exec (.tileStep p c n) s = .next s) ∧
    (op.step < tileSteps op → (s.mcc k).fenced = false → ¬(op.sub = 0 ∧ gangStops s k = true) → stepReady s op = true →
      let us := (stepUnits s op op.step).drop op.sub
      ∃ t m, exec (.tileStep p c n) s = .next t ∧ (us ≠ [] → 0 < m) ∧ m ≤ us.length ∧
        (Vec.get (t.mcc k).ops n.toNat).tail = rest ∧
        (m = us.length → ((Vec.get (t.mcc k).ops n.toNat).headD op).step = op.step + 1 ∧ ((Vec.get (t.mcc k).ops n.toNat).headD op).sub = 0) ∧
        (m < us.length → ((Vec.get (t.mcc k).ops n.toNat).headD op).step = op.step ∧ ((Vec.get (t.mcc k).ops n.toNat).headD op).sub = op.sub + m) ∧
        (t.mcc k).tsc = (s.mcc k).tsc ∧ t.mem = (seqAll (runUnit k n.toNat) (us.take m) (takeDraws k n.toNat op s)).mem)) ∧
  (∀ (s : State) (p c n : Nat) (op : TileOp) (rest : List TileOp) (w : TileWord) (q i e kb : Nat), Canonical s → n < 8 →
    Vec.get (s.mcc (p, c)).ops n = op :: rest → op.instr = .mma w → (Table.find? s.blocks (op.blocks.getD q 0)).isSome →
    let blk := op.blocks.getD q 0
    let o := elementAt op.vd i e
    let acc := if w.aux.getLsbD 0 = true ∧ kb = 0 then 0 else accRead s blk o
    let h := op.shape
    let ks := min (64 / matNibbles op.ctx.slots w.tya.toNat) (64 / matNibbles op.ctx.slots w.tyb.toNat)
    let term (d : Nat) : Sys2Proof.Machine.Num :=
      if d < h.k ∧ under h.lk d = true ∧ admits op (some (q * h.mc + i)) (some e) (some d) = true then
        match opWeight s op q d e with
        | some b => (scrNum s op w.tya.toNat op.va (w.ta == 1) q i d).mul b
        | none => .zero
      else .zero
    let sum := sumTerms ((List.range ks).map (fun j => term (kb * ks + j)))
    let u := runUnit (p, c) n (.mac q i e kb) s
    AccStep blk o s u ∧
    (w.tya ≠ 5 → w.tya ≠ 9 → accRead u blk o = fmt32.round rneMode (Sys2Proof.Machine.Num.add false (fmt32.decode acc) sum) % 2 ^ 32) ∧
    (w.tya = 5 ∨ w.tya = 9 → ∀ g m x, sum = .fin g m x → accRead u blk o = wrapNat 32 (acc + Sys2Proof.Machine.Num.toIntRnd rneMode g m x) % 2 ^ 32)) ∧
  (∀ (s : State) (p c n : Nat) (op : TileOp) (rest : List TileOp) (q i e : Nat), Canonical s → Vec.get (s.mcc (p, c)).ops n = op :: rest →
    (Table.find? s.blocks (op.blocks.getD q 0)).isSome →
    let u := runUnit (p, c) n (.zero q i e) s
    AccStep (op.blocks.getD q 0) (elementAt op.vd i e) s u ∧ accRead u (op.blocks.getD q 0) (elementAt op.vd i e) = 0) ∧
  (∀ (s : State) (w : TileWord) (ag : Agent) (p c v : Nat) (o : TileOp) (rest : List TileOp), ag = .group p c v →
    let k := (p, c / 117 * 13 + c % 117 / 9)
    (s.mcc k).arriving = o :: rest → o.issuer = ag →
    let met (x : TileWord) : Prop := (Vec.get (s.mcc k).tsc x.sn.toNat - o.va.setWidth 32).toNat < 2 ^ 31
    ((∀ x, o.instr ≠ .tsync x) → ∃ t, exec (.tileOpArrival ag) s = .next t ∧ t = { s with mccs := t.mccs } ∧ (∀ j, j ≠ k → t.mcc j = s.mcc j) ∧
      t.mcc k = { s.mcc k with arriving := rest, ops := Vec.set (s.mcc k).ops (snOf o.instr) (Vec.get (s.mcc k).ops (snOf o.instr) ++ [o]) }) ∧
    (o.instr = .tsync w → met w → ∃ t, exec (.tileOpArrival ag) s = .next t ∧ t.mcc k = { s.mcc k with arriving := rest } ∧
      (blockOf s ag = o.block → (Table.find? s.streams ag).isSome → t.stream ag = { s.stream ag with tl := (s.stream ag).tl - 1 })) ∧
    (o.instr = .tsync w → ¬met w → (∀ r, r ∈ rest → r.issuer ≠ ag) → exec (.tileOpArrival ag) s = .next s)) ∧
  (∀ (s : State) (w : TileWord) (p c : Nat), s.cur = .mcc p c →
    let reached := (Vec.get (s.mcc (p, c)).tsc w.sn.toNat - (reg s w.a).setWidth 32).toNat < 2 ^ 31
    (reached → ∃ t, exec (.tsync w) s = .next t ∧ Steps8 s t) ∧ (¬reached → exec (.tsync w) s = .next s)) ∧
  (∀ (s : State) (w : TileWord) (p c v : Nat), s.cur = .group p c v → (s.launch (s.block (selfGroup s).block).launch).mcode ≠ 0 →
    let k := (p, c / 117 * 13 + c % 117 / 9)
    (31 ≤ (self s).tl → exec (.tsync w) s = .next s) ∧
    ((self s).tl < 31 → ∃ op t, exec (.tsync w) s = .next t ∧ TileQueued k op s t ∧ FreshOp (.tsync w) w s op))

/-- R17, R68, R109, R123: what a source selector of a lane word reads in each lane, and what a pop takes from its queue. -/
def Obligations.LaneOperandsAreRead : Prop :=
∀ (e : LaneEnv) (slots : Vector Word32 16) (t n : Nat) (imm : Word32) (sel : BitVec 9) (g : Group), typeBits slots t = some n →
    let reads (vs : List Nat) (g' : Group) : Prop := readSel e slots t imm sel g = .ok (vs, g')
    let v (r l : Nat) : Word32 := Vec.get (Vec.get g.v r) l
    let queue (k : Nat) (pop : Bool) : Prop :=
      let q := Vec.get g.queues k
      (∀ x r, q.entries = .words x :: r → ∃ vs, (∀ l, l < 32 → vs[l]? = some ((Vec.get x l).toNat % 2 ^ n)) ∧
        reads vs (if pop then { g with queues := Vec.set g.queues k { q with entries := r } } else g)) ∧
      (∀ c d a r, q.entries = .poison c d a :: r → readSel e slots t imm sel g = .error (.trap { cls := c, detail := d, addr := a, pq := some k })) ∧
      (q.entries = [] → q.running = none → q.pending = none → readSel e slots t imm sel g = .error (.trap { cls := .sync, detail := 2 })) ∧
      (q.entries = [] → (q.running ≠ none ∨ q.pending ≠ none) → readSel e slots t imm sel g = .error .stall)
    (sel.toNat < 0x100 → n ≠ 64 → ∃ vs, (∀ l, l < 32 → vs[l]? = some ((v sel.toNat l).toNat % 2 ^ n)) ∧ reads vs g) ∧
    (sel.toNat < 0xFF → n = 64 → ∃ vs, (∀ l, l < 32 → vs[l]? = some ((v (sel.toNat + 1) l ++ v sel.toNat l).toNat)) ∧ reads vs g) ∧
    (0x100 ≤ sel.toNat → sel.toNat < 0x110 → n ≠ 64 → ∃ vs, (∀ l, l < 32 → vs[l]? = some ((Vec.get g.frame (sel.toNat - 0x100)).toNat % 2 ^ n)) ∧ reads vs g) ∧
    (0x100 ≤ sel.toNat → sel.toNat < 0x10F → n = 64 → ∃ vs,
      (∀ l, l < 32 → vs[l]? = some ((Vec.get g.frame (sel.toNat - 0x100 + 1) ++ Vec.get g.frame (sel.toNat - 0x100)).toNat)) ∧ reads vs g) ∧
    (0x110 ≤ sel.toNat → sel.toNat < 0x118 → n ≠ 64 → queue (sel.toNat - 0x110) true) ∧
    (0x118 ≤ sel.toNat → sel.toNat < 0x120 → n ≠ 64 → queue (sel.toNat - 0x118) false) ∧
    (sel = 0x120 → ∃ vs x, (∀ l, l < 32 → vs[l]? = some x) ∧ reads vs g ∧
      (t = 0 → ¬(fmt32.decode imm.toNat).isNan → (fmt64.decode x).eq (fmt32.decode imm.toNat) = true ∧ x / 2 ^ 63 = imm.toNat / 2 ^ 31) ∧
      (t = 0 → (fmt32.decode imm.toNat).isNan → x = (imm.extractLsb' 31 1 ++ (0x7FF : BitVec 11) ++ imm.extractLsb' 0 23 ++ (0 : BitVec 29)).toNat) ∧
      (t = 3 → x = fmt16.round rneMode (fmt32.decode imm.toNat)) ∧
      (t = 4 → x = fmtB16.round rneMode (fmt32.decode imm.toNat)) ∧
      (t = 8 → x = (imm.signExtend 64).toNat) ∧
      (t ∈ [1, 5, 6, 7, 9, 10, 11, 12] → x = imm.toNat % 2 ^ n)) ∧
    (sel = 0x121 → ∃ vs, (∀ l, l < 32 → vs[l]? = some (if t ∈ [0, 1, 3, 4] then (stdFmt t).round rneMode (.fin false l 0) else l)) ∧ reads vs g) ∧
    (sel = 0x122 → ∃ vs, (∀ l, l < 32 → vs[l]? = some (if t ∈ [0, 1, 3, 4] then (stdFmt t).round rneMode (.fin false e.id 0) else e.id)) ∧ reads vs g)

/-- R125, R126, R37: the floating forms round the exact result of their operands once in each active lane; the sign and the
NaN rules of the forms on bits; the conditions of `FCMP`; the approximate functions round twice, as R52 reads. -/
def Obligations.LaneFloats : Prop :=
∀ (s : State) (w : LaneWord),
    let t := w.ty.toNat
    let f := stdFmt t
    let rm := w.rm.toNat
    let rounds (n : Nat) (i : Instr) (x : Bool → (Nat → Sys2Proof.Machine.Num) → Sys2Proof.Machine.Num) : Prop := i.wf = true →
      LaneResult i w (List.replicate n t) t rm (fun _ ops z l => f.round ⟨rm, drawRv z l⟩ (x (rm == 3) (fun k => fop f ops k l))) s
    let bits (n : Nat) (i : Instr) (x : (Nat → Nat) → Nat) : Prop := i.wf = true →
      LaneResult i w (List.replicate n t) t 0 (fun _ ops _ l => x (fun k => (ops.getD k []).getD l 0)) s
    let sign := 2 ^ (f.exp + f.man)
    let nan (b : Nat) : Bool := (f.decode b).isNan
    let below (a b : Nat) : Bool := (f.decode a).lt (f.decode b) || (!(f.decode b).lt (f.decode a) && (f.decode a).isNeg && !(f.decode b).isNeg)
    let least (o : Nat → Nat) : Nat := if below (o 1) (o 0) then o 1 else o 0
    let most (o : Nat → Nat) : Nat := if below (o 0) (o 1) then o 1 else o 0
    let avoid (pick : (Nat → Nat) → Nat) (o : Nat → Nat) : Nat :=
      if nan (o 0) && nan (o 1) then f.nanCode else if nan (o 0) then o 1 else if nan (o 1) then o 0 else pick o
    let spread (pick : (Nat → Nat) → Nat) (o : Nat → Nat) : Nat := if nan (o 0) || nan (o 1) then f.nanCode else pick o
    let approx (i : Instr) (x : Sys2Proof.Machine.Num → Sys2Proof.Machine.Num) : Prop := i.wf = true →
      LaneResult i w [1] 1 0 (fun _ ops _ l => fmt32.round rneMode (fmtT32.rnd rneMode (x (fop fmt32 ops 0 l)))) s
    rounds 2 (.fadd w) (fun d x => (x 0).add d (x 1)) ∧
    rounds 2 (.fsub w) (fun d x => (x 0).add d (x 1).neg) ∧
    rounds 2 (.fmul w) (fun _ x => (x 0).mul (x 1)) ∧
    rounds 3 (.ffma w) (fun d x => ((x 0).mul (x 1)).add d (x 2)) ∧
    rounds 3 (.ffms w) (fun d x => ((x 0).mul (x 1)).add d (x 2).neg) ∧
    rounds 3 (.fnma w) (fun d x => (x 2).add d ((x 0).mul (x 1)).neg) ∧
    rounds 3 (.fnms w) (fun d x => ((x 0).mul (x 1)).neg.add d (x 2).neg) ∧
    bits 2 (.fmin w) (avoid least) ∧ bits 2 (.fmax w) (avoid most) ∧
    bits 2 (.fminn w) (spread least) ∧ bits 2 (.fmaxn w) (spread most) ∧
    bits 1 (.fabs w) (fun o => o 0 % sign) ∧
    bits 1 (.fneg w) (fun o => o 0 ^^^ sign) ∧
    ((Instr.frint w).wf = true → LaneResult (.frint w) w [t] t rm (fun _ ops z l => f.round ⟨rm, drawRv z l⟩ (match fop f ops 0 l with
      | .fin neg m e => .fin neg (Sys2Proof.Machine.Num.toIntRnd ⟨rm, drawRv z l⟩ neg m e).natAbs 0
      | x => x)) s) ∧
    ((Instr.fcmp w).wf = true → MaskResult (.fcmp w) w [t, t] (fun _ ops l =>
      let a := fop f ops 0 l
      let b := fop f ops 1 l
      let ordered := !a.isNan && !b.isNan
      match w.md.toNat with
      | 0 => ordered && !a.lt b && !b.lt a
      | 1 => !ordered || a.lt b || b.lt a
      | 2 => ordered && a.lt b
      | 3 => ordered && !b.lt a
      | 4 => ordered && b.lt a
      | 5 => ordered && !a.lt b
      | 6 => ordered
      | _ => !ordered) s) ∧
    approx (.frcp w) Sys2Proof.Machine.Num.recip ∧ approx (.frsq w) Sys2Proof.Machine.Num.rsqrt ∧ approx (.fexp2 w) Sys2Proof.Machine.Num.exp2 ∧ approx (.flog2 w) Sys2Proof.Machine.Num.logb

/-- R127: the integer forms on the operands' values in the type, the result wrapped to its width. -/
def Obligations.LaneIntegers : Prop :=
∀ (s : State) (w : LaneWord),
    let t := w.ty.toNat
    let n := if t = 8 ∨ t = 12 then 64 else 32
    let signed := t = 7 ∨ t = 8
    let value (x : Nat) : Int := if signed ∧ 2 ^ (n - 1) ≤ x % 2 ^ n then (x % 2 ^ n : Nat) - 2 ^ n else (x % 2 ^ n : Nat)
    let least : Int := if signed then -(2 ^ (n - 1)) else 0
    let most : Int := if signed then 2 ^ (n - 1) - 1 else 2 ^ n - 1
    let sat (x : Int) : Int := if x < least then least else if most < x then most else x
    let gives (k : Nat) (i : Instr) (x : (Nat → Nat) → Int) : Prop := i.wf = true →
      LaneResult i w (List.replicate k t) t 0 (fun _ ops _ l => (x (fun j => (ops.getD j []).getD l 0) % 2 ^ n).toNat) s
    gives 2 (.iadd w) (fun o => o 0 + o 1) ∧
    gives 2 (.isub w) (fun o => (o 0 : Int) - o 1) ∧
    gives 2 (.imul w) (fun o => o 0 * o 1) ∧
    gives 2 (.imulh w) (fun o => value (o 0) * value (o 1) / 2 ^ n) ∧
    gives 3 (.imad w) (fun o => o 0 * o 1 + o 2) ∧
    gives 2 (.iadds w) (fun o => sat (value (o 0) + value (o 1))) ∧
    gives 2 (.isubs w) (fun o => sat (value (o 0) - value (o 1))) ∧
    gives 2 (.imin w) (fun o => if value (o 0) < value (o 1) then value (o 0) else value (o 1)) ∧
    gives 2 (.imax w) (fun o => if value (o 0) < value (o 1) then value (o 1) else value (o 0)) ∧
    gives 2 (.iand w) (fun o => (o 0 &&& o 1 : Nat)) ∧
    gives 2 (.ior w) (fun o => (o 0 ||| o 1 : Nat)) ∧
    gives 2 (.ixor w) (fun o => (o 0 ^^^ o 1 : Nat)) ∧
    gives 2 (.iandn w) (fun o => (BitVec.ofNat n (o 0) &&& ~~~BitVec.ofNat n (o 1)).toNat) ∧
    gives 2 (.ishl w) (fun o => (BitVec.ofNat n (o 0) <<< (o 1 % n)).toNat) ∧
    gives 2 (.ishr w) (fun o => if signed then ((BitVec.ofNat n (o 0)).sshiftRight (o 1 % n)).toNat else (BitVec.ofNat n (o 0) >>> (o 1 % n)).toNat) ∧
    gives 2 (.iror w) (fun o => ((BitVec.ofNat n (o 0)).rotateRight (o 1 % n)).toNat) ∧
    gives 1 (.ipopc w) (fun o => (((List.range n).filter (fun j => (o 0).testBit j)).length : Nat)) ∧
    (∀ c : Nat → Nat, (∀ x, IsZeroRun (fun j => if j < n then x.testBit (n - 1 - j) else true) (c x)) → gives 1 (.iclz w) (fun o => (c (o 0) : Nat))) ∧
    ((Instr.icmp w).wf = true → MaskResult (.icmp w) w [t, t] (fun _ ops l =>
      let a := value ((ops.getD 0 []).getD l 0)
      let b := value ((ops.getD 1 []).getD l 0)
      match w.md.toNat with
      | 0 => a = b
      | 1 => a ≠ b
      | 2 => a < b
      | 3 => a ≤ b
      | 4 => a > b
      | _ => a ≥ b) s)

/-- R128, R129, R130, R132: conversions, packs, moves, selections and the mask forms. -/
def Obligations.ConversionsMovesAndMasks : Prop :=
∀ (s : State) (w : LaneWord),
    let t := w.ty.toNat
    let st := (w.imm.extractLsb' 0 5).toNat
    let slots := selfSlots s
    let fmt (t : Nat) : Option Fmt := if 16 ≤ t then slotOf slots (t - 16) else if t ∈ [0, 1, 3, 4] then some (stdFmt t) else none
    let set (t : Nat) : Prop := 16 ≤ t → (slotOf slots (t - 16)).isSome
    let signed (t : Nat) : Bool := decide (5 ≤ t ∧ t ≤ 8)
    let width (t : Nat) : Nat := (typeBits slots t).getD 0
    let value (t x : Nat) : Int := if signed t ∧ 2 ^ (width t - 1) ≤ x % 2 ^ width t then (x % 2 ^ width t : Nat) - 2 ^ width t else (x % 2 ^ width t : Nat)
    let p := w.md.toNat
    let word (k : Nat) (ops : List (List Nat)) (l : Nat) : Word32 := BitVec.ofNat 32 ((ops.getD k []).getD l 0)
    let plain (n : Nat) (i : Instr) (x : List (List Nat) → Nat → Word32) : Prop := i.wf = true →
      LaneResult i w (List.replicate n 11) 11 0 (fun _ ops _ l => (x ops l).toNat) s
    let pack (n : Nat) (mask : Word32) (i : Instr) : Prop :=
      plain 2 i (fun ops l => (word 1 ops l &&& ~~~(mask <<< (n * p))) ||| ((word 0 ops l &&& mask) <<< (n * p)))
    let unpack (n : Nat) (mask : Word32) (i : Instr) : Prop := plain 1 i (fun ops l => (word 0 ops l >>> (n * p)) &&& mask)
    let masks (i : Instr) (x : Bool → Bool → Bool) : Prop := i.wf = true →
      MaskResult i w [] (fun e _ l => x ((maskOf e.sp w.a.toNat).getLsbD l) ((maskOf e.sp w.b.toNat).getLsbD l)) s
    ((Instr.cvt w).wf = true → set st → set t →
      LaneResult (.cvt w) w [st] t w.rm.toNat (fun _ ops z l =>
        let x := (ops.getD 0 []).getD l 0
        let k : Rnd := ⟨w.rm.toNat, drawRv z l⟩
        match fmt t, fmt st with
        | some f, some g => f.round k (g.decode x)
        | some f, none => f.round k (.fin (decide (value st x < 0)) (value st x).natAbs 0)
        | none, some g => (((g.decode x).toType k (signed t) (width t)) % 2 ^ width t).toNat
        | none, none => ((satInt (signed t) (width t) (value st x)) % 2 ^ width t).toNat) s) ∧
    ((Instr.cvt w).wf = true → ¬(set st ∧ set t) → exec (.cvt w) s = .next (takeTrap s.cur { cls := .illegal } true s)) ∧
    pack 4 0xF (.pkn w) ∧ pack 8 0xFF (.pkb w) ∧ pack 16 0xFFFF (.pkh w) ∧
    unpack 4 0xF (.upn w) ∧ unpack 8 0xFF (.upb w) ∧ unpack 16 0xFFFF (.uph w) ∧
    ((Instr.mov w).wf = true → LaneResult (.mov w) w [t] t 0 (fun _ ops _ l => (ops.getD 0 []).getD l 0) s) ∧
    ((Instr.sel w).wf = true → LaneResult (.sel w) w [t, t] t 0
      (fun e ops _ l => (ops.getD (if (maskOf e.sp w.md.toNat).getLsbD l then 0 else 1) []).getD l 0) s) ∧
    ((Instr.mset w).wf = true → MaskResult (.mset w) w [11] (fun _ ops l => decide ((ops.getD 0 []).getD l 0 ≠ 0)) s) ∧
    masks (.mand w) (fun a b => a && b) ∧ masks (.mor w) (fun a b => a || b) ∧ masks (.mxor w) (fun a b => a ^^ b) ∧
    masks (.mandn w) (fun a b => a && !b)

/-- R56, R131, R133, R229: shuffles, broadcasts, votes, group reductions and scans read the active lanes and nothing else. -/
def Obligations.LanesAreCombined : Prop :=
∀ (s : State) (w : LaneWord) (op : BitVec 3),
    let t := w.ty.toNat
    let o (ops : List (List Nat)) (k l : Nat) : Nat := (ops.getD k []).getD l 0
    let shuffled (i : Instr) (from_ : Nat → Nat → Int) : Prop := i.wf = true →
      LaneResult i w [t, 11] t 0 (fun e ops _ l =>
        let j := from_ l (o ops 1 l)
        if 0 ≤ j ∧ j < 32 ∧ e.act.getLsbD j.toNat then o ops 0 j.toNat else o ops 0 l) s
    let votes (i : Instr) (x : LaneEnv → (Nat → Bool) → Nat) : Prop := i.wf = true →
      LaneResult i w [11] 11 0 (fun e ops _ _ => x e (fun l => decide (o ops 0 l ≠ 0))) s
    shuffled (.shflIdx w) (fun _ b => (b % 32 : Nat)) ∧
    shuffled (.shflUp w) (fun l b => (l : Int) - b) ∧
    shuffled (.shflDn w) (fun l b => (l : Int) + b) ∧
    shuffled (.shflXor w) (fun l b => (l ^^^ (b % 32) : Nat)) ∧
    ((Instr.bcst w).wf = true → ∀ low : LaneEnv → Nat,
      (∀ e, e.act ≠ 0 → e.act.getLsbD (low e) = true ∧ ∀ j, j < low e → e.act.getLsbD j = false) →
      LaneResult (.bcst w) w [t] t 0 (fun e ops _ _ => o ops 0 (low e)) s) ∧
    votes (.vany w) (fun e p => if (List.range 32).any (fun l => e.act.getLsbD l && p l) then 1 else 0) ∧
    votes (.vall w) (fun e p => if (List.range 32).all (fun l => !e.act.getLsbD l || p l) then 1 else 0) ∧
    (∀ ballot : LaneEnv → (Nat → Bool) → Word32, (∀ e p l, l < 32 → (ballot e p).getLsbD l = (e.act.getLsbD l && p l)) →
      votes (.vbal w) (fun e p => (ballot e p).toNat)) ∧
    ((Instr.gred op w).wf = true → LaneResult (.gred op w) w [t] t w.rm.toNat
      (fun e ops z _ => treeOf op.toNat t w.rm.toNat z (fun l => e.act.getLsbD l) (o ops 0)) s) ∧
    ((Instr.scan op w).wf = true → LaneResult (.scan op w) w [t] t w.rm.toNat
      (fun e ops z l => scanned op.toNat t w.rm.toNat z (fun j => e.act.getLsbD j) (o ops 0) (l + 1)) s) ∧
    ((Instr.scanx op w).wf = true → LaneResult (.scanx op w) w [t] t w.rm.toNat
      (fun e ops z l => scanned op.toNat t w.rm.toNat z (fun j => e.act.getLsbD j) (o ops 0) l) s) ∧
    ((Instr.greds op w).wf = true →
      let regs := namedRegs w [t, 11] (some (t == 0 || t == 8 || t == 12))
      (∀ e ops g z s1, LaneRuns s w.msel regs e → readOps e (selfSlots s) w [t, 11] (selfGroup s) = .ok (ops, g) → Draws w.rm.toNat s z s1 →
        let own (l : Nat) : Bool := e.act.getLsbD l && decide (o ops 1 l < 2 ^ 31)
        ∃ g' u, exec (.greds op w) s = .next u ∧
          LaneWrites w.dst.toNat (t == 0 || t == 8 || t == 12) own
            (fun l => treeOf op.toNat t w.rm.toNat z (fun j => own j && o ops 1 j == o ops 1 l) (o ops 0)) g g' ∧
          LaneStep (stepped e.id g') s1 u) ∧
      ReadRules (.greds op w) w [t, 11] regs s ∧ RegisterRules (.greds op w) w.msel regs s)

/-- R134, R136, R137, R138, R16: lane branches divide a split or park a side, joins hand over and take back, splits end, and
equal splits merge. -/
def Obligations.SplitsDivideJoinAndEnd : Prop :=
∀ (s : State) (w : LaneWord) (e : LaneEnv), UserGroup s → LaneAt s 0 e →
    let g := selfGroup s
    let sp := e.sp
    let at_ (g : Group) (id : Nat) (x : Split) : Group := { g with splits := Vec.set g.splits id (some x) }
    let becomes (i : Instr) (g' : Group) : Prop := ∃ t, exec i s = .next t ∧ LaneStep (mergeSplits g') s t
    let ends (i : Instr) (g : Group) : Prop := ∃ g' t, EndsSplit e.id sp.m g g' ∧ exec i s = .next t ∧ LaneStep (mergeSplits g') s t
    let branch (i : Instr) (T : Word32) : Prop :=
      let F := sp.mask &&& ~~~T
      let tgt : Int := sp.lpc.toNat + 12 * (w.imm.extractLsb' 0 16).toInt
      let jn : Int := sp.lpc.toNat + 12 * (w.imm.extractLsb' 16 16).toInt
      let land := BitVec.ofInt 64 tgt
      (tgt < 0 ∨ jn < 0 → exec i s = .next (takeTrap s.cur { cls := .illegal } true s)) ∧
      (0 ≤ tgt → 0 ≤ jn →
        (F = 0 → becomes i (at_ g e.id { sp with lpc := land })) ∧
        (F ≠ 0 → T = 0 → becomes i (at_ g e.id { sp with lpc := sp.lpc + 12 })) ∧
        (F ≠ 0 → T ≠ 0 → ∀ n, n < 4 → Vec.get g.splits n = none → (∀ j, j < n → Vec.get g.splits j ≠ none) →
          becomes i (at_ (at_ g (min e.id n) { sp with mask := F, lpc := sp.lpc + 12 }) (max e.id n) { sp with mask := T, lpc := land })) ∧
        (F ≠ 0 → T ≠ 0 → (∀ j, j < 4 → Vec.get g.splits j ≠ none) → g.parked.length < 8 →
          becomes i (at_ { g with parked := g.parked ++ [{ pmask := F, plpc := sp.lpc + 12, pjoin := BitVec.ofInt 64 jn, hold := false, pm := sp.m }] }
            e.id { sp with mask := T, lpc := land })) ∧
        (F ≠ 0 → T ≠ 0 → (∀ j, j < 4 → Vec.get g.splits j ≠ none) → 8 ≤ g.parked.length →
          exec i s = .next (takeTrap s.cur { cls := .sync, detail := 1 } true s)))
    let record (hold : Bool) (p : Parked) : Prop := p.hold = hold ∧ p.pjoin = sp.lpc
    let gone := sp.mask &&& maskOf sp w.md.toNat
    let dropped := { g with live := g.live &&& ~~~gone }
    branch (.brl w) (sp.mask &&& maskOf sp w.md.toNat) ∧ branch (.brln w) (sp.mask &&& ~~~maskOf sp w.md.toNat) ∧
    (∀ pre p post m', g.parked = pre ++ p :: post → record false p → (∀ q, q ∈ post → ¬record false q) → Restores p sp.m m' →
      becomes (.joinl w) (at_ { g with parked := pre ++ post ++ [{ pmask := sp.mask, plpc := sp.lpc, pjoin := p.pjoin, hold := true, pm := sp.m }] }
        e.id { lpc := p.plpc, mask := p.pmask, m := m' })) ∧
    ((∀ q, q ∈ g.parked → ¬record false q) → ∀ pre p post m', g.parked = pre ++ p :: post → record true p → (∀ q, q ∈ post → ¬record true q) →
      Restores p sp.m m' →
      becomes (.joinl w) (at_ { g with parked := pre ++ post } e.id { lpc := sp.lpc + 12, mask := sp.mask ||| p.pmask, m := m' })) ∧
    ((∀ q, q ∈ g.parked → ¬record false q ∧ ¬record true q) → becomes (.joinl w) (at_ g e.id { sp with lpc := sp.lpc + 12 })) ∧
    (NoLaneErrors s → ends (.lret w) g ∧ (sp.mask &&& ~~~gone = 0 → ends (.exit w) dropped)) ∧
    (sp.mask &&& ~~~gone ≠ 0 → becomes (.exit w) (at_ dropped e.id { sp with mask := sp.mask &&& ~~~gone, lpc := sp.lpc + 12 })) ∧
    (∀ pre d post, (self s).deferred = pre ++ d :: post → d.split = some e.id → (∀ x, x ∈ pre → x.split = none) → ∀ i,
      (i = .lret w ∨ (i = .exit w ∧ sp.mask &&& ~~~gone = 0)) →
      exec i s = .next (takeTrap s.cur { cls := .memerr, detail := d.detail, addr := d.addr, faults := d.faults, once := some d } true s)) ∧
    ((∀ i j a b, i < j → j < 4 → Vec.get g.splits i = some a → Vec.get g.splits j = some b → a.lpc ≠ b.lpc) → mergeSplits g = g) ∧
    (∀ i j a b m, i < j → j < 4 → Vec.get g.splits i = some a → Vec.get g.splits j = some b → a.lpc = b.lpc → a.mask &&& b.mask = 0 →
      (∀ p q x y, p < q → q < 4 → (p, q) ≠ (i, j) → Vec.get g.splits p = some x → Vec.get g.splits q = some y → x.lpc ≠ y.lpc) →
      (∀ k l, k < 7 → l < 32 → (Vec.get m k).getLsbD l = if b.mask.getLsbD l then (Vec.get b.m k).getLsbD l else (Vec.get a.m k).getLsbD l) →
      mergeSplits g = { g with splits := Vec.set (Vec.set g.splits i (some { a with mask := a.mask ||| b.mask, m := m })) j none })

/-- R141, R142, R143, R145, R146, R147, R148, R150: lane loads read the element of each active lane and deliver it when their data
return; `LDT` empties the lines it reads; `LDA` reads a line of the accumulators. -/
def Obligations.LaneLoadsReadTheirElements : Prop :=
∀ (s : State) (w : LaneWord),
    let c := selfCtx s
    let t := w.ty.toNat
    let n := tyBytes t
    let wide := t == 0 || t == 8 || t == 12
    let regs := accessRegs w none (some wide)
    let set := 16 ≤ t → (slotOf c.slots (t - 16)).isSome
    let full (rs : List LaneRef) : Prop := ∀ r, r ∈ rs → lineFull s c r.place.loc = true
    let value (b : State) (r : LaneRef) : Nat :=
      let bs := readOwn b c r.place n
      if t = 13 ∨ 16 ≤ t then (decodeNarrow b c t r.place r.odd (bs.getD 0 0)).toNat
      else if t = 5 then ((BitVec.ofNat 8 (leNat bs)).signExtend 32).toNat
      else if t = 6 then ((BitVec.ofNat 16 (leNat bs)).signExtend 32).toNat
      else leNat bs
    let loads (i : Instr) (find : Finder) (consume : Bool) : Prop := i.wf = true →
      (∀ e rs, LaneRuns s w.msel regs e → set → LaneRefsAre s w e find rs → (self s).ld < 63 → full rs → rs ≠ [] →
        let b := seqAll (fun r s => folded r.place.loc s) rs s
        let d := if wide then [w.dst.toNat, w.dst.toNat + 1] else [w.dst.toNat]
        ∃ u op, exec i s = .next u ∧ LaneAccess (stepped e.id (awaiting d (selfGroup s))) b u ∧
          self u = { self s with ld := (self s).ld + 1, loads := (self s).loads ++ [op] } ∧
          op.dests = rs.flatMap (fun r => lanePair w.dst wide r.lane (value b r)) ∧ (SoundLanes b c t n rs → op.err = none) ∧
          (¬SoundLanes b c t n rs → ∃ x, op.err = some x ∧ LaneErrorIs b c e.id t n d rs x) ∧
          ∀ k l, l ∈ (u.block k).empty ↔ l ∈ (s.block k).empty ∨
            (consume = true ∧ k = (selfGroup s).block ∧ (Table.find? s.blocks k).isSome ∧ ∃ r o, r ∈ rs ∧ r.place.loc = .scr o ∧ o / 128 = l)) ∧
      (∀ e, LaneRuns s w.msel regs e → set → e.act = 0 → (self s).ld < 63 → ∃ u, exec i s = .next u ∧ LaneStep (stepped e.id (selfGroup s)) s u) ∧
      (∀ e rs, LaneRuns s w.msel regs e → set → LaneRefsAre s w e find rs → 63 ≤ (self s).ld ∨ ¬full rs → exec i s = .next s) ∧
      (¬set → exec i s = .next (takeTrap s.cur { cls := .illegal } true s)) ∧
      AccessRules i w regs find s
    let take : Finder := fun elem va =>
      match decodeVa c va n with
      | .error x => .error x
      | .ok (.scratch _) => place s c { ty := t, elem } va n
      | .ok _ => .error (.trap { cls := .protection, detail := 0x10, addr := va })
    loads (.ldl w) (fun elem va => place s c { ty := t, elem } va n) false ∧
    loads (.ldt w) take true ∧
    ((Instr.lda w).wf = true → ∀ e, LaneRuns s w.msel [(w.a, false), (w.dst, false)] e →
      let k := (selfGroup s).block
      let o := tileOffsetOf (selfGroup s) w e.sp
      let bound (d : Nat) : Prop := exec (.lda w) s = .next (takeTrap s.cur { cls := .bound, detail := d } true s)
      let sound := ∀ i, o / 8 ≤ i → i < o / 8 + 16 → BadWord.acc k i ∉ s.bad
      (o % 128 ≠ 0 → bound 4) ∧
      (o % 128 = 0 → acuBytes (s.block k).partw < o + 128 → bound 3) ∧
      (o % 128 = 0 → o + 128 ≤ acuBytes (s.block k).partw → sound → 63 ≤ (self s).ld → exec (.lda w) s = .next s) ∧
      (o % 128 = 0 → o + 128 ≤ acuBytes (s.block k).partw → sound → (self s).ld < 63 →
        (e.act = 0 → ∃ u, exec (.lda w) s = .next u ∧ LaneStep (stepped e.id (selfGroup s)) s u) ∧
        (e.act ≠ 0 → ∃ u op, exec (.lda w) s = .next u ∧ LaneAccess (stepped e.id (awaiting [w.dst.toNat] (selfGroup s))) s u ∧
          self u = { self s with ld := (self s).ld + 1, loads := (self s).loads ++ [op] } ∧ op.err = none ∧
          op.dests = ((List.range 32).filter (fun l => e.act.getLsbD l)).map (fun l =>
            .v w.dst.toNat l ((s.block k).acc.read (o + 4 * l + 3) ++ (s.block k).acc.read (o + 4 * l + 2) ++
              (s.block k).acc.read (o + 4 * l + 1) ++ (s.block k).acc.read (o + 4 * l))))) ∧
      (o % 128 = 0 → o + 128 ≤ acuBytes (s.block k).partw → ∀ i, o / 8 ≤ i → i < o / 8 + 16 → BadWord.acc k i ∈ s.bad →
        (∀ j, o / 8 ≤ j → j < i → BadWord.acc k j ∉ s.bad) →
        exec (.lda w) s = .next (takeTrap s.cur { cls := .memerr, detail := 3, addr := 0xC000000000000000 + BitVec.ofNat 64 (8 * i) } true s)))

/-- R142 to R144, R146, R148, R149, R156 to R158, R160: lane stores write the elements of the active lanes in ascending order, at once
or into the quantum buffer; `STT` writes one scratch line; lane atomics and reductions run lane after lane. -/
def Obligations.LaneStoresAndAtomicsWrite : Prop :=
∀ (s : State) (w : LaneWord) (op : BitVec 3), Canonical s →
    let c := selfCtx s
    let blk := (selfGroup s).block
    let t := w.ty.toNat
    let n := tyBytes t
    let rm := w.rm.toNat
    let wide := t == 0 || t == 8 || t == 12
    let narrow : Prop := t = 13 ∨ 16 ≤ t
    let set := 16 ≤ t → (slotOf c.slots (t - 16)).isSome
    let full (rs : List LaneRef) : Prop := ∀ r, r ∈ rs → lineFull s c r.place.loc = true
    let result := if wide then [w.dst.toNat, w.dst.toNat + 1] else [w.dst.toNat]
    let store : Finder := fun elem va => place s c { write := true, ty := t, elem } va n
    let line (i : Instr) (wait : Bool) : Prop := i.wf = true → ∀ e, LaneRuns s w.msel [(w.a, false), (w.c, false)] e →
      let o := tileOffsetOf (selfGroup s) w e.sp
      let size := spuBytes (s.block blk).partw
      let ready := (self s).st < 63 ∧ (wait = true → o / 128 ∈ (s.block blk).empty)
      (o % 128 ≠ 0 → exec i s = .next (takeTrap s.cur { cls := .bound, detail := 4 } true s)) ∧
      (o % 128 = 0 → size < o + 128 → exec i s = .next (takeTrap s.cur { cls := .bound, detail := 3 } true s)) ∧
      (o % 128 = 0 → o + 128 ≤ size → ¬ready → exec i s = .next s) ∧
      (o % 128 = 0 → o + 128 ≤ size → ready → ∀ v g, readSel e c.slots 11 w.imm w.c (selfGroup s) = .ok (v, g) → (Table.find? s.blocks blk).isSome →
        let b := s.setGroup s.cur g
        ∃ m u, exec i s = .next u ∧ (e.act ≠ 0 → LaneCounted [] 0 (stepped e.id g) m u) ∧ (e.act = 0 → LaneStep (stepped e.id g) m u) ∧
          m = { b with blocks := m.blocks, past := m.past, bad := m.bad, early := m.early } ∧
          (∀ k, m.block k = { b.block k with scratch := (m.block k).scratch, empty := (m.block k).empty }) ∧
          (∀ k, k ≠ blk → m.block k = b.block k) ∧
          (m.block blk).empty = (b.block blk).empty.filter (· != o / 128) ∧
          ∀ j, (m.block blk).scratch.read j = if o ≤ j ∧ j < o + 128 then
            (if e.act.getLsbD ((j - o) / 4) then (BitVec.ofNat 32 (v.getD ((j - o) / 4) 0) : Word32).extractLsb' (8 * ((j - o) % 4)) 8 else 0)
            else (b.block blk).scratch.read j)
    ((Instr.stl w).wf = true →
      (∀ e rs v g z s1 m, LaneRuns s w.msel (accessRegs w (some wide) none) e → set → LaneRefsAre s w e store rs → (self s).st < 63 →
        readSel e c.slots (if t = 13 ∨ 16 ≤ t then 1 else t) w.imm w.c (selfGroup s) = .ok (v, g) →
        Draws (if t = 13 ∨ 16 ≤ t then rm else 0) s z s1 → (∀ r, r ∈ rs → r.place.mat = m) →
        (∀ r x, r ∈ rs → t = 13 → scaleSpot s c t r.place = some x → badAt s c x.1.loc 1 = none) →
        let b := s1.setGroup s.cur g
        let writes (r : LaneRef) : List Put := elementWrites s t ⟨rm, drawRv z r.lane⟩ r (v.getD r.lane 0)
        let puts := rs.flatMap writes
        let base := foldKeys (putKeys puts) b
        let q := seqAll (fun r q => seqAll (qbufPut true r.va) (writes r) q) rs g.qbuf
        let waits := (∃ p k, p ∈ puts ∧ p.loc = .phys k ∧ keyTgt k = 0) ∧ ∃ op, op ∈ (self s).stores ∧ op.control = true
        (rs = [] → ∃ u, exec (.stl w) s = .next u ∧ LaneStep (stepped e.id g) b u) ∧
        (rs ≠ [] → (∀ r, r ∈ rs → buffered s s.cur r.va = false) → (Table.find? s.blocks blk).isSome → ¬waits →
          ∃ x y u, MemoryStep base x ∧ PutsDone blk m puts base x ∧ WrittenThrough x y ∧
            LaneCounted [] (if putKeys puts = [] then 0 else 1) (stepped e.id g) y u ∧ exec (.stl w) s = .next u) ∧
        (rs ≠ [] → (∀ r, r ∈ rs → buffered s s.cur r.va = false) → waits → exec (.stl w) s = .next s) ∧
        (rs ≠ [] → (∀ r, r ∈ rs → buffered s s.cur r.va = true) → qbufLines q ≤ qlGroup s s.cur →
          ∃ u, exec (.stl w) s = .next u ∧ LaneCounted [] 0 (stepped e.id { g with qbuf := q }) b u) ∧
        (rs ≠ [] → (∀ r, r ∈ rs → buffered s s.cur r.va = true) → qlGroup s s.cur < qbufLines q →
          exec (.stl w) s = .next (takeTrap s.cur { cls := .quantum, detail := 1 } true s))) ∧
      (∀ e rs, LaneRuns s w.msel (accessRegs w (some wide) none) e → set → LaneRefsAre s w e store rs → 63 ≤ (self s).st → exec (.stl w) s = .next s) ∧
      AccessRules (.stl w) w (accessRegs w (some wide) none) store s) ∧
    line (.stt w) false ∧ line (.sttWait w) true ∧
    ((Instr.atomLane op w).wf = true →
      let regs := accessRegs w (some wide) (some wide)
      let find : Finder := fun _ va => atomPlace s c t va n
      (∀ e rs cmp g0 x g, LaneRuns s w.msel regs e → LaneRefsAre s w e find rs → (self s).st < 63 → full rs →
        readSel e c.slots t w.imm w.dst (selfGroup s) = .ok (cmp, g0) → readSel e c.slots t w.imm w.c (selfGroup s) = .ok (x, g) →
        let b := s.setGroup s.cur g
        (¬SoundLanes s c 9 n rs → KeepsLaneError (.atomLane op w) (LaneErrorIs s c e.id 9 n result rs) s) ∧
        (rs = [] → ∃ u, exec (.atomLane op w) s = .next u ∧ LaneStep (stepped e.id g) b u) ∧
        (rs ≠ [] → SoundLanes s c 9 n rs →
          ∃ olds y u, LanesInTurn n (fun l old => atomResult (atomCode op.toNat) t old (x.getD l 0) (cmp.getD l 0)) rs olds b y ∧
            exec (.atomLane op w) s = .next u ∧
            LaneCounted (olds.flatMap (fun o => lanePair w.dst wide o.1 o.2)) 1 (stepped e.id (awaiting result g)) y u)) ∧
      AccessRules (.atomLane op w) w regs find s) ∧
    ((Instr.redLane op w).wf = true → redSlot c (redCode op.toNat) t = .ok () →
      let shadowed := op = 0 ∧ (t = 3 ∨ t = 4 ∨ narrow)
      let regs := accessRegs w (some (if t = 3 ∨ t = 4 ∨ t = 13 ∨ 16 ≤ t then false else wide)) none
      let find : Finder := fun elem va => redPlace s c (redCode op.toNat) t va elem
      (∀ e rs x g, LaneRuns s w.msel regs e → LaneRefsAre s w e find rs → (self s).st < 63 → full rs →
        readSel e c.slots (if op = 0 ∧ (t = 3 ∨ t = 4 ∨ t = 13 ∨ 16 ≤ t) then 1 else t) w.imm w.c (selfGroup s) = .ok (x, g) →
        let b := s.setGroup s.cur g
        let sound := SoundLanes s c 9 (redSize t) rs
        (¬sound → KeepsLaneError (.redLane op w) (LaneErrorIs s c e.id 9 (redSize t) [] rs) s) ∧
        (rs = [] → ∃ u, exec (.redLane op w) s = .next u ∧ LaneStep (stepped e.id g) b u) ∧
        (rs ≠ [] → sound → ¬shadowed → ∃ olds y u, LanesInTurn n (fun l old => atomResult (redCode op.toNat) t old (x.getD l 0) 0) rs olds b y ∧
          exec (.redLane op w) s = .next u ∧ LaneCounted [] 1 (stepped e.id g) y u) ∧
        (rs ≠ [] → sound → shadowed → ∃ u, exec (.redLane op w) s = .next u ∧
          LaneCounted [] 1 (stepped e.id g) (seqAll (fun r b => reduceAt c .add t (x.getD r.lane 0) r.place b) rs b) u)) ∧
      AccessRules (.redLane op w) w regs find s) ∧
    ((Instr.amaxrdLane w).wf = true →
      let regs := accessRegs w none (some false)
      let find : Finder := fun _ va => atomPlace s c 1 va 4
      (∀ e rs, LaneRuns s w.msel regs e → LaneRefsAre s w e find rs → (self s).st < 63 → full rs →
        (¬SoundLanes s c 9 4 rs → KeepsLaneError (.amaxrdLane w) (LaneErrorIs s c e.id 9 4 [w.dst.toNat] rs) s) ∧
        (rs = [] → ∃ u, exec (.amaxrdLane w) s = .next u ∧ LaneStep (stepped e.id (selfGroup s)) s u) ∧
        (rs ≠ [] → SoundLanes s c 9 4 rs → ∃ olds y u, LanesInTurn 4 (fun _ _ => 0) rs olds s y ∧ exec (.amaxrdLane w) s = .next u ∧
          LaneCounted (olds.flatMap (fun o => lanePair w.dst false o.1 o.2)) 1 (stepped e.id (awaiting [w.dst.toNat] (selfGroup s))) y u)) ∧
      AccessRules (.amaxrdLane w) w regs find s)

/-- R70, R139: each turn of a `REP` runs one iteration of the next lane word as a complete instruction, its register numbers
advanced; the LPC stays at the `REP` until the last has run. -/
def Obligations.RepeatsRunTheNextWord : Prop :=
∀ (s : State) (n stride : BitVec 8) (adv : BitVec 4) (next : BitVec 96) (e : LaneEnv), UserGroup s → LaneAt s 0 e →
    let i := exec (.rep n stride adv next) s
    let illegal := i = .next (takeTrap s.cur { cls := .illegal } true s)
    let done (g : Group) : Group := mergeSplits { g with
      splits := Vec.set g.splits e.id ((Vec.get g.splits e.id).map (fun sp => { sp with lpc := sp.lpc + 24 })), rep := none }
    (∀ r, decode (.lane next 0) = .error r → illegal) ∧
    ∀ j, decode (.lane next 0) = .ok j →
      ((∃ w, j = .brl w ∨ j = .brln w ∨ j = .joinl w ∨ j = .lret w ∨ j = .exit w) ∨ (∃ n s a x, j = .rep n s a x) → illegal ∧ laneForm j = none) ∧
      (¬((∃ w, j = .brl w ∨ j = .brln w ∨ j = .joinl w ∨ j = .lret w ∨ j = .exit w) ∨ ∃ n s a x, j = .rep n s a x) → ∃ f, laneForm j = some f) ∧
      ∀ f, laneForm j = some f →
        let k := match (selfGroup s).rep with | some (m, k) => if m = e.id then k else 0 | none => 0
        let names (on : Bool) (o : Option Bool) (x : BitVec 9) : Prop := ∃ wd, on = true ∧ o = some wd ∧ x.toNat < 0x100 ∧
          min 256 (selfVn s) ≤ x.toNat + (n.toNat - 1) * stride.toNat + (if wd then 1 else 0)
        let beyond := names (adv.getLsbD 3) f.d f.word.dst ∨ names (adv.getLsbD 2) f.a f.word.a ∨ names (adv.getLsbD 1) f.b f.word.b ∨
          names (adv.getLsbD 0) f.c f.word.c
        let moved (on : Bool) (o : Option Bool) (x : BitVec 9) : BitVec 9 :=
          if on = true ∧ o.isSome ∧ x.toNat < 0x100 then BitVec.ofNat 9 (x.toNat + k * stride.toNat) else x
        let w := { f.word with
          dst := moved (adv.getLsbD 3) f.d f.word.dst, a := moved (adv.getLsbD 2) f.a f.word.a
          b := moved (adv.getLsbD 1) f.b f.word.b, c := moved (adv.getLsbD 0) f.c f.word.c }
        let odd (o : Option Bool) (x : BitVec 9) : Prop := o = some true ∧ x.toNat < 0x100 ∧ x.toNat % 2 = 1
        let uneven := odd f.d w.dst ∨ odd f.a w.a ∨ odd f.b w.b ∨ odd f.c w.c
        exec j s = finishLane s ((f.body f.word s).map laneNext) ∧
        (n.toNat ≤ k → ∃ t, i = .next t ∧ LaneStep (done (selfGroup s)) s t) ∧
        (k < n.toNat → beyond → i = .next (takeTrap s.cur { cls := .bound, detail := 2 } true s)) ∧
        (k < n.toNat → ¬beyond → uneven → illegal) ∧
        (k < n.toNat → ¬beyond → ¬uneven →
          (∀ u, f.body w s = .ok u → u.cur = s.cur →
            ∃ t, i = .next t ∧ LaneStep (if k + 1 = n.toNat then done (selfGroup u) else { selfGroup u with rep := some (e.id, k + 1) }) u t) ∧
          (∀ x, f.body w s = .error (.trap x) → i = .next (takeTrap s.cur x true s)) ∧
          (f.body w s = .error .stall → i = .next s))

/-- R228, R229, R242 to R247: `SEGL` and `SEGB` look positions and segments up in a snapshot of a record; `HGLD` interpolates the
levels of a grid at the point of each active lane; `HGSC` adds each lane's gradients to the entries it read from. -/
def Obligations.RaggedAndGridLanes : Prop :=
∀ (s : State) (w : LaneWord) (e : LaneEnv),
    let c := selfCtx s
    let h := (laneSource (selfGroup s) w.imm w.b 0).toNat
    let looks (i : Instr) (ok : Ragged → Nat → Prop) (is : Ragged → Nat → Word32 → Prop) : Prop := i.wf = true →
      LaneRuns s w.msel [(w.a, false), (w.dst, false)] e →
      (∀ x, snapshot c h s = .error (.trap x) → exec i s = .next (takeTrap s.cur x true s)) ∧
      ∀ r s1 x g, snapshot c h s = .ok (r, s1) → r.bounds.Pairwise (· ≤ ·) → readSel e c.slots 11 w.imm w.a (selfGroup s) = .ok (x, g) →
        ((∀ l, l < 32 → e.act.getLsbD l = true → ok r (x.getD l 0)) → ∀ val : Nat → Word32,
          (∀ l, l < 32 → e.act.getLsbD l = true → is r (x.getD l 0) (val l)) →
          ∃ g' u, exec i s = .next u ∧ LaneWrites w.dst.toNat false e.on (fun l => (val l).toNat) g g' ∧ LaneStep (stepped e.id g') s1 u) ∧
        (∀ l rest, ((List.range 32).filter (fun l => e.act.getLsbD l)).filter (fun l => decide (r.nseg < x.getD l 0)) = l :: rest → ¬ok r (x.getD l 0) →
          exec i s = .next (takeTrap s.cur { cls := .ragged, detail := 4, faults := (l :: rest).map (fun l => ⟨l, .ragged, 4, 0⟩) } true s))
    looks (.segl w) (fun _ _ => True) (fun r i v =>
      (∃ j, j < r.nseg ∧ r.bounds.getD j 0 ≤ i ∧ i < r.bounds.getD (j + 1) 0 ∧ v = BitVec.ofNat 32 j) ∨
      ((∀ j, j < r.nseg → ¬(r.bounds.getD j 0 ≤ i ∧ i < r.bounds.getD (j + 1) 0)) ∧ v = 0xFFFFFFFF)) ∧
    looks (.segb w) (fun r j => j ≤ r.nseg) (fun r j v => v = BitVec.ofNat 32 (r.bounds.getD j 0)) ∧
    ((Instr.hgld w).wf = true → LaneRuns s w.msel [(w.a, false), (w.dst, false)] e →
      (∀ x, gridSnapshot c h s = .error (.trap x) → exec (.hgld w) s = .next (takeTrap s.cur x true s)) ∧
      ∀ g s1, gridSnapshot c h s = .ok (g, s1) →
        let top := max (w.a.toNat + g.dims) (w.dst.toNat + g.levels * g.fwid)
        let coords := (List.range g.dims).map (w.a.toNat + ·)
        let regs := (List.range (g.levels * g.fwid)).map (w.dst.toNat + ·)
        let free := ∀ r, r ∈ coords ++ regs → r ∉ (selfGroup s).vawait
        let errors := registerErrors s1 s.cur (coords ++ regs) coords ((List.range 32).filter e.on)
        (∀ x, top ≤ min 256 (selfVn s) → free → errors = some x → exec (.hgld w) s = .next (takeTrap s.cur x true s)) ∧
        (top ≤ min 256 (selfVn s) → ¬free → exec (.hgld w) s = .next s) ∧
        (∀ x, top ≤ min 256 (selfVn s) → free → errors = none → gridLanes s1 c e w g false = .error (.trap x) →
          exec (.hgld w) s = .next (takeTrap s.cur x true s)) ∧
        (min 256 (selfVn s) < top → exec (.hgld w) s = .next (takeTrap s.cur { cls := .bound, detail := 2 } true s)) ∧
        (top ≤ min 256 (selfVn s) → free → errors = none → ∀ ls, gridLanes s1 c e w g false = .ok ls → (self s).ld < 63 → ls ≠ [] →
          let rs := readCorners ls
          let size := g.fwid * (if g.ftype = 1 then 4 else 2)
          let b := seqAll (fun r s => folded r.place.loc s) rs s1
          let feature (x : Corner × Place) (f : Nat) : Sys2Proof.Machine.Num :=
            (stdFmt g.ftype).decode (leNat (readOwn b c { x.2 with loc := locAdd x.2.loc (f * (if g.ftype = 1 then 4 else 2)) } (if g.ftype = 1 then 4 else 2)))
          let value (l : GridLane) (lvl f : Nat) : Nat := match l.point with
            | none => 0x7FC00000
            | some p => fmt32.round rneMode ((p.getD lvl []).foldl (fun acc x =>
                if x.1.om.isZero then acc else fmt32.rnd rneMode (Sys2Proof.Machine.Num.add false acc (x.1.om.mul (feature x f)))) (.fin false 0 0))
          ∃ u op, exec (.hgld w) s = .next u ∧
            LaneAccess (stepped e.id (awaiting regs (selfGroup s))) b u ∧
            (SoundLanes b c 9 size rs → op.err = none) ∧ (¬SoundLanes b c 9 size rs → ∃ x, op.err = some x ∧ LaneErrorIs b c e.id 9 size regs rs x) ∧
            self u = { self s with ld := (self s).ld + 1, loads := (self s).loads ++ [op] } ∧
            op.dests = ls.flatMap (fun l => (List.range (g.levels * g.fwid)).map (fun i =>
              .v (w.dst.toNat + i) l.lane (BitVec.ofNat 32 (value l (i / g.fwid) (i % g.fwid))))))) ∧
    ((Instr.hgsc w).wf = true → LaneRuns s w.msel [(w.a, false), (w.c, false)] e →
      (∀ x, gridSnapshot c h s = .error (.trap x) → exec (.hgsc w) s = .next (takeTrap s.cur x true s)) ∧
      ∀ g s1, gridSnapshot c h s = .ok (g, s1) →
        let top := max (w.a.toNat + g.dims) (w.c.toNat + g.levels * g.fwid)
        let regs := (List.range g.dims).map (w.a.toNat + ·) ++ (List.range (g.levels * g.fwid)).map (w.c.toNat + ·)
        let free := ∀ r, r ∈ regs → r ∉ (selfGroup s).vawait
        let errors := registerErrors s1 s.cur regs regs ((List.range 32).filter e.on)
        let size := if g.ftype = 1 then 4 else 2
        (∀ x, top ≤ min 256 (selfVn s) → free → errors = some x → exec (.hgsc w) s = .next (takeTrap s.cur x true s)) ∧
        (top ≤ min 256 (selfVn s) → ¬free → exec (.hgsc w) s = .next s) ∧
        (∀ x, top ≤ min 256 (selfVn s) → free → errors = none → gridLanes s1 c e w g true = .error (.trap x) →
          exec (.hgsc w) s = .next (takeTrap s.cur x true s)) ∧
        let grad (i l : Nat) : Sys2Proof.Machine.Num := fmt32.decode (Vec.get (Vec.get (selfGroup s).v (w.c.toNat + i)) l).toNat
        (min 256 (selfVn s) < top → exec (.hgsc w) s = .next (takeTrap s.cur { cls := .bound, detail := 2 } true s)) ∧
        (top ≤ min 256 (selfVn s) → free → errors = none → ∀ ls, gridLanes s1 c e w g true = .ok ls → (self s).st < 63 → ls ≠ [] →
          let xs := gridContributions g grad ls
          let rs : List LaneRef := xs.map (fun x => ⟨x.lane, x.va, false, x.place⟩)
          (ordered s s.cur = true → ∀ q, collect s.cur g.ftype xs (selfGroup s).qbuf s1 = .ok q →
            ∃ u, exec (.hgsc w) s = .next u ∧ LaneCounted [] 0 (stepped e.id { selfGroup s with qbuf := q }) s1 u) ∧
          (ordered s s.cur = true → collect s.cur g.ftype xs (selfGroup s).qbuf s1 = .error (.trap { cls := .quantum, detail := 2 }) →
            exec (.hgsc w) s = .next (takeTrap s.cur { cls := .quantum, detail := 2 } true s)) ∧
          (ordered s s.cur = false → ¬SoundLanes s1 c 9 size rs → KeepsLaneError (.hgsc w) (LaneErrorIs s1 c e.id 9 size [] rs) s) ∧
          (ordered s s.cur = false → SoundLanes s1 c 9 size rs → ∀ p k v, s.cur = .group p k v → ∃ u, exec (.hgsc w) s = .next u ∧
            LaneCounted [] 1 (stepped e.id (selfGroup s)) (seqAll (fun x b => match x.place.loc with
              | .phys a => contribute (p, k) a x.place.mat g.ftype x.delta b
              | .scr _ => b) xs s1) u)))

/-- R18, R88, R90, R288, R311, R342, R343, R347: data return, stores are acknowledged, traps that another step raised are entered,
MACHINE and PREEMPT reach a control core, and lines leave an L1. -/
def Obligations.CompletionsAndTrapEvents : Prop :=
∀ (s : State) (ag : Agent) (k p c line : Nat), 
    (∀ op, (s.stream ag).loads[k]? = some op → op.badKeys = [] → ∃ t, exec (.loadDataReturn ag k) s = .next t ∧ Delivered ag op.dests s t ∧
      t = { s with streams := t.streams, groups := t.groups, bad := t.bad } ∧ (∀ a, a ≠ ag → t.stream a = s.stream a ∧ t.group a = s.group a) ∧
      (∀ w, w ∈ t.bad → w ∈ s.bad) ∧
      t.stream ag = { s.stream ag with
        s := (t.stream ag).s, await := (t.stream ag).await, ld := (s.stream ag).ld - 1,
        loads := (s.stream ag).loads.eraseIdx k, deferred := (s.stream ag).deferred ++ op.err.toList }) ∧
    (∀ op, (s.stream ag).stores[k]? = some op →
      let x := s.stream ag
      let y : Stream := { x with
        st := if op.inSt then x.st - 1 else x.st, uw := if op.inUw then x.uw - 1 else x.uw, stores := x.stores.eraseIdx k }
      let b := annexAck op.homes (s.setStream ag y)
      ((∀ h, h ∈ op.homes → ackReady s h.key = true) →
        ∃ t, exec (.storeAcknowledge ag k) s = .next t ∧ Delivered ag op.dests b t ∧ t = { b with streams := t.streams, groups := t.groups, bad := t.bad } ∧
          (∀ w, w ∈ t.bad → w ∈ b.bad) ∧ (∀ a, a ≠ ag → t.stream a = s.stream a ∧ t.group a = s.group a) ∧
          t.stream ag = { y with s := (t.stream ag).s, await := (t.stream ag).await }) ∧
      ((∃ h, h ∈ op.homes ∧ ackReady s h.key = false) → exec (.storeAcknowledge ag k) s = .next s)) ∧
    (∀ x, (s.stream ag).posted = some x → (s.stream ag).run = .running → exec (.trapEntry ag) s = .next (takeTrap ag x false s)) ∧
    (∀ e r, ag = .ctl p c → Table.find? (s.pkg p).machine (c / 8) = some (e :: r) → dieCtl s p (c / 8) = some c → (s.pkg p).booted = true →
      ((s.stream ag).run = .running ∧ sysMode s ag = false ∨ (s.stream ag).run = .sleeping) →
      ∃ t, exec (.machineEvent ag) s = .next t ∧ t = { s with streams := t.streams, pkgs := t.pkgs } ∧ (∀ a, a ≠ ag → t.stream a = s.stream a) ∧
        t.stream ag = { s.stream ag with
          trappc := (s.stream ag).spc, trapcause := cause 15 e.number e.slot 15, trapaddr := e.addr,
          mode := (s.stream ag).mode ||| 1, half := none, kept := (s.stream ag).half.map (fun h => (h, (s.stream ag).spc)), posted := none, run := .running, spc := (s.ctl (p, c)).trapbase + 0xF00 } ∧
        Table.findD (t.pkg p).machine (c / 8) [] = r ∧ ∀ q, q ≠ p → t.pkg q = s.pkg q) ∧
    (ag = .ctl p c → (s.ctl (p, c)).wake = true → (s.stream ag).run = .running → sysMode s ag = false →
      ∃ t, exec (.preemptTrap ag) s = .next t ∧ t = { s with streams := t.streams, ctls := t.ctls } ∧ (∀ a, a ≠ ag → t.stream a = s.stream a) ∧
        t.stream ag = { s.stream ag with
          trappc := (s.stream ag).spc, trapcause := cause 14 0 0xFE 15, trapaddr := 0,
          mode := (s.stream ag).mode ||| 1, half := none, kept := (s.stream ag).half.map (fun h => (h, (s.stream ag).spc)), posted := none, spc := (s.ctl (p, c)).trapbase + 0xE00 } ∧
        t.ctl (p, c) = { s.ctl (p, c) with wake := false } ∧ ∀ j, j ≠ (p, c) → t.ctl j = s.ctl j) ∧
    (l1Holds (s.core (p, c)) line = true → let b := foldCoreLine line ((p, c), s.core (p, c)) s
      ∃ t, exec (.l1Eviction p c line) s = .next t ∧ t = { b with cores := t.cores } ∧ (∀ j, j ≠ (p, c) → t.core j = b.core j) ∧
        l1Holds (t.core (p, c)) line = false ∧ ∀ l, l ≠ line → l1Holds (t.core (p, c)) l = l1Holds (b.core (p, c)) l) ∧
    ((s.core (p, c)).clean.any (fun x => x.line == line) = true →
      ∃ t, exec (.l1LineExpire p c line) s = .next t ∧ t = { s with cores := t.cores } ∧ (∀ j, j ≠ (p, c) → t.core j = s.core j) ∧
        t.core (p, c) = { s.core (p, c) with clean := (s.core (p, c)).clean.filter (fun x => x.line != line) })

/-- R172, R173, R252, R253, R261, R263: the events of items: an owner performs a remote item and its status returns; a copy starts
behind its queue, frees its source, fills its lines and becomes visible. -/
def Obligations.ItemsPassTheirEvents : Prop :=
∀ (s : State) (id : Nat) (x : Item), Canonical s → Table.find? s.items id = some x →
    let remote (i : Instr) (free : Prop) : Prop :=
      (∀ code t va y cmp, x.kind = .ratom code t va y cmp → t ∈ [0, 1, 7, 8, 11, 12] → code < 8 → x.phase = .queued → free →
        PerformedAt i id x t va (fun old => atomResult (atomCode code) t old (y.toNat % 2 ^ atomBits t) (cmp.toNat % 2 ^ atomBits t)) s) ∧
      (∀ t va y, x.kind = .rrel t va y → t ∈ [7, 8, 11, 12] → x.phase = .queued → free → PerformedAt i id x t va (fun _ => y.toNat % 2 ^ atomBits t) s)
    let ends (i : Instr) (st : Word16) (b : State) : Prop := ∃ t, exec i s = .next t ∧ ItemEnds id x st b t
    remote (.remoteItemPerform id) (x.release = false ∧ ownersAnswer s x = true) ∧
    remote (.remoteReleasePerform id) (x.release = true ∧ ownersAnswer s x = true ∧ ∀ j, j ∈ x.holdFor → Table.find? s.items j = none) ∧
    (ownersAnswer s x = false → exec (.remoteItemPerform id) s = .next s ∧ exec (.remoteReleasePerform id) s = .next s ∧ exec (.itemStart id) s = .next s) ∧
    (x.release = true → (∃ j y, j ∈ x.holdFor ∧ Table.find? s.items j = some y) → exec (.remoteReleasePerform id) s = .next s) ∧
    (isRemote x = true → x.phase = .performed → PlainItem s x → ends (.remoteItemStatus id) x.status s) ∧
    (∀ d rag, x.kind = .copy d rag → x.phase = .queued → (∀ j, j ∈ x.waits → Table.find? s.items j = none) →
      foreignPkg x.ctx.pkg d.src = none → foreignPkg x.ctx.pkg d.dst = none →
      (∀ e, e ∈ x.elems → e.dst.places ≠ [] ∧ ∀ a, e.src = some a → a.places ≠ []) →
      exec (.itemStart id) s = .next (s.setItem id { x with phase := .started })) ∧
    (∀ d rag, x.kind = .copy d rag → x.phase = .queued → (∃ j y, j ∈ x.waits ∧ Table.find? s.items j = some y) → exec (.itemStart id) s = .next s) ∧
    (∀ d sr dr, x.kind = .coll d sr dr → x.phase = .queued → (∀ j, j ∈ x.waits → Table.find? s.items j = none) →
      exec (.itemStart id) s = .next (s.setItem id { x with phase := .started })) ∧
    (∀ d rag, x.kind = .copy d rag → x.phase = .started → ownersAnswer s x = true →
      (∀ b, readSome id (fun _ _ => true) s = .ok b → (Table.find? b.items id).isSome →
        ((b.item id).elems ≠ [] → exec (.itemSourceReusable id) s = .next b) ∧
        ((b.item id).elems = [] →
          ∃ t, exec (.itemSourceReusable id) s = .next t ∧ (t.item id).phase = .read ∧ (t.item id).puts = (b.item id).puts ∧ (t.item id).counted = false ∧
            (x.counted = true → x.orphan = false → blockSaved s x = false → x.issuer = (b.item id).issuer → (b.item id).counted = true → (b.item id).orphan = false →
              blockSaved b (b.item id) = false → (t.stream x.issuer).cp = (b.stream x.issuer).cp - 1) ∧ t.mem = b.mem)) ∧
      (∀ st b, readSome id (fun _ _ => true) s = .error (st, b) → PlainItem b (b.item id) →
        ∃ t, exec (.itemSourceReusable id) s = .next t ∧ ItemEnds id (b.item id) st b t)) ∧
    (∀ d rag e a, x.kind = .copy d rag → x.elems = [e] → e.src = some a → e.got = [] → d.sty = d.dty → d.sty ∈ [0, 1, 3, 4, 5, 6, 7, 8, 9, 10, 11, 12] → d.cons = false →
      (∀ p, p ∈ a.places → lineFull s x.ctx p.loc = true) → sideBad s x.ctx a = false →
      a.places.length = tyBytes d.sty → e.dst.places.length = tyBytes d.sty →
      let f := foldKeys (sideKeys a) s
      ∃ b ps, readSome id (fun _ _ => true) s = .ok b ∧ b = { f with items := b.items } ∧ (b.item id).elems = [] ∧ (b.item id).puts = x.puts ++ ps ∧
        ps.length = tyBytes d.sty ∧ ∀ (i : Nat) (p q : Place), a.places[i]? = some p → e.dst.places[i]? = some q →
          ps[i]? = some (Put.mk q.loc q.mat 0xFF ((readPlace f x.ctx p 1).getD 0 0))) ∧
    ((∃ d rag, x.kind = .copy d rag ∧ x.phase = .read ∧ ownersAnswer s x = true) ∨ (∃ d a b, x.kind = .coll d a b ∧ x.phase = .performed) → PlainItem s x →
      let puts := x.puts.filter putInMemory
      let b := foldKeys (putKeys puts) (s.setItem id { x with puts := [] })
      ∀ m, (∀ p, p ∈ puts → p.mat = m) → homesOf puts = [] →
        ∃ y t, exec (.itemVisible id) s = .next t ∧ ItemEnds id x x.status y t ∧
          y = { b with mem := y.mem, lineKeys := y.lineKeys, early := y.early, stale := y.stale, bad := y.bad, items := y.items } ∧
          (∀ j, goHeld b j = false → readByte y m j = bytesAfter puts (.phys j) (readByte b m j)) ∧ ∀ o, y.block o = b.block o) ∧
    (∀ d rag line blk, x.kind = .copy d rag → (x.phase = .started ∨ x.phase = .read) → ownersAnswer s x = true → line ∈ x.lines → x.ctx.block = some blk →
      (∀ e, e ∈ x.elems → line ∉ sideLines e.dst) → ((x.sched = true ∨ d.waite = true) → line ∈ (s.block blk).empty) → (Table.find? s.blocks blk).isSome →
      let now := x.puts.filter (fun p => match p.loc with | .scr o => o / 128 == line | .phys _ => false)
      ∃ t, exec (.destinationLineFull id line) s = .next t ∧ line ∉ (t.block blk).empty ∧ (t.item id).lines = x.lines.filter (· != line) ∧
        (t.item id).puts = x.puts.filter (fun p => match p.loc with | .scr o => o / 128 != line | .phys _ => true) ∧
        (∀ o, (t.block blk).scratch.read o = bytesAfter now (.scr o) ((s.block blk).scratch.read o)) ∧
        (∀ j, j ≠ line → (j ∈ (t.block blk).empty ↔ j ∈ (s.block blk).empty)) ∧ t.mem = s.mem ∧ t.streams = s.streams)

/-- R318 to R323, R327, R328, R338: the front end, and the gates and triggers of heads. -/
def Obligations.RingEntriesAndGates : Prop := Claims.RingEntriesAreConsumed ∧ Claims.GatesAndTriggersHoldHeads

/-- R22, R27, R28, R44, R329, R332, R333, R357: the distributor chooses the first head it can serve; a block goes to the core that
fits it with the fewest groups, starts there as it is to start, and locks the translations of its context areas. -/
def Obligations.BlocksArePlaced : Prop :=
∀ (s : State) (p q id c : Nat) (gs : List Word64) (ok : Bool),
    let x := queueAt s p q
    let l := s.launch id
    let first := Leads s p q
    (first → x.items.head? = some (.launch id gs ok) → ∃ t, exec (.distributorSelect p) s = .next t ∧ t = { s with pkgs := t.pkgs } ∧
      (∀ r, r ≠ p → t.pkg r = s.pkg r) ∧ t.pkg p = { s.pkg p with queues := (t.pkg p).queues, child := (t.pkg p).child } ∧
      ∀ r, r ≤ 64 → queueAt t p r = { queueAt s p r with chosen := decide (r = q) }) ∧
    (∀ r rag b it, first → x.items.head? = some (.copy r) →
      let y := ringItem p q r (servedBy p q (popHead p q s))
      copyRecord y r.desc (servedBy p q (popHead p q s)) = .ok (rag, b) → checkPhaser p (fun _ => false) false r.desc.phaser b = .ok () →
      copyItem y r.desc rag r.crec b = .ok it → it.elems ≠ [] → exec (.distributorSelect p) s = .next (addRingItem r.id it b)) ∧
    ((∀ r, r ≤ 64 → (queueAt s p r).eligible = true → servable s p r = false) → exec (.distributorSelect p) s = .next s) ∧
    (chooseCore s l q = some c → FitsOn s l q c ∧ ∀ d, FitsOn s l q d → groupCount s (l.pkg, c) ≤ groupCount s (l.pkg, d)) ∧
    (chooseCore s l q = none → ∀ d, ¬FitsOn s l q d) ∧
    (x.items.head? = some (.launch id gs ok) → l.pkg = p → l.mcode = 0 → x.chosen = false ∨ (∃ r, r ≠ q ∧ Leads s p r) → exec (.blockPlace p q) s = .next s) ∧
    (x.items.head? = some (.launch id gs ok) → (Table.find? s.launches id).isSome → l.pkg = p → l.mcode = 0 → l.rows = [] →
      Table.find? l.flushed (indexOf l) = none → x.chosen = true → first → chooseCore s l q = some c →
      ∃ b waves bar, BlockPlaced id s.nextId c waves bar s b ∧
        let found (a : Agent × Word64) : Except Stop Place := lockedPlace b (blockCtx b s.nextId a.1) [] true a.2
        let areas := lockedAreas b (b.block s.nextId)
        ((∀ a, a ∈ areas → ∃ k, found a = .ok k) →
          (∀ a k g, a ∈ areas → found a = .ok k → k.page = some g → (a.2.toNat / 2 ^ g.pb, g) ∈ (b.block s.nextId).locked) ∧
          ∃ t, exec (.blockPlace p q) s = .next t ∧ HeadPlaced p q id b t) ∧
        ∀ a as, areas.filter (fun a => match found a with | .error (.trap _) => true | _ => false) = a :: as →
          ∃ t, exec (.blockPlace p q) s = .next t ∧ HeadPlaced p q id (machineCore (p, c) (waveOf a.1) a.2 (failBlock s.nextId 6 b)) t)

/-- R181, R182: a gang takes a cluster: one block to a core in ascending rank, its weight buffers cleared, and then its MCC
stream starts. -/
def Obligations.GangsArePlaced : Prop :=
∀ (s : State) (p q id u n : Nat) (gs : List Word64) (ok : Bool),
    let x := queueAt s p q
    let l := s.launch id
    let cores := serviceCores (s.pkg p).muniment u
    let cleared (b : State) : Prop := b = { s with cores := b.cores, bad := b.bad } ∧
      (∀ c, c ∈ cores → b.core (p, c) = { s.core (p, c) with wbuf := [] }) ∧ ∀ k, (∀ c, c ∈ cores → k ≠ (p, c)) → b.core k = s.core k
    (chooseCluster s l q = some u → (∀ c, c ∈ serviceCores (s.pkg l.pkg).muniment u → fitsCore s l q (l.pkg, c) = true) ∧
      (s.mcc (l.pkg, u)).fenced = false ∧ ((s.mcc (l.pkg, u)).launch = none ∨
        ((s.stream (.mcc l.pkg u)).run = .ended ∧ ∀ g, g ∈ (s.mcc (l.pkg, u)).gang → Table.find? s.blocks g.2 = none))) ∧
    (x.items.head? = some (.launch id gs ok) → l.pkg = p → l.mcode ≠ 0 →
      x.chosen = false ∨ chooseCluster s l q = none ∨ (∃ r, r ≠ q ∧ Leads s p r) → exec (.gangPlace p q) s = .next s) ∧
    (x.items.head? = some (.launch id gs ok) → l.pkg = p → l.mcode ≠ 0 → l.rows = [] → x.chosen = true → Leads s p q →
      chooseCluster s l q = some u → GangOf l cores.length n →
      ∃ b, cleared b ∧ ∀ y, seqEff (fun c s => placeBlock id c s) (cores.take n) b = .ok y →
        let placed := y.blocks.filter (fun e => e.2.launch == id && decide (s.nextId ≤ e.1))
        let gang := placed.map (fun e => (cores.findIdx (· == e.2.core), e.1))
        placed.length = n → (y.mcc (p, u)).fenced = false → (y.launch id).pkg = p → (y.launch id).mcode = l.mcode → (y.launch id).param = l.param →
          ∃ z t, exec (.gangPlace p q) s = .next t ∧ HeadPlaced p q id z t ∧
            z = { y with streams := z.streams, mccs := z.mccs, engq := z.engq, past := z.past } ∧ (∀ a, a ≠ .mcc p u → z.stream a = y.stream a) ∧
            StartsAt (z.stream (.mcc p u)) l.mcode l.param (BitVec.ofNat 64 (indexOf l)) (BitVec.ofNat 64 ((gang.map (fun g => 2 ^ g.1)).sum)) 0 ∧
            (let m := z.mcc (p, u);
              m.launch = some id ∧ m.gang = gang ∧ m.first = indexOf l ∧ (∀ k, k < 8 → Vec.get m.tsc k = 0 ∧ Vec.get m.ops k = [] ∧ Vec.get m.bind k = none) ∧
              m.arriving = [] ∧ m.endstat = 0 ∧ ∀ k, logicalCluster (y.pkg p).muniment u = some k → m.conv = seedOf (y.launch id).srseed (384 + k) 4) ∧
            ∀ k, k ≠ (p, u) → z.mcc k = y.mcc k)

/-- R113, R164, R170, R288, R325, R326, R331, R335: a block whose groups have ended commits what waits and then ends at its counter
record, a device write at both homes; groups leave and enter the sets of their issue slots; a head unplaced for long holds a core. -/
def Obligations.BlocksEndAndSlotsChange : Prop :=
∀ (s : State),
    (∀ blk b, Table.find? s.blocks blk = some b → (∀ n, b.preempt ≠ .saved n) →
      let finished := ∀ a, a ∈ b.groups → (s.stream a).run = .ended ∨ (s.stream a).run = .fenced
      let settled := (∀ a, a ∈ b.groups → (s.stream a).uw = 0 ∧ (s.stream a).tl = 0) ∧
        (∀ i y, (i, y) ∈ s.items → y.block = some blk → y.orphan = true ∨ isMcc y.issuer = true) ∧ ∀ n, n ∈ b.endAfter → Table.find? s.blocks n = none
      let early := ∃ w, w ∈ s.early ∧ w.block = blk
      let failed := b.groups.filter (fun a => (s.stream a).fcnt != 0)
      let st : Word16 := if b.cancelled then 8 else if b.status ≠ 0 then b.status else match failed with | a :: _ => (s.stream a).fstat | [] => 0
      let core := (logicalCore (s.pkg b.pkg).muniment b.core).getD 0xFFFF
      (¬finished → exec (.blockEnd blk) s = .next s) ∧
      (finished → b.held ≠ [] ∨ early → exec (.blockEnd blk) s = .next (commitBlock blk b.groups s)) ∧
      (finished → b.held = [] → ¬early → ¬settled → exec (.blockEnd blk) s = .next s) ∧
      (finished → b.held = [] → ¬early → settled → ∀ y, endLaunchBlock b.launch b.index st core s = .ok y → (y.block blk).groups = b.groups →
        isSaved (y.block blk) = false → ∃ t, exec (.blockEnd blk) s = .next t ∧ Table.find? t.blocks blk = none ∧
          (∀ a, a ∈ b.groups → Table.find? t.streams a = none ∧ Table.find? t.groups a = none) ∧
          (∀ a, a ∉ b.groups → t.stream a = y.stream a ∧ t.group a = y.group a) ∧ (∀ n, n ≠ blk → t.block n = y.block n) ∧
          t.mem = y.mem ∧ t.launches = y.launches ∧ t.items = y.items ∧ t.cores = y.cores)) ∧
    (∀ id index st core t, endAt (launchCtx s (s.launch id)) (s.launch id).queue (s.launch id).cc st s = .ok t → st = 0 → (Table.find? t.launches id).isSome →
      ∃ y, endLaunchBlock id index st core s = .ok y ∧ (y.launch id).ended = (t.launch id).ended ++ [index] ∧ y.mem = t.mem ∧
        ((s.launch id).ended.length + 1 ≠ (s.launch id).count → y.pkgs = t.pkgs) ∧
        ((s.launch id).ended.length + 1 = (s.launch id).count → (y.pkg (s.launch id).pkg).accepted = (t.pkg (s.launch id).pkg).accepted.filter (· ≠ id))) ∧
    (Canonical s → ∀ k bs pl, pl.loc = .phys k → keyTgt k = 0 → keyOff k + bs.length ≤ ctlSize → DeviceWritten pl.mat k bs s (putDevice pl bs s)) ∧
    (Canonical s → ∀ p off bs, off + bs.length ≤ ctlSize → DeviceWritten (slotMaterial s p 0) (physKey p 0 off) bs s (writeCtl p off bs s)) ∧
    (∀ c fuel va st pl, controlPlace s c true 32 va = .ok pl → badAt s c pl.loc 32 = none →
      let bs := readPlace (folded pl.loc s) c pl 32
      let count := (field bs 0 8 + 2 ^ 64 - 1) % 2 ^ 64
      let up : Word64 := BitVec.ofNat 64 (field bs 8 8)
      let old : Word16 := BitVec.ofNat 16 (field bs 0x10 2)
      let st' := if st ≠ 0 ∧ old = 0 then st else old
      let nfail := if st = 0 then field bs 0x14 4 else min (field bs 0x14 4 + 1) 0xFFFFFFFF
      let b := putDevice pl (leBytes 8 count ++ leBytes 8 up.toNat ++ leBytes 2 st'.toNat ++ leBytes 2 (field bs 0x12 2) ++ leBytes 4 nfail) (folded pl.loc s)
      (count ≠ 0 ∨ up = 0 → endRecord c (fuel + 1) va st s = .ok (none, b)) ∧ (count = 0 → up ≠ 0 → endRecord c (fuel + 1) va st s = endRecord c fuel up st' b)) ∧
    (∀ p c w, let ag := Agent.group p c w
      isSaved (s.block (s.group ag).block) = false →
      (∀ ld st cp tl, (s.stream ag).run = .awayWait ld st cp tl →
        ((s.stream ag).ld ≤ ld ∧ (s.stream ag).st ≤ st ∧ (s.stream ag).cp ≤ cp ∧ (s.stream ag).tl ≤ tl →
          ∃ t, exec (.groupEligible ag) s = .next t ∧ ComesBack ag p c w (s.stream ag).spc s t) ∧
        (¬((s.stream ag).ld ≤ ld ∧ (s.stream ag).st ≤ st ∧ (s.stream ag).cp ≤ cp ∧ (s.stream ag).tl ≤ tl) → exec (.groupEligible ag) s = .next s)) ∧
      (∀ target, (s.stream ag).run = .awayYield target →
        ((s.stream ag).cp = 0 → ∃ t, exec (.groupEligible ag) s = .next t ∧ ComesBack ag p c w target s t) ∧
        ((s.stream ag).cp ≠ 0 → exec (.groupEligible ag) s = .next s))) ∧
    (∀ p c w v, let a := Agent.group p c w
      let b := Agent.group p c v
      w % 4 = v % 4 → (s.group a).slot = .active → (s.group b).slot = .pending →
      let swapped (t : State) : Prop := t = { s with groups := t.groups } ∧ t.group a = { s.group a with slot := .pending, age := 0 } ∧
        t.group b = { s.group b with slot := .active, age := 0 } ∧ ∀ g, g ≠ a → g ≠ b → t.group g = s.group g
      let waiting := slotGroups s (p, c) (w % 4) .pending
      let working := slotGroups s (p, c) (w % 4) .active
      let last (g : Group) : Nat := max g.issued g.issuedLane
      (32 ≤ (s.group a).age → 1 ≤ (s.group b).age → (∀ g, g ∈ waiting → (s.group g).age ≤ (s.group b).age) →
        ∃ t, exec (.activeWaitSwap a b) s = .next t ∧ swapped t) ∧
      ((s.group a).age < 32 ∨ (s.group b).age = 0 ∨ (∃ g, g ∈ waiting ∧ (s.group b).age < (s.group g).age) → exec (.activeWaitSwap a b) s = .next s) ∧
      (256 ≤ (s.group b).age → (∀ g, g ∈ working → last (s.group a) ≤ last (s.group g)) → ∃ t, exec (.pendingReadySwap a b) s = .next t ∧ swapped t) ∧
      ((s.group b).age < 256 ∨ (∃ g, g ∈ working ∧ last (s.group g) < last (s.group a)) → exec (.pendingReadySwap a b) s = .next s)) ∧
    (∀ p q id, headLaunch s p q = some id → (s.launch id).mcode = 0 → (queueAt s p q).eligible = true → (∀ e, e ∈ s.cores → e.2.reserved ≠ some (p, q)) →
      let free (c : Nat) : Prop := (s.core (p, c)).fenced = false ∧ (s.core (p, c)).reserved = none
      ((queueAt s p q).unplaced < 1048576 → exec (.headReserve p q) s = .next s) ∧
      (∀ before c after, 1048576 ≤ (queueAt s p q).unplaced → logicalCores s p = before ++ c :: after → (∀ d, d ∈ before → ¬free d) → free c →
        exec (.headReserve p q) s = .next (s.setCore (p, c) { s.core (p, c) with reserved := some (p, q) })))

/-- R330, R350, R351, R352: a head that fits nowhere chooses the smallest set of victims of lower priority, each in the mode
that its estimate fixes; a drain that has not ended falls back. -/
def Obligations.VictimsAreChosen : Prop :=
∀ (s : State) (p q id : Nat),
    let l := s.launch id
    let i : Instr := .preemptDecision p q
    (∀ e cores fits v, victims s e cores fits = some v →
      let us := (victimUnits s e cores).foldr (insertUnit s) []
      let gone := (s.blocks.filter (fun b => leaving b.2)).map (·.1)
      v.Sublist us ∧ fits (gone ++ v.flatten) = true ∧ (∀ w : List (List Nat), w.Sublist us → w.length < v.length → fits (gone ++ w.flatten) = false) ∧
      ∀ u, u ∈ v → ∃ b x, (b, x) ∈ cores.flatMap (residents s) ∧ u = gangOfBlock s b ∧ (s.launch x.launch).prio < e ∧ x.preempt = .none) ∧
    (headLaunch s p q = some id → ((queueAt s p q).eligible = false ∨ l.prio = 0 ∨ servable s p q = true) → exec i s = .next s) ∧
    (headLaunch s p q = some id → (queueAt s p q).eligible = true → l.prio ≠ 0 → servable s p q = false →
      let places := if l.mcode = 0 then logicalCores s p else (List.range 4).flatMap (fun d => (usableClusters (s.pkg p).muniment d).take 12)
      ∀ v, bestVictims s (places.filterMap (victimsFor s l q)) = some v → v ≠ [] → ∃ t, exec i s = .next t ∧
        t = { s with blocks := t.blocks, past := t.past } ∧ (∀ b, b ∉ v.flatten → t.block b = s.block b) ∧
        (∀ b, t.block b = { s.block b with preempt := (t.block b).preempt }) ∧
        (∀ u b, v = [u] → b ∈ u → (Table.find? s.blocks b).isSome → modeOf s u (t.block b).preempt)) ∧
    (∀ blk b age, Table.find? s.blocks blk = some b → b.preempt = .drain age →
      (age < 65536 → exec (.drainFallback blk) s = .next s) ∧
      (65536 ≤ age → ∃ t, exec (.drainFallback blk) s = .next t ∧ t = { s with blocks := t.blocks, past := t.past } ∧
        ∀ n, (t.block n) = { s.block n with
          preempt := match (s.block n).preempt with
            | .drain k => if n ∈ gangOfBlock s blk ∧ ((Table.find? s.blocks n).isSome ∨ (Table.find? s.past n).isSome) then
                (if (s.launch b.launch).idem then .flush else .save) else .drain k
            | m => m }))

/-- R219, R254, R354, R355, R357 to R362: a victim is saved in a slot of its core or returns to its launch; an image resumes on
its core; what a group record holds comes back as it was. -/
def Obligations.VictimsAreSavedAndReturn : Prop :=
(∀ (x y : Stream × Group) (w : Nat), RecordFits x → y.1.run = x.1.run → y.2.tsync.drop 1 = x.2.tsync.drop 1 →
    ContextBack x ((groupParts w).foldl (fun z p => p.2.2.2 (p.2.2.1 x) z) y)) ∧
  ∀ (s : State) (blk : Nat) (b : Block), Table.find? s.blocks blk = some b → Alone s blk →
    let k := (b.pkg, b.core)
    let base (n : Nat) : Word64 := (s.core k).savebase + BitVec.ofNat 64 (n * 0x300000)
    (∀ o v, (o, v) ∈ [(0x002, leBytes 2 b.core), (0x010, leBytes 8 b.index), (0x018, leBytes 4 b.partw.toNat), (0x01C, leBytes 4 b.stage.toNat),
        (0x020, leBytes 8 b.rt), (0x028, leBytes 8 b.e), (0x030, leBytes 4 b.ctxid.toNat), (0x038, leBytes 8 b.ptbase.toNat)] → (o, v) ∈ imageChunks s blk) ∧
    (∀ i, 128 * i + 128 ≤ spuBytes b.partw → (0x62000 + rfuBytes b.partw + 128 * i, b.scratch.readN (128 * i) 128) ∈ imageChunks s blk) ∧
    (∀ i, 128 * i + 128 ≤ acuBytes b.partw → (0x62000 + rfuBytes b.partw + spuBytes b.partw + 128 * i, b.acc.readN (128 * i) 128) ∈ imageChunks s blk) ∧
    (∀ a n, a ∈ b.groups → n < vnOf b.partw b.groups.length →
      (0x62000 + 128 * ((s.group a).gidx * vnOf b.partw b.groups.length + n), (Vec.get (s.group a).v n).toList.flatMap (fun x => leBytes 4 x.toNat)) ∈ imageChunks s blk) ∧
    (b.preempt = .save → (∃ a, a ∈ b.groups ∧ ((s.stream a).ld ≠ 0 ∨ (s.stream a).st ≠ 0)) → exec (.save blk) s = .next s) ∧
    (b.preempt = .save → (s.core k).fenced = false →
      (∀ a, a ∈ b.groups → (s.stream a).loads = [] ∧ (s.stream a).stores = [] ∧ (s.stream a).ld = 0 ∧ (s.stream a).st = 0) →
      (∀ i y, (i, y) ∈ s.items → y.block = some blk → y.orphan = false → touchesScratch y = false) →
      (∀ m o, m ∈ s.mccs → o ∈ m.2.arriving → o.block ≠ some blk) →
      ∀ n s1 s2 y, n < 16 → (∀ x, x ∈ imagesAt s k → x.2.preempt ≠ .saved n) → (∀ j, j < n → ∃ x, x ∈ imagesAt s k ∧ x.2.preempt = .saved j) →
        writeState blk (base n) 1 s = .ok s1 → writeChunks blk (base n) (imageChunks s1 blk) s1 = .ok s2 → writeState blk (base n) 2 s2 = .ok y →
        ∃ t, exec (.save blk) s = .next t ∧ t = { y with streams := t.streams, groups := t.groups, blocks := t.blocks, past := t.past } ∧
          t.block blk = { y.block blk with
            preempt := .saved n, away := b.groups.map (fun a => (a, s.stream a, s.group a)), awayMcc := none } ∧
          (∀ j, j ≠ blk → t.block j = y.block j) ∧ (∀ a, a ∈ b.groups → Table.find? t.streams a = none ∧ Table.find? t.groups a = none) ∧
          ∀ a, a ∉ b.groups → t.stream a = y.stream a ∧ t.group a = y.group a) ∧
    (b.preempt = .flush → (Table.find? s.launches b.launch).isSome → (∀ i y, (i, y) ∈ s.items → y.block = some blk → y.orphan = true) →
      let l := s.launch b.launch
      let n := l.queue.getD 64
      ∃ t, exec (.flushAndRestart blk) s = .next t ∧ Table.find? t.blocks blk = none ∧
        (∀ a, a ∈ b.groups → Table.find? t.streams a = none ∧ Table.find? t.groups a = none) ∧ (∀ j, j ≠ blk → t.block j = s.block j) ∧
        t.launch b.launch = { l with
          redo := l.redo.filter (· < b.index) ++ [b.index] ++ l.redo.filter (b.index < ·), flushed := Table.put l.flushed b.index b.sched } ∧
        (headLaunch s l.pkg n = some b.launch → (queueAt t l.pkg n).items = (queueAt s l.pkg n).items) ∧
        (headLaunch s l.pkg n ≠ some b.launch →
          (queueAt t l.pkg n).items = .launch b.launch [] false :: (queueAt s l.pkg n).items ∧ (queueAt t l.pkg n).eligible = true)) ∧
    (∀ n y, readImage s blk (base n) = .ok y → b.awayMcc = none → (y.block blk).preempt = .none ∧ (y.block blk).away = [] ∧
      (y.block blk).late = [] ∧ (y.block blk).groups = b.groups) ∧
    (∀ n s1 y z, b.preempt = .saved n → (∀ x, x ∈ s.blocks → x.2.pkg = b.pkg → x.2.core = b.core → x.2.preempt = .saved n → x = (blk, b)) →
      b.awayMcc = none → imageFits s blk [] = true →
      writeState blk (base n) 3 s = .ok s1 → readImage (foldImage blk (base n) s1) blk (base n) = .ok y → writeState blk (base n) 0 y = .ok z →
      (∀ a, a ∈ b.groups → (Table.find? z.groups a).isSome ∧ (z.group a).tsync = [] ∧
        ∀ j, j < 8 → (∀ x, (Vec.get (z.group a).queues j).running = some x → x.rag = none) ∧ ∀ x, (Vec.get (z.group a).queues j).pending = some x → x.rag = none) →
      (z.block blk).groups = b.groups → (z.block blk).sched = [] →
      exec (.imageResume b.pkg b.core n) s = .next z)

/-- R252, R269 to R276, R279: members meet at a key, in agreement or all with BOUND; a collective performs once every member has
been read, and each takes what its form gives it; a switch slot is allocated, filled, and completed whole or PARTIAL; a
lender takes a range back. -/
def Obligations.CollectivesMeetAndComplete : Prop :=
∀ (s : State) (id : Nat) (x : Item) (d : CollDesc) (sr dr : Option Ragged), Table.find? s.items id = some x → x.kind = .coll d sr dr →
    let k : CollKey := (jobOf x.ctx.ctxid, d.cid, d.seq)
    let g := Table.findD s.colls k ⟨x.kind, []⟩
    let ids := g.items
    let size := match g.first with | .coll e _ _ => e.memb.length | _ => 0
    let cn := collNibbles x.ctx d
    let b := foldKeys (x.sends.flatMap (fun e => sideKeys e.2)) s
    let data := x.sends.map (fun e => (e.1, sideRaw cn e.2 (sideBytes b x.ctx e.2))) ++ padSent x
    let readable := x.counted = false ∧ ∀ e, e ∈ x.sends → sideBad s x.ctx e.2 = false
    let arrive : Instr := .collectiveArrival id
    let pn := panelOf x.ctx.pkg
    let die := d.cid % 16
    let slots := (s.panel pn).slots
    let mine (sl : Slot) : Prop := sl.die = die ∧ sl.key = k
    let expired := ∃ w, Table.find? (s.panel pn).marks (die, k.1, d.cid) = some w ∧ (w + 2 ^ 32 - d.seq) % 2 ^ 32 < 2 ^ 31
    let gives (before after : List Slot) (sl : Slot) (dat : List (Nat × Nat)) (c : State) : State :=
      let full : Slot := { sl with gave := sl.gave ++ [(d.rank, dat)] }
      let z := (c.setPanel pn { s.panel pn with slots := before ++ full :: after }).setItem id { x with phase := .contributed, data := dat }
      if full.gave.length = full.first.memb.length then completeSlot pn before.length 0 z else z
    let withSlots (z : List Slot) (p : ItemPhase) (b : State) : State := (b.setPanel pn { s.panel pn with slots := z }).setItem id { x with phase := p }
    (d.insw = false → x.phase = .started →
      (s.closed.contains k = true → PlainItem s x → ∃ t, exec arrive s = .next t ∧ ItemEnds id x 5 s t) ∧
      (s.closed.contains k = false → (∃ p, p ∈ x.peers ∧ (s.pkg x.ctx.pkg).lost.contains p = true) → PlainItem s x → ∃ t, exec arrive s = .next t ∧ ItemEnds id x 1 s t) ∧
      (s.closed.contains k = false → (∀ p, p ∈ x.peers → (s.pkg x.ctx.pkg).lost.contains p = false) →
        (collAgrees g.first x.kind = true → shareTooLarge x d = false →
          exec arrive s = .next ({ s with colls := Table.put s.colls k { g with items := ids ++ [id] } }.setItem id { x with phase := .arrived })) ∧
        (collAgrees g.first x.kind = false ∨ shareTooLarge x d = true → ∀ t, endAll (ids ++ [id]) 5 { s with closed := s.closed ++ [k], colls := Table.del s.colls k } = .ok t →
          exec arrive s = .next t))) ∧
    (x.phase = .arrived → readable →
      let y : Item := { x with data := data, phase := .read }
      let members := ids.map (fun i => if i = id then y else s.item i)
      (d.insw = true ∨ ids.length ≠ size ∨ (∃ i, i ∈ ids ∧ i ≠ id ∧ ((Table.find? s.items i).isNone ∨ (s.item i).phase ≠ .read)) →
        exec (.itemSourceReusable id) s = .next (b.setItem id y)) ∧
      (d.insw = false → ids.length = size → ids ≠ [] → ids.Nodup → id ∈ ids →
        (∀ i, i ∈ ids → (Table.find? s.items i).isSome ∧ (i ≠ id → (s.item i).phase = .read)) →
        (∀ i, i ∈ ids → ∃ e er es, (s.item i).kind = .coll e er es) →
        ∀ ms : List Item, ms.length = size → (∀ r m, ms[r]? = some m → m ∈ members ∧ ∃ e er es, m.kind = .coll e er es ∧ e.rank = r) →
          (∀ m m' e er es e' er' es', m ∈ members → m' ∈ members → m.kind = .coll e er es → m'.kind = .coll e' er' es' → e.rank = e'.rank → m = m') →
          ∃ t, exec (.itemSourceReusable id) s = .next t ∧ t = { b with items := t.items, closed := s.closed ++ [k], colls := Table.del s.colls k } ∧
            (∀ i, i ∉ ids → t.item i = s.item i) ∧
            ∀ i m e er es, i ∈ ids → m = (if i = id then y else s.item i) → m.kind = .coll e er es → e.op ≤ 1 →
              t.item i = { m with
                phase := .performed
                puts := m.outs.flatMap (fun o => match reduceElem e.ty e.rop (ms.filterMap (fun z => sentAt z o.1)) with
                  | some v => sidePuts (collNibbles m.ctx e) o.2 v
                  | none => [])
                nan := (m.outs.map (fun o => ignoredNans e.ty e.rop (ms.filterMap (fun z => sentAt z o.1)))).sum
                status := 0 })) ∧
    (∀ ty xs, 5 ≤ ty → ty ≤ 12 → xs ≠ [] → (∀ v, v ∈ xs → v < 2 ^ (8 * tyBytes ty)) → reduceElem ty 0 xs = some (xs.sum % 2 ^ (8 * tyBytes ty))) ∧
    (∀ v r, let canon (z : Nat) : Nat := fmt32.round rneMode (fmt32.decode z)
      let plus (a b : Nat) : Nat := fmt32.round rneMode (Sys2Proof.Machine.Num.add false (fmt32.decode a) (fmt32.decode b))
      reduceElem 1 0 (v :: r) = some (canon ((r.map canon).foldl plus (canon v)))) ∧
    (d.insw = true → x.phase = .started → expired → PlainItem s x → ∃ t, exec (.switchArrival id) s = .next t ∧ ItemEnds id x 3 s t) ∧
    (d.insw = true → x.phase = .started → ¬expired → (∀ sl, sl ∈ slots → ¬mine sl) → (slots.filter (fun sl => sl.die == die)).length < 2048 →
      let new : Slot := ⟨die, k, d, [id], [], d.deadline⟩
      (512 < d.count * cn → exec (.switchArrival id) s = .next (withSlots (slots ++ [new]) .arrived s)) ∧
      (d.count * cn ≤ 512 → readable → exec (.switchArrival id) s = .next (gives slots [] new data b))) ∧
    (d.insw = true → x.phase = .started → ¬expired → (∀ sl, sl ∈ slots → ¬mine sl) → 2048 ≤ (slots.filter (fun sl => sl.die == die)).length →
      exec (.switchArrival id) s = .next s) ∧
    (∀ before sl after, d.insw = true → x.phase = .started → ¬expired → slots = before ++ sl :: after → (∀ z, z ∈ before → ¬mine z) → mine sl →
      let agree := sl.first.memb.length = d.memb.length ∧ sl.first.count = d.count ∧ sl.first.op = d.op ∧ sl.first.rop = d.rop ∧ sl.first.ty = d.ty
      let met : Slot := { sl with arrived := sl.arrived ++ [id] }
      (agree → 512 < d.count * cn → exec (.switchArrival id) s = .next (withSlots (before ++ met :: after) .arrived s)) ∧
      (agree → d.count * cn ≤ 512 → readable → exec (.switchArrival id) s = .next (gives before after met data b)) ∧
      (¬agree → ∀ t, endAll met.arrived 5 (s.setPanel pn { s.panel pn with
          slots := before ++ after, marks := Table.put (s.panel pn).marks (sl.die, sl.key.1, sl.key.2.1) sl.key.2.2 }) = .ok t →
        exec (.switchArrival id) s = .next t)) ∧
    (∀ before sl after, d.insw = true → x.phase = .read → slots = before ++ sl :: after → (∀ z, z ∈ before → ¬mine z) → mine sl →
      exec (.switchArrival id) s = .next (gives before after sl x.data s)) ∧
    (∀ n sl, slots[n]? = some sl → (sl.left ≠ 0 → exec (.switchSlotDeadline pn n) s = .next s) ∧
      (sl.left = 0 → sl.arrived.Nodup → (∀ i, i ∈ sl.arrived → (Table.find? s.items i).isSome ∧ (s.item i).counted = false) →
        ∃ t, exec (.switchSlotDeadline pn n) s = .next t ∧ t = { s with items := t.items, panels := t.panels } ∧ (∀ i, i ∉ sl.arrived → t.item i = s.item i) ∧
          t.panel pn = { s.panel pn with
            slots := slots.eraseIdx n, marks := Table.put (s.panel pn).marks (sl.die, sl.key.1, sl.key.2.1) sl.key.2.2 } ∧
          ∀ i, i ∈ sl.arrived → (t.item i).phase = .performed ∧ (t.item i).status = 2 ∧ (t.item i).kind = (s.item i).kind ∧
            ∀ r, r ∈ (t.item i).missing ↔ r < sl.first.memb.length ∧ ∀ g, g ∈ sl.gave → g.1 ≠ r)) ∧
    (∀ p h is, Table.find? (s.pkg p).leases h = some is →
      ((∀ i, i ∈ is → Table.find? s.items i = none) → exec (.leaseReclaim p h) s = .next (s.setPkg p { s.pkg p with leases := Table.del (s.pkg p).leases h })) ∧
      ((∃ i, i ∈ is ∧ (Table.find? s.items i).isSome) → exec (.leaseReclaim p h) s = .next s))

/-- A write of a home byte, by a package that `who` picks, that is not acknowledged (R288, R317). -/
def Unacknowledged (s : State) (who : Nat → Prop) (k : Nat) (h : HomeByte) : Prop :=
  h.key = k ∧ ∃ a z o, (a, z) ∈ s.streams ∧ who (agentPkg a) ∧ o ∈ z.stores ∧ h ∈ o.homes

/-- The last of those writes in coherence order. -/
def LastUnacknowledged (s : State) (who : Nat → Prop) (k : Nat) (h : HomeByte) : Prop :=
  Unacknowledged s who k h ∧ ∀ g, Unacknowledged s who k g → g = h ∨ g.serial < h.serial

/-- What becomes of a home byte that a lost package was the last to write without an acknowledgement: a later write stands;
else it has the value of the last unacknowledged write of a package that is up, or what the annex home holds, whichever
is later (R317, R374; log entry 84). -/
def Reverts (s : State) (lost k : Nat) : Prop :=
  ∀ h l, LastUnacknowledged s (· = lost) k h → isHome k = true → goHeld s k = false → lineKey s (k / 128) = some l →
    let t := revertByte lost k s
    let annexed (q : Nat → Prop) : Prop := ∃ n, Table.find? s.annexed k = some n ∧ q n
    let becomes (v : Byte) : Prop := readByte t l.under k = v ∧ ∀ j, j ≠ k → readByte t l.under j = readByte s l.under j
    let annex := readByte s (annexMaterial s k) (annexKey k)
    let up (q : Nat) : Prop := pkgUp s q = true
    (annexed (h.serial < ·) → t = s) ∧
    (∀ g, LastUnacknowledged s up k g → h.serial < g.serial → t = s) ∧
    (∀ g, LastUnacknowledged s up k g → g.serial ≤ h.serial → ¬annexed (g.serial < ·) → becomes g.val) ∧
    (∀ g, LastUnacknowledged s up k g → g.serial ≤ h.serial → annexed (fun n => g.serial < n ∧ n ≤ h.serial) → becomes annex) ∧
    ((∀ g, ¬Unacknowledged s up k g) → ¬annexed (h.serial < ·) → becomes annex)

/-- R368, R369, R371 to R377, R379, R392, R393: heartbeats and the losses that their silence declares, the notices and what a
survivor takes back, links that lose lanes, the package clock and its thermal fence. What a lost package holds in M or O and
what a byte reverts to are the model's reading (log entry 84). -/
def Obligations.FabricEventsHappen : Prop :=
∀ (s : State) (p : Nat), Canonical s → (s.pkgs.map (·.1)).Nodup →
    let x := s.pkg p
    let pn := panelOf p
    let die (n : Nat) : Nat := if n < 32 then n / 2 else 4 * (n - 32)
    let joins (d : Nat) : Prop := ∃ n, n < 36 ∧ d = die n ∧ (linkOf x n).retired = false
    let beats (d : Nat) : Prop := ∃ n, n < 36 ∧ d = die n ∧ (linkOf x n).retired = false ∧ (linkOf x n).retraining = false
    let heard (t : State) (d q : Nat) : Prop := Table.find? (t.panel pn).silent (d, q) = (Table.find? (s.panel pn).silent (d, q)).map (fun _ => 0)
    let fences (i : Instr) (b : State) : Prop := ∃ t, exec i s = .next t ∧ t = { b with streams := t.streams, pkgs := t.pkgs } ∧
      t.pkg p = { b.pkg p with fenced := true } ∧ (∀ q, q ≠ p → t.pkg q = b.pkg q) ∧
      ∀ a, (Table.find? b.streams a).isSome → t.stream a = if agentPkg a = p ∧ (b.stream a).run ≠ .ended then { b.stream a with run := .fenced } else b.stream a
    (pkgUp s p = true → x.booted = true → 4096 ≤ x.sinceBeat → ∃ t, exec (.heartbeatSend p) s = .next t ∧ t = { s with panels := t.panels, pkgs := t.pkgs } ∧
      t.pkg p = { x with sinceBeat := 0, beats := (t.pkg p).beats } ∧ (∀ d, d ∈ (t.pkg p).beats ↔ d < 16 ∧ joins d ∧ ¬beats d) ∧
      (∀ q, q ≠ p → t.pkg q = s.pkg q) ∧ (∀ n, n ≠ pn → t.panel n = s.panel n) ∧
      (∀ d, beats d → heard t d p) ∧
      (∀ d q, q ≠ p ∨ ¬beats d → Table.find? (t.panel pn).silent (d, q) = Table.find? (s.panel pn).silent (d, q)) ∧
      t.panel pn = { s.panel pn with silent := (t.panel pn).silent }) ∧
    (x.sinceBeat < 4096 → exec (.heartbeatSend p) s = .next s) ∧
    (∀ d, d < 16 → (Table.find? s.pkgs p).isSome → p ∉ (s.panel pn).lost → 65536 ≤ Table.findD (s.panel pn).silent (d, p) 0 →
      ∃ t, exec (.lossDeclare d p) s = .next t ∧ t = { s with panels := t.panels, pkgs := t.pkgs } ∧
        t.panel pn = { s.panel pn with nextSeq := (s.panel pn).nextSeq + 1, lost := (s.panel pn).lost ++ [p] } ∧
        ∀ q, t.pkg q = { s.pkg q with
          notices := if (Table.find? s.pkgs q).isSome ∧ (s.pkg q).present ∧ (s.pkg q).booted then (s.pkg q).notices ++ [((s.panel pn).nextSeq, p)] else (s.pkg q).notices }) ∧
    (∀ d, p ∈ (s.panel pn).lost → exec (.lossDeclare d p) s = .next s) ∧
    (∀ d, Table.findD (s.panel pn).silent (d, p) 0 < 65536 → exec (.lossDeclare d p) s = .next s) ∧
    (pkgUp s p = true → x.booted = true → (∀ d, d < 16 → 65536 ≤ Table.findD (s.panel pn).silent (d, p) 0) → fences (.packageSelfFence p) s) ∧
    ((∃ d, d < 16 ∧ Table.findD (s.panel pn).silent (d, p) 0 < 65536) → exec (.packageSelfFence p) s = .next s) ∧
    (pkgUp s p = true → 125 ≤ x.tj → fences (.thermalFence p) s) ∧
    (x.tj < 125 → exec (.thermalFence p) s = .next s) ∧
    (x.notices = [] → exec (.lossNoticeApply p) s = .next s) ∧
    (∀ seq lost, (seq, lost) ∈ x.notices → (∀ n, n ∈ x.notices → n ≠ (seq, lost) → seq < n.1) →
      let b := s.setPkg p { x with notices := x.notices.filter (· ≠ (seq, lost)) }
      (lost = p → fences (.lossNoticeApply p) b) ∧
      (lost ≠ p → (s.pkg lost).fenced = false → exec (.lossNoticeApply p) s = .next s) ∧
      (lost ≠ p → pkgUp s p = true → (s.pkg lost).fenced = true → ∀ y, applyLoss p lost b = .ok y →
        let gone := homesGone b lost
        let back := if panelOf p = panelOf lost then takeBack p lost y else ([], y)
        (p = lost ^^^ 1 → gone = true →
          exec (.lossNoticeApply p) s = .next (writeDescriptorFlags p (writeReport p seq lost 8 0 back.1 (back.2.setPkg p { back.2.pkg p with unmirrored := true })))) ∧
        (p ≠ lost ^^^ 1 → exec (.lossNoticeApply p) s = .next (writeDescriptorFlags p (writeReport p seq lost (if gone then 8 else 0) 0 back.1 back.2))) ∧
        (p = lost ^^^ 1 → gone = false → let r := startRebuild p lost back.2
          exec (.lossNoticeApply p) s = .next (writeDescriptorFlags p (r.setPkg p { r.pkg p with reverted := (r.pkg p).reverted ++ [(seq, lost, back.1)] })) ∧
          (r.pkg p).unmirrored = true ∧ lost ∈ (r.pkg p).rebuilding))) ∧
    (∀ lost y, (∀ i z, (i, z) ∈ s.items → lost ∉ z.peers ∧ z.ctx.pkg ≠ lost) → applyLoss p lost s = .ok y →
      y = { s with pkgs := y.pkgs, items := y.items, engq := y.engq } ∧ lost ∈ (y.pkg p).lost ∧ (y.pkg p).lseq = x.lseq + 1 ∧ (∀ i, y.item i = s.item i) ∧ ∀ q, q ≠ p → y.pkg q = s.pkg q) ∧
    (∀ lost, let t := (takeBack p lost s).2
      (∀ l, l ∈ (takeBack p lost s).1 ↔ (l, lost) ∈ s.owners ∧ keyPkg (l * 128) = p) ∧ (takeBack p lost s).1.Pairwise (· < ·) ∧
      (∀ o, o ∈ t.owners ↔ o ∈ s.owners ∧ ¬(o.2 = lost ∧ keyPkg (o.1 * 128) = p)) ∧
      (∀ k, k ∈ revertedBytes s lost p ↔ keyPkg k = p ∧ ∃ h, Unacknowledged s (· = lost) k h)) ∧
    (∀ lost k, Reverts s lost k) ∧
    (∀ seq lost lines r, x.reverted = (seq, lost, lines) :: r → pkgUp s p = true →
      let b := { s.setPkg p { x with rebuilding := x.rebuilding.filter (· ≠ lost), reverted := r } with
        owners := s.owners.filter (fun o => !(o.2 == lost && keyPkg (o.1 * 128) == lost)) }
      let n := ((s.pkg lost).accepted.map (entryEnds s)).sum
      lines.Pairwise (· < ·) → ∀ y, seqEff (endLostEntry lost) (b.pkg lost).accepted b = .ok y →
        ∃ all : List Nat, all.Pairwise (· < ·) ∧ (∀ l, l ∈ all ↔ l ∈ lines ∨ ((l, lost) ∈ s.owners ∧ keyPkg (l * 128) = lost)) ∧
          exec (.directoryRebuild p) s = .next (writeReport p seq lost 4 n all y)) ∧
    (∀ n lane, (Table.find? s.pkgs p).isSome → n < 36 → (linkOf x n).retired = false → lane ∈ (linkOf x n).lanes →
      let lanes := (linkOf x n).lanes.filter (· ≠ lane)
      ∃ t, exec (.laneFailure p n lane) s = .next t ∧ (∀ q, q ≠ p → t.pkg q = s.pkg q) ∧
        t.pkg p = { x with
          links := Table.put x.links n (if lanes.length < 4 then ⟨[], false, true⟩ else ⟨lanes, true, false⟩)
          faults := if lanes.length < 4 then addOnce (.link n) (addOnce (.linkLane n lane) x.faults) else addOnce (.linkLane n lane) x.faults }) ∧
    (∀ n, (Table.find? s.pkgs p).isSome → (linkOf x n).retraining = true →
      let d := die n
      ∃ t, exec (.linkRetrainComplete p n) s = .next t ∧ t = { s with panels := t.panels, pkgs := t.pkgs } ∧ (∀ q, q ≠ p → t.pkg q = s.pkg q) ∧
        t.pkg p = { x with links := Table.put x.links n { linkOf x n with retraining := false }, beats := x.beats.filter (· ≠ d) } ∧
        (d ∈ x.beats → pkgUp s p = true → heard t d p) ∧ (d ∉ x.beats ∨ pkgUp s p = false → t.panels = s.panels)) ∧
    (let cause : BitVec 3 := (if 3600 < x.watts then 1 else 0) ||| (if 105 < x.tj then 2 else 0) ||| (if 45 < x.inlet then 4 else 0)
     (pkgUp s p = true → x.booted = true → cause ≠ 0 → x.step < 4 →
       exec (.clockStepDown p) s = .next (writePower p (s.setPkg p { x with step := x.step + 1, nstep := x.nstep + 1, cause := cause, calm := 0 }))) ∧
     (cause = 0 ∨ x.step = 4 → exec (.clockStepDown p) s = .next s) ∧
     (pkgUp s p = true → x.booted = true → cause = 0 → 0 < x.step → x.step ≤ 4 → ([36000000, 32000000, 28000000, 24000000, 18000000].getD x.step 0) ≤ x.calm →
       exec (.clockStepUp p) s = .next (writePower p (s.setPkg p { x with step := x.step - 1, cause := 0, calm := 0 }))) ∧
     (cause ≠ 0 ∨ x.step = 0 → exec (.clockStepUp p) s = .next s))

/-- R378, R384 to R387: power-on, package and panel resets and an Ibkel reset request leave each package as R384 gives it, and the
security engine boots it or keeps it out. That unwritten memory reads 0 is the model's (log entry 3). -/
def Obligations.ResetsAndBoot : Prop :=
∀ (s : State) (p : Nat), Canonical s → (s.pkgs.map (·.1)).Nodup → (∀ b, b ∈ (s.pkg p).flash → b.image.length ≤ 62 * 2 ^ 20) → p < 256 →
    ((Table.find? s.pkgs p).isSome → ∃ t, exec (.packageReset p) s = .next t ∧ exec (.ibkelResetRequest p) s = .next t ∧ PackageReset p s t) ∧
    (Table.find? s.pkgs p = none → exec (.packageReset p) s = .next s ∧ exec (.ibkelResetRequest p) s = .next s) ∧
    (∃ b t, exec (.powerOnReset p) s = .next t ∧ PackageReset p b t ∧ (b.pkg p) = { s.pkg p with ctlMaterial := (s.pkg p).nextMaterial } ∧
      b = { s with mem := b.mem, lineKeys := b.lineKeys, bad := b.bad, pkgs := b.pkgs } ∧
      ∀ k, b.mem.read k = if keyPkg k = p ∧ keyTgt k = 0 then 0 else s.mem.read k) ∧
    (∃ t, exec (.panelReset (panelOf p)) s = .next t ∧ t.panel (panelOf p) = ⟨1, [], (t.panel (panelOf p)).silent, [], []⟩ ∧
      (∀ q d, (Table.find? s.pkgs q).isSome → panelOf q = panelOf p → d < 16 →
        Table.find? (t.panel (panelOf p)).silent (d, q) = if (t.pkg q).booted then some 0 else none) ∧
      (∀ q, (Table.find? s.pkgs q).isSome → panelOf q = panelOf p →
        (t.pkg q).fenced = false ∧ (t.pkg q).booted = boots (s.pkg q) ∧ (t.pkg q).muniment = foldFaults (s.pkg q).faults (s.pkg q).muniment ∧
        ∀ r, r ∈ (t.pkg q).lost → panelOf r ≠ panelOf p) ∧
      (∀ a, panelOf (agentPkg a) ≠ panelOf p → t.stream a = s.stream a) ∧
      ∀ q, panelOf q ≠ panelOf p → (t.pkg q).fenced = (s.pkg q).fenced ∧ (t.pkg q).booted = (s.pkg q).booted ∧ (t.pkg q).keys = (s.pkg q).keys) ∧
    (let d := descriptorBytes s p
     let m := (s.pkg p).muniment
     d.length = 2048 ∧ field d 0 4 = 0x43464447 ∧ field d 4 2 = 1 ∧ field d 6 1 = panelOf p % 256 ∧ field d 7 1 = p % 64 ∧ field d 8 4 = m.mseq % 2 ^ 32 ∧
     field d 0x10 2 = m.chans.length % 2 ^ 16 ∧ field d 0x14 4 = (s.pkg p).faults.length % 2 ^ 32 ∧ field d 0x18 8 = m.chans.length * 0x60000000 % 2 ^ 64 ∧ field d 0x20 8 = ((s.pkg p).trained.map (·.2)).sum % 2 ^ 64 ∧ field d 0x28 8 = 0x100000 ∧ field d 0x38 8 = (s.pkg p).lseq % 2 ^ 64 ∧
     (∀ n, n < 48 → field d (0x40 + 8 * n) 8 = clusterEntry m n % 2 ^ 64) ∧ (∀ i, i < 512 → field d (0x1C0 + 2 * i) 2 = m.chans.getD i 0xFFFF % 2 ^ 16))

/-- R297, R341, R379, R387, R388, R390, R391: the device reads the boot block when GO goes from 0 to 1, and the mailbox when CMD leaves
0; GO releases the cores with the bases of the core setup table or is refused; the mailbox answers LOADKEY, ATTEST and
unknown commands; the Ibkel port's requests. When within a turn the device reads is the model's choice (log entry 30), and so
is the number of a core for a watchpoint (log entry 21). -/
def Obligations.ReleaseMailboxAndPort : Prop :=
∀ (s : State) (p : Nat), Canonical s →
    let x := s.pkg p
    let found := (Table.find? s.pkgs p).isSome
    let bytesOf (b : State) (off n : Nat) : List Byte := readRange b (slotMaterial b p 0) (physKey p 0 off) n
    let base (align : Nat) (v v' : Word64) : Prop := (controlBase align v → v' = v) ∧ (¬controlBase align v → v' = 0)
    let vector (v v' : Word64) : Prop := v' = if v.toNat % 4096 = 0 then v else 0
    let entry (b n o : Nat) : Word64 := BitVec.ofNat 64 (readCtl s p (b % 2 ^ 36 + 32 * n + o) 8)
    (∀ before, let t := observePort before p s
      t = { s with pkgs := t.pkgs } ∧ (∀ q, q ≠ p → t.pkg q = s.pkg q) ∧ t.pkg p = { x with goRead := (t.pkg p).goRead, mail := (t.pkg p).mail } ∧
      (x.goRead = none → x.go = 0 → readCtl before p 4 4 = 0 → readCtl s p 4 4 = 1 → (t.pkg p).goRead = some (bytesOf s 0 64)) ∧
      (x.goRead ≠ none ∨ x.go ≠ 0 ∨ readCtl before p 4 4 ≠ 0 ∨ readCtl s p 4 4 ≠ 1 → (t.pkg p).goRead = x.goRead) ∧
      (x.mail = none → readCtl before p 0x2000 4 = 0 → readCtl s p 0x2000 4 ≠ 0 → (t.pkg p).mail = some (bytesOf s 0x2000 256)) ∧
      (x.mail ≠ none ∨ readCtl before p 0x2000 4 ≠ 0 ∨ readCtl s p 0x2000 4 = 0 → (t.pkg p).mail = x.mail)) ∧
    (∀ bs, pkgUp s p = true → x.booted = true → x.go = 0 → x.goRead = some bs →
      let b := field bs 0x10 8
      ∃ t, exec (.goRelease p) s = .next t ∧ (∀ q, q ≠ p → t.pkg q = s.pkg q) ∧ t.streams = s.streams ∧
        (BootBlockOk p bs → t.pkg p = { x with go := 3, goRead := none, qtab := field bs 8 8 } ∧ readCtl t p 4 4 = 3 ∧
          (∀ n, n < 468 → coreUp x.muniment n = true → let c := t.core (p, n)
            vector (entry b n 0) c.trapbase ∧ base 0x8000 (entry b n 8) c.sidebuf ∧ base 0x200000 (entry b n 16) c.savebase) ∧
          (∀ n, n < 52 → clusterUsable x.muniment n = true → let c := t.mcc (p, n)
            vector (entry b (468 + n) 0) c.trapbase ∧ base 0x8000 (entry b (468 + n) 8) c.sidebuf ∧ base 0x200000 (entry b (468 + n) 16) c.savebase)) ∧
        (¬BootBlockOk p bs → t.pkg p = { x with go := 2, goRead := none } ∧ readCtl t p 4 4 = 2 ∧ t.mccs = s.mccs ∧
          ∀ n, (t.core (p, n)).trapbase = (s.core (p, n)).trapbase ∧ (t.core (p, n)).sidebuf = (s.core (p, n)).sidebuf)) ∧
    (x.goRead = none → exec (.goRelease p) s = .next s) ∧
    (∀ mail, Mailbox s p 1 mail →
      let slot := field mail 8 4
      let arg := field mail 0x10 8
      let ok := 0 < slot ∧ slot ≤ 255 ∧ arg / 2 ^ 36 = p % 64 ∧ arg % 2 ^ 36 + 72 ≤ ctlSize
      let b := foldKeys ((List.range 72).map (physKey p 0 (arg % 2 ^ 36) + ·)) s
      let wrapped := bytesOf b (arg % 2 ^ 36) 72
      (¬ok → Answers (.loadkey p) p 2 s s) ∧
      (ok → x.kek = none → Answers (.loadkey p) p 1 s b) ∧
      (∀ k, ok → x.kek = some k → unwrapMaterial (leBytes 32 k) wrapped = none → Answers (.loadkey p) p 1 s b) ∧
      (∀ k m, ok → x.kek = some k → unwrapMaterial (leBytes 32 k) wrapped = some m →
        ∃ y : KeySlot, y.job = (match Table.find? x.keys slot with | some z => z.job | none => none) ∧ materialBytes p y.material = leBytes 64 (leNat m) ∧
          Answers (.loadkey p) p 0 s (b.setPkg p { x with keys := Table.put x.keys slot y }))) ∧
    (∀ mail, Mailbox s p 2 mail →
      let arg := field mail 0x10 8
      let ok := arg % 4096 = 0 ∧ arg / 2 ^ 36 = p % 64 ∧ arg % 2 ^ 36 < ctlSize
      (¬ok → Answers (.attest p) p 2 s s) ∧
      (ok → ∃ r : List Byte, Answers (.attest p) p 0 s (writeCtl p (arg % 2 ^ 36) r s) ∧ r.length = 64 + 64 + 4 + 64 + 32 + 1793 + 1280 ∧
        (r.drop 196).take 32 = (mail.drop 0x18).take 32 ∧ field r 128 4 = x.muniment.mseq % 2 ^ 32)) ∧
    (∀ c mail, 3 ≤ c → Mailbox s p c mail → Answers (.badCommand p) p 2 s s) ∧
    (∀ c mail, c < 3 → Mailbox s p c mail → exec (.badCommand p) s = .next s) ∧
    (x.mail = none → exec (.loadkey p) s = .next s ∧ exec (.attest p) s = .next s ∧ exec (.badCommand p) s = .next s) ∧
    exec (.ibkelReadStatus p) s = .next s ∧
    (∀ v image, found → exec (.ibkelWriteFirmware p v image) s = .next (s.setPkg p { x with flash := x.flash.set (1 - x.inUse) ⟨v, image, firmwareVerifies image⟩ })) ∧
    (∀ u, found → ∃ t, exec (.ibkelRetireRequest p u) s = .next t ∧ t.pkg p = { x with faults := addOnce u x.faults } ∧ (∀ q, q ≠ p → t.pkg q = s.pkg q) ∧ t.streams = s.streams) ∧
    (∀ k, found → exec (.ibkelProvisionKek p k) s = .next (s.setPkg p { x with kek := some (match x.kek with | some j => j | none => k) })) ∧
    (∀ core lo hi r w, let i : Instr := .ibkelSetWatchpoint p core lo hi r w
      let sets (old : List Watch) (set : State) : Prop :=
        let t := set.setPkg p { x with token := true }
        (found → x.token = true → old.length < 4 → exec i s = .next t) ∧
        (found → x.token = false → old.length < 4 → exec i s = .next t ∨ exec i s = .next s) ∧
        (4 ≤ old.length → exec i s = .next s)
      let c := s.core (p, core)
      let m := s.mcc (p, core - 468)
      let k := s.ctl (p, core - 520)
      (core < 468 → sets c.watch (s.setCore (p, core) { c with watch := c.watch ++ [⟨lo, hi, r, w⟩] })) ∧
      (468 ≤ core → core < 520 → sets m.watch (s.setMcc (p, core - 468) { m with watch := m.watch ++ [⟨lo, hi, r, w⟩] })) ∧
      (520 ≤ core → core < 552 → sets k.watch (s.setCtl (p, core - 520) { k with watch := k.watch ++ [⟨lo, hi, r, w⟩] })) ∧
      (552 ≤ core → exec i s = .next s))

/-- R26, R285 to R287, R289 to R293: an address is decoded, walked and checked in order, and the first failure raises; what
passes reaches the byte that its leaf names, in the storage of its channel or its port. Where in a channel's or a port's
storage a chunk lies is the model's choice (log entry 90). -/
def Obligations.AccessesAreTranslatedInOrder : Prop :=
∀ (s : State) (c : Ctx) (u : Use) (va : Word64) (n : Nat), s.stale = [] → (∀ x, BadWord.mem x ∉ s.bad) →
    let space := (va.extractLsb' 62 2).toNat
    let traps (cls : TrapClass) (d : Nat) : Prop := place s c u va n = .error (.trap { cls := cls, detail := d, addr := va })
    let spans := 128 < va.toNat % 128 + n
    let malformed := space = 3 ∨ (space = 0 ∧ va.extractLsb' 52 10 ≠ 0) ∨ (space = 2 ∧ va.extractLsb' 24 38 ≠ 0)
    let own := (va.extractLsb' 53 8).toNat = c.pkg
    let root := physKey c.pkg 0 (c.ptbase.toNat % 2 ^ 36)
    let walked (x : Except Nat Page) : Prop := if space = 0 then WalkFinds s c.pkg true (controlLevels va) root x else WalkFinds s c.pkg false (tensorLevels va) (root + 0x10000) x
    let reaches := ¬malformed ∧ ¬spans ∧ c.identity = false ∧ (space = 0 ∨ (space = 1 ∧ own))
    (malformed → traps .translation 1) ∧
    (¬malformed → spans → traps .bound 1) ∧
    (¬malformed → ¬spans → space = 2 → c.limit < (va.extractLsb' 0 24).toNat + n → traps .bound 3) ∧
    (¬malformed → ¬spans → space = 1 → ¬own → traps .remote 0) ∧
    (reaches → ∃ x, walked x ∧ ∀ y, walked y → y = x) ∧
    (∀ d, reaches → walked (.error d) → traps .translation d) ∧
    (∀ p, reaches → walked (.ok p) →
      let off := va.toNat % 2 ^ p.pb
      let pa := (p.leaf.extractLsb' 13 28).toNat * 65536 + off
      let key := (p.leaf.extractLsb' 56 8).toNat
      let tgt := (p.leaf.extractLsb' 41 2).toNat
      let under (q : Nat) : Under := ⟨key, match Table.find? (s.pkg q).keys key with | some k => k.material | none => (default : KeySlot).material⟩
      let chunk (units : List Nat) (size : Nat) : Nat := units.getD (pa / 4096 % units.length) 0 * size + pa / 4096 / units.length * 4096 + pa % 4096
      let at_ := if tgt = 1 then chunk (s.pkg c.pkg).muniment.chans 0x60000000 else chunk ((s.pkg c.pkg).trained.map (·.1)) (2 ^ 42)
      (∀ cls d, ((pageChecks s c u p off).find? (·.1)).map (·.2) = some (cls, d) →
        place s c u va n = .error (.trap { cls := cls, detail := d, addr := if cls = .illegal then 0 else va })) ∧
      ((pageChecks s c u p off).find? (·.1) = none → u.ty = 9 →
        (space = 1 → watched s c u va n = false → place s c u va n = .ok ⟨.phys (physKey c.pkg tgt at_), under c.pkg, some p, off⟩) ∧
        (space = 1 → watched s c u va n = true → traps .watch 0) ∧
        (space = 0 → watched s c u va n = false → pkgUp s (c.pkg / 64 * 64 + pa / 2 ^ 36) = true →
          let home := c.pkg / 64 * 64 + pa / 2 ^ 36
          place s c u va n = .ok ⟨.phys (physKey home 0 (pa % 2 ^ 36)), under home, some p, off⟩))) ∧
    (¬malformed → ¬spans → space = 2 → (va.extractLsb' 0 24).toNat + n ≤ c.limit → u.ty ≠ 13 → u.ty < 16 → watched s c u va n = false →
      place s c u va n = .ok ⟨.scr (va.extractLsb' 0 24).toNat, default, none, (va.extractLsb' 0 24).toNat⟩)
end

