-- ==== Sys2Proof/Laws/Encoding.lean ====
section
/-! SUPPORT. The fields of the encoder's words, read back: one lemma for each format and field (R59, R64, R67). -/

namespace Sys2Proof

@[simp] theorem fOp_encR (op : BitVec 6) (d a b : SReg) (func : BitVec 8) : fOp (encR op d a b func) = op := by
  unfold fOp encR
  repeat first | exact BitVec.extractLsb'_eq_self | refine (BitVec.extractLsb'_append_eq_of_le (by decide)).trans ?_

@[simp] theorem fD_encR (op : BitVec 6) (d a b : SReg) (func : BitVec 8) : fD (encR op d a b func) = d := by
  unfold fD encR
  repeat first | exact BitVec.extractLsb'_eq_self | refine (BitVec.extractLsb'_append_eq_of_le (by decide)).trans ?_ | refine (BitVec.extractLsb'_append_eq_of_add_le (by decide)).trans ?_

@[simp] theorem fA_encR (op : BitVec 6) (d a b : SReg) (func : BitVec 8) : fA (encR op d a b func) = a := by
  unfold fA encR
  repeat first | exact BitVec.extractLsb'_eq_self | refine (BitVec.extractLsb'_append_eq_of_le (by decide)).trans ?_ | refine (BitVec.extractLsb'_append_eq_of_add_le (by decide)).trans ?_

@[simp] theorem fB_encR (op : BitVec 6) (d a b : SReg) (func : BitVec 8) : fB (encR op d a b func) = b := by
  unfold fB encR
  repeat first | exact BitVec.extractLsb'_eq_self | refine (BitVec.extractLsb'_append_eq_of_le (by decide)).trans ?_ | refine (BitVec.extractLsb'_append_eq_of_add_le (by decide)).trans ?_

@[simp] theorem fFunc_encR (op : BitVec 6) (d a b : SReg) (func : BitVec 8) : fFunc (encR op d a b func) = func := by
  unfold fFunc encR
  repeat first | exact BitVec.extractLsb'_eq_self | refine (BitVec.extractLsb'_append_eq_of_le (by decide)).trans ?_ | refine (BitVec.extractLsb'_append_eq_of_add_le (by decide)).trans ?_

@[simp] theorem fOp_encI (op : BitVec 6) (d a : SReg) (imm : BitVec 14) : fOp (encI op d a imm) = op := by
  unfold fOp encI
  repeat first | exact BitVec.extractLsb'_eq_self | refine (BitVec.extractLsb'_append_eq_of_le (by decide)).trans ?_

@[simp] theorem fD_encI (op : BitVec 6) (d a : SReg) (imm : BitVec 14) : fD (encI op d a imm) = d := by
  unfold fD encI
  repeat first | exact BitVec.extractLsb'_eq_self | refine (BitVec.extractLsb'_append_eq_of_le (by decide)).trans ?_ | refine (BitVec.extractLsb'_append_eq_of_add_le (by decide)).trans ?_

@[simp] theorem fA_encI (op : BitVec 6) (d a : SReg) (imm : BitVec 14) : fA (encI op d a imm) = a := by
  unfold fA encI
  repeat first | exact BitVec.extractLsb'_eq_self | refine (BitVec.extractLsb'_append_eq_of_le (by decide)).trans ?_ | refine (BitVec.extractLsb'_append_eq_of_add_le (by decide)).trans ?_

@[simp] theorem fImm14_encI (op : BitVec 6) (d a : SReg) (imm : BitVec 14) : fImm14 (encI op d a imm) = imm := by
  unfold fImm14 encI
  repeat first | exact BitVec.extractLsb'_eq_self | refine (BitVec.extractLsb'_append_eq_of_le (by decide)).trans ?_ | refine (BitVec.extractLsb'_append_eq_of_add_le (by decide)).trans ?_

@[simp] theorem fOp_encJ (op : BitVec 6) (off : BitVec 26) : fOp (encJ op off) = op := by
  unfold fOp encJ
  repeat first | exact BitVec.extractLsb'_eq_self | refine (BitVec.extractLsb'_append_eq_of_le (by decide)).trans ?_

@[simp] theorem fOff26_encJ (op : BitVec 6) (off : BitVec 26) : fOff26 (encJ op off) = off := by
  unfold fOff26 encJ
  repeat first | exact BitVec.extractLsb'_eq_self | refine (BitVec.extractLsb'_append_eq_of_le (by decide)).trans ?_ | refine (BitVec.extractLsb'_append_eq_of_add_le (by decide)).trans ?_

/-- The sub-operation and the opcode of a two-word form stand in its first word. -/
@[simp] theorem longWord_op (op : BitVec 6) (sub : BitVec 8) (d a b : SReg) : fOp (op ++ sub ++ d ++ a ++ b) = op := by
  unfold fOp
  repeat first | exact BitVec.extractLsb'_eq_self | refine (BitVec.extractLsb'_append_eq_of_le (by decide)).trans ?_

@[simp] theorem longWord_sub (op : BitVec 6) (sub : BitVec 8) (d a b : SReg) : (op ++ sub ++ d ++ a ++ b).extractLsb' 18 8 = sub := by
  repeat first | exact BitVec.extractLsb'_eq_self | refine (BitVec.extractLsb'_append_eq_of_le (by decide)).trans ?_ | refine (BitVec.extractLsb'_append_eq_of_add_le (by decide)).trans ?_

@[simp] theorem longFields_enc (sub : BitVec 8) (w : LongWord) : longFields ((0x3E : BitVec 6) ++ sub ++ w.d ++ w.a ++ w.b) (w.c ++ w.e ++ w.scope ++ w.st ++ w.rm ++ w.ty ++ w.aux) = w := by
  cases w
  simp only [longFields, LongWord.mk.injEq]
  refine ⟨?_, ?_, ?_, ?_, ?_, ?_, ?_, ?_, ?_, ?_⟩
  all_goals
    repeat first | exact BitVec.extractLsb'_eq_self | refine (BitVec.extractLsb'_append_eq_of_le (by decide)).trans ?_ | refine (BitVec.extractLsb'_append_eq_of_add_le (by decide)).trans ?_

@[simp] theorem tileFields_enc (sub : BitVec 8) (w : TileWord) : tileFields ((0x3F : BitVec 6) ++ sub ++ w.d ++ w.a ++ w.b) (w.c ++ w.sn ++ w.mrow ++ w.mcol ++ w.mdep ++ w.ta ++ w.tb ++ (0 : BitVec 1) ++ w.tya ++ w.tyb ++ w.rm ++ w.aux) = w := by
  cases w
  simp only [tileFields, TileWord.mk.injEq]
  refine ⟨?_, ?_, ?_, ?_, ?_, ?_, ?_, ?_, ?_, ?_, ?_, ?_, ?_, ?_⟩
  all_goals
    repeat first | exact BitVec.extractLsb'_eq_self | refine (BitVec.extractLsb'_append_eq_of_le (by decide)).trans ?_ | refine (BitVec.extractLsb'_append_eq_of_add_le (by decide)).trans ?_

/-- The field that a tile word reserves is zero (R64). -/
@[simp] theorem tileReserved_enc (w : TileWord) : (w.c ++ w.sn ++ w.mrow ++ w.mcol ++ w.mdep ++ w.ta ++ w.tb ++ (0 : BitVec 1) ++ w.tya ++ w.tyb ++ w.rm ++ w.aux).getLsbD 17 = false := by
  refine Eq.trans (b := (BitVec.extractLsb' 17 1 _).getLsbD 0) (by simp only [BitVec.getLsbD_extractLsb']; rfl) ?_
  refine Eq.trans (b := (0 : BitVec 1).getLsbD 0) (congrArg (fun x => BitVec.getLsbD x 0) ?_) rfl
  repeat first | exact BitVec.extractLsb'_eq_self | refine (BitVec.extractLsb'_append_eq_of_le (by decide)).trans ?_ | refine (BitVec.extractLsb'_append_eq_of_add_le (by decide)).trans ?_

@[simp] theorem lane_opc (opc : BitVec 10) (w : LaneWord) : (encLaneWord opc w).extractLsb' 54 10 = opc := by
  unfold encLaneWord
  repeat first | exact BitVec.extractLsb'_eq_self | refine (BitVec.extractLsb'_append_eq_of_le (by decide)).trans ?_ | refine (BitVec.extractLsb'_append_eq_of_add_le (by decide)).trans ?_

@[simp] theorem lane_fields (opc : BitVec 10) (w : LaneWord) : laneFields (encLaneWord opc w) = w := by
  cases w
  simp only [laneFields, encLaneWord, LaneWord.mk.injEq]
  refine ⟨?_, ?_, ?_, ?_, ?_, ?_, ?_, ?_, ?_, ?_⟩
  case refine_8 =>
    refine Eq.trans (b := BitVec.extractLsb' 8 1 _ ++ BitVec.extractLsb' 0 8 _) ?_ (BitVec.extractLsb'_append_extractLsb'_eq_extractLsb' (by rfl) |>.trans BitVec.extractLsb'_eq_self)
    congr 1 <;> repeat first | exact BitVec.extractLsb'_eq_self | refine (BitVec.extractLsb'_append_eq_of_le (by decide)).trans ?_ | refine (BitVec.extractLsb'_append_eq_of_add_le (by decide)).trans ?_
  all_goals repeat first | exact BitVec.extractLsb'_eq_self | refine (BitVec.extractLsb'_append_eq_of_le (by decide)).trans ?_ | refine (BitVec.extractLsb'_append_eq_of_add_le (by decide)).trans ?_

end Sys2Proof
end

