-- ==== Sys2Proof/Laws/State.lean ====
section
/-! SUPPORT. What each update of a part of the state leaves and changes: one lemma for each field and update. -/

namespace Sys2Proof.Machine

@[simp] theorem State.setStream_streams (s : State) (ag : Agent) (x : Stream) : (s.setStream ag x).streams = Table.put s.streams ag x := rfl
@[simp] theorem State.setStream_groups (s : State) (ag : Agent) (x : Stream) : (s.setStream ag x).groups = s.groups := rfl
@[simp] theorem State.setStream_blocks (s : State) (ag : Agent) (x : Stream) : (s.setStream ag x).blocks = s.blocks := rfl
@[simp] theorem State.setStream_past (s : State) (ag : Agent) (x : Stream) : (s.setStream ag x).past = s.past := rfl
@[simp] theorem State.setStream_launches (s : State) (ag : Agent) (x : Stream) : (s.setStream ag x).launches = s.launches := rfl
@[simp] theorem State.setStream_items (s : State) (ag : Agent) (x : Stream) : (s.setStream ag x).items = s.items := rfl
@[simp] theorem State.setStream_colls (s : State) (ag : Agent) (x : Stream) : (s.setStream ag x).colls = s.colls := rfl
@[simp] theorem State.setStream_closed (s : State) (ag : Agent) (x : Stream) : (s.setStream ag x).closed = s.closed := rfl
@[simp] theorem State.setStream_engq (s : State) (ag : Agent) (x : Stream) : (s.setStream ag x).engq = s.engq := rfl
@[simp] theorem State.setStream_cores (s : State) (ag : Agent) (x : Stream) : (s.setStream ag x).cores = s.cores := rfl
@[simp] theorem State.setStream_mccs (s : State) (ag : Agent) (x : Stream) : (s.setStream ag x).mccs = s.mccs := rfl
@[simp] theorem State.setStream_ctls (s : State) (ag : Agent) (x : Stream) : (s.setStream ag x).ctls = s.ctls := rfl
@[simp] theorem State.setStream_pkgs (s : State) (ag : Agent) (x : Stream) : (s.setStream ag x).pkgs = s.pkgs := rfl
@[simp] theorem State.setStream_panels (s : State) (ag : Agent) (x : Stream) : (s.setStream ag x).panels = s.panels := rfl
@[simp] theorem State.setStream_mem (s : State) (ag : Agent) (x : Stream) : (s.setStream ag x).mem = s.mem := rfl
@[simp] theorem State.setStream_lineKeys (s : State) (ag : Agent) (x : Stream) : (s.setStream ag x).lineKeys = s.lineKeys := rfl
@[simp] theorem State.setStream_early (s : State) (ag : Agent) (x : Stream) : (s.setStream ag x).early = s.early := rfl
@[simp] theorem State.setStream_owners (s : State) (ag : Agent) (x : Stream) : (s.setStream ag x).owners = s.owners := rfl
@[simp] theorem State.setStream_annexed (s : State) (ag : Agent) (x : Stream) : (s.setStream ag x).annexed = s.annexed := rfl
@[simp] theorem State.setStream_serial (s : State) (ag : Agent) (x : Stream) : (s.setStream ag x).serial = s.serial := rfl
@[simp] theorem State.setStream_stale (s : State) (ag : Agent) (x : Stream) : (s.setStream ag x).stale = s.stale := rfl
@[simp] theorem State.setStream_bad (s : State) (ag : Agent) (x : Stream) : (s.setStream ag x).bad = s.bad := rfl
@[simp] theorem State.setStream_nextId (s : State) (ag : Agent) (x : Stream) : (s.setStream ag x).nextId = s.nextId := rfl
@[simp] theorem State.setStream_agenda (s : State) (ag : Agent) (x : Stream) : (s.setStream ag x).agenda = s.agenda := rfl
@[simp] theorem State.setStream_cur (s : State) (ag : Agent) (x : Stream) : (s.setStream ag x).cur = s.cur := rfl
@[simp] theorem State.setStream_choice (s : State) (ag : Agent) (x : Stream) : (s.setStream ag x).choice = s.choice := rfl

@[simp] theorem State.setGroup_streams (s : State) (ag : Agent) (x : Group) : (s.setGroup ag x).streams = s.streams := rfl
@[simp] theorem State.setGroup_groups (s : State) (ag : Agent) (x : Group) : (s.setGroup ag x).groups = Table.put s.groups ag x := rfl
@[simp] theorem State.setGroup_blocks (s : State) (ag : Agent) (x : Group) : (s.setGroup ag x).blocks = s.blocks := rfl
@[simp] theorem State.setGroup_past (s : State) (ag : Agent) (x : Group) : (s.setGroup ag x).past = s.past := rfl
@[simp] theorem State.setGroup_launches (s : State) (ag : Agent) (x : Group) : (s.setGroup ag x).launches = s.launches := rfl
@[simp] theorem State.setGroup_items (s : State) (ag : Agent) (x : Group) : (s.setGroup ag x).items = s.items := rfl
@[simp] theorem State.setGroup_colls (s : State) (ag : Agent) (x : Group) : (s.setGroup ag x).colls = s.colls := rfl
@[simp] theorem State.setGroup_closed (s : State) (ag : Agent) (x : Group) : (s.setGroup ag x).closed = s.closed := rfl
@[simp] theorem State.setGroup_engq (s : State) (ag : Agent) (x : Group) : (s.setGroup ag x).engq = s.engq := rfl
@[simp] theorem State.setGroup_cores (s : State) (ag : Agent) (x : Group) : (s.setGroup ag x).cores = s.cores := rfl
@[simp] theorem State.setGroup_mccs (s : State) (ag : Agent) (x : Group) : (s.setGroup ag x).mccs = s.mccs := rfl
@[simp] theorem State.setGroup_ctls (s : State) (ag : Agent) (x : Group) : (s.setGroup ag x).ctls = s.ctls := rfl
@[simp] theorem State.setGroup_pkgs (s : State) (ag : Agent) (x : Group) : (s.setGroup ag x).pkgs = s.pkgs := rfl
@[simp] theorem State.setGroup_panels (s : State) (ag : Agent) (x : Group) : (s.setGroup ag x).panels = s.panels := rfl
@[simp] theorem State.setGroup_mem (s : State) (ag : Agent) (x : Group) : (s.setGroup ag x).mem = s.mem := rfl
@[simp] theorem State.setGroup_lineKeys (s : State) (ag : Agent) (x : Group) : (s.setGroup ag x).lineKeys = s.lineKeys := rfl
@[simp] theorem State.setGroup_early (s : State) (ag : Agent) (x : Group) : (s.setGroup ag x).early = s.early := rfl
@[simp] theorem State.setGroup_owners (s : State) (ag : Agent) (x : Group) : (s.setGroup ag x).owners = s.owners := rfl
@[simp] theorem State.setGroup_annexed (s : State) (ag : Agent) (x : Group) : (s.setGroup ag x).annexed = s.annexed := rfl
@[simp] theorem State.setGroup_serial (s : State) (ag : Agent) (x : Group) : (s.setGroup ag x).serial = s.serial := rfl
@[simp] theorem State.setGroup_stale (s : State) (ag : Agent) (x : Group) : (s.setGroup ag x).stale = s.stale := rfl
@[simp] theorem State.setGroup_bad (s : State) (ag : Agent) (x : Group) : (s.setGroup ag x).bad = s.bad := rfl
@[simp] theorem State.setGroup_nextId (s : State) (ag : Agent) (x : Group) : (s.setGroup ag x).nextId = s.nextId := rfl
@[simp] theorem State.setGroup_agenda (s : State) (ag : Agent) (x : Group) : (s.setGroup ag x).agenda = s.agenda := rfl
@[simp] theorem State.setGroup_cur (s : State) (ag : Agent) (x : Group) : (s.setGroup ag x).cur = s.cur := rfl
@[simp] theorem State.setGroup_choice (s : State) (ag : Agent) (x : Group) : (s.setGroup ag x).choice = s.choice := rfl

@[simp] theorem State.setBlock_streams (s : State) (b : Nat) (x : Block) : (s.setBlock b x).streams = s.streams := rfl
@[simp] theorem State.setBlock_groups (s : State) (b : Nat) (x : Block) : (s.setBlock b x).groups = s.groups := rfl
@[simp] theorem State.setBlock_blocks (s : State) (b : Nat) (x : Block) : (s.setBlock b x).blocks = Table.put s.blocks b x := rfl
@[simp] theorem State.setBlock_past (s : State) (b : Nat) (x : Block) : (s.setBlock b x).past = s.past := rfl
@[simp] theorem State.setBlock_launches (s : State) (b : Nat) (x : Block) : (s.setBlock b x).launches = s.launches := rfl
@[simp] theorem State.setBlock_items (s : State) (b : Nat) (x : Block) : (s.setBlock b x).items = s.items := rfl
@[simp] theorem State.setBlock_colls (s : State) (b : Nat) (x : Block) : (s.setBlock b x).colls = s.colls := rfl
@[simp] theorem State.setBlock_closed (s : State) (b : Nat) (x : Block) : (s.setBlock b x).closed = s.closed := rfl
@[simp] theorem State.setBlock_engq (s : State) (b : Nat) (x : Block) : (s.setBlock b x).engq = s.engq := rfl
@[simp] theorem State.setBlock_cores (s : State) (b : Nat) (x : Block) : (s.setBlock b x).cores = s.cores := rfl
@[simp] theorem State.setBlock_mccs (s : State) (b : Nat) (x : Block) : (s.setBlock b x).mccs = s.mccs := rfl
@[simp] theorem State.setBlock_ctls (s : State) (b : Nat) (x : Block) : (s.setBlock b x).ctls = s.ctls := rfl
@[simp] theorem State.setBlock_pkgs (s : State) (b : Nat) (x : Block) : (s.setBlock b x).pkgs = s.pkgs := rfl
@[simp] theorem State.setBlock_panels (s : State) (b : Nat) (x : Block) : (s.setBlock b x).panels = s.panels := rfl
@[simp] theorem State.setBlock_mem (s : State) (b : Nat) (x : Block) : (s.setBlock b x).mem = s.mem := rfl
@[simp] theorem State.setBlock_lineKeys (s : State) (b : Nat) (x : Block) : (s.setBlock b x).lineKeys = s.lineKeys := rfl
@[simp] theorem State.setBlock_early (s : State) (b : Nat) (x : Block) : (s.setBlock b x).early = s.early := rfl
@[simp] theorem State.setBlock_owners (s : State) (b : Nat) (x : Block) : (s.setBlock b x).owners = s.owners := rfl
@[simp] theorem State.setBlock_annexed (s : State) (b : Nat) (x : Block) : (s.setBlock b x).annexed = s.annexed := rfl
@[simp] theorem State.setBlock_serial (s : State) (b : Nat) (x : Block) : (s.setBlock b x).serial = s.serial := rfl
@[simp] theorem State.setBlock_stale (s : State) (b : Nat) (x : Block) : (s.setBlock b x).stale = s.stale := rfl
@[simp] theorem State.setBlock_bad (s : State) (b : Nat) (x : Block) : (s.setBlock b x).bad = s.bad := rfl
@[simp] theorem State.setBlock_nextId (s : State) (b : Nat) (x : Block) : (s.setBlock b x).nextId = s.nextId := rfl
@[simp] theorem State.setBlock_agenda (s : State) (b : Nat) (x : Block) : (s.setBlock b x).agenda = s.agenda := rfl
@[simp] theorem State.setBlock_cur (s : State) (b : Nat) (x : Block) : (s.setBlock b x).cur = s.cur := rfl
@[simp] theorem State.setBlock_choice (s : State) (b : Nat) (x : Block) : (s.setBlock b x).choice = s.choice := rfl

@[simp] theorem State.setLaunch_streams (s : State) (l : Nat) (x : Launch) : (s.setLaunch l x).streams = s.streams := rfl
@[simp] theorem State.setLaunch_groups (s : State) (l : Nat) (x : Launch) : (s.setLaunch l x).groups = s.groups := rfl
@[simp] theorem State.setLaunch_blocks (s : State) (l : Nat) (x : Launch) : (s.setLaunch l x).blocks = s.blocks := rfl
@[simp] theorem State.setLaunch_past (s : State) (l : Nat) (x : Launch) : (s.setLaunch l x).past = s.past := rfl
@[simp] theorem State.setLaunch_launches (s : State) (l : Nat) (x : Launch) : (s.setLaunch l x).launches = Table.put s.launches l x := rfl
@[simp] theorem State.setLaunch_items (s : State) (l : Nat) (x : Launch) : (s.setLaunch l x).items = s.items := rfl
@[simp] theorem State.setLaunch_colls (s : State) (l : Nat) (x : Launch) : (s.setLaunch l x).colls = s.colls := rfl
@[simp] theorem State.setLaunch_closed (s : State) (l : Nat) (x : Launch) : (s.setLaunch l x).closed = s.closed := rfl
@[simp] theorem State.setLaunch_engq (s : State) (l : Nat) (x : Launch) : (s.setLaunch l x).engq = s.engq := rfl
@[simp] theorem State.setLaunch_cores (s : State) (l : Nat) (x : Launch) : (s.setLaunch l x).cores = s.cores := rfl
@[simp] theorem State.setLaunch_mccs (s : State) (l : Nat) (x : Launch) : (s.setLaunch l x).mccs = s.mccs := rfl
@[simp] theorem State.setLaunch_ctls (s : State) (l : Nat) (x : Launch) : (s.setLaunch l x).ctls = s.ctls := rfl
@[simp] theorem State.setLaunch_pkgs (s : State) (l : Nat) (x : Launch) : (s.setLaunch l x).pkgs = s.pkgs := rfl
@[simp] theorem State.setLaunch_panels (s : State) (l : Nat) (x : Launch) : (s.setLaunch l x).panels = s.panels := rfl
@[simp] theorem State.setLaunch_mem (s : State) (l : Nat) (x : Launch) : (s.setLaunch l x).mem = s.mem := rfl
@[simp] theorem State.setLaunch_lineKeys (s : State) (l : Nat) (x : Launch) : (s.setLaunch l x).lineKeys = s.lineKeys := rfl
@[simp] theorem State.setLaunch_early (s : State) (l : Nat) (x : Launch) : (s.setLaunch l x).early = s.early := rfl
@[simp] theorem State.setLaunch_owners (s : State) (l : Nat) (x : Launch) : (s.setLaunch l x).owners = s.owners := rfl
@[simp] theorem State.setLaunch_annexed (s : State) (l : Nat) (x : Launch) : (s.setLaunch l x).annexed = s.annexed := rfl
@[simp] theorem State.setLaunch_serial (s : State) (l : Nat) (x : Launch) : (s.setLaunch l x).serial = s.serial := rfl
@[simp] theorem State.setLaunch_stale (s : State) (l : Nat) (x : Launch) : (s.setLaunch l x).stale = s.stale := rfl
@[simp] theorem State.setLaunch_bad (s : State) (l : Nat) (x : Launch) : (s.setLaunch l x).bad = s.bad := rfl
@[simp] theorem State.setLaunch_nextId (s : State) (l : Nat) (x : Launch) : (s.setLaunch l x).nextId = s.nextId := rfl
@[simp] theorem State.setLaunch_agenda (s : State) (l : Nat) (x : Launch) : (s.setLaunch l x).agenda = s.agenda := rfl
@[simp] theorem State.setLaunch_cur (s : State) (l : Nat) (x : Launch) : (s.setLaunch l x).cur = s.cur := rfl
@[simp] theorem State.setLaunch_choice (s : State) (l : Nat) (x : Launch) : (s.setLaunch l x).choice = s.choice := rfl

@[simp] theorem State.setItem_streams (s : State) (i : Nat) (x : Item) : (s.setItem i x).streams = s.streams := rfl
@[simp] theorem State.setItem_groups (s : State) (i : Nat) (x : Item) : (s.setItem i x).groups = s.groups := rfl
@[simp] theorem State.setItem_blocks (s : State) (i : Nat) (x : Item) : (s.setItem i x).blocks = s.blocks := rfl
@[simp] theorem State.setItem_past (s : State) (i : Nat) (x : Item) : (s.setItem i x).past = s.past := rfl
@[simp] theorem State.setItem_launches (s : State) (i : Nat) (x : Item) : (s.setItem i x).launches = s.launches := rfl
@[simp] theorem State.setItem_items (s : State) (i : Nat) (x : Item) : (s.setItem i x).items = Table.put s.items i x := rfl
@[simp] theorem State.setItem_colls (s : State) (i : Nat) (x : Item) : (s.setItem i x).colls = s.colls := rfl
@[simp] theorem State.setItem_closed (s : State) (i : Nat) (x : Item) : (s.setItem i x).closed = s.closed := rfl
@[simp] theorem State.setItem_engq (s : State) (i : Nat) (x : Item) : (s.setItem i x).engq = s.engq := rfl
@[simp] theorem State.setItem_cores (s : State) (i : Nat) (x : Item) : (s.setItem i x).cores = s.cores := rfl
@[simp] theorem State.setItem_mccs (s : State) (i : Nat) (x : Item) : (s.setItem i x).mccs = s.mccs := rfl
@[simp] theorem State.setItem_ctls (s : State) (i : Nat) (x : Item) : (s.setItem i x).ctls = s.ctls := rfl
@[simp] theorem State.setItem_pkgs (s : State) (i : Nat) (x : Item) : (s.setItem i x).pkgs = s.pkgs := rfl
@[simp] theorem State.setItem_panels (s : State) (i : Nat) (x : Item) : (s.setItem i x).panels = s.panels := rfl
@[simp] theorem State.setItem_mem (s : State) (i : Nat) (x : Item) : (s.setItem i x).mem = s.mem := rfl
@[simp] theorem State.setItem_lineKeys (s : State) (i : Nat) (x : Item) : (s.setItem i x).lineKeys = s.lineKeys := rfl
@[simp] theorem State.setItem_early (s : State) (i : Nat) (x : Item) : (s.setItem i x).early = s.early := rfl
@[simp] theorem State.setItem_owners (s : State) (i : Nat) (x : Item) : (s.setItem i x).owners = s.owners := rfl
@[simp] theorem State.setItem_annexed (s : State) (i : Nat) (x : Item) : (s.setItem i x).annexed = s.annexed := rfl
@[simp] theorem State.setItem_serial (s : State) (i : Nat) (x : Item) : (s.setItem i x).serial = s.serial := rfl
@[simp] theorem State.setItem_stale (s : State) (i : Nat) (x : Item) : (s.setItem i x).stale = s.stale := rfl
@[simp] theorem State.setItem_bad (s : State) (i : Nat) (x : Item) : (s.setItem i x).bad = s.bad := rfl
@[simp] theorem State.setItem_nextId (s : State) (i : Nat) (x : Item) : (s.setItem i x).nextId = s.nextId := rfl
@[simp] theorem State.setItem_agenda (s : State) (i : Nat) (x : Item) : (s.setItem i x).agenda = s.agenda := rfl
@[simp] theorem State.setItem_cur (s : State) (i : Nat) (x : Item) : (s.setItem i x).cur = s.cur := rfl
@[simp] theorem State.setItem_choice (s : State) (i : Nat) (x : Item) : (s.setItem i x).choice = s.choice := rfl

@[simp] theorem State.setCore_streams (s : State) (k : Nat × Nat) (x : Core) : (s.setCore k x).streams = s.streams := rfl
@[simp] theorem State.setCore_groups (s : State) (k : Nat × Nat) (x : Core) : (s.setCore k x).groups = s.groups := rfl
@[simp] theorem State.setCore_blocks (s : State) (k : Nat × Nat) (x : Core) : (s.setCore k x).blocks = s.blocks := rfl
@[simp] theorem State.setCore_past (s : State) (k : Nat × Nat) (x : Core) : (s.setCore k x).past = s.past := rfl
@[simp] theorem State.setCore_launches (s : State) (k : Nat × Nat) (x : Core) : (s.setCore k x).launches = s.launches := rfl
@[simp] theorem State.setCore_items (s : State) (k : Nat × Nat) (x : Core) : (s.setCore k x).items = s.items := rfl
@[simp] theorem State.setCore_colls (s : State) (k : Nat × Nat) (x : Core) : (s.setCore k x).colls = s.colls := rfl
@[simp] theorem State.setCore_closed (s : State) (k : Nat × Nat) (x : Core) : (s.setCore k x).closed = s.closed := rfl
@[simp] theorem State.setCore_engq (s : State) (k : Nat × Nat) (x : Core) : (s.setCore k x).engq = s.engq := rfl
@[simp] theorem State.setCore_cores (s : State) (k : Nat × Nat) (x : Core) : (s.setCore k x).cores = Table.put s.cores k x := rfl
@[simp] theorem State.setCore_mccs (s : State) (k : Nat × Nat) (x : Core) : (s.setCore k x).mccs = s.mccs := rfl
@[simp] theorem State.setCore_ctls (s : State) (k : Nat × Nat) (x : Core) : (s.setCore k x).ctls = s.ctls := rfl
@[simp] theorem State.setCore_pkgs (s : State) (k : Nat × Nat) (x : Core) : (s.setCore k x).pkgs = s.pkgs := rfl
@[simp] theorem State.setCore_panels (s : State) (k : Nat × Nat) (x : Core) : (s.setCore k x).panels = s.panels := rfl
@[simp] theorem State.setCore_mem (s : State) (k : Nat × Nat) (x : Core) : (s.setCore k x).mem = s.mem := rfl
@[simp] theorem State.setCore_lineKeys (s : State) (k : Nat × Nat) (x : Core) : (s.setCore k x).lineKeys = s.lineKeys := rfl
@[simp] theorem State.setCore_early (s : State) (k : Nat × Nat) (x : Core) : (s.setCore k x).early = s.early := rfl
@[simp] theorem State.setCore_owners (s : State) (k : Nat × Nat) (x : Core) : (s.setCore k x).owners = s.owners := rfl
@[simp] theorem State.setCore_annexed (s : State) (k : Nat × Nat) (x : Core) : (s.setCore k x).annexed = s.annexed := rfl
@[simp] theorem State.setCore_serial (s : State) (k : Nat × Nat) (x : Core) : (s.setCore k x).serial = s.serial := rfl
@[simp] theorem State.setCore_stale (s : State) (k : Nat × Nat) (x : Core) : (s.setCore k x).stale = s.stale := rfl
@[simp] theorem State.setCore_bad (s : State) (k : Nat × Nat) (x : Core) : (s.setCore k x).bad = s.bad := rfl
@[simp] theorem State.setCore_nextId (s : State) (k : Nat × Nat) (x : Core) : (s.setCore k x).nextId = s.nextId := rfl
@[simp] theorem State.setCore_agenda (s : State) (k : Nat × Nat) (x : Core) : (s.setCore k x).agenda = s.agenda := rfl
@[simp] theorem State.setCore_cur (s : State) (k : Nat × Nat) (x : Core) : (s.setCore k x).cur = s.cur := rfl
@[simp] theorem State.setCore_choice (s : State) (k : Nat × Nat) (x : Core) : (s.setCore k x).choice = s.choice := rfl

@[simp] theorem State.setMcc_streams (s : State) (k : Nat × Nat) (x : Mcc) : (s.setMcc k x).streams = s.streams := rfl
@[simp] theorem State.setMcc_groups (s : State) (k : Nat × Nat) (x : Mcc) : (s.setMcc k x).groups = s.groups := rfl
@[simp] theorem State.setMcc_blocks (s : State) (k : Nat × Nat) (x : Mcc) : (s.setMcc k x).blocks = s.blocks := rfl
@[simp] theorem State.setMcc_past (s : State) (k : Nat × Nat) (x : Mcc) : (s.setMcc k x).past = s.past := rfl
@[simp] theorem State.setMcc_launches (s : State) (k : Nat × Nat) (x : Mcc) : (s.setMcc k x).launches = s.launches := rfl
@[simp] theorem State.setMcc_items (s : State) (k : Nat × Nat) (x : Mcc) : (s.setMcc k x).items = s.items := rfl
@[simp] theorem State.setMcc_colls (s : State) (k : Nat × Nat) (x : Mcc) : (s.setMcc k x).colls = s.colls := rfl
@[simp] theorem State.setMcc_closed (s : State) (k : Nat × Nat) (x : Mcc) : (s.setMcc k x).closed = s.closed := rfl
@[simp] theorem State.setMcc_engq (s : State) (k : Nat × Nat) (x : Mcc) : (s.setMcc k x).engq = s.engq := rfl
@[simp] theorem State.setMcc_cores (s : State) (k : Nat × Nat) (x : Mcc) : (s.setMcc k x).cores = s.cores := rfl
@[simp] theorem State.setMcc_mccs (s : State) (k : Nat × Nat) (x : Mcc) : (s.setMcc k x).mccs = Table.put s.mccs k x := rfl
@[simp] theorem State.setMcc_ctls (s : State) (k : Nat × Nat) (x : Mcc) : (s.setMcc k x).ctls = s.ctls := rfl
@[simp] theorem State.setMcc_pkgs (s : State) (k : Nat × Nat) (x : Mcc) : (s.setMcc k x).pkgs = s.pkgs := rfl
@[simp] theorem State.setMcc_panels (s : State) (k : Nat × Nat) (x : Mcc) : (s.setMcc k x).panels = s.panels := rfl
@[simp] theorem State.setMcc_mem (s : State) (k : Nat × Nat) (x : Mcc) : (s.setMcc k x).mem = s.mem := rfl
@[simp] theorem State.setMcc_lineKeys (s : State) (k : Nat × Nat) (x : Mcc) : (s.setMcc k x).lineKeys = s.lineKeys := rfl
@[simp] theorem State.setMcc_early (s : State) (k : Nat × Nat) (x : Mcc) : (s.setMcc k x).early = s.early := rfl
@[simp] theorem State.setMcc_owners (s : State) (k : Nat × Nat) (x : Mcc) : (s.setMcc k x).owners = s.owners := rfl
@[simp] theorem State.setMcc_annexed (s : State) (k : Nat × Nat) (x : Mcc) : (s.setMcc k x).annexed = s.annexed := rfl
@[simp] theorem State.setMcc_serial (s : State) (k : Nat × Nat) (x : Mcc) : (s.setMcc k x).serial = s.serial := rfl
@[simp] theorem State.setMcc_stale (s : State) (k : Nat × Nat) (x : Mcc) : (s.setMcc k x).stale = s.stale := rfl
@[simp] theorem State.setMcc_bad (s : State) (k : Nat × Nat) (x : Mcc) : (s.setMcc k x).bad = s.bad := rfl
@[simp] theorem State.setMcc_nextId (s : State) (k : Nat × Nat) (x : Mcc) : (s.setMcc k x).nextId = s.nextId := rfl
@[simp] theorem State.setMcc_agenda (s : State) (k : Nat × Nat) (x : Mcc) : (s.setMcc k x).agenda = s.agenda := rfl
@[simp] theorem State.setMcc_cur (s : State) (k : Nat × Nat) (x : Mcc) : (s.setMcc k x).cur = s.cur := rfl
@[simp] theorem State.setMcc_choice (s : State) (k : Nat × Nat) (x : Mcc) : (s.setMcc k x).choice = s.choice := rfl

@[simp] theorem State.setCtl_streams (s : State) (k : Nat × Nat) (x : Ctl) : (s.setCtl k x).streams = s.streams := rfl
@[simp] theorem State.setCtl_groups (s : State) (k : Nat × Nat) (x : Ctl) : (s.setCtl k x).groups = s.groups := rfl
@[simp] theorem State.setCtl_blocks (s : State) (k : Nat × Nat) (x : Ctl) : (s.setCtl k x).blocks = s.blocks := rfl
@[simp] theorem State.setCtl_past (s : State) (k : Nat × Nat) (x : Ctl) : (s.setCtl k x).past = s.past := rfl
@[simp] theorem State.setCtl_launches (s : State) (k : Nat × Nat) (x : Ctl) : (s.setCtl k x).launches = s.launches := rfl
@[simp] theorem State.setCtl_items (s : State) (k : Nat × Nat) (x : Ctl) : (s.setCtl k x).items = s.items := rfl
@[simp] theorem State.setCtl_colls (s : State) (k : Nat × Nat) (x : Ctl) : (s.setCtl k x).colls = s.colls := rfl
@[simp] theorem State.setCtl_closed (s : State) (k : Nat × Nat) (x : Ctl) : (s.setCtl k x).closed = s.closed := rfl
@[simp] theorem State.setCtl_engq (s : State) (k : Nat × Nat) (x : Ctl) : (s.setCtl k x).engq = s.engq := rfl
@[simp] theorem State.setCtl_cores (s : State) (k : Nat × Nat) (x : Ctl) : (s.setCtl k x).cores = s.cores := rfl
@[simp] theorem State.setCtl_mccs (s : State) (k : Nat × Nat) (x : Ctl) : (s.setCtl k x).mccs = s.mccs := rfl
@[simp] theorem State.setCtl_ctls (s : State) (k : Nat × Nat) (x : Ctl) : (s.setCtl k x).ctls = Table.put s.ctls k x := rfl
@[simp] theorem State.setCtl_pkgs (s : State) (k : Nat × Nat) (x : Ctl) : (s.setCtl k x).pkgs = s.pkgs := rfl
@[simp] theorem State.setCtl_panels (s : State) (k : Nat × Nat) (x : Ctl) : (s.setCtl k x).panels = s.panels := rfl
@[simp] theorem State.setCtl_mem (s : State) (k : Nat × Nat) (x : Ctl) : (s.setCtl k x).mem = s.mem := rfl
@[simp] theorem State.setCtl_lineKeys (s : State) (k : Nat × Nat) (x : Ctl) : (s.setCtl k x).lineKeys = s.lineKeys := rfl
@[simp] theorem State.setCtl_early (s : State) (k : Nat × Nat) (x : Ctl) : (s.setCtl k x).early = s.early := rfl
@[simp] theorem State.setCtl_owners (s : State) (k : Nat × Nat) (x : Ctl) : (s.setCtl k x).owners = s.owners := rfl
@[simp] theorem State.setCtl_annexed (s : State) (k : Nat × Nat) (x : Ctl) : (s.setCtl k x).annexed = s.annexed := rfl
@[simp] theorem State.setCtl_serial (s : State) (k : Nat × Nat) (x : Ctl) : (s.setCtl k x).serial = s.serial := rfl
@[simp] theorem State.setCtl_stale (s : State) (k : Nat × Nat) (x : Ctl) : (s.setCtl k x).stale = s.stale := rfl
@[simp] theorem State.setCtl_bad (s : State) (k : Nat × Nat) (x : Ctl) : (s.setCtl k x).bad = s.bad := rfl
@[simp] theorem State.setCtl_nextId (s : State) (k : Nat × Nat) (x : Ctl) : (s.setCtl k x).nextId = s.nextId := rfl
@[simp] theorem State.setCtl_agenda (s : State) (k : Nat × Nat) (x : Ctl) : (s.setCtl k x).agenda = s.agenda := rfl
@[simp] theorem State.setCtl_cur (s : State) (k : Nat × Nat) (x : Ctl) : (s.setCtl k x).cur = s.cur := rfl
@[simp] theorem State.setCtl_choice (s : State) (k : Nat × Nat) (x : Ctl) : (s.setCtl k x).choice = s.choice := rfl

@[simp] theorem State.setPkg_streams (s : State) (p : Nat) (x : Package) : (s.setPkg p x).streams = s.streams := rfl
@[simp] theorem State.setPkg_groups (s : State) (p : Nat) (x : Package) : (s.setPkg p x).groups = s.groups := rfl
@[simp] theorem State.setPkg_blocks (s : State) (p : Nat) (x : Package) : (s.setPkg p x).blocks = s.blocks := rfl
@[simp] theorem State.setPkg_past (s : State) (p : Nat) (x : Package) : (s.setPkg p x).past = s.past := rfl
@[simp] theorem State.setPkg_launches (s : State) (p : Nat) (x : Package) : (s.setPkg p x).launches = s.launches := rfl
@[simp] theorem State.setPkg_items (s : State) (p : Nat) (x : Package) : (s.setPkg p x).items = s.items := rfl
@[simp] theorem State.setPkg_colls (s : State) (p : Nat) (x : Package) : (s.setPkg p x).colls = s.colls := rfl
@[simp] theorem State.setPkg_closed (s : State) (p : Nat) (x : Package) : (s.setPkg p x).closed = s.closed := rfl
@[simp] theorem State.setPkg_engq (s : State) (p : Nat) (x : Package) : (s.setPkg p x).engq = s.engq := rfl
@[simp] theorem State.setPkg_cores (s : State) (p : Nat) (x : Package) : (s.setPkg p x).cores = s.cores := rfl
@[simp] theorem State.setPkg_mccs (s : State) (p : Nat) (x : Package) : (s.setPkg p x).mccs = s.mccs := rfl
@[simp] theorem State.setPkg_ctls (s : State) (p : Nat) (x : Package) : (s.setPkg p x).ctls = s.ctls := rfl
@[simp] theorem State.setPkg_pkgs (s : State) (p : Nat) (x : Package) : (s.setPkg p x).pkgs = Table.put s.pkgs p x := rfl
@[simp] theorem State.setPkg_panels (s : State) (p : Nat) (x : Package) : (s.setPkg p x).panels = s.panels := rfl
@[simp] theorem State.setPkg_mem (s : State) (p : Nat) (x : Package) : (s.setPkg p x).mem = s.mem := rfl
@[simp] theorem State.setPkg_lineKeys (s : State) (p : Nat) (x : Package) : (s.setPkg p x).lineKeys = s.lineKeys := rfl
@[simp] theorem State.setPkg_early (s : State) (p : Nat) (x : Package) : (s.setPkg p x).early = s.early := rfl
@[simp] theorem State.setPkg_owners (s : State) (p : Nat) (x : Package) : (s.setPkg p x).owners = s.owners := rfl
@[simp] theorem State.setPkg_annexed (s : State) (p : Nat) (x : Package) : (s.setPkg p x).annexed = s.annexed := rfl
@[simp] theorem State.setPkg_serial (s : State) (p : Nat) (x : Package) : (s.setPkg p x).serial = s.serial := rfl
@[simp] theorem State.setPkg_stale (s : State) (p : Nat) (x : Package) : (s.setPkg p x).stale = s.stale := rfl
@[simp] theorem State.setPkg_bad (s : State) (p : Nat) (x : Package) : (s.setPkg p x).bad = s.bad := rfl
@[simp] theorem State.setPkg_nextId (s : State) (p : Nat) (x : Package) : (s.setPkg p x).nextId = s.nextId := rfl
@[simp] theorem State.setPkg_agenda (s : State) (p : Nat) (x : Package) : (s.setPkg p x).agenda = s.agenda := rfl
@[simp] theorem State.setPkg_cur (s : State) (p : Nat) (x : Package) : (s.setPkg p x).cur = s.cur := rfl
@[simp] theorem State.setPkg_choice (s : State) (p : Nat) (x : Package) : (s.setPkg p x).choice = s.choice := rfl

@[simp] theorem State.setPanel_streams (s : State) (p : Nat) (x : Panel) : (s.setPanel p x).streams = s.streams := rfl
@[simp] theorem State.setPanel_groups (s : State) (p : Nat) (x : Panel) : (s.setPanel p x).groups = s.groups := rfl
@[simp] theorem State.setPanel_blocks (s : State) (p : Nat) (x : Panel) : (s.setPanel p x).blocks = s.blocks := rfl
@[simp] theorem State.setPanel_past (s : State) (p : Nat) (x : Panel) : (s.setPanel p x).past = s.past := rfl
@[simp] theorem State.setPanel_launches (s : State) (p : Nat) (x : Panel) : (s.setPanel p x).launches = s.launches := rfl
@[simp] theorem State.setPanel_items (s : State) (p : Nat) (x : Panel) : (s.setPanel p x).items = s.items := rfl
@[simp] theorem State.setPanel_colls (s : State) (p : Nat) (x : Panel) : (s.setPanel p x).colls = s.colls := rfl
@[simp] theorem State.setPanel_closed (s : State) (p : Nat) (x : Panel) : (s.setPanel p x).closed = s.closed := rfl
@[simp] theorem State.setPanel_engq (s : State) (p : Nat) (x : Panel) : (s.setPanel p x).engq = s.engq := rfl
@[simp] theorem State.setPanel_cores (s : State) (p : Nat) (x : Panel) : (s.setPanel p x).cores = s.cores := rfl
@[simp] theorem State.setPanel_mccs (s : State) (p : Nat) (x : Panel) : (s.setPanel p x).mccs = s.mccs := rfl
@[simp] theorem State.setPanel_ctls (s : State) (p : Nat) (x : Panel) : (s.setPanel p x).ctls = s.ctls := rfl
@[simp] theorem State.setPanel_pkgs (s : State) (p : Nat) (x : Panel) : (s.setPanel p x).pkgs = s.pkgs := rfl
@[simp] theorem State.setPanel_panels (s : State) (p : Nat) (x : Panel) : (s.setPanel p x).panels = Table.put s.panels p x := rfl
@[simp] theorem State.setPanel_mem (s : State) (p : Nat) (x : Panel) : (s.setPanel p x).mem = s.mem := rfl
@[simp] theorem State.setPanel_lineKeys (s : State) (p : Nat) (x : Panel) : (s.setPanel p x).lineKeys = s.lineKeys := rfl
@[simp] theorem State.setPanel_early (s : State) (p : Nat) (x : Panel) : (s.setPanel p x).early = s.early := rfl
@[simp] theorem State.setPanel_owners (s : State) (p : Nat) (x : Panel) : (s.setPanel p x).owners = s.owners := rfl
@[simp] theorem State.setPanel_annexed (s : State) (p : Nat) (x : Panel) : (s.setPanel p x).annexed = s.annexed := rfl
@[simp] theorem State.setPanel_serial (s : State) (p : Nat) (x : Panel) : (s.setPanel p x).serial = s.serial := rfl
@[simp] theorem State.setPanel_stale (s : State) (p : Nat) (x : Panel) : (s.setPanel p x).stale = s.stale := rfl
@[simp] theorem State.setPanel_bad (s : State) (p : Nat) (x : Panel) : (s.setPanel p x).bad = s.bad := rfl
@[simp] theorem State.setPanel_nextId (s : State) (p : Nat) (x : Panel) : (s.setPanel p x).nextId = s.nextId := rfl
@[simp] theorem State.setPanel_agenda (s : State) (p : Nat) (x : Panel) : (s.setPanel p x).agenda = s.agenda := rfl
@[simp] theorem State.setPanel_cur (s : State) (p : Nat) (x : Panel) : (s.setPanel p x).cur = s.cur := rfl
@[simp] theorem State.setPanel_choice (s : State) (p : Nat) (x : Panel) : (s.setPanel p x).choice = s.choice := rfl

@[simp] theorem State.setEngine_streams (s : State) (k : QOwner × Nat) (x : EngineQ) : (s.setEngine k x).streams = s.streams := rfl
@[simp] theorem State.setEngine_groups (s : State) (k : QOwner × Nat) (x : EngineQ) : (s.setEngine k x).groups = s.groups := rfl
@[simp] theorem State.setEngine_blocks (s : State) (k : QOwner × Nat) (x : EngineQ) : (s.setEngine k x).blocks = s.blocks := rfl
@[simp] theorem State.setEngine_past (s : State) (k : QOwner × Nat) (x : EngineQ) : (s.setEngine k x).past = s.past := rfl
@[simp] theorem State.setEngine_launches (s : State) (k : QOwner × Nat) (x : EngineQ) : (s.setEngine k x).launches = s.launches := rfl
@[simp] theorem State.setEngine_items (s : State) (k : QOwner × Nat) (x : EngineQ) : (s.setEngine k x).items = s.items := rfl
@[simp] theorem State.setEngine_colls (s : State) (k : QOwner × Nat) (x : EngineQ) : (s.setEngine k x).colls = s.colls := rfl
@[simp] theorem State.setEngine_closed (s : State) (k : QOwner × Nat) (x : EngineQ) : (s.setEngine k x).closed = s.closed := rfl
@[simp] theorem State.setEngine_engq (s : State) (k : QOwner × Nat) (x : EngineQ) : (s.setEngine k x).engq = Table.put s.engq k x := rfl
@[simp] theorem State.setEngine_cores (s : State) (k : QOwner × Nat) (x : EngineQ) : (s.setEngine k x).cores = s.cores := rfl
@[simp] theorem State.setEngine_mccs (s : State) (k : QOwner × Nat) (x : EngineQ) : (s.setEngine k x).mccs = s.mccs := rfl
@[simp] theorem State.setEngine_ctls (s : State) (k : QOwner × Nat) (x : EngineQ) : (s.setEngine k x).ctls = s.ctls := rfl
@[simp] theorem State.setEngine_pkgs (s : State) (k : QOwner × Nat) (x : EngineQ) : (s.setEngine k x).pkgs = s.pkgs := rfl
@[simp] theorem State.setEngine_panels (s : State) (k : QOwner × Nat) (x : EngineQ) : (s.setEngine k x).panels = s.panels := rfl
@[simp] theorem State.setEngine_mem (s : State) (k : QOwner × Nat) (x : EngineQ) : (s.setEngine k x).mem = s.mem := rfl
@[simp] theorem State.setEngine_lineKeys (s : State) (k : QOwner × Nat) (x : EngineQ) : (s.setEngine k x).lineKeys = s.lineKeys := rfl
@[simp] theorem State.setEngine_early (s : State) (k : QOwner × Nat) (x : EngineQ) : (s.setEngine k x).early = s.early := rfl
@[simp] theorem State.setEngine_owners (s : State) (k : QOwner × Nat) (x : EngineQ) : (s.setEngine k x).owners = s.owners := rfl
@[simp] theorem State.setEngine_annexed (s : State) (k : QOwner × Nat) (x : EngineQ) : (s.setEngine k x).annexed = s.annexed := rfl
@[simp] theorem State.setEngine_serial (s : State) (k : QOwner × Nat) (x : EngineQ) : (s.setEngine k x).serial = s.serial := rfl
@[simp] theorem State.setEngine_stale (s : State) (k : QOwner × Nat) (x : EngineQ) : (s.setEngine k x).stale = s.stale := rfl
@[simp] theorem State.setEngine_bad (s : State) (k : QOwner × Nat) (x : EngineQ) : (s.setEngine k x).bad = s.bad := rfl
@[simp] theorem State.setEngine_nextId (s : State) (k : QOwner × Nat) (x : EngineQ) : (s.setEngine k x).nextId = s.nextId := rfl
@[simp] theorem State.setEngine_agenda (s : State) (k : QOwner × Nat) (x : EngineQ) : (s.setEngine k x).agenda = s.agenda := rfl
@[simp] theorem State.setEngine_cur (s : State) (k : QOwner × Nat) (x : EngineQ) : (s.setEngine k x).cur = s.cur := rfl
@[simp] theorem State.setEngine_choice (s : State) (k : QOwner × Nat) (x : EngineQ) : (s.setEngine k x).choice = s.choice := rfl

@[simp] theorem mapStream_streams (ag : Agent) (f : Stream → Stream) (s : State) : (mapStream ag f s).streams = Table.put s.streams ag (f (s.stream ag)) := rfl
@[simp] theorem mapStream_groups (ag : Agent) (f : Stream → Stream) (s : State) : (mapStream ag f s).groups = s.groups := rfl
@[simp] theorem mapStream_blocks (ag : Agent) (f : Stream → Stream) (s : State) : (mapStream ag f s).blocks = s.blocks := rfl
@[simp] theorem mapStream_past (ag : Agent) (f : Stream → Stream) (s : State) : (mapStream ag f s).past = s.past := rfl
@[simp] theorem mapStream_launches (ag : Agent) (f : Stream → Stream) (s : State) : (mapStream ag f s).launches = s.launches := rfl
@[simp] theorem mapStream_items (ag : Agent) (f : Stream → Stream) (s : State) : (mapStream ag f s).items = s.items := rfl
@[simp] theorem mapStream_colls (ag : Agent) (f : Stream → Stream) (s : State) : (mapStream ag f s).colls = s.colls := rfl
@[simp] theorem mapStream_closed (ag : Agent) (f : Stream → Stream) (s : State) : (mapStream ag f s).closed = s.closed := rfl
@[simp] theorem mapStream_engq (ag : Agent) (f : Stream → Stream) (s : State) : (mapStream ag f s).engq = s.engq := rfl
@[simp] theorem mapStream_cores (ag : Agent) (f : Stream → Stream) (s : State) : (mapStream ag f s).cores = s.cores := rfl
@[simp] theorem mapStream_mccs (ag : Agent) (f : Stream → Stream) (s : State) : (mapStream ag f s).mccs = s.mccs := rfl
@[simp] theorem mapStream_ctls (ag : Agent) (f : Stream → Stream) (s : State) : (mapStream ag f s).ctls = s.ctls := rfl
@[simp] theorem mapStream_pkgs (ag : Agent) (f : Stream → Stream) (s : State) : (mapStream ag f s).pkgs = s.pkgs := rfl
@[simp] theorem mapStream_panels (ag : Agent) (f : Stream → Stream) (s : State) : (mapStream ag f s).panels = s.panels := rfl
@[simp] theorem mapStream_mem (ag : Agent) (f : Stream → Stream) (s : State) : (mapStream ag f s).mem = s.mem := rfl
@[simp] theorem mapStream_lineKeys (ag : Agent) (f : Stream → Stream) (s : State) : (mapStream ag f s).lineKeys = s.lineKeys := rfl
@[simp] theorem mapStream_early (ag : Agent) (f : Stream → Stream) (s : State) : (mapStream ag f s).early = s.early := rfl
@[simp] theorem mapStream_owners (ag : Agent) (f : Stream → Stream) (s : State) : (mapStream ag f s).owners = s.owners := rfl
@[simp] theorem mapStream_annexed (ag : Agent) (f : Stream → Stream) (s : State) : (mapStream ag f s).annexed = s.annexed := rfl
@[simp] theorem mapStream_serial (ag : Agent) (f : Stream → Stream) (s : State) : (mapStream ag f s).serial = s.serial := rfl
@[simp] theorem mapStream_stale (ag : Agent) (f : Stream → Stream) (s : State) : (mapStream ag f s).stale = s.stale := rfl
@[simp] theorem mapStream_bad (ag : Agent) (f : Stream → Stream) (s : State) : (mapStream ag f s).bad = s.bad := rfl
@[simp] theorem mapStream_nextId (ag : Agent) (f : Stream → Stream) (s : State) : (mapStream ag f s).nextId = s.nextId := rfl
@[simp] theorem mapStream_agenda (ag : Agent) (f : Stream → Stream) (s : State) : (mapStream ag f s).agenda = s.agenda := rfl
@[simp] theorem mapStream_cur (ag : Agent) (f : Stream → Stream) (s : State) : (mapStream ag f s).cur = s.cur := rfl
@[simp] theorem mapStream_choice (ag : Agent) (f : Stream → Stream) (s : State) : (mapStream ag f s).choice = s.choice := rfl

@[simp] theorem mapGroup_streams (ag : Agent) (f : Group → Group) (s : State) : (mapGroup ag f s).streams = s.streams := rfl
@[simp] theorem mapGroup_groups (ag : Agent) (f : Group → Group) (s : State) : (mapGroup ag f s).groups = Table.put s.groups ag (f (s.group ag)) := rfl
@[simp] theorem mapGroup_blocks (ag : Agent) (f : Group → Group) (s : State) : (mapGroup ag f s).blocks = s.blocks := rfl
@[simp] theorem mapGroup_past (ag : Agent) (f : Group → Group) (s : State) : (mapGroup ag f s).past = s.past := rfl
@[simp] theorem mapGroup_launches (ag : Agent) (f : Group → Group) (s : State) : (mapGroup ag f s).launches = s.launches := rfl
@[simp] theorem mapGroup_items (ag : Agent) (f : Group → Group) (s : State) : (mapGroup ag f s).items = s.items := rfl
@[simp] theorem mapGroup_colls (ag : Agent) (f : Group → Group) (s : State) : (mapGroup ag f s).colls = s.colls := rfl
@[simp] theorem mapGroup_closed (ag : Agent) (f : Group → Group) (s : State) : (mapGroup ag f s).closed = s.closed := rfl
@[simp] theorem mapGroup_engq (ag : Agent) (f : Group → Group) (s : State) : (mapGroup ag f s).engq = s.engq := rfl
@[simp] theorem mapGroup_cores (ag : Agent) (f : Group → Group) (s : State) : (mapGroup ag f s).cores = s.cores := rfl
@[simp] theorem mapGroup_mccs (ag : Agent) (f : Group → Group) (s : State) : (mapGroup ag f s).mccs = s.mccs := rfl
@[simp] theorem mapGroup_ctls (ag : Agent) (f : Group → Group) (s : State) : (mapGroup ag f s).ctls = s.ctls := rfl
@[simp] theorem mapGroup_pkgs (ag : Agent) (f : Group → Group) (s : State) : (mapGroup ag f s).pkgs = s.pkgs := rfl
@[simp] theorem mapGroup_panels (ag : Agent) (f : Group → Group) (s : State) : (mapGroup ag f s).panels = s.panels := rfl
@[simp] theorem mapGroup_mem (ag : Agent) (f : Group → Group) (s : State) : (mapGroup ag f s).mem = s.mem := rfl
@[simp] theorem mapGroup_lineKeys (ag : Agent) (f : Group → Group) (s : State) : (mapGroup ag f s).lineKeys = s.lineKeys := rfl
@[simp] theorem mapGroup_early (ag : Agent) (f : Group → Group) (s : State) : (mapGroup ag f s).early = s.early := rfl
@[simp] theorem mapGroup_owners (ag : Agent) (f : Group → Group) (s : State) : (mapGroup ag f s).owners = s.owners := rfl
@[simp] theorem mapGroup_annexed (ag : Agent) (f : Group → Group) (s : State) : (mapGroup ag f s).annexed = s.annexed := rfl
@[simp] theorem mapGroup_serial (ag : Agent) (f : Group → Group) (s : State) : (mapGroup ag f s).serial = s.serial := rfl
@[simp] theorem mapGroup_stale (ag : Agent) (f : Group → Group) (s : State) : (mapGroup ag f s).stale = s.stale := rfl
@[simp] theorem mapGroup_bad (ag : Agent) (f : Group → Group) (s : State) : (mapGroup ag f s).bad = s.bad := rfl
@[simp] theorem mapGroup_nextId (ag : Agent) (f : Group → Group) (s : State) : (mapGroup ag f s).nextId = s.nextId := rfl
@[simp] theorem mapGroup_agenda (ag : Agent) (f : Group → Group) (s : State) : (mapGroup ag f s).agenda = s.agenda := rfl
@[simp] theorem mapGroup_cur (ag : Agent) (f : Group → Group) (s : State) : (mapGroup ag f s).cur = s.cur := rfl
@[simp] theorem mapGroup_choice (ag : Agent) (f : Group → Group) (s : State) : (mapGroup ag f s).choice = s.choice := rfl

@[simp] theorem mapBlock_streams (b : Nat) (f : Block → Block) (s : State) : (mapBlock b f s).streams = s.streams := rfl
@[simp] theorem mapBlock_groups (b : Nat) (f : Block → Block) (s : State) : (mapBlock b f s).groups = s.groups := rfl
@[simp] theorem mapBlock_blocks (b : Nat) (f : Block → Block) (s : State) : (mapBlock b f s).blocks = Table.upd s.blocks b f := rfl
@[simp] theorem mapBlock_past (b : Nat) (f : Block → Block) (s : State) : (mapBlock b f s).past = if (Table.find? s.blocks b).isSome then s.past else Table.upd s.past b f := rfl
@[simp] theorem mapBlock_launches (b : Nat) (f : Block → Block) (s : State) : (mapBlock b f s).launches = s.launches := rfl
@[simp] theorem mapBlock_items (b : Nat) (f : Block → Block) (s : State) : (mapBlock b f s).items = s.items := rfl
@[simp] theorem mapBlock_colls (b : Nat) (f : Block → Block) (s : State) : (mapBlock b f s).colls = s.colls := rfl
@[simp] theorem mapBlock_closed (b : Nat) (f : Block → Block) (s : State) : (mapBlock b f s).closed = s.closed := rfl
@[simp] theorem mapBlock_engq (b : Nat) (f : Block → Block) (s : State) : (mapBlock b f s).engq = s.engq := rfl
@[simp] theorem mapBlock_cores (b : Nat) (f : Block → Block) (s : State) : (mapBlock b f s).cores = s.cores := rfl
@[simp] theorem mapBlock_mccs (b : Nat) (f : Block → Block) (s : State) : (mapBlock b f s).mccs = s.mccs := rfl
@[simp] theorem mapBlock_ctls (b : Nat) (f : Block → Block) (s : State) : (mapBlock b f s).ctls = s.ctls := rfl
@[simp] theorem mapBlock_pkgs (b : Nat) (f : Block → Block) (s : State) : (mapBlock b f s).pkgs = s.pkgs := rfl
@[simp] theorem mapBlock_panels (b : Nat) (f : Block → Block) (s : State) : (mapBlock b f s).panels = s.panels := rfl
@[simp] theorem mapBlock_mem (b : Nat) (f : Block → Block) (s : State) : (mapBlock b f s).mem = s.mem := rfl
@[simp] theorem mapBlock_lineKeys (b : Nat) (f : Block → Block) (s : State) : (mapBlock b f s).lineKeys = s.lineKeys := rfl
@[simp] theorem mapBlock_early (b : Nat) (f : Block → Block) (s : State) : (mapBlock b f s).early = s.early := rfl
@[simp] theorem mapBlock_owners (b : Nat) (f : Block → Block) (s : State) : (mapBlock b f s).owners = s.owners := rfl
@[simp] theorem mapBlock_annexed (b : Nat) (f : Block → Block) (s : State) : (mapBlock b f s).annexed = s.annexed := rfl
@[simp] theorem mapBlock_serial (b : Nat) (f : Block → Block) (s : State) : (mapBlock b f s).serial = s.serial := rfl
@[simp] theorem mapBlock_stale (b : Nat) (f : Block → Block) (s : State) : (mapBlock b f s).stale = s.stale := rfl
@[simp] theorem mapBlock_bad (b : Nat) (f : Block → Block) (s : State) : (mapBlock b f s).bad = s.bad := rfl
@[simp] theorem mapBlock_nextId (b : Nat) (f : Block → Block) (s : State) : (mapBlock b f s).nextId = s.nextId := rfl
@[simp] theorem mapBlock_agenda (b : Nat) (f : Block → Block) (s : State) : (mapBlock b f s).agenda = s.agenda := rfl
@[simp] theorem mapBlock_cur (b : Nat) (f : Block → Block) (s : State) : (mapBlock b f s).cur = s.cur := rfl
@[simp] theorem mapBlock_choice (b : Nat) (f : Block → Block) (s : State) : (mapBlock b f s).choice = s.choice := rfl

@[simp] theorem mapCore_streams (k : Nat × Nat) (f : Core → Core) (s : State) : (mapCore k f s).streams = s.streams := rfl
@[simp] theorem mapCore_groups (k : Nat × Nat) (f : Core → Core) (s : State) : (mapCore k f s).groups = s.groups := rfl
@[simp] theorem mapCore_blocks (k : Nat × Nat) (f : Core → Core) (s : State) : (mapCore k f s).blocks = s.blocks := rfl
@[simp] theorem mapCore_past (k : Nat × Nat) (f : Core → Core) (s : State) : (mapCore k f s).past = s.past := rfl
@[simp] theorem mapCore_launches (k : Nat × Nat) (f : Core → Core) (s : State) : (mapCore k f s).launches = s.launches := rfl
@[simp] theorem mapCore_items (k : Nat × Nat) (f : Core → Core) (s : State) : (mapCore k f s).items = s.items := rfl
@[simp] theorem mapCore_colls (k : Nat × Nat) (f : Core → Core) (s : State) : (mapCore k f s).colls = s.colls := rfl
@[simp] theorem mapCore_closed (k : Nat × Nat) (f : Core → Core) (s : State) : (mapCore k f s).closed = s.closed := rfl
@[simp] theorem mapCore_engq (k : Nat × Nat) (f : Core → Core) (s : State) : (mapCore k f s).engq = s.engq := rfl
@[simp] theorem mapCore_cores (k : Nat × Nat) (f : Core → Core) (s : State) : (mapCore k f s).cores = Table.put s.cores k (f (s.core k)) := rfl
@[simp] theorem mapCore_mccs (k : Nat × Nat) (f : Core → Core) (s : State) : (mapCore k f s).mccs = s.mccs := rfl
@[simp] theorem mapCore_ctls (k : Nat × Nat) (f : Core → Core) (s : State) : (mapCore k f s).ctls = s.ctls := rfl
@[simp] theorem mapCore_pkgs (k : Nat × Nat) (f : Core → Core) (s : State) : (mapCore k f s).pkgs = s.pkgs := rfl
@[simp] theorem mapCore_panels (k : Nat × Nat) (f : Core → Core) (s : State) : (mapCore k f s).panels = s.panels := rfl
@[simp] theorem mapCore_mem (k : Nat × Nat) (f : Core → Core) (s : State) : (mapCore k f s).mem = s.mem := rfl
@[simp] theorem mapCore_lineKeys (k : Nat × Nat) (f : Core → Core) (s : State) : (mapCore k f s).lineKeys = s.lineKeys := rfl
@[simp] theorem mapCore_early (k : Nat × Nat) (f : Core → Core) (s : State) : (mapCore k f s).early = s.early := rfl
@[simp] theorem mapCore_owners (k : Nat × Nat) (f : Core → Core) (s : State) : (mapCore k f s).owners = s.owners := rfl
@[simp] theorem mapCore_annexed (k : Nat × Nat) (f : Core → Core) (s : State) : (mapCore k f s).annexed = s.annexed := rfl
@[simp] theorem mapCore_serial (k : Nat × Nat) (f : Core → Core) (s : State) : (mapCore k f s).serial = s.serial := rfl
@[simp] theorem mapCore_stale (k : Nat × Nat) (f : Core → Core) (s : State) : (mapCore k f s).stale = s.stale := rfl
@[simp] theorem mapCore_bad (k : Nat × Nat) (f : Core → Core) (s : State) : (mapCore k f s).bad = s.bad := rfl
@[simp] theorem mapCore_nextId (k : Nat × Nat) (f : Core → Core) (s : State) : (mapCore k f s).nextId = s.nextId := rfl
@[simp] theorem mapCore_agenda (k : Nat × Nat) (f : Core → Core) (s : State) : (mapCore k f s).agenda = s.agenda := rfl
@[simp] theorem mapCore_cur (k : Nat × Nat) (f : Core → Core) (s : State) : (mapCore k f s).cur = s.cur := rfl
@[simp] theorem mapCore_choice (k : Nat × Nat) (f : Core → Core) (s : State) : (mapCore k f s).choice = s.choice := rfl

@[simp] theorem mapMcc_streams (k : Nat × Nat) (f : Mcc → Mcc) (s : State) : (mapMcc k f s).streams = s.streams := rfl
@[simp] theorem mapMcc_groups (k : Nat × Nat) (f : Mcc → Mcc) (s : State) : (mapMcc k f s).groups = s.groups := rfl
@[simp] theorem mapMcc_blocks (k : Nat × Nat) (f : Mcc → Mcc) (s : State) : (mapMcc k f s).blocks = s.blocks := rfl
@[simp] theorem mapMcc_past (k : Nat × Nat) (f : Mcc → Mcc) (s : State) : (mapMcc k f s).past = s.past := rfl
@[simp] theorem mapMcc_launches (k : Nat × Nat) (f : Mcc → Mcc) (s : State) : (mapMcc k f s).launches = s.launches := rfl
@[simp] theorem mapMcc_items (k : Nat × Nat) (f : Mcc → Mcc) (s : State) : (mapMcc k f s).items = s.items := rfl
@[simp] theorem mapMcc_colls (k : Nat × Nat) (f : Mcc → Mcc) (s : State) : (mapMcc k f s).colls = s.colls := rfl
@[simp] theorem mapMcc_closed (k : Nat × Nat) (f : Mcc → Mcc) (s : State) : (mapMcc k f s).closed = s.closed := rfl
@[simp] theorem mapMcc_engq (k : Nat × Nat) (f : Mcc → Mcc) (s : State) : (mapMcc k f s).engq = s.engq := rfl
@[simp] theorem mapMcc_cores (k : Nat × Nat) (f : Mcc → Mcc) (s : State) : (mapMcc k f s).cores = s.cores := rfl
@[simp] theorem mapMcc_mccs (k : Nat × Nat) (f : Mcc → Mcc) (s : State) : (mapMcc k f s).mccs = Table.put s.mccs k (f (s.mcc k)) := rfl
@[simp] theorem mapMcc_ctls (k : Nat × Nat) (f : Mcc → Mcc) (s : State) : (mapMcc k f s).ctls = s.ctls := rfl
@[simp] theorem mapMcc_pkgs (k : Nat × Nat) (f : Mcc → Mcc) (s : State) : (mapMcc k f s).pkgs = s.pkgs := rfl
@[simp] theorem mapMcc_panels (k : Nat × Nat) (f : Mcc → Mcc) (s : State) : (mapMcc k f s).panels = s.panels := rfl
@[simp] theorem mapMcc_mem (k : Nat × Nat) (f : Mcc → Mcc) (s : State) : (mapMcc k f s).mem = s.mem := rfl
@[simp] theorem mapMcc_lineKeys (k : Nat × Nat) (f : Mcc → Mcc) (s : State) : (mapMcc k f s).lineKeys = s.lineKeys := rfl
@[simp] theorem mapMcc_early (k : Nat × Nat) (f : Mcc → Mcc) (s : State) : (mapMcc k f s).early = s.early := rfl
@[simp] theorem mapMcc_owners (k : Nat × Nat) (f : Mcc → Mcc) (s : State) : (mapMcc k f s).owners = s.owners := rfl
@[simp] theorem mapMcc_annexed (k : Nat × Nat) (f : Mcc → Mcc) (s : State) : (mapMcc k f s).annexed = s.annexed := rfl
@[simp] theorem mapMcc_serial (k : Nat × Nat) (f : Mcc → Mcc) (s : State) : (mapMcc k f s).serial = s.serial := rfl
@[simp] theorem mapMcc_stale (k : Nat × Nat) (f : Mcc → Mcc) (s : State) : (mapMcc k f s).stale = s.stale := rfl
@[simp] theorem mapMcc_bad (k : Nat × Nat) (f : Mcc → Mcc) (s : State) : (mapMcc k f s).bad = s.bad := rfl
@[simp] theorem mapMcc_nextId (k : Nat × Nat) (f : Mcc → Mcc) (s : State) : (mapMcc k f s).nextId = s.nextId := rfl
@[simp] theorem mapMcc_agenda (k : Nat × Nat) (f : Mcc → Mcc) (s : State) : (mapMcc k f s).agenda = s.agenda := rfl
@[simp] theorem mapMcc_cur (k : Nat × Nat) (f : Mcc → Mcc) (s : State) : (mapMcc k f s).cur = s.cur := rfl
@[simp] theorem mapMcc_choice (k : Nat × Nat) (f : Mcc → Mcc) (s : State) : (mapMcc k f s).choice = s.choice := rfl

@[simp] theorem mapCtl_streams (k : Nat × Nat) (f : Ctl → Ctl) (s : State) : (mapCtl k f s).streams = s.streams := rfl
@[simp] theorem mapCtl_groups (k : Nat × Nat) (f : Ctl → Ctl) (s : State) : (mapCtl k f s).groups = s.groups := rfl
@[simp] theorem mapCtl_blocks (k : Nat × Nat) (f : Ctl → Ctl) (s : State) : (mapCtl k f s).blocks = s.blocks := rfl
@[simp] theorem mapCtl_past (k : Nat × Nat) (f : Ctl → Ctl) (s : State) : (mapCtl k f s).past = s.past := rfl
@[simp] theorem mapCtl_launches (k : Nat × Nat) (f : Ctl → Ctl) (s : State) : (mapCtl k f s).launches = s.launches := rfl
@[simp] theorem mapCtl_items (k : Nat × Nat) (f : Ctl → Ctl) (s : State) : (mapCtl k f s).items = s.items := rfl
@[simp] theorem mapCtl_colls (k : Nat × Nat) (f : Ctl → Ctl) (s : State) : (mapCtl k f s).colls = s.colls := rfl
@[simp] theorem mapCtl_closed (k : Nat × Nat) (f : Ctl → Ctl) (s : State) : (mapCtl k f s).closed = s.closed := rfl
@[simp] theorem mapCtl_engq (k : Nat × Nat) (f : Ctl → Ctl) (s : State) : (mapCtl k f s).engq = s.engq := rfl
@[simp] theorem mapCtl_cores (k : Nat × Nat) (f : Ctl → Ctl) (s : State) : (mapCtl k f s).cores = s.cores := rfl
@[simp] theorem mapCtl_mccs (k : Nat × Nat) (f : Ctl → Ctl) (s : State) : (mapCtl k f s).mccs = s.mccs := rfl
@[simp] theorem mapCtl_ctls (k : Nat × Nat) (f : Ctl → Ctl) (s : State) : (mapCtl k f s).ctls = Table.put s.ctls k (f (s.ctl k)) := rfl
@[simp] theorem mapCtl_pkgs (k : Nat × Nat) (f : Ctl → Ctl) (s : State) : (mapCtl k f s).pkgs = s.pkgs := rfl
@[simp] theorem mapCtl_panels (k : Nat × Nat) (f : Ctl → Ctl) (s : State) : (mapCtl k f s).panels = s.panels := rfl
@[simp] theorem mapCtl_mem (k : Nat × Nat) (f : Ctl → Ctl) (s : State) : (mapCtl k f s).mem = s.mem := rfl
@[simp] theorem mapCtl_lineKeys (k : Nat × Nat) (f : Ctl → Ctl) (s : State) : (mapCtl k f s).lineKeys = s.lineKeys := rfl
@[simp] theorem mapCtl_early (k : Nat × Nat) (f : Ctl → Ctl) (s : State) : (mapCtl k f s).early = s.early := rfl
@[simp] theorem mapCtl_owners (k : Nat × Nat) (f : Ctl → Ctl) (s : State) : (mapCtl k f s).owners = s.owners := rfl
@[simp] theorem mapCtl_annexed (k : Nat × Nat) (f : Ctl → Ctl) (s : State) : (mapCtl k f s).annexed = s.annexed := rfl
@[simp] theorem mapCtl_serial (k : Nat × Nat) (f : Ctl → Ctl) (s : State) : (mapCtl k f s).serial = s.serial := rfl
@[simp] theorem mapCtl_stale (k : Nat × Nat) (f : Ctl → Ctl) (s : State) : (mapCtl k f s).stale = s.stale := rfl
@[simp] theorem mapCtl_bad (k : Nat × Nat) (f : Ctl → Ctl) (s : State) : (mapCtl k f s).bad = s.bad := rfl
@[simp] theorem mapCtl_nextId (k : Nat × Nat) (f : Ctl → Ctl) (s : State) : (mapCtl k f s).nextId = s.nextId := rfl
@[simp] theorem mapCtl_agenda (k : Nat × Nat) (f : Ctl → Ctl) (s : State) : (mapCtl k f s).agenda = s.agenda := rfl
@[simp] theorem mapCtl_cur (k : Nat × Nat) (f : Ctl → Ctl) (s : State) : (mapCtl k f s).cur = s.cur := rfl
@[simp] theorem mapCtl_choice (k : Nat × Nat) (f : Ctl → Ctl) (s : State) : (mapCtl k f s).choice = s.choice := rfl

@[simp] theorem mapPkg_streams (p : Nat) (f : Package → Package) (s : State) : (mapPkg p f s).streams = s.streams := rfl
@[simp] theorem mapPkg_groups (p : Nat) (f : Package → Package) (s : State) : (mapPkg p f s).groups = s.groups := rfl
@[simp] theorem mapPkg_blocks (p : Nat) (f : Package → Package) (s : State) : (mapPkg p f s).blocks = s.blocks := rfl
@[simp] theorem mapPkg_past (p : Nat) (f : Package → Package) (s : State) : (mapPkg p f s).past = s.past := rfl
@[simp] theorem mapPkg_launches (p : Nat) (f : Package → Package) (s : State) : (mapPkg p f s).launches = s.launches := rfl
@[simp] theorem mapPkg_items (p : Nat) (f : Package → Package) (s : State) : (mapPkg p f s).items = s.items := rfl
@[simp] theorem mapPkg_colls (p : Nat) (f : Package → Package) (s : State) : (mapPkg p f s).colls = s.colls := rfl
@[simp] theorem mapPkg_closed (p : Nat) (f : Package → Package) (s : State) : (mapPkg p f s).closed = s.closed := rfl
@[simp] theorem mapPkg_engq (p : Nat) (f : Package → Package) (s : State) : (mapPkg p f s).engq = s.engq := rfl
@[simp] theorem mapPkg_cores (p : Nat) (f : Package → Package) (s : State) : (mapPkg p f s).cores = s.cores := rfl
@[simp] theorem mapPkg_mccs (p : Nat) (f : Package → Package) (s : State) : (mapPkg p f s).mccs = s.mccs := rfl
@[simp] theorem mapPkg_ctls (p : Nat) (f : Package → Package) (s : State) : (mapPkg p f s).ctls = s.ctls := rfl
@[simp] theorem mapPkg_pkgs (p : Nat) (f : Package → Package) (s : State) : (mapPkg p f s).pkgs = Table.put s.pkgs p (f (s.pkg p)) := rfl
@[simp] theorem mapPkg_panels (p : Nat) (f : Package → Package) (s : State) : (mapPkg p f s).panels = s.panels := rfl
@[simp] theorem mapPkg_mem (p : Nat) (f : Package → Package) (s : State) : (mapPkg p f s).mem = s.mem := rfl
@[simp] theorem mapPkg_lineKeys (p : Nat) (f : Package → Package) (s : State) : (mapPkg p f s).lineKeys = s.lineKeys := rfl
@[simp] theorem mapPkg_early (p : Nat) (f : Package → Package) (s : State) : (mapPkg p f s).early = s.early := rfl
@[simp] theorem mapPkg_owners (p : Nat) (f : Package → Package) (s : State) : (mapPkg p f s).owners = s.owners := rfl
@[simp] theorem mapPkg_annexed (p : Nat) (f : Package → Package) (s : State) : (mapPkg p f s).annexed = s.annexed := rfl
@[simp] theorem mapPkg_serial (p : Nat) (f : Package → Package) (s : State) : (mapPkg p f s).serial = s.serial := rfl
@[simp] theorem mapPkg_stale (p : Nat) (f : Package → Package) (s : State) : (mapPkg p f s).stale = s.stale := rfl
@[simp] theorem mapPkg_bad (p : Nat) (f : Package → Package) (s : State) : (mapPkg p f s).bad = s.bad := rfl
@[simp] theorem mapPkg_nextId (p : Nat) (f : Package → Package) (s : State) : (mapPkg p f s).nextId = s.nextId := rfl
@[simp] theorem mapPkg_agenda (p : Nat) (f : Package → Package) (s : State) : (mapPkg p f s).agenda = s.agenda := rfl
@[simp] theorem mapPkg_cur (p : Nat) (f : Package → Package) (s : State) : (mapPkg p f s).cur = s.cur := rfl
@[simp] theorem mapPkg_choice (p : Nat) (f : Package → Package) (s : State) : (mapPkg p f s).choice = s.choice := rfl

@[simp] theorem mapItem_streams (i : Nat) (f : Item → Item) (s : State) : (mapItem i f s).streams = s.streams := rfl
@[simp] theorem mapItem_groups (i : Nat) (f : Item → Item) (s : State) : (mapItem i f s).groups = s.groups := rfl
@[simp] theorem mapItem_blocks (i : Nat) (f : Item → Item) (s : State) : (mapItem i f s).blocks = s.blocks := rfl
@[simp] theorem mapItem_past (i : Nat) (f : Item → Item) (s : State) : (mapItem i f s).past = s.past := rfl
@[simp] theorem mapItem_launches (i : Nat) (f : Item → Item) (s : State) : (mapItem i f s).launches = s.launches := rfl
@[simp] theorem mapItem_items (i : Nat) (f : Item → Item) (s : State) : (mapItem i f s).items = Table.upd s.items i f := rfl
@[simp] theorem mapItem_colls (i : Nat) (f : Item → Item) (s : State) : (mapItem i f s).colls = s.colls := rfl
@[simp] theorem mapItem_closed (i : Nat) (f : Item → Item) (s : State) : (mapItem i f s).closed = s.closed := rfl
@[simp] theorem mapItem_engq (i : Nat) (f : Item → Item) (s : State) : (mapItem i f s).engq = s.engq := rfl
@[simp] theorem mapItem_cores (i : Nat) (f : Item → Item) (s : State) : (mapItem i f s).cores = s.cores := rfl
@[simp] theorem mapItem_mccs (i : Nat) (f : Item → Item) (s : State) : (mapItem i f s).mccs = s.mccs := rfl
@[simp] theorem mapItem_ctls (i : Nat) (f : Item → Item) (s : State) : (mapItem i f s).ctls = s.ctls := rfl
@[simp] theorem mapItem_pkgs (i : Nat) (f : Item → Item) (s : State) : (mapItem i f s).pkgs = s.pkgs := rfl
@[simp] theorem mapItem_panels (i : Nat) (f : Item → Item) (s : State) : (mapItem i f s).panels = s.panels := rfl
@[simp] theorem mapItem_mem (i : Nat) (f : Item → Item) (s : State) : (mapItem i f s).mem = s.mem := rfl
@[simp] theorem mapItem_lineKeys (i : Nat) (f : Item → Item) (s : State) : (mapItem i f s).lineKeys = s.lineKeys := rfl
@[simp] theorem mapItem_early (i : Nat) (f : Item → Item) (s : State) : (mapItem i f s).early = s.early := rfl
@[simp] theorem mapItem_owners (i : Nat) (f : Item → Item) (s : State) : (mapItem i f s).owners = s.owners := rfl
@[simp] theorem mapItem_annexed (i : Nat) (f : Item → Item) (s : State) : (mapItem i f s).annexed = s.annexed := rfl
@[simp] theorem mapItem_serial (i : Nat) (f : Item → Item) (s : State) : (mapItem i f s).serial = s.serial := rfl
@[simp] theorem mapItem_stale (i : Nat) (f : Item → Item) (s : State) : (mapItem i f s).stale = s.stale := rfl
@[simp] theorem mapItem_bad (i : Nat) (f : Item → Item) (s : State) : (mapItem i f s).bad = s.bad := rfl
@[simp] theorem mapItem_nextId (i : Nat) (f : Item → Item) (s : State) : (mapItem i f s).nextId = s.nextId := rfl
@[simp] theorem mapItem_agenda (i : Nat) (f : Item → Item) (s : State) : (mapItem i f s).agenda = s.agenda := rfl
@[simp] theorem mapItem_cur (i : Nat) (f : Item → Item) (s : State) : (mapItem i f s).cur = s.cur := rfl
@[simp] theorem mapItem_choice (i : Nat) (f : Item → Item) (s : State) : (mapItem i f s).choice = s.choice := rfl

@[simp] theorem mapLaunch_streams (l : Nat) (f : Launch → Launch) (s : State) : (mapLaunch l f s).streams = s.streams := rfl
@[simp] theorem mapLaunch_groups (l : Nat) (f : Launch → Launch) (s : State) : (mapLaunch l f s).groups = s.groups := rfl
@[simp] theorem mapLaunch_blocks (l : Nat) (f : Launch → Launch) (s : State) : (mapLaunch l f s).blocks = s.blocks := rfl
@[simp] theorem mapLaunch_past (l : Nat) (f : Launch → Launch) (s : State) : (mapLaunch l f s).past = s.past := rfl
@[simp] theorem mapLaunch_launches (l : Nat) (f : Launch → Launch) (s : State) : (mapLaunch l f s).launches = Table.upd s.launches l f := rfl
@[simp] theorem mapLaunch_items (l : Nat) (f : Launch → Launch) (s : State) : (mapLaunch l f s).items = s.items := rfl
@[simp] theorem mapLaunch_colls (l : Nat) (f : Launch → Launch) (s : State) : (mapLaunch l f s).colls = s.colls := rfl
@[simp] theorem mapLaunch_closed (l : Nat) (f : Launch → Launch) (s : State) : (mapLaunch l f s).closed = s.closed := rfl
@[simp] theorem mapLaunch_engq (l : Nat) (f : Launch → Launch) (s : State) : (mapLaunch l f s).engq = s.engq := rfl
@[simp] theorem mapLaunch_cores (l : Nat) (f : Launch → Launch) (s : State) : (mapLaunch l f s).cores = s.cores := rfl
@[simp] theorem mapLaunch_mccs (l : Nat) (f : Launch → Launch) (s : State) : (mapLaunch l f s).mccs = s.mccs := rfl
@[simp] theorem mapLaunch_ctls (l : Nat) (f : Launch → Launch) (s : State) : (mapLaunch l f s).ctls = s.ctls := rfl
@[simp] theorem mapLaunch_pkgs (l : Nat) (f : Launch → Launch) (s : State) : (mapLaunch l f s).pkgs = s.pkgs := rfl
@[simp] theorem mapLaunch_panels (l : Nat) (f : Launch → Launch) (s : State) : (mapLaunch l f s).panels = s.panels := rfl
@[simp] theorem mapLaunch_mem (l : Nat) (f : Launch → Launch) (s : State) : (mapLaunch l f s).mem = s.mem := rfl
@[simp] theorem mapLaunch_lineKeys (l : Nat) (f : Launch → Launch) (s : State) : (mapLaunch l f s).lineKeys = s.lineKeys := rfl
@[simp] theorem mapLaunch_early (l : Nat) (f : Launch → Launch) (s : State) : (mapLaunch l f s).early = s.early := rfl
@[simp] theorem mapLaunch_owners (l : Nat) (f : Launch → Launch) (s : State) : (mapLaunch l f s).owners = s.owners := rfl
@[simp] theorem mapLaunch_annexed (l : Nat) (f : Launch → Launch) (s : State) : (mapLaunch l f s).annexed = s.annexed := rfl
@[simp] theorem mapLaunch_serial (l : Nat) (f : Launch → Launch) (s : State) : (mapLaunch l f s).serial = s.serial := rfl
@[simp] theorem mapLaunch_stale (l : Nat) (f : Launch → Launch) (s : State) : (mapLaunch l f s).stale = s.stale := rfl
@[simp] theorem mapLaunch_bad (l : Nat) (f : Launch → Launch) (s : State) : (mapLaunch l f s).bad = s.bad := rfl
@[simp] theorem mapLaunch_nextId (l : Nat) (f : Launch → Launch) (s : State) : (mapLaunch l f s).nextId = s.nextId := rfl
@[simp] theorem mapLaunch_agenda (l : Nat) (f : Launch → Launch) (s : State) : (mapLaunch l f s).agenda = s.agenda := rfl
@[simp] theorem mapLaunch_cur (l : Nat) (f : Launch → Launch) (s : State) : (mapLaunch l f s).cur = s.cur := rfl
@[simp] theorem mapLaunch_choice (l : Nat) (f : Launch → Launch) (s : State) : (mapLaunch l f s).choice = s.choice := rfl

@[simp] theorem mapSelf_groups (f : Stream → Stream) (s : State) : (mapSelf f s).groups = s.groups := rfl
@[simp] theorem mapSelf_blocks (f : Stream → Stream) (s : State) : (mapSelf f s).blocks = s.blocks := rfl
@[simp] theorem mapSelf_past (f : Stream → Stream) (s : State) : (mapSelf f s).past = s.past := rfl
@[simp] theorem mapSelf_launches (f : Stream → Stream) (s : State) : (mapSelf f s).launches = s.launches := rfl
@[simp] theorem mapSelf_items (f : Stream → Stream) (s : State) : (mapSelf f s).items = s.items := rfl
@[simp] theorem mapSelf_colls (f : Stream → Stream) (s : State) : (mapSelf f s).colls = s.colls := rfl
@[simp] theorem mapSelf_closed (f : Stream → Stream) (s : State) : (mapSelf f s).closed = s.closed := rfl
@[simp] theorem mapSelf_engq (f : Stream → Stream) (s : State) : (mapSelf f s).engq = s.engq := rfl
@[simp] theorem mapSelf_cores (f : Stream → Stream) (s : State) : (mapSelf f s).cores = s.cores := rfl
@[simp] theorem mapSelf_mccs (f : Stream → Stream) (s : State) : (mapSelf f s).mccs = s.mccs := rfl
@[simp] theorem mapSelf_ctls (f : Stream → Stream) (s : State) : (mapSelf f s).ctls = s.ctls := rfl
@[simp] theorem mapSelf_pkgs (f : Stream → Stream) (s : State) : (mapSelf f s).pkgs = s.pkgs := rfl
@[simp] theorem mapSelf_panels (f : Stream → Stream) (s : State) : (mapSelf f s).panels = s.panels := rfl
@[simp] theorem mapSelf_mem (f : Stream → Stream) (s : State) : (mapSelf f s).mem = s.mem := rfl
@[simp] theorem mapSelf_lineKeys (f : Stream → Stream) (s : State) : (mapSelf f s).lineKeys = s.lineKeys := rfl
@[simp] theorem mapSelf_early (f : Stream → Stream) (s : State) : (mapSelf f s).early = s.early := rfl
@[simp] theorem mapSelf_owners (f : Stream → Stream) (s : State) : (mapSelf f s).owners = s.owners := rfl
@[simp] theorem mapSelf_annexed (f : Stream → Stream) (s : State) : (mapSelf f s).annexed = s.annexed := rfl
@[simp] theorem mapSelf_serial (f : Stream → Stream) (s : State) : (mapSelf f s).serial = s.serial := rfl
@[simp] theorem mapSelf_stale (f : Stream → Stream) (s : State) : (mapSelf f s).stale = s.stale := rfl
@[simp] theorem mapSelf_bad (f : Stream → Stream) (s : State) : (mapSelf f s).bad = s.bad := rfl
@[simp] theorem mapSelf_nextId (f : Stream → Stream) (s : State) : (mapSelf f s).nextId = s.nextId := rfl
@[simp] theorem mapSelf_agenda (f : Stream → Stream) (s : State) : (mapSelf f s).agenda = s.agenda := rfl
@[simp] theorem mapSelf_cur (f : Stream → Stream) (s : State) : (mapSelf f s).cur = s.cur := rfl
@[simp] theorem mapSelf_choice (f : Stream → Stream) (s : State) : (mapSelf f s).choice = s.choice := rfl
@[simp] theorem mapSelfGroup_streams (f : Group → Group) (s : State) : (mapSelfGroup f s).streams = s.streams := rfl
@[simp] theorem mapSelfGroup_blocks (f : Group → Group) (s : State) : (mapSelfGroup f s).blocks = s.blocks := rfl
@[simp] theorem mapSelfGroup_past (f : Group → Group) (s : State) : (mapSelfGroup f s).past = s.past := rfl
@[simp] theorem mapSelfGroup_launches (f : Group → Group) (s : State) : (mapSelfGroup f s).launches = s.launches := rfl
@[simp] theorem mapSelfGroup_items (f : Group → Group) (s : State) : (mapSelfGroup f s).items = s.items := rfl
@[simp] theorem mapSelfGroup_colls (f : Group → Group) (s : State) : (mapSelfGroup f s).colls = s.colls := rfl
@[simp] theorem mapSelfGroup_closed (f : Group → Group) (s : State) : (mapSelfGroup f s).closed = s.closed := rfl
@[simp] theorem mapSelfGroup_engq (f : Group → Group) (s : State) : (mapSelfGroup f s).engq = s.engq := rfl
@[simp] theorem mapSelfGroup_cores (f : Group → Group) (s : State) : (mapSelfGroup f s).cores = s.cores := rfl
@[simp] theorem mapSelfGroup_mccs (f : Group → Group) (s : State) : (mapSelfGroup f s).mccs = s.mccs := rfl
@[simp] theorem mapSelfGroup_ctls (f : Group → Group) (s : State) : (mapSelfGroup f s).ctls = s.ctls := rfl
@[simp] theorem mapSelfGroup_pkgs (f : Group → Group) (s : State) : (mapSelfGroup f s).pkgs = s.pkgs := rfl
@[simp] theorem mapSelfGroup_panels (f : Group → Group) (s : State) : (mapSelfGroup f s).panels = s.panels := rfl
@[simp] theorem mapSelfGroup_mem (f : Group → Group) (s : State) : (mapSelfGroup f s).mem = s.mem := rfl
@[simp] theorem mapSelfGroup_lineKeys (f : Group → Group) (s : State) : (mapSelfGroup f s).lineKeys = s.lineKeys := rfl
@[simp] theorem mapSelfGroup_early (f : Group → Group) (s : State) : (mapSelfGroup f s).early = s.early := rfl
@[simp] theorem mapSelfGroup_owners (f : Group → Group) (s : State) : (mapSelfGroup f s).owners = s.owners := rfl
@[simp] theorem mapSelfGroup_annexed (f : Group → Group) (s : State) : (mapSelfGroup f s).annexed = s.annexed := rfl
@[simp] theorem mapSelfGroup_serial (f : Group → Group) (s : State) : (mapSelfGroup f s).serial = s.serial := rfl
@[simp] theorem mapSelfGroup_stale (f : Group → Group) (s : State) : (mapSelfGroup f s).stale = s.stale := rfl
@[simp] theorem mapSelfGroup_bad (f : Group → Group) (s : State) : (mapSelfGroup f s).bad = s.bad := rfl
@[simp] theorem mapSelfGroup_nextId (f : Group → Group) (s : State) : (mapSelfGroup f s).nextId = s.nextId := rfl
@[simp] theorem mapSelfGroup_agenda (f : Group → Group) (s : State) : (mapSelfGroup f s).agenda = s.agenda := rfl
@[simp] theorem mapSelfGroup_cur (f : Group → Group) (s : State) : (mapSelfGroup f s).cur = s.cur := rfl
@[simp] theorem mapSelfGroup_choice (f : Group → Group) (s : State) : (mapSelfGroup f s).choice = s.choice := rfl
@[simp] theorem setReg_groups (r : SReg) (v : Word64) (s : State) : (setReg r v s).groups = s.groups := rfl
@[simp] theorem setReg_blocks (r : SReg) (v : Word64) (s : State) : (setReg r v s).blocks = s.blocks := rfl
@[simp] theorem setReg_past (r : SReg) (v : Word64) (s : State) : (setReg r v s).past = s.past := rfl
@[simp] theorem setReg_launches (r : SReg) (v : Word64) (s : State) : (setReg r v s).launches = s.launches := rfl
@[simp] theorem setReg_items (r : SReg) (v : Word64) (s : State) : (setReg r v s).items = s.items := rfl
@[simp] theorem setReg_colls (r : SReg) (v : Word64) (s : State) : (setReg r v s).colls = s.colls := rfl
@[simp] theorem setReg_closed (r : SReg) (v : Word64) (s : State) : (setReg r v s).closed = s.closed := rfl
@[simp] theorem setReg_engq (r : SReg) (v : Word64) (s : State) : (setReg r v s).engq = s.engq := rfl
@[simp] theorem setReg_cores (r : SReg) (v : Word64) (s : State) : (setReg r v s).cores = s.cores := rfl
@[simp] theorem setReg_mccs (r : SReg) (v : Word64) (s : State) : (setReg r v s).mccs = s.mccs := rfl
@[simp] theorem setReg_ctls (r : SReg) (v : Word64) (s : State) : (setReg r v s).ctls = s.ctls := rfl
@[simp] theorem setReg_pkgs (r : SReg) (v : Word64) (s : State) : (setReg r v s).pkgs = s.pkgs := rfl
@[simp] theorem setReg_panels (r : SReg) (v : Word64) (s : State) : (setReg r v s).panels = s.panels := rfl
@[simp] theorem setReg_mem (r : SReg) (v : Word64) (s : State) : (setReg r v s).mem = s.mem := rfl
@[simp] theorem setReg_lineKeys (r : SReg) (v : Word64) (s : State) : (setReg r v s).lineKeys = s.lineKeys := rfl
@[simp] theorem setReg_early (r : SReg) (v : Word64) (s : State) : (setReg r v s).early = s.early := rfl
@[simp] theorem setReg_owners (r : SReg) (v : Word64) (s : State) : (setReg r v s).owners = s.owners := rfl
@[simp] theorem setReg_annexed (r : SReg) (v : Word64) (s : State) : (setReg r v s).annexed = s.annexed := rfl
@[simp] theorem setReg_serial (r : SReg) (v : Word64) (s : State) : (setReg r v s).serial = s.serial := rfl
@[simp] theorem setReg_stale (r : SReg) (v : Word64) (s : State) : (setReg r v s).stale = s.stale := rfl
@[simp] theorem setReg_bad (r : SReg) (v : Word64) (s : State) : (setReg r v s).bad = s.bad := rfl
@[simp] theorem setReg_nextId (r : SReg) (v : Word64) (s : State) : (setReg r v s).nextId = s.nextId := rfl
@[simp] theorem setReg_agenda (r : SReg) (v : Word64) (s : State) : (setReg r v s).agenda = s.agenda := rfl
@[simp] theorem setReg_cur (r : SReg) (v : Word64) (s : State) : (setReg r v s).cur = s.cur := rfl
@[simp] theorem setReg_choice (r : SReg) (v : Word64) (s : State) : (setReg r v s).choice = s.choice := rfl

end Sys2Proof.Machine
end

