-- ==== Sys2Proof/Laws/Table.lean ====
section
/-! SUPPORT. Reading keyed tables, vectors and registers after an update. -/

namespace Sys2Proof.Machine

variable {κ ν : Type} [DecidableEq κ]

@[simp] theorem Table.find?_nil (k : κ) : Table.find? ([] : Table κ ν) k = none := rfl

@[simp] theorem Table.find?_put_self (t : Table κ ν) (k : κ) (v : ν) : Table.find? (Table.put t k v) k = some v := by
  induction t with
  | nil => simp [Table.put, Table.find?]
  | cons x r ih =>
    obtain ⟨k', v'⟩ := x
    by_cases h : k' = k <;> simp [Table.put, Table.find?, h, ih]

theorem Table.find?_put_other (t : Table κ ν) {k j : κ} (v : ν) (h : j ≠ k) :
    Table.find? (Table.put t k v) j = Table.find? t j := by
  induction t with
  | nil => simp [Table.put, Table.find?, Ne.symm h]
  | cons x r ih =>
    obtain ⟨k', v'⟩ := x
    by_cases hk : k' = k
    · subst hk; simp [Table.put, Table.find?, Ne.symm h]
    · by_cases hj : k' = j
      · subst hj; simp [Table.put, Table.find?, hk]
      · simp [Table.put, Table.find?, hk, hj, ih]

@[simp] theorem Table.findD_put_self (t : Table κ ν) (k : κ) (v d : ν) : Table.findD (Table.put t k v) k d = v := by
  simp [Table.findD]

theorem Table.findD_put_other (t : Table κ ν) {k j : κ} (v d : ν) (h : j ≠ k) :
    Table.findD (Table.put t k v) j d = Table.findD t j d := by
  simp [Table.findD, Table.find?_put_other t v h]

theorem Table.put_put (t : Table κ ν) (k : κ) (v w : ν) : Table.put (Table.put t k v) k w = Table.put t k w := by
  induction t with
  | nil => simp [Table.put]
  | cons x r ih =>
    obtain ⟨k', v'⟩ := x
    by_cases h : k' = k <;> simp [Table.put, h, ih]

theorem Vec.get_set_self {α : Type} [Inhabited α] {n : Nat} (v : Vector α n) (i : Nat) (x : α) (h : i < n) :
    Vec.get (Vec.set v i x) i = x := by
  simp [Vec.get, Vec.set, h]

theorem Vec.get_set_other {α : Type} [Inhabited α] {n : Nat} (v : Vector α n) {i j : Nat} (x : α) (h : i ≠ j) :
    Vec.get (Vec.set v i x) j = Vec.get v j := by
  simp [Vec.get, Vec.set, h]

/-- An effect applied along a list keeps what each application keeps. -/
theorem seqAll_keeps {α σ : Type} (P : σ → Prop) (f : α → σ → σ) (hf : ∀ a s, P s → P (f a s)) :
    ∀ (l : List α) (s : σ), P s → P (seqAll f l s)
  | [], _, h => h
  | x :: r, s, h => seqAll_keeps P f hf r (f x s) (hf x s h)

/-- A partial effect applied along a list keeps what each application keeps. -/
theorem seqEff_keeps {α σ ε : Type} (P : σ → Prop) (f : α → σ → Except ε σ) (hf : ∀ a s t, f a s = .ok t → P s → P t) :
    ∀ (l : List α) (s t : σ), seqEff f l s = .ok t → P s → P t
  | [], s, t, h, hp => by cases h; exact hp
  | x :: r, s, t, h, hp => by
    unfold seqEff at h
    split at h
    · next s' hs => exact seqEff_keeps P f hf r s' t h (hf x s s' hs hp)
    · cases h

end Sys2Proof.Machine
end

