-- ==== Sys2Proof/Laws/Memory.lean ====
section
/-! SUPPORT. Byte memories: reads after writes, and the canonical form that every memory operation keeps. -/

namespace Sys2Proof.Machine

theorem Cells.from_mono {lo lo' : Nat} (h : lo' ≤ lo) : ∀ {m : Cells}, Cells.from lo m = true → Cells.from lo' m = true
  | [], _ => rfl
  | (a, b) :: r, hm => by
    simp only [Cells.from, Bool.and_eq_true, decide_eq_true_eq] at hm ⊢
    exact ⟨⟨le_trans h hm.1.1, hm.1.2⟩, hm.2⟩

theorem Cells.from_write : ∀ {m : Cells} {lo a : Nat} {v : Byte}, lo ≤ a → Cells.from lo m = true →
    Cells.from lo (Cells.write m a v) = true
  | [], lo, a, v, h, _ => by
    by_cases hv : v = 0#8 <;> simp [Cells.write, Cells.from, hv, h]
  | (x, b) :: r, lo, a, v, h, hm => by
    simp only [Cells.from, Bool.and_eq_true, decide_eq_true_eq] at hm
    obtain ⟨⟨h1, h2⟩, h3⟩ := hm
    by_cases hlt : a < x
    · by_cases hv : v = 0#8
      · simp [Cells.write, Cells.from, hlt, hv, h1, h2, h3]
      · simp [Cells.write, Cells.from, hlt, hv, h, h2, h3]
    · by_cases he : a = x
      · subst he
        by_cases hv : v = 0#8
        · simpa [Cells.write, hlt, hv] using Cells.from_mono (by omega) h3
        · simp [Cells.write, Cells.from, hv, h, h3]
      · simpa [Cells.write, Cells.from, hlt, he, h1, h2] using Cells.from_write (by omega) h3

/-- A write keeps the canonical form. -/
theorem Cells.wf_write {m : Cells} (a : Nat) (v : Byte) (h : m.wf = true) : (m.write a v).wf = true :=
  Cells.from_write (Nat.zero_le a) h

theorem Cells.wf_writeN : ∀ (bs : List Byte) {m : Cells} (a : Nat), m.wf = true → (m.writeN a bs).wf = true
  | [], _, _, h => h
  | b :: r, _, a, h => Cells.wf_writeN r (a + 1) (Cells.wf_write a b h)

theorem Cells.read_below : ∀ {m : Cells} {lo a : Nat}, Cells.from lo m = true → a < lo → m.read a = 0#8
  | [], _, _, _, _ => rfl
  | (x, b) :: r, lo, a, hm, h => by
    simp only [Cells.from, Bool.and_eq_true, decide_eq_true_eq] at hm
    simp [Cells.read, show a ≠ x by omega, show a < x by omega]

/-- A byte just written reads back. -/
theorem Cells.read_write_self : ∀ {m : Cells} {lo : Nat} (a : Nat) (v : Byte), Cells.from lo m = true →
    (m.write a v).read a = v
  | [], _, a, v, _ => by
    by_cases hv : v = 0#8 <;> simp [Cells.write, Cells.read, hv]
  | (x, b) :: r, lo, a, v, hm => by
    simp only [Cells.from, Bool.and_eq_true, decide_eq_true_eq] at hm
    obtain ⟨⟨h1, h2⟩, h3⟩ := hm
    by_cases hlt : a < x
    · by_cases hv : v = 0#8 <;> simp [Cells.write, Cells.read, hlt, hv, show a ≠ x by omega]
    · by_cases he : a = x
      · subst he
        by_cases hv : v = 0#8
        · simpa [Cells.write, hlt, hv] using Cells.read_below h3 (by omega)
        · simp [Cells.write, Cells.read, hv]
      · simpa [Cells.write, Cells.read, hlt, he] using Cells.read_write_self a v h3

/-- Every other byte reads as before. -/
theorem Cells.read_write_other : ∀ {m : Cells} {lo : Nat} {a k : Nat} (v : Byte), Cells.from lo m = true → k ≠ a →
    (m.write a v).read k = m.read k
  | [], _, a, k, v, _, h => by
    by_cases hv : v = 0#8
    · simp [Cells.write, Cells.read, hv]
    · by_cases hk : k < a <;> simp [Cells.write, Cells.read, hv, h, hk]
  | (x, b) :: r, lo, a, k, v, hm, h => by
    simp only [Cells.from, Bool.and_eq_true, decide_eq_true_eq] at hm
    obtain ⟨⟨h1, h2⟩, h3⟩ := hm
    by_cases hlt : a < x
    · by_cases hv : v = 0#8
      · simp [Cells.write, hlt, hv]
      · by_cases hk : k < a
        · simp [Cells.write, Cells.read, hlt, hv, h, hk, show k ≠ x by omega, show k < x by omega]
        · simp [Cells.write, Cells.read, hlt, hv, h, hk]
    · by_cases he : a = x
      · subst he
        by_cases hv : v = 0#8
        · by_cases hk : k < a
          · simpa [Cells.write, Cells.read, hlt, hv, h, hk] using Cells.read_below h3 (by omega)
          · simp [Cells.write, Cells.read, hv, h, hk]
        · simp [Cells.write, Cells.read, hv, h]
      · simp only [Cells.write, hlt, he, if_false, Cells.read]
        by_cases hk : k = x
        · simp [hk]
        · by_cases hk2 : k < x
          · simp [hk, hk2]
          · simpa [hk, hk2] using Cells.read_write_other v h3 h

/-- The memory of a state keeps its canonical form. -/
abbrev MemWf (s : State) : Prop := s.mem.wf = true

theorem adoptLine_mem (mat : Under) (line : Nat) (s : State) : (adoptLine mat line s).mem =
    if heldUnder s mat line = true then s.mem else s.mem.writeN (line * 128) (readRange s mat (line * 128) 128) := by
  unfold adoptLine
  by_cases h : heldUnder s mat line = true
  · rw [if_pos h, if_pos h]
  · rw [if_neg h, if_neg h]

theorem adoptLine_memWf (mat : Under) (line : Nat) (s : State) (h : MemWf s) : MemWf (adoptLine mat line s) := by
  rw [MemWf, adoptLine_mem]
  by_cases hm : heldUnder s mat line = true
  · rw [if_pos hm]; exact h
  · rw [if_neg hm]; exact Cells.wf_writeN _ _ h

theorem writeByte_memWf (mat : Under) (k : Nat) (v : Byte) (s : State) (h : MemWf s) : MemWf (writeByte mat k v s) := by
  unfold writeByte
  by_cases hg : goHeld s k = true
  · rw [if_pos hg]; exact h
  · rw [if_neg hg]; exact Cells.wf_write k v (adoptLine_memWf mat (k / 128) s h)

theorem writeRange_memWf : ∀ (bs : List Byte) (mat : Under) (k : Nat) (s : State), MemWf s → MemWf (writeRange mat k bs s)
  | [], _, _, _, h => h
  | b :: r, mat, k, s, h => writeRange_memWf r mat (k + 1) _ (writeByte_memWf mat k b s h)

theorem Cells.from_filter (p : Host.Cell → Bool) : ∀ {m : Cells} {lo : Nat}, Cells.from lo m = true → Cells.from lo (m.filter p) = true
  | [], _, _ => rfl
  | (x, b) :: r, lo, hm => by
    simp only [Cells.from, Bool.and_eq_true, decide_eq_true_eq] at hm
    by_cases hp : p (x, b) = true
    · simp [hp, Cells.from, hm.1.1, by simpa using hm.1.2, Cells.from_filter p hm.2]
    · simpa [hp] using Cells.from_filter p (Cells.from_mono (by omega) hm.2)

/-- A loss of power keeps the form of what it leaves. -/
theorem clearControl_memWf (pkg : Nat) (s : State) (h : MemWf s) : MemWf (clearControl pkg s) := by
  simpa [MemWf, clearControl, mapPkg, Cells.wf] using Cells.from_filter _ h

/-- The memory at reset lists nothing. -/
theorem reset_memWf : MemWf State.reset := rfl

end Sys2Proof.Machine
end

