-- ==== Sys2Proof/Laws/Streams.lean ====
section
/-! SUPPORT. Reading streams, groups, blocks and registers after an update; what a retired scalar instruction leaves. -/

namespace Sys2Proof.Machine

@[simp] theorem stream_setStream_self (s : State) (ag : Agent) (x : Stream) : (s.setStream ag x).stream ag = x := by
  simp [State.stream]

theorem stream_setStream_other (s : State) {ag a : Agent} (x : Stream) (h : a ≠ ag) : (s.setStream ag x).stream a = s.stream a := by
  simp [State.stream, Table.findD_put_other _ _ _ h]

@[simp] theorem stream_mapStream_self (s : State) (ag : Agent) (f : Stream → Stream) : (mapStream ag f s).stream ag = f (s.stream ag) := by
  simp [mapStream]

theorem stream_mapStream_other (s : State) {ag a : Agent} (f : Stream → Stream) (h : a ≠ ag) : (mapStream ag f s).stream a = s.stream a := by
  simp [mapStream, stream_setStream_other s _ h]

@[simp] theorem group_setGroup_self (s : State) (ag : Agent) (x : Group) : (s.setGroup ag x).group ag = x := by
  simp [State.group]

theorem group_setGroup_other (s : State) {ag a : Agent} (x : Group) (h : a ≠ ag) : (s.setGroup ag x).group a = s.group a := by
  simp [State.group, Table.findD_put_other _ _ _ h]

@[simp] theorem self_mapSelf (s : State) (f : Stream → Stream) : self (mapSelf f s) = f (self s) := by
  simp [self, mapSelf, mapStream]

@[simp] theorem selfGroup_mapSelfGroup (s : State) (f : Group → Group) : selfGroup (mapSelfGroup f s) = f (selfGroup s) := by
  simp [selfGroup, mapSelfGroup, mapGroup]

/-- Changing a block that is found changes that block and no other. -/
theorem block_mapBlock (s : State) (b k : Nat) (f : Block → Block) :
    (mapBlock b f s).block k = s.block k ∨ (mapBlock b f s).block k = f (s.block k) := by
  unfold mapBlock State.block Table.upd
  cases hb : Table.find? s.blocks b <;> cases hp : Table.find? s.past b <;> by_cases hk : k = b
  all_goals first
    | subst hk; simp [Table.findD, hb, hp]
    | simp [Table.findD, Table.find?_put_other _ _ hk]

theorem block_mapBlock_other (s : State) {b k : Nat} (f : Block → Block) (hk : k ≠ b) : (mapBlock b f s).block k = s.block k := by
  unfold mapBlock State.block Table.upd
  cases hb : Table.find? s.blocks b <;> cases hp : Table.find? s.past b <;> simp [Table.findD, Table.find?_put_other _ _ hk]

/-- The count of a retired instruction changes no other part of the state. -/
theorem retire_rest (s : State) : retire s = { s with blocks := (retire s).blocks, past := (retire s).past } := by
  unfold retire; split <;> rfl

@[simp] theorem retire_streams (s : State) : (retire s).streams = s.streams := by unfold retire; split <;> rfl
@[simp] theorem retire_groups (s : State) : (retire s).groups = s.groups := by unfold retire; split <;> rfl
@[simp] theorem retire_cur (s : State) : (retire s).cur = s.cur := by unfold retire; split <;> rfl
@[simp] theorem retire_mem (s : State) : (retire s).mem = s.mem := by unfold retire; split <;> rfl
@[simp] theorem retire_pkgs (s : State) : (retire s).pkgs = s.pkgs := by unfold retire; split <;> rfl
@[simp] theorem retire_lineKeys (s : State) : (retire s).lineKeys = s.lineKeys := by unfold retire; split <;> rfl

theorem retire_sameBlocks (s : State) : SameBlocks s (retire s) := by
  intro b
  unfold retire
  split
  · rename_i p c w _
    rcases block_mapBlock s (s.group (.group p c w)).block b (fun b => { b with rt := b.rt + 1 }) with h | h <;> rw [h]
  · rfl

/-- Bytes are read from the memory, the line keys and the packages alone. -/
theorem readByte_congr {s t : State} (hm : t.mem = s.mem) (hl : t.lineKeys = s.lineKeys) (hp : t.pkgs = s.pkgs) (mat : Under) (k : Nat) :
    readByte t mat k = readByte s mat k := by
  have hk : ∀ n, t.pkg n = s.pkg n := fun n => by simp [State.pkg, hp]
  have hw : ∀ n, tweakOf t n = tweakOf s n := fun n => by simp [tweakOf, hk]
  have hl' : ∀ n, lineKey t n = lineKey s n := fun n => by simp [lineKey, hl, hk, hw]
  simp [readByte, sameKey, hl', hk, hw, hm]

theorem SameBytes.of_parts {s t : State} (hm : t.mem = s.mem) (hl : t.lineKeys = s.lineKeys) (hp : t.pkgs = s.pkgs)
    (hb : SameBlocks s t) : SameBytes s t :=
  ⟨readByte_congr hm hl hp, fun b o => by rw [hb b]; exact ⟨rfl, rfl⟩⟩

@[simp] theorem self_retire (s : State) : self (retire s) = self s := by simp [self, State.stream]

@[simp] theorem self_goto (pc : Word64) (s : State) : self (goto pc s) = { self s with spc := pc } := by
  unfold goto; simp

@[simp] theorem goto_cur (pc : Word64) (s : State) : (goto pc s).cur = s.cur := by
  unfold goto; simp [mapSelf, mapStream]

@[simp] theorem self_advance (n : Nat) (s : State) : self (advance n s) = { self s with spc := (self s).spc + BitVec.ofNat 64 n } := by
  simp [advance]

@[simp] theorem advance_cur (n : Nat) (s : State) : (advance n s).cur = s.cur := by simp [advance]

theorem readS_writeS (x : Stream) (d r : SReg) (v : Word64) : readS (writeS d v x) r = if r = d ∧ d ≠ 0 then v else readS x r := by
  unfold readS writeS
  by_cases hd : d = 0#6
  · simp [hd]
  · by_cases hr : r = 0#6
    · subst hr; simp [Ne.symm hd, hd]
    · by_cases h : r = d
      · subst h; simp [hd, Vec.get_set_self _ _ _ r.isLt]
      · have : d.toNat ≠ r.toNat := fun e => h (BitVec.eq_of_toNat_eq e.symm)
        simp [hd, hr, h, Vec.get_set_other _ _ this]

theorem writeS_stream (x : Stream) (d : SReg) (v : Word64) : writeS d v x = { x with s := (writeS d v x).s } := by
  unfold writeS; split <;> rfl

/-- A change of the running stream that then retires touches nothing else. -/
theorem streamStep_goto (pc : Word64) (f : Stream → Stream) (s : State) : StreamStep s (goto pc (mapSelf f s)) := by
  have h := retire_sameBlocks (mapSelf (fun x => { x with spc := pc }) (mapSelf f s))
  refine ⟨?_, ?_, h, SameBytes.of_parts ?_ ?_ ?_ h⟩
  · unfold goto; rw [retire_rest]; rfl
  · intro a ha
    have e : (goto pc (mapSelf f s)).stream a = (mapSelf (fun x => { x with spc := pc }) (mapSelf f s)).stream a := by
      simp [goto, State.stream]
    rw [e, mapSelf, stream_mapStream_other _ _ (by simpa [mapSelf, mapStream] using ha), mapSelf, stream_mapStream_other _ _ ha]
  all_goals simp [goto, mapSelf, mapStream]

theorem transfers_goto (pc : Word64) (d : SReg) (v : Word64) (s : State) : Transfers pc d v s (goto pc (setReg d v s)) := by
  refine ⟨streamStep_goto pc (writeS d v) s, ?_, ?_⟩
  · rw [self_goto, setReg, self_mapSelf, writeS_stream]
  · intro r
    have : reg (goto pc (setReg d v s)) r = readS (writeS d v (self s)) r := by simp [reg, readS, setReg]
    rw [this, readS_writeS]; rfl

theorem regWrite_advance (d : SReg) (v : Word64) (n : Nat) (s : State) : RegWrite d v n s (advance n (setReg d v s)) := by
  have h := transfers_goto ((self s).spc + BitVec.ofNat 64 n) d v s
  have e : (self (setReg d v s)).spc = (self s).spc := by rw [setReg, self_mapSelf, writeS_stream]
  rw [advance, e]
  exact ⟨h.frame, h.stream, h.value⟩

@[simp] theorem reg_advance (n : Nat) (s : State) (r : SReg) : reg (advance n s) r = reg s r := by simp [reg, readS]

theorem streamStep_advance (n : Nat) (s : State) : StreamStep s (advance n s) := by
  have h := retire_sameBlocks (mapSelf (fun x => { x with spc := (self s).spc + BitVec.ofNat 64 n }) s)
  refine ⟨?_, ?_, h, SameBytes.of_parts ?_ ?_ ?_ h⟩
  · unfold advance goto; rw [retire_rest]; rfl
  · intro a ha
    have e : (advance n s).stream a = (mapSelf (fun x => { x with spc := (self s).spc + BitVec.ofNat 64 n }) s).stream a := by
      simp [advance, goto, State.stream]
    rw [e, mapSelf, stream_mapStream_other _ _ ha]
  all_goals simp [advance, goto, mapSelf, mapStream]

/-- A retired instruction that writes no register reads, to a claim, as one that writes s0. -/
theorem regWrite_advance_none (n : Nat) (s : State) : RegWrite 0 0 n s (advance n s) :=
  ⟨streamStep_advance n s, by simp, fun r => by simp⟩

end Sys2Proof.Machine
end

