-- ==== Sys2Proof/Machine/Binary.lean ====
section
/-! DEFINITION. Cunum binaries as system software meets them: which it accepts, what loading patches, how a graph's edges
order its nodes (R80 to R87, R389, R431). No step of the part reads a binary; what loading leaves in memory is what the
launch records, ring entries and code of the other chapters hold. DEDUCED: log entry 105. -/

namespace Sys2Proof.Machine

/-- An entry of the section table, with its index (R81). -/
structure CnmSection where
  index : Nat
  ty : Nat
  flags : Nat
  offset : Nat
  size : Nat
  align : Nat
  link : Nat
deriving DecidableEq, Repr, Inhabited

/-- All ones in 32 and in 64 bits: no link, no offset. -/
def cnmNone4 : Nat := 2 ^ 32 - 1
def cnmNone8 : Nat := 2 ^ 64 - 1

/-- The sections of a file in the order of their entries (R80, R81). -/
def cnmSections (f : List Byte) : List CnmSection :=
  (List.range (numAt f 8 4)).map (fun i =>
    let e := f.drop (numAt f 0x10 8 + 32 * i)
    ⟨i, numAt e 0 4, numAt e 4 4, numAt e 8 8, numAt e 0x10 8, numAt e 0x18 4, numAt e 0x1C 4⟩)

/-- The bytes of a section. -/
def CnmSection.bytes (f : List Byte) (x : CnmSection) : List Byte := (f.drop x.offset).take x.size

/-- The size of an entry of a section of a type; 1 for bytes (R81). -/
def cnmEntry (ty : Nat) : Nat :=
  if ty = 1 ∨ ty = 3 then 4 else if ty = 2 then 12
  else if ty = 5 ∨ ty = 10 then 64 else if ty = 6 then 16
  else if ty = 7 ∨ ty = 8 ∨ ty = 9 ∨ ty = 13 then 32 else if ty = 11 then 24 else 1

/-- The entries of a section, as their bytes. -/
def CnmSection.entries (f : List Byte) (x : CnmSection) : List (List Byte) :=
  (List.range (x.size / cnmEntry x.ty)).map (fun i => ((x.bytes f).drop (cnmEntry x.ty * i)).take (cnmEntry x.ty))

/-- The first section of a type; the types that R81 allows once have no other. -/
def cnmFind (f : List Byte) (ty : Nat) : Option CnmSection := (cnmSections f).find? (fun x => x.ty == ty)

/-- The bytes of the section of a type, none if it is absent. -/
def cnmBytes (f : List Byte) (ty : Nat) : List Byte := ((cnmFind f ty).map (CnmSection.bytes f)).getD []

/-- The entries of the section of a type. -/
def cnmEntries (f : List Byte) (ty : Nat) : List (List Byte) := ((cnmFind f ty).map (CnmSection.entries f)).getD []

/-- Whether a range of bytes lies within the section of a type, which is then present. -/
def cnmWithin (f : List Byte) (ty off n : Nat) : Bool := (cnmFind f ty).any (fun x => decide (off + n ≤ x.size))

/-- An offset that names a string (R84). -/
def cnmString (f : List Byte) (off : Nat) : Bool := cnmWithin f 12 off 1

/-- The node tables: graph n is the n-th with its edge table (R81). -/
def cnmGraphs (f : List Byte) : List CnmSection := (cnmSections f).filter (fun x => x.ty == 5)

/-- The edge table of a graph. -/
def cnmEdges (f : List Byte) (g : CnmSection) : List (List Byte) :=
  (((cnmSections f)[g.link]?).map (CnmSection.entries f)).getD []

/-- Reserved bytes, all zero. -/
def cnmZero (e : List Byte) (o n : Nat) : Bool := ((e.drop o).take n).all (fun b => b == 0)

/-- The header lies within its table (R80). -/
def cnmHeaderOk (f : List Byte) : Bool :=
  numAt f 0 4 == 0x1A4D4E43 && numAt f 4 2 == 1 && decide (numAt f 6 2 ≤ 1) && decide (1 ≤ numAt f 8 4) && decide (numAt f 8 4 ≤ 64) &&
    numAt f 0x0C 4 == 64 && numAt f 0x10 8 % 8 == 0 && decide (64 ≤ f.length) && numAt f 0x18 8 == f.length && cnmZero f 0x24 28 &&
    decide (numAt f 0x10 8 + 32 * numAt f 8 4 ≤ f.length) && decide (numAt f 0x20 4 < (cnmGraphs f).length)

/-- The links between a node table and its edge table; sections of every other type have none (R81). -/
def cnmLinkOk (f : List Byte) (x : CnmSection) : Bool :=
  if x.ty = 5 ∨ x.ty = 6 then
    (cnmSections f).any (fun y => y.index == x.link && y.ty == 11 - x.ty && y.link == x.index)
  else x.link == cnmNone4

/-- A section's entry lies within its table, the section within the file at its alignment, and it holds whole entries (R81). -/
def cnmSectionOk (f : List Byte) (x : CnmSection) : Bool :=
  decide (1 ≤ x.ty) && decide (x.ty ≤ 14) && x.flags == 0 && decide (x.align ≤ 16) && x.offset % 2 ^ x.align == 0 &&
    decide (x.offset + x.size ≤ f.length) && x.size % cnmEntry x.ty == 0 && cnmLinkOk f x &&
    (x.ty == 5 || x.ty == 6 || (cnmSections f).all (fun y => y.ty != x.ty || y.index == x.index)) &&
    (cnmSections f).all (fun y => y.index == x.index || x.size == 0 || y.size == 0 ||
      decide (x.offset + x.size ≤ y.offset) || decide (y.offset + y.size ≤ x.offset)) &&
    (x.ty != 10 || x.size == 64) && (x.ty != 12 || x.size == 0 || (x.bytes f).getLast? == some 0)

/-- A node's fields and what they name: a launch its record and code, a copy its descriptor (R82). -/
def cnmNodeOk (f e : List Byte) : Bool :=
  let code := fun (ty off : Nat) => cnmWithin f ty off 1
  let opt := fun (ty off : Nat) => off == cnmNone8 || cnmWithin f ty off 1
  (numAt e 0 4 == 1 || numAt e 0 4 == 2) && numAt e 0x18 8 % 16 == 0 && cnmZero e 0x30 16 &&
    cnmWithin f 4 (numAt e 8 8) (if numAt e 0 4 = 1 then 256 else 64) &&
    (numAt e 0 4 == 2 || (code 1 (numAt e 0x10 8) && code 2 (numAt e 0x18 8) &&
      opt 3 (numAt e 0x20 8) && opt 9 (numAt e 0x28 8)))

/-- The edges of a graph as pairs of nodes: from, to, and whether the second runs whatever the first's status (R83). -/
def cnmArrows (f : List Byte) (g : CnmSection) : List (Nat × Nat × Bool) :=
  (cnmEdges f g).map (fun e => (numAt e 0 4, numAt e 4 4, numAt e 8 4 == 1))

/-- Removes, as often as there are nodes, the nodes to which no edge from a node that is left leads; true if none stays. -/
def acyclicFrom (arrows : List (Nat × Nat × Bool)) : Nat → List Nat → Bool
  | 0, left => left.isEmpty
  | fuel + 1, left =>
    acyclicFrom arrows fuel (left.filter (fun n => arrows.any (fun a => a.2.1 == n && left.contains a.1)))

/-- A graph's edges join its own nodes and form no cycle (R83). -/
def cnmEdgesOk (f : List Byte) (g : CnmSection) : Bool :=
  let n := g.size / 64
  (cnmEdges f g).all (fun e => decide (numAt e 0 4 < n) && decide (numAt e 4 4 < n) && decide (numAt e 8 4 ≤ 1) && cnmZero e 12 4) &&
    acyclicFrom (cnmArrows f g) n (List.range n)

/-- A patch point: a name, a width, a node of the file (R84). -/
def cnmPatchOk (f e : List Byte) : Bool :=
  cnmString f (numAt e 0 4) && (numAt e 4 4 == 4 || numAt e 4 4 == 8) &&
    decide (numAt e 8 4 < (cnmGraphs f).foldl (fun n g => n + g.size / 64) 0) && cnmZero e 0x18 8

/-- A memory-plan entry: its space allows its page, its initial contents are in the data (R84): INIT by its first byte, SLOT and
KEY at any value. DESIGN CHOICE: log entry 116. -/
def cnmPlanOk (f e : List Byte) : Bool :=
  decide (numAt e 4 1 ≤ 2) && decide (numAt e 5 1 ≤ 2) && decide (numAt e 6 1 ≤ 3) && decide (numAt e 7 1 ≤ 3) &&
    (if numAt e 4 1 = 0 then decide (numAt e 5 1 ≤ 1) else decide (1 ≤ numAt e 5 1)) && cnmZero e 0x12 6 &&
    (numAt e 0x18 8 == cnmNone8 || cnmWithin f 4 (numAt e 0x18 8) 1)

/-- A symbol: a name and a section (R84). -/
def cnmSymbolOk (f e : List Byte) : Bool :=
  cnmString f (numAt e 0 4) && decide (numAt e 4 4 < numAt f 8 4) && decide (numAt e 0x14 4 ≤ 1)

/-- A relocation: eight bytes of a data, node or schedule section, and a symbol (R85). -/
def cnmRelocOk (f e : List Byte) : Bool :=
  (cnmSections f).any (fun x => x.index == numAt e 0 4 && (x.ty == 4 || x.ty == 5 || x.ty == 9) && decide (numAt e 8 8 + 8 ≤ x.size)) &&
    (numAt e 4 4 == 1 || numAt e 4 4 == 2) && decide (numAt e 0x10 4 < (cnmEntries f 11).length) && cnmZero e 0x14 4

/-- A schedule entry: a queue, reserved bytes of zero (R81, R264). -/
def cnmScheduleOk (e : List Byte) : Bool := decide (numAt e 0x0C 1 ≤ 7) && cnmZero e 0x0D 3

/-- A word of the format table: zero, or one that R39 allows (R431). -/
def cnmFormatOk (table : List Byte) : Bool :=
  (List.range 16).all (fun i => let w : Word32 := BitVec.ofNat 32 (numAt table (4 * i) 4); w == 0 || slotOk w)

/-- The signature section: the last of the file, marked in the header, verified under one of the 16 keys of the binary key
list (R86, R389). -/
def cnmSignatureOk (keys f : List Byte) (x : CnmSection) : Bool :=
  let b := x.bytes f
  let key := (keys.drop (2048 * numAt b 4 4)).take 1793
  x.offset + x.size == f.length && numAt b 0 4 == 1 && decide (1 ≤ numAt b 8 4) && decide (numAt b 8 4 ≤ 1280) &&
    cnmZero b 0x0C 4 && x.size == 0x50 + numAt b 8 4 && (b.drop 0x10).take 64 == digest (f.take x.offset) &&
    decide (numAt b 4 4 < 16) && key.any (fun k => k != 0) && Config.falconVerify key ((b.drop 0x10).take 64) (b.drop 0x50)

/-- Whether system software accepts a binary whole (R87), under its key list and a policy that may require a signature.
The checks read a node as the file holds it, before its relocations (R85). DESIGN CHOICE: log entry 117. -/
def cnmAccepted (keys : List Byte) (required : Bool) (f : List Byte) : Bool :=
  cnmHeaderOk f && (cnmSections f).all (cnmSectionOk f) &&
    (cnmGraphs f).all (fun g => (g.entries f).all (cnmNodeOk f) && cnmEdgesOk f g) &&
    (cnmEntries f 7).all (cnmPatchOk f) && (cnmEntries f 8).all (cnmPlanOk f) && (cnmEntries f 9).all cnmScheduleOk &&
    (cnmEntries f 11).all (cnmSymbolOk f) && (cnmEntries f 13).all (cnmRelocOk f) &&
    ((cnmFind f 10).isNone || cnmFormatOk (cnmBytes f 10)) &&
    (numAt f 6 2 == 1) == (cnmFind f 14).isSome &&
    (match cnmFind f 14 with
      | some x => cnmSignatureOk keys f x
      | none => !required)

/-- Writes bytes at an offset of others. -/
def writeBytes (bs : List Byte) (o : Nat) (w : List Byte) : List Byte := bs.take o ++ w ++ bs.drop (o + w.length)

/-- The value of a relocation, given where each section is loaded (R85). -/
def relocValue (f : List Byte) (loaded : Nat → Nat) (e : List Byte) : Nat :=
  let y := (cnmEntries f 11).getD (numAt e 0x10 4) []
  ((if numAt e 4 4 = 1 then loaded (numAt y 4 4) else 0) + numAt y 8 8 + numAt e 0x18 8) % 2 ^ 64

/-- The file with its relocations written (R85). -/
def relocated (f : List Byte) (loaded : Nat → Nat) : List Byte :=
  (cnmEntries f 13).foldl (fun g e =>
    match (cnmSections f)[numAt e 0 4]? with
    | some x => writeBytes g (x.offset + numAt e 8 8) (leBytes 8 (relocValue f loaded e))
    | none => g) f

/-- A launch record with a format table copied into the words FSn that it leaves zero (R431). -/
def patchSlots (table record : List Byte) : List Byte :=
  (List.range 16).foldl (fun r n =>
    if numAt r (0x80 + 4 * n) 4 = 0 then writeBytes r (0x80 + 4 * n) (leBytes 4 (numAt table (4 * n) 4)) else r) record

/-- The file with its format table applied to every launch record that a node names (R431), by the node's words before their
relocations. DESIGN CHOICE: log entry 117. -/
def formatsApplied (f : List Byte) : List Byte :=
  match cnmFind f 4, cnmFind f 10 with
  | some d, some t =>
    ((cnmGraphs f).flatMap (CnmSection.entries f)).foldl (fun g e =>
      if numAt e 0 4 = 1 then
        let o := d.offset + numAt e 8 8
        writeBytes g o (patchSlots (t.bytes f) ((g.drop o).take 256))
      else g) f
  | _, _ => f

/-- A parameter block with a patch point's bound value, or its default (R84). -/
def patchBound (e : List Byte) (bound : Option Nat) (param : List Byte) : List Byte :=
  writeBytes param (numAt e 0x0C 4) (leBytes (numAt e 4 4) (bound.getD (numAt e 0x10 8)))

/-- What becomes of a node of a graph when the nodes before it stand as they do (R83). -/
inductive NodeFate where
  | waits
  | runs
  | cancelled
deriving DecidableEq, Repr, Inhabited

/-- The fate of a node, given the status of each node that has ended: it waits for every edge, is cancelled by a failure on
an edge that wants OK, and runs otherwise (R83). -/
def nodeFate (arrows : List (Nat × Nat × Bool)) (ended : List (Nat × Word16)) (n : Nat) : NodeFate :=
  let into := arrows.filter (fun a => a.2.1 == n)
  let status := fun (a : Nat × Nat × Bool) => (ended.find? (fun e => e.1 == a.1)).map (·.2)
  if into.any (fun a => !a.2.2 && (status a).any (fun st => st != stOK)) then .cancelled
  else if into.all (fun a => (status a).isSome) then .runs
  else .waits

end Sys2Proof.Machine
end

