-- ==== Sys2Proof/Tests/Slice0.lean ====
section
/-! SUPPORT. Checks of the model on small cases from the spec's worked examples and encodings; the ill-formed terms that
`Instr.wf` refuses; and, for the hypotheses of each statement, states and operands that meet them. -/

namespace Sys2Proof.Tests

open Sys2Proof.Machine Sys2Proof.Claims

set_option Elab.async false

/-- Control core 0 of a booted package, at its first instruction in system mode, its page tables off. -/
def ctlS : State := { loadScalar 0 State.reset with cur := .ctl 0 0, agenda := [] }

/-- Control memory that holds bytes at ascending offsets. -/
def image (l : List (Nat × List Byte)) : Cells :=
  l.flatMap (fun e => (List.range e.2.length).filterMap (fun i => if e.2.getD i 0 = 0 then none else some ⟨e.1 + i, e.2.getD i 0⟩))

/-- Page tables at 0x100_0000: 2 MiB of control space at 0x20_0000 onto themselves, 32 MiB of tensor space onto HBM. -/
def pageTables : List (Nat × List Byte) :=
  [(0x1000000, leBytes 8 0x1020001), (0x1010000, leBytes 8 0x1030001), (0x1020000, leBytes 8 0x1021001), (0x1021008, leBytes 8 0x4001F),
   (0x1030000, leBytes 8 0x1031001), (0x1031000, leBytes 8 0x2000000001F)]

/-- Muniment tables with one cluster of eight cores and four channels in service. -/
def oneCluster : Muniment := { Muniment.healthy with cores := List.replicate 8 1, chans := List.range 4 }

/-- A state whose memory holds the page tables and, below them, bytes at ascending offsets, one cluster in service. -/
def withBytes (l : List (Nat × List Byte)) (s : State) : State :=
  mapPkg 0 (fun p => { p with muniment := oneCluster }) { s with mem := image (l ++ pageTables), stale := [] }

/-- A group on core 0 in user mode, one segment running with all its lanes; pages mapped. -/
def grpS : State := { withBytes [] (loadLane 0 State.reset) with cur := .group 0 0 0, agenda := [] }

/-- The scalar stream of the running agent changed. -/
def withSelf (f : Stream → Stream) (s : State) : State := s.setStream s.cur (f (s.stream s.cur))

/-- A register of the running agent set. -/
def withReg (r : SReg) (v : Word64) (s : State) : State := withSelf (fun x => { x with s := Vec.set x.s r.toNat v }) s

/-- The running agent in system mode. -/
def inHandler (s : State) : State := withSelf (fun x => { x with mode := x.mode ||| 1 }) s

/-- An MCC in user mode with a gang of one block on core 0. -/
def mccS : State :=
  let s := mapPkg 0 bootedPackage { State.reset with nextId := 2, cur := .mcc 0 0, agenda := [] }
  let l := { loadLaunch with mcode := 0x200000 }
  let s := (s.setLaunch 0 l).setBlock 1 (blockAtPlacement l 0 0 (0, 0) [.group 0 0 0] 0 [])
  let s := s.setMcc (0, 0) { Mcc.reset with launch := some 0, gang := [(0, 1)], ptbase := 0x1000000 }
  (withBytes [] s).setStream (.mcc 0 0) { Stream.reset with mode := 0, run := .running, spc := 0x200000 }

/-- A result that succeeds with a value of which a test holds. -/
def okAnd {α : Type} (x : Except Stop α) (q : α → Bool) : Bool := match x with | .ok a => q a | .error _ => false

/-- A result that ends in a trap. -/
def trapsAs {α : Type} (x : Except Stop α) (q : Trap → Bool) : Bool := match x with | .error (.trap t) => q t | _ => false

theorem ok_of {α : Type} {x : Except Stop α} {q : α → Bool} (h : okAnd x q = true) : ∃ a, x = .ok a ∧ q a = true := by
  cases x with
  | ok a => exact ⟨a, rfl, h⟩
  | error e => exact absurd h (by simp [okAnd])

theorem trap_of {α : Type} {x : Except Stop α} {q : Trap → Bool} (h : trapsAs x q = true) : ∃ t, x = .error (.trap t) ∧ q t = true := by
  cases x with
  | ok a => exact absurd h (by simp [trapsAs])
  | error e => cases e with
    | trap t => exact ⟨t, rfl, h⟩
    | _ => exact absurd h (by simp [trapsAs])

/-- `Canonical`, computed. -/
def canonicalB (s : State) : Bool :=
  s.mem.wf && s.blocks.all (fun e => e.2.scratch.wf && e.2.acc.wf) && s.past.all (fun e => e.2.scratch.wf && e.2.acc.wf) && s.cores.all (fun e => e.2.wbuf.wf)

theorem canonical_of {s : State} (h : canonicalB s = true) : Canonical s := by
  simp only [canonicalB, Bool.and_eq_true, List.all_eq_true] at h
  exact ⟨h.1.1.1, fun e he => h.1.1.2 e he, fun e he => h.1.2 e he, fun e he => h.2 e he⟩

/-- The group with ordered stores. -/
def grpOrd : State := withSelf (fun x => { x with mode := 2 }) grpS

/-- Register forms (R92), shift forms and branches: unassigned function values, reserved bits, both ends of a field. -/
theorem witness_arithmetic :
    (0x0C : BitVec 8).toNat ∉ aluFuncs ∧ (0xFF : BitVec 8).toNat ∉ aluFuncs ∧ (0x30 ≤ (0x30 : BitVec 8).toNat ∧ (1 : SReg) ≠ 0) ∧
    (1 : BitVec 8) ≠ 0 ∧
    (60 : BitVec 6).toNat + ((3 : BitVec 6).toNat + 1) ≤ 64 ∧ (0 : BitVec 6).toNat + ((63 : BitVec 6).toNat + 1) ≤ 64 ∧
    64 < (61 : BitVec 6).toNat + ((3 : BitVec 6).toNat + 1) := by decide +kernel

/-- Branch targets (R95 to R98): reached, one past control space too, misaligned, of another package, in the scratch window. -/
theorem witness_targets :
    Reaches ctlS 0x1000 ∧ Reaches ctlS 0x4000000000000000 ∧ TargetTrap ctlS 2 .illegal 0 0 ∧
    TargetTrap ctlS 0x4020000000000000 .remote 0 0x4020000000000000 ∧ TargetTrap ctlS 0x8000000000000000 .translation 1 0x8000000000000000 ∧
    Reaches ctlS 0x10000000000000 := by
  unfold Reaches TargetTrap
  and_intros <;> decide +kernel

/-- Both outcomes of a branch and of `LOOP` (R95, R96). -/
theorem witness_conditions :
    (reg ctlS 0 == reg ctlS 0) = true ∧ (reg ctlS 0 != reg ctlS 0) = false ∧
    reg ctlS 0 - 1 ≠ reg ctlS 1 ∧ reg (withReg 1 1 ctlS) 1 - 1 = reg (withReg 1 1 ctlS) 0 := by decide +kernel

/-- Loads (R99, R101): a place, a trap, LD full, a scratch line that is empty. -/
theorem witness_loads :
    (∃ p, place grpS (selfCtx grpS) {} 0x200078 8 = .ok p ∧ (decide ((self grpS).ld < 63) && lineFull grpS (selfCtx grpS) p.loc) = true) ∧
    (∃ x, place grpS (selfCtx grpS) {} 0x20007C 8 = .error (.trap x) ∧ (x.cls == .bound && x.detail == 1) = true) ∧
    (∃ x, place grpS (selfCtx grpS) {} 0xC000000000000000 8 = .error (.trap x) ∧ (x.cls == .translation && x.detail == 1) = true) ∧
    63 ≤ (self (withSelf (fun x => { x with ld := 63 }) grpS)).ld ∧
    (let s := grpS.setBlock 1 { grpS.block 1 with empty := [0] }
     ∃ p, place s (selfCtx s) {} 0x8000000000000000 8 = .ok p ∧ (!lineFull s (selfCtx s) p.loc) = true) :=
  ⟨ok_of (by decide +kernel), trap_of (by decide +kernel), trap_of (by decide +kernel), by decide +kernel, ok_of (by decide +kernel)⟩

/-- Stores (R101, R103): at once, into the buffer within QL, and ST full. -/
theorem witness_stores :
    Canonical grpS ∧ Canonical grpOrd ∧
    (∃ p, place grpS (selfCtx grpS) { write := true } 0x200078 8 = .ok p ∧ (decide ((self grpS).st < 63) && !buffered grpS grpS.cur 0x200078) = true) ∧
    (∃ p, place grpOrd (selfCtx grpOrd) { write := true } 0x4000000000000078 8 = .ok p ∧
      (buffered grpOrd grpOrd.cur 0x4000000000000078 &&
        decide (qbufLines (seqAll (qbufPut false 0x4000000000000078) (putsAt p.mat p.loc (leBytes 8 1)) (selfGroup grpOrd).qbuf) ≤ qlGroup grpOrd grpOrd.cur)) = true) ∧
    (∃ x, place grpS (selfCtx grpS) { write := true } 0xC000000000000000 8 = .error (.trap x) ∧ (x.cls == .translation) = true) ∧
    63 ≤ (self (withSelf (fun x => { x with st := 63 }) grpS)).st :=
  ⟨canonical_of (by decide +kernel), canonical_of (by decide +kernel), ok_of (by decide +kernel), ok_of (by decide +kernel), trap_of (by decide +kernel), by decide +kernel⟩

/-- System registers (R114 to R116): both modes, legal and illegal values. -/
theorem witness_system_registers :
    sysMode ctlS ctlS.cur = true ∧ sysMode grpS grpS.cur = false ∧ sysMode (inHandler grpS) grpS.cur = true ∧ isCtl ctlS.cur = true ∧ isCtl mccS.cur = false ∧
    readable 1 ∧ ¬readable 0x0F ∧ ¬readable 0x50 ∧ privateRead 0x17 ∧ writable 0x0E ∧ ¬writable 1 ∧
    controlBase 0x8000 0x8000 ∧ ¬controlBase 0x8000 0x4000 ∧ controlBase 0x200000 0 ∧ ¬controlBase 0x200000 0x10000000000000 ∧
    PtbaseLegal 0 0x1000000 ∧ ¬PtbaseLegal 0 0x1000 ∧ ¬PtbaseLegal 1 0x1000000 ∧
    ((2 : Word64).extractLsb' 2 6 = 0 ∧ (3 : Word64).getLsbD 0 = true) ∧ slotOk 0xA1838000 = true := by
  unfold readable privateRead writable controlBase PtbaseLegal; decide +kernel

/-- Trap entry (R341 to R349): the record's place, a split for a lane trap, system mode in a group and an MCC. -/
theorem witness_traps :
    Canonical grpS ∧ isCtl grpS.cur = false ∧ sysMode grpS grpS.cur = false ∧
    (∃ p, areaPlace grpS grpS.cur true (recordBase grpS grpS.cur) = .ok p ∧
      (match p.loc with | .phys k => (List.range 512).all (fun i => !goHeld grpS (k + i)) | _ => false) = true) ∧
    (lowestSplit (selfGroup grpS)).isSome = true ∧
    sysMode (inHandler grpS) grpS.cur = true ∧ sysMode (inHandler mccS) mccS.cur = true ∧
    (Table.find? mccS.blocks 1).isSome = true :=
  ⟨canonical_of (by decide +kernel), by decide +kernel, by decide +kernel, ok_of (by decide +kernel), by decide +kernel, by decide +kernel, by decide +kernel, by decide +kernel⟩

/-- `TRET` (R348) of a group: system mode, an aligned TRAPPC, a record without a saved lane stream; and a misaligned TRAPPC. -/
theorem witness_tret :
    let s := inHandler grpS
    Canonical s ∧ sysMode s s.cur = true ∧ (self s).trappc.toNat % 4 = 0 ∧ isCtl s.cur = false ∧
    (∃ p, areaPlace s s.cur true (recordBase s s.cur) = .ok p ∧
      (match p.loc with | .phys k => !goHeld s (k + 4) && recordField s p.mat k 4 1 / 2 % 2 == 0 | _ => false) = true) ∧
    (self (withSelf (fun x => { x with trappc := 2 }) s)).trappc.toNat % 4 ≠ 0 ∧ isCtl ctlS.cur = true :=
  ⟨canonical_of (by decide +kernel), by decide +kernel, by decide +kernel, by decide +kernel, ok_of (by decide +kernel), by decide +kernel, by decide +kernel⟩

/-- A group in its handler for a trap of the lane stream: the record's split, its LPC, a repeat counter of 9 and s60 (R346). -/
def laneRecord (id lpc : Nat) : State :=
  inHandler { withBytes [(0x208004, leBytes 1 7), (0x208018, leBytes 8 lpc), (0x208024, leBytes 2 (id + 256 * 9)), (0x208040, leBytes 8 77)]
    (loadLane 0 State.reset) with cur := .group 0 0 0, agenda := [] }

/-- `TRET` (R348): a record of a live split, one of a free split, one whose LPC is no multiple of 12. -/
theorem witness_tret_lane :
    (∃ p, areaPlace (laneRecord 0 24) (laneRecord 0 24).cur true (recordBase (laneRecord 0 24) (laneRecord 0 24).cur) = .ok p ∧
      (p.loc == .phys 0x208000 && !goHeld (laneRecord 0 24) 0x208004 && (badAt (laneRecord 0 24) (selfCtx (laneRecord 0 24)) p.loc 0x60).isNone &&
        recordAt (laneRecord 0 24) p 0x208000 4 1 == 7 && recordAt (laneRecord 0 24) p 0x208000 0x18 8 == 24 &&
        recordAt (laneRecord 0 24) p 0x208000 0x24 1 == 0) = true) ∧
    (Vec.get (selfGroup (laneRecord 0 24)).splits 0).isSome = true ∧ Vec.get (selfGroup (laneRecord 1 24)).splits 1 = none ∧ (25 : Nat) % 12 ≠ 0 ∧
    Canonical (laneRecord 0 24) :=
  ⟨ok_of (by decide +kernel), by decide +kernel, by decide +kernel, by decide, canonical_of (by decide +kernel)⟩

/-- A group with no segment queued and nothing outstanding. -/
def idle : State := grpS.setGroup grpS.cur { selfGroup grpS with segq := [], inSeg := false, splits := Vector.replicate 4 none }

/-- `HALT`, `WAIT`, `WAITY` (R112, R113, R118): each kind of stream, met and unmet conditions. -/
theorem witness_waits :
    (isGroup idle.cur = true ∧ sysMode idle idle.cur = false ∧ (selfGroup idle).segq = [] ∧ (self idle).ld = 0 ∧ (self idle).st = 0 ∧
      (self idle).cp = 0 ∧ (self idle).tl = 0 ∧ (Table.find? idle.blocks (selfGroup idle).block).isSome = true) ∧
    (selfGroup grpS).segq ≠ [] ∧ (isMcc mccS.cur = true ∧ sysMode mccS mccS.cur = false ∧ (self mccS).tl = 0) ∧
    (self (withSelf (fun x => { x with tl := 1 }) mccS)).tl ≠ 0 ∧ isCtl ctlS.cur = true ∧
    sysMode (withSelf (fun x => { x with mode := 0 }) ctlS) ctlS.cur = false ∧
    ((self idle).ld ≤ (0 : BitVec 6).toNat ∧ (self idle).st ≤ (0 : BitVec 6).toNat ∧ (self idle).cp ≤ (0 : BitVec 5).toNat ∧ (self idle).tl ≤ (0 : BitVec 5).toNat) ∧
    ¬(self (withSelf (fun x => { x with ld := 63 }) idle)).ld ≤ (62 : BitVec 6).toNat := by decide +kernel

/-- Queues and segments (R104 to R111): a staged descriptor, a first and a second stream, a segment ready to begin. -/
theorem witness_queues :
    let d : AaeDesc := { (Vec.get (selfGroup idle).queues 0).staged with base := some 0x200000, ty := 1 }
    let s := idle.setGroup idle.cur { selfGroup idle with queues := Vec.set (selfGroup idle).queues 0 { Vec.get (selfGroup idle).queues 0 with staged := d } }
    let t := grpS.setGroup grpS.cur { selfGroup grpS with inSeg := false }
    UserGroup idle ∧ ¬UserGroup ctlS ∧ (0 : BitVec 3) ≠ 7 ∧ Staged 0 0x200000 1 (Vec.get (selfGroup idle).queues 0).staged d ∧
    (∀ q', ¬Staged 0 0x200000 0 d q') ∧ (Vec.get (selfGroup idle).queues 0).staged.base = none ∧
    ((Vec.get (selfGroup s).queues 0).staged.base.isSome = true ∧ (Vec.get (selfGroup s).queues 0).staged.handle = 0 ∧ (Vec.get (selfGroup s).queues 0).running = none) ∧
    ((t.group t.cur).segq ≠ [] ∧ (t.group t.cur).inSeg = false ∧ isGroup t.cur = true ∧ sysMode t t.cur = false) ∧ (selfGroup idle).segq.length < 4 := by
  refine ⟨?_, ?_, by decide, ?_, ?_, ?_⟩
  · unfold UserGroup; decide +kernel
  · unfold UserGroup; decide +kernel
  · exact .inl ⟨rfl, .inl (by decide), rfl⟩
  · rintro q' (⟨-, h, -⟩ | ⟨h, -⟩ | ⟨h, -⟩ | ⟨h, -⟩)
    · revert h; decide
    · omega
    · omega
    · omega
  · decide +kernel

/-- A group whose queue 0 has a running stream of 40 FP32 elements of control space, one entry already read. -/
def pushing : State :=
  let q := Vec.get (selfGroup idle).queues 0
  let d : AaeDesc := { q.staged with base := some 0x200000, ty := 1, dims := Vec.set q.staged.dims 0 (4, 40) }
  idle.setGroup idle.cur { selfGroup idle with queues := Vec.set (selfGroup idle).queues 0 { q with staged := d, running := some ⟨d, 1, 0, 0, none, 0, none⟩ } }

/-- Engine pushes (R107 to R109): a stream with elements left, no stall, no fault; and a stream whose base faults. -/
theorem witness_engine :
    let q := Vec.get (pushing.group pushing.cur).queues 0
    let c : Ctx := { ctxOf pushing pushing.cur with user := true }
    q.running.isSome = true ∧ q.entries.length < 8 ∧
    (match q.running with
      | some x => passLen x.desc == 40 && !pushStalls pushing c x.desc (planPush x).take && (planPush x).bad.isNone &&
          (pushFault pushing c x.desc (planPush x).take).isNone &&
          okAnd (pushWords pushing c x.desc (planPush x).take) (fun ws => ws.length == 32) &&
          (pushFault pushing c { x.desc with base := some 0x8000000 } (planPush x).take).isSome
      | none => false) = true := by decide +kernel

/-- The group with two bytes in its quantum buffer. -/
def buffering : State :=
  let q : QBuf := { (selfGroup idle).qbuf with bytes := ((seqAll (qbufPut false 0x200000) (putsAt default (.phys 0x200000) [1, 2]) (selfGroup idle).qbuf)).bytes }
  idle.setGroup idle.cur { selfGroup idle with qbuf := q }

/-- Fences and commits (R163, R164): drained or not, writes outstanding or not, a buffer to commit. -/
theorem witness_fences :
    Drained idle ∧ ¬Drained grpS ∧ (self (commitOwn idle.cur idle)).uw = 0 ∧ (self (commitOwn buffering.cur buffering)).uw ≠ 0 ∧
    6 ≤ (6 : BitVec 3).toNat ∧ Canonical buffering ∧ (selfGroup buffering).qbuf ≠ ⟨[], []⟩ ∧ (selfGroup buffering).qbuf.partials = [] ∧
    PlainBuffer default (selfGroup buffering).qbuf ∧ (selfGroup buffering).qbuf.bytes.length = 2 ∧ buffering.bad = [] := by
  refine ⟨by unfold Drained; decide +kernel, by unfold Drained; decide +kernel, by decide +kernel, by decide +kernel, by decide,
    canonical_of (by decide +kernel), by decide +kernel, by decide +kernel, ?_, by decide +kernel, by decide +kernel⟩
  unfold PlainBuffer; decide +kernel

/-- The group's block with two barriers and two groups. -/
def barS : State := idle.setBlock 3 { idle.block (selfGroup idle).block with nbar := 2, groups := [.group 0 0 0, .group 0 0 1] }
def barring : State := barS.setGroup barS.cur { selfGroup barS with block := 3 }
def waiting : State :=
  let s := barring.setBlock 3 { barring.block 3 with bars := [(1, ⟨none, [], 1⟩)] }
  s.setGroup s.cur { selfGroup s with arrived := [(1, 0)] }

/-- Barriers (R165, R166): a first arrival of two and a last of one, a participant count too high, a wait for a completed phase. -/
theorem witness_barriers :
    BarrierOk 1 2 barring ∧ BarrierOk 1 1 barring ∧ Phase (theBarrier barring 3 1) 2 [] ∧ Phase (theBarrier barring 3 1) 1 [] ∧
    (selfGroup barring).gidx ∉ ([] : List Nat) ∧ ([] : List Nat).length + 1 ≠ 2 ∧ (barring.block (selfGroup barring).block).groups.length < 3 ∧
    (barring.block (selfGroup barring).block).nbar ≤ (2 : BitVec 6).toNat ∧
    BarrierOk 1 2 waiting ∧ (self waiting).half = none ∧ Table.find? (selfGroup waiting).arrived 1 = some 0 ∧ 0 < (theBarrier waiting (selfGroup waiting).block 1).phase := by
  refine ⟨by unfold BarrierOk; decide +kernel, by unfold BarrierOk; decide +kernel, by unfold Phase; decide +kernel, by unfold Phase; decide +kernel, ?_⟩
  refine ⟨by decide, by decide, by decide +kernel, by decide +kernel, by unfold BarrierOk; decide +kernel, ?_⟩
  decide +kernel

/-- A phaser of die 0 of package 0, with the running group a member that signals and waits, one phase completed. -/
def phased : State :=
  let m : Member := ⟨idle.cur, memberBlock idle, true, true, 1, 0⟩
  setPhaser ⟨0, 5, 7⟩ ⟨7, true, false, 1, 0, some (0, 9), [m], false, none⟩ idle
def handle5 : Word64 := 0x5007
def joined : State := withReg 1 handle5 phased

/-- Phasers (R167 to R169): a free one, a live handle, a stale and a null one, a member, a lost package. -/
theorem witness_phasers :
    (freePhaser idle (agentPkg idle.cur) (agentDie idle.cur)).isSome = true ∧ HandleOk joined (reg joined 1) ∧
    ¬HandleLost joined (reg joined 1) ∧ (memberOf joined (handleOf joined (reg joined 1))).isSome = true ∧
    ¬HandleOk joined 0x5008 ∧ ¬HandleOk joined 0 ∧ memberOf (withReg 1 handle5 (setPhaser ⟨0, 5, 7⟩ ⟨7, true, false, 0, 0, none, [], false, none⟩ idle)) ⟨0, 5, 7⟩ = none ∧
    Drained joined ∧ (self (commitOwn joined.cur joined)).uw = 0 ∧ (phaserAt joined (handleOf joined (reg joined 1))).newest = some (0, 9) ∧
    HandleLost (mapPkg 0 (fun p => { p with lost := [1] }) joined) 0x4005007 := by
  refine ⟨by decide +kernel, by unfold HandleOk; decide +kernel, by unfold HandleLost; decide +kernel, by decide +kernel, ?_⟩
  refine ⟨by unfold HandleOk; decide +kernel, by unfold HandleOk; decide +kernel, by decide +kernel, by unfold Drained; decide +kernel, ?_⟩
  refine ⟨by decide +kernel, by decide +kernel, by unfold HandleLost; decide +kernel⟩

/-- Atomics, reductions and max reads (R151 to R160): well-formed words, their place, room; a misaligned address; a release that
waits for the buffer. -/
def atomW : LongWord := ⟨4, 5, 6, 0, 0, 1, 0, 0, 11, 0⟩
theorem witness_atomics :
    let s := withReg 5 0x200040 idle
    Canonical s ∧ (Instr.atomShort 4 5 6 0 3).wf = true ∧ (Instr.atomLong { atomW with aux := 0x0C }).wf = true ∧ (Instr.redScalar { atomW with d := 0 }).wf = true ∧
    (Instr.redScalar { atomW with d := 0, ty := 3 }).wf = true ∧ (Instr.amaxrdScalar { atomW with scope := 0, b := 0, ty := 1 }).wf = true ∧
    (∃ p, atomPlace s (selfCtx s) 12 (reg s 5) 8 = .ok p ∧ (decide ((self s).st < 63) && lineFull s (selfCtx s) p.loc) = true) ∧
    (∃ x, atomPlace s (selfCtx s) 12 0x200044 8 = .error (.trap x) ∧ (x.detail == 0x11) = true) ∧
    (self (commitOwn s.cur s)).uw = 0 ∧ (self (commitOwn buffering.cur buffering)).uw ≠ 0 ∧
    (∃ p, redPlace s (selfCtx s) .add 3 0x4000000000000040 = .ok p ∧ (match p.loc with | .phys _ => decide ((self s).st < 63) | _ => false) = true) :=
  ⟨canonical_of (by decide +kernel), by decide +kernel, by decide +kernel, by decide +kernel, by decide +kernel, by decide +kernel,
    ok_of (by decide +kernel), trap_of (by decide +kernel), by decide +kernel, by decide +kernel, ok_of (by decide +kernel)⟩

/-- A trough counter of 100 iterations in chunks of 8 for 4 consumers, and a completion counter of 3 (R161, R179). -/
def counters : State :=
  withBytes [(0x200100, leBytes 8 100 ++ leBytes 8 0 ++ leBytes 4 4 ++ leBytes 4 8 ++ leBytes 1 2 ++ leBytes 7 0 ++ leBytes 8 3)] (withReg 5 0x200100 (withReg 6 0x200120 idle))

theorem witness_counters :
    Canonical counters ∧
    (∃ p, place counters (selfCtx counters) { write := true } (reg counters 5) 32 = .ok p ∧
      (match p.loc with
        | .phys k => (reg counters 5).toNat % 32 == 0 && decide ((self counters).ld < 63) && (List.range 32).all (fun i => !goHeld counters (k + i)) &&
            leNat (readRange counters p.mat (k + 0x18) 1) == 2 && leNat (readRange counters p.mat (k + 0x19) 7) == 0
        | _ => false) = true) ∧
    (∃ p, translate counters (selfCtx counters) {} (reg counters 6) (.control (reg counters 6).toNat) = .ok p ∧
      ((reg counters 6).toNat % 8 == 0 && leNat (readPlace counters (selfCtx counters) p 8) == 3) = true) ∧
    (0x200121 : Word64).toNat % 8 ≠ 0 ∧ (0x4000000000000000 : Word64).extractLsb' 62 2 = 1 :=
  ⟨canonical_of (by decide +kernel), ok_of (by decide +kernel), ok_of (by decide +kernel), by decide, by decide⟩

/-- `n` bytes with numbers at offsets: (offset, length, value). -/
def table (n : Nat) (fs : List (Nat × Nat × Nat)) : List Byte :=
  (List.range n).map (fun i => match fs.find? (fun f => decide (f.1 ≤ i) && decide (i < f.1 + f.2.1)) with
    | some f => BitVec.ofNat 8 (f.2.2 / 256 ^ (i - f.1))
    | none => 0)

/-- A step fetches its word: an issuing control core, nothing outstanding (R88, R98). -/
theorem witness_step :
    let s : State := { loadScalar 0x04518700 State.reset with choice := 5, mem := image [(0x200000, leBytes 4 0x04518700)] }
    let c := { beginTurn s with cur := Agent.ctl 0 0 }
    nextTurn s = .issue (.ctl 0 0) ∧ mayIssue c (.ctl 0 0) = true ∧ (spaceOf (c.stream (.ctl 0 0)).spc = some (.control 0x200000)) ∧
    (∃ p, place c (ctxOf c (.ctl 0 0)) { fetch := true } (c.stream (.ctl 0 0)).spc 4 = .ok p ∧
      ((badAt c (ctxOf c (.ctl 0 0)) p.loc 4).isNone && readPlace (foldAt p.loc c) (ctxOf c (.ctl 0 0)) p 4 == [0x00, 0x87, 0x51, 0x04]) = true) ∧
    ¬hasSecond 0x04518700 ∧ hasSecond 0xCC000000 ∧ Unhindered c (.ctl 0 0) (.add 5 6 7) :=
  ⟨by decide +kernel, by decide +kernel, by decide +kernel, ok_of (by decide +kernel), by unfold hasSecond; decide, by unfold hasSecond; decide,
    by unfold Unhindered; decide +kernel⟩

/-- The lane turn's premises, and the two kinds of lane word (R70, R121). -/
theorem witness_lane_step :
    let s : State := { withBytes [(0x200000, leBytes 12 0x0100400C04010400)] (loadLane 0x0100400C04010400 State.reset) with choice := 5 }
    let ag := Agent.group 0 0 0
    let c := { beginTurn s with cur := ag }
    nextTurn s = .lane ag ∧ mayIssue c ag = true ∧ sysMode c ag = false ∧ (c.group ag).inSeg = true ∧ (lowestSplit (c.group ag)).isSome = true ∧
    (∃ p, place c (ctxOf c ag) { fetch := true } (laneBase c ag) 4 = .ok p ∧ (badAt c (ctxOf c ag) p.loc 4).isNone = true) ∧
    ¬repWord 0x0100400C04010400 ∧ repWord (0x3FE <<< 54) ∧
    (match lowestSplit (c.group ag) with
      | some (id, sp) => decide (laneCheck c ag id sp .nop = laneCheck c ag id sp .nop)
      | none => false) = true :=
  ⟨by decide +kernel, by decide +kernel, by decide +kernel, by decide +kernel, by decide +kernel, ok_of (by decide +kernel),
    by unfold repWord; decide, by unfold repWord; decide, by decide +kernel⟩

/-- Events that may happen, and an instruction that is no event. -/
theorem witness_event_turn :
    eventMay ctlS .nop = false ∧ eventMay ctlS (.loadDataReturn (.ctl 0 0) 0) = true ∧ eventMay State.reset (.powerOnReset 0) = true := by decide +kernel

/-- A record of two segments with bounds 0, 3, 8 at 0x20_0200, a grid descriptor of one level at 0x20_0400 with a point at
0x20_0500, and a copy and a collective descriptor (R213, R233, R255, R268). -/
def copyBytes : List Byte := table 64 [(0, 8, 0x200700), (8, 8, 0x4000000000000000), (0x10, 8, 16), (0x18, 8, 16), (0x20, 4, 4), (0x24, 4, 1), (0x28, 1, 1), (0x29, 1, 1)]
def collBytes : List Byte := table 64 [(0, 8, 0x4000000000000000), (8, 8, 0x4000000000001000), (0x10, 4, 4), (0x14, 2, 1), (0x18, 8, 0x200680), (0x20, 4, 1)]
def recordBytes : List Byte :=
  table 192 [(0, 8, 0x4000000000000000), (8, 1, 1), (9, 1, 1), (0x14, 4, 2), (0x18, 8, 0x200300), (0x20, 4, 8), (0x38, 8, 4), (0x68, 2, 4)]
def gridBytes : List Byte :=
  table 192 [(0, 8, 0x4000000000000000), (8, 1, 1), (9, 1, 1), (10, 1, 4), (11, 1, 1), (12, 1, 1), (0x40, 4, 4)]
def recS : State := withBytes [(0x200200, recordBytes), (0x200300, table 12 [(4, 4, 3), (8, 4, 8)])] idle
def gridS : State := withBytes [(0x200400, gridBytes), (0x200500, leBytes 4 2)] idle
def copyS : State := withBytes [(0x200600, copyBytes)] idle
def collS : State := withBytes [(0x200640, collBytes)] idle

/-- Stages, yields and flushes (R170, R218, R266). -/
theorem witness_stages :
    (isGroup idle.cur = true ∧ (Table.find? idle.blocks (selfGroup idle).block).isSome = true ∧ (idle.block (selfGroup idle).block).sched = []) ∧
    ((mccS.mcc (0, 0)).gang = [(0, 1)] ∧ (Table.find? mccS.blocks 1).isSome = true ∧ (mccS.block 1).sched = []) ∧
    (UserGroup idle ∧ Drained idle ∧ (self idle).cp = 0) ∧ (UserGroup grpS ∧ ¬Drained grpS) ∧
    (self (withSelf (fun x => { x with cp := 1 }) idle)).cp ≠ 0 ∧ (self mccS).cp = 0 ∧
    ((self idle).uw = 0 ∧ (reg (withReg 7 0x8008 idle) 7).toNat < 2 ^ 32 ∧ reg (withReg 7 0x8008 idle) 7 ≠ 0) ∧ 2 ^ 32 ≤ (reg (withReg 7 0x100000000 idle) 7).toNat := by
  refine ⟨by decide +kernel, by decide +kernel, ⟨by unfold UserGroup; decide +kernel, by unfold Drained; decide +kernel, by decide +kernel⟩,
    ⟨by unfold UserGroup; decide +kernel, by unfold Drained; decide +kernel⟩, by decide +kernel, by decide +kernel, by decide +kernel, by decide +kernel⟩

/-- Records (R212 to R226): a snapshot, a null and a wide handle, a handle that names no record. -/
theorem witness_records :
    (∃ r, snapshotReg (selfCtx recS) 0x8008 recS = .ok r ∧ (decide ((self recS).ld < 63) && r.1.bounds == [0, 3, 8] && r.1.nseg == 2) = true) ∧
    (∃ x, snapshotReg (selfCtx recS) 0 recS = .error (.trap x) ∧ (x.cls == .ragged && x.detail == 1) = true) ∧
    (∃ x, snapshotReg (selfCtx recS) 0x8000 recS = .error (.trap x) ∧ (x.cls == .ragged && x.detail == 2) = true) ∧
    [0, 3, 8].Pairwise (· ≤ ·) ∧ 2 ^ 32 ≤ (0x100000000 : Word64).toNat ∧ isMcc mccS.cur = true ∧
    ((8 : Word64) ≠ 0 ∧ (1 : BitVec 3) ≠ 0 ∧ (8 : Word64).toNat < 2 ^ 32) :=
  ⟨ok_of (by decide +kernel), trap_of (by decide +kernel), trap_of (by decide +kernel), by decide, by decide, by decide +kernel, by decide⟩

/-- Remote items and the fence over them (R171 to R175). -/
theorem witness_remote :
    (Instr.ratom { atomW with scope := 3, aux := 0 }).wf = true ∧ (Instr.rrel { atomW with d := 0, scope := 5 }).wf = true ∧
    RemoteOk 11 0x4000000000000004 ∧ RemoteTrap 12 0x4000000000000004 .protection 0x11 ∧ RemoteTrap 12 0xC000000000000000 .translation 1 ∧
    RemoteTrap 12 8 .protection 0x16 ∧ (self idle).st < 63 ∧ Drained idle ∧ (self (commitOwn idle.cur idle)).uw = 0 ∧ (commitOwn idle.cur idle).items = [] := by
  refine ⟨by decide, by decide, by unfold RemoteOk; decide +kernel, ?_, ?_, ?_, by decide +kernel, by unfold Drained; decide +kernel, by decide +kernel, by decide +kernel⟩ <;>
    unfold RemoteTrap <;> decide +kernel

/-- A launch record at 0x20_0800 with its counter record of one block. -/
def launchBytes : List Byte :=
  table 256 [(0, 8, 0x200000), (8, 8, 0x200000), (0x20, 4, 1), (0x24, 4, 1), (0x28, 4, 1), (0x2C, 1, 1), (0x30, 4, 0x02101010), (0x48, 8, 0x200900)]
def launchS : State := withBytes [(0x200800, launchBytes), (0x200900, leBytes 8 1)] (withReg 5 0x200800 idle)
def launched : Launch := { loadLaunch with recAddr := 0x200800, partw := 0x02101010, cc := 0x200900, ctxid := 0, ptbase := 0x1000000, next := 0 }

/-- `LAUNCH` and `CANCEL` (R176, R178, R322, R323): the record reads, its launch is valid and has a block. -/
theorem witness_launch :
    isMcc launchS.cur = false ∧ Claims.controlAt 256 (reg launchS 5) ∧ ¬Claims.controlAt 256 0x200880 ∧ Drained launchS ∧ (self (commitOwn launchS.cur launchS)).uw = 0 ∧
    (launchS.pkg 0).child.items.length < 256 ∧
    (∃ bs, readVia launchS (selfCtx launchS) 256 0x200800 256 = .ok bs ∧ (bs == launchBytes) = true) ∧
    parseLaunch launchS 0 none 0x200800 (childPair launchS).1 (childPair launchS).2.1 (childPair launchS).2.2 launchBytes = launched ∧
    launchOk launched launchBytes = true ∧ launched.count = 1 ∧ launched.nsched = 0 ∧
    (∃ c, counterOf launchS launched = .ok c ∧ (field c 0 8 == 1) = true) ∧ chainCancelled launchS (launchCtx launchS launched) 4 launched.cc = false ∧
    (∃ q, place launchS (selfCtx launchS) { write := true } 0x200900 8 = .ok q ∧
      (match q.loc with
        | .phys k => ((liveLaunches launchS 0).filter (fun l => launchWithin launchS k l.2)).isEmpty && (queuedCopies launchS).isEmpty && (handedCopies launchS).isEmpty
        | _ => false) = true) :=
  ⟨by decide +kernel, by unfold Claims.controlAt; decide +kernel, by unfold Claims.controlAt; decide, by unfold Drained; decide +kernel, by decide +kernel, by decide +kernel,
    ok_of (by decide +kernel), by decide +kernel, by decide +kernel, by decide +kernel, by decide +kernel, ok_of (by decide +kernel), by decide +kernel, ok_of (by decide +kernel)⟩

/-- Copies and collectives (R255 to R270): descriptors that read and pass their checks, and the item that is made; an address off its
alignment, a descriptor that fails. -/
def cpyW : LongWord := ⟨0, 5, 0, 0, 0, 3, 0, 0, 0, 0⟩
def theCopy : CopyDesc := copyOf copyBytes
def copyItem0 : Item :=
  { freshItem copyS copyS.cur (.copy theCopy none) (selfCtx copyS) with scope := 3, owner := some (queueOwner copyS copyS.cur, 0), counted := true }
theorem witness_copies :
    (∃ p, place copyS (selfCtx copyS) {} 0x200600 64 = .ok p ∧
      ((badAt copyS (selfCtx copyS) p.loc 64).isNone && readPlace (foldAt p.loc copyS) (selfCtx copyS) p 64 == copyBytes) = true) ∧
    (∃ p, place collS (selfCtx collS) {} 0x200640 64 = .ok p ∧ (readPlace (foldAt p.loc collS) (selfCtx collS) p 64 == collBytes) = true) ∧
    copyOk 0 copyBytes = true ∧ (∃ r, copyRecord copyItem0 theCopy copyS = .ok r ∧ (r.1.isNone) = true) ∧
    (∃ u, checkPhaser 0 (isMe copyS) true theCopy.phaser copyS = .ok u ∧ true = true) ∧
    (∃ it, copyItem copyItem0 theCopy none none copyS = .ok it ∧ (!it.elems.isEmpty && it.counted) = true) ∧
    collFieldsOk 0 collBytes (collOf { cpyW with scope := 4, ty := 11 } collBytes []) = true ∧
    (∃ m, readMembers collS (selfCtx collS) 0x200680 [0] = .ok m ∧ membersOk 0 4 (collOf { cpyW with scope := 4, ty := 11 } collBytes m) = true) ∧
    Claims.controlAt 64 0x200600 ∧ ¬Claims.controlAt 64 0x200620 ∧ copyOk 0 (table 64 [(0x28, 1, 2)]) = false ∧ (self copyS).cp < 31 ∧
    (copyS.engine (queueOwner copyS copyS.cur, 0)).items.length < 32 ∧ cpyW.aux = 0 :=
  ⟨ok_of (by decide +kernel), ok_of (by decide +kernel), by decide +kernel, ok_of (by decide +kernel), ok_of (by decide +kernel), ok_of (by decide +kernel), by decide +kernel,
    ok_of (by decide +kernel), by unfold Claims.controlAt; decide, by unfold Claims.controlAt; decide, by decide +kernel, by decide +kernel, by decide +kernel, rfl⟩

/-- Control-core forms (R119, R120, R299, R300, R320): a queue with one entry to read, one closed, one that fails; legal and
illegal operands. -/
def kicked : State :=
  let s := mapPkg 0 (fun p => { p with qtab := 0x300000 }) ctlS
  withBytes [(0x300040, table 64 [(0, 8, 0x310000), (8, 4, 2), (0x18, 8, 1), (0x28, 1, 3), (0x29, 1, 1)])] s
theorem witness_control_forms :
    let bs := readRange kicked (slotMaterial kicked 0 0) (physKey 0 0 0x300040) 64
    (kicked.cur = .ctl 0 0 ∧ sysMode kicked kicked.cur = true ∧ (self kicked).uw = 0) ∧
    (field bs 0x29 1 ≠ 0 ∧ queueDescOk 0 bs = true ∧ (field bs 0x18 8 + 2 ^ 64 - field bs 0x20 8) % 2 ^ 64 ≤ field bs 8 4) ∧
    field (readRange kicked (slotMaterial kicked 0 0) (physKey 0 0 0x300000) 64) 0x29 1 = 0 ∧ queueDescOk 1 bs = false ∧
    (kicked.ctl (0, 0)).wake = false ∧ packageUp kicked 0 0 = true ∧ (kicked.pkg 0).muniment.ctls.getD 0 0 = 1 ∧
    (Instr.tlbinv ⟨0, 5, 6, 0, 0, 3, 0, 0, 0, 2⟩).wf = true ∧ (0x8000 % 0x8000 = 0 ∧ 0x8000 / 2 ^ 36 = 0 ∧ 0x8000 % 2 ^ 36 < ctlSize) ∧ isCtl grpS.cur = false := by
  refine ⟨by decide +kernel, by decide +kernel, by decide +kernel, by decide +kernel, ?_⟩
  decide +kernel

/-- `HGIX` (R249, R250): a descriptor, a level in it and one out of it, a point aligned and not. -/
theorem witness_grid_index :
    (∃ g, gridSnapshot (selfCtx gridS) 0x8010 gridS = .ok g ∧
      (g.1.levels == 1 && g.1.dims == 1 && okAnd (place g.2 (selfCtx gridS) {} 0x200500 4) (fun p => lineFull g.2 (selfCtx gridS) p.loc &&
        (badAt (foldAt p.loc g.2) (selfCtx gridS) p.loc 4).isNone && field (readOwn (foldAt p.loc g.2) (selfCtx gridS) p 4) 0 4 == 2)) = true) ∧
    (∃ x, gridSnapshot (selfCtx recS) 0x8008 recS = .error (.trap x) ∧ (x.cls == .hgrid) = true) ∧
    (self gridS).ld < 63 ∧ (0x200500 : Word64).toNat % 64 = 0 ∧ (0x200504 : Word64).toNat % 64 ≠ 0 :=
  ⟨ok_of (by decide +kernel), trap_of (by decide +kernel), by decide +kernel, by decide, by decide⟩

/-- An MCC with a descriptor pair for `MZERO` in s4 and s7 (R187, R190). -/
def tileW : TileWord := ⟨4, 0, 0, 7, 1, 0, 0, 0, 0, 0, 0, 0, 0, 0⟩
def tileS : State := withReg 4 0x101000000 mccS

/-- Tile instructions (R184 to R193): a fitting region, mask, shape and room; each thing that breaks them; a group that hands to an
MCC. -/
theorem witness_tile :
    (ShapeOk tileW 0 false ∧ ShapeOk tileW 0 true ∧ ¬ShapeOk tileW 8 true) ∧ (MaskOk tileS (0, 0) (reg tileS 4) ∧ ¬MaskOk tileS (0, 0) 0x201000000 ∧ ¬MaskOk tileS (0, 0) 0x1000000) ∧
    (AccOk tileS (reg tileS 4) (mcOf 0) (nOf 0) [1] ∧ ¬AccOk tileS 0x101FFFF80 (mcOf 0) (nOf 0) [1]) ∧ TileRoom tileS (0, 0) 1 ∧
    named tileS (0, 0) (reg tileS 4) = [1] ∧ (reg tileS 4).extractLsb' 40 24 = 0 ∧ (4 * nOf 0 ≤ 128 * ((reg tileS 4).extractLsb' 24 8).toNat) ∧
    isMcc tileS.cur = true ∧ isMcc grpS.cur = false ∧
    (let s := grpS.setLaunch (grpS.block (selfGroup grpS).block).launch { loadLaunch with mcode := 0x200000 }
     (s.launch (s.block (selfGroup s).block).launch).mcode ≠ 0) ∧ (grpS.launch (grpS.block (selfGroup grpS).block).launch).mcode = 0 := by
  refine ⟨⟨?_, ?_, ?_⟩, ⟨?_, ?_, ?_⟩, ⟨?_, ?_⟩, ?_, ?_⟩
  · unfold ShapeOk; decide
  · unfold ShapeOk; decide
  · unfold ShapeOk; decide
  · unfold MaskOk; decide +kernel
  · unfold MaskOk; decide +kernel
  · unfold MaskOk; decide +kernel
  · unfold AccOk; decide +kernel
  · unfold AccOk; decide +kernel
  · unfold TileRoom; decide +kernel
  · decide +kernel

/-- A scratch region within the block's pool and a weight descriptor (R188, R189). -/
theorem witness_tile_operands :
    ScrOk mccS (Vector.replicate 16 0) 5 0x1000000 16 16 [1] ∧ ¬ScrOk mccS (Vector.replicate 16 0) 5 0x1000040 16 16 [1] ∧
    WgtOk mccS (0, 0) (Vector.replicate 16 0) 1 5 0 16 16 [] := by
  refine ⟨by unfold ScrOk; decide +kernel, by unfold ScrOk; decide +kernel, ⟨by decide, by decide, by simp⟩⟩

/-- A queued `MZERO` with its steps to run, and one that has run them (R185, R186). -/
def queuedOp : TileOp := match mzeroOp tileW (0, 0) tileS with | .ok (op, _) => op | .error _ => default
def tileQ (op : TileOp) : State := tileS.setMcc (0, 0) { tileS.mcc (0, 0) with ops := Vec.set (tileS.mcc (0, 0)).ops 1 [op] }
theorem witness_tile_operations :
    (∃ r, mzeroOp tileW (0, 0) tileS = .ok r ∧ (r.1.instr == .mzero tileW) = true) ∧
    Vec.get ((tileQ queuedOp).mcc (0, 0)).ops 1 = [queuedOp] ∧ queuedOp.step < tileSteps queuedOp ∧ ((tileQ queuedOp).mcc (0, 0)).fenced = false ∧
    gangStops (tileQ queuedOp) (0, 0) = false ∧ stepReady (tileQ queuedOp) queuedOp = true ∧
    tileSteps queuedOp ≤ { queuedOp with step := 1000 }.step ∧ (Table.find? (tileQ queuedOp).blocks (queuedOp.blocks.getD 0 0)).isSome = true :=
  ⟨ok_of (by decide +kernel), by decide +kernel, by decide +kernel, by decide +kernel, by decide +kernel, by decide +kernel, by decide +kernel, by decide +kernel⟩

/-- A join whose count has been reached and one whose count has not (R186). -/
theorem witness_tile_joins :
    (Vec.get (mccS.mcc (0, 0)).tsc 1 - (0 : Word32)).toNat < 2 ^ 31 ∧ ¬(Vec.get (mccS.mcc (0, 0)).tsc 1 - (1 : Word32)).toNat < 2 ^ 31 ∧ (self grpS).tl < 31 ∧
    (∀ o, o ∈ (grpS.mcc (0, 0)).arriving → o.issuer ≠ grpS.cur) := by
  refine ⟨by decide +kernel, by decide +kernel, by decide +kernel, ?_⟩
  have h : (grpS.mcc (0, 0)).arriving = [] := by decide +kernel
  simp [h]

/-- Descriptors of two accumulator regions in s4 and s5 (R203 to R205). -/
def rowW : TileWord := { tileW with a := 5 }
def rowS : State := withReg 5 0x1000000 tileS

/-- The row instructions: a source in place, and one above the destination. -/
theorem witness_tile_rows :
    (ShapeOk rowW (reg rowS 7) false ∧ MaskOk rowS (0, 0) (reg rowS 4) ∧ TileRoom rowS (0, 0) 1) ∧
    (AccOk rowS (reg rowS 5) 16 16 [1] ∧ (reg rowS 5).extractLsb' 32 8 = 0 ∧ (reg rowS 4).extractLsb' 0 32 = (reg rowS 5).extractLsb' 0 32) ∧
    (AccOk rowS 0x1001000 16 16 [1] ∧ ∀ x, x < 16 → ∀ y, y < 16 → elementAt (reg rowS 4) x 0 + 64 ≤ elementAt 0x1001000 y 0) ∧
    (reg rowS 0).extractLsb' 32 32 = 0 ∧ rowW.aux.getLsbD 3 = false := by
  refine ⟨⟨?_, ?_, ?_⟩, ⟨?_, ?_⟩, ⟨?_, ?_⟩, ?_⟩
  · unfold ShapeOk; decide +kernel
  · unfold MaskOk; decide +kernel
  · unfold TileRoom; decide +kernel
  · unfold AccOk; decide +kernel
  · decide +kernel
  · unfold AccOk; decide +kernel
  · decide +kernel
  · decide +kernel

/-- Transfers between an accumulator region and tensor memory (R201, R202): limits that leave one element of 4 bytes, and the 16
elements of one block of a block-scaled page. -/
def moveW : TileWord := ⟨4, 5, 6, 7, 1, 1, 1, 0, 0, 0, 1, 0, 0, 0⟩
def moveS : State :=
  let s := withReg 7 0x20040000 (withReg 6 64 (withReg 5 0x4000000000000000 (withReg 4 0x101000000 mccS)))
  s.setLaunch 0 { s.launch 0 with fs := Vec.set (Vec.set (s.launch 0).fs 0 0xA183C000) 1 0x403F8000 }
def scaledS : State :=
  let s := withReg 7 0x200040000 moveS
  { s with mem := s.mem.writeN 0x1031000 (leBytes 8 0x0010A2000000001F) }

theorem witness_transfers :
    (TransferRegs moveW (0, 0) 8 [1] moveS ∧ memNibbles moveS (newOp (.accst moveW) moveS) 1 = 8 ∧ memNibbles moveS (newOp (.accld moveW) moveS) 1 = 8) ∧
    ((reg moveS 7).extractLsb' 18 11).toNat = 1 ∧ ((reg moveS 7).extractLsb' 29 11).toNat = 1 ∧
    (∃ p, tilePlace moveS (newOp (.accst moveW) moveS).ctx { write := true, ty := 1 } (some 1) (sideVa (transferPos moveS moveW 8 0 0) 0) (nibbleBytes 8) = .ok p ∧ true = true) ∧
    (∃ p, tilePlace moveS (newOp (.accld moveW) moveS).ctx { ty := 1 } (some 1) (sideVa (transferPos moveS moveW 8 0 0) 0) (nibbleBytes 8) = .ok p ∧ true = true) ∧
    (TransferRegs { moveW with tya := 16 } (0, 0) 2 [1] scaledS ∧ memNibbles scaledS (newOp (.tcvt { moveW with tya := 16 }) scaledS) 16 = 2) ∧
    ∃ o, elemChecks scaledS { newOp (.tcvt { moveW with tya := 16 }) scaledS with blocks := [1] } { write := true, ty := 16 } = .ok o ∧
      ((allElems o).length == 16 && (allElems o).all (fun e => (scaleKey scaledS o (memSide scaledS o 16 e)).isSome &&
          (memSide scaledS o 16 e).places.all (fun p => !scaleUnset o.ctx 16 p)) &&
        (blockElems scaledS o).all (fun x => ((blockElems scaledS o).filter (fun y => y.1 == x.1)).length == x.1.2)) = true := by
  refine ⟨⟨?_, by decide +kernel, by decide +kernel⟩, by decide +kernel, by decide +kernel, ok_of (by decide +kernel), ok_of (by decide +kernel), ⟨?_, by decide +kernel⟩,
    ok_of (by decide +kernel)⟩
  · unfold TransferRegs ShapeOk MaskOk AccOk; decide +kernel
  · unfold TransferRegs ShapeOk MaskOk AccOk; decide +kernel

/-- A load of weights from tensor memory: a dense array of 16 by 16 bytes, and an image with that array's header (R197, R199). -/
def denseW : TileWord := ⟨4, 5, 6, 7, 1, 0, 0, 0, 0, 0, 0, 5, 0, 0⟩
def denseS : State := withReg 6 16 (withReg 5 0x4000000000000000 (withReg 4 0x100000000 mccS))
def imageW : TileWord := { denseW with b := 0, c := 0 }
def imageS : State := { denseS with mem := denseS.mem ++ [⟨2 ^ 44, 16⟩, ⟨2 ^ 44 + 4, 16⟩, ⟨2 ^ 44 + 8, 5⟩, ⟨2 ^ 44 + 12, 128⟩, ⟨2 ^ 44 + 13, 1⟩] }

/-- Without earlier entries to see, a walk depends on an address by its table indices alone. -/
theorem walk_same (s : State) (c : Ctx) (va vb : Word64) (control : Bool) (h : s.stale = []) (hl : levelsOf va control = levelsOf vb control) :
    walk s c va control = walk s c vb control := by
  have go : ∀ ls t, walkFrom s c.pkg (asidOf c.ctxid) va control ls t = walkFrom s c.pkg (asidOf c.ctxid) vb control ls t := by
    intro ls
    induction ls with
    | nil => intro t; rfl
    | cons lv r ih => intro t; simp only [walkFrom, walkEntry, h, List.filter_nil, List.map_nil, if_true, ih]
  simp only [walk, hl, go]

/-- The context of the load. -/
def denseC : Ctx := { (newOp (.wloadDense denseW) denseS).ctx with limit := 2 ^ 24 }

/-- The one page of the array serves each byte of it. -/
theorem dense_places (va : Word64) (hl : levelsOf va false = levelsOf 0x4000000000000000 false)
    (h : (match decodeVa denseC va 1 with
      | .ok (.tensor _ _ _) => (pageFault denseS (newOp (.wloadDense denseW) denseS).ctx byteUse ⟨0x2000000001F, 25⟩ (va.toNat % 2 ^ 25)).isNone
      | _ => false) = true) :
    ∃ p, tilePlace denseS (newOp (.wloadDense denseW) denseS).ctx byteUse none va 1 = .ok p := by
  have hw : walk denseS (newOp (.wloadDense denseW) denseS).ctx va false = .ok ⟨0x2000000001F, 25⟩ :=
    (walk_same _ _ _ _ _ (by decide +kernel) hl).trans (by decide +kernel)
  have hi : (newOp (.wloadDense denseW) denseS).ctx.identity = false := by decide +kernel
  unfold tilePlace
  change ∃ p, (decodeVa denseC va 1 >>= _) = .ok p
  split at h
  · rename_i t p o hd
    rw [hd]
    simp only [bind, Except.bind, Sys2Proof.Machine.translate, hi, hw, Option.isNone_iff_eq_none.mp h, Bool.false_eq_true, if_false]
    exact ⟨_, rfl⟩
  · cases h

theorem witness_weight_loads :
    (LoadDesc denseS (0, 0) (reg denseS 4) ∧ ShapeOk denseW 0 true ∧ TileRoom denseS (0, 0) 1 ∧ matNibbles (selfCtx denseS).slots 5 = 2 ∧
      (∀ r, r < 16 → ∀ c, c < 16 → ∃ p, tilePlace denseS (newOp (.wloadDense denseW) denseS).ctx byteUse none
        (sideVa (nibblePos (reg denseS 5) (r * (2 * 16) + c * 2 : Nat)) 0) 1 = .ok p)) ∧
    (LoadDesc imageS (0, 0) (reg imageS 4) ∧ TileRoom imageS (0, 0) 1 ∧
      ∃ ps, checkPlaces imageS (newOp (.wloadImg imageW) imageS).ctx byteUse (rangeChunks 0x4000000000000000 3 128) [] = .ok ps ∧
        (let op := { newOp (.wloadImg imageW) imageS with blocks := [1], pages := ps }
         let b := foldKeys (rangeKeys imageS op op.va 128) imageS
         let hd := (List.range 128).map (fun i => BitVec.ofNat 8 (sourceByte b op (op.va + BitVec.ofNat 64 i)))
         hdrOk op.ctx.slots hd && hdrTotal hd == 384 && (rangeBad b op op.va 128).isNone &&
          (rangeChunks op.va 5 384).all (fun x => okAnd (tilePlace b op.ctx byteUse x.1 x.2.1 x.2.2) (fun _ => true))) = true) := by
  refine ⟨⟨?_, ?_, ?_, by decide +kernel, ?_⟩, ?_, ?_, ok_of (by decide +kernel)⟩
  · unfold LoadDesc MaskOk; decide +kernel
  · unfold ShapeOk; decide +kernel
  · unfold TileRoom; decide +kernel
  · intro r hr c hc
    have h5 : reg denseS 5 = 0x4000000000000000 := by decide +kernel
    rw [h5]
    have hp : ∀ r, r < 16 → ∀ c, c < 16 →
        let va := sideVa (nibblePos 0x4000000000000000 (r * (2 * 16) + c * 2 : Nat)) 0
        levelsOf va false = levelsOf 0x4000000000000000 false ∧ (match decodeVa denseC va 1 with
          | .ok (.tensor _ _ _) => (pageFault denseS (newOp (.wloadDense denseW) denseS).ctx byteUse ⟨0x2000000001F, 25⟩ (va.toNat % 2 ^ 25)).isNone
          | _ => false) = true := by decide +kernel
    exact dense_places _ (hp r hr c hc).1 (hp r hr c hc).2
  · unfold LoadDesc MaskOk; decide +kernel
  · unfold TileRoom; decide +kernel

/-- An MCC whose core 0 holds a weight image of 16 by 16 bytes: operands for an `MMA` and an `MMD` (R193 to R197). -/
def productS : State :=
  let s := withReg 8 0x101000000 (withReg 9 0x1004000 (withReg 10 0x1000000 (withReg 11 0x1001000 mccS)))
  s.setCore (0, 0) { s.core (0, 0) with wbuf := [⟨0, 16⟩, ⟨4, 16⟩, ⟨8, 5⟩, ⟨12, 128⟩, ⟨13, 1⟩] }

theorem witness_products :
    (ScrOk productS (selfCtx productS).slots 5 0x1000000 16 16 [1] ∧ ScrOk productS (selfCtx productS).slots 5 0x1001000 16 16 [1] ∧
      reg productS 10 = 0x1000000 ∧ reg productS 11 = 0x1001000) ∧
    (AccOk productS (reg productS 8) 16 16 [1] ∧ AccOk productS (reg productS 9) 16 16 [1] ∧ (reg productS 9).extractLsb' 32 8 = 0 ∧
      ∀ i, i < 16 → ∀ j, j < 16 → elementAt (reg productS 8) i 15 + 4 ≤ elementAt (reg productS 9) j 0) ∧
    WgtOk productS (0, 0) (selfCtx productS).slots 1 5 (reg productS 12) 16 16 [1] ∧ TileRoom productS (0, 0) 1 ∧ MaskOk productS (0, 0) (reg productS 8) := by
  refine ⟨⟨?_, ?_, by decide +kernel, by decide +kernel⟩, ⟨?_, ?_, by decide +kernel, by decide +kernel⟩, ?_, ?_, ?_⟩
  · unfold ScrOk; decide +kernel
  · unfold ScrOk; decide +kernel
  · unfold AccOk; decide +kernel
  · unfold AccOk; decide +kernel
  · unfold WgtOk; decide +kernel
  · unfold TileRoom; decide +kernel
  · unfold MaskOk; decide +kernel

/-- The group with lane 0 alone in its split. -/
def oneSplit : Split := { lpc := 0, mask := 1, m := Vector.replicate 7 0 }
def oneS : State := grpS.setGroup grpS.cur { selfGroup grpS with splits := Vec.set (Vector.replicate 4 none) 0 (some oneSplit) }
def oneE : LaneEnv := ⟨oneS.cur, 0, oneSplit, 1⟩

theorem userGroup_one : UserGroup oneS := by unfold UserGroup; decide +kernel

theorem splits_one : ∀ i, i < 4 → Vec.get (selfGroup oneS).splits i = if i = 0 then some oneSplit else none := by decide +kernel

theorem laneAt_one : LaneAt oneS 0 oneE where
  ag := rfl
  split := ⟨by decide, splits_one 0 (by decide)⟩
  lowest := by
    intro i sp hi h
    rw [splits_one i hi] at h
    by_cases h0 : i = 0
    · subst h0
      right
      exact ⟨by simp at h; rw [← h]; rfl, by decide⟩
    · simp [h0] at h
  act := by decide +kernel

theorem vn_one : selfVn oneS = 256 := by decide +kernel
theorem vawait_one : (selfGroup oneS).vawait = [] := by decide +kernel

/-- A word of mask select 0 whose register pairs lie below v255 runs. -/
theorem laneRuns_one (regs : List (BitVec 9 × Bool)) (h : ∀ x, x ∈ regs → x.2 = true → x.1.toNat < 255 ∨ 0x100 ≤ x.1.toNat) : LaneRuns oneS 0 regs oneE := by
  refine ⟨userGroup_one, laneAt_one, ?_⟩
  rintro r ⟨x, hx, h1, h2⟩
  rw [vn_one, vawait_one]
  refine ⟨?_, by simp⟩
  rcases h2 with h2 | ⟨h2, h3⟩
  · omega
  · have := h x hx h2
    omega

/-- Lane arithmetic (R122 to R133): words that run, their operands and their draw. -/
def laneW : LaneWord := ⟨0, 0, 1, 0, 0, 2, 1, 4, 0, 0⟩
theorem witness_lane_words :
    ((Instr.fadd laneW).wf = true ∧ (Instr.fadd { laneW with ty := 0, a := 2, b := 4, rm := 5 }).wf = true ∧ (Instr.iadd { laneW with ty := 7 }).wf = true ∧
      (Instr.frcp { laneW with b := 0 }).wf = true ∧ (Instr.fcmp { laneW with md := 7 }).wf = true ∧ (Instr.icmp { laneW with ty := 12, a := 2, b := 4, md := 5 }).wf = true) ∧
    ((Instr.cvt { laneW with b := 0, imm := 11 }).wf = true ∧ (Instr.pkb { laneW with ty := 0, md := 3 }).wf = true ∧ (Instr.sel { laneW with ty := 11, md := 7 }).wf = true ∧
      (Instr.mand { laneW with ty := 0, dst := 7, a := 7, b := 0 }).wf = true ∧ (Instr.shflIdx { laneW with ty := 11 }).wf = true ∧
      (Instr.vany { laneW with ty := 0, b := 0 }).wf = true ∧ (Instr.gred 0 { laneW with b := 0 }).wf = true ∧ (Instr.greds 5 { laneW with ty := 7 }).wf = true) ∧
    LaneRuns oneS 0 [(1, false), (2, false), (4, false)] oneE ∧
    (∃ r, readOps oneE (selfSlots oneS) laneW [1, 1] (selfGroup oneS) = .ok r ∧ (r.1.length == 2) = true) ∧
    Draws 0 oneS 0 oneS ∧ Draws 5 oneS (xorshift32 (converterOf oneS oneS.cur)) (setConverter (xorshift32 (converterOf oneS oneS.cur)) oneS) := by
  refine ⟨by decide, by decide, laneRuns_one _ (by decide +kernel), ok_of (by decide +kernel), ⟨fun _ => ⟨rfl, rfl⟩, fun h => absurd h (by decide)⟩, ⟨fun h => absurd rfl h, fun _ => ⟨rfl, rfl⟩⟩⟩

/-- A lane register beyond VN, and one that is awaited (R13, R122). -/
theorem witness_lane_registers :
    (∃ r, Names [(255, true)] r ∧ selfVn oneS ≤ r) ∧
    (let s := oneS.setGroup oneS.cur { selfGroup oneS with vawait := [3] }
     ∃ r, Names [(3, false)] r ∧ r < selfVn s ∧ r ∈ (selfGroup s).vawait) := by
  refine ⟨⟨256, ⟨(255, true), by simp, by decide, .inr ⟨rfl, rfl⟩⟩, ?_⟩, ⟨3, ⟨(3, false), by simp, by decide, .inl rfl⟩, ?_⟩⟩
  · rw [vn_one]
  · decide +kernel

/-- What selectors name (R17, R68): queues with a word, a poisoned entry, none; a type without a width. -/
theorem witness_selectors :
    typeBits (selfSlots oneS) 1 = some 32 ∧ typeBits (selfSlots oneS) 0 = some 64 ∧ typeBits (selfSlots oneS) 13 = none ∧
    (Vec.get (selfGroup oneS).queues 0).entries = [] ∧ (Vec.get (selfGroup oneS).queues 0).running = none ∧ (Vec.get (selfGroup oneS).queues 0).pending = none ∧
    (∃ g, readSel oneE (selfSlots oneS) 1 0 0x120 (selfGroup oneS) = .ok g ∧ (g.1 == List.replicate 32 0) = true) ∧
    (∃ x, readSel oneE (selfSlots oneS) 1 0 0x110 (selfGroup oneS) = .error (.trap x) ∧ (x.cls == .sync && x.detail == 2) = true) :=
  ⟨by decide +kernel, by decide +kernel, by decide +kernel, by decide +kernel, by decide +kernel, by decide +kernel, ok_of (by decide +kernel), trap_of (by decide +kernel)⟩

/-- Splits (R134 to R138): a running split, no record parked, no error outstanding. -/
theorem witness_splits :
    UserGroup oneS ∧ LaneAt oneS 0 oneE ∧ (selfGroup oneS).parked = [] ∧ (self oneS).deferred = [] ∧ (self oneS).loads = [] ∧
    (oneSplit.mask &&& maskOf oneSplit 1 = 0) ∧ oneSplit.mask &&& ~~~(maskOf oneSplit 1) ≠ 0 ∧ Vec.get (selfGroup oneS).splits 1 = none := by
  refine ⟨userGroup_one, laneAt_one, by decide +kernel, by decide +kernel, by decide +kernel, by decide, by decide, by decide +kernel⟩

/-- A lane access of one lane to 0x20_0000 (R141 to R150): its word, its place, its registers. -/
def accessW : LaneWord := ⟨0x200000, 0, 1, 0, 0, 0, 0x100, 4, 0, 0⟩
def accessRef (p : Place) : LaneRef := { lane := 0, va := 0x200000, odd := false, place := p }
theorem refs_one (find : Finder) (p : Place) (w : LaneWord) (ht : w.ty = 1) (hi : w.imm = 0x200000) (ha : w.a = 0x100) (hm : w.md = 0)
    (hf : find none 0x200000 = .ok p) : LaneRefsAre oneS w oneE find [accessRef p] := by
  have h0 : laneSource (selfGroup oneS) 0x200000 0x100 0 = 0 := by decide +kernel
  have h1 : laneSource (selfGroup oneS) 0x200000 (0x100 + 1) 0 = 0 := by decide +kernel
  have hp : nibblePos (selfGroup oneS) w 8 0 = 0x400000 := by
    unfold Claims.nibblePos
    rw [hi, ha, hm, h0, h1]
    exact (by decide : BitVec.ofInt 65 (2 * (((0 : Word32) ++ (0 : Word32)).toNat + (0x200000 : Word32).toInt) + 0 * (2 : Nat)) = 0x400000)
  refine ⟨(by decide +kernel : [0] = (List.range 32).filter (fun l => oneE.act.getLsbD l)), ?_⟩
  intro r hr
  simp only [List.mem_singleton] at hr
  subst hr
  refine ⟨8, ?_, ?_, ?_, by rw [ht]; exact hf⟩
  · unfold NibblesAre
    rw [ht]
    simp only [show ¬((1 : BitVec 5) = 13) by decide, if_false]
    decide +kernel
  · show 0x200000 = laneEa (selfGroup oneS) w 8 0
    unfold laneEa
    rw [hp]
    decide
  · show false = (nibblePos (selfGroup oneS) w 8 0).getLsbD 0
    rw [hp]
    decide

theorem witness_lane_accesses :
    (∃ p, place oneS (selfCtx oneS) { ty := 1 } 0x200000 4 = .ok p ∧ LaneRefsAre oneS accessW oneE (fun _ va => place oneS (selfCtx oneS) { ty := 1 } va 4) [accessRef p] ∧
      lineFull oneS (selfCtx oneS) p.loc = true) ∧
    (∃ p, place oneS (selfCtx oneS) { write := true, ty := 1 } 0x200000 4 = .ok p ∧
      LaneRefsAre oneS accessW oneE (fun _ va => place oneS (selfCtx oneS) { write := true, ty := 1 } va 4) [accessRef p]) ∧
    (∃ p, atomPlace oneS (selfCtx oneS) 1 0x200000 4 = .ok p ∧ LaneRefsAre oneS accessW oneE (fun _ va => atomPlace oneS (selfCtx oneS) 1 va 4) [accessRef p]) ∧
    (∃ p, redPlace oneS (selfCtx oneS) .add 1 0x200000 = .ok p ∧ LaneRefsAre oneS accessW oneE (fun _ va => redPlace oneS (selfCtx oneS) .add 1 va) [accessRef p]) ∧
    ((Instr.ldl accessW).wf = true ∧ (Instr.ldt accessW).wf = true ∧ (Instr.stl { accessW with dst := 0 }).wf = true ∧ (Instr.atomLane 0 accessW).wf = true ∧
      (Instr.redLane 0 { accessW with dst := 0 }).wf = true ∧ (Instr.amaxrdLane accessW).wf = true) ∧
    LaneRuns oneS 0 [(0x100, true), (4, false)] oneE ∧ ((self oneS).ld < 63 ∧ (self oneS).st < 63) := by
  refine ⟨?_, ?_, ?_, ?_, by decide, ?_, by decide +kernel⟩
  · obtain ⟨p, h, hl⟩ := ok_of (x := place oneS (selfCtx oneS) { ty := 1 } 0x200000 4) (q := fun p => lineFull oneS (selfCtx oneS) p.loc) (by decide +kernel)
    exact ⟨p, h, refs_one _ p _ rfl rfl rfl rfl h, hl⟩
  · obtain ⟨p, h, -⟩ := ok_of (x := place oneS (selfCtx oneS) { write := true, ty := 1 } 0x200000 4) (q := fun _ => true) (by decide +kernel)
    exact ⟨p, h, refs_one _ p _ rfl rfl rfl rfl h⟩
  · obtain ⟨p, h, -⟩ := ok_of (x := atomPlace oneS (selfCtx oneS) 1 0x200000 4) (q := fun _ => true) (by decide +kernel)
    exact ⟨p, h, refs_one _ p _ rfl rfl rfl rfl h⟩
  · obtain ⟨p, h, -⟩ := ok_of (x := redPlace oneS (selfCtx oneS) .add 1 0x200000) (q := fun _ => true) (by decide +kernel)
    exact ⟨p, h, refs_one _ p _ rfl rfl rfl rfl h⟩
  · exact laneRuns_one _ (by decide +kernel)

/-- `REP` (R70, R139): a next word that runs, and one that may not follow. -/
theorem witness_repeat :
    decode (.lane 0x0100400C04010400 0) = .ok (.ffma ⟨0, 0, 1, 0, 3, 2, 1, 4, 0, 0⟩) ∧ (∃ r, decode (.lane 0 0) = .error r) ∧
    (∃ f, laneForm (.ffma ⟨0, 0, 1, 0, 3, 2, 1, 4, 0, 0⟩) = some f ∧ f.word = ⟨0, 0, 1, 0, 3, 2, 1, 4, 0, 0⟩ ∧
      okAnd (f.body f.word oneS) (fun u => u.cur == oneS.cur) = true) ∧ (selfGroup oneS).rep = none := by
  refine ⟨rfl, ⟨_, rfl⟩, ⟨_, rfl, rfl, by decide +kernel⟩, by decide +kernel⟩

/-- Ragged and grid lanes (R228, R242): well-formed words and the handles they name. -/
def segW : LaneWord := ⟨0x8008, 0, 0, 0, 0, 0x120, 4, 5, 0, 0⟩
theorem witness_ragged_lanes :
    (Instr.segl segW).wf = true ∧ (Instr.segb segW).wf = true ∧ (Instr.hgld { segW with imm := 0x8010 }).wf = true ∧
    (Instr.hgsc { segW with imm := 0x8010, c := 40, dst := 0 }).wf = true ∧
    LaneRuns oneS 0 [(4, false), (5, false)] oneE ∧ (laneSource (selfGroup oneS) 0x8008 0x120 0).toNat = 0x8008 ∧
    (let s := withBytes [(0x200200, recordBytes), (0x200300, table 12 [(4, 4, 3), (8, 4, 8)])] oneS
     ∃ r, snapshot (selfCtx s) 0x8008 s = .ok r ∧ (r.1.bounds == [0, 3, 8]) = true) ∧
    (∃ x, readSel oneE (selfSlots oneS) 11 0 4 (selfGroup oneS) = .ok x ∧ (x.1 == List.replicate 32 0) = true) :=
  ⟨by decide, by decide, by decide, by decide, laneRuns_one _ (by decide +kernel), by decide +kernel, ok_of (by decide +kernel), ok_of (by decide +kernel)⟩

/-- Completions and the traps of other steps (R88, R342, R343): a load and a store in flight, a posted trap, a MACHINE event, a wake
flag, lines in an L1. -/
theorem witness_completions :
    (withSelf (fun x => { x with loads := [{ dests := [.s 4 7] }] }) grpS |> fun s => ((s.stream s.cur).loads[0]?.map (·.badKeys)) = some []) ∧
    (withSelf (fun x => { x with stores := [{}] }) grpS |> fun s => ((s.stream s.cur).stores[0]?.map (fun o => o.homes.all (fun h => ackReady s h.key))) = some true) ∧
    (withSelf (fun x => { x with posted := some { cls := .sync } }) grpS |> fun s => ((s.stream s.cur).posted.isSome = true ∧ (s.stream s.cur).run = .running)) ∧
    (mapPkg 0 (fun p => { p with machine := [(0, [⟨5, 0xFE, 0⟩])] }) ctlS |> fun s =>
      (Table.find? (s.pkg 0).machine 0 = some [⟨5, 0xFE, 0⟩] ∧ dieCtl s 0 0 = some 0 ∧ (s.pkg 0).booted = true)) ∧
    (withSelf (fun x => { x with mode := 0 }) (mapCtl (0, 0) (fun c => { c with wake := true }) ctlS) |> fun s =>
      ((s.ctl (0, 0)).wake = true ∧ (s.stream s.cur).run = .running ∧ sysMode s s.cur = false)) ∧
    l1Holds { Core.reset with clean := [⟨5, default, [], 0⟩] } 5 = true ∧ l1Holds { Core.reset with owned := [5] } 5 = true := by decide +kernel

/-- A remote atomic on its way from the group, a copy of its queue, and what they meet (R172, R253). -/
def ratomItem : Item := freshItem idle idle.cur (.ratom 0 11 0x4000000000000040 5 0) (selfCtx idle)
def itemS (x : Item) : State := { idle with items := [(9, x)], nextId := 10 }
theorem witness_items :
    Table.find? (itemS ratomItem).items 9 = some ratomItem ∧ ratomItem.phase = .queued ∧ ratomItem.release = false ∧ Canonical (itemS ratomItem) ∧
    (∃ p, Except.mapError (fun _ => Stop.stall) (reach (touchLease ratomItem 0x4000000000000040 (itemS ratomItem)) ratomItem true 9 0x4000000000000040) = .ok p ∧
      (match p.loc with | .phys k => (badAt (itemS ratomItem) (selfCtx idle) (.phys k) 4).isNone | _ => false) = true) ∧
    (isRemote { ratomItem with phase := .performed } = true ∧ blockSaved (itemS ratomItem) ratomItem = false ∧ failureAgent (itemS ratomItem) ratomItem = ratomItem.issuer) ∧
    (ratomItem.cc = 0 ∧ ratomItem.phaser = 0 ∧ ratomItem.crec = none ∧ ratomItem.lines = [] ∧ ratomItem.statusReg < 64 ∧ ratomItem.valueReg < 64) ∧
    (copyItem0.phase = .queued ∧ copyItem0.waits = [] ∧ foreignPkg copyItem0.ctx.pkg theCopy.src = none ∧ foreignPkg copyItem0.ctx.pkg theCopy.dst = none) :=
  ⟨by decide +kernel, by decide +kernel, by decide +kernel, canonical_of (by decide +kernel), ok_of (by decide +kernel), by decide +kernel, by decide +kernel, by decide +kernel⟩

/-- Ring entries (R318 to R323): a queue kicked with a SKIP entry; the table's limits; gates open, shut and failed (R327). -/
def ringS : State :=
  withBytes [(0x200900, leBytes 8 0 ++ leBytes 8 0 ++ leBytes 2 5), (0x200920, leBytes 8 1)]
    (mapPkg 0 (fun p => { p with qtab := 0x300000, queues := Vec.set p.queues 1 { LaunchQ.reset with kicked := some 1, ring := 0x310000, nent := 2 } }) idle)
theorem witness_ring :
    NextEntry ringS 0 1 0 (List.replicate 64 0) ∧ RingEntryOk (List.replicate 64 0) ∧ ¬RingEntryOk (table 64 [(0, 1, 4)]) ∧ RingEntryOk (table 64 [(0, 1, 3), (0x18, 8, 0x200900)]) ∧
    RingEntryOk (table 64 [(0, 1, 1), (8, 8, 0x200800)]) ∧ RingEntryOk (table 64 [(0, 1, 2), (2, 1, 7), (8, 8, 0x200600), (0x10, 8, 0x200900)]) := by
  refine ⟨?_, ?_, ?_, ?_, ?_, ?_⟩
  · unfold NextEntry; decide +kernel
  all_goals unfold RingEntryOk Claims.controlAt; decide +kernel

theorem witness_gates :
    let c := deviceCtx ringS 0 0 0x1000000
    GatesOpen ringS c [] true ∧
    (∃ bs, readVia ringS c 32 0x200900 32 = .ok bs ∧ (field bs 0 8 == 0 && field bs 0x10 2 == 5) = true) ∧
    (∃ bs, readVia ringS c 32 0x200920 32 = .ok bs ∧ (field bs 0 8 != 0) = true) ∧ reachedPhase loadLaunch (some (0, 9)) :=
  ⟨by intro g h; simp at h, ok_of (by decide +kernel), ok_of (by decide +kernel), ⟨0, 9, rfl, by decide⟩⟩

/-- A package with one cluster in service, its cores based, and a launch of one block at the head of queue 0 (R329 to R333). -/
def placeS (l : Launch) : State :=
  let s := mapPkg 0 (fun p => { p with muniment := oneCluster, queues := Vec.set p.queues 0 { LaunchQ.reset with items := [.launch 5 [] false], eligible := true, chosen := true } }) ctlS
  let s := (List.range 8).foldl (fun s c => mapCore (0, c) (fun k => { k with trapbase := 0x210000, sidebuf := 0x208000, savebase := 0x400000 }) s) s
  let s := s.setMcc (0, 0) { Mcc.reset with trapbase := 0x210000, sidebuf := 0x208000, savebase := 0x400000 }
  (withBytes [] s).setLaunch 5 { l with next := 0 }
theorem witness_placement :
    let s := placeS loadLaunch
    (queueAt s 0 0).items.head? = some (.launch 5 [] false) ∧ (s.launch 5).mcode = 0 ∧ (queueAt s 0 0).chosen = true ∧ (Table.find? s.launches 5).isSome = true ∧
    chooseCore s (s.launch 5) 0 = some 0 ∧ servable s 0 0 = true ∧ headPrio s (0, 0) ≤ 3 ∧
    chooseCore s { s.launch 5 with groups := 32, partw := 0xFF000000 } 0 = none := by
  refine ⟨?_, ?_, ?_, ?_, ?_, ?_, ?_, ?_⟩ <;> decide +kernel

theorem witness_gang :
    let s := placeS { loadLaunch with mcode := 0x200000 }
    chooseCluster s (s.launch 5) 0 = some 0 ∧ (s.launch 5).mcode ≠ 0 ∧ (s.launch 5).nsched = 0 ∧ serviceCores oneCluster 0 = List.range 8 := by
  refine ⟨by decide +kernel, by decide +kernel, by decide +kernel, by decide +kernel⟩

/-- The end of a block (R326): groups that have ended with everything settled, a record to end at, slots to change (R335). -/
def endedS : State := withSelf (fun x => { x with run := .ended }) idle
theorem witness_block_end :
    let b := endedS.block (selfGroup endedS).block
    (Table.find? endedS.blocks (selfGroup endedS).block).isSome = true ∧ b.preempt = .none ∧ (∀ a, a ∈ b.groups → (endedS.stream a).run = .ended) ∧ b.held = [] ∧ endedS.early = [] ∧ b.endAfter = [] ∧
    (∀ a, a ∈ b.groups → (endedS.stream a).uw = 0 ∧ (endedS.stream a).tl = 0) ∧ endedS.items = [] ∧
    (∃ p, controlPlace ringS (deviceCtx ringS 0 0 0x1000000) true 32 0x200920 = .ok p ∧ true = true) ∧
    (withSelf (fun x => { x with run := .awayWait 0 0 0 0 }) idle |> fun s => ((s.stream s.cur).ld ≤ 0 ∧ isSaved (s.block (s.group s.cur).block) = false)) ∧
    (idle.group (.group 0 0 0)).slot = .active := by
  refine ⟨?_, ?_, ?_, ?_, ?_, ?_, ?_, ?_, ok_of (by decide +kernel), ?_, ?_⟩ <;> decide +kernel

/-- Victims (R330, R350 to R352): a head of priority 3 that fits nowhere, a resident block of priority 0 on each core; a drain that has
and has not run out. -/
def fullBlock : Block := { blockAtPlacement loadLaunch 5 0 (0, 0) [.group 0 0 0] 0 [] with partw := 0x80000000 }
def crowded : State :=
  let s := mapPkg 0 (fun p => { p with queues := Vec.set p.queues 0 { LaunchQ.reset with items := [.launch 6 [] false], eligible := true } }) (placeS loadLaunch)
  let s := s.setLaunch 6 { loadLaunch with prio := 3, next := 0 }
  (List.range 8).foldl (fun s c => s.setBlock (20 + c) { fullBlock with core := c, groups := [.group 0 c 0] }) s
theorem witness_victims :
    headLaunch crowded 0 0 = some 6 ∧ (queueAt crowded 0 0).eligible = true ∧ (crowded.launch 6).prio ≠ 0 ∧ servable crowded 0 0 = false ∧
    (bestVictims crowded ((logicalCores crowded 0).filterMap (victimsFor crowded (crowded.launch 6) 0))).isSome = true ∧
    65536 ≤ (match ({ fullBlock with preempt := .drain 65536 } : Block).preempt with | .drain a => a | _ => 0) ∧
    (headLaunch (placeS loadLaunch) 0 0 = some 5 ∧ servable (placeS loadLaunch) 0 0 = true) := by
  refine ⟨?_, ?_, ?_, ?_, ?_, ?_, ?_⟩ <;> decide +kernel

/-- Saves and returns (R354 to R362): a block alone, nothing outstanding, a free slot of its core; a flush of a launch that runs; a
stream and group whose record can hold them. -/
def leavingS (m : Preempt) : State := idle.setBlock (selfGroup idle).block { idle.block (selfGroup idle).block with preempt := m }
theorem witness_saves :
    let s := leavingS .save
    let k := (selfGroup idle).block
    (Table.find? s.blocks k).isSome = true ∧ gangOfBlock s k = [k] ∧ s.mccs = [] ∧ (s.block k).preempt = .save ∧
    (s.core ((s.block k).pkg, (s.block k).core)).fenced = false ∧
    (∀ a, a ∈ (s.block k).groups → (s.stream a).loads = [] ∧ (s.stream a).stores = [] ∧ (s.stream a).ld = 0 ∧ (s.stream a).st = 0) ∧
    s.items = [] ∧ imagesAt s ((s.block k).pkg, (s.block k).core) = [] ∧
    ((leavingS .flush).block k).preempt = .flush ∧ (Table.find? (leavingS .flush).launches (s.block k).launch).isSome = true ∧
    isSaved ((leavingS (.saved 3)).block k) = true := by
  refine ⟨?_, ?_, ?_, ?_, ?_, ?_, ?_, ?_, ?_, ?_, ?_⟩ <;> decide +kernel

theorem witness_record_fits : RecordFits (self idle, selfGroup idle) where
  counts := by decide +kernel
  rep := by
    intro i n h
    rw [show (selfGroup idle).rep = none by decide +kernel] at h
    simp at h
  tsync := by
    intro y h
    rw [show (selfGroup idle).tsync = [] by decide +kernel] at h
    simp at h
  lengths := by decide +kernel
  splits := by
    intro n sp hn h
    have e : ∀ i, i < 4 → Vec.get (selfGroup idle).splits i = none := by decide +kernel
    rw [e n hn] at h
    simp at h
  inSeg := by
    exact ⟨fun h => absurd h (by decide +kernel), fun ⟨n, hn, h⟩ => absurd ((by decide +kernel : ∀ i, i < 4 → Vec.get (selfGroup idle).splits i = none) n hn) h⟩

/-- A collective of one member that has arrived, and one in a switch slot (R269 to R276). -/
def collD : CollDesc := collOf { cpyW with scope := 4, ty := 11 } collBytes [0]
def collItem : Item := { freshItem idle idle.cur (.coll collD none none) (selfCtx idle) with phase := .started }
theorem witness_collectives :
    Table.find? (itemS collItem).items 9 = some collItem ∧ collD.insw = false ∧ collItem.phase = .started ∧ (itemS collItem).closed = [] ∧ collItem.peers = [] ∧
    shareTooLarge collItem collD = false ∧ ({ collD with insw := true } : CollDesc).insw = true ∧ ((itemS collItem).panel 0).slots = [] ∧
    ((itemS collItem).panel 0).marks = [] ∧ ({ collItem with phase := .arrived } : Item).counted = false ∧ ({ collItem with phase := .arrived } : Item).sends = [] ∧
    (∀ v, v ∈ [7, 2 ^ 32 - 1] → v < 2 ^ (8 * tyBytes 11)) := by
  refine ⟨?_, ?_, ?_, ?_, ?_, ?_, ?_, ?_, ?_, ?_, ?_, ?_⟩ <;> decide +kernel

/-- The fabric (R368 to R376, R392, R393): packages numbered once, one that is due a heartbeat, one that has been silent, notices,
limits of the temperature and of the links. -/
def fabricS (f : Package → Package) : State := mapPkg 0 f { State.reset with pkgs := [(0, bootedPackage Package.reset), (1, { Package.reset with fenced := true })] }
theorem witness_fabric :
    let s := fabricS (fun p => { p with sinceBeat := 4096, tj := 125, notices := [(1, 1)] })
    (s.pkgs.map (·.1)).Nodup ∧ pkgUp s 0 = true ∧ (s.pkg 0).booted = true ∧ 4096 ≤ (s.pkg 0).sinceBeat ∧ 125 ≤ (s.pkg 0).tj ∧ (1, 1) ∈ (s.pkg 0).notices ∧
    (s.pkg 1).fenced = true ∧ (∃ y, applyLoss 0 1 s = .ok y ∧ (y.pkg 0).lost.contains 1 = true) ∧
    65536 ≤ Table.findD ({ s.panel 0 with silent := [((3, 1), 65536)] } : Panel).silent (3, 1) 0 ∧ (s.panel 0).lost = [] ∧
    (linkOf (s.pkg 0) 35).retired = false ∧ 7 ∈ (linkOf (s.pkg 0) 35).lanes ∧ 36000000 ≤ (36000000 : Nat) ∧ (0 : Nat) < 4 := by
  refine ⟨?_, ?_, ?_, ?_, ?_, ?_, ?_, ok_of (by decide +kernel), ?_, ?_, ?_, ?_, ?_, ?_⟩ <;> decide +kernel

/-- Writes of one home byte that await acknowledgement: by package 1, which is lost, with number 5; by package 0 with number `n`. -/
def pendingStore (v : Byte) (n : Nat) : StoreOp := { homes := [⟨0x400000, v, n⟩] }
def pending (v : Byte) (n : Nat) : Stream := { Stream.reset with stores := [pendingStore v n] }
def lostS (n : Nat) (annexed : List (Nat × Nat)) : State :=
  { fabricS id with streams := [(.ctl 1 0, pending 7 5), (.ctl 0 0, pending 9 n)], annexed := annexed }

theorem last_of (n : Nat) (x : List (Nat × Nat)) :
    LastUnacknowledged (lostS n x) (· = 1) 0x400000 ⟨0x400000, 7, 5⟩ ∧ LastUnacknowledged (lostS n x) (fun q => pkgUp (lostS n x) q = true) 0x400000 ⟨0x400000, 9, n⟩ := by
  have h0 : pkgUp (lostS n x) 0 = true := by
    show pkgUp (fabricS id) 0 = true
    decide +kernel
  have h1 : pkgUp (lostS n x) 1 = false := by
    show pkgUp (fabricS id) 1 = false
    decide +kernel
  refine ⟨⟨⟨rfl, .ctl 1 0, pending 7 5, pendingStore 7 5, List.mem_cons_self, rfl, List.mem_cons_self, List.mem_cons_self⟩, ?_⟩,
    ⟨⟨rfl, .ctl 0 0, pending 9 n, pendingStore 9 n, List.mem_cons_of_mem _ List.mem_cons_self, h0, List.mem_cons_self, List.mem_cons_self⟩, ?_⟩⟩
  all_goals
    rintro g ⟨-, a, z, o, hm, hw, ho, hg⟩
    simp only [lostS, List.mem_cons, Prod.mk.injEq, List.not_mem_nil, or_false] at hm
    rcases hm with ⟨rfl, rfl⟩ | ⟨rfl, rfl⟩ <;> simp [pending, agentPkg, h1] at hw ho
    subst ho
    simp [pendingStore] at hg
    exact .inl hg

/-- What a byte reverts to (R317, R374): later and earlier writes of a package that is up, with and without an annex value between,
and none. -/
theorem witness_reverts :
    (isHome 0x400000 = true ∧ goHeld (lostS 6 []) 0x400000 = false ∧ (lineKey (lostS 6 []) (0x400000 / 128)).isSome = true) ∧
    (revertedValue (lostS 6 []) 1 0x400000 = none ∧ revertedValue (lostS 4 []) 1 0x400000 = some 9 ∧ revertedValue (lostS 4 [(0x400000, 5)]) 1 0x400000 = some 0 ∧
      revertedValue (lostS 4 [(0x400000, 6)]) 1 0x400000 = none) ∧
    (∀ g, ¬Unacknowledged { fabricS id with streams := [(.ctl 1 0, pending 7 5)] } (fun q => pkgUp (fabricS id) q = true) 0x400000 g) := by
  refine ⟨by decide +kernel, by decide +kernel, ?_⟩
  rintro g ⟨-, a, z, o, hm, hw, -⟩
  simp only [List.mem_cons, Prod.mk.injEq, List.not_mem_nil, or_false] at hm
  obtain ⟨rfl, rfl⟩ := hm
  exact absurd hw (by decide +kernel)

/-- A link that retrains, to a die that a heartbeat waits for (R369), and a rebuild that is due (R376). -/
theorem witness_rebuild :
    let s := fabricS (fun p => { p with links := [(35, ⟨[0, 1, 2, 3, 4], true, false⟩)], beats := [12], rebuilding := [1], reverted := [(0, 1, [4, 9])] })
    (linkOf (s.pkg 0) 35).retraining = true ∧ 12 ∈ (s.pkg 0).beats ∧ pkgUp s 0 = true ∧ (s.pkg 0).reverted ≠ [] ∧ [4, 9].Pairwise (· < ·) ∧
    ∃ y, seqEff (endLostEntry 1) (s.pkg 1).accepted s = .ok y ∧ true = true :=
  ⟨by decide +kernel, by decide +kernel, by decide +kernel, by decide +kernel, by decide, ok_of (by decide +kernel)⟩

/-- Resets (R384, R385): packages numbered once, flash within its size. -/
theorem witness_resets :
    Canonical State.reset ∧ (State.reset.pkgs.map (·.1)).Nodup ∧ (∀ b, b ∈ (State.reset.pkg 0).flash → b.image.length ≤ 62 * 2 ^ 20) ∧
    (Table.find? State.reset.pkgs 0).isSome = true ∧ Table.find? State.reset.pkgs 1 = none ∧ ComesUp 0 State.reset := by
  refine ⟨canonical_of (by decide +kernel), by decide +kernel, by decide +kernel, by decide +kernel, by decide +kernel, ?_⟩
  unfold ComesUp StaysOut
  decide +kernel

/-- GO, the mailbox and the debug port (R387 to R391): the stores that the device sees, a boot block within its table and one
outside, commands copied. -/
def bootBytes : List Byte := table 64 [(0, 4, 0x544F4F42), (8, 8, 0x300000), (0x10, 8, 0x310000)]
def mailBytes (cmd : Nat) : List Byte := table 256 [(0, 4, cmd), (8, 4, 1)]
def mailS (cmd : Nat) : State :=
  { fabricS (fun p => { p with go := 0, goRead := some bootBytes, mail := some (mailBytes cmd) }) with mem := image [(4, [1]), (0x2000, leBytes 4 cmd)] }
theorem witness_mailbox :
    Mailbox (mailS 1) 0 1 (mailBytes 1) ∧ Mailbox (mailS 2) 0 2 (mailBytes 2) ∧ Mailbox (mailS 9) 0 9 (mailBytes 9) ∧ Canonical (mailS 1) ∧
    BootBlockOk 0 bootBytes ∧ ¬BootBlockOk 1 (table 64 [(0, 4, 0x544F4F42), (8, 8, 0x300000)]) ∧
    (((mailS 1).pkg 0).goRead = some bootBytes ∧ ((mailS 1).pkg 0).go = 0 ∧ (State.reset.pkg 0).goRead = none ∧ (State.reset.pkg 0).mail = none) ∧
    (readCtl State.reset 0 4 4 = 0 ∧ readCtl (mailS 1) 0 4 4 = 1 ∧ readCtl State.reset 0 0x2000 4 = 0 ∧ readCtl (mailS 1) 0 0x2000 4 ≠ 0) ∧
    ((mailS 1).pkg 0).kek = none ∧ ((mailS 1).core (0, 467)).watch = [] ∧ ((mailS 1).mcc (0, 51)).watch = [] ∧ ((mailS 1).ctl (0, 31)).watch = [] := by
  refine ⟨by unfold Mailbox; decide +kernel, by unfold Mailbox; decide +kernel, by unfold Mailbox; decide +kernel, canonical_of (by decide +kernel), ?_, ?_, ?_⟩
  · unfold BootBlockOk; decide +kernel
  · unfold BootBlockOk; decide +kernel
  · decide +kernel

/-- Translation (R289 to R293): a walk that finds a leaf, one that finds nothing, each malformed address. -/
theorem witness_translation :
    grpS.stale = [] ∧ (0xC000000000000000 : Word64).extractLsb' 62 2 = 3 ∧ (0x10000000000000 : Word64).extractLsb' 52 10 ≠ 0 ∧
    (0x8000000001000000 : Word64).extractLsb' 24 38 ≠ 0 ∧ 128 < (0x20007C : Word64).toNat % 128 + 8 ∧
    (selfCtx grpS).identity = false ∧ WalkFinds grpS 0 true [(1, some 21, some 256), (0, some 16, none)] (physKey 0 0 0x1021000) (.ok ⟨0x4001F, 21⟩) ∧
    WalkFinds grpS 0 true [(2, some 21, some 256), (0, some 16, none)] (physKey 0 0 0x1021000) (.error 2) ∧
    (∃ p, place grpS (selfCtx grpS) { ty := 9 } 0x200000 1 = .ok p ∧ true = true) := by
  refine ⟨by decide +kernel, by decide, by decide, by decide, by decide, by decide +kernel, ?_, ?_, ok_of (by decide +kernel)⟩
  · exact WalkFinds.leaf 1 21 _ _ _ _ (by decide +kernel) (by decide) (by decide) (by unfold LeafFaulty; decide +kernel)
  · exact WalkFinds.invalid 2 _ _ _ _ (by decide +kernel)

/-- The scalar word `w` decodes to `i`, whatever follows it. -/
abbrev DecodesTo (w : BitVec 32) (i : Instr) : Prop := decode (.scalar w 0) = .ok i

/-- The worked words of the scalar families (R92 to R117). -/
theorem test_decode_scalar :
    DecodesTo 0x04518700 (.add 5 6 7) ∧ DecodesTo 0x0850FFF4 (.addi 5 3 0x3FF4) ∧ DecodesTo 0x304150C8 (.bfxI64 4 5 3 8) ∧
    DecodesTo 0x58903FFE (.loop 9 0 0x3FFE) ∧ DecodesTo 0xB0B29200 (.qset 11 10 2 2) ∧ DecodesTo 0xB4030002 (.qgo 12 2) ∧
    DecodesTo 0xB800000C (.lrun 12) ∧ DecodesTo 0xBC003FF0 (.wait 0 0 31 31) ∧ DecodesTo 0xC0400008 (.mfs 4 8) ∧ DecodesTo 0xC8000000 .nop :=
  ⟨rfl, rfl, rfl, rfl, rfl, rfl, rfl, rfl, rfl, rfl⟩

/-- Words of the branches, jumps, loads and stores, built from the fields of S-B, S-J and S-I (R59, R95 to R99). -/
theorem test_decode_memory :
    DecodesTo 0x40518003 (.beq 5 6 3) ∧ DecodesTo 0x54518003 (.bgeu 5 6 3) ∧ DecodesTo 0x63FFFFFF (.j 0x3FFFFFF) ∧ DecodesTo 0x6C518003 (.callr 5 6 3) ∧
    DecodesTo 0x80518003 (.ldsI8 5 6 3) ∧ DecodesTo 0x98518003 (.ldsN64 5 6 3) ∧ DecodesTo 0xA0518003 (.stsN8 5 6 3) ∧ DecodesTo 0xAC518003 (.stsN64 5 6 3) :=
  ⟨rfl, rfl, rfl, rfl, rfl, rfl, rfl, rfl⟩

/-- The worked words of synchronisation (R151 to R170, R218 to R266). -/
theorem test_decode_sync :
    DecodesTo 0xD0000005 (.fence 5) ∧ DecodesTo 0xD40020C8 (.barSync 0 3 8) ∧ DecodesTo 0xD8414606 (.phsw 4 5 6) ∧ DecodesTo 0xDC414603 (.atomShort 4 5 6 0 3) ∧
    DecodesTo 0xE0A30B00 (.chunk 10 12 11) ∧ DecodesTo 0xE4400001 (.cpstep 4 1) ∧ DecodesTo 0xE8000003 (.yield 3) ∧ DecodesTo 0xEC01C000 (.rflush 7) ∧
    DecodesTo 0xEC91CA03 (.rqryLen 9 7 10) :=
  ⟨rfl, rfl, rfl, rfl, rfl, rfl, rfl, rfl, rfl⟩

/-- The worked words of the first long space (R155 to R300). -/
theorem test_decode_long :
    decode (.scalar 0xF8405000 0x00010000) = .ok (.fenceTc { d := 5, a := 0, b := 0, c := 0, e := 0, scope := 0, st := 1, rm := 0, ty := 0, aux := 0 }) ∧
    decode (.scalar 0xF81061C8 0x00970100) = .ok (.ratom { d := 6, a := 7, b := 8, c := 0, e := 9, scope := 3, st := 1, rm := 0, ty := 1, aux := 0 }) ∧
    decode (.scalar 0xF8800280 0x00B30002) = .ok (.cpy { d := 0, a := 10, b := 0, c := 0, e := 11, scope := 1, st := 1, rm := 0, ty := 0, aux := 2 }) ∧
    decode (.scalar 0xF8880000 0x00000003) = .ok (.qfence { d := 0, a := 0, b := 0, c := 0, e := 0, scope := 0, st := 0, rm := 0, ty := 0, aux := 3 }) ∧
    decode (.scalar 0xF88C0500 0x015B0180) = .ok (.coll { d := 0, a := 20, b := 0, c := 0, e := 21, scope := 5, st := 1, rm := 0, ty := 1, aux := 0x80 }) ∧
    decode (.scalar 0xF9004187 0x00500000) = .ok (.segof { d := 4, a := 6, b := 7, c := 0, e := 5, scope := 0, st := 0, rm := 0, ty := 0, aux := 0 }) ∧
    decode (.scalar 0xF904028B 0x30000019) = .ok (.rbind { d := 0, a := 10, b := 11, c := 12, e := 0, scope := 0, st := 0, rm := 0, ty := 0, aux := 0x19 }) ∧
    decode (.scalar 0xF9204187 0x20500000) = .ok (.hgix { d := 4, a := 6, b := 7, c := 8, e := 5, scope := 0, st := 0, rm := 0, ty := 0, aux := 0 }) ∧
    decode (.scalar 0xFBC80180 0) = .ok (.wake { d := 0, a := 6, b := 0, c := 0, e := 0, scope := 0, st := 0, rm := 0, ty := 0, aux := 0 }) ∧
    decode (.scalar 0xFBE00105 0x00080002) = .ok (.tlbinv { d := 0, a := 4, b := 5, c := 0, e := 0, scope := 4, st := 0, rm := 0, ty := 0, aux := 2 }) :=
  ⟨rfl, rfl, rfl, rfl, rfl, rfl, rfl, rfl, rfl, rfl⟩

/-- The worked words of the lanes (R125, R141, R228, R242). -/
theorem test_decode_lane :
    decode (.lane 0x0100400C04010400 0) = .ok (.ffma ⟨0, 0, 1, 0, 3, 2, 1, 4, 0, 0⟩) ∧ decode (.lane 0x000000408000400007020A50 0) = .ok (.ldl ⟨0x40, 0, 1, 0, 0, 3, 0x102, 10, 5, 0⟩) ∧
    decode (.lane 0xA000000204040500 0) = .ok (.segl ⟨0, 0, 0, 0, 0, 0x102, 4, 5, 0, 0⟩) ∧ decode (.lane 0xA800000206021000 0) = .ok (.hgld ⟨0, 0, 0, 0, 0, 0x103, 2, 16, 0, 0⟩) ∧
    decode (.lane 0xA84000A206020000 0) = .ok (.hgsc ⟨0, 0, 0, 0, 40, 0x103, 2, 0, 0, 0⟩) :=
  ⟨rfl, rfl, rfl, rfl, rfl⟩

/-- Reserved words (R58, R92): opcode 0, an unassigned function, reserved fields of `CLZ` and `JR`, an unassigned lane opcode. -/
theorem test_decode_reserved :
    (∃ r, decode (.scalar 0 0) = .error r) ∧ (∃ r, decode (.scalar 0x045187FF 0) = .error r) ∧ (∃ r, decode (.scalar 0x04518730 0) = .error r) ∧
    (∃ r, decode (.scalar 0x68518003 0) = .error r) ∧ (∃ r, decode (.lane 0 0) = .error r) := ⟨⟨_, rfl⟩, ⟨_, rfl⟩, ⟨_, rfl⟩, ⟨_, rfl⟩, ⟨_, rfl⟩⟩

/-- The unit `u` decodes to `i`. -/
def decodesBack (u : Code) (i : Instr) : Bool := match decode u with | .ok j => j == i | .error _ => false

/-- A tile word under encoding (R64, R66): `TSYNC` of stream 3 from s6, there and back. -/
theorem test_tile_round_trip :
    (encode (.tsync ⟨0, 6, 0, 0, 3, 0, 0, 0, 0, 0, 0, 0, 0, 0⟩)).elim false (fun u => decodesBack u (.tsync ⟨0, 6, 0, 0, 3, 0, 0, 0, 0, 0, 0, 0, 0, 0⟩)) = true := by
  decide +kernel

/-- Ill-formed scalar terms: a field past bit 63, `QSET` fields, scopes, barrier ids and counts, atomic types (R94, R104, R163, R165, R154). -/
theorem test_ill_formed_scalar :
    [Instr.bfxI64 1 2 3 61, .bfxN64 1 2 63 1, .bfi 1 2 0x3F 0x3F, .qset 1 2 0 7, .qset 1 2 0 6, .fence 6, .barArr 0 48 1, .barWait 1 0 1, .barSync 0 63 0,
      .atomShort 1 2 3 0 6, .atomShort 1 2 3 1 4, .atomShort 1 2 3 8 0].all (fun i => !i.wf) = true := by decide +kernel

/-- Ill-formed long terms: a reserved field, scope, status, rounding, type or AUX of each family (R155 to R300). -/
theorem test_ill_formed_long :
    let w : LongWord := ⟨1, 2, 3, 4, 5, 0, 0, 0, 11, 0⟩
    [Instr.atomLong w, .atomLong { w with e := 0, scope := 6 }, .atomLong { w with e := 0, st := 1 }, .atomLong { w with e := 0, rm := 1 }, .atomLong { w with e := 0, aux := 1 },
      .atomLong { w with e := 0, ty := 3 }, .redScalar w, .redScalar { w with d := 0, c := 0, e := 0, aux := 4 }, .redScalar { w with d := 0, c := 0, e := 0, ty := 2 },
      .amaxrdScalar w, .amaxrdScalar ⟨1, 2, 0, 0, 0, 0, 0, 0, 0, 0⟩, .ratom { w with e := 0 }, .ratom { w with c := 0, scope := 3 }, .ratom { w with c := 0, e := 0, scope := 2 },
      .rrel { w with scope := 3 }, .rrel { w with d := 0, c := 0, e := 0, scope := 3, ty := 3 }, .fenceTc w, .fenceTc ⟨1, 0, 0, 0, 0, 0, 0, 0, 0, 0⟩, .launch w, .cancel w,
      .cancel ⟨1, 2, 0, 0, 0, 0, 0, 0, 0, 4⟩, .ccrd w, .ccwt w, .cpy w, .cpy ⟨0, 2, 0, 0, 0, 6, 0, 0, 0, 0⟩, .cpy ⟨0, 2, 0, 0, 0, 0, 0, 0, 0, 8⟩, .qfence ⟨0, 0, 0, 0, 0, 0, 0, 0, 0, 0⟩,
      .coll ⟨0, 2, 0, 0, 0, 3, 0, 0, 1, 0⟩, .coll ⟨0, 2, 0, 0, 0, 4, 0, 0, 13, 0⟩, .coll ⟨0, 2, 0, 0, 0, 4, 0, 0, 1, 0x28⟩, .segof w, .rbind { w with d := 0, c := 0, e := 0, ty := 0 },
      .hgix w, .kick w, .sleep w, .wake w, .tlbinv ⟨0, 2, 3, 0, 0, 2, 0, 0, 0, 0⟩, .tlbinv ⟨0, 2, 3, 0, 0, 3, 0, 0, 0, 3⟩, .jroot w, .kbind w].all (fun i => !i.wf) = true := by
  decide +kernel

/-- Ill-formed tile terms: types, flags, registers and AUX (R191, R194, R201). -/
theorem test_ill_formed_tile :
    let w : TileWord := ⟨2, 4, 6, 8, 0, 0, 0, 0, 0, 0, 5, 5, 0, 0⟩
    [Instr.mma { w with tya := 1 }, .mma { w with tyb := 3 }, .mma { w with rm := 1 }, .mma { w with aux := 2 }, .mmd w, .mmd { w with tya := 3, tyb := 3, d := 1 },
      .mmd { w with tya := 3, tyb := 3, ta := 1 }, .mzero w, .mzero { w with a := 0, b := 0, tya := 0, tyb := 0, mdep := 1 }, .wloadImg w, .wloadDense w,
      .wloadDense { w with tya := 0, aux := 0 }, .wupd w, .wupd { w with tya := 1, tyb := 0, aux := 3 }, .accst w, .accst { w with tya := 1, tyb := 0, rm := 6 }, .accld w, .tred w,
      .tcvt w, .tcvt { w with tya := 13, tyb := 0, aux := 1 }, .tnorm w, .tnorm { w with tya := 0, tyb := 0, aux := 2 }, .tsmax w, .tsync w].all (fun i => !i.wf) = true := by
  decide +kernel

/-- Ill-formed lane terms: types, rounding codes, selectors, destinations, MOD and immediates (R67 to R69, R124 to R157, R228, R242). -/
theorem test_ill_formed_lane :
    let w : LaneWord := ⟨0, 0, 1, 0, 0, 2, 1, 4, 0, 0⟩
    [Instr.fadd { w with ty := 7 }, .fadd { w with rm := 6 }, .fadd { w with c := 1 }, .fadd { w with imm := 1 }, .fadd { w with ty := 0, a := 3 }, .fadd { w with ty := 0, a := 0x110 },
      .fadd { w with a := 0x123 }, .fadd { w with dst := 0x100 }, .fadd { w with ty := 0, dst := 5, a := 2 }, .fadd { w with md := 1 }, .fadd { w with rpf := 1 }, .fmin { w with rm := 1 },
      .frcp { w with b := 0, ty := 3 }, .fcmp { w with dst := 0 }, .fcmp { w with dst := 8 }, .fcmp { w with ty := 7 }, .iadd w, .iadd { w with ty := 7, rm := 1 }, .icmp { w with dst := 4 },
      .cvt { w with b := 0, ty := 13 }, .cvt { w with b := 0, imm := 32 }, .cvt { w with b := 0, a := 0x120 }, .pkn w, .mov w, .sel w, .shflIdx w, .mset w, .mand { w with ty := 0, a := 8 },
      .mand { w with ty := 0, imm := 1 }, .gred 3 { w with b := 0 }, .gred 1 { w with b := 0, rm := 1 }, .greds 0 { w with b := 0x100 }, .brl w, .joinl w, .lret { w with dst := 1 }, .exit w,
      .ldl { w with a := 1, b := 0 }, .ldl { w with a := 0x110, b := 0 }, .ldl { w with a := 2, b := 0, ty := 2 }, .ldl { w with a := 2, b := 0, md := 2 }, .stl { w with a := 2, b := 0 },
      .stl { w with a := 2, b := 0, dst := 0, rm := 1 }, .stt w, .lda w, .atomLane 1 { w with a := 2, b := 0 }, .atomLane 0 { w with a := 2, b := 0, ty := 3 },
      .redLane 0 { w with a := 2, b := 0 }, .amaxrdLane { w with a := 2, b := 0, ty := 0 }, .segl w, .segl { w with ty := 0, b := 3 }, .hgld w, .hgsc w].all (fun i => !i.wf) = true := by
  decide +kernel

/-- What `d` holds after a step. -/
def after (i : Instr) (s : State) (d : SReg) : Word64 := match exec i s with | .next t => reg t d | _ => 0xDEAD
def two (x y : Word64) : State := withReg 6 x (withReg 7 y ctlS)

/-- R92: wraps, the corners of division, the high products, shift amounts modulo 64. -/
theorem test_alu :
    after (.add 5 6 7) (two 0xFFFFFFFFFFFFFFFF 2) 5 = 1 ∧ after (.div 5 6 7) (two 9 0) 5 = 0xFFFFFFFFFFFFFFFF ∧
    after (.div 5 6 7) (two 0x8000000000000000 0xFFFFFFFFFFFFFFFF) 5 = 0x8000000000000000 ∧ after (.rem 5 6 7) (two 0x8000000000000000 0xFFFFFFFFFFFFFFFF) 5 = 0 ∧
    after (.rem 5 6 7) (two 0xFFFFFFFFFFFFFFF9 2) 5 = 0xFFFFFFFFFFFFFFFF ∧ after (.remu 5 6 7) (two 9 0) 5 = 9 ∧
    after (.mulh 5 6 7) (two 0xFFFFFFFFFFFFFFFF 2) 5 = 0xFFFFFFFFFFFFFFFF ∧ after (.mulhu 5 6 7) (two 0xFFFFFFFFFFFFFFFF 2) 5 = 1 ∧
    after (.shl 5 6 7) (two 1 65) 5 = 2 ∧ after (.sra 5 6 7) (two 0x8000000000000000 63) 5 = 0xFFFFFFFFFFFFFFFF ∧ after (.ror 5 6 7) (two 1 1) 5 = 0x8000000000000000 ∧
    after (.clz 5 6) (two 0 0) 5 = 64 ∧ after (.ctz 5 6) (two 8 0) 5 = 3 ∧ after (.popc 5 6) (two 0xFF00 0) 5 = 8 ∧ after (.add 0 6 7) (two 1 1) 0 = 0 := by
  decide +kernel

/-- R94: the worked `BFX`, and `BFI` of four bits at bit 8. -/
theorem test_bit_fields :
    after (.bfxI64 4 5 3 8) (withReg 5 0x0F00 ctlS) 4 = 0xFFFFFFFFFFFFFFFF ∧ after (.bfxN64 4 5 3 8) (withReg 5 0x0F00 ctlS) 4 = 0xF ∧
    after (.bfi 6 7 3 8) (two 0xFFFF 0x5) 6 = 0xF5FF := by decide +kernel

/-- R96: a count of 0 wraps and goes on; a count of 1 ends. -/
theorem test_loop :
    (match exec (.loop 9 0 0x3FFE) ctlS with | .next t => decide (reg t 9 = 0xFFFFFFFFFFFFFFFF) && decide ((self t).spc = (self ctlS).spc - 8) | _ => false) = true ∧
    (match exec (.loop 9 0 0x3FFE) (withReg 9 1 ctlS) with | .next t => decide (reg t 9 = 0) && decide ((self t).spc = (self ctlS).spc + 4) | _ => false) = true := by
  decide +kernel

/-- R97: `CALL` links the next word; `CALLR s47, s47, 0` reads s47 first. -/
theorem test_calls :
    (match exec (.call 2) ctlS with | .next t => decide (reg t 47 = (self ctlS).spc + 4) && decide ((self t).spc = (self ctlS).spc + 8) | _ => false) = true ∧
    (match exec (.callr 47 47 0) (withReg 47 0x1000 ctlS) with | .next t => decide (reg t 47 = (self ctlS).spc + 4) && decide ((self t).spc = 0x1000) | _ => false) = true := by
  decide +kernel

/-- R42, R46: the worked conversions: 500 in E4M3, 61,440 in E5M2, 1 + 2^-9 to BF16 under two draws. -/
theorem test_rounding :
    (slotFmt 0xA183C000).round ⟨0, 0⟩ (.ofInt 500) = 0x7E ∧ (slotFmt 0xA183C000).round ⟨2, 0⟩ (.ofInt 500) = 0x7E ∧
    (slotFmt 0xA907A400).round ⟨0, 0⟩ (.ofInt 61440) = 0x7C ∧ (slotFmt 0xA907A400).round ⟨2, 0⟩ (.ofInt 61440) = 0x7B ∧
    fmtB16.round ⟨5, 0xC000⟩ (fmt32.decode 0x3F804000) = 0x3F81 ∧ fmtB16.round ⟨5, 0xBFFF⟩ (fmt32.decode 0x3F804000) = 0x3F80 := by decide +kernel

/-- R52: the worked `FRSQ` and `FRCP` of 3. -/
theorem test_approximate :
    fmt32.round rneMode (fmtT32.rnd rneMode (Sys2Proof.Machine.Num.rsqrt (.ofInt 3))) = 0x3F13D000 ∧ fmt32.round rneMode (fmtT32.rnd rneMode (Sys2Proof.Machine.Num.recip (.ofInt 3))) = 0x3EAAB000 := by decide +kernel

/-- R56: the worked reduction of 1.0, 2^-24, 2^-24, in both placements. -/
theorem test_tree :
    treeOf 0 1 0 0 (fun l => decide (l < 3)) (fun l => if l = 0 then 0x3F800000 else 0x33800000) = 0x3F800000 ∧
    treeOf 0 1 0 0 (fun l => decide (l < 3)) (fun l => if l = 2 then 0x3F800000 else 0x33800000) = 0x3F800001 := by decide +kernel

/-- R101, R347: `TRET` on the control core restores the mode and pc it saved. -/
theorem test_tret :
    (match exec .tret ctlS with | .next t => decide ((self t).mode = 0) && decide ((self t).spc = 0) | _ => false) = true := by decide +kernel

/-- `TRET` puts the split and the repeat counter back (R348). -/
theorem test_tret_lane :
    (match exec .tret (laneRecord 0 24) with
      | .next t => (selfGroup t).rep == some (0, 9) && (Vec.get (selfGroup t).splits 0).any (fun x => x.lpc == 24) && readS (self t) 60 == 77 && t.mem.read 0x208004 == 6
      | _ => false) = true := by decide +kernel

/-- R117, R347: `BRK` on the control core enters its vector with cause 9, detail 0x800, slot 0xFE, split 0xF. -/
theorem test_brk :
    (match exec .brk ctlS with | .next t => decide ((self t).trapcause = 0x9800FEF0) && decide ((self t).spc = 0x900) && decide ((self t).trappc = 0x200000) | _ => false) = true := by
  decide +kernel

/-- R92: the word of `ADD s5, s6, s7`, placed at the firmware's entry, is what the first step runs; SPC moves on by 4. -/
theorem test_first_step :
    (match step (State.reset.withFetchWord 32 0x04518700) with | .next t => decide ((t.stream (.ctl 0 0)).spc = 0x200004) | _ => false) = true ∧
    decodeTableWord 32 0x04518700 = some (.add 5 6 7) := by decide +kernel

/-- R9, R21: memory reads what was written and keeps one form: writing 0 removes the cell. -/
theorem test_memory_form :
    Cells.write (Cells.write [] 5 7) 5 0 = [] ∧ (Cells.write (Cells.write [] 5 7) 3 1).wf = true ∧ Cells.read (Cells.write [] 5 7) 5 = 7 := by decide

/-- A binary of one graph without nodes: the header, then a node table and an edge table that link to each other (R80, R81). -/
def emptyGraph : List Byte :=
  leBytes 4 0x1A4D4E43 ++ leBytes 2 1 ++ leBytes 2 0 ++ leBytes 4 2 ++ leBytes 4 64 ++ leBytes 8 64 ++ leBytes 8 128 ++ leBytes 4 0 ++ leBytes 28 0 ++
    (leBytes 4 5 ++ leBytes 4 0 ++ leBytes 8 128 ++ leBytes 8 0 ++ leBytes 4 0 ++ leBytes 4 1) ++
    (leBytes 4 6 ++ leBytes 4 0 ++ leBytes 8 128 ++ leBytes 8 0 ++ leBytes 4 0 ++ leBytes 4 0)

/-- The binary is accepted where no signature is required, and not where one is; a reserved byte of the header that is not zero
has it rejected (R87). -/
theorem test_binary : cnmAccepted [] false emptyGraph = true ∧ cnmAccepted [] true emptyGraph = false ∧
    cnmAccepted [] false (writeBytes emptyGraph 0x30 [1]) = false := by decide +kernel

/-- A cycle of two edges is found; a failed node cancels the node after it on an edge that wants OK, and lets it run on one that
does not (R83). -/
theorem test_edges : acyclicFrom [(0, 1, false), (1, 2, false)] 3 [0, 1, 2] = true ∧ acyclicFrom [(0, 1, false), (1, 0, false)] 2 [0, 1] = false ∧
    nodeFate [(0, 1, false)] [(0, 8)] 1 = .cancelled ∧ nodeFate [(0, 1, true)] [(0, 8)] 1 = .runs ∧ nodeFate [(0, 1, true)] [] 1 = .waits := by decide +kernel

/-- The word 0xA183_C000 of R77's example fills a zero word FS3 (R431). -/
theorem test_formats : numAt (patchSlots (leBytes 12 0 ++ leBytes 4 0xA183C000 ++ leBytes 48 0) (leBytes 256 0)) 0x8C 4 = 0xA183C000 := by decide +kernel

end Sys2Proof.Tests
end

section
/-! SUPPORT. The canonical form of every byte memory (R21; log entry 3), kept by each function of the model: one lemma for each
function that answers a state, in the order of the model's files, so that a proof reads as the chain of the updates it goes
through (`h.issueStore.advance`). -/

namespace Sys2Proof.Machine

-- The proofs are elaborated in order: many short ones at once would each hold a thread, past the check's memory limit.
set_option Elab.async false

/-- The pools of a block are in canonical form. -/
def BlockWf (b : Block) : Prop := b.scratch.wf = true ∧ b.acc.wf = true

/-- What a partial result answers, where it answers. -/
def Answers {ε α : Type} (P : α → Prop) (e : Except ε α) : Prop := ∀ a, e = .ok a → P a

/-- The next state of an outcome, where there is one, is in canonical form. -/
inductive NextCanonical : Out → Prop
  | next {s : State} (h : Canonical s) : NextCanonical (.next s)
  | fault (r : Fault) : NextCanonical (.fault r)
  | refused (r : Refusal) : NextCanonical (.refused r)

/-- The state beside a value is in canonical form. -/
def SndCanonical {β : Type} (r : β × State) : Prop := Canonical r.2

section
variable {ε α β : Type} {P : α → Prop} {Q : β → Prop}

theorem Answers.ok {a : α} (h : P a) : Answers P (.ok a : Except ε α) := fun _ e => by cases e; exact h

theorem Answers.error {x : ε} : Answers P (.error x : Except ε α) := nofun

theorem Answers.raise {cls : TrapClass} {detail : Nat} {addr : Word64} : Answers P (raise cls detail addr) := Answers.error

/-- A step whose own answer does not matter, such as a check. -/
theorem Answers.after {x : Except ε β} {k : β → Except ε α} (hk : ∀ b, Answers P (k b)) : Answers P (x >>= k) := by
  cases x with
  | error e => exact Answers.error
  | ok b => exact hk b

protected theorem Answers.ite {c : Prop} [Decidable c] {x y : Except ε α} (hx : Answers P x) (hy : Answers P y) :
    Answers P (if c then x else y) := by
  split
  · exact hx
  · exact hy

theorem Answers.bind {x : Except ε β} {k : β → Except ε α} (hx : Answers Q x) (hk : ∀ b, Q b → Answers P (k b)) :
    Answers P (x >>= k) := by
  cases x with
  | error e => exact Answers.error
  | ok b => exact hk b (hx b rfl)

theorem Answers.map {x : Except ε β} {f : β → α} (hx : Answers Q x) (hf : ∀ b, Q b → P (f b)) : Answers P (x.map f) := by
  cases x with
  | error e => exact Answers.error
  | ok b => exact Answers.ok (hf b (hx b rfl))

/-- A partial effect along a list keeps what each application keeps. -/
theorem Answers.seqEff {f : β → α → Except ε α} (hf : ∀ b a, P a → Answers P (f b a)) {l : List β} {a : α} (h : P a) :
    Answers P (seqEff f l a) :=
  fun t e => seqEff_keeps P f (fun b x y hxy hx => hf b x hx y hxy) l a t e h

end

theorem NextCanonical.canonical {s : State} : NextCanonical (.next s) → Canonical s
  | .next h => h

protected theorem NextCanonical.ite {c : Prop} [Decidable c] {x y : Out} (hx : NextCanonical x) (hy : NextCanonical y) :
    NextCanonical (if c then x else y) := by
  split
  · exact hx
  · exact hy

theorem SndCanonical.mk {β : Type} {b : β} {s : State} (h : Canonical s) : SndCanonical (b, s) := h

theorem SndCanonical.snd {β : Type} {r : β × State} (h : SndCanonical r) : Canonical r.2 := h

/-! Tables of blocks and cores, and the parts of a state that hold bytes. -/

section
variable {κ ν : Type} [DecidableEq κ]

theorem Table.mem_put {t : Table κ ν} {k : κ} {v : ν} {e : κ × ν} (h : e ∈ Table.put t k v) : e ∈ t ∨ e = (k, v) := by
  induction t with
  | nil => right; simpa [Table.put] using h
  | cons x r ih =>
    by_cases hk : x.1 = k
    · simp only [Table.put, hk, if_true, List.mem_cons] at h
      rcases h with h | h
      · exact .inr h
      · exact .inl (List.mem_cons_of_mem _ h)
    · simp only [Table.put, hk, if_false, List.mem_cons] at h
      rcases h with h | h
      · exact .inl (h ▸ List.mem_cons_self)
      · exact (ih h).imp_left (List.mem_cons_of_mem _)

theorem Table.mem_of_find? {t : Table κ ν} {k : κ} {v : ν} (h : Table.find? t k = some v) : ∃ j, (j, v) ∈ t := by
  induction t with
  | nil => cases h
  | cons x r ih =>
    unfold Table.find? at h
    split at h
    · cases h; exact ⟨_, List.mem_cons_self⟩
    · obtain ⟨j, hj⟩ := ih h
      exact ⟨j, List.mem_cons_of_mem _ hj⟩

theorem Table.mem_of_mem_del {t : Table κ ν} {k : κ} {e : κ × ν} (h : e ∈ Table.del t k) : e ∈ t := by
  induction t with
  | nil => exact h
  | cons x r ih =>
    unfold Table.del at h
    split at h
    · exact List.mem_cons_of_mem _ (ih h)
    · rcases List.mem_cons.mp h with h | h
      · exact h ▸ List.mem_cons_self
      · exact List.mem_cons_of_mem _ (ih h)

end

/-- The weight buffers of every core of a table are in canonical form. -/
def WbufsWf (t : Table (Nat × Nat) Core) : Prop := ∀ e, e ∈ t → e.2.wbuf.wf = true

theorem PoolsWf.find? {t : Table Nat Block} {k : Nat} {b : Block} (h : PoolsWf t) (hb : Table.find? t k = some b) : BlockWf b := by
  obtain ⟨j, hj⟩ := Table.mem_of_find? hb
  exact h _ hj

theorem PoolsWf.put {t : Table Nat Block} {k : Nat} {b : Block} (h : PoolsWf t) (hb : BlockWf b) : PoolsWf (Table.put t k b) := by
  intro e he
  rcases Table.mem_put he with he | rfl
  · exact h e he
  · exact hb

theorem PoolsWf.upd {t : Table Nat Block} {k : Nat} {f : Block → Block} (h : PoolsWf t) (hf : ∀ b, BlockWf b → BlockWf (f b)) :
    PoolsWf (Table.upd t k f) := by
  unfold Table.upd
  split
  · next b hb => exact h.put (hf b (h.find? hb))
  · exact h

theorem PoolsWf.del {t : Table Nat Block} {k : Nat} (h : PoolsWf t) : PoolsWf (Table.del t k) :=
  fun e he => h e (Table.mem_of_mem_del he)

theorem PoolsWf.filter {t : Table Nat Block} {p : Nat × Block → Bool} (h : PoolsWf t) : PoolsWf (t.filter p) :=
  fun e he => h e (List.mem_of_mem_filter he)

theorem PoolsWf.map {t : Table Nat Block} {f : Nat × Block → Nat × Block} (h : PoolsWf t) (hf : ∀ e, BlockWf e.2 → BlockWf (f e).2) :
    PoolsWf (t.map f) := by
  intro e he
  obtain ⟨x, hx, rfl⟩ := List.mem_map.mp he
  exact hf x (h x hx)

theorem WbufsWf.put {t : Table (Nat × Nat) Core} {k : Nat × Nat} {c : Core} (h : WbufsWf t) (hc : c.wbuf.wf = true) :
    WbufsWf (Table.put t k c) := by
  intro e he
  rcases Table.mem_put he with he | rfl
  · exact h e he
  · exact hc

theorem WbufsWf.map {t : Table (Nat × Nat) Core} {f : (Nat × Nat) × Core → (Nat × Nat) × Core} (h : WbufsWf t)
    (hf : ∀ e, e.2.wbuf.wf = true → (f e).2.wbuf.wf = true) : WbufsWf (t.map f) := by
  intro e he
  obtain ⟨x, hx, rfl⟩ := List.mem_map.mp he
  exact hf x (h x hx)

variable {s : State}

protected theorem Canonical.ite {c : Prop} [Decidable c] {t : State} (hs : Canonical s) (ht : Canonical t) : Canonical (if c then s else t) := by
  split
  · exact hs
  · exact ht

/-- A change of any part that holds no bytes. -/
theorem Canonical.same {streams groups launches items colls closed engq mccs ctls pkgs panels lineKeys early owners annexed serial stale
    bad nextId agenda cur choice} (h : Canonical s) :
    Canonical ⟨streams, groups, s.blocks, s.past, launches, items, colls, closed, engq, s.cores, mccs, ctls, pkgs, panels, s.mem,
      lineKeys, early, owners, annexed, serial, stale, bad, nextId, agenda, cur, choice⟩ :=
  ⟨h.mem, h.blocks, h.past, h.wbufs⟩

theorem Canonical.withMem {streams groups launches items colls closed engq mccs ctls pkgs panels mem lineKeys early owners annexed serial stale
    bad nextId agenda cur choice} (h : Canonical s) (hm : mem.wf = true) :
    Canonical ⟨streams, groups, s.blocks, s.past, launches, items, colls, closed, engq, s.cores, mccs, ctls, pkgs, panels, mem,
      lineKeys, early, owners, annexed, serial, stale, bad, nextId, agenda, cur, choice⟩ :=
  ⟨hm, h.blocks, h.past, h.wbufs⟩

theorem Canonical.withCores {streams groups launches items colls closed engq cores mccs ctls pkgs panels lineKeys early owners annexed serial stale
    bad nextId agenda cur choice} (h : Canonical s) (hc : WbufsWf cores) :
    Canonical ⟨streams, groups, s.blocks, s.past, launches, items, colls, closed, engq, cores, mccs, ctls, pkgs, panels, s.mem,
      lineKeys, early, owners, annexed, serial, stale, bad, nextId, agenda, cur, choice⟩ :=
  ⟨h.mem, h.blocks, h.past, hc⟩

theorem Canonical.withBlocks {streams groups blocks past launches items colls closed engq mccs ctls pkgs panels lineKeys early owners annexed serial stale
    bad nextId agenda cur choice} (h : Canonical s) (hb : PoolsWf blocks) (hp : PoolsWf past) :
    Canonical ⟨streams, groups, blocks, past, launches, items, colls, closed, engq, s.cores, mccs, ctls, pkgs, panels, s.mem,
      lineKeys, early, owners, annexed, serial, stale, bad, nextId, agenda, cur, choice⟩ :=
  ⟨h.mem, hb, hp, h.wbufs⟩

protected theorem Canonical.block {b : Nat} (h : Canonical s) : BlockWf (s.block b) := by
  unfold State.block Table.findD
  cases hb : Table.find? s.blocks b with
  | some x => exact h.blocks.find? hb
  | none =>
    cases hp : Table.find? s.past b with
    | some x => exact h.past.find? hp
    | none => exact ⟨rfl, rfl⟩

protected theorem Canonical.core {k : Nat × Nat} (h : Canonical s) : (s.core k).wbuf.wf = true := by
  unfold State.core Table.findD
  cases hk : Table.find? s.cores k with
  | some c =>
    obtain ⟨j, hj⟩ := Table.mem_of_find? hk
    exact h.wbufs _ hj
  | none => rfl

protected theorem Canonical.seqAll {α : Type} {f : α → State → State} {l : List α} (h : Canonical s)
    (hf : ∀ a s, Canonical s → Canonical (f a s)) : Canonical (seqAll f l s) :=
  seqAll_keeps Canonical f hf l s h

/-- A walk through a list that also collects. -/
theorem SndCanonical.foldl {α β : Type} {f : β × State → α → β × State} (hf : ∀ r a, SndCanonical r → SndCanonical (f r a)) :
    ∀ {l : List α} {r : β × State}, SndCanonical r → SndCanonical (l.foldl f r)
  | [], _, h => h
  | a :: l, r, h => SndCanonical.foldl hf (l := l) (hf r a h)

protected theorem Canonical.setStream {ag x} (h : Canonical s) : Canonical (s.setStream ag x) := h.same

protected theorem Canonical.setGroup {ag x} (h : Canonical s) : Canonical (s.setGroup ag x) := h.same

protected theorem Canonical.setBlock {b x} (h : Canonical s) (hb : BlockWf x) : Canonical (s.setBlock b x) :=
  ⟨h.mem, h.blocks.put hb, h.past, h.wbufs⟩

protected theorem Canonical.setLaunch {l x} (h : Canonical s) : Canonical (s.setLaunch l x) := h.same

protected theorem Canonical.setItem {i x} (h : Canonical s) : Canonical (s.setItem i x) := h.same

protected theorem Canonical.setCore {k x} (h : Canonical s) (hx : x.wbuf.wf = true) : Canonical (s.setCore k x) :=
  ⟨h.mem, h.blocks, h.past, WbufsWf.put h.wbufs hx⟩

protected theorem Canonical.setMcc {k x} (h : Canonical s) : Canonical (s.setMcc k x) := h.same

protected theorem Canonical.setCtl {k x} (h : Canonical s) : Canonical (s.setCtl k x) := h.same

protected theorem Canonical.setPkg {p x} (h : Canonical s) : Canonical (s.setPkg p x) := h.same

protected theorem Canonical.setPanel {p x} (h : Canonical s) : Canonical (s.setPanel p x) := h.same

protected theorem Canonical.setEngine {k x} (h : Canonical s) : Canonical (s.setEngine k x) := h.same

protected theorem Canonical.mapStream {ag f} (h : Canonical s) : Canonical (mapStream ag f s) := h.same

protected theorem Canonical.mapSelf {f} (h : Canonical s) : Canonical (mapSelf f s) := h.same

protected theorem Canonical.mapGroup {ag f} (h : Canonical s) : Canonical (mapGroup ag f s) := h.same

protected theorem Canonical.mapSelfGroup {f} (h : Canonical s) : Canonical (mapSelfGroup f s) := h.same

protected theorem Canonical.mapMcc {k f} (h : Canonical s) : Canonical (mapMcc k f s) := h.same

protected theorem Canonical.mapCtl {k f} (h : Canonical s) : Canonical (mapCtl k f s) := h.same

protected theorem Canonical.mapPkg {p f} (h : Canonical s) : Canonical (mapPkg p f s) := h.same

protected theorem Canonical.mapItem {i f} (h : Canonical s) : Canonical (mapItem i f s) := h.same

protected theorem Canonical.mapLaunch {l f} (h : Canonical s) : Canonical (mapLaunch l f s) := h.same

protected theorem Canonical.mapPanel {n f} (h : Canonical s) : Canonical (mapPanel n f s) := h.same

protected theorem Canonical.mapBlock {b f} (h : Canonical s) (hf : ∀ b, BlockWf b → BlockWf (f b) := by exact fun _ h => h) :
    Canonical (mapBlock b f s) := by
  refine ⟨h.mem, h.blocks.upd hf, ?_, h.wbufs⟩
  unfold mapBlock
  dsimp only
  split
  · exact h.past
  · exact h.past.upd hf

protected theorem Canonical.mapCore {k f} (h : Canonical s) (hf : ∀ c, c.wbuf.wf = true → (f c).wbuf.wf = true := by exact fun _ h => h) :
    Canonical (mapCore k f s) :=
  h.setCore (hf _ h.core)

protected theorem Canonical.setReg {r v} (h : Canonical s) : Canonical (setReg r v s) := h.mapSelf

protected theorem Canonical.retire (h : Canonical s) : Canonical (retire s) := by
  unfold retire
  split
  · exact h.mapBlock
  · exact h

protected theorem Canonical.goto {pc} (h : Canonical s) : Canonical (goto pc s) := h.mapSelf.retire

protected theorem Canonical.advance {n} (h : Canonical s) : Canonical (advance n s) := h.goto

protected theorem Canonical.adoptLine {mat line} (h : Canonical s) : Canonical (adoptLine mat line s) := by
  unfold adoptLine
  split
  · exact h
  · exact h.withMem (Cells.wf_writeN _ _ h.mem)

protected theorem Canonical.writeByte {mat k v} (h : Canonical s) : Canonical (writeByte mat k v s) := by
  unfold writeByte
  split
  · exact h
  · exact h.adoptLine.withMem (Cells.wf_write _ _ h.adoptLine.mem)

protected theorem Canonical.writeRange {mat : Under} : ∀ {bs : List Byte} {k : Nat} {s : State}, Canonical s → Canonical (writeRange mat k bs s)
  | [], _, _, h => h
  | _ :: _, _, _, h => h.writeByte.writeRange

protected theorem Canonical.noteStale {before word} (h : Canonical s) : Canonical (noteStale before word s) := by
  unfold noteStale
  split
  · exact h.same
  · exact h

protected theorem Canonical.mirrorValue {k v} (h : Canonical s) : Canonical (mirrorValue k v s) := h.writeByte

protected theorem Canonical.annexByte {k v} (h : Canonical s) : Canonical (annexByte k v s) := by
  unfold annexByte
  split
  · exact h
  · exact h.mirrorValue

protected theorem Canonical.annexPut {k n v} (h : Canonical s) : Canonical (annexPut k n v s) := h.annexByte.same.ite h.annexByte

protected theorem Canonical.annexAt {k n v} (h : Canonical s) : Canonical (annexAt k n v s) := by
  unfold annexAt
  split
  · exact h
  · exact h.annexPut

protected theorem Canonical.annexCopy {homes} (h : Canonical s) : Canonical (annexCopy homes s) := h.seqAll fun _ _ h => h.annexPut

protected theorem Canonical.annexAck {homes} (h : Canonical s) : Canonical (annexAck homes s) := h.seqAll fun _ _ h => h.annexAt

protected theorem Canonical.settleWords {blk ls} (h : Canonical s) : Canonical (settleWords blk ls s) := h.same

protected theorem Canonical.foldShadow {sh} (h : Canonical s) : Canonical (foldShadow sh s) := h.writeRange.settleWords.annexCopy

protected theorem Canonical.foldCoreLine {line c} (h : Canonical s) : Canonical (foldCoreLine line c s) :=
  h.ite (h.seqAll fun _ _ h => h.foldShadow).mapCore

protected theorem Canonical.foldLine {line} (h : Canonical s) : Canonical (foldLine line s) := h.seqAll fun _ _ h => h.foldCoreLine

protected theorem Canonical.foldKeys {ks} (h : Canonical s) : Canonical (foldKeys ks s) := h.seqAll fun _ _ h => h.foldLine

protected theorem Canonical.applyPut {blk p} (h : Canonical s) : Canonical (applyPut blk p s) := by
  unfold applyPut
  split
  · exact h.writeByte
  · split
    · exact h.mapBlock fun _ hb => ⟨Cells.wf_write _ _ hb.1, hb.2⟩
    · exact h

protected theorem Canonical.applyPuts {blk ps} (h : Canonical s) : Canonical (applyPuts blk ps s) :=
  (((h.foldKeys).seqAll fun _ _ h => h.applyPut).seqAll fun _ _ h => h.noteStale).same.settleWords

protected theorem Canonical.devicePuts {ps} (h : Canonical s) : Canonical (devicePuts ps s) := h.applyPuts.annexCopy

protected theorem Canonical.writeCtl {pkg off bs} (h : Canonical s) : Canonical (writeCtl pkg off bs s) := h.devicePuts

protected theorem Canonical.foldAt {l} (h : Canonical s) : Canonical (foldAt l s) := by
  unfold foldAt
  split
  · exact h.foldLine
  · exact h

protected theorem Canonical.fillLine {ag p} (h : Canonical s) : Canonical (fillLine ag p s) := by
  unfold fillLine
  split
  · split
    · exact h
    · exact h.mapCore
  · exact h

protected theorem Canonical.throughL1 {k ps} (h : Canonical s) : Canonical (throughL1 k ps s) := by
  unfold throughL1
  split
  · exact h.mapCore
  · exact h

protected theorem Canonical.dropClean {k} (h : Canonical s) : Canonical (dropClean k s) := by
  unfold dropClean
  split
  · exact h
  · exact h.mapCore

protected theorem Canonical.acquireAt {ag} (h : Canonical s) : Canonical (acquireAt ag s) := by
  unfold acquireAt
  split
  · exact h.dropClean
  · exact h

protected theorem Canonical.qbufStore {ag lane va ps} (h : Canonical s) : Answers Canonical (qbufStore ag lane va ps s) :=
  .after fun _ => .ok h.mapGroup

protected theorem Canonical.issueStore {ag op ps} (h : Canonical s) : Canonical (issueStore ag op ps s) := h.mapStream.ite h.mapStream.same

protected theorem Canonical.awaitDests {ag ds} (h : Canonical s) : Canonical (awaitDests ag ds s) := by
  unfold awaitDests
  split
  · exact h.mapStream.mapGroup
  · exact h.mapStream

protected theorem Canonical.issueLoad {ag op} (h : Canonical s) : Canonical (issueLoad ag op s) := h.mapStream.awaitDests

protected theorem Canonical.issueWrite {ag op ps} (h : Canonical s) : Canonical (issueWrite ag op ps s) := h.issueStore.awaitDests

protected theorem Canonical.addF32 {key mat delta} (h : Canonical s) : Canonical (addF32 key mat delta s) := h.applyPuts

protected theorem Canonical.ownLine {k line} (h : Canonical s) : Canonical (ownLine k line s) := by
  unfold ownLine
  split
  · exact h
  · have hf : Canonical (seqAll (fun c s => if c.1 = k then s else foldCoreLine line c s) s.cores s) :=
      h.seqAll fun _ _ h => h.ite h.foldCoreLine
    refine Canonical.mapCore (hf.withCores (WbufsWf.map hf.wbufs fun e he => ?_))
    split
    · exact he
    · exact he

protected theorem Canonical.foldOther {k line std w} (h : Canonical s) : Canonical (foldOther k line std w s) := by
  unfold foldOther
  split
  · exact h.foldCoreLine
  · exact h

protected theorem Canonical.shadowAdd {k key mat std w x} (h : Canonical s) : Canonical (shadowAdd k key mat std w x s) := by
  unfold shadowAdd
  exact h.ownLine.foldOther.mapCore

protected theorem Canonical.contribute {k key mat ftype delta} (h : Canonical s) : Canonical (contribute k key mat ftype delta s) := by
  unfold contribute
  split
  · exact h.ownLine.addF32
  · exact h.shadowAdd

protected theorem Canonical.writeBuffer {k blk puts ps} (h : Canonical s) : Canonical (writeBuffer k blk puts ps s) :=
  h.applyPuts.throughL1.seqAll fun _ _ h => h.contribute

protected theorem Canonical.emptyBuffer {ag} (h : Canonical s) : Canonical (emptyBuffer ag s) := h.mapGroup.same

protected theorem Canonical.commitBuffer {ag} (h : Canonical s) : Canonical (commitBuffer ag s) := by
  unfold commitBuffer
  split
  · refine h.ite (Canonical.issueStore ?_)
    split
    · exact h.writeBuffer.emptyBuffer
    · exact h.writeBuffer.emptyBuffer.mapStream
  · exact h

protected theorem Canonical.commitOwn {ag} (h : Canonical s) : Canonical (commitOwn ag s) := by
  unfold commitOwn
  split
  · exact h.ite h.foldKeys.commitBuffer.same
  · exact h

protected theorem Canonical.restoreWord {k w} (h : Canonical s) : Canonical (restoreWord k w s) := by
  have hw : Canonical (match w.loc with
      | .phys a => writeRange w.mat a w.bytes s
      | .scr o => mapBlock w.block (fun b => { b with scratch := b.scratch.writeN o w.bytes }) s) := by
    split
    · exact h.writeRange
    · exact h.mapBlock fun _ hb => ⟨Cells.wf_writeN _ _ hb.1, hb.2⟩
  exact hw.ite hw.mapCore

protected theorem Canonical.redoMove {k blk m} (h : Canonical s) : Canonical (redoMove k blk m s) := by
  unfold redoMove
  split
  · exact (h.ite h.foldKeys).applyPut
  · split
    · exact h.writeRange
    · exact h.shadowAdd

protected theorem Canonical.undoWord {k moved w} (h : Canonical s) : Canonical (undoWord k moved w s) := h.restoreWord.seqAll fun _ _ h => h.redoMove

protected theorem Canonical.writeHeld {k blk x} (h : Canonical s) : Canonical (writeHeld k blk x s) := h.writeBuffer.annexCopy

protected theorem Canonical.commitTurn {k blk moved held ags i} (h : Canonical s) : Canonical (commitTurn k blk moved held ags i s) :=
  ((h.seqAll fun _ _ h => h.writeHeld).seqAll fun _ _ h => h.commitBuffer.ite h).seqAll fun _ _ h => h.redoMove

protected theorem Canonical.commitBlock {blk ags} (h : Canonical s) : Canonical (commitBlock blk ags s) :=
  have hw := (h.seqAll fun _ _ h => h.undoWord).seqAll fun _ _ h => h.commitTurn
  (hw.ite hw.annexCopy.dropClean).mapBlock.same

end Sys2Proof.Machine
end

section
/-! SUPPORT. O27: the canonical form through failures, traps, operand queues, branches, barriers, phasers and atomic operations. -/

namespace Sys2Proof.Machine

-- in order, so that no thread waits for an earlier proof
set_option Elab.async false

variable {s : State}

protected theorem Canonical.stuckBarriers {blk} (h : Canonical s) : Canonical (stuckBarriers blk s) :=
  h.seqAll fun _ _ h => (h.seqAll fun _ _ h => h.mapStream.ite h).ite h

protected theorem Canonical.endGroup {ag} (h : Canonical s) : Canonical (endGroup ag s) := h.mapStream.mapGroup.mapBlock.stuckBarriers

protected theorem Canonical.failBlock {blk st} (h : Canonical s) : Canonical (failBlock blk st s) := h.mapBlock

protected theorem Canonical.endFailed {ag st} (h : Canonical s) : Canonical (endFailed ag st s) := h.failBlock.endGroup

protected theorem Canonical.killBlock {st how blk} (h : Canonical s) : Canonical (killBlock st how blk s) :=
  h.failBlock.mapBlock.ite (h.failBlock.seqAll fun _ _ h => h.ite h.endGroup.mapStream)

protected theorem Canonical.endGang {k st} (h : Canonical s) : Canonical (endGang k st s) := h.mapStream.mapMcc.seqAll fun _ _ h => h.killBlock

protected theorem Canonical.writeDescriptorFlags {pkg} (h : Canonical s) : Canonical (writeDescriptorFlags pkg s) := h.writeCtl.writeCtl.writeCtl

protected theorem Canonical.queueFault {pkg u} (h : Canonical s) : Canonical (queueFault pkg u s) := h.ite h.mapPkg.writeDescriptorFlags

protected theorem Canonical.noteBad {keys} (h : Canonical s) : Canonical (noteBad keys s) :=
  h.seqAll fun _ _ h => (h.mapPkg.queueFault.ite h.mapPkg).ite h

protected theorem Canonical.killGang {k blk} (h : Canonical s) : Canonical (killGang k blk s) := by
  refine Canonical.seqAll ?_ fun _ _ h => h.killBlock
  split
  · exact h.ite h.mapMcc.mapStream
  · exact h

protected theorem Canonical.inTurn : ∀ {bs : List Nat} {s : State}, Canonical s → Canonical (inTurn bs s)
  | [], _, h => h
  | _ :: r, _, h => Canonical.inTurn (bs := r) (h.seqAll fun _ _ h => h.mapBlock)

protected theorem Canonical.fenceCore {k} (h : Canonical s) : Canonical (fenceCore k s) := h.ite (h.mapCore.inTurn.seqAll fun _ _ h => h.killGang)

protected theorem Canonical.machineCore {k wslot addr} (h : Canonical s) : Canonical (machineCore k wslot addr s) :=
  h.ite h.mapPkg.fenceCore.queueFault

protected theorem Canonical.machineMcc {k addr} (h : Canonical s) : Canonical (machineMcc k addr s) :=
  h.ite (h.mapMcc.mapStream.mapPkg.queueFault.seqAll fun _ _ h => h.fenceCore)

protected theorem Canonical.areaFault {ag st addr} (h : Canonical s) : Canonical (areaFault ag st addr s) := by
  unfold areaFault
  split
  · exact h.failBlock.machineCore
  · exact (h.seqAll fun _ _ h => h.failBlock).machineMcc
  · exact h

protected theorem Canonical.enterVector {ag cls cause addr} (h : Canonical s) : Canonical (enterVector ag cls cause addr s) := h.mapStream

protected theorem Canonical.enterRecord {ag t lane wslot split rpt} (h : Canonical s) :
    Answers Canonical (enterRecord ag t lane wslot split rpt s) := by
  unfold enterRecord
  dsimp only
  split
  · exact .error
  · exact .ok h.mapStream.devicePuts.same.mapStream.enterVector

protected theorem Canonical.dropOnce {ag t} (h : Canonical s) : Canonical (dropOnce ag t s) := by
  unfold dropOnce
  split
  · exact h.mapStream
  · exact h

/-- A trap that cannot be recorded is a fault of the area that its record lies in. -/
protected theorem Canonical.recordOrFault {ag st addr} {r : Eff} (h : Canonical s) (hr : Answers Canonical r) :
    Canonical (match (generalizing := false) r with
      | .ok s' => s'
      | .error .stall => s
      | .error _ => areaFault ag st addr s) := by
  split
  · exact hr _ rfl
  · exact h
  · exact h.areaFault

protected theorem Canonical.takeTrap {ag t lane} (h : Canonical s) : Canonical (takeTrap ag t lane s) := by
  unfold takeTrap
  cases ag with
  | ctl => exact h.dropOnce.enterVector
  | group => exact h.dropOnce.endFailed.ite (h.dropOnce.recordOrFault h.dropOnce.enterRecord)
  | mcc => exact h.dropOnce.endGang.ite (h.dropOnce.recordOrFault h.dropOnce.enterRecord)

protected theorem Canonical.finish {r} (h : Canonical s) (hr : Answers Canonical r) : NextCanonical (finish s r) := by
  unfold finish
  split
  · exact .next (hr _ rfl)
  · exact .next h
  · exact .next h.takeTrap

protected theorem Canonical.finishLane {r} (h : Canonical s) (hr : Answers Canonical r) : NextCanonical (finishLane s r) := by
  unfold finishLane
  split
  · exact .next (hr _ rfl)
  · exact .next h
  · exact .next h.takeTrap

protected theorem Canonical.finishEvent {r} (h : Canonical s) (hr : Answers Canonical r) : NextCanonical (finishEvent s r) := by
  unfold finishEvent
  split
  · exact .next (hr _ rfl)
  · exact .next h

protected theorem Canonical.returnLane {ag r} (h : Canonical s) : Answers Canonical (returnLane ag r s) := by
  unfold returnLane
  split
  · exact .ok h
  · split
    · exact .raise
    · exact .after fun _ => .ok h.mapGroup

protected theorem Canonical.leaveHandler {ag} (h : Canonical s) : Canonical (leaveHandler ag s) := h.mapStream.retire

protected theorem Canonical.trapReturn (h : Canonical s) : Answers Canonical (trapReturn s) := by
  refine .after fun _ => .ite (.ok h.areaFault) (.after fun _ => .ite (.ok h.leaveHandler) ?_)
  dsimp only
  split
  · exact .error
  · exact .ok h.areaFault
  · refine .ite (.ok h.areaFault) (.ite ?_ ?_)
    · exact .bind h.foldAt.returnLane fun s h => .ok h.mapStream.devicePuts.leaveHandler
    · exact .bind (.ok h.foldAt) fun s h => .ok h.mapStream.devicePuts.leaveHandler

protected theorem Canonical.snapshot {c n} (h : Canonical s) : Answers SndCanonical (snapshot c n s) :=
  .after fun _ => .after fun _ => .after fun _ => .after fun _ => .ite
    (.after fun _ => .after fun _ => .ok h.foldKeys) (.after fun _ => .after fun _ => .ok h.foldKeys)

protected theorem Canonical.snapshotReg {c v} (h : Canonical s) : Answers SndCanonical (snapshotReg c v s) := .after fun _ => h.snapshot

protected theorem Canonical.foldPush {c d take} (h : Canonical s) : Canonical (foldPush c d take s) := h.ite (h.seqAll fun _ _ h => h.foldAt)

protected theorem Canonical.noteServed {ag n} (h : Canonical s) : Canonical (noteServed ag n s) := by
  unfold noteServed
  split
  · exact h.mapCore
  · exact h

protected theorem Canonical.poisonQueue {ag n cls detail addr} (h : Canonical s) : Canonical (poisonQueue ag n cls detail addr s) := h.mapGroup

protected theorem Canonical.pushNow {ag n x} (h : Canonical s) : Answers Canonical (pushNow ag n x s) := by
  unfold pushNow
  dsimp only
  split
  · exact .ok h.poisonQueue
  · exact .ok h.poisonQueue
  · split
    · exact .ok h.noteBad.poisonQueue
    · exact .after fun _ => .ok h.foldPush.mapGroup

protected theorem Canonical.lrunForm {f} (h : Canonical s) : NextCanonical (lrunForm f s) :=
  h.finish (.after fun _ => .after fun _ => .ok h.mapSelfGroup.advance)

protected theorem Canonical.deliver {dests len} (h : Canonical s) : Answers Canonical (deliver dests len s) := .after fun _ => .ok h.issueLoad.advance

protected theorem Canonical.dropSnapshots {pkg n} (h : Canonical s) : Canonical (dropSnapshots pkg n s) := h.same

protected theorem Canonical.rflush {a} (h : Canonical s) : Answers Canonical (rflush a s) :=
  .after fun _ => .after fun _ => .ok (h.ite h.dropSnapshots).advance

protected theorem Canonical.rqry {d a f} (h : Canonical s) : Answers Canonical (rqry d a f s) :=
  .after fun _ => .bind h.snapshotReg fun _ h => .after fun _ => Canonical.deliver h

protected theorem Canonical.transfer {target eff} (h : Canonical (eff s)) : Answers Canonical (transfer target eff s) := by
  refine .after fun _ => .after fun _ => ?_
  dsimp only
  split
  · exact .after fun _ => .ok h.goto
  · exact .ok h.goto

protected theorem Canonical.branch {taken f} (h : Canonical s) : NextCanonical (branch taken f s) :=
  (h.finish (Canonical.transfer h)).ite (.next h.advance)

protected theorem Canonical.beqForm {a b f} (h : Canonical s) : NextCanonical (beqForm a b f s) := h.branch

protected theorem Canonical.bneForm {a b f} (h : Canonical s) : NextCanonical (bneForm a b f s) := h.branch

protected theorem Canonical.bltForm {a b f} (h : Canonical s) : NextCanonical (bltForm a b f s) := h.branch

protected theorem Canonical.bgeForm {a b f} (h : Canonical s) : NextCanonical (bgeForm a b f s) := h.branch

protected theorem Canonical.bltuForm {a b f} (h : Canonical s) : NextCanonical (bltuForm a b f s) := h.branch

protected theorem Canonical.bgeuForm {a b f} (h : Canonical s) : NextCanonical (bgeuForm a b f s) := h.branch

protected theorem Canonical.loopForm {a b f} (h : Canonical s) : NextCanonical (loopForm a b f s) :=
  (h.finish (Canonical.transfer (eff := setReg a _) h.setReg)).ite (.next h.setReg.advance)

protected theorem Canonical.jForm {f} (h : Canonical s) : NextCanonical (jForm f s) := h.finish (Canonical.transfer h)

protected theorem Canonical.callForm {f} (h : Canonical s) : NextCanonical (callForm f s) := h.finish (Canonical.transfer h.setReg)

protected theorem Canonical.jrForm {a f} (h : Canonical s) : NextCanonical (jrForm a f s) := h.finish (Canonical.transfer h)

protected theorem Canonical.callrForm {d a f} (h : Canonical s) : NextCanonical (callrForm d a f s) := h.finish (Canonical.transfer h.setReg)

protected theorem Canonical.setPhaser {r x} (h : Canonical s) : Canonical (setPhaser r x s) := h.mapPkg

protected theorem Canonical.dropAll {p pkg} (h : Canonical s) : Canonical (dropAll p pkg s) := h.mapPkg

protected theorem Canonical.whenPerformed {k} (h : Canonical s) (hk : ∀ s, Canonical s → Answers Canonical (k s)) :
    Answers Canonical (whenPerformed s k) := by
  unfold whenPerformed
  split
  · exact hk s h
  · exact .ok h

protected theorem Canonical.setBarrier {blk id x} (h : Canonical s) : Canonical (setBarrier blk id x s) := h.mapBlock

protected theorem Canonical.completeBarrier {blk id} (h : Canonical s) : Canonical (completeBarrier blk id s) := h.commitBlock.setBarrier

protected theorem Canonical.arrive {id n} (h : Canonical s) : Answers Canonical (arrive id n s) :=
  .after fun _ => .after fun _ => .ok (h.setBarrier.mapSelfGroup.completeBarrier.ite h.setBarrier.mapSelfGroup)

protected theorem Canonical.barWait {id n} (h : Canonical s) : Answers Canonical (barWait id n s) := by
  have hc : Canonical (advance 4 (mapSelf (fun y => { y with half := none }) (mapSelfGroup (fun g => { g with arrived := Table.del g.arrived id }) s))) :=
    h.mapSelfGroup.mapSelf.advance
  unfold barWait
  dsimp only
  split
  · exact .ite (.after fun _ => .error) (.ok hc)
  · exact .ite (.ok hc) (.after fun _ => .ok h.setBarrier.mapSelf.stuckBarriers)

protected theorem Canonical.phsig {r v after} (h : Canonical s) (ha : ∀ n s, Canonical s → Answers Canonical (after n s)) :
    Answers Canonical (phsig r v after s) :=
  .after fun _ => h.commitOwn.whenPerformed fun _ h => .after fun _ => ha _ _ h.setPhaser

protected theorem Canonical.phwaitDone {d r n g} (h : Canonical s) : Canonical (phwaitDone d r n g s) := h.setPhaser.acquireAt.mapSelf.setReg.advance

protected theorem Canonical.phwaitFor {d r pos} (h : Canonical s) : Answers Canonical (phwaitFor d r pos s) := by
  unfold phwaitFor
  split
  · split
    · exact .ok h.phwaitDone
    · exact .error
  · exact .error

protected theorem Canonical.yieldForm {f} (h : Canonical s) : NextCanonical (yieldForm f s) :=
  h.finish (.after fun _ => .after fun _ => .ite (.after fun _ => .ok h.goto)
    (.ite (.ok h.commitOwn.goto) (.ok h.commitOwn.mapSelf.mapSelfGroup.retire)))

protected theorem Canonical.disownLine {line} (h : Canonical s) : Canonical (disownLine line s) :=
  h.foldLine.withCores (WbufsWf.map h.foldLine.wbufs fun _ he => he)

protected theorem Canonical.takeLine {ag l} (h : Canonical s) : Canonical (takeLine ag l s) := by
  unfold takeLine
  split
  · exact h.foldLine.ownLine
  · exact h.disownLine
  · exact h

protected theorem Canonical.rmw {c p size f} (h : Canonical s) : SndCanonical (rmw c p size f s) := h.takeLine.applyPuts

protected theorem Canonical.noteError {c p size sregs va} (h : Canonical s) : Canonical (noteError c p size sregs va s) := by
  unfold noteError
  split
  · exact h
  · exact h.mapSelf.noteBad

protected theorem Canonical.atomAt {op t d x cmp va len p} (h : Canonical s) : Answers Canonical (atomAt op t d x cmp va len p s) := by
  refine .after fun _ => .after fun _ => ?_
  dsimp only
  exact .ok h.noteError.rmw.snd.issueWrite.advance

protected theorem Canonical.releaseFirst {rel k} (h : Canonical s) (hk : ∀ s, Canonical s → Answers Canonical (k s)) :
    Answers Canonical (releaseFirst rel s k) := by
  unfold releaseFirst
  split
  · exact h.commitOwn.whenPerformed hk
  · exact hk s h

protected theorem Canonical.reduceAt {c op t x p} (h : Canonical s) : Canonical (reduceAt c op t x p s) := by
  unfold reduceAt
  split
  · dsimp only
    split
    · exact h.shadowAdd
    · exact h.foldLine.applyPuts
    · exact h.applyPuts
  · exact h.rmw

end Sys2Proof.Machine
end

section
/-! SUPPORT. O27: the canonical form through the lane unit. -/

namespace Sys2Proof.Machine

-- in order, so that no thread waits for an earlier proof
set_option Elab.async false

variable {s : State}

protected theorem Canonical.mapSplit {id f} (h : Canonical s) : Canonical (mapSplit id f s) := h.mapSelfGroup

protected theorem Canonical.clearRegs {ag rs ls} (h : Canonical s) : Canonical (clearRegs ag rs ls s) := h.ite h.same

protected theorem Canonical.writeMask {e k bits} (h : Canonical s) : Canonical (writeMask e k bits s) := h.mapSplit

protected theorem Canonical.setConverter {z} (h : Canonical s) : Canonical (setConverter z s) := by
  unfold setConverter
  split
  · exact h.mapCore
  · exact h.mapMcc
  · exact h

protected theorem Canonical.draw {rm} (h : Canonical s) : SndCanonical (draw rm s) := by
  unfold draw
  split
  · exact h.setConverter
  · exact h

protected theorem Canonical.laneNext (h : Canonical s) : Canonical (laneNext s) := by
  unfold laneNext
  split
  · exact h
  · exact h.mapSplit.retire.mapSelfGroup

protected theorem Canonical.laneStep {body} (h : Canonical s) (hb : Answers Canonical (body s)) : NextCanonical (laneStep body s) :=
  h.finishLane (hb.map fun _ h => h.laneNext)

protected theorem Canonical.laneMap {ts td rm f w} (h : Canonical s) : Answers Canonical (laneMap ts td rm f w s) := by
  refine .after fun _ => .after fun _ => ?_
  dsimp only
  exact .ok h.draw.snd.setGroup

protected theorem Canonical.laneCross {ts td rm f w} (h : Canonical s) : Answers Canonical (laneCross ts td rm f w s) := by
  refine .after fun _ => .after fun _ => ?_
  dsimp only
  exact .ok h.draw.snd.setGroup

protected theorem Canonical.laneMask {ts f w} (h : Canonical s) : Answers Canonical (laneMask ts f w s) :=
  .after fun _ => .after fun _ => .ok h.setGroup.writeMask

protected theorem Canonical.alu {f d a b} (h : Canonical s) : NextCanonical (alu f d a b s) := .next h.setReg.advance

protected theorem Canonical.aluImm {f d a imm len} (h : Canonical s) : NextCanonical (aluImm f d a imm len s) := .next h.setReg.advance

protected theorem Canonical.bodyCvt {w} (h : Canonical s) : Answers Canonical (bodyCvt w s) := .after fun _ => h.laneMap

protected theorem Canonical.maskForm {f w} (h : Canonical s) : Answers Canonical (maskForm f w s) := .after fun _ => .ok h.writeMask

protected theorem Canonical.bodyGreds {op w} (h : Canonical s) : Answers Canonical (bodyGreds op w s) := by
  refine .after fun _ => .after fun _ => ?_
  dsimp only
  exact .ok h.draw.snd.setGroup

protected theorem Canonical.takeDeferred {lane d} (h : Canonical s) : Canonical (takeDeferred lane d s) := h.takeTrap

protected theorem Canonical.ctlDone (h : Canonical s) : Canonical (ctlDone s) := h.mapSelfGroup.retire

protected theorem Canonical.laneBranch {taken w} (h : Canonical s) : Answers Canonical (laneBranch taken w s) := by
  refine .after fun x => ?_
  dsimp only
  refine .after fun _ => .ite (.ok h.mapSelfGroup) (.ite (.ok h.mapSelfGroup) ?_)
  split
  · exact .ok h.mapSelfGroup
  · exact .after fun _ => .ok h.mapSelfGroup

protected theorem Canonical.endingSplit {id sp f} (h : Canonical s) : NextCanonical (endingSplit id sp f s) := by
  unfold endingSplit
  split
  · exact .next h.takeDeferred
  · exact h.finishLane (.after fun _ => .ok h.mapSelfGroup.ctlDone)

protected theorem Canonical.loadAt {d signed size va len p} (h : Canonical s) : Answers Canonical (loadAt d signed size va len p s) :=
  .after fun _ => .after fun _ => .ok h.foldAt.fillLine.issueLoad.advance

protected theorem Canonical.ldsForm {signed size d a f} (h : Canonical s) : NextCanonical (ldsForm signed size d a f s) :=
  h.finish (.after fun _ => h.loadAt)

protected theorem Canonical.storeNow {blk va ps} (h : Canonical s) : Canonical (storeNow blk va ps s) := by
  refine Canonical.issueWrite ?_
  split
  · exact h.applyPuts.throughL1
  · exact h.applyPuts

protected theorem Canonical.storeAt {bs va len p} (h : Canonical s) : Answers Canonical (storeAt bs va len p s) :=
  .after fun _ => .ite (.bind h.qbufStore fun _ h => .ok h.issueWrite.advance) (.after fun _ => .ok h.storeNow.advance)

protected theorem Canonical.stsForm {size b a f} (h : Canonical s) : NextCanonical (stsForm size b a f s) := h.finish (.after fun _ => h.storeAt)

protected theorem Canonical.laneDefer {err} (h : Canonical s) : Canonical (laneDefer err s) := by
  unfold laneDefer
  split
  · exact h.mapSelf
  · exact h

protected theorem Canonical.emptyLines {blk rs} (h : Canonical s) : Canonical (emptyLines blk rs s) :=
  h.seqAll fun r s h => by
    split
    · exact h.mapBlock
    · exact h

protected theorem Canonical.laneLoad {find consume w} (h : Canonical s) : Answers Canonical (laneLoad find consume w s) :=
  .after fun _ => .after fun _ => .after fun _ => .after fun _ => .after fun _ => .ite (.ok h) (.ok (Canonical.issueLoad
    (((h.seqAll fun _ _ h => h.foldAt).seqAll fun _ _ h => h.fillLine).emptyLines.ite
      ((h.seqAll fun _ _ h => h.foldAt).seqAll fun _ _ h => h.fillLine))))

protected theorem Canonical.storeLanes {c xs} (h : Canonical s) : Answers Canonical (storeLanes c xs s) := by
  refine .after fun _ => .after fun _ => .ok (Canonical.issueWrite ?_)
  split
  · exact h.mapGroup.applyPuts.throughL1
  · exact h.mapGroup.applyPuts

protected theorem Canonical.bodyStl {w} (h : Canonical s) : Answers Canonical (bodyStl w s) := by
  refine .after fun _ => .after fun _ => .after fun _ => .after fun _ => .after fun _ => ?_
  dsimp only
  exact .ite (.ok h.setGroup.draw.snd) h.setGroup.draw.snd.laneDefer.storeLanes

protected theorem Canonical.sttBody {wait w} (h : Canonical s) : Answers Canonical (sttBody wait w s) :=
  .after fun _ => .after fun _ => .after fun _ => .after fun _ => .after fun _ => .after fun _ =>
    .ok (h.setGroup.applyPuts.mapBlock.ite h.setGroup.applyPuts.mapBlock.issueWrite)

protected theorem Canonical.bodyLda {w} (h : Canonical s) : Answers Canonical (bodyLda w s) := by
  refine .after fun _ => .after fun _ => .after fun _ => ?_
  split
  · exact .raise
  · exact .after fun _ => .ok (h.ite h.issueLoad)

protected theorem Canonical.rmwLanes {c size f} : ∀ {rs : List LaneRef} {s : State}, Canonical s → SndCanonical (rmwLanes c size f rs s)
  | [], _, h => h
  | _ :: r, _, h => Canonical.rmwLanes (rs := r) h.rmw.snd

protected theorem Canonical.noteLanes {c id dst size rs} (h : Canonical s) : Canonical (noteLanes c id dst size rs s) := h.laneDefer.noteBad

protected theorem Canonical.deliverOlds {c w t size rs olds} (h : Canonical s) : Canonical (deliverOlds c w t size rs olds s) := h.issueWrite

protected theorem Canonical.bodyAtomLane {op w} (h : Canonical s) : Answers Canonical (bodyAtomLane op w s) := by
  refine .after fun _ => .after fun _ => .after fun _ => .after fun _ => .after fun _ => .after fun _ => ?_
  dsimp only
  exact .ite (.ok h.setGroup) (.ok h.setGroup.noteLanes.rmwLanes.snd.deliverOlds)

protected theorem Canonical.bodyRedLane {op w} (h : Canonical s) : Answers Canonical (bodyRedLane op w s) :=
  .after fun _ => .after fun _ => .after fun _ => .after fun _ => .after fun _ => .after fun _ =>
    .ite (.ok h.setGroup) (.ok (h.setGroup.noteLanes.seqAll fun _ _ h => h.reduceAt).issueWrite)

protected theorem Canonical.bodyAmaxrdLane {w} (h : Canonical s) : Answers Canonical (bodyAmaxrdLane w s) := by
  refine .after fun _ => .after fun _ => .after fun _ => .after fun _ => ?_
  dsimp only
  exact .ite (.ok h) (.ok h.noteLanes.rmwLanes.snd.deliverOlds)

protected theorem Canonical.bodySegl {w} (h : Canonical s) : Answers Canonical (bodySegl w s) :=
  .after fun _ => .after fun _ => .bind h.snapshot fun _ h => .after fun _ => .ok h.snd.setGroup

protected theorem Canonical.bodySegb {w} (h : Canonical s) : Answers Canonical (bodySegb w s) :=
  .after fun _ => .after fun _ => .bind h.snapshot fun _ h => .after fun _ => .ite .error (.ok h.snd.setGroup)

protected theorem Canonical.gridSnapshot {c n} (h : Canonical s) : Answers SndCanonical (gridSnapshot c n s) :=
  .after fun _ => .after fun _ => .after fun _ => .after fun _ => .ok h.foldKeys

protected theorem Canonical.bodyHgld {w} (h : Canonical s) : Answers Canonical (bodyHgld w s) :=
  .after fun _ => .after fun _ => .bind h.gridSnapshot fun _ h => .after fun _ => .after fun _ => .after fun _ =>
    .ite (.ok h.snd) (.ok ((h.snd.seqAll fun _ _ h => h.foldAt).seqAll fun _ _ h => h.fillLine).issueLoad)

protected theorem Canonical.bodyHgsc {w} (h : Canonical s) : Answers Canonical (bodyHgsc w s) :=
  .after fun _ => .after fun _ => .bind h.gridSnapshot fun _ h => .after fun _ => .after fun _ => .after fun _ =>
    .ite (.ok h.snd) (.ite (.after fun _ => .ok h.snd.mapSelfGroup.issueWrite) (.ok (h.snd.noteLanes.seqAll fun x s h => by
      split
      · exact h.contribute
      · exact h).issueWrite))

protected theorem Canonical.foldReads {c vas} (h : Canonical s) : Canonical (foldReads c vas s) :=
  h.ite (h.seqAll fun _ _ h => by
    split
    · exact h.foldAt
    · exact h)

protected theorem Canonical.putDevice {p bs} (h : Canonical s) : Canonical (putDevice p bs s) := h.devicePuts

protected theorem Canonical.queueFail {pkg q st} (h : Canonical s) : Canonical (queueFail pkg q st s) := (h.writeCtl.ite h).writeCtl

protected theorem Canonical.endRecord {c} : ∀ {fuel va st} {s : State}, Canonical s → Answers SndCanonical (endRecord c fuel va st s)
  | 0, _, _, _, h => .ok h
  | fuel + 1, va, st, s, h => by
    unfold endRecord
    split
    · exact .error
    · exact .ok h
    · split
      · exact .ok h
      · exact .ite h.foldAt.putDevice.endRecord (.ok h.foldAt.putDevice)

protected theorem Canonical.endAt {c queue va st} (h : Canonical s) : Answers Canonical (endAt c queue va st s) :=
  .bind h.endRecord fun _ h => .ok (by
    split
    · exact h.snd.queueFail
    · exact h.snd)

protected theorem Canonical.failureEntry {c frep index st lcore} (h : Canonical s) : Canonical (failureEntry c frep index st lcore s) := by
  refine h.ite ?_
  split
  · exact h
  · refine Canonical.putDevice (Canonical.ite ?_ h.foldAt)
    split
    · exact h.foldAt
    · exact h.foldAt.putDevice

protected theorem Canonical.endLaunchBlock {id index st lcore} (h : Canonical s) : Answers Canonical (endLaunchBlock id index st lcore s) :=
  .bind (h.ite h.failureEntry).endAt fun _ h => .ok (h.mapLaunch.mapPkg.ite h.mapLaunch)

protected theorem Canonical.endUnplaced {id st} (h : Canonical s) : Answers Canonical (endUnplaced id st s) :=
  .seqEff (fun _ _ h => h.endLaunchBlock) h.mapLaunch

end Sys2Proof.Machine
end

section
/-! SUPPORT. O27: the canonical form through items, collectives, system registers, launches and rings. -/

namespace Sys2Proof.Machine

-- in order, so that no thread waits for an earlier proof
set_option Elab.async false

variable {s : State}

protected theorem Canonical.addItem {x} (h : Canonical s) : Canonical (addItem x s) := by
  unfold addItem
  dsimp only
  split
  · exact h.same.setItem
  · exact h.same.setItem.setEngine

protected theorem Canonical.leaveQueues {id} (h : Canonical s) : Canonical (leaveQueues id s) := h.same

protected theorem Canonical.fillLines {blk ls} (h : Canonical s) : Canonical (fillLines blk ls s) := by
  unfold fillLines
  split
  · exact h.ite h.mapBlock
  · exact h

protected theorem Canonical.settle {x st} (h : Canonical s) : Canonical (settle x st s) := h.ite (h.mapBlock.ite h.mapStream.mapStream)

protected theorem Canonical.signalPhaser {viewer hd who v} (h : Canonical s) : Canonical (signalPhaser viewer hd who v s) := h.setPhaser.ite h

protected theorem Canonical.dropAttempt {x} (h : Canonical s) : Canonical (dropAttempt x s) := by
  unfold dropAttempt
  split
  · exact Canonical.ite (h.withBlocks h.blocks h.past.del) h
  · exact h

protected theorem Canonical.recordDone {x : Item} {st} (h : Canonical s) :
    Canonical (match x.crec with | some p => putDevice p (completionBytes x st) s | none => s) := by
  split
  · exact h.putDevice
  · exact h

protected theorem Canonical.endItem {id st} (h : Canonical s) : Answers Canonical (endItem id st s) := by
  refine .ite (.bind (.ok h.fillLines.recordDone) fun _ h => .ok ?_) (.bind h.fillLines.recordDone.endAt fun _ h => .ok ?_)
  all_goals exact (h.mapPkg.signalPhaser.settle.acquireAt.ite h.mapPkg.signalPhaser.settle).same.leaveQueues.dropAttempt

protected theorem Canonical.touchLease {x va} (h : Canonical s) : Canonical (touchLease x va s) := by
  unfold touchLease
  split
  · refine h.ite ?_
    split
    · exact h
    · exact h.foldLine.ite h
  · exact h

protected theorem Canonical.copyRecord {x d} (h : Canonical s) : Answers SndCanonical (copyRecord x d s) :=
  .ite (.bind h.snapshot fun _ h => .after fun _ => .after fun _ => .ok h.snd) (.ok h)

protected theorem Canonical.releaseEntry {b i e} (h : Canonical s) : Answers Canonical (releaseEntry b i e s) := by
  unfold releaseEntry
  dsimp only
  split
  · exact .ite h.mapBlock.addItem.endItem (.ok h.mapBlock.addItem)
  · exact .error
  · exact h.mapBlock.addItem.endItem

protected theorem Canonical.releaseDue {b} (h : Canonical s) : Answers Canonical (releaseDue b s) := by
  unfold releaseDue
  split
  · exact .ok h
  · exact .seqEff (fun _ _ h => .ite h.releaseEntry (.ok h)) h

protected theorem Canonical.finishItem {id st} (h : Canonical s) : Answers Canonical (finishItem id st s) :=
  .bind h.endItem fun _ h => by
    split
    · exact h.releaseDue
    · exact .ok h

protected theorem Canonical.issueItem {x} (h : Canonical s) : Answers Canonical (issueItem x s) := by
  unfold issueItem
  dsimp only
  split
  · exact .ite h.addItem.mapSelf.finishItem (.ok h.addItem.mapSelf)
  · exact .ok h.addItem.mapSelf

/-- Of two answers of an owner, each with its state. -/
theorem Canonical.iteAnswer {α β : Type} {c : Prop} [Decidable c] {x x' : α} {y y' : β} {t : State} (hs : Canonical s) (ht : Canonical t) :
    Canonical (if c then (x, y, s) else (x', y', t)).2.2 := by
  split
  · exact hs
  · exact ht

protected theorem Canonical.performRemote {x} (h : Canonical s) : Canonical (performRemote x s).2.2 := by
  unfold performRemote
  dsimp only
  split
  · split
    · exact h.touchLease
    · exact h.touchLease.noteBad.iteAnswer h.touchLease.rmw.snd
  · split
    · exact h.touchLease
    · exact h.touchLease.noteBad.iteAnswer h.touchLease.rmw.snd
  · exact h

protected theorem Canonical.performItem {id} (h : Canonical s) : Canonical (performItem id s) := by
  unfold performItem
  dsimp only
  exact h.performRemote.setItem

protected theorem Canonical.itemEvent {id ok f} (h : Canonical s) (hf : ∀ s, Canonical s → Answers Canonical (f s)) :
    NextCanonical (itemEvent id ok f s) :=
  h.finishEvent (by
    split
    · exact .error
    · exact .ite (hf s h) .error)

protected theorem Canonical.writeItem {id ps} (h : Canonical s) : Canonical (writeItem id ps s) := h.applyPuts.annexCopy.mapItem

protected theorem Canonical.consumeLines {x d done rest} (h : Canonical s) : Canonical (consumeLines x d done rest s) := by
  refine Canonical.ite ?_ h
  split
  · exact h.mapBlock
  · exact h

protected theorem Canonical.readSome {id pick} (h : Canonical s) : Answers Canonical (readSome id pick s) ∧
    ∀ st t, readSome id pick s = .error (st, t) → Canonical t := by
  unfold readSome
  dsimp only
  split
  · split
    · refine ⟨.error, fun st t e => ?_⟩
      cases e
      exact h.noteBad
    · exact ⟨.ok h.foldKeys.foldKeys.setItem.consumeLines, nofun⟩
  · exact ⟨.ok h, nofun⟩

protected theorem Canonical.afterReads {id pick} (h : Canonical s) : Answers Canonical (afterReads id (readSome id pick s)) := by
  unfold afterReads
  split
  · next e => exact .ok (h.readSome.1 _ e)
  · next e => exact (h.readSome.2 _ _ e).finishItem

protected theorem Canonical.writeSome {id pick} (h : Canonical s) : Canonical (writeSome id pick s) := h.setItem.writeItem

protected theorem Canonical.startItem {id} (h : Canonical s) : Answers Canonical (startItem id s) := by
  unfold startItem
  dsimp only
  split
  · split
    · exact .ok (h.seqAll fun _ _ h => h.touchLease).setItem
    · exact (h.seqAll fun _ _ h => h.touchLease).finishItem
  · exact .ok h.setItem

protected theorem Canonical.dropCp {id} (h : Canonical s) : Canonical (dropCp id s) := h.setItem.ite (h.setItem.mapBlock.ite h.setItem.mapStream)

protected theorem Canonical.giveNotice {n} (h : Canonical s) : Canonical (giveNotice n s) := h.mapPkg.signalPhaser.ite h

protected theorem Canonical.collRecord {c d n} (h : Canonical s) : Answers SndCanonical (collRecord c d n s) :=
  .ite (.ok h) (.bind h.snapshot fun _ h => .after fun _ => .after fun _ => .ok h.snd)

protected theorem Canonical.endAll {ids st} (h : Canonical s) : Answers Canonical (endAll ids st s) :=
  .seqEff (fun _ _ h => .ite h.finishItem (.ok h)) h

protected theorem Canonical.performMember {ms id} (h : Canonical s) : Canonical (performMember ms id s) := h.setItem

protected theorem Canonical.performColl {k} (h : Canonical s) : Canonical (performColl k s) :=
  Canonical.ite (h.same.seqAll fun _ _ h => h.performMember) h

protected theorem Canonical.readColl {id} (h : Canonical s) : Answers Canonical (readColl id s) := by
  refine .ite h.noteBad.finishItem (.ok ?_)
  split
  · exact h.foldKeys.dropCp.mapItem.ite h.foldKeys.dropCp.mapItem.performColl
  · exact h.foldKeys.dropCp.mapItem

protected theorem Canonical.performSlotMember {sl st id} (h : Canonical s) : Canonical (performSlotMember sl st id s) := h.dropCp.setItem.ite h

protected theorem Canonical.completeSlot {panel i st} (h : Canonical s) : Canonical (completeSlot panel i st s) := by
  unfold completeSlot
  exact (h.seqAll fun _ _ h => h.performSlotMember).mapPanel

protected theorem Canonical.breakSlot {panel i} (h : Canonical s) : Answers Canonical (breakSlot panel i s) := h.mapPanel.endAll

protected theorem Canonical.giveSlot {id} (h : Canonical s) : Answers Canonical (giveSlot id s) := by
  unfold giveSlot
  dsimp only
  split
  · exact .error
  · exact .ok (h.setItem.mapPanel.completeSlot.ite h.setItem.mapPanel)

protected theorem Canonical.afterArrival {id} (h : Canonical s) : Answers Canonical (afterArrival id s) :=
  .ite (.bind h.readColl fun _ h => .ite h.giveSlot (.ok h)) (.ok h)

protected theorem Canonical.leaveSlot {r} (h : Canonical s) : Canonical (leaveSlot r s) := h.mapSelf.mapSelfGroup

protected theorem Canonical.setBase {n v} (h : Canonical s) : Canonical (setBase n v s) := by
  unfold setBase
  split
  · refine h.mapCore fun c hc => ?_
    split
    · exact hc
    · split
      · exact hc
      · exact hc
  · exact h.mapMcc
  · exact h.mapCtl.ite h

protected theorem Canonical.setPtbase {v} (h : Canonical s) : Canonical (setPtbase v s) := by
  unfold setPtbase
  split
  · exact h.mapBlock
  · exact h.mapMcc
  · exact h.mapCtl

protected theorem Canonical.setCtxid {v} (h : Canonical s) : Canonical (setCtxid v s) := by
  unfold setCtxid
  split
  · exact h.mapBlock
  · exact h.mapMcc
  · exact h.mapCtl

protected theorem Canonical.setMode {v} (h : Canonical s) : Canonical (setMode v s) := (h.commitOwn.ite h).mapSelf

protected theorem Canonical.writeSys {n v} (h : Canonical s) : Answers Canonical (writeSys n v s) := by
  unfold writeSys
  split
  · exact .after fun _ => .ok h.setMode
  · exact .after fun _ => .ok h.setBase
  · exact .ok h.mapSelf
  · exact .ok h.mapSelf
  · exact .ok h.mapSelf
  · exact .after fun _ => .ok h.setBase
  · exact .after fun _ => .ok h.setPtbase
  · exact .ok h.setCtxid
  · exact .after fun _ => .ok h.setBase
  · exact .after fun _ => .ok h.mapPkg

protected theorem Canonical.halt (h : Canonical s) : Answers Canonical (halt s) := by
  refine .ite (.ok h.areaFault) ?_
  split
  · exact .ite (.ok h.retire.endFailed) (.after fun _ => .after fun _ => .ok h.retire.endGroup)
  · exact .ite (.ok h.endGang) (.after fun _ => .ok h.mapSelf)
  · exact .after fun _ => .ok h.mapSelf

protected theorem Canonical.wakeCtl {p i} (h : Canonical s) : Canonical (wakeCtl p i s) := h.mapStream.ite h.mapCtl

protected theorem Canonical.mapLaunchQ {pkg q f} (h : Canonical s) : Canonical (mapLaunchQ pkg q f s) := h.mapPkg

protected theorem Canonical.readRow {l i} (h : Canonical s) : Answers SndCanonical (readRow l i s) :=
  .after fun _ => .after fun _ => .after fun _ => .after fun _ => .ok h.foldReads

protected theorem Canonical.readRows {l} : ∀ {is : List Nat} {s : State}, Canonical s → Answers SndCanonical (readRows l is s)
  | [], _, h => .ok h
  | _ :: r, _, h => .bind h.readRow fun _ h => .bind (Canonical.readRows (is := r) h.snd) fun _ h => .ok h.snd

protected theorem Canonical.readEntry {l index r} (h : Canonical s) : Answers SndCanonical (readEntry l index r s) :=
  .after fun _ => .bind h.copyRecord fun _ h => .after fun _ => .after fun _ => .ok h.snd

protected theorem Canonical.readSchedule {l index} : ∀ {rs : List ScheduleRow} {s : State}, Canonical s →
    Answers SndCanonical (readSchedule l index rs s)
  | [], _, h => .ok h
  | _ :: r, _, h => .bind h.readEntry fun _ h => .bind (Canonical.readSchedule (rs := r) h.snd) fun _ h => .ok h.snd

protected theorem Canonical.blockSchedule {l index} (h : Canonical s) : Answers SndCanonical (blockSchedule l index s) := by
  unfold blockSchedule
  split
  · exact .ok h
  · exact h.readSchedule

protected theorem Canonical.rejectLaunch {id} (h : Canonical s) : Answers Canonical (rejectLaunch id s) := by
  unfold rejectLaunch
  dsimp only
  split
  · exact h.putDevice.endUnplaced
  · refine .ok ?_
    split
    · exact h.queueFail
    · exact h

protected theorem Canonical.emptyLaunch {l bs} (h : Canonical s) : Answers Canonical (emptyLaunch l bs s) := .ite (.ok h) h.endAt

protected theorem Canonical.goodLaunch {l bs c r} (h : Canonical s) (e : goodLaunch l bs c s = some r) : SndCanonical r := by
  unfold goodLaunch at e
  dsimp only at e
  split at e
  · split at e
    · cases e
    · next he =>
      split at e
      · cases e
      · cases e
        exact h.readRows _ he
  · cases e

protected theorem Canonical.acceptLaunch {l bs put} (h : Canonical s) (hp : ∀ n s, Canonical s → Canonical (put n s)) :
    Answers Canonical (acceptLaunch l bs put s) := by
  unfold acceptLaunch
  dsimp only
  split
  · exact h.same.setLaunch.foldReads.rejectLaunch
  · split
    · exact h.same.setLaunch.foldReads.rejectLaunch
    · next e =>
      have hg := (h.same.setLaunch.foldReads.goodLaunch e).snd
      exact .ite hg.setLaunch.emptyLaunch (.ite hg.setLaunch.endUnplaced (.ok (hp _ _ hg.setLaunch.mapPkg)))

protected theorem Canonical.failQueue {pkg q} (h : Canonical s) : Canonical (failQueue pkg q s) := h.mapLaunchQ.writeCtl.queueFail

protected theorem Canonical.kick {pkg q} (h : Canonical s) : Canonical (kick pkg q s) :=
  h.foldLine.mapLaunchQ.ite (h.foldLine.failQueue.ite (h.foldLine.failQueue.ite h.foldLine.mapLaunchQ))

protected theorem Canonical.consume {pkg q head} (h : Canonical s) : Canonical (consume pkg q head s) := by
  unfold consume
  exact h.foldLine.writeCtl.mapLaunchQ

protected theorem Canonical.ringStep {pkg q ok f} (h : Canonical s) (hf : ∀ bs s, Canonical s → Answers Canonical (f bs s)) :
    NextCanonical (ringStep pkg q ok f s) :=
  h.finishEvent (by
    split
    · exact .error
    · exact .ite ((hf _ s h).map fun _ h => h.consume) .error)

protected theorem Canonical.addRingItem {id x} (h : Canonical s) : Canonical (addRingItem id x s) := h.same.addItem.same

protected theorem Canonical.endRingCopy {pkg q r st} (h : Canonical s) : Answers Canonical (endRingCopy pkg q r st s) := h.addRingItem.endItem

protected theorem Canonical.unreserve {pkg q} (h : Canonical s) : Canonical (unreserve pkg q s) :=
  h.withCores (WbufsWf.map h.wbufs fun e he => by
    dsimp only
    split
    · exact he
    · exact he)

protected theorem Canonical.popHead {pkg q} (h : Canonical s) : Canonical (popHead pkg q s) := h.mapLaunchQ.unreserve

end Sys2Proof.Machine
end

section
/-! SUPPORT. O27: the canonical form through placement, the tile unit and cancelling. -/

namespace Sys2Proof.Machine

-- in order, so that no thread waits for an earlier proof
set_option Elab.async false

variable {s : State}

protected theorem Canonical.foldGates {pkg x} (h : Canonical s) : Canonical (foldGates pkg x s) := by
  unfold foldGates
  split
  · exact h.foldReads
  · exact h.foldReads
  · exact h.foldReads

protected theorem Canonical.endHead {pkg q x st} (h : Canonical s) : Answers Canonical (endHead pkg q x st s) := by
  unfold endHead
  dsimp only
  split
  · exact .ok h.popHead.queueFail
  · exact h.popHead.endRingCopy
  · exact h.popHead.endUnplaced

protected theorem Canonical.placeGroup {l blk index k x} (h : Canonical s) : Canonical (placeGroup l blk index k x s) := h.same.setStream.setGroup

protected theorem Canonical.seedConverters {l k g} (h : Canonical s) : Canonical (seedConverters l k g s) := h.seqAll fun _ _ h => h.ite h.mapCore

protected theorem Canonical.lockAreas {blk} (h : Canonical s) : Canonical (lockAreas blk s) := by
  unfold lockAreas
  dsimp only
  split
  · exact h.mapBlock
  · exact h.failBlock.machineCore

protected theorem Canonical.placeBlock {id core} (h : Canonical s) : Answers Canonical (placeBlock id core s) := by
  unfold placeBlock
  dsimp only
  split
  · exact .error
  · exact h.endUnplaced
  · next e =>
    have hs := (h.blockSchedule _ e).snd
    refine .ite (.ok ?_) (Canonical.releaseDue ?_)
    all_goals exact (((hs.same.setBlock ⟨rfl, rfl⟩).mapLaunch.seedConverters.seqAll fun _ _ h => h.placeGroup).mapBlock).lockAreas

protected theorem Canonical.noteQueue {pkg q} (h : Canonical s) : Canonical (noteQueue pkg q s) := h.mapPkg

protected theorem Canonical.afterPlace {pkg q id} (h : Canonical s) : Canonical (afterPlace pkg q id s) :=
  h.mapLaunchQ.noteQueue.unreserve.popHead.ite h.mapLaunchQ.noteQueue.unreserve

protected theorem Canonical.startMcc {id first k gang} (h : Canonical s) : Canonical (startMcc id first k gang s) := by
  unfold startMcc
  exact (h.setStream.withBlocks h.blocks h.past.filter).mapMcc

protected theorem Canonical.placeGang {id clu} (h : Canonical s) : Answers Canonical (placeGang id clu s) :=
  .ite h.endUnplaced (.bind (.seqEff (fun _ _ h => h.placeBlock) (h.seqAll fun _ _ h => h.mapCore fun _ _ => rfl).same)
    fun _ h => .ok (h.startMcc.ite h))

protected theorem Canonical.handCopy {pkg q r} (h : Canonical s) : Answers Canonical (handCopy pkg q r s) := by
  unfold handCopy
  dsimp only
  split
  · split
    · exact .error
    · exact h.endRingCopy
  · next e =>
    have hc := (h.copyRecord _ e).snd
    split
    · split
      · exact .error
      · exact h.endRingCopy
    · split
      · exact .error
      · exact h.endRingCopy
    · exact .ite hc.addRingItem.endItem (.ok hc.addRingItem)

protected theorem Canonical.removeBlock {blk} (h : Canonical s) : Canonical (removeBlock blk s) := by
  have hd : Canonical (seqAll (fun p s => dropAll (fun m => m.block == some blk) p s) (s.pkgs.map (·.1)) s) := h.seqAll fun _ _ h => h.dropAll
  refine hd.withBlocks hd.blocks.del ?_
  split
  · exact hd.past.put h.block
  · exact hd.past

protected theorem Canonical.swapSlots {a b} (h : Canonical s) : Canonical (swapSlots a b s) := h.mapGroup.mapGroup

protected theorem Canonical.issueTile {k op} (h : Canonical s) : Answers Canonical (issueTile k op s) :=
  .after fun _ => .after fun _ => .ok h.mapSelf.mapMcc.advance

protected theorem Canonical.tileInstr {who checks} (h : Canonical s) (hc : ∀ k, Answers SndCanonical (checks k s)) :
    NextCanonical (tileInstr who checks s) :=
  h.finish (.after fun k => .bind (hc k) fun _ h => h.snd.issueTile)

protected theorem Canonical.captureBind {k op} (h : Canonical s) : Answers SndCanonical (captureBind k op s) := by
  unfold captureBind
  dsimp only
  split
  · split
    · exact .raise
    · exact .bind h.snapshot fun _ h => .ok h.snd
  · exact .ok h

protected theorem Canonical.errorAtIssue {e op} (h : Canonical s) : SndCanonical (errorAtIssue e op s) := by
  unfold errorAtIssue
  split
  · exact .mk h
  · dsimp only
    split
    · exact .mk h
    · exact .mk h.mapSelf

protected theorem Canonical.productHeaders {k op kdim ndim} (h : Canonical s) : Answers SndCanonical (productHeaders s k op kdim ndim) :=
  .after fun _ => .ok h.errorAtIssue

protected theorem Canonical.mmaOp {w k} (h : Canonical s) : Answers SndCanonical (mmaOp w k s) :=
  .after fun _ => .after fun _ => .after fun _ => .bind h.productHeaders fun _ h => .bind h.snd.captureBind fun _ h => .after fun _ => .ok h.snd

protected theorem Canonical.mmdOp {w k} (h : Canonical s) : Answers SndCanonical (mmdOp w k s) :=
  .after fun _ => .after fun _ => .after fun _ => .bind h.productHeaders fun _ h => .bind h.snd.captureBind fun _ h => .after fun _ => .ok h.snd

protected theorem Canonical.mzeroOp {w k} (h : Canonical s) : Answers SndCanonical (mzeroOp w k s) := .after fun _ => .after fun _ => .ok h

protected theorem Canonical.wloadImgOp {w k} (h : Canonical s) : Answers SndCanonical (wloadImgOp w k s) :=
  .after fun _ => .after fun _ => .after fun _ => .after fun _ => .after fun _ => .after fun _ => .ok h.foldKeys.errorAtIssue

protected theorem Canonical.wloadDenseOp {w k} (h : Canonical s) : Answers SndCanonical (wloadDenseOp w k s) :=
  .after fun _ => .after fun _ => .after fun _ => .after fun _ => .after fun _ => .ok h

protected theorem Canonical.wupdOp {w _k} (h : Canonical s) : Answers SndCanonical (wupdOp w _k s) :=
  .ite (.ok h) (.after fun _ => .after fun _ => .after fun _ => .after fun _ => .after fun _ => .after fun _ => .ok h.foldAt.errorAtIssue)

protected theorem Canonical.accstOp {w k} (h : Canonical s) : Answers SndCanonical (accstOp w k s) :=
  .after fun _ => .after fun _ => .after fun _ => .ok h

protected theorem Canonical.accldOp {w k} (h : Canonical s) : Answers SndCanonical (accldOp w k s) :=
  .after fun _ => .after fun _ => .after fun _ => .ok h

protected theorem Canonical.tcvtOp {w k} (h : Canonical s) : Answers SndCanonical (tcvtOp w k s) :=
  .after fun _ => .after fun _ => .after fun _ => .after fun _ => .ok h

protected theorem Canonical.tredOp {w k} (h : Canonical s) : Answers SndCanonical (tredOp w k s) :=
  .after fun _ => .bind h.captureBind fun _ h => .after fun _ => .ok h.snd

protected theorem Canonical.tnormOp {w k} (h : Canonical s) : Answers SndCanonical (tnormOp w k s) :=
  .after fun _ => .bind h.captureBind fun _ h => .after fun _ => .ok h.snd

protected theorem Canonical.tsmaxOp {w k} (h : Canonical s) : Answers SndCanonical (tsmaxOp w k s) :=
  .after fun _ => .bind h.captureBind fun _ h => .after fun _ => .ok h.snd

protected theorem Canonical.accWrite {blk o pair x} (h : Canonical s) : Canonical (accWrite blk o pair x s) := by
  refine Canonical.same (Canonical.mapBlock h fun _ hb => ?_)
  exact ⟨hb.1, Cells.wf_writeN _ _ hb.2⟩

protected theorem Canonical.mapHead {k n f} (h : Canonical s) : Canonical (mapHead k n f s) := h.mapMcc

protected theorem Canonical.tileError {k n op e} (h : Canonical s) : Canonical (tileError k n op e s) := by
  unfold tileError
  split
  · exact h
  · exact h.ite h.mapHead.mapStream

protected theorem Canonical.addStep {k n op blk o kb terms bad} (h : Canonical s) : Canonical (addStep k n op blk o kb terms bad s) :=
  h.tileError.accWrite

protected theorem Canonical.takeDraws {k n op} (h : Canonical s) : Canonical (takeDraws k n op s) := h.mapMcc.mapHead.ite h

protected theorem Canonical.fillSide {blk d} (h : Canonical s) : Canonical (fillSide blk d s) := h.fillLines

protected theorem Canonical.storeUnit {k n op q i c} (h : Canonical s) : Canonical (storeUnit k n op q i c s) := h.tileError.applyPuts.fillSide

protected theorem Canonical.loadUnit {k n op q i c} (h : Canonical s) : Canonical (loadUnit k n op q i c s) := h.foldKeys.tileError.accWrite

protected theorem Canonical.readUnit {k n op q i c} (h : Canonical s) : Canonical (readUnit k n op q i c s) := h.tileError.mapHead

protected theorem Canonical.clearBuf {k n last} (h : Canonical s) : Canonical (clearBuf k n last s) := h.mapHead.ite h

protected theorem Canonical.combineUnit {k n op q i c last} (h : Canonical s) : Canonical (combineUnit k n op q i c last s) := h.accWrite.clearBuf

protected theorem Canonical.rowUnit {k n op q i c j last} (h : Canonical s) : Canonical (rowUnit k n op q i c j last s) := h.accWrite.clearBuf

protected theorem Canonical.blockUnit {k n op key es} (h : Canonical s) : Canonical (blockUnit k n op key es s) := h.applyPuts.clearBuf

protected theorem Canonical.lineUnit {k n op q j} (h : Canonical s) : Canonical (lineUnit k n op q j s) := by
  unfold lineUnit
  exact (h.tileError.foldKeys.mapCore fun _ hc => Cells.wf_writeN _ _ hc).same

protected theorem Canonical.arrayWrite {op va x} (h : Canonical s) : Canonical (arrayWrite op va x s) := h.applyPuts

protected theorem Canonical.updateUnit {k n op j} (h : Canonical s) : Canonical (updateUnit k n op j s) := by
  unfold updateUnit
  dsimp only
  split
  · exact h.tileError.foldKeys.arrayWrite.arrayWrite.arrayWrite
  · exact h.tileError.foldKeys.arrayWrite.arrayWrite
  · exact h.tileError.foldKeys.arrayWrite

protected theorem Canonical.runUnit {k n u} (h : Canonical s) : Canonical (runUnit k n u s) := by
  unfold runUnit
  split
  · exact h
  · dsimp only
    cases u with
    | mac => exact h.addStep
    | dx => exact h.addStep
    | dw => exact h.addStep
    | zero => exact h.accWrite
    | store => exact h.storeUnit
    | load => exact h.loadUnit
    | read => exact h.readUnit
    | combine => exact h.combineUnit
    | row => exact h.rowUnit
    | block => exact h.blockUnit
    | line => exact h.lineUnit
    | update => exact h.updateUnit

protected theorem Canonical.consumeStep {op} (h : Canonical s) : Canonical (consumeStep op s) := h.seqAll fun _ _ h => h.mapBlock

protected theorem Canonical.advanceStep {k n op} (h : Canonical s) : Canonical (advanceStep k n op s) :=
  (h.takeDraws.seqAll fun _ _ h => h.runUnit).consumeStep.mapHead.ite (h.takeDraws.seqAll fun _ _ h => h.runUnit).mapHead

protected theorem Canonical.dropTl {op} (h : Canonical s) : Canonical (dropTl op s) := h.same.ite h

protected theorem Canonical.cutQueue {p pkg q} (h : Canonical s) : Canonical (cutQueue p pkg q s) :=
  (h.mapLaunchQ.unreserve.ite h).mapLaunchQ.ite (h.mapLaunchQ.unreserve.ite h)

protected theorem Canonical.dropQueued {p} (h : Canonical s) : Canonical (dropQueued p s) := h.seqAll fun _ _ h => h.seqAll fun _ _ h => h.cutQueue

/-- What is done to a saved block alone. -/
theorem Canonical.whereSaved {x : Preempt} {f : Nat → State} (h : Canonical s) (hf : ∀ n, Canonical (f n)) :
    Canonical (match x with | .saved n => f n | _ => s) := by
  split
  · exact hf _
  · exact h

protected theorem Canonical.imageState {blk v} (h : Canonical s) : Canonical (imageState blk v s) := by
  refine h.whereSaved fun n => ?_
  split
  · exact h.putDevice
  · exact h

protected theorem Canonical.cancelBlock {blk} (h : Canonical s) : Answers Canonical (cancelBlock blk s) :=
  .seqEff (fun _ _ h => .ite h.endItem (.ok h)) h.imageState.killBlock.mapBlock.same

protected theorem Canonical.cancelMcc {k} (h : Canonical s) : Canonical (cancelMcc k s) := by
  unfold cancelMcc
  exact (h.mapStream.seqAll fun _ _ h => h.dropTl).mapMcc

protected theorem Canonical.cancelLaunch {id} (h : Canonical s) : Answers Canonical (cancelLaunch id s) :=
  .bind h.mapLaunch.endUnplaced fun _ h => .seqEff (fun _ _ h => h.cancelBlock) (h.dropQueued.seqAll fun _ _ h => h.cancelMcc)

protected theorem Canonical.endQueued {st x} (h : Canonical s) : Answers Canonical (endQueued st x s) := h.dropQueued.endRingCopy

protected theorem Canonical.endLostLaunch {id} (h : Canonical s) : Answers Canonical (endLostLaunch id s) :=
  .bind (.seqEff (fun _ _ h => h.endLaunchBlock) h) fun _ h => .ok (h.dropQueued.same.seqAll fun _ _ h => h.removeBlock)

protected theorem Canonical.endLostCopy {id} (h : Canonical s) : Answers Canonical (endLostCopy id s) := .bind h.endAt fun _ h => .ok h.mapPkg.setItem

protected theorem Canonical.endGone {n} (h : Canonical s) : Answers Canonical (endGone n s) :=
  .bind (.seqEff (fun _ _ h => h.endLostLaunch) h) fun _ h => .bind (.seqEff (fun _ _ h => h.endQueued) h) fun _ h =>
    .seqEff (fun _ _ h => h.endLostCopy) h

protected theorem Canonical.endNamed {n} (h : Canonical s) : Answers Canonical (endNamed n s) :=
  .bind (.seqEff (fun _ _ h => h.cancelLaunch) h) fun _ h => .bind (.seqEff (fun _ _ h => h.endQueued) h) fun _ h =>
    .seqEff (fun _ _ h => .ite h.endItem (.ok h)) h

protected theorem Canonical.cancelForm {w} (h : Canonical s) : Answers Canonical (cancelForm w s) := by
  refine .after fun _ => .after fun _ => .after fun p => ?_
  split
  · exact .ok h.setReg.advance
  · refine .after fun _ => .ite ?_ (.bind h.endGone fun _ h => ?_)
    · split
      · exact .error
      · refine .bind h.endGone fun _ h => ?_
        split
        · exact .ok h.mapSelf.advance
        · exact .ite (.ok h.foldAt.setReg.advance) (.bind h.foldAt.putDevice.endNamed fun _ h => .ok (h.ite h.setReg.advance))
    · split
      · exact .ok h.mapSelf.advance
      · exact .ite (.ok h.foldAt.setReg.advance) (.bind h.foldAt.putDevice.endNamed fun _ h => .ok (h.ite h.setReg.advance))

protected theorem Canonical.markVictims {v} (h : Canonical s) : Canonical (markVictims v s) := h.seqAll fun _ _ h => h.seqAll fun _ _ h => h.mapBlock

end Sys2Proof.Machine
end

section
/-! SUPPORT. O27: the canonical form through saved images, completions, losses, resets, ports and cycles. -/

namespace Sys2Proof.Machine

-- in order, so that no thread waits for an earlier proof
set_option Elab.async false

variable {s : State}

protected theorem Canonical.writeState {blk base v} (h : Canonical s) : Answers Canonical (writeState blk base v s) := by
  unfold writeState
  split
  · exact .error
  · exact .ite .error (.ok h.putDevice)

protected theorem Canonical.clearWords {l n} (h : Canonical s) : Canonical (clearWords l n s) := by
  unfold clearWords
  split
  · exact h.same
  · exact h

protected theorem Canonical.writeChunks {blk base} : ∀ {cs : List (Nat × List Byte)} {s : State}, Canonical s →
    Answers Canonical (writeChunks blk base cs s)
  | [], _, h => .ok h
  | _ :: r, _, h => by
    unfold writeChunks
    split
    · exact .error
    · exact Canonical.writeChunks (cs := r) h.putDevice.clearWords

protected theorem Canonical.foldImage {blk base} (h : Canonical s) : Canonical (foldImage blk base s) :=
  h.ite (h.seqAll fun _ _ h => by
    split
    · exact h.foldAt
    · exact h)

protected theorem Canonical.withdrawSyncs {blk} (h : Canonical s) : Canonical (withdrawSyncs blk s) :=
  h.seqAll fun _ _ h => h.seqAll fun _ _ h => by
    split
    · exact h.mapMcc.mapGroup.dropTl.ite h
    · exact h

protected theorem Canonical.putAway {blk n} (h : Canonical s) : Canonical (putAway blk n s) := by
  unfold putAway
  dsimp only
  split
  · exact h.same.mapBlock
  · exact h.same.mapBlock

protected theorem Canonical.releaseMcc {k} (h : Canonical s) : Canonical (releaseMcc k s) := by
  unfold releaseMcc
  exact h.mapStream.mapMcc

protected theorem Canonical.imageFailure {blk e} (h : Canonical s) : Canonical (imageFailure blk e s) := h.failBlock.machineCore

protected theorem Canonical.saveImage {blk base} (h : Canonical s) : Answers Canonical (saveImage blk base s) :=
  .bind h.writeState fun _ h => .bind h.writeChunks fun _ h => h.writeState

/-- An image that is written or read back, or the failure of that (R363). -/
theorem Canonical.okOrImageFailure {blk} {r : Except (Word64 × Word16) State} (h : Canonical s) (hr : Answers Canonical r) :
    Canonical (match (generalizing := false) r with
      | .ok s' => s'
      | .error e => imageFailure blk e s) := by
  split
  · exact hr _ rfl
  · exact h.imageFailure

/-- As the equation of two functions: on a state, the kernel would evaluate the slot's address. -/
theorem saveBlock_def : saveBlock = fun blk n s => match saveImage blk (slotAt s (s.block blk) n) s with
    | .ok s' => s'
    | .error e => imageFailure blk e s := rfl

protected theorem Canonical.saveBlock {blk n} (h : Canonical s) : Canonical (saveBlock blk n s) := by
  rw [saveBlock_def]
  exact h.okOrImageFailure h.saveImage

protected theorem Canonical.orphanItem {id} (h : Canonical s) : Canonical (orphanItem id s) := h.mapItem

/-- What the items of a discarded attempt still need of its pools stays for them (R254). -/
theorem Canonical.keepPast {c : Prop} [Decidable c] {k : Nat} {b : Block} (h : Canonical s) (hb : BlockWf b) :
    Canonical { s with past := if c then Table.put s.past k b else Table.del s.past k } := by
  refine h.withBlocks h.blocks ?_
  split
  · exact h.past.put hb
  · exact h.past.del

protected theorem Canonical.flushBlock {blk} (h : Canonical s) : Canonical (flushBlock blk s) := by
  unfold flushBlock
  exact ((h.seqAll fun _ _ h => h.annexAck).seqAll fun _ _ h => h.orphanItem).mapLaunch.removeBlock.keepPast h.block

protected theorem Canonical.requeue {id} (h : Canonical s) : Canonical (requeue id s) := h.ite h.mapLaunchQ.unreserve

protected theorem Canonical.freshStream {c x} (h : Canonical s) : SndCanonical (freshStream c x s) := by
  unfold freshStream
  split
  · exact .mk h
  · split
    · exact .mk h
    · split
      · exact .mk h
      · exact .mk h
      · next e =>
        have hs := (h.snapshot _ e).snd
        split
        · exact .mk hs
        · exact .mk hs
        · exact .mk hs

protected theorem Canonical.freshQueue {c q} (h : Canonical s) : SndCanonical (freshQueue c q s) := by
  unfold freshQueue
  dsimp only
  exact .mk h.freshStream.snd.freshStream.snd

protected theorem Canonical.freshGroup {ag} (h : Canonical s) : Canonical (freshGroup ag s) :=
  h.seqAll fun _ _ h => by
    dsimp only
    exact h.freshQueue.snd.mapGroup

protected theorem Canonical.freshOps {k} (h : Canonical s) : Canonical (freshOps k s) :=
  h.seqAll fun _ _ h => by
    dsimp only
    refine Canonical.mapMcc (SndCanonical.snd (SndCanonical.foldl (fun r o hr => ?_) (.mk h)))
    split
    · exact .mk hr.snd
    · split
      · next e => exact .mk (hr.snd.snapshot _ e).snd
      · exact .mk hr.snd.mapStream
      · exact .mk hr.snd

protected theorem Canonical.handSync {ag} (h : Canonical s) : Canonical (handSync ag s) := by
  unfold handSync
  exact (h.seqAll fun _ _ h => h.mapStream.mapMcc).mapGroup

theorem readCells_wf {s : State} {blk : Nat} {base : Word64} {at_ : Nat} : ∀ {ns : List Nat} {m : Cells}, m.wf = true →
    Answers (fun m => m.wf = true) (readCells s blk base at_ ns m)
  | [], _, h => .ok h
  | _ :: _, _, h => .after fun _ => readCells_wf (Cells.wf_writeN _ _ h)

/-- The weight buffer of a gang's core comes back with the image (R362). -/
theorem Canonical.wbufBack {k} {w : Cells} {gang : Bool} (h : Canonical s) (hw : w.wf = true) :
    Canonical (if gang = true then mapCore k (fun c => { c with wbuf := w }) s else s) :=
  (h.mapCore fun _ _ => hw).ite h

protected theorem Canonical.readImage {blk base} (h : Canonical s) : Answers Canonical (readImage s blk base) := by
  unfold readImage
  refine .after fun _ => .bind (readCells_wf rfl) fun _ hscratch => .bind (readCells_wf rfl) fun _ hacc => .after fun _ => .after fun _ => ?_
  dsimp only
  refine .ite (.bind (readCells_wf rfl) fun _ hw => ?_) (.bind (Q := fun w : Cells => w.wf = true) (.ok rfl) fun _ hw => ?_)
  all_goals
    split
    · refine .after fun _ => .ok (Canonical.setMcc (Canonical.setStream ?_))
      exact .seqAll (.wbufBack (h.setBlock ⟨hscratch, hacc⟩) hw) fun _ _ h => h.setStream.setGroup
    · refine .ok ?_
      exact .seqAll (.wbufBack (h.setBlock ⟨hscratch, hacc⟩) hw) fun _ _ h => h.setStream.setGroup

/-- As the equation of two functions: on a state, the kernel would evaluate the slot's address. -/
theorem resumeBlock_def : resumeBlock = fun blk s =>
    match (s.block blk).preempt with
    | .saved n =>
      have base := slotAt s (s.block blk) n
      have steps : Except (Word64 × Word16) State := do
        let s ← writeState blk base 3 s
        let s ← readImage (foldImage blk base s) blk base
        writeState blk base 0 s
      match steps with
      | .ok s => s
      | .error e => imageFailure blk e s
    | _ => s := rfl

protected theorem Canonical.resumeBlock {blk} (h : Canonical s) : Canonical (resumeBlock blk s) := by
  rw [resumeBlock_def]
  exact h.whereSaved fun n => h.okOrImageFailure (.bind h.writeState fun _ h => .bind h.foldImage.readImage fun _ h => h.writeState)

protected theorem Canonical.deliverDest {ag d} (h : Canonical s) : Canonical (deliverDest ag d s) := by
  unfold deliverDest
  split
  · exact h.mapStream
  · exact h.mapGroup

protected theorem Canonical.clearDelivered {ag ds} (h : Canonical s) : Canonical (clearDelivered ag ds s) := h.seqAll fun _ _ h => h.clearRegs

protected theorem Canonical.deliverAll {ag ds} (h : Canonical s) : Canonical (deliverAll ag ds s) := by
  unfold deliverAll
  exact (h.seqAll fun _ _ h => h.deliverDest).ite (h.seqAll fun _ _ h => h.deliverDest).mapGroup.clearDelivered

protected theorem Canonical.fencePackage {pkg} (h : Canonical s) : Canonical (fencePackage pkg s) := h.mapPkg.same

protected theorem Canonical.beatAt {pkg dies} (h : Canonical s) : Canonical (beatAt pkg dies s) := h.mapPanel

protected theorem Canonical.revertByte {lost k} (h : Canonical s) : Canonical (revertByte lost k s) := by
  unfold revertByte
  split
  · exact h.writeByte
  · exact h

protected theorem Canonical.dropOwned {who home} (h : Canonical s) : Canonical (dropOwned who home s) := h.same

protected theorem Canonical.writeReport {pkg seq lost flags nitem lines} (h : Canonical s) :
    Canonical (writeReport pkg seq lost flags nitem lines s) :=
  h.writeCtl.writeCtl

protected theorem Canonical.endPeers {pkg lost} (h : Canonical s) : Answers Canonical (endPeers pkg lost s) :=
  .seqEff (fun _ _ h => .ite h.finishItem (.ok h)) h

protected theorem Canonical.discardFrom {pkg lost} (h : Canonical s) : Canonical (discardFrom pkg lost s) := h.same.seqAll fun _ _ h => h.leaveQueues

protected theorem Canonical.applyLoss {pkg lost} (h : Canonical s) : Answers Canonical (applyLoss pkg lost s) := h.mapPkg.dropAll.discardFrom.endPeers

protected theorem Canonical.takeBack {pkg lost} (h : Canonical s) : SndCanonical (takeBack pkg lost s) :=
  .mk (h.seqAll fun _ _ h => h.revertByte).dropOwned

protected theorem Canonical.rebuildByte {x} (h : Canonical s) : Canonical (rebuildByte x s) := h.ite h.mirrorValue

protected theorem Canonical.startRebuild {pkg lost} (h : Canonical s) : Canonical (startRebuild pkg lost s) := by
  unfold startRebuild
  exact (h.seqAll fun _ _ h => h.rebuildByte).mapPkg

protected theorem Canonical.endLostEntry {pkg id} (h : Canonical s) : Answers Canonical (endLostEntry pkg id s) :=
  .ite h.endLostLaunch (by
    split
    · exact h.endQueued
    · exact .ite h.endLostCopy (.ok h))

protected theorem Canonical.writePower {pkg} (h : Canonical s) : Canonical (writePower pkg s) := h.writeCtl

protected theorem Canonical.clearPackage {pkg} (h : Canonical s) : Canonical (clearPackage pkg s) := by
  refine ⟨h.mem, h.blocks.filter, h.past.filter, WbufsWf.map h.wbufs fun e he => ?_⟩
  dsimp only
  split <;> exact he

protected theorem Canonical.bootPackage {pkg buddyUp} (h : Canonical s) : Canonical (bootPackage pkg buddyUp s) := by
  unfold bootPackage
  refine .ite h.mapPkg ?_
  dsimp only
  split
  · exact h.mapPkg.writeCtl.writeCtl.writeCtl.mapPkg
  · exact h.mapPkg.writeCtl.writeCtl.writeCtl.mapPkg.writeCtl.writePower.setPanel.same

protected theorem Canonical.ensurePanel {n} (h : Canonical s) : Canonical (ensurePanel n s) := h.ite h.setPanel

protected theorem Canonical.resetPackage {pkg} (h : Canonical s) : Canonical (resetPackage pkg s) := h.ensurePanel.clearPackage.bootPackage

protected theorem Canonical.clearControl {pkg} (h : Canonical s) : Canonical (clearControl pkg s) :=
  ⟨clearControl_memWf pkg s h.mem, h.blocks, h.past, h.wbufs⟩

protected theorem Canonical.loadSetup {pkg base} (h : Canonical s) : Canonical (loadSetup pkg base s) :=
  ((h.seqAll fun _ _ h => h.mapCore).seqAll fun _ _ h => h.mapMcc)

protected theorem Canonical.observePort {before pkg} (h : Canonical s) : Canonical (observePort before pkg s) :=
  (h.mapPkg.ite h).mapPkg.ite (h.mapPkg.ite h)

protected theorem Canonical.observePorts {before} (h : Canonical s) : Canonical (observePorts before s) := h.seqAll fun _ _ h => h.observePort

protected theorem Canonical.answer {pkg status} (h : Canonical s) : Canonical (answer pkg status s) := h.writeCtl.writeCtl.mapPkg

protected theorem Canonical.portEvent {pkg f} (h : Canonical s) (hf : ∀ s, Canonical s → Canonical (f s)) : NextCanonical (portEvent pkg f s) :=
  h.finishEvent (.ite (.ok (hf s h)) .error)

protected theorem Canonical.addWatch {pkg core w t} (h : Canonical s) (e : addWatch pkg core w s = some t) : Canonical t := by
  have add {old : List Watch} {u : State} (hu : Canonical u) : (if old.length < 4 then some u else none) = some t → Canonical t := by
    split
    · rintro ⟨⟩; exact hu
    · rintro ⟨⟩
  unfold addWatch at e
  dsimp only at e
  split at e
  · exact add h.mapCore e
  · split at e
    · exact add h.mapMcc e
    · split at e
      · exact add h.mapCtl e
      · cases e

protected theorem Canonical.foldFetch {ag vas} (h : Canonical s) : Canonical (foldFetch ag vas s) :=
  h.seqAll fun _ _ h => by
    split
    · exact h.foldAt
    · exact h

protected theorem Canonical.noteLane {before ag i} (h : Canonical s) : Canonical (noteLane ag before i s) := by
  unfold noteLane
  split
  · exact h
  · split
    · exact h
    · exact h.ite h.clearRegs

protected theorem Canonical.sampleMonitor {pkg n} (h : Canonical s) : Canonical (sampleMonitor pkg n s) := by
  unfold sampleMonitor
  exact h.mapPkg.writePower.ite h.mapPkg

protected theorem Canonical.countCycles {pkg n} (h : Canonical s) : Canonical (countCycles pkg n s) := by
  unfold countCycles
  refine ⟨h.mem, h.blocks.map fun e he => ?_, h.past, WbufsWf.map h.wbufs fun e he => ?_⟩
  · unfold ageBlock
    split
    · exact he
    · split <;> exact he
  · unfold ageCore
    split <;> exact he

protected theorem Canonical.drift {ag n} (h : Canonical s) : Canonical (drift ag n s) := by
  unfold drift
  split
  · exact h.mapCore
  · exact h.mapMcc
  · exact h.mapCtl

protected theorem Canonical.upset {w} (h : Canonical s) : Canonical (upset w s) := h.same

protected theorem Canonical.attachDevice {pkg port bytes} (h : Canonical s) : Canonical (attachDevice pkg port bytes s) := h.mapPkg.ite h

protected theorem Canonical.tamper {pkg} (h : Canonical s) : Canonical (tamper pkg s) := h.mapPkg.ite h

protected theorem Canonical.beginTurn (h : Canonical s) : Canonical (beginTurn s) := h.same

protected theorem Canonical.noteIssue {before mark ag} (h : Canonical s) : Canonical (noteIssue mark ag before s) := h.mapGroup.ite h

protected theorem Canonical.passCycles {pkg n} (h : Canonical s) : Canonical (passCycles pkg n s) := h.ite h.same.countCycles.sampleMonitor

protected theorem Canonical.expireSlots {panel n} : ∀ {i : Nat} {s : State}, Canonical s → Canonical (expireSlots panel n i s)
  | 0, _, h => h
  | i + 1, s, h => by
    refine Canonical.expireSlots (i := i) ?_
    split
    · exact h
    · exact h.completeSlot.ite h

protected theorem Canonical.passDieCycles {panel n} (h : Canonical s) : Canonical (passDieCycles panel n s) := by
  unfold passDieCycles
  split
  · exact h
  · exact h.ite h.expireSlots.mapPanel

end Sys2Proof.Machine
end

section
/-! SUPPORT. O27: the canonical form through the instructions. -/

namespace Sys2Proof.Machine

-- in order, so that no thread waits for an earlier proof
set_option Elab.async false

variable {s : State}

protected theorem Canonical.execQset {d a queue fld} (h : Canonical s) : NextCanonical (execQset d a queue fld s) :=
  h.finish (.after fun _ => .after fun _ => .ok h.mapSelfGroup.advance)

protected theorem Canonical.execQgo {a queue} (h : Canonical s) : NextCanonical (execQgo a queue s) := by
  refine h.finish (.after fun _ => .after fun _ => .after fun _ => .ite (.ok h.mapSelfGroup.advance) (.ite ?_ ?_))
  · exact .after fun _ => .ok h.mapSelfGroup.advance
  · exact .after fun _ => .bind h.snapshot fun _ h => .after fun _ => .after fun _ => .ok h.snd.mapSelfGroup.advance

protected theorem Canonical.execAaePush {ag queue} (h : Canonical s) : NextCanonical (execAaePush ag queue s) := by
  unfold execAaePush
  refine h.finishEvent ?_
  dsimp only
  split
  · exact .error
  · exact .ite (.ok h.mapGroup) (.ite h.noteServed.pushNow .error)

protected theorem Canonical.execSegmentBegin {ag} (h : Canonical s) : NextCanonical (execSegmentBegin ag s) := by
  unfold execSegmentBegin
  refine h.finishEvent ?_
  dsimp only
  split
  · exact .error
  · exact .ite .error (.ok h.mapGroup)

protected theorem Canonical.execSegof {w} (h : Canonical s) : NextCanonical (execSegof w s) :=
  h.finish (.after fun _ => .bind h.snapshotReg fun _ h => h.snd.deliver)

protected theorem Canonical.execRbind {w} (h : Canonical s) : NextCanonical (execRbind w s) := by
  unfold execRbind
  refine h.finish ?_
  split
  · exact .after fun _ => .after fun _ => .ok h.mapMcc.advance
  · exact .raise

protected theorem Canonical.execFence {_scope} (h : Canonical s) : NextCanonical (execFence _scope s) :=
  h.finish (.after fun _ => h.commitOwn.whenPerformed fun _ h => .ok h.advance)

protected theorem Canonical.execBarArr {a id cnt} (h : Canonical s) : NextCanonical (execBarArr a id cnt s) :=
  h.finish (.after fun _ => .after fun _ => .after fun _ => .bind h.arrive fun _ h => .ok h.advance)

protected theorem Canonical.execBarWait {a id cnt} (h : Canonical s) : NextCanonical (execBarWait a id cnt s) := h.finish (.after fun _ => h.barWait)

protected theorem Canonical.execBarSync {a id cnt} (h : Canonical s) : NextCanonical (execBarSync a id cnt s) := by
  unfold execBarSync
  refine h.finish ?_
  dsimp only
  split
  · exact h.barWait
  · exact .after fun _ => .after fun _ => .after fun _ => .bind h.arrive fun _ h => .ok h.mapSelf.stuckBarriers

protected theorem Canonical.execPhnew {d a} (h : Canonical s) : NextCanonical (execPhnew d a s) := by
  unfold execPhnew
  refine h.finish (.after fun _ => ?_)
  dsimp only
  split
  · exact .ok h.setReg.advance
  · exact .ok h.setPhaser.setReg.advance

protected theorem Canonical.execPhfree {a} (h : Canonical s) : NextCanonical (execPhfree a s) :=
  h.finish (.after fun _ => .after fun _ => .ok h.setPhaser.advance)

protected theorem Canonical.execPhreg {a b} (h : Canonical s) : NextCanonical (execPhreg a b s) :=
  h.finish (.after fun _ => .after fun _ => .after fun _ => .after fun _ => .ok h.setPhaser.advance)

protected theorem Canonical.execPhdrop {a} (h : Canonical s) : NextCanonical (execPhdrop a s) :=
  h.finish (.after fun _ => .after fun _ => .ok h.setPhaser.advance)

protected theorem Canonical.execPhsig {a b} (h : Canonical s) : NextCanonical (execPhsig a b s) :=
  h.finish (.after fun _ => .after fun _ => h.phsig fun _ _ h => .ok h.advance)

protected theorem Canonical.execPhwait {d a} (h : Canonical s) : NextCanonical (execPhwait d a s) :=
  h.finish (.after fun _ => .after fun _ => h.phwaitFor)

protected theorem Canonical.execPhsw {d a b} (h : Canonical s) : NextCanonical (execPhsw d a b s) := by
  unfold execPhsw
  refine h.finish (.after fun _ => .after fun _ => .after fun _ => ?_)
  split
  · exact h.phwaitFor
  · exact h.phsig fun _ _ h => .ok h.mapSelf

protected theorem Canonical.execAtomShort {d a b code ty} (h : Canonical s) : NextCanonical (execAtomShort d a b code ty s) :=
  h.finish (.after fun _ => h.atomAt)

protected theorem Canonical.execAtomLong {w} (h : Canonical s) : NextCanonical (execAtomLong w s) :=
  h.finish (.after fun _ => h.releaseFirst fun _ h => .bind h.atomAt fun _ h => .ok (h.acquireAt.ite h))

protected theorem Canonical.execRedScalar {w} (h : Canonical s) : NextCanonical (execRedScalar w s) :=
  h.finish (.after fun _ => .after fun _ => .after fun _ => .after fun _ => .ok h.noteError.reduceAt.issueWrite.advance)

protected theorem Canonical.execAmaxrdScalar {w} (h : Canonical s) : NextCanonical (execAmaxrdScalar w s) := by
  unfold execAmaxrdScalar
  refine h.finish (.after fun _ => .after fun _ => .after fun _ => ?_)
  dsimp only
  exact .ok h.noteError.rmw.snd.issueWrite.advance

protected theorem Canonical.execChunk {d a b} (h : Canonical s) : NextCanonical (execChunk d a b s) := by
  unfold execChunk
  refine h.finish (.after fun _ => .after fun _ => .after fun p => .after fun _ => .after fun _ => ?_)
  split
  · refine .after fun _ => .ok ?_
    exact h.disownLine.devicePuts.issueLoad.advance
  · refine .after fun _ => .ok ?_
    exact h.devicePuts.issueLoad.advance

protected theorem Canonical.execCcrd {w} (h : Canonical s) : NextCanonical (execCcrd w s) :=
  h.finish (.after fun _ => .after fun _ => .ok h.foldAt.acquireAt.issueLoad.advance)

protected theorem Canonical.execCcwt {w} (h : Canonical s) : NextCanonical (execCcwt w s) := by
  unfold execCcwt
  refine h.finish (.after fun _ => ?_)
  dsimp only
  split
  · exact .raise
  · exact .after fun _ => .ok h.foldAt.acquireAt.advance

protected theorem Canonical.floatForm {n f w} (h : Canonical s) : Answers Canonical (floatForm n f w s) := by
  unfold floatForm
  exact h.laneMap

protected theorem Canonical.floatBits {n f w} (h : Canonical s) : Answers Canonical (floatBits n f w s) := by
  unfold floatBits
  exact h.laneMap

protected theorem Canonical.approxForm {f w} (h : Canonical s) : Answers Canonical (approxForm f w s) := by
  unfold approxForm
  exact h.laneMap

protected theorem Canonical.intForm {n f w} (h : Canonical s) : Answers Canonical (intForm n f w s) := by
  unfold intForm
  exact h.laneMap

protected theorem Canonical.intVal {n f w} (h : Canonical s) : Answers Canonical (intVal n f w s) := by
  unfold intVal
  exact h.intForm

protected theorem Canonical.shuffle {j w} (h : Canonical s) : Answers Canonical (shuffle j w s) := h.laneCross

protected theorem Canonical.vote {f w} (h : Canonical s) : Answers Canonical (vote f w s) := h.laneCross

protected theorem Canonical.scanForm {excl op w} (h : Canonical s) : Answers Canonical (scanForm excl op w s) := by
  unfold scanForm
  exact h.laneCross

/-- The forms that `REP` may repeat keep the canonical form: what `laneForm` answers has such a body. -/
def FormKeeps (s : State) (o : Option LaneForm) : Prop := ∀ f w, o = some f → Answers Canonical (f.body w s)

theorem FormKeeps.form {u : LaneWord} {body : LaneWord → State → Eff} {d a b c : Option Bool} (h : ∀ w, Answers Canonical (body w s)) :
    FormKeeps s (some (LaneForm.mk u body d a b c)) :=
  fun _ w e => by cases e; exact h w

theorem FormKeeps.none : FormKeeps s none := nofun

/-- The body of a lane form: one of the shapes that the lane forms share, or an access of memory. -/
protected theorem Canonical.laneForm {i : Instr} (h : Canonical s) : FormKeeps s (laneForm i) := by
  unfold Machine.laneForm
  split
  -- one result for each lane
  case h_1 | h_2 | h_3 | h_24 | h_25 | h_26 | h_27 | h_31 => exact .form fun _ => h.floatForm
  case h_4 | h_5 | h_6 | h_7 | h_29 | h_30 => exact .form fun _ => h.floatBits
  case h_32 | h_33 | h_34 | h_35 => exact .form fun _ => h.approxForm
  case h_8 | h_9 | h_10 | h_11 | h_12 | h_13 | h_14 | h_15 | h_28 => exact .form fun _ => h.intVal
  case h_16 | h_17 | h_18 | h_19 | h_20 | h_21 | h_22 | h_36 | h_37 => exact .form fun _ => h.intForm
  case h_38 | h_43 | h_44 | h_45 | h_46 | h_47 | h_48 =>
    refine .form fun _ => ?_
    dsimp only [bodyMov, bodyPkn, bodyPkb, bodyPkh, bodyUpn, bodyUpb, bodyUph]
    exact h.laneMap
  -- a result that other lanes decide
  case h_23 | h_39 | h_61 =>
    refine .form fun _ => ?_
    dsimp only [bodySel, bodyBcst, bodyGred]
    exact h.laneCross
  case h_49 | h_50 | h_51 => exact .form fun _ => h.vote
  case h_52 | h_53 | h_54 | h_55 => exact .form fun _ => h.shuffle
  case h_62 | h_63 => exact .form fun _ => h.scanForm
  -- a mask register
  case h_40 | h_41 | h_56 => exact .form fun _ => h.laneMask
  case h_57 | h_58 | h_59 | h_60 => exact .form fun _ => h.maskForm
  -- the forms of their own
  case h_42 => exact .form fun _ => h.bodyCvt
  case h_64 => exact .form fun _ => h.bodyGreds
  case h_65 | h_66 => exact .form fun _ => h.laneLoad
  case h_67 => exact .form fun _ => h.bodyStl
  case h_68 | h_69 => exact .form fun _ => h.sttBody
  case h_70 => exact .form fun _ => h.bodyLda
  case h_71 => exact .form fun _ => h.bodyAtomLane
  case h_72 => exact .form fun _ => h.bodyRedLane
  case h_73 => exact .form fun _ => h.bodyAmaxrdLane
  case h_74 => exact .form fun _ => h.bodySegl
  case h_75 => exact .form fun _ => h.bodySegb
  case h_76 => exact .form fun _ => h.bodyHgld
  case h_77 => exact .form fun _ => h.bodyHgsc
  -- no lane form
  case h_78 => exact .none

protected theorem Canonical.execBrl {w} (h : Canonical s) : NextCanonical (execBrl w s) := h.finishLane (.map h.laneBranch fun _ h => h.ctlDone)

protected theorem Canonical.execBrln {w} (h : Canonical s) : NextCanonical (execBrln w s) := h.finishLane (.map h.laneBranch fun _ h => h.ctlDone)

protected theorem Canonical.execJoinl {_w} (h : Canonical s) : NextCanonical (execJoinl _w s) :=
  h.finishLane (.after fun _ => .ok h.mapSelfGroup.ctlDone)

protected theorem Canonical.execLret {_w} (h : Canonical s) : NextCanonical (execLret _w s) := by
  unfold execLret
  split
  · exact h.finishLane .error
  · exact h.endingSplit

protected theorem Canonical.execExit {w} (h : Canonical s) : NextCanonical (execExit w s) := by
  unfold execExit
  split
  · exact h.finishLane .error
  · exact .ite h.endingSplit (.next h.mapSelfGroup.ctlDone)

protected theorem Canonical.execHgix {w} (h : Canonical s) : NextCanonical (execHgix w s) :=
  h.finish (.after fun _ => .after fun _ => .bind h.gridSnapshot fun _ h => .after fun _ => .after fun _ => .after fun _ =>
    .after fun _ => .after fun _ => .ok h.snd.foldAt.issueLoad.advance)

/-- The form that `REP` repeats is one of the lane forms. -/
theorem Canonical.repeated {next : BitVec 96} {f : LaneForm} {w : LaneWord} (h : Canonical s) (e : repeated next = .ok f) :
    Answers Canonical (f.body w s) := by
  unfold Machine.repeated at e
  split at e
  · cases e
  · split at e
    · cases e
    · next hf => cases e; exact h.laneForm _ _ hf

protected theorem Canonical.execRep {n stride adv next} (h : Canonical s) : NextCanonical (execRep n stride adv next s) := by
  refine h.finishLane (.after fun x => .bind (Q := fun f => ∀ w, Answers Canonical (f.body w s)) (fun f e w => h.repeated e) fun f hf => ?_)
  refine .ite (.ok h.mapSplit.mapSelfGroup.ctlDone) (.after fun _ => .after fun _ => .bind (hf _) fun _ h => .ok ?_)
  exact h.mapSplit.mapSelfGroup.ctlDone.ite h.mapSelfGroup.retire

protected theorem Canonical.execExt {imm next} (h : Canonical s) : NextCanonical (execExt imm next s) := by
  unfold execExt
  dsimp only
  split
  case h_1 | h_2 | h_3 | h_4 | h_5 | h_6 | h_7 => exact h.aluImm
  case h_8 | h_9 | h_10 | h_11 | h_12 | h_13 => exact h.branch
  case h_14 => exact h.loopForm
  case h_15 => exact h.jForm
  case h_16 => exact h.callForm
  case h_17 => exact h.jrForm
  case h_18 => exact h.callrForm
  case h_19 | h_20 | h_21 | h_22 | h_23 | h_24 | h_25 => exact h.ldsForm
  case h_26 | h_27 | h_28 | h_29 => exact h.stsForm
  case h_30 => exact h.lrunForm
  case h_31 => exact h.yieldForm
  case h_32 => exact h.finish .raise

protected theorem Canonical.execCpy {w} (h : Canonical s) : NextCanonical (execCpy w s) :=
  h.finish (.after fun _ => .after fun _ => .bind h.foldReads.copyRecord fun _ h => .after fun _ => .after fun _ => .after fun _ =>
    .after fun _ => .after fun _ => .bind h.snd.issueItem fun _ h => .ok h.advance)

protected theorem Canonical.execQfence {w} (h : Canonical s) : NextCanonical (execQfence w s) :=
  h.finish (.after fun _ => .ok (h.seqAll fun _ _ h => h.setEngine).advance)

protected theorem Canonical.execCpstep {d imm} (h : Canonical s) : NextCanonical (execCpstep d imm s) :=
  h.finish (.after fun _ => .bind (.seqEff (fun _ _ h => h.releaseDue) (h.seqAll fun _ _ h => h.mapBlock)) fun _ h => .ok h.setReg.advance)

protected theorem Canonical.execFenceTc {w} (h : Canonical s) : NextCanonical (execFenceTc w s) :=
  h.finish (.after fun _ => h.commitOwn.whenPerformed fun _ h => .ite (.ok h) (.ok (h.setReg.mapSelf.ite h).advance))

protected theorem Canonical.execRatom {w} (h : Canonical s) : NextCanonical (execRatom w s) :=
  h.finish (.after fun _ => .after fun _ => h.releaseFirst fun _ h => .bind h.issueItem fun _ h => .ok h.advance)

protected theorem Canonical.execRrel {w} (h : Canonical s) : NextCanonical (execRrel w s) :=
  h.finish (.after fun _ => .after fun _ => h.releaseFirst fun _ h => .bind h.issueItem fun _ h => .ok h.advance)

protected theorem Canonical.execRemoteItemPerform {id} (h : Canonical s) : NextCanonical (execRemoteItemPerform id s) :=
  h.itemEvent fun _ h => .ok h.performItem

protected theorem Canonical.execRemoteReleasePerform {id} (h : Canonical s) : NextCanonical (execRemoteReleasePerform id s) :=
  h.itemEvent fun _ h => .ok h.performItem

protected theorem Canonical.execRemoteItemStatus {id} (h : Canonical s) : NextCanonical (execRemoteItemStatus id s) :=
  h.itemEvent fun _ h => h.finishItem

protected theorem Canonical.execItemStart {id} (h : Canonical s) : NextCanonical (execItemStart id s) :=
  h.itemEvent fun _ h => .ite h.startItem (.bind h.afterReads fun _ h => .ok (h.writeSome.ite h))

protected theorem Canonical.execDestinationLineFull {id line} (h : Canonical s) : NextCanonical (execDestinationLineFull id line s) :=
  h.itemEvent fun _ h => .ok h.setItem.applyPuts.fillLines

protected theorem Canonical.execRflush {a} (h : Canonical s) : NextCanonical (execRflush a s) :=
  h.finish (.map h.rflush fun _ h => h.ite h.giveNotice)

protected theorem Canonical.execLeaseReclaim {pkg handle} (h : Canonical s) : NextCanonical (execLeaseReclaim pkg handle s) := by
  unfold execLeaseReclaim
  refine h.finishEvent ?_
  split
  · exact .error
  · exact .ite (.ok h.mapPkg) .error

protected theorem Canonical.execColl {w} (h : Canonical s) : NextCanonical (execColl w s) :=
  h.finish (.after fun _ => .after fun _ => .after fun _ => .after fun _ => .after fun _ => .bind h.foldReads.collRecord fun _ h =>
    .bind h.snd.collRecord fun _ h => .after fun _ => .after fun _ => .after fun _ => .after fun _ => .after fun _ => .after fun _ => .after fun _ =>
    .bind h.snd.issueItem fun _ h => .ok h.advance)

protected theorem Canonical.execCollectiveArrival {id} (h : Canonical s) : NextCanonical (execCollectiveArrival id s) :=
  h.itemEvent fun _ h => .ite h.finishItem (.ite h.finishItem (.ite h.same.endAll (.ok h.same.setItem)))

protected theorem Canonical.execItemSourceReusable {id} (h : Canonical s) : NextCanonical (execItemSourceReusable id s) :=
  h.itemEvent fun s h => by
    split
    · exact h.readColl
    · exact .bind h.afterReads fun _ h => .ite (.ok h.dropCp.mapItem) (.ok h)

protected theorem Canonical.execItemVisible {id} (h : Canonical s) : NextCanonical (execItemVisible id s) :=
  h.itemEvent fun _ h => h.setItem.writeItem.finishItem

protected theorem Canonical.execSwitchArrival {id} (h : Canonical s) : NextCanonical (execSwitchArrival id s) :=
  h.itemEvent fun s h => by
    dsimp only
    refine .ite h.giveSlot (.ite h.finishItem ?_)
    split
    · exact .ite h.mapPanel.setItem.afterArrival h.mapPanel.breakSlot
    · exact .ite .error h.setItem.mapPanel.afterArrival

protected theorem Canonical.execSwitchSlotDeadline {panel slot} (h : Canonical s) : NextCanonical (execSwitchSlotDeadline panel slot s) := by
  unfold execSwitchSlotDeadline
  refine h.finishEvent ?_
  split
  · exact .error
  · exact .ite (.ok h.completeSlot) .error

protected theorem Canonical.execWait {ld st cp tl} (h : Canonical s) : NextCanonical (execWait ld st cp tl s) :=
  h.finish (.after fun _ => .after fun _ => .ok h.advance)

protected theorem Canonical.execWaity {ld st cp tl} (h : Canonical s) : NextCanonical (execWaity ld st cp tl s) :=
  h.finish (.after fun _ => .after fun _ => .ite (.ok h.advance) (.ite .error (.ok h.advance.leaveSlot)))

protected theorem Canonical.execMfs {d num} (h : Canonical s) : NextCanonical (execMfs d num s) :=
  h.finish (.after fun _ => .after fun _ => .ite (.ok h.areaFault) (.ok h.setReg.advance))

protected theorem Canonical.execMts {a num} (h : Canonical s) : NextCanonical (execMts a num s) :=
  h.finish (.after fun _ => .after fun _ => .bind h.writeSys fun _ h => .ok h.advance)

protected theorem Canonical.execSleep {_w} (h : Canonical s) : NextCanonical (execSleep _w s) :=
  h.finish (.after fun _ => .ite (.ok h.mapCtl.advance) (.ok h.advance.mapSelf))

protected theorem Canonical.execWake {w} (h : Canonical s) : NextCanonical (execWake w s) :=
  h.finish (.after fun _ => .after fun _ => .ok (h.wakeCtl.ite h).advance)

protected theorem Canonical.execTlbinv {w} (h : Canonical s) : NextCanonical (execTlbinv w s) :=
  h.finish (.after fun _ => .after fun _ => .ok h.same.advance)

protected theorem Canonical.execJroot {w} (h : Canonical s) : NextCanonical (execJroot w s) :=
  h.finish (.after fun _ => .after fun _ => .after fun _ => .ok h.mapPkg.advance)

protected theorem Canonical.execKbind {w} (h : Canonical s) : NextCanonical (execKbind w s) :=
  h.finish (.after fun _ => .after fun _ => .ite (.ite (.ok h.advance) (.ok h.mapPkg.advance)) (.ok h.mapPkg.advance))

protected theorem Canonical.execLaunch {w} (h : Canonical s) : NextCanonical (execLaunch w s) :=
  h.finish (.after fun _ => .after fun _ => .after fun _ => h.commitOwn.whenPerformed fun _ h => .after fun _ => .after fun _ =>
    .bind (h.acceptLaunch fun _ _ h => h.mapLaunchQ) fun _ h => .ok h.advance)

protected theorem Canonical.execKick {w} (h : Canonical s) : NextCanonical (execKick w s) :=
  h.finish (.after fun _ => .after fun _ => .after fun _ => .ok h.kick.advance)

end Sys2Proof.Machine
end

section
/-! SUPPORT. O27: the canonical form through the hardware events. -/

namespace Sys2Proof.Machine

-- in order, so that no thread waits for an earlier proof
set_option Elab.async false

variable {s : State}

protected theorem Canonical.execRingEntrySkip {pkg queue} (h : Canonical s) : NextCanonical (execRingEntrySkip pkg queue s) :=
  h.ringStep fun _ _ h => .ok h

protected theorem Canonical.execRingEntryLaunch {pkg queue} (h : Canonical s) : NextCanonical (execRingEntryLaunch pkg queue s) :=
  h.ringStep fun _ _ h => .after fun _ => h.acceptLaunch fun _ _ h => h.mapLaunchQ

protected theorem Canonical.execRingEntryCopy {pkg queue} (h : Canonical s) : NextCanonical (execRingEntryCopy pkg queue s) :=
  h.ringStep fun bs s h => by
    refine .after fun _ => .ite h.foldReads.endAt ?_
    split
    · exact .error
    · exact h.foldReads.endAt
    · exact .ite h.foldReads.same.endRingCopy (.ok h.foldReads.same.mapLaunchQ.mapPkg)

protected theorem Canonical.execRingEntryGate {pkg queue} (h : Canonical s) : NextCanonical (execRingEntryGate pkg queue s) :=
  h.ringStep fun _ _ h => .ok h.mapLaunchQ

protected theorem Canonical.execRingEntryFailure {pkg queue} (h : Canonical s) : NextCanonical (execRingEntryFailure pkg queue s) :=
  h.ringStep fun bs s h => by
    dsimp only
    split
    · exact h.same.setLaunch.rejectLaunch
    · exact .ite h.endAt (.ok h.queueFail)

protected theorem Canonical.execItemEligible {pkg queue} (h : Canonical s) : NextCanonical (execItemEligible pkg queue s) := by
  unfold execItemEligible
  refine h.finishEvent (.ite .error ?_)
  split
  · exact .error
  · dsimp only
    split
    · exact .error
    · exact h.foldGates.endHead
    · exact .ok h.foldGates.popHead
    · exact .ok h.foldGates.mapLaunchQ

protected theorem Canonical.execBlockPlace {pkg queue} (h : Canonical s) : NextCanonical (execBlockPlace pkg queue s) := by
  unfold execBlockPlace
  refine h.finishEvent ?_
  split
  · exact .error
  · refine .ite .error ?_
    split
    · exact .error
    · exact .map h.placeBlock fun _ h => h.afterPlace

protected theorem Canonical.execGangPlace {pkg queue} (h : Canonical s) : NextCanonical (execGangPlace pkg queue s) := by
  unfold execGangPlace
  refine h.finishEvent ?_
  split
  · exact .error
  · refine .ite .error ?_
    split
    · exact .error
    · exact .map h.placeGang fun _ h => h.afterPlace

protected theorem Canonical.execDistributorSelect {pkg} (h : Canonical s) : NextCanonical (execDistributorSelect pkg s) := by
  unfold execDistributorSelect
  refine h.finishEvent ?_
  split
  · exact .error
  · split
    · exact h.popHead.noteQueue.handCopy
    · exact .ok (h.seqAll fun _ _ h => h.mapLaunchQ)

protected theorem Canonical.execBlockEnd {blk} (h : Canonical s) : NextCanonical (execBlockEnd blk s) := by
  unfold execBlockEnd
  refine h.finishEvent ?_
  split
  · exact .error
  · exact .ite .error (.ite (.ok h.commitBlock) (.ite .error (.bind h.endLaunchBlock fun _ h => .ok h.removeBlock)))

protected theorem Canonical.execGroupEligible {ag} (h : Canonical s) : NextCanonical (execGroupEligible ag s) := by
  unfold execGroupEligible
  refine h.finishEvent ?_
  split
  · refine .ite .error ?_
    split
    · exact .ite (.ok h.mapStream.mapGroup) .error
    · exact .ite (.ok h.mapStream.mapGroup) .error
    · exact .error
  · exact .error

protected theorem Canonical.execActiveWaitSwap {active pending} (h : Canonical s) : NextCanonical (execActiveWaitSwap active pending s) :=
  h.finishEvent (.ite (.ok h.swapSlots) .error)

protected theorem Canonical.execPendingReadySwap {active pending} (h : Canonical s) : NextCanonical (execPendingReadySwap active pending s) :=
  h.finishEvent (.ite (.ok h.swapSlots) .error)

protected theorem Canonical.execHeadReserve {pkg queue} (h : Canonical s) : NextCanonical (execHeadReserve pkg queue s) := by
  unfold execHeadReserve
  refine h.finishEvent (.ite (.ite ?_ ?_) .error)
  · split
    · exact .error
    · exact .ok (h.seqAll fun _ _ h => h.mapCore)
  · split
    · exact .error
    · exact .ok h.mapCore

protected theorem Canonical.execTsync {w} (h : Canonical s) : NextCanonical (execTsync w s) :=
  h.finish (.after fun _ => .ite (.after fun _ => .ok h.advance) (.after fun _ => .ok h.mapSelf.mapMcc.advance))

protected theorem Canonical.execTileStep {pkg clu stream} (h : Canonical s) : NextCanonical (execTileStep pkg clu stream s) := by
  unfold execTileStep
  refine h.finishEvent ?_
  split
  · exact .error
  · exact .ite .error (.ok h.advanceStep)

protected theorem Canonical.execTileOpComplete {pkg clu stream} (h : Canonical s) : NextCanonical (execTileOpComplete pkg clu stream s) := by
  unfold execTileOpComplete
  refine h.finishEvent ?_
  split
  · exact .error
  · exact .ite .error (.ok h.mapMcc.dropTl)

protected theorem Canonical.execTileOpArrival {ag} (h : Canonical s) : NextCanonical (execTileOpArrival ag s) := by
  unfold execTileOpArrival
  refine h.finishEvent ?_
  split
  · exact .error
  · dsimp only
    split
    · exact .ok h.mapMcc.dropTl
    · exact .ok h.mapMcc.mapMcc

protected theorem Canonical.execPreemptDecision {pkg queue} (h : Canonical s) : NextCanonical (execPreemptDecision pkg queue s) := by
  unfold execPreemptDecision
  refine h.finishEvent ?_
  split
  · exact .error
  · refine .ite .error ?_
    split
    · exact .error
    · exact .error
    · exact .ok h.markVictims

protected theorem Canonical.execDrainFallback {block} (h : Canonical s) : NextCanonical (execDrainFallback block s) := by
  unfold execDrainFallback
  refine h.finishEvent ?_
  split
  · exact .error
  · split
    · refine .ite .error (.ok (h.seqAll fun _ _ h => h.mapBlock fun _ hb => ?_))
      split <;> exact hb
    · exact .error

protected theorem Canonical.execSave {block} (h : Canonical s) : NextCanonical (execSave block s) := by
  unfold execSave
  refine h.finishEvent (.ite .error (.ok ?_))
  exact Canonical.seqAll (((h.seqAll fun _ _ h => h.withdrawSyncs).seqAll fun _ _ h => h.saveBlock).seqAll fun _ _ h => h.ite h.putAway)
    fun _ _ h => h.releaseMcc

protected theorem Canonical.execFlushAndRestart {block} (h : Canonical s) : NextCanonical (execFlushAndRestart block s) := by
  unfold execFlushAndRestart
  refine h.finishEvent (.ite .error (.ok ?_))
  exact Canonical.requeue (((h.seqAll fun _ _ h => h.orphanItem).seqAll fun _ _ h => h.flushBlock).seqAll fun _ _ h => h.releaseMcc)

theorem Canonical.resumeAll {bs : List Nat} {ags : List Agent} (h : Canonical s) :
    Canonical (seqAll freshGroup ags (seqAll resumeBlock bs s)) :=
  (h.seqAll fun _ _ h => h.resumeBlock).seqAll fun _ _ h => h.freshGroup

protected theorem Canonical.execImageResume {pkg core slot} (h : Canonical s) : NextCanonical (execImageResume pkg core slot s) := by
  unfold execImageResume
  refine h.finishEvent ?_
  split
  · exact .error
  · dsimp only
    refine .ite (.seqEff (fun _ _ h => h.releaseDue) ?_) (.ite .error ?_)
    · exact (h.resumeAll.freshOps.ite h.resumeAll).seqAll fun _ _ h => h.handSync
    · split
      · exact .ok h.markVictims
      · exact .error

protected theorem Canonical.execLoadDataReturn {ag k} (h : Canonical s) : NextCanonical (execLoadDataReturn ag k s) := by
  unfold execLoadDataReturn
  refine h.finishEvent ?_
  split
  · exact .error
  · exact .ok h.deliverAll.mapStream.noteBad

protected theorem Canonical.execStoreAcknowledge {ag k} (h : Canonical s) : NextCanonical (execStoreAcknowledge ag k s) := by
  unfold execStoreAcknowledge
  refine h.finishEvent ?_
  split
  · exact .error
  · exact .ite .error (.ok h.mapStream.annexAck.deliverAll)

protected theorem Canonical.execTrapEntry {ag} (h : Canonical s) : NextCanonical (execTrapEntry ag s) := by
  unfold execTrapEntry
  refine h.finishEvent ?_
  split
  · exact .error
  · exact .ite (.ok h.takeTrap) .error

protected theorem Canonical.execMachineEvent {ag} (h : Canonical s) : NextCanonical (execMachineEvent ag s) := by
  unfold execMachineEvent
  refine h.finishEvent ?_
  split
  · split
    · exact .error
    · exact .ite (.ok h.mapPkg.enterVector.mapStream) .error
  · exact .error

protected theorem Canonical.execPreemptTrap {ag} (h : Canonical s) : NextCanonical (execPreemptTrap ag s) := by
  unfold execPreemptTrap
  refine h.finishEvent ?_
  split
  · exact .ite (.ok h.mapCtl.enterVector) .error
  · exact .error

protected theorem Canonical.execL1Eviction {pkg core line} (h : Canonical s) : NextCanonical (execL1Eviction pkg core line s) :=
  h.finishEvent (.ite (.ok h.foldCoreLine.mapCore) .error)

protected theorem Canonical.execL1LineExpire {pkg core line} (h : Canonical s) : NextCanonical (execL1LineExpire pkg core line s) :=
  h.finishEvent (.ite (.ok h.mapCore) .error)

protected theorem Canonical.execHeartbeatSend {pkg} (h : Canonical s) : NextCanonical (execHeartbeatSend pkg s) :=
  h.finishEvent (.ite (.ok h.beatAt.mapPkg) .error)

protected theorem Canonical.execLossDeclare {die pkg} (h : Canonical s) : NextCanonical (execLossDeclare die pkg s) :=
  h.finishEvent (.ite (.ok (h.setPanel.seqAll fun _ _ h => h.mapPkg)) .error)

/-- What a survivor takes back of the lost package's lines, where it stands in the same panel. -/
theorem Canonical.takenBack {near : Bool} {pkg lost : Nat} {lines : List Nat} {t : State} (h : Canonical s)
    (e : (if near = true then Machine.takeBack pkg lost s else ([], s)) = (lines, t)) : Canonical t := by
  split at e
  · have ht := h.takeBack (pkg := pkg) (lost := lost)
    rw [e] at ht
    exact ht
  · cases e
    exact h

protected theorem Canonical.execLossNoticeApply {pkg} (h : Canonical s) : NextCanonical (execLossNoticeApply pkg s) := by
  unfold execLossNoticeApply
  refine h.finishEvent ?_
  split
  · exact .error
  · refine .ite (.ok h.mapPkg.fencePackage) (.ite .error (.bind h.mapPkg.applyLoss fun t ht => ?_))
    split
    next lines u e =>
      have hu : Canonical u := ht.takenBack e
      dsimp only
      exact .ok (Canonical.writeDescriptorFlags (Canonical.ite (Canonical.mapPkg (.ite hu.startRebuild (.writeReport (.ite hu.mapPkg hu))))
        (.ite hu.startRebuild (.writeReport (.ite hu.mapPkg hu)))))

protected theorem Canonical.execPackageSelfFence {pkg} (h : Canonical s) : NextCanonical (execPackageSelfFence pkg s) :=
  h.finishEvent (.ite (.ok h.fencePackage) .error)

protected theorem Canonical.execDirectoryRebuild {pkg} (h : Canonical s) : NextCanonical (execDirectoryRebuild pkg s) := by
  unfold execDirectoryRebuild
  refine h.finishEvent ?_
  split
  · exact .error
  · exact .ite .error (.bind (.seqEff (fun _ _ h => h.endLostEntry) h.mapPkg.dropOwned) fun _ h => .ok h.writeReport)

protected theorem Canonical.execLaneFailure {pkg link lane} (h : Canonical s) : NextCanonical (execLaneFailure pkg link lane s) :=
  h.finishEvent (.ite (.ok (h.mapPkg.queueFault.queueFault.ite h.mapPkg.queueFault)) .error)

protected theorem Canonical.execLinkRetrainComplete {pkg link} (h : Canonical s) : NextCanonical (execLinkRetrainComplete pkg link s) :=
  h.finishEvent (.ite (.ok (h.mapPkg.beatAt.ite h.mapPkg)) .error)

protected theorem Canonical.execClockStepDown {pkg} (h : Canonical s) : NextCanonical (execClockStepDown pkg s) :=
  h.finishEvent (.ite (.ok h.mapPkg.writePower) .error)

protected theorem Canonical.execClockStepUp {pkg} (h : Canonical s) : NextCanonical (execClockStepUp pkg s) :=
  h.finishEvent (.ite (.ok h.mapPkg.writePower) .error)

protected theorem Canonical.execThermalFence {pkg} (h : Canonical s) : NextCanonical (execThermalFence pkg s) :=
  h.finishEvent (.ite (.ok h.fencePackage) .error)

protected theorem Canonical.execPackageReset {pkg} (h : Canonical s) : NextCanonical (execPackageReset pkg s) :=
  h.finishEvent (.ite (.ok h.resetPackage) .error)

protected theorem Canonical.execPowerOnReset {pkg} (h : Canonical s) : NextCanonical (execPowerOnReset pkg s) :=
  h.finishEvent (.ite (.ok h.clearControl.resetPackage) .error)

protected theorem Canonical.execPanelReset {panel} (h : Canonical s) : NextCanonical (execPanelReset panel s) :=
  h.finishEvent (.ok ((h.setPanel.same.seqAll fun _ _ h => h.clearPackage).seqAll fun _ _ h => h.bootPackage))

protected theorem Canonical.execGoRelease {pkg} (h : Canonical s) : NextCanonical (execGoRelease pkg s) := by
  unfold execGoRelease
  refine h.finishEvent ?_
  split
  · exact .error
  · exact .ite (.ite (.ok h.loadSetup.mapPkg.writeCtl.mapPkg) (.ok h.writeCtl.mapPkg)) .error

protected theorem Canonical.execLoadkey {pkg} (h : Canonical s) : NextCanonical (execLoadkey pkg s) := by
  unfold execLoadkey
  -- the folded lines and the cipher under names of their own, which the kernel does not evaluate
  obtain ⟨fold, hfold⟩ : ∃ f, f = foldKeys := ⟨_, rfl⟩
  obtain ⟨unwrap, hunwrap⟩ : ∃ f, f = unwrapMaterial := ⟨_, rfl⟩
  have hf (ks : List Nat) : Canonical (fold ks s) := hfold ▸ h.foldKeys
  rw [← hfold, ← hunwrap]
  refine h.finishEvent ?_
  split
  · exact .error
  · dsimp only
    refine .ite (.ok h.answer) ?_
    split
    · exact .ok (hf _).answer
    · split
      · exact .ok (hf _).answer
      · exact .ok (hf _).mapPkg.answer

protected theorem Canonical.execAttest {pkg} (h : Canonical s) : NextCanonical (execAttest pkg s) := by
  unfold execAttest
  refine h.finishEvent ?_
  split
  · exact .error
  · exact .ite (.ok h.answer) (.ok h.writeCtl.answer)

protected theorem Canonical.execBadCommand {pkg} (h : Canonical s) : NextCanonical (execBadCommand pkg s) := by
  unfold execBadCommand
  refine h.finishEvent ?_
  split
  · exact .ok h.answer
  · exact .error

protected theorem Canonical.execIbkelWriteFirmware {pkg version image} (h : Canonical s) :
    NextCanonical (execIbkelWriteFirmware pkg version image s) :=
  h.portEvent fun _ h => h.mapPkg

protected theorem Canonical.execIbkelResetRequest {pkg} (h : Canonical s) : NextCanonical (execIbkelResetRequest pkg s) :=
  h.finishEvent (.ite (.ok h.resetPackage) .error)

protected theorem Canonical.execIbkelRetireRequest {pkg unit} (h : Canonical s) : NextCanonical (execIbkelRetireRequest pkg unit s) :=
  h.portEvent fun _ h => h.queueFault

protected theorem Canonical.execIbkelProvisionKek {pkg key} (h : Canonical s) : NextCanonical (execIbkelProvisionKek pkg key s) :=
  h.portEvent fun _ h => h.mapPkg

protected theorem Canonical.execIbkelSetWatchpoint {pkg core lo hi reads writes} (h : Canonical s) :
    NextCanonical (execIbkelSetWatchpoint pkg core lo hi reads writes s) := by
  unfold execIbkelSetWatchpoint
  refine h.finishEvent (.ite ?_ .error)
  split
  · next e => exact .ok (h.addWatch e).mapPkg
  · exact .error

end Sys2Proof.Machine
end

section
/-! SUPPORT. O27: the canonical form through the opcode table and the turns. -/

namespace Sys2Proof.Machine

-- in order, so that no thread waits for an earlier proof
set_option Elab.async false

variable {s : State}

/-- Every row of the opcode table. -/
protected theorem Canonical.exec {i : Instr} (h : Canonical s) : NextCanonical (exec i s) := by
  cases i
  case add | sub | mul | mulh | mulhu | div | divu | rem | remu | sh1add | sh2add | sh3add | and | or | xor | andn | shl | shr | sra | ror
      | slt | sltu | seq | min | max | minu | maxu | clz | ctz | popc => exact h.alu
  case addi | andi | ori | xori | shli | shri | srai | muli | slti | sltiu => exact h.aluImm
  case bfxI64 | bfxN64 | bfi | cyc => exact .next h.setReg.advance
  case nop => exact .next h.advance
  case ibkelReadStatus => exact .next h
  case brk | trap => exact h.finish .raise
  case tret => exact h.finish h.trapReturn
  case halt => exact h.finish h.halt
  case beq | bne | blt | bge | bltu | bgeu => exact h.branch
  case loop => exact h.loopForm
  case j => exact h.jForm
  case call => exact h.callForm
  case jr => exact h.jrForm
  case callr => exact h.callrForm
  case ldsI8 | ldsN8 | ldsI16 | ldsN16 | ldsI32 | ldsN32 | ldsN64 => exact h.ldsForm
  case stsN8 | stsN16 | stsN32 | stsN64 => exact h.stsForm
  case lrun => exact h.lrunForm
  case yield => exact h.yieldForm
  case cancel => exact h.finish h.cancelForm
  case rqryNseg | rqryStart | rqryLen | rqryTotal => exact h.finish h.rqry
  case fadd | fsub | fmul | ffma | ffms | fnma | fnms | frint => exact h.laneStep h.floatForm
  case fmin | fmax | fminn | fmaxn | fabs | fneg => exact h.laneStep h.floatBits
  case frcp | frsq | fexp2 | flog2 => exact h.laneStep h.approxForm
  case iadd | isub | imul | imulh | imad | iadds | isubs | imin | imax => exact h.laneStep h.intVal
  case iand | ior | ixor | iandn | ishl | ishr | iror | ipopc | iclz => exact h.laneStep h.intForm
  case mov | pkn | pkb | pkh | upn | upb | uph =>
    refine h.laneStep ?_
    dsimp only [bodyMov, bodyPkn, bodyPkb, bodyPkh, bodyUpn, bodyUpb, bodyUph]
    exact h.laneMap
  case sel | bcst | gred =>
    refine h.laneStep ?_
    dsimp only [bodySel, bodyBcst, bodyGred]
    exact h.laneCross
  case vany | vall | vbal => exact h.laneStep h.vote
  case shflIdx | shflUp | shflDn | shflXor => exact h.laneStep h.shuffle
  case scan | scanx => exact h.laneStep h.scanForm
  case fcmp | icmp | mset => exact h.laneStep h.laneMask
  case mand | mor | mxor | mandn => exact h.laneStep h.maskForm
  case cvt => exact h.laneStep h.bodyCvt
  case greds => exact h.laneStep h.bodyGreds
  case ldl | ldt => exact h.laneStep h.laneLoad
  case stl => exact h.laneStep h.bodyStl
  case stt | sttWait => exact h.laneStep h.sttBody
  case lda => exact h.laneStep h.bodyLda
  case atomLane => exact h.laneStep h.bodyAtomLane
  case redLane => exact h.laneStep h.bodyRedLane
  case amaxrdLane => exact h.laneStep h.bodyAmaxrdLane
  case segl => exact h.laneStep h.bodySegl
  case segb => exact h.laneStep h.bodySegb
  case hgld => exact h.laneStep h.bodyHgld
  case hgsc => exact h.laneStep h.bodyHgsc
  case mma => exact h.tileInstr fun _ => h.mmaOp
  case mmd => exact h.tileInstr fun _ => h.mmdOp
  case mzero => exact h.tileInstr fun _ => h.mzeroOp
  case wloadImg => exact h.tileInstr fun _ => h.wloadImgOp
  case wloadDense => exact h.tileInstr fun _ => h.wloadDenseOp
  case wupd => exact h.tileInstr fun _ => h.wupdOp
  case accst => exact h.tileInstr fun _ => h.accstOp
  case accld => exact h.tileInstr fun _ => h.accldOp
  case tcvt => exact h.tileInstr fun _ => h.tcvtOp
  case tred => exact h.tileInstr fun _ => h.tredOp
  case tnorm => exact h.tileInstr fun _ => h.tnormOp
  case tsmax => exact h.tileInstr fun _ => h.tsmaxOp
  case qset => exact h.execQset
  case qgo => exact h.execQgo
  case wait => exact h.execWait
  case waity => exact h.execWaity
  case mfs => exact h.execMfs
  case mts => exact h.execMts
  case ext => exact h.execExt
  case fence scope => exact h.execFence (_scope := scope)
  case barArr => exact h.execBarArr
  case barWait => exact h.execBarWait
  case barSync => exact h.execBarSync
  case phnew => exact h.execPhnew
  case phfree => exact h.execPhfree
  case phreg => exact h.execPhreg
  case phdrop => exact h.execPhdrop
  case phsig => exact h.execPhsig
  case phwait => exact h.execPhwait
  case phsw => exact h.execPhsw
  case atomShort => exact h.execAtomShort
  case chunk => exact h.execChunk
  case cpstep => exact h.execCpstep
  case rflush => exact h.execRflush
  case atomLong => exact h.execAtomLong
  case redScalar => exact h.execRedScalar
  case amaxrdScalar => exact h.execAmaxrdScalar
  case ratom => exact h.execRatom
  case rrel => exact h.execRrel
  case fenceTc => exact h.execFenceTc
  case launch => exact h.execLaunch
  case ccrd => exact h.execCcrd
  case ccwt => exact h.execCcwt
  case cpy => exact h.execCpy
  case qfence => exact h.execQfence
  case coll => exact h.execColl
  case segof => exact h.execSegof
  case rbind => exact h.execRbind
  case hgix => exact h.execHgix
  case kick => exact h.execKick
  case sleep w => exact h.execSleep (_w := w)
  case wake => exact h.execWake
  case tlbinv => exact h.execTlbinv
  case jroot => exact h.execJroot
  case kbind => exact h.execKbind
  case tsync => exact h.execTsync
  case brl => exact h.execBrl
  case brln => exact h.execBrln
  case joinl w => exact h.execJoinl (_w := w)
  case lret w => exact h.execLret (_w := w)
  case exit => exact h.execExit
  case rep => exact h.execRep
  case powerOnReset => exact h.execPowerOnReset
  case packageReset => exact h.execPackageReset
  case loadDataReturn => exact h.execLoadDataReturn
  case storeAcknowledge => exact h.execStoreAcknowledge
  case trapEntry => exact h.execTrapEntry
  case machineEvent => exact h.execMachineEvent
  case preemptTrap => exact h.execPreemptTrap
  case segmentBegin => exact h.execSegmentBegin
  case aaePush => exact h.execAaePush
  case l1Eviction => exact h.execL1Eviction
  case l1LineExpire => exact h.execL1LineExpire
  case remoteItemStatus => exact h.execRemoteItemStatus
  case remoteReleasePerform => exact h.execRemoteReleasePerform
  case itemStart => exact h.execItemStart
  case itemSourceReusable => exact h.execItemSourceReusable
  case itemVisible => exact h.execItemVisible
  case collectiveArrival => exact h.execCollectiveArrival
  case switchArrival => exact h.execSwitchArrival
  case switchSlotDeadline => exact h.execSwitchSlotDeadline
  case leaseReclaim => exact h.execLeaseReclaim
  case tileOpArrival => exact h.execTileOpArrival
  case tileStep => exact h.execTileStep
  case tileOpComplete => exact h.execTileOpComplete
  case ringEntrySkip => exact h.execRingEntrySkip
  case ringEntryLaunch => exact h.execRingEntryLaunch
  case ringEntryCopy => exact h.execRingEntryCopy
  case ringEntryGate => exact h.execRingEntryGate
  case itemEligible => exact h.execItemEligible
  case distributorSelect => exact h.execDistributorSelect
  case blockPlace => exact h.execBlockPlace
  case gangPlace => exact h.execGangPlace
  case blockEnd => exact h.execBlockEnd
  case groupEligible => exact h.execGroupEligible
  case activeWaitSwap => exact h.execActiveWaitSwap
  case pendingReadySwap => exact h.execPendingReadySwap
  case preemptDecision => exact h.execPreemptDecision
  case headReserve => exact h.execHeadReserve
  case drainFallback => exact h.execDrainFallback
  case save => exact h.execSave
  case flushAndRestart => exact h.execFlushAndRestart
  case imageResume => exact h.execImageResume
  case heartbeatSend => exact h.execHeartbeatSend
  case lossDeclare => exact h.execLossDeclare
  case lossNoticeApply => exact h.execLossNoticeApply
  case packageSelfFence => exact h.execPackageSelfFence
  case directoryRebuild => exact h.execDirectoryRebuild
  case laneFailure => exact h.execLaneFailure
  case linkRetrainComplete => exact h.execLinkRetrainComplete
  case clockStepDown => exact h.execClockStepDown
  case clockStepUp => exact h.execClockStepUp
  case thermalFence => exact h.execThermalFence
  case panelReset => exact h.execPanelReset
  case goRelease => exact h.execGoRelease
  case loadkey => exact h.execLoadkey
  case attest => exact h.execAttest
  case ibkelWriteFirmware => exact h.execIbkelWriteFirmware
  case ibkelResetRequest => exact h.execIbkelResetRequest
  case ibkelRetireRequest => exact h.execIbkelRetireRequest
  case ibkelProvisionKek => exact h.execIbkelProvisionKek
  case ibkelSetWatchpoint => exact h.execIbkelSetWatchpoint
  case remoteItemPerform => exact h.execRemoteItemPerform
  case destinationLineFull => exact h.execDestinationLineFull
  case badCommand => exact h.execBadCommand
  case ringEntryFailure => exact h.execRingEntryFailure

protected theorem NextCanonical.onNext {f : State → State} {o : Out} (h : NextCanonical o) (hf : ∀ t, Canonical t → Canonical (f t)) :
    NextCanonical (onNext f o) := by
  cases h with
  | next h => exact .next (hf _ h)
  | fault r => exact .fault r
  | refused r => exact .refused r

/-- The state in which a picked stream issues. -/
theorem Canonical.fetched {ag : Agent} {vas : List Word64} {c : Prop} [Decidable c] (h : Canonical s) :
    Canonical (if c then Machine.foldFetch ag vas { s with cur := ag } else { s with cur := ag }) :=
  .ite h.same.foldFetch h.same

protected theorem Canonical.scalarTurn {ag} (h : Canonical s) : NextCanonical (scalarTurn ag s) := by
  unfold scalarTurn
  dsimp only
  split
  · exact .next h.fetched
  · exact .next h.fetched.takeTrap
  · exact h.fetched.exec

protected theorem Canonical.laneTurn {ag} (h : Canonical s) : NextCanonical (laneTurn ag s) := by
  unfold laneTurn
  dsimp only
  split
  · exact .next h.fetched
  · exact .next h.fetched.takeTrap
  · exact h.fetched.exec.onNext fun _ h => h.noteLane

protected theorem Canonical.turnScalar {ag} (h : Canonical s) : NextCanonical (turnScalar ag s) :=
  .ite (h.scalarTurn.onNext fun _ h => h.noteIssue) (.next h)

protected theorem Canonical.turnLane {ag} (h : Canonical s) : NextCanonical (turnLane ag s) :=
  .ite (h.laneTurn.onNext fun _ h => h.noteIssue) (.next h)

protected theorem Canonical.takeTurn {t} (h : Canonical s) : NextCanonical (takeTurn t s) := by
  cases t with
  | issue ag => exact h.turnScalar
  | lane ag => exact h.turnLane
  | event i => exact .ite h.exec (.next h)
  | cycles pkg n => exact .next h.passCycles
  | dieCycles panel n => exact .next h.passDieCycles
  | drift ag n => exact .next h.drift
  | upset w => exact .next h.upset
  | attach pkg port bytes => exact .next h.attachDevice
  | tamper pkg => exact .next h.tamper

protected theorem Canonical.runTurn {t} (h : Canonical s) : NextCanonical (runTurn t s) := h.takeTurn.onNext fun _ h => h.observePorts

/-- The canonical form is kept by a step. -/
protected theorem Canonical.step (h : Canonical s) : NextCanonical (step s) := h.beginTurn.runTurn

end Sys2Proof.Machine

/-- Settles O27: every function of the model that answers a state keeps the canonical form, and a step is one of them. -/
theorem stepKeepsCanonical : Obligations.StepKeepsCanonical := fun _ _ h e => (e ▸ h.step).canonical

end

section
/-! SUPPORT. Rules that the statements about instructions share: what a check answers, what ends an instruction, and what a
word decodes to. -/

namespace Sys2Proof.Machine

set_option Elab.async false

/-! Checks (R344): a check that holds hands on, one that fails is the outcome. -/

@[simp] theorem raiseIf_false (cls : TrapClass) (detail : Nat) (addr : Word64) : raiseIf false cls detail addr = .ok () := rfl
@[simp] theorem raiseIf_true (cls : TrapClass) (detail : Nat) (addr : Word64) :
    raiseIf true cls detail addr = .error (.trap { cls := cls, detail := detail, addr := addr }) := rfl
@[simp] theorem stallIf_false : stallIf false = .ok () := rfl
@[simp] theorem stallIf_true : stallIf true = .error .stall := rfl
@[simp] theorem ok_bind {ε α β : Type} (a : α) (f : α → Except ε β) : (Except.ok a >>= f) = f a := rfl
@[simp] theorem error_bind {ε α β : Type} (e : ε) (f : α → Except ε β) : (Except.error e >>= f) = .error e := rfl
@[simp] theorem finish_ok (s t : State) : finish s (.ok t) = .next t := rfl
@[simp] theorem finish_stall (s : State) : finish s (.error .stall) = .next s := rfl
@[simp] theorem finish_trap (s : State) (t : Trap) : finish s (.error (.trap t)) = .next (takeTrap s.cur t false s) := rfl
@[simp] theorem finishLane_ok (s t : State) : finishLane s (.ok t) = .next t := rfl
@[simp] theorem finishLane_stall (s : State) : finishLane s (.error .stall) = .next s := rfl
@[simp] theorem finishLane_trap (s : State) (t : Trap) : finishLane s (.error (.trap t)) = .next (takeTrap s.cur t true s) := rfl
@[simp] theorem finishEvent_ok (s t : State) : finishEvent s (.ok t) = .next t := rfl
@[simp] theorem finishEvent_error (s : State) (e : Stop) : finishEvent s (.error e) = .next s := rfl

theorem raiseIf_of {c : Bool} (h : c = true) (cls : TrapClass) (detail : Nat) (addr : Word64) :
    raiseIf c cls detail addr = .error (.trap { cls := cls, detail := detail, addr := addr }) := by rw [h, raiseIf_true]

theorem raiseIf_not {c : Bool} (h : c = false) (cls : TrapClass) (detail : Nat) (addr : Word64) : raiseIf c cls detail addr = .ok () := by
  rw [h, raiseIf_false]

/-- A check whose condition fails hands on. -/
theorem raiseIf_passes {β : Type} {c : Bool} {cls : TrapClass} {detail : Nat} {addr : Word64} {k : Unit → Except Stop β} (h : c = false) :
    (raiseIf c cls detail addr >>= k) = k () := by rw [h]; rfl

/-- A check whose condition holds is the outcome. -/
theorem raiseIf_stops {β : Type} {c : Bool} {cls : TrapClass} {detail : Nat} {addr : Word64} {k : Unit → Except Stop β} (h : c = true) :
    (raiseIf c cls detail addr >>= k) = .error (.trap { cls := cls, detail := detail, addr := addr }) := by rw [h]; rfl

theorem stallIf_passes {β : Type} {c : Bool} {k : Unit → Except Stop β} (h : c = false) : (stallIf c >>= k) = k () := by rw [h]; rfl

theorem stallIf_stops {β : Type} {c : Bool} {k : Unit → Except Stop β} (h : c = true) : (stallIf c >>= k) = .error .stall := by rw [h]; rfl

/-! The end of an instruction of a group that changes its group. -/

@[simp] theorem selfGroup_retire (s : State) : selfGroup (retire s) = selfGroup s := by simp [selfGroup, State.group]

@[simp] theorem selfGroup_goto (pc : Word64) (s : State) : selfGroup (goto pc s) = selfGroup s := by
  unfold goto
  simp [selfGroup, State.group, mapSelf]

@[simp] theorem selfGroup_advance (n : Nat) (s : State) : selfGroup (advance n s) = selfGroup s := by simp [advance]

@[simp] theorem self_mapSelfGroup (s : State) (f : Group → Group) : self (mapSelfGroup f s) = self s := rfl

/-- A change of the running group, then the instruction behind it: nothing of another stream or group changes, and no byte. -/
theorem groupStep_advance (n : Nat) (f : Group → Group) (s : State) : GroupStep s (advance n (mapSelfGroup f s)) := by
  have h := streamStep_advance n (mapSelfGroup f s)
  refine ⟨?_, fun a ha => ⟨h.others a ha, ?_⟩, h.blocks, h.bytes⟩
  · rw [h.rest]; rfl
  · have hg : (advance n (mapSelfGroup f s)).groups = (mapSelfGroup f s).groups := by rw [h.rest]
    simp only [State.group, hg]
    exact group_setGroup_other s _ ha

end Sys2Proof.Machine
end

section
/-! SUPPORT. O13: operand queues and lane segments. -/

open Sys2Proof.Claims

namespace Sys2Proof.Machine

set_option Elab.async false

theorem groupUserOnly_of {s : State} (h : UserGroup s) : groupUserOnly s = .ok () := by
  simp [groupUserOnly, h.1, h.2]

theorem groupUserOnly_of_not {s : State} (h : ¬UserGroup s) : groupUserOnly s = .error (.trap { cls := .illegal, detail := 0, addr := 0 }) := by
  refine raiseIf_of ?_ _ _ _
  simp only [UserGroup, not_and_or] at h
  rcases h with h | h <;> simp [h]

/-- The formats that a stream may have (R104). -/
theorem aaeTy_iff (t : Nat) : aaeTy t = true ↔ t ∈ [1, 3, 4, 5, 6, 7, 9, 10, 11, 13] ∨ (16 ≤ t ∧ t ≤ 31) := by
  simp [aaeTy]
  omega

/-- `QSET` stages the field that its number names, where the values are of the tables (R104). -/
theorem setField_of_staged {sel : Nat} {x y : Word64} {q q' : AaeDesc} (h : Staged sel x y q q') : setField sel x y q = .ok q' := by
  rcases h with ⟨rfl, hy, rfl⟩ | ⟨hlo, hhi, hy, rfl⟩ | ⟨rfl, hx, hy, rfl⟩ | ⟨rfl, hx, rfl⟩
  · exact raiseIf_passes (by simpa using (aaeTy_iff _).mpr hy)
  · have hd : decide (2 ^ 32 ≤ y.toNat) = false := by simpa using hy
    interval_cases sel
    all_goals exact raiseIf_passes hd
  · exact raiseIf_passes (by simpa using ⟨hx, hy⟩)
  · exact raiseIf_passes (by simpa using hx)

/-- A value outside the tables is ILLEGAL (R104). -/
theorem setField_of_notStaged {sel : Nat} {x y : Word64} {q : AaeDesc} (hsel : sel < 7) (h : ∀ q', ¬Staged sel x y q q') :
    setField sel x y q = .error (.trap { cls := .illegal, detail := 0, addr := 0 }) := by
  have dims (hlo : 1 ≤ sel) (hhi : sel ≤ 4) : decide (2 ^ 32 ≤ y.toNat) = true := by
    by_contra hy
    exact h _ (.inr (.inl ⟨hlo, hhi, by simpa using hy, rfl⟩))
  interval_cases sel
  · refine raiseIf_stops ?_
    by_contra hy
    exact h _ (.inl ⟨rfl, (aaeTy_iff _).mp (by simpa using hy), rfl⟩)
  · exact raiseIf_stops (dims (by omega) (by omega))
  · exact raiseIf_stops (dims (by omega) (by omega))
  · exact raiseIf_stops (dims (by omega) (by omega))
  · exact raiseIf_stops (dims (by omega) (by omega))
  · refine raiseIf_stops ?_
    by_contra hxy
    obtain ⟨hx, hy⟩ : x.toNat < 2 ^ 32 ∧ y.toNat < 4 := by simpa using hxy
    exact h _ (.inr (.inr (.inl ⟨rfl, hx, hy, rfl⟩)))
  · refine raiseIf_stops ?_
    by_contra hx
    exact h _ (.inr (.inr (.inr ⟨rfl, by simpa using hx, rfl⟩)))

theorem startStream_of {x : AaeStream} {q q' : Queue} (h : Started x q q') : startStream x q = .ok q' := by
  unfold startStream
  rcases h with ⟨hr, rfl⟩ | ⟨hr, hp, rfl⟩
  · rw [hr]
  · obtain ⟨y, hy⟩ := Option.isSome_iff_exists.mp hr
    rw [hy, hp]

/-- No stream starts while both of the queue's places are taken. -/
theorem startStream_of_both {x : AaeStream} {q : Queue} (hr : q.running.isSome) (hp : q.pending.isSome) :
    startStream x q = .error .stall := by
  obtain ⟨y, hy⟩ := Option.isSome_iff_exists.mp hr
  obtain ⟨z, hz⟩ := Option.isSome_iff_exists.mp hp
  simp [startStream, hy, hz]

/-- A stream starts only where one of the queue's two places is free. -/
theorem started_notBoth {x : AaeStream} {q q' : Queue} (h : Started x q q') : (q.running.isSome && q.pending.isSome) = false := by
  rcases h with ⟨hr, -⟩ | ⟨-, hp, -⟩
  · simp [hr]
  · simp [hp]

theorem queueStep_advance (s : State) (n len : Nat) (f : Queue → Queue) :
    QueueStep n (f (Vec.get (selfGroup s).queues n)) len s (advance len (mapSelfGroup (mapQueue n f) s)) :=
  ⟨groupStep_advance _ _ _, by simp, by simp [mapQueue]⟩

section
variable {s : State} {d a : SReg} {n fld : BitVec 3}

/-- Outside a group in user mode the queue instructions are ILLEGAL (R345). -/
theorem traps_qset_of_not (h : ¬UserGroup s) : Traps (.qset d a n fld) s .illegal 0 0 := by
  change finish s (groupUserOnly s >>= _) = _
  rw [groupUserOnly_of_not h]
  rfl

theorem traps_qgo_of_not (h : ¬UserGroup s) : Traps (.qgo a n) s .illegal 0 0 := by
  change finish s (groupUserOnly s >>= _) = _
  rw [groupUserOnly_of_not h]
  rfl

theorem traps_lrun_of_not {off : BitVec 26} (h : ¬UserGroup s) : Traps (.lrun off) s .illegal 0 0 := by
  change finish s (groupUserOnly s >>= _) = _
  rw [groupUserOnly_of_not h]
  rfl

/-- `QSET` in a group in user mode. -/
theorem exec_qset (hu : UserGroup s) : exec (.qset d a n fld) s =
    finish s (setField fld.toNat (reg s a) (reg s d) (Vec.get (selfGroup s).queues n.toNat).staged >>= fun q' =>
      .ok (advance 4 (mapSelfGroup (mapQueue n.toNat fun q => { q with staged := q' }) s))) := by
  change finish s (groupUserOnly s >>= _) = _
  rw [groupUserOnly_of hu]
  rfl

theorem exec_qset_staged (hu : UserGroup s) {q' : AaeDesc}
    (h : Staged fld.toNat (reg s a) (reg s d) (Vec.get (selfGroup s).queues n.toNat).staged q') :
    ∃ t, exec (.qset d a n fld) s = .next t ∧ QueueStep n.toNat { Vec.get (selfGroup s).queues n.toNat with staged := q' } 4 s t := by
  refine ⟨_, ?_, queueStep_advance s _ 4 fun q => { q with staged := q' }⟩
  rw [exec_qset hu, setField_of_staged h]
  rfl

theorem traps_qset_notStaged (hu : UserGroup s) (hf : fld ≠ 7)
    (h : ∀ q', ¬Staged fld.toNat (reg s a) (reg s d) (Vec.get (selfGroup s).queues n.toNat).staged q') : Traps (.qset d a n fld) s .illegal 0 0 := by
  have hsel : fld.toNat < 7 := by
    have := fld.isLt
    have : fld.toNat ≠ 7 := fun e => hf (BitVec.eq_of_toNat_eq e)
    omega
  rw [Traps, exec_qset hu, setField_of_notStaged hsel h]
  rfl

/-- The checks of `QGO` in a group in user mode (R106): a staged base, a number of passes of 32 bits. -/
theorem traps_qgo_unstaged (hu : UserGroup s) (h : (Vec.get (selfGroup s).queues n.toNat).staged.base = none ∨ 2 ^ 32 ≤ (reg s a).toNat) :
    Traps (.qgo a n) s .illegal n.toNat 0 := by
  change execQgo a n s = _
  unfold execQgo
  rw [groupUserOnly_of hu, ok_bind]
  by_cases hb : (Vec.get (selfGroup s).queues n.toNat).staged.base = none
  · rw [raiseIf_stops (by simpa using hb)]
    rfl
  · rw [raiseIf_passes (by simpa using Option.isSome_iff_ne_none.mpr hb), raiseIf_stops (by simpa [hb] using h)]
    rfl

/-- What `QGO` does once its checks have passed. -/
theorem exec_qgo (hu : UserGroup s) (hb : (Vec.get (selfGroup s).queues n.toNat).staged.base.isSome) (hp : (reg s a).toNat < 2 ^ 32) :
    exec (.qgo a n) s = finish s (
      let q := Vec.get (selfGroup s).queues n.toNat
      let p := (reg s a).toNat
      if p = 0 then .ok (advance 4 (mapSelfGroup (mapQueue n.toNat fun q => { q with running := none, pending := none, entries := sound q.entries }) s))
      else if q.staged.handle = 0 then
        startStream ⟨q.staged, p, 0, 0, none, 0, none⟩ q >>= fun q' => .ok (advance 4 (mapSelfGroup (mapQueue n.toNat fun _ => q') s))
      else stallIf (q.running.isSome && q.pending.isSome) >>= fun _ => snapshot (selfCtx s) q.staged.handle.toNat s >>= fun r =>
        streamOrigin (selfCtx r.2) r.2 q.staged r.1 >>= fun o => startStream ⟨q.staged, p, 0, 0, some r.1, o, none⟩ q >>= fun q' =>
          .ok (advance 4 (mapSelfGroup (mapQueue n.toNat fun _ => q') r.2))) := by
  change execQgo a n s = _
  unfold execQgo
  rw [groupUserOnly_of hu, ok_bind, raiseIf_passes (by simpa using hb), raiseIf_passes (by simpa using hp)]
  rfl

theorem exec_qgo_end (hu : UserGroup s) (hb : (Vec.get (selfGroup s).queues n.toNat).staged.base.isSome) (hp : (reg s a).toNat = 0) :
    ∃ t, exec (.qgo a n) s = .next t ∧
      QueueStep n.toNat { Vec.get (selfGroup s).queues n.toNat with
        running := none, pending := none, entries := sound (Vec.get (selfGroup s).queues n.toNat).entries } 4 s t := by
  refine ⟨_, ?_, queueStep_advance s _ 4 fun q => { q with running := none, pending := none, entries := sound q.entries }⟩
  rw [exec_qgo hu hb (by omega)]
  simp only [hp, if_true, finish_ok]

section
variable (hu : UserGroup s) (hb : (Vec.get (selfGroup s).queues n.toNat).staged.base.isSome) (h0 : 0 < (reg s a).toNat)
  (hp : (reg s a).toNat < 2 ^ 32)
include hu hb h0 hp

theorem exec_qgo_plain {q' : Queue} (hh : (Vec.get (selfGroup s).queues n.toNat).staged.handle = 0)
    (hq : Started ⟨(Vec.get (selfGroup s).queues n.toNat).staged, (reg s a).toNat, 0, 0, none, 0, none⟩ (Vec.get (selfGroup s).queues n.toNat) q') :
    ∃ t, exec (.qgo a n) s = .next t ∧ QueueStep n.toNat q' 4 s t := by
  refine ⟨_, ?_, queueStep_advance s _ 4 fun _ => q'⟩
  rw [exec_qgo hu hb hp]
  simp only [if_neg h0.ne', if_pos hh, startStream_of hq, ok_bind, finish_ok]

theorem exec_qgo_full (hr : (Vec.get (selfGroup s).queues n.toNat).running.isSome) (hq : (Vec.get (selfGroup s).queues n.toNat).pending.isSome) :
    exec (.qgo a n) s = .next s := by
  rw [exec_qgo hu hb hp]
  dsimp only
  rw [if_neg h0.ne']
  split
  · rw [startStream_of_both hr hq]
    rfl
  · rw [stallIf_stops (by simp [hr, hq])]
    rfl

theorem exec_qgo_ragged {r : Ragged} {s1 : State} {o : Int} {q' : Queue} (hh : (Vec.get (selfGroup s).queues n.toNat).staged.handle ≠ 0)
    (hs : snapshot (selfCtx s) (Vec.get (selfGroup s).queues n.toNat).staged.handle.toNat s = .ok (r, s1))
    (ho : streamOrigin (selfCtx s1) s1 (Vec.get (selfGroup s).queues n.toNat).staged r = .ok o)
    (hq : Started ⟨(Vec.get (selfGroup s).queues n.toNat).staged, (reg s a).toNat, 0, 0, some r, o, none⟩ (Vec.get (selfGroup s).queues n.toNat) q') :
    ∃ t, exec (.qgo a n) s = .next t ∧ QueueStep n.toNat q' 4 s1 t := by
  refine ⟨_, ?_, queueStep_advance s1 _ 4 fun _ => q'⟩
  rw [exec_qgo hu hb hp]
  simp only [if_neg h0.ne', if_neg hh, stallIf_passes (started_notBoth hq), hs, ho, startStream_of hq, ok_bind, finish_ok]

end

/-- The segment that `LRUN` queues: the kernel's local code at the offset, and the running stream's S48 to S63 (R110). -/
def lrunSegment (f : Form) (s : State) : Segment where
  start := (s.launch (s.block (selfGroup s).block).launch).lcode + 12 * f.zimm
  frame := Vec.make 16 fun j => (readS (self s) (BitVec.ofNat 6 (48 + j))).setWidth 32

theorem exec_lrunForm {i : Instr} {f : Form} (hu : UserGroup s) (hi : exec i s = lrunForm f s) : exec i s =
    finish s (stallIf (decide (4 ≤ (selfGroup s).segq.length)) >>= fun _ =>
      .ok (advance f.len (mapSelfGroup (fun g => { g with segq := g.segq ++ [lrunSegment f s] }) s))) := by
  rw [hi]
  unfold lrunForm
  rw [groupUserOnly_of hu]
  rfl

/-- `LRUN`, plain or extended: the segment at the end of the queue, or a stall on a full one (R110). -/
theorem queuesSegment_of {i : Instr} {f : Form} (hu : UserGroup s) (hi : exec i s = lrunForm f s) : QueuesSegment i f.zimm f.len s := by
  constructor
  · intro hl
    refine ⟨_, ?_, groupStep_advance f.len (fun g => { g with segq := g.segq ++ [lrunSegment f s] }) s, ?_, ?_⟩
    · rw [exec_lrunForm hu hi, stallIf_passes (by simpa using hl)]
      rfl
    · rw [self_advance]
      rfl
    · rw [selfGroup_advance, selfGroup_mapSelfGroup]
      rfl
  · intro hl
    rw [exec_lrunForm hu hi, stallIf_stops (by simpa using hl)]
    rfl

/-- The word of `LRUN`, whatever follows it, decodes to it. -/
theorem decode_lrun (off : BitVec 26) (w1 : BitVec 32) : decode (.scalar (encJ 0x2E off) w1) = .ok (.lrun off) := by
  unfold decode parseScalar
  simp only [fOp_encJ, fOff26_encJ]
  rfl

theorem exec_ext_lrun (hi : BitVec 26) (off : BitVec 26) : exec (.ext hi ((0x2E : BitVec 6) ++ off)) s = lrunForm (extForm hi off s) s := by
  change execExt hi ((0x2E : BitVec 6) ++ off) s = _
  unfold execExt
  rw [show decode (.scalar ((0x2E : BitVec 6) ++ off) 0) = .ok (.lrun off) from decode_lrun off 0]

end

/-- A segment begins in its group alone, with one split of every lane (R111). -/
theorem exec_segmentBegin {s : State} {ag : Agent} {seg : Segment} {rest : List Segment} (hg : isGroup ag = true) (hm : sysMode s ag = false)
    (hq : (s.group ag).segq = seg :: rest) (hs : (s.group ag).inSeg = false) :
    ∃ t, exec (.segmentBegin ag) s = .next t ∧ LaneStreamStep ag s t ∧
      t.group ag = { s.group ag with
        inSeg := true, frame := seg.frame, live := 0xFFFFFFFF, parked := [], rep := none
        splits := Vec.set (Vector.replicate 4 none) 0 (some (firstSplit (seg.start - (s.launch (s.block (s.group ag).block).launch).lcode))) } := by
  refine ⟨mapGroup ag (fun g => { g with
    inSeg := true, frame := seg.frame, live := 0xFFFFFFFF, parked := [], rep := none
    splits := Vec.set (Vector.replicate 4 none) 0 (some (firstSplit (seg.start - (s.launch (s.block (s.group ag).block).launch).lcode))) }) s,
    ?_, ⟨rfl, fun a ha => group_setGroup_other s _ ha⟩, group_setGroup_self s ag _⟩
  change execSegmentBegin ag s = _
  unfold execSegmentBegin
  simp only [hq, hg, hm, hs]
  rfl

end Sys2Proof.Machine

open Sys2Proof.Machine Sys2Proof.Claims

/-- Settles O13, case by case of what the checks of each instruction answer. -/
theorem queuesAndSegmentsStart : Obligations.QueuesAndSegmentsStart := by
  refine ⟨fun s d a n fld => ⟨fun hu => ⟨traps_qset_of_not hu, traps_qgo_of_not hu⟩, fun hu hf => ⟨fun _ => exec_qset_staged hu, traps_qset_notStaged hu hf⟩,
    fun hu => ⟨traps_qgo_unstaged hu, exec_qgo_end hu, fun hb h0 hp hh _ => exec_qgo_plain hu hb h0 hp hh, fun hb h0 hp => exec_qgo_full hu hb h0 hp,
      fun hb h0 hp hh _ _ _ _ => exec_qgo_ragged hu hb h0 hp hh⟩, fun _ => rfl, fun _ => rfl⟩,
    fun s off hi hu => ⟨queuesSegment_of (f := plainForm off s) hu rfl,
      queuesSegment_of (f := extForm hi off s) hu (exec_ext_lrun hi off)⟩, fun s off => traps_lrun_of_not,
    fun s ag seg rest => exec_segmentBegin, fun _ => rfl⟩

end

section
/-! SUPPORT. O38: the sources of a lane word, and FP32 widened to FP64. -/

open Sys2Proof.Claims

namespace Sys2Proof.Machine

set_option Elab.async false

/-! An FP32 immediate widened to FP64 (R68): every finite FP32 number is an FP64 number. -/

/-- The finite numbers of FP32: at most 24 bits above 2^-149, and below 2^128. -/
structure IsFp32 (m : Nat) (e : Int) : Prop where
  bits : m < 2 ^ 24
  low : -149 ≤ e
  high : e ≤ 104

theorem fmt32_decode_cases (b : Nat) :
    fmt32.decode b = .nan ∨ fmt32.decode b = .inf (b / 2 ^ 31 % 2 == 1) ∨
      ∃ m e, IsFp32 m e ∧ fmt32.decode b = .fin (b / 2 ^ 31 % 2 == 1) m e := by
  by_cases hmax : b / 8388608 % 256 = 255
  · by_cases hz : b % 8388608 = 0
    · exact .inr (.inl (by simp [Fmt.decode, fmt32, hmax, hz]))
    · exact .inl (by simp [Fmt.decode, fmt32, hmax, hz])
  · refine .inr (.inr ?_)
    by_cases hz : b / 8388608 % 256 = 0
    · exact ⟨b % 8388608, -149, ⟨by omega, by omega, by omega⟩, by simp [Fmt.decode, fmt32, hz]⟩
    · exact ⟨8388608 + b % 8388608, (b / 8388608 % 256 : Nat) - 127 - 23, ⟨by omega, by omega, by omega⟩, by simp [Fmt.decode, fmt32, hz, hmax]⟩

/-- The FP64 code of a finite FP32 number other than zero: its significand shifted to 53 bits, at the exponent of its leading bit. -/
def code64 (neg : Bool) (m : Nat) (e : Int) : Nat :=
  (e + Nat.log2 m + 1022).toNat * 2 ^ 52 + m * 2 ^ (52 - Nat.log2 m) + if neg then 2 ^ 63 else 0

/-- The shifted significand has exactly 53 bits. -/
theorem significand64 {m : Nat} (h0 : m ≠ 0) (h : m < 2 ^ 24) :
    Nat.log2 m < 24 ∧ 2 ^ 52 ≤ m * 2 ^ (52 - Nat.log2 m) ∧ m * 2 ^ (52 - Nat.log2 m) < 2 ^ 53 := by
  have hlog : Nat.log2 m < 24 := (Nat.log2_lt h0).mpr h
  refine ⟨hlog, ?_, ?_⟩
  · calc 2 ^ 52 = 2 ^ Nat.log2 m * 2 ^ (52 - Nat.log2 m) := by rw [← Nat.pow_add]; congr 1; omega
      _ ≤ m * 2 ^ (52 - Nat.log2 m) := Nat.mul_le_mul_right _ (Nat.log2_self_le h0)
  · calc m * 2 ^ (52 - Nat.log2 m) < 2 ^ (Nat.log2 m + 1) * 2 ^ (52 - Nat.log2 m) := by
          exact Nat.mul_lt_mul_of_pos_right Nat.lt_log2_self (by positivity)
      _ = 2 ^ 53 := by rw [← Nat.pow_add]; congr 1; omega

theorem fmt64_round_zero (neg : Bool) (e : Int) : fmt64.round rneMode (.fin neg 0 e) = if neg then 2 ^ 63 else 0 := by
  cases neg <;> rfl

theorem fmt64_round_inf (neg : Bool) : fmt64.round rneMode (.inf neg) = 2047 * 2 ^ 52 + if neg then 2 ^ 63 else 0 := by
  cases neg <;> rfl

theorem fmt64_round_fin {neg : Bool} {m : Nat} {e : Int} (h : IsFp32 m e) (h0 : m ≠ 0) : fmt64.round rneMode (.fin neg m e) = code64 neg m e := by
  obtain ⟨hlog, hlo, hhi⟩ := significand64 h0 h.bits
  obtain ⟨-, hel, heh⟩ := h
  have hq : fmt64.gridExp m e = e + Nat.log2 m - 52 := by
    simp [Fmt.gridExp, fmt64]
    omega
  have hg : gridSplit m e (e + Nat.log2 m - 52) = (m * 2 ^ (52 - Nat.log2 m), 0, 0) := by
    rw [gridSplit, if_pos (by omega), show (e - (e + Nat.log2 m - 52)).toNat = 52 - Nat.log2 m by omega]
  have hc : fmt64.gridCode (m * 2 ^ (52 - Nat.log2 m)) (e + Nat.log2 m - 52) = (code64 false m e : Nat) := by
    simp [Fmt.gridCode, fmt64, code64]
    omega
  have hmax : ¬((fmt64.maxCode : Nat) : Int) < (code64 false m e : Nat) := by
    obtain ⟨g, hg⟩ : ∃ g, g = m * 2 ^ (52 - Nat.log2 m) := ⟨_, rfl⟩
    simp only [code64, ← hg, show fmt64.maxCode = 2047 * 2 ^ 52 - 1 from rfl] at hhi ⊢
    simp
    omega
  have hsgn : fmt64.signed neg (code64 false m e) = code64 neg m e := by cases neg <;> simp [Fmt.signed, code64, fmt64]
  simp only [Fmt.round, if_neg h0, hq, hg, hc]
  rw [if_neg (by simp [fmt64])]
  simp [rneMode, Rnd.up, hmax, hsgn]
  simp [fmt64]

theorem fmt64_decode_code64 {neg : Bool} {m : Nat} {e : Int} (h : IsFp32 m e) (h0 : m ≠ 0) :
    fmt64.decode (code64 neg m e) = .fin neg (m * 2 ^ (52 - Nat.log2 m)) (e + Nat.log2 m - 52) := by
  obtain ⟨hlog, hlo, hhi⟩ := significand64 h0 h.bits
  obtain ⟨-, hel, heh⟩ := h
  obtain ⟨x, hx⟩ : ∃ x, x = (e + Nat.log2 m + 1022).toNat := ⟨_, rfl⟩
  obtain ⟨g, hg⟩ : ∃ g, g = m * 2 ^ (52 - Nat.log2 m) := ⟨_, rfl⟩
  have hc : code64 neg m e = x * 4503599627370496 + g + if neg then 9223372036854775808 else 0 := by rw [code64, ← hx, ← hg]; norm_num
  rw [← hg] at hlo hhi ⊢
  have hexp : code64 neg m e / 4503599627370496 % 2048 = x + 1 := by rw [hc]; split <;> omega
  have hman : 4503599627370496 + code64 neg m e % 4503599627370496 = g := by rw [hc]; split <;> omega
  have hsgn : (code64 neg m e / 9223372036854775808 % 2 == 1) = neg := by rw [hc]; cases neg <;> simp <;> omega
  have hmax : x + 1 ≠ 2047 := by omega
  simp [Fmt.decode, fmt64, hexp, hman, hsgn, hmax]
  omega

/-- Equal numbers at different exponents. -/
theorem Num.eq_shifted (neg : Bool) (m : Nat) (e : Int) (k : Nat) : (Num.fin neg (m * 2 ^ k) (e - k)).eq (.fin neg m e) = true := by
  have h : Num.scaled neg (m * 2 ^ k) (e - k) (e - k) = Num.scaled neg m e (e - k) := by simp [Num.scaled]
  simp [Num.eq, Num.isNan, Num.lt, h]

/-- The top bit of an FP64 code is the sign that it was rounded with. -/
theorem code64_sign {neg : Bool} {m : Nat} {e : Int} (h : IsFp32 m e) (h0 : m ≠ 0) : code64 neg m e / 2 ^ 63 = if neg then 1 else 0 := by
  obtain ⟨hlog, hlo, hhi⟩ := significand64 h0 h.bits
  obtain ⟨-, hel, heh⟩ := h
  obtain ⟨g, hg⟩ : ∃ g, g = m * 2 ^ (52 - Nat.log2 m) := ⟨_, rfl⟩
  rw [code64, ← hg]
  rw [← hg] at hhi
  cases neg <;> simp <;> omega

/-- Widening keeps a number and its sign (R68). -/
theorem fmt64_round_fmt32 {b : Nat} (hn : (fmt32.decode b).isNan = false) :
    (fmt64.decode (fmt64.round rneMode (fmt32.decode b))).eq (fmt32.decode b) = true ∧
      fmt64.round rneMode (fmt32.decode b) / 2 ^ 63 = b / 2 ^ 31 % 2 := by
  have hsgn : (if (b / 2 ^ 31 % 2 == 1) = true then 1 else 0) = b / 2 ^ 31 % 2 := by
    rcases Nat.mod_two_eq_zero_or_one (b / 2 ^ 31) with h | h <;> rw [h] <;> rfl
  rw [← hsgn]
  rcases fmt32_decode_cases b with h | h | ⟨m, e, hf, h⟩ <;> rw [h] at hn ⊢ <;> generalize (b / 2 ^ 31 % 2 == 1) = neg
  · exact absurd hn (by simp [Num.isNan])
  · rw [fmt64_round_inf]
    cases neg <;> decide
  · by_cases h0 : m = 0
    · subst h0
      rw [fmt64_round_zero]
      refine ⟨?_, by cases neg <;> rfl⟩
      have hd : fmt64.decode (if neg then 2 ^ 63 else 0) = .fin neg 0 (-1074) := by cases neg <;> rfl
      rw [hd]
      simp [Num.eq, Num.isNan, Num.lt, Num.scaled]
    · rw [fmt64_round_fin hf h0, fmt64_decode_code64 hf h0]
      have hlog := (significand64 h0 hf.bits).1
      refine ⟨?_, code64_sign hf h0⟩
      have he : e + Nat.log2 m - 52 = e - ((52 - Nat.log2 m : Nat) : Int) := by omega
      rw [he]
      exact Num.eq_shifted neg m e _

theorem widenF64_of_number {x : Word32} (hn : ¬(fmt32.decode x.toNat).isNan) : widenF64 x = fmt64.round rneMode (fmt32.decode x.toNat) := by
  unfold widenF64
  dsimp only
  split
  · next h => exact absurd (by rw [h]; rfl) hn
  · rfl

/-- The number of two joined words. -/
theorem toNat_append_eq {n m : Nat} (x : BitVec n) (y : BitVec m) : (x ++ y).toNat = x.toNat * 2 ^ m + y.toNat := by
  rw [BitVec.toNat_append, ← Nat.shiftLeft_add_eq_or_of_lt y.isLt, Nat.shiftLeft_eq]

/-- A NaN keeps its sign and its fraction (R68). -/
theorem widenF64_of_nan {x : Word32} (hn : (fmt32.decode x.toNat).isNan) :
    widenF64 x = (x.extractLsb' 31 1 ++ (0x7FF : BitVec 11) ++ x.extractLsb' 0 23 ++ (0 : BitVec 29)).toNat := by
  have hx := x.isLt
  have hd : fmt32.decode x.toNat = .nan := by
    generalize fmt32.decode x.toNat = y at hn
    cases y <;> simp_all [Num.isNan]
  simp only [widenF64, hd, toNat_append_eq, BitVec.extractLsb'_toNat, Nat.shiftRight_eq_div_pow, show (0x7FF : BitVec 11).toNat = 0x7FF from rfl,
    show (0 : BitVec 29).toNat = 0 from rfl]
  omega

/-! The sources (R17, R68, R123). -/

/-- A type that reads `n` bits reads them of its registers. -/
theorem readBits_of_typeBits {slots : Vector Word32 16} {t n : Nat} (h : typeBits slots t = some n) : readBits slots t = n := by
  unfold typeBits at h
  unfold readBits
  by_cases h13 : t < 13
  · rw [if_pos h13, Option.some.injEq] at h
    subst h
    interval_cases t <;> rfl
  · rw [if_neg h13] at h
    by_cases h16 : t < 16
    · simp [h16] at h
    · rw [if_neg h16, Option.map_eq_some_iff] at h
      obtain ⟨f, hf, rfl⟩ := h
      rw [if_pos (by omega), hf]

section
variable {e : LaneEnv} {slots : Vector Word32 16} {t n : Nat} {imm : Word32} {sel : BitVec 9} {g : Group}

/-- A selector that is no immediate, lane index or split id reads one register, or a pair for 64 bits. -/
theorem readSel_of_lt (h : sel.toNat < 0x120) : readSel e slots t imm sel g =
    if readBits slots t = 64 then read32 e imm sel g >>= fun r => read32 e imm (sel + 1) r.2 >>= fun r' =>
      .ok (r.1.zipWith (fun a b => a.toNat + 2 ^ 32 * b.toNat) r'.1, r'.2)
    else read32 e imm sel g >>= fun r => .ok (r.1.map (fun x => x.toNat % 2 ^ readBits slots t), r.2) := by
  unfold readSel
  dsimp only
  rw [if_neg (by omega), if_neg (by omega), if_neg (by omega)]

theorem readSel_narrow (hr : readBits slots t = n) (hn : n ≠ 64) (h : sel.toNat < 0x120) {v : List Word32} {g' : Group}
    (hv : read32 e imm sel g = .ok (v, g')) : readSel e slots t imm sel g = .ok (v.map (fun x => x.toNat % 2 ^ n), g') := by
  rw [readSel_of_lt h, hr, if_neg hn, hv]
  rfl

theorem readSel_narrow_error (hr : readBits slots t = n) (hn : n ≠ 64) (h : sel.toNat < 0x120) {x : Stop}
    (hv : read32 e imm sel g = .error x) : readSel e slots t imm sel g = .error x := by
  rw [readSel_of_lt h, hr, if_neg hn, hv]
  rfl

theorem readSel_wide (hr : readBits slots t = n) (hn : n = 64) (h : sel.toNat < 0x120) {lo hi : List Word32}
    (hlo : read32 e imm sel g = .ok (lo, g)) (hhi : read32 e imm (sel + 1) g = .ok (hi, g)) :
    readSel e slots t imm sel g = .ok (lo.zipWith (fun a b => a.toNat + 2 ^ 32 * b.toNat) hi, g) := by
  rw [readSel_of_lt h, hr, if_pos hn, hlo, ok_bind, hhi]
  rfl

/-- The number of the second register of a pair. -/
theorem toNat_next (h : sel.toNat < 511) : (sel + 1).toNat = sel.toNat + 1 := by
  rw [BitVec.toNat_add]
  exact Nat.mod_eq_of_lt (Nat.succ_lt_succ h)

/-! What a selector reads of 32-bit registers. -/

theorem read32_register (h : sel.toNat < 0x100) : read32 e imm sel g = .ok ((Vec.get g.v sel.toNat).toList, g) := if_pos h

theorem read32_frame (hlo : 0x100 ≤ sel.toNat) (hhi : sel.toNat < 0x110) :
    read32 e imm sel g = .ok (List.replicate 32 (Vec.get g.frame (sel.toNat - 0x100)), g) := by
  unfold read32
  dsimp only
  rw [if_neg (by omega), if_pos hhi]

theorem read32_pop (hlo : 0x110 ≤ sel.toNat) (hhi : sel.toNat < 0x118) :
    read32 e imm sel g = takeQueue true (sel.toNat - 0x110) g >>= fun r => .ok (r.1.toList, r.2) := by
  unfold read32
  dsimp only
  rw [if_neg (by omega), if_neg (by omega), if_pos hhi]

theorem read32_peek (hlo : 0x118 ≤ sel.toNat) (hhi : sel.toNat < 0x120) :
    read32 e imm sel g = takeQueue false (sel.toNat - 0x118) g >>= fun r => .ok (r.1.toList, r.2) := by
  unfold read32
  dsimp only
  rw [if_neg (by omega), if_neg (by omega), if_neg (by omega), if_pos hhi]

/-! What is taken from a queue (R109). -/

theorem takeQueue_words {k : Nat} {x : LaneVec} {r : List QEntry} (pop : Bool) (h : (Vec.get g.queues k).entries = .words x :: r) :
    takeQueue pop k g = .ok (x, if pop then { g with queues := Vec.set g.queues k { Vec.get g.queues k with entries := r } } else g) := by
  unfold takeQueue
  simp only [h]
  rfl

theorem takeQueue_poison {k : Nat} {c : TrapClass} {d : Nat} {a : Word64} {r : List QEntry} (pop : Bool)
    (h : (Vec.get g.queues k).entries = .poison c d a :: r) :
    takeQueue pop k g = .error (.trap { cls := c, detail := d, addr := a, pq := some k }) := by
  unfold takeQueue
  simp only [h]

theorem takeQueue_noStream {k : Nat} (pop : Bool) (h : (Vec.get g.queues k).entries = []) (hr : (Vec.get g.queues k).running = none)
    (hp : (Vec.get g.queues k).pending = none) : takeQueue pop k g = .error (.trap { cls := .sync, detail := 2 }) := by
  unfold takeQueue
  simp only [h, hr, hp]
  rfl

theorem takeQueue_empty {k : Nat} (pop : Bool) (h : (Vec.get g.queues k).entries = [])
    (hs : (Vec.get g.queues k).running ≠ none ∨ (Vec.get g.queues k).pending ≠ none) : takeQueue pop k g = .error .stall := by
  unfold takeQueue
  simp only [h]
  rw [if_neg]
  simpa [imp_iff_not_or] using hs

/-! The lanes of what a selector reads. -/

theorem lanes_toList (x : LaneVec) (n l : Nat) (h : l < 32) :
    (x.toList.map (fun y => y.toNat % 2 ^ n))[l]? = some ((Vec.get x l).toNat % 2 ^ n) := by
  simp [Vec.get, h]

theorem lanes_replicate {α : Type} (a : α) (l : Nat) (h : l < 32) : (List.replicate 32 a)[l]? = some a := by
  rw [List.getElem?_replicate, if_pos h]

theorem lanes_pair (x y : LaneVec) (l : Nat) (h : l < 32) :
    (x.toList.zipWith (fun a b => a.toNat + 2 ^ 32 * b.toNat) y.toList)[l]? = some (Vec.get y l ++ Vec.get x l).toNat := by
  rw [toNat_append_eq]
  simp [Vec.get, h]
  ring

/-- What the selectors of a queue read (R17, R109): `take` is what is taken of the queue, narrowed to the type's bits. -/
theorem readSel_queue (hr : readBits slots t = n) (hn : n ≠ 64) (h : sel.toNat < 0x120) {k : Nat} {pop : Bool}
    (hv : read32 e imm sel g = takeQueue pop k g >>= fun r => .ok (r.1.toList, r.2)) :
    (∀ x r, (Vec.get g.queues k).entries = .words x :: r → ∃ vs, (∀ l, l < 32 → vs[l]? = some ((Vec.get x l).toNat % 2 ^ n)) ∧
      readSel e slots t imm sel g = .ok (vs, if pop then { g with queues := Vec.set g.queues k { Vec.get g.queues k with entries := r } } else g)) ∧
    (∀ c d a r, (Vec.get g.queues k).entries = .poison c d a :: r →
      readSel e slots t imm sel g = .error (.trap { cls := c, detail := d, addr := a, pq := some k })) ∧
    ((Vec.get g.queues k).entries = [] → (Vec.get g.queues k).running = none → (Vec.get g.queues k).pending = none →
      readSel e slots t imm sel g = .error (.trap { cls := .sync, detail := 2 })) ∧
    ((Vec.get g.queues k).entries = [] → ((Vec.get g.queues k).running ≠ none ∨ (Vec.get g.queues k).pending ≠ none) →
      readSel e slots t imm sel g = .error .stall) := by
  refine ⟨fun x r hq => ⟨_, lanes_toList x n, readSel_narrow hr hn h ?_⟩, fun c d a r hq => readSel_narrow_error hr hn h ?_,
    fun hq hr' hp => readSel_narrow_error hr hn h ?_, fun hq hs => readSel_narrow_error hr hn h ?_⟩
  · rw [hv, takeQueue_words pop hq]
    rfl
  · rw [hv, takeQueue_poison pop hq]
    rfl
  · rw [hv, takeQueue_noStream pop hq hr' hp]
    rfl
  · rw [hv, takeQueue_empty pop hq hs]
    rfl

/-! The immediate, the lane index and the split id. -/

theorem readSel_imm : readSel e slots t imm 0x120 g = .ok (List.replicate 32 (immValue t imm), g) := rfl

theorem readSel_lane : readSel e slots t imm 0x121 g = .ok ((List.range 32).map (indexValue t), g) := rfl

theorem readSel_split : readSel e slots t imm 0x122 g = .ok (List.replicate 32 (indexValue t e.id), g) := rfl

theorem lanes_range (f : Nat → Nat) (l : Nat) (h : l < 32) : ((List.range 32).map f)[l]? = some (f l) := by simp [h]

theorem indexValue_eq (t l : Nat) : indexValue t l = if t ∈ [0, 1, 3, 4] then (stdFmt t).round rneMode (.fin false l 0) else l := by
  have hl : decide ((l : Int) < 0) = false := by simp
  simp [indexValue, tyIsFloat, Num.ofInt, hl, or_assoc]

/-- An immediate of 64 bits is sign-extended (R68). -/
theorem wrapNat_sextInt (x : Word32) : wrapNat 64 (sextInt x.toNat 32) = (x.signExtend 64).toNat := by
  have hx := x.isLt
  have hm : x.msb = decide (2147483648 ≤ x.toNat) := BitVec.msb_eq_decide x
  rw [BitVec.toNat_signExtend, hm]
  by_cases h : 2147483648 ≤ x.toNat <;> simp [wrapNat, sextInt, h] <;> omega

/-- An immediate that keeps its low bits. -/
theorem immValue_low (hr : readBits slots t = n) (ht : t ∈ [1, 5, 6, 7, 9, 10, 11, 12]) : immValue t imm = imm.toNat % 2 ^ n := by
  have hi := imm.isLt
  subst hr
  fin_cases ht <;> simp [immValue, readBits] <;> omega

end

end Sys2Proof.Machine

open Sys2Proof.Machine Sys2Proof.Claims

/-- Settles O38, selector by selector. -/
theorem laneOperandsAreRead : Obligations.LaneOperandsAreRead := by
  intro e slots t n imm sel g ht
  have hr := readBits_of_typeBits ht
  refine ⟨fun h hn => ⟨_, lanes_toList _ n, readSel_narrow hr hn (by omega) (read32_register h)⟩, fun h hn => ?_,
    fun hlo hhi hn => ⟨_, ?_, readSel_narrow hr hn (by omega) (read32_frame hlo hhi)⟩, fun hlo hhi hn => ?_,
    fun hlo hhi hn => readSel_queue hr hn (by omega) (read32_pop hlo hhi),
    fun hlo hhi hn => readSel_queue hr hn hhi (read32_peek hlo hhi), ?_, ?_, ?_⟩
  · have h1 := toNat_next (sel := sel) (by omega)
    refine ⟨_, fun l hl => ?_, readSel_wide hr hn (by omega) (read32_register (by omega)) (read32_register (by omega))⟩
    rw [h1]
    exact lanes_pair _ _ l hl
  · intro l hl
    rw [List.map_replicate]
    exact lanes_replicate _ l hl
  · have h1 := toNat_next (sel := sel) (by omega)
    refine ⟨_, fun l hl => ?_, readSel_wide hr hn (by omega) (read32_frame hlo (by omega)) (read32_frame (by omega) (by omega))⟩
    rw [h1, show sel.toNat + 1 - 0x100 = sel.toNat - 0x100 + 1 by omega, List.zipWith_replicate, Nat.min_self, lanes_replicate _ l hl, toNat_append_eq, Nat.mul_comm, Nat.add_comm]
  · rintro rfl
    refine ⟨_, _, lanes_replicate _, readSel_imm, ?_, ?_, ?_, ?_, ?_, ?_⟩
    · rintro rfl hn
      have hn' : (fmt32.decode imm.toNat).isNan = false := by simpa using hn
      have := imm.isLt
      obtain ⟨heq, hsgn⟩ := fmt64_round_fmt32 hn'
      rw [immValue, widenF64_of_number hn]
      exact ⟨heq, hsgn.trans (by omega)⟩
    · rintro rfl hn
      rw [immValue, widenF64_of_nan hn]
    · rintro rfl
      rfl
    · rintro rfl
      rfl
    · rintro rfl
      exact wrapNat_sextInt imm
    · exact immValue_low hr
  · rintro rfl
    exact ⟨_, fun l hl => (lanes_range _ l hl).trans (congrArg some (indexValue_eq t l)), readSel_lane⟩
  · rintro rfl
    exact ⟨_, fun l hl => (lanes_replicate _ l hl).trans (congrArg some (indexValue_eq t e.id)), readSel_split⟩

end

section
/-! SUPPORT. O43: lane branches, joins, ends and merges of splits. -/

open Sys2Proof.Claims

namespace Sys2Proof.Machine

set_option Elab.async false

/-! Vectors of masks, bit by bit. -/

theorem Vec.get_make {α : Type} [Inhabited α] {n k : Nat} (f : Nat → α) (h : k < n) : Vec.get (Vec.make n f) k = f k := by
  simp [Vec.get, Vec.make, h]

theorem Vec.ext_get {α : Type} [Inhabited α] {n : Nat} {v w : Vector α n} (h : ∀ k, k < n → Vec.get v k = Vec.get w k) : v = w := by
  ext k hk
  simpa [Vec.get, hk] using h k hk

theorem masks_ext {n : Nat} {m m' : Vector Word32 n} (h : ∀ k l, k < n → l < 32 → (Vec.get m k).getLsbD l = (Vec.get m' k).getLsbD l) : m = m' :=
  Vec.ext_get fun k hk => BitVec.eq_of_getLsbD_eq fun l hl => h k l hk hl

/-! The executing split (R121): the lowest position, and of equal ones the lowest id. -/

/-- Split `j` of `f` is the lowest of those below `n`. -/
def IsLowest (f : Nat → Option Split) (n : Nat) (x : Option (Nat × Split)) : Prop :=
  match x with
  | none => ∀ i, i < n → f i = none
  | some (j, b) => j < n ∧ f j = some b ∧ ∀ i sp, i < n → f i = some sp → b.lpc.toNat < sp.lpc.toNat ∨ (b.lpc = sp.lpc ∧ j ≤ i)

/-- Of the best split so far and split `i`, the lower one. -/
def lowerSplit (f : Nat → Option Split) (best : Option (Nat × Split)) (i : Nat) : Option (Nat × Split) :=
  match f i, best with
  | some sp, some (j, b) => if sp.lpc.toNat < b.lpc.toNat then some (i, sp) else some (j, b)
  | some sp, none => some (i, sp)
  | none, b => b

theorem lowestSplit_eq (g : Group) : lowestSplit g = (List.range 4).foldl (lowerSplit (Vec.get g.splits)) none := rfl

theorem isLowest_lowerSplit {f : Nat → Option Split} {n : Nat} {x : Option (Nat × Split)} (h : IsLowest f n x) :
    IsLowest f (n + 1) (lowerSplit f x n) := by
  unfold lowerSplit
  split
  · next sp j b hn =>
    obtain ⟨hj, hb, hmin⟩ := h
    split
    · next hlt =>
      refine ⟨Nat.lt_succ_self n, hn, fun i sp' hi hsp' => ?_⟩
      rcases Nat.lt_succ_iff_lt_or_eq.mp hi with hi | rfl
      · rcases hmin i sp' hi hsp' with h | ⟨h, -⟩
        · exact .inl (hlt.trans h)
        · exact .inl (h ▸ hlt)
      · exact .inr ⟨congrArg Split.lpc (Option.some.inj (hn.symm.trans hsp')), le_rfl⟩
    · next hge =>
      refine ⟨by omega, hb, fun i sp' hi hsp' => ?_⟩
      rcases Nat.lt_succ_iff_lt_or_eq.mp hi with hi | rfl
      · exact hmin i sp' hi hsp'
      · cases hn.symm.trans hsp'
        rcases Nat.lt_or_eq_of_le (Nat.le_of_not_lt hge) with h | h
        · exact .inl h
        · exact .inr ⟨BitVec.eq_of_toNat_eq h, hj.le⟩
  · next sp hn =>
    refine ⟨Nat.lt_succ_self n, hn, fun i sp' hi hsp' => ?_⟩
    rcases Nat.lt_succ_iff_lt_or_eq.mp hi with hi | rfl
    · exact absurd ((h i hi).symm.trans hsp') (by simp)
    · exact .inr ⟨congrArg Split.lpc (Option.some.inj (hn.symm.trans hsp')), le_rfl⟩
  · next best _ _ hn =>
    cases best with
    | none =>
      intro i hi
      rcases Nat.lt_succ_iff_lt_or_eq.mp hi with hi | rfl
      · exact h i hi
      · exact hn
    | some best =>
      obtain ⟨hj, hb, hmin⟩ := h
      refine ⟨by omega, hb, fun i sp' hi hsp' => ?_⟩
      rcases Nat.lt_succ_iff_lt_or_eq.mp hi with hi | rfl
      · exact hmin i sp' hi hsp'
      · exact absurd (hn.symm.trans hsp') (by simp)

theorem isLowest_foldl (f : Nat → Option Split) (n : Nat) : IsLowest f n ((List.range n).foldl (lowerSplit f) none) := by
  induction n with
  | zero => exact fun i hi => absurd hi (Nat.not_lt_zero i)
  | succ n ih =>
    rw [List.range_succ, List.foldl_append]
    exact isLowest_lowerSplit ih

theorem lowestSplit_of_laneAt {s : State} {msel : BitVec 3} {e : LaneEnv} (h : LaneAt s msel e) : lowestSplit (selfGroup s) = some (e.id, e.sp) := by
  obtain ⟨hlt, hsp⟩ := h.split
  have hl := isLowest_foldl (Vec.get (selfGroup s).splits) 4
  rw [lowestSplit_eq]
  generalize (List.range 4).foldl _ none = x at hl
  match x with
  | none => rw [hl e.id hlt] at hsp; contradiction
  | some (j, b) =>
    obtain ⟨hj, hb, hmin⟩ := hl
    have h1 := hmin e.id e.sp hlt hsp
    have h2 := h.lowest j b hj hb
    have hid : j = e.id := by
      rcases h1 with h1 | ⟨h1, h1'⟩ <;> rcases h2 with h2 | ⟨h2, h2'⟩
      · omega
      · rw [h2] at h1; omega
      · rw [h1] at h2; omega
      · omega
    subst hid
    rw [hb] at hsp
    cases hsp
    rfl

theorem ctlEnter_of {s : State} {e : LaneEnv} (hu : UserGroup s) (h : LaneAt s 0 e) : ctlEnter s = .ok (e.id, e.sp) := by
  unfold ctlEnter
  rw [raiseIf_passes (by simp [hu.1, hu.2]), lowestSplit_of_laneAt h]

/-! What a lane control form leaves. -/

theorem laneStep_ctlDone (f : Group → Group) (s : State) : LaneStep (mergeSplits (f (selfGroup s))) s (ctlDone (mapSelfGroup f s)) := by
  have hb := retire_sameBlocks (mapSelfGroup mergeSplits (mapSelfGroup f s))
  refine ⟨?_, fun a ha => ?_, by simp [ctlDone], hb, SameBytes.of_parts (by simp [ctlDone]) (by simp [ctlDone]) (by simp [ctlDone]) hb⟩
  · unfold ctlDone
    rw [retire_rest]
    rfl
  · have e : (ctlDone (mapSelfGroup f s)).group a = (mapSelfGroup mergeSplits (mapSelfGroup f s)).group a := by simp [ctlDone, State.group]
    exact e.trans ((group_setGroup_other _ _ ha).trans (group_setGroup_other s _ ha))

/-! The most recent record (R135). -/

/-- Records that do not meet the condition leave what was found before them. -/
theorem foldl_records_none {c : Parked → Bool} {z : List (Nat × Parked)} (h : ∀ x, x ∈ z → c x.2 = false) (b : Option (Nat × Parked)) :
    z.foldl (fun b x => if c x.2 then some x else b) b = b := by
  induction z generalizing b with
  | nil => rfl
  | cons x z ih =>
    rw [List.foldl_cons, ih fun y hy => h y (List.mem_cons_of_mem _ hy), h x List.mem_cons_self]
    rfl

theorem lastRecord_none {c : Parked → Bool} {l : List Parked} (h : ∀ q, q ∈ l → c q = false) : lastRecord c l = none :=
  foldl_records_none (fun x hx => h x.2 (List.of_mem_zip hx).2) none

theorem lastRecord_some {c : Parked → Bool} {pre post : List Parked} {p : Parked} (hp : c p = true) (h : ∀ q, q ∈ post → c q = false) :
    lastRecord c (pre ++ p :: post) = some (pre.length, p) := by
  have hz : (List.range (pre ++ p :: post).length).zip (pre ++ p :: post) =
      (List.range pre.length).zip pre ++ (pre.length, p) :: (((List.range post.length).map Nat.succ).map (pre.length + ·)).zip post := by
    rw [List.length_append, List.length_cons, List.range_add, List.zip_append (by simp), List.range_succ_eq_map]
    rfl
  unfold lastRecord
  rw [hz, List.foldl_append, List.foldl_cons, foldl_records_none fun x hx => h x.2 (List.of_mem_zip hx).2]
  simp [hp]

theorem removeAt_length {α : Type} (pre post : List α) (p : α) : removeAt (pre ++ p :: post) pre.length = pre ++ post := by
  simp [removeAt]

/-- A bit of one word where a mask chooses it, else of another. -/
theorem getLsbD_chosen (x y c : Word32) {l : Nat} (hl : l < 32) :
    ((x &&& ~~~c) ||| (y &&& c)).getLsbD l = if c.getLsbD l then y.getLsbD l else x.getLsbD l := by
  cases hb : c.getLsbD l <;> simp only [BitVec.getLsbD_or, BitVec.getLsbD_and, BitVec.getLsbD_not, hb, hl] <;> simp

theorem restoreMasks_of {p : Parked} {m m' : Vector Word32 7} (h : Restores p m m') : restoreMasks p m = m' :=
  masks_ext fun k l hk hl => by rw [h k l hk hl, restoreMasks, Vec.get_make _ hk, getLsbD_chosen _ _ _ hl]

/-! The lanes that live (R15). -/

theorem getLsbD_foldl_or {α : Type} (f : α → Word32) (l : Nat) (xs : List α) (m : Word32) :
    (xs.foldl (fun m x => m ||| f x) m).getLsbD l = true ↔ m.getLsbD l = true ∨ ∃ x, x ∈ xs ∧ (f x).getLsbD l = true := by
  induction xs generalizing m with
  | nil => simp
  | cons x xs ih =>
    rw [List.foldl_cons, ih]
    simp [or_assoc]

/-- The lanes of a split, none of a free one. -/
def lanesOf (x : Option Split) : Word32 := match x with | some sp => sp.mask | none => 0

theorem liveOf_eq (g : Group) : liveOf g = g.splits.toList.foldl (fun m x => m ||| lanesOf x) 0 ||| g.parked.foldl (fun m p => m ||| p.pmask) 0 := by
  unfold liveOf
  congr 2
  funext m x
  cases x <;> simp [lanesOf]

theorem getLsbD_lanesOf (v : Vector (Option Split) 4) (l : Nat) :
    (∃ x, x ∈ v.toList ∧ (lanesOf x).getLsbD l = true) ↔ ∃ i sp, i < 4 ∧ Vec.get v i = some sp ∧ sp.mask.getLsbD l = true := by
  constructor
  · rintro ⟨x, hx, hl⟩
    obtain ⟨i, hi, rfl⟩ := List.mem_iff_getElem.mp hx
    have hi' : i < 4 := by simpa using hi
    cases hv : v[i] with
    | none => simp [hv, lanesOf] at hl
    | some sp => exact ⟨i, sp, hi', by simp [Vec.get, hv, hi'], by simpa [hv, lanesOf] using hl⟩
  · rintro ⟨i, sp, hi, hv, hl⟩
    have hv' : v[i] = some sp := by simpa [Vec.get, hi] using hv
    exact ⟨some sp, by rw [← hv']; simp, hl⟩

theorem liveLanes_liveOf (g : Group) : LiveLanes { g with live := liveOf g } := by
  intro l hl
  change (liveOf g).getLsbD l = true ↔ _
  rw [liveOf_eq, BitVec.getLsbD_or, Bool.or_eq_true, getLsbD_foldl_or, getLsbD_foldl_or, getLsbD_lanesOf]
  simp

/-! Merges (R16). -/

theorem mergeInto_of_ne {g : Group} {i j : Nat} (h : ∀ a b, Vec.get g.splits i = some a → Vec.get g.splits j = some b → a.lpc ≠ b.lpc) :
    mergeInto g i j = g := by
  unfold mergeInto
  split
  · next a b ha hb => exact if_neg (h a b ha hb)
  · rfl

/-- Splits all at different positions stay as they are. -/
theorem mergeSplits_of_ne {g : Group}
    (h : ∀ i j a b, i < j → j < 4 → Vec.get g.splits i = some a → Vec.get g.splits j = some b → a.lpc ≠ b.lpc) : mergeSplits g = g := by
  have step (i j : Nat) (hij : i < j) (hj : j < 4) : mergeInto g i j = g := mergeInto_of_ne fun a b => h i j a b hij hj
  simp only [mergeSplits, List.foldl_cons, List.foldl_nil, step, Nat.reduceLT]

/-- Of a fold in which one pair alone changes the group, and no pair changes what it leaves. -/
theorem foldl_pair {f : Group → Nat × Nat → Group} {g g' : Group} {x : Nat × Nat} {l : List (Nat × Nat)} (hx : f g x = g')
    (hne : ∀ y, y ∈ l → y ≠ x → f g y = g) (hg' : ∀ y, y ∈ l → f g' y = g') : l.foldl f g' = g' ∧ (x ∈ l → l.foldl f g = g') := by
  induction l with
  | nil => simp
  | cons y l ih =>
    obtain ⟨ih', ihx⟩ := ih (fun z hz => hne z (List.mem_cons_of_mem _ hz)) (fun z hz => hg' z (List.mem_cons_of_mem _ hz))
    refine ⟨by rw [List.foldl_cons, hg' y List.mem_cons_self, ih'], fun hm => ?_⟩
    rw [List.foldl_cons]
    by_cases hy : y = x
    · rw [hy, hx, ih']
    · rw [hne y List.mem_cons_self hy]
      exact ihx ((List.mem_cons.mp hm).resolve_left (Ne.symm hy))

section
variable {g : Group} {i j : Nat} {a b : Split} {m : Vector Word32 7} (hij : i < j) (hj : j < 4) (ha : Vec.get g.splits i = some a)
  (hb : Vec.get g.splits j = some b)
include ha hb

/-- What two equal splits become. -/
theorem mergeInto_of_eq (hl : a.lpc = b.lpc)
    (hm : ∀ k l, k < 7 → l < 32 → (Vec.get m k).getLsbD l = if b.mask.getLsbD l then (Vec.get b.m k).getLsbD l else (Vec.get a.m k).getLsbD l) :
    mergeInto g i j = { g with splits := Vec.set (Vec.set g.splits i (some { a with mask := a.mask ||| b.mask, m := m })) j none } := by
  have hmm : Vec.make 7 (fun k => (Vec.get a.m k &&& ~~~b.mask) ||| (Vec.get b.m k &&& b.mask)) = m := masks_ext fun k l hk h => by
    rw [hm k l hk h, Vec.get_make _ hk, getLsbD_chosen _ _ _ h]
  simp only [mergeInto, ha, hb, hl, if_true, hmm]

include hij hj

/-- Once the one pair of equal splits is merged, no two splits are equal. -/
theorem mergeInto_merged
    (hne : ∀ p q x y, p < q → q < 4 → (p, q) ≠ (i, j) → Vec.get g.splits p = some x → Vec.get g.splits q = some y → x.lpc ≠ y.lpc)
    {p q : Nat} (hpq : p < q) (hq : q < 4) (c : Split) (hc : c.lpc = a.lpc) :
    mergeInto { g with splits := Vec.set (Vec.set g.splits i (some c)) j none } p q =
      { g with splits := Vec.set (Vec.set g.splits i (some c)) j none } := by
  refine mergeInto_of_ne fun x y hx hy => ?_
  have hget (k : Nat) (z : Split) (hz : Vec.get (Vec.set (Vec.set g.splits i (some c)) j none) k = some z) :
      k ≠ j ∧ ∃ w, Vec.get g.splits k = some w ∧ w.lpc = z.lpc := by
    have hkj : k ≠ j := by
      rintro rfl
      rw [Vec.get_set_self _ _ _ hj] at hz
      contradiction
    refine ⟨hkj, ?_⟩
    rw [Vec.get_set_other _ _ (Ne.symm hkj)] at hz
    by_cases hki : k = i
    · subst hki
      rw [Vec.get_set_self _ _ _ (by omega)] at hz
      cases hz
      exact ⟨a, ha, hc.symm⟩
    · rw [Vec.get_set_other _ _ (Ne.symm hki)] at hz
      exact ⟨z, hz, rfl⟩
  obtain ⟨-, x', hx', hxl⟩ := hget p x hx
  obtain ⟨hqj, y', hy', hyl⟩ := hget q y hy
  rw [← hxl, ← hyl]
  exact hne p q x' y' hpq hq (fun e => hqj (congrArg Prod.snd e)) hx' hy'

theorem mergeSplits_of_eq (hl : a.lpc = b.lpc)
    (hne : ∀ p q x y, p < q → q < 4 → (p, q) ≠ (i, j) → Vec.get g.splits p = some x → Vec.get g.splits q = some y → x.lpc ≠ y.lpc)
    (hm : ∀ k l, k < 7 → l < 32 → (Vec.get m k).getLsbD l = if b.mask.getLsbD l then (Vec.get b.m k).getLsbD l else (Vec.get a.m k).getLsbD l) :
    mergeSplits g = { g with splits := Vec.set (Vec.set g.splits i (some { a with mask := a.mask ||| b.mask, m := m })) j none } := by
  have hpairs : ∀ y : Nat × Nat, y ∈ [(0, 1), (0, 2), (0, 3), (1, 2), (1, 3), (2, 3)] ↔ y.1 < y.2 ∧ y.2 < 4 := by
    rintro ⟨p, q⟩
    simp only [List.mem_cons, Prod.mk.injEq, List.not_mem_nil, or_false]
    omega
  refine (foldl_pair (x := (i, j)) (mergeInto_of_eq ha hb hl hm) (fun y hy hyx => mergeInto_of_ne fun x z hx hz => ?_) (fun y hy => ?_)).2
    ((hpairs (i, j)).mpr ⟨hij, hj⟩)
  · obtain ⟨h1, h2⟩ := (hpairs y).mp hy
    exact hne _ _ x z h1 h2 hyx hx hz
  · obtain ⟨h1, h2⟩ := (hpairs y).mp hy
    exact mergeInto_merged hij hj ha hb hne h1 h2 _ rfl

end

/-! Branches (R136). -/

/-- What a branch whose offsets are in range does: all lanes of the split take it, none does, or it divides. -/
def divide (e : LaneEnv) (T : Word32) (land jn : Word64) (s : State) : Eff :=
  let F := e.sp.mask &&& ~~~T
  if F = 0 then .ok (mapSelfGroup (putSplit e.id (some { e.sp with lpc := land })) s)
  else if T = 0 then .ok (mapSelfGroup (putSplit e.id (some { e.sp with lpc := e.sp.lpc + 12 })) s)
  else
    match freeSplit (selfGroup s) with
    | some n => .ok (mapSelfGroup (fun g => putSplit (max e.id n) (some { e.sp with lpc := land, mask := T })
        (putSplit (min e.id n) (some { e.sp with lpc := e.sp.lpc + 12, mask := F }) g)) s)
    | none => raiseIf (decide (8 ≤ (selfGroup s).parked.length)) .sync 1 >>= fun _ =>
      .ok (mapSelfGroup (fun g => putSplit e.id (some { e.sp with lpc := land, mask := T })
        { g with parked := g.parked ++ [{ pmask := F, plpc := e.sp.lpc + 12, pjoin := jn, hold := false, pm := e.sp.m }] }) s)

theorem and_not_and (x y : Word32) : x &&& ~~~(x &&& y) = x &&& ~~~y := by
  refine BitVec.eq_of_getLsbD_eq fun l hl => ?_
  simp only [BitVec.getLsbD_and, BitVec.getLsbD_not, hl]
  cases x.getLsbD l <;> rfl

theorem freeSplit_some {g : Group} {n : Nat} (hn : n < 4) (h : Vec.get g.splits n = none) (hj : ∀ j, j < n → Vec.get g.splits j ≠ none) :
    freeSplit g = some n := by
  rw [freeSplit, List.find?_range_eq_some]
  exact ⟨by simp [h], List.mem_range.mpr hn, fun j hjn => by simpa [Option.isSome_iff_ne_none] using hj j hjn⟩

theorem freeSplit_none {g : Group} (h : ∀ j, j < 4 → Vec.get g.splits j ≠ none) : freeSplit g = none := by
  rw [freeSplit, List.find?_range_eq_none]
  exact fun j hj => by simpa [Option.isSome_iff_ne_none] using h j hj

section
variable {s : State} {w : LaneWord} {e : LaneEnv} {i : Instr}

/-- A lane control form that changes the group and is done. -/
theorem becomes_of (f : Group → Group) (hi : exec i s = finishLane s ((Except.ok (mapSelfGroup f s) : Eff).map ctlDone)) :
    ∃ t, exec i s = .next t ∧ LaneStep (mergeSplits (f (selfGroup s))) s t := ⟨_, hi, laneStep_ctlDone f s⟩

variable (hu : UserGroup s) (he : LaneAt s 0 e)
include hu he

theorem exec_branch {taken : Split → Word32} (hi : exec i s = finishLane s ((laneBranch taken w s).map ctlDone)) :
    exec i s = finishLane s ((raiseIf (decide ((branchOffsets e.sp.lpc w.imm).1 < 0) || decide ((branchOffsets e.sp.lpc w.imm).2 < 0)) .illegal 0
      >>= fun _ => divide e (e.sp.mask &&& taken e.sp) (BitVec.ofInt 64 (branchOffsets e.sp.lpc w.imm).1)
        (BitVec.ofInt 64 (branchOffsets e.sp.lpc w.imm).2) s).map ctlDone) := by
  rw [hi]
  unfold laneBranch divide
  rw [ctlEnter_of hu he, and_not_and]
  rfl

theorem exec_branch_outside {taken : Split → Word32} (hi : exec i s = finishLane s ((laneBranch taken w s).map ctlDone))
    (h : (branchOffsets e.sp.lpc w.imm).1 < 0 ∨ (branchOffsets e.sp.lpc w.imm).2 < 0) :
    exec i s = .next (takeTrap s.cur { cls := .illegal } true s) := by
  rw [exec_branch hu he hi, raiseIf_stops (by simpa using h)]
  rfl

theorem exec_branch_inside {taken : Split → Word32} (hi : exec i s = finishLane s ((laneBranch taken w s).map ctlDone))
    (ht : 0 ≤ (branchOffsets e.sp.lpc w.imm).1) (hj : 0 ≤ (branchOffsets e.sp.lpc w.imm).2) :
    exec i s = finishLane s ((divide e (e.sp.mask &&& taken e.sp) (BitVec.ofInt 64 (branchOffsets e.sp.lpc w.imm).1)
      (BitVec.ofInt 64 (branchOffsets e.sp.lpc w.imm).2) s).map ctlDone) := by
  rw [exec_branch hu he hi, raiseIf_passes (by simpa using ⟨ht, hj⟩)]

end

/-! The cases of a division. -/

section
variable {s : State} {e : LaneEnv} {T : Word32} {land jn : Word64}

theorem divide_all (hF : e.sp.mask &&& ~~~T = 0) : divide e T land jn s = .ok (mapSelfGroup (putSplit e.id (some { e.sp with lpc := land })) s) := if_pos hF

variable (hF : e.sp.mask &&& ~~~T ≠ 0)
include hF

theorem divide_none (hT : T = 0) : divide e T land jn s = .ok (mapSelfGroup (putSplit e.id (some { e.sp with lpc := e.sp.lpc + 12 })) s) :=
  (if_neg hF).trans (if_pos hT)

variable (hT : T ≠ 0)
include hT

theorem divide_free {n : Nat} (hn : freeSplit (selfGroup s) = some n) : divide e T land jn s =
    .ok (mapSelfGroup (fun g => putSplit (max e.id n) (some { e.sp with lpc := land, mask := T })
      (putSplit (min e.id n) (some { e.sp with lpc := e.sp.lpc + 12, mask := e.sp.mask &&& ~~~T }) g)) s) := by
  unfold divide
  dsimp only
  rw [if_neg hF, if_neg hT, hn]

theorem divide_parks (hn : freeSplit (selfGroup s) = none) (hp : (selfGroup s).parked.length < 8) : divide e T land jn s =
    .ok (mapSelfGroup (fun g => putSplit e.id (some { e.sp with lpc := land, mask := T })
      { g with parked := g.parked ++ [{ pmask := e.sp.mask &&& ~~~T, plpc := e.sp.lpc + 12, pjoin := jn, hold := false, pm := e.sp.m }] }) s) := by
  unfold divide
  dsimp only
  rw [if_neg hF, if_neg hT, hn]
  exact raiseIf_passes (by simpa using hp)

theorem divide_full (hn : freeSplit (selfGroup s) = none) (hp : 8 ≤ (selfGroup s).parked.length) :
    divide e T land jn s = .error (.trap { cls := .sync, detail := 1 }) := by
  unfold divide
  dsimp only
  rw [if_neg hF, if_neg hT, hn]
  exact raiseIf_stops (by simpa using hp)

end

/-! Joins (R137). -/

section
variable {s : State} {w : LaneWord} {e : LaneEnv}

theorem exec_joinl (hu : UserGroup s) (he : LaneAt s 0 e) :
    ∃ t, exec (.joinl w) s = .next t ∧ LaneStep (mergeSplits (joinl e.id e.sp (selfGroup s))) s t := by
  refine ⟨_, ?_, laneStep_ctlDone (joinl e.id e.sp) s⟩
  change finishLane s (ctlEnter s >>= _) = _
  rw [ctlEnter_of hu he]
  rfl

end

section
variable {id : Nat} {sp : Split} {g : Group}

theorem record_iff (hold : Bool) (p : Parked) : (p.hold = hold ∧ p.pjoin = sp.lpc) ↔ ((p.hold == hold) && p.pjoin == sp.lpc) = true := by simp

theorem joinl_handsOver {pre post : List Parked} {p : Parked} {m' : Vector Word32 7} (hg : g.parked = pre ++ p :: post)
    (hp : p.hold = false ∧ p.pjoin = sp.lpc) (hpost : ∀ q, q ∈ post → ¬(q.hold = false ∧ q.pjoin = sp.lpc)) (hm : Restores p sp.m m') :
    joinl id sp g = putSplit id (some { lpc := p.plpc, mask := p.pmask, m := m' })
      { g with parked := pre ++ post ++ [{ pmask := sp.mask, plpc := sp.lpc, pjoin := p.pjoin, hold := true, pm := sp.m }] } := by
  have hl : lastRecord (fun p => !p.hold && p.pjoin == sp.lpc) g.parked = some (pre.length, p) := by
    rw [hg]
    exact lastRecord_some (by simpa using hp) fun q hq => by simpa using hpost q hq
  unfold joinl
  simp only [hl]
  simp only [hg, removeAt_length, restoreMasks_of hm]

theorem lastRecord_waiting_none (h : ∀ q, q ∈ g.parked → ¬(q.hold = false ∧ q.pjoin = sp.lpc)) :
    lastRecord (fun p => !p.hold && p.pjoin == sp.lpc) g.parked = none := lastRecord_none fun q hq => by simpa using h q hq

theorem joinl_takesBack (hnone : ∀ q, q ∈ g.parked → ¬(q.hold = false ∧ q.pjoin = sp.lpc)) {pre post : List Parked} {p : Parked}
    {m' : Vector Word32 7} (hg : g.parked = pre ++ p :: post) (hp : p.hold = true ∧ p.pjoin = sp.lpc)
    (hpost : ∀ q, q ∈ post → ¬(q.hold = true ∧ q.pjoin = sp.lpc)) (hm : Restores p sp.m m') :
    joinl id sp g = putSplit id (some { lpc := sp.lpc + 12, mask := sp.mask ||| p.pmask, m := m' }) { g with parked := pre ++ post } := by
  have hl : lastRecord (fun p => p.hold && p.pjoin == sp.lpc) g.parked = some (pre.length, p) := by
    rw [hg]
    exact lastRecord_some (by simpa using hp) fun q hq => by simpa using hpost q hq
  unfold joinl
  simp only [lastRecord_waiting_none hnone, hl]
  simp only [hg, removeAt_length, restoreMasks_of hm]

theorem joinl_passes (h : ∀ q, q ∈ g.parked → ¬(q.hold = false ∧ q.pjoin = sp.lpc) ∧ ¬(q.hold = true ∧ q.pjoin = sp.lpc)) :
    joinl id sp g = putSplit id (some { sp with lpc := sp.lpc + 12 }) g := by
  have hl : lastRecord (fun p => p.hold && p.pjoin == sp.lpc) g.parked = none := lastRecord_none fun q hq => by simpa using (h q hq).2
  unfold joinl
  simp only [lastRecord_waiting_none fun q hq => (h q hq).1, hl]

/-! Ends (R138). -/

/-- No split is left once split `id` is free. -/
theorem noneLeft_iff : (Vec.set g.splits id none).toList.all (·.isNone) = true ↔ ¬∃ i, i < 4 ∧ i ≠ id ∧ Vec.get g.splits i ≠ none := by
  have hget : ∀ i, i < 4 → (Vec.get (Vec.set g.splits id none) i = none ↔ i = id ∨ Vec.get g.splits i = none) := by
    intro i hi
    by_cases h : i = id
    · subst h
      simp [Vec.get_set_self _ _ _ hi]
    · simp [Vec.get_set_other _ _ (Ne.symm h), h]
  have hall (v : Vector (Option Split) 4) : v.toList.all (·.isNone) = true ↔ ∀ i, i < 4 → Vec.get v i = none := by
    rw [List.all_eq_true, List.forall_mem_iff_getElem]
    simp only [Vector.length_toList, Option.isNone_iff_eq_none]
    exact forall₂_congr fun i hi => by simp [Vec.get, hi]
  rw [hall]
  push Not
  exact forall₂_congr fun i hi => by rw [hget i hi]; tauto

theorem endSplit_takes {pre : List Parked} {p : Parked} {m' : Vector Word32 7} (hg : g.parked = pre ++ [p]) (hm : Restores p sp.m m') :
    endSplit id sp g = { g with
      parked := pre
      live := (endSplit id sp g).live
      splits := Vec.set g.splits id (some { lpc := if p.hold then p.plpc + 12 else p.plpc, mask := p.pmask, m := m' }) } := by
  have hl : lastRecord (fun _ => true) g.parked = some (pre.length, p) := by
    rw [hg]
    exact lastRecord_some rfl nofun
  have hr : removeAt g.parked pre.length = pre := by rw [hg, removeAt_length, List.append_nil]
  unfold endSplit
  simp only [hl, hr, restoreMasks_of hm]
  rfl

/-- A group whose live-lane mask follows its splits and records. -/
def withLive (g : Group) : Group := { g with live := liveOf g }

section
variable (hg : g.parked = [])
include hg

theorem endSplit_eq_free : endSplit id sp g = withLive
    (if (Vec.set g.splits id none).toList.all (·.isNone) then { putSplit id none g with segq := g.segq.drop 1, inSeg := false, rep := none }
      else putSplit id none g) := by
  have hl : lastRecord (fun _ => true) g.parked = none := by rw [hg]; rfl
  unfold endSplit
  rw [hl]
  rfl

theorem endSplit_frees (h : ∃ i, i < 4 ∧ i ≠ id ∧ Vec.get g.splits i ≠ none) :
    endSplit id sp g = { g with splits := Vec.set g.splits id none, live := (endSplit id sp g).live } := by
  rw [endSplit_eq_free hg, if_neg fun ha => noneLeft_iff.mp ha h]
  rfl

theorem endSplit_leaves (h : ¬∃ i, i < 4 ∧ i ≠ id ∧ Vec.get g.splits i ≠ none) :
    endSplit id sp g = { g with
      splits := Vec.set g.splits id none
      live := (endSplit id sp g).live
      segq := g.segq.drop 1
      inSeg := false
      rep := none } := by
  rw [endSplit_eq_free hg, if_pos (noneLeft_iff.mpr h)]
  rfl

end

theorem endSplit_endsSplit : EndsSplit id sp.m g (endSplit id sp g) :=
  ⟨liveLanes_liveOf _, fun _ _ _ hg hm => endSplit_takes hg hm, fun hg hleft => endSplit_frees hg hleft, fun hg hleft => endSplit_leaves hg hleft⟩

end

/-! `LRET` and `EXIT` (R138, R147). -/

section
variable {s : State} {e : LaneEnv}

theorem splitError_none (h : NoLaneErrors s) (id : Nat) : splitError id s = none := by
  rw [splitError, List.find?_eq_none]
  intro d hd
  simp [h.1 d hd]

theorem errorInFlight_none (h : NoLaneErrors s) : errorInFlight s = false := by
  rw [errorInFlight, List.any_eq_false]
  intro l hl
  cases he : l.err with
  | none => simp
  | some d => simp [h.2 l d hl he]

theorem endingSplit_ends (h : NoLaneErrors s) (id : Nat) (sp : Split) (f : Group → Group) :
    ∃ g' t, EndsSplit id sp.m (f (selfGroup s)) g' ∧ endingSplit id sp f s = .next t ∧ LaneStep (mergeSplits g') s t := by
  refine ⟨_, _, endSplit_endsSplit, ?_, laneStep_ctlDone (fun g => endSplit id sp (f g)) s⟩
  unfold endingSplit
  simp only [splitError_none h, errorInFlight_none h]
  rfl

theorem splitError_some {pre post : List Deferred} {d : Deferred} {id : Nat} (hd : (self s).deferred = pre ++ d :: post) (hid : d.split = some id)
    (hpre : ∀ x, x ∈ pre → x.split = none) : splitError id s = some d := by
  rw [splitError, hd, List.find?_append, List.find?_cons_of_pos (by simp [hid])]
  rw [List.find?_eq_none.mpr fun x hx => by simp [hpre x hx]]
  rfl

theorem endingSplit_raises {pre post : List Deferred} {d : Deferred} {id : Nat} (sp : Split) (f : Group → Group)
    (hd : (self s).deferred = pre ++ d :: post) (hid : d.split = some id) (hpre : ∀ x, x ∈ pre → x.split = none) :
    endingSplit id sp f s = .next (takeTrap s.cur { cls := .memerr, detail := d.detail, addr := d.addr, faults := d.faults, once := some d } true s) := by
  unfold endingSplit
  rw [splitError_some hd hid hpre]
  rfl

variable {w : LaneWord} (hu : UserGroup s) (he : LaneAt s 0 e)
include hu he

theorem exec_lret : exec (.lret w) s = endingSplit e.id e.sp (fun g => g) s := by
  change execLret w s = _
  unfold execLret
  rw [ctlEnter_of hu he]

/-- The lanes that `EXIT` ends leave the live-lane mask. -/
def withoutLanes (gone : Word32) (g : Group) : Group := { g with live := g.live &&& ~~~gone }

theorem exec_exit : exec (.exit w) s =
    let gone := e.sp.mask &&& maskOf e.sp w.md.toNat
    if e.sp.mask &&& ~~~gone = 0 then endingSplit e.id e.sp (withoutLanes gone) s
    else .next (ctlDone (mapSelfGroup
      (fun g => putSplit e.id (some { e.sp with mask := e.sp.mask &&& ~~~gone, lpc := e.sp.lpc + 12 }) (withoutLanes gone g)) s)) := by
  change execExit w s = _
  unfold execExit
  rw [ctlEnter_of hu he]
  rfl

theorem exec_exit_some (h : e.sp.mask &&& ~~~(e.sp.mask &&& maskOf e.sp w.md.toNat) ≠ 0) :
    ∃ t, exec (.exit w) s = .next t ∧ LaneStep (mergeSplits (putSplit e.id
      (some { e.sp with mask := e.sp.mask &&& ~~~(e.sp.mask &&& maskOf e.sp w.md.toNat), lpc := e.sp.lpc + 12 })
      (withoutLanes (e.sp.mask &&& maskOf e.sp w.md.toNat) (selfGroup s)))) s t :=
  ⟨_, (exec_exit hu he).trans (if_neg h), laneStep_ctlDone (fun g => putSplit e.id
    (some { e.sp with mask := e.sp.mask &&& ~~~(e.sp.mask &&& maskOf e.sp w.md.toNat), lpc := e.sp.lpc + 12 })
    (withoutLanes (e.sp.mask &&& maskOf e.sp w.md.toNat) g)) s⟩

end

end Sys2Proof.Machine

open Sys2Proof Sys2Proof.Machine Sys2Proof.Claims

/-- Settles O43: branches, joins, the ends of splits, and merges. -/
theorem splitsDivideJoinAndEnd : Obligations.SplitsDivideJoinAndEnd := by
  intro s w e hu he g sp at_ becomes ends branch record gone dropped
  have hbranch (i : Instr) (taken : Split → Word32) (hi : exec i s = finishLane s ((laneBranch taken w s).map ctlDone)) :
      branch i (sp.mask &&& taken sp) := by
    refine ⟨exec_branch_outside hu he hi, fun ht hj => ?_⟩
    have hx := exec_branch_inside hu he hi ht hj
    refine ⟨fun hF => ?_, fun hF hT => ?_, fun hF hT n hn hfree hbelow => ?_, fun hF hT hfull hp => ?_, fun hF hT hfull hp => ?_⟩
    · rw [divide_all hF] at hx
      exact (becomes_of _ hx :)
    · rw [divide_none hF hT] at hx
      exact (becomes_of _ hx :)
    · rw [divide_free hF hT (freeSplit_some hn hfree hbelow)] at hx
      exact (becomes_of _ hx :)
    · rw [divide_parks hF hT (freeSplit_none hfull) hp] at hx
      exact (becomes_of _ hx :)
    · rw [divide_full hF hT (freeSplit_none hfull) hp] at hx
      exact hx
  refine ⟨hbranch (.brl w) (fun sp => maskOf sp w.md.toNat) rfl, hbranch (.brln w) (fun sp => ~~~maskOf sp w.md.toNat) rfl, ?_, ?_, ?_, ?_, ?_, ?_,
    mergeSplits_of_ne, fun i j a b m hij hj ha hb hl _ hne hm => mergeSplits_of_eq hij hj ha hb hl hne hm⟩
  · intro pre p post m' hg hp hpost hm
    have hj := exec_joinl (w := w) hu he
    rwa [joinl_handsOver hg hp hpost hm] at hj
  · intro hnone pre p post m' hg hp hpost hm
    have hj := exec_joinl (w := w) hu he
    rwa [joinl_takesBack hnone hg hp hpost hm] at hj
  · intro hnone
    have hj := exec_joinl (w := w) hu he
    rwa [joinl_passes hnone] at hj
  · intro hno
    refine ⟨?_, fun hall => ?_⟩
    · obtain ⟨g', t, hends, hx, hstep⟩ := endingSplit_ends hno e.id e.sp fun g => g
      exact ⟨g', t, hends, (exec_lret hu he).trans hx, hstep⟩
    · obtain ⟨g', t, hends, hx, hstep⟩ := endingSplit_ends hno e.id e.sp (withoutLanes gone)
      exact ⟨g', t, hends, (exec_exit hu he).trans ((if_pos hall).trans hx), hstep⟩
  · exact fun hsome => exec_exit_some hu he hsome
  · rintro pre d post hd hid hpre i (rfl | ⟨rfl, hall⟩)
    · exact (exec_lret hu he).trans (endingSplit_raises e.sp _ hd hid hpre)
    · exact (exec_exit hu he).trans ((if_pos hall).trans (endingSplit_raises e.sp _ hd hid hpre))

end

section
/-! SUPPORT. O48: memory completions, traps that another step raised, and the L1's own events. -/

open Sys2Proof.Claims

namespace Sys2Proof.Machine

set_option Elab.async false

/-! Delivery (R88, R122). -/

/-- The values of an operation stand in their registers: nothing but registers of the agent has changed. -/
structure Handed (ag : Agent) (ds : List Dest) (b t : State) : Prop where
  rest : t = { b with streams := t.streams, groups := t.groups }
  others : ∀ a, a ≠ ag → t.stream a = b.stream a ∧ t.group a = b.group a
  stream : t.stream ag = { b.stream ag with s := (t.stream ag).s, await := (t.stream ag).await }
  group : t.group ag = { b.group ag with v := (t.group ag).v }
  scalars : ∀ r, readS (t.stream ag) r = deliveredS ds r (readS (b.stream ag) r)
  lanes : ∀ r l, r < 256 → l < 32 → Vec.get (Vec.get (t.group ag).v r) l = deliveredV ds r l (Vec.get (Vec.get (b.group ag).v r) l)
  await : (t.stream ag).await = ds.foldl (fun a d => match d with | .s r _ => a.erase r.toNat | .v _ _ _ => a) (b.stream ag).await

theorem Handed.refl (ag : Agent) (b : State) : Handed ag [] b b :=
  ⟨rfl, fun _ _ => ⟨rfl, rfl⟩, rfl, rfl, fun _ => rfl, fun _ _ _ _ => rfl, rfl⟩

theorem stream_setGroup (s : State) (ag a : Agent) (x : Group) : (s.setGroup ag x).stream a = s.stream a := rfl
theorem group_setStream (s : State) (ag a : Agent) (x : Stream) : (s.setStream ag x).group a = s.group a := rfl

theorem readS_await (x : Stream) (l : List Nat) (r : SReg) : readS { x with await := l } r = readS x r := rfl

/-- A lane of a register after one lane has been written. -/
theorem get_setLane (g : Group) (q j r l : Nat) (v : Word32) (hr : r < 256) (hl : l < 32) :
    Vec.get (Vec.get (Vec.set g.v q (Vec.set (Vec.get g.v q) j v)) r) l = if q = r ∧ j = l then v else Vec.get (Vec.get g.v r) l := by
  by_cases hq : q = r
  · subst hq
    rw [Vec.get_set_self _ _ _ hr]
    by_cases hj : j = l
    · subst hj
      rw [Vec.get_set_self _ _ _ hl, if_pos ⟨rfl, rfl⟩]
    · rw [Vec.get_set_other _ _ hj, if_neg fun h => hj h.2]
  · rw [Vec.get_set_other _ _ hq, if_neg fun h => hq h.1]

theorem handed_deliverDest (ag : Agent) (d : Dest) (b : State) : Handed ag [d] b (deliverDest ag d b) := by
  cases d with
  | s q v =>
    refine ⟨rfl, fun a ha => ⟨stream_mapStream_other b _ ha, rfl⟩, ?_, rfl, fun r => ?_, fun _ _ _ _ => rfl, ?_⟩
    · simp only [deliverDest, stream_mapStream_self]
      rw [writeS_stream]
    · simp only [deliverDest, stream_mapStream_self, readS_await, readS_writeS, deliveredS, List.foldl_cons, List.foldl_nil]
      exact if_congr ⟨fun ⟨h, h0⟩ => ⟨h.symm, h ▸ h0⟩, fun ⟨h, h0⟩ => ⟨h.symm, h ▸ h0⟩⟩ rfl rfl
    · simp only [deliverDest, stream_mapStream_self]
      rfl
  | v q j v =>
    refine ⟨rfl, fun a ha => ⟨rfl, group_setGroup_other b _ ha⟩, rfl, ?_, fun _ => rfl, fun r l hr hl => ?_, rfl⟩
    · simp [deliverDest, mapGroup]
    · have hg : ((deliverDest ag (.v q j v) b).group ag).v = Vec.set (b.group ag).v q (Vec.set (Vec.get (b.group ag).v q) j v) := by
        simp [deliverDest, mapGroup]
      rw [hg, get_setLane _ _ _ _ _ _ hr hl]
      rfl

theorem Handed.cons {ag : Agent} {d : Dest} {ds : List Dest} {b u t : State} (h : Handed ag [d] b u) (k : Handed ag ds u t) :
    Handed ag (d :: ds) b t := by
  refine ⟨?_, fun a ha => ⟨(k.others a ha).1.trans (h.others a ha).1, (k.others a ha).2.trans (h.others a ha).2⟩, ?_, ?_,
    fun r => ?_, fun r l hr hl => ?_, ?_⟩
  · rw [k.rest, h.rest]
  · rw [k.stream, h.stream]
  · rw [k.group, h.group]
  · rw [k.scalars, h.scalars]
    rfl
  · rw [k.lanes r l hr hl, h.lanes r l hr hl]
    rfl
  · rw [k.await, h.await]
    rfl

theorem handed_seqAll (ag : Agent) (ds : List Dest) (b : State) : Handed ag ds b (seqAll (deliverDest ag) ds b) := by
  induction ds generalizing b with
  | nil => exact Handed.refl ag b
  | cons d ds ih => exact (handed_deliverDest ag d b).cons (ih _)

/-- What clears uncorrectable words of registers leaves of the state. -/
structure FewerBad (b t : State) : Prop where
  rest : t = { b with bad := t.bad }
  bad : ∀ w, w ∈ t.bad → w ∈ b.bad

theorem FewerBad.refl (b : State) : FewerBad b b := ⟨rfl, fun _ h => h⟩

theorem FewerBad.trans {b u t : State} (h : FewerBad b u) (k : FewerBad u t) : FewerBad b t :=
  ⟨by rw [k.rest, h.rest], fun w hw => h.bad w (k.bad w hw)⟩

theorem fewerBad_clearRegs (ag : Agent) (rs ls : List Nat) (b : State) : FewerBad b (clearRegs ag rs ls b) := by
  unfold clearRegs
  split
  · exact FewerBad.refl b
  · exact ⟨rfl, fun w hw => (List.mem_filter.mp hw).1⟩

theorem fewerBad_clearDelivered (ag : Agent) (ds : List Dest) (b : State) : FewerBad b (clearDelivered ag ds b) :=
  seqAll_keeps (FewerBad b) _ (fun r s h => h.trans (fewerBad_clearRegs ag [r] (destLanes ds r) s)) _ b (FewerBad.refl b)

/-- A delivery as the claims state it, and what it leaves. -/
structure DeliveredAlone (ag : Agent) (ds : List Dest) (b t : State) : Prop where
  delivered : Delivered ag ds b t
  rest : t = { b with streams := t.streams, groups := t.groups, bad := t.bad }
  bad : ∀ w, w ∈ t.bad → w ∈ b.bad
  others : ∀ a, a ≠ ag → t.stream a = b.stream a ∧ t.group a = b.group a
  stream : t.stream ag = { b.stream ag with s := (t.stream ag).s, await := (t.stream ag).await }

theorem deliveredAlone_deliverAll (ag : Agent) (ds : List Dest) (b : State) : DeliveredAlone ag ds b (deliverAll ag ds b) := by
  have h := handed_seqAll ag ds b
  unfold deliverAll
  generalize seqAll (deliverDest ag) ds b = u at h
  by_cases hd : destVregs ds = []
  · simp only [hd, if_true]
    refine ⟨⟨h.scalars, h.lanes, h.await, ?_, ?_⟩, ?_, fun w hw => ?_, h.others, h.stream⟩
    · rw [hd, h.group]
      rfl
    · rw [h.group]
    · exact h.rest.trans (by rw [h.rest])
    · rw [h.rest] at hw
      exact hw
  · simp only [if_neg hd]
    have hb := fewerBad_clearDelivered ag ds
      (mapGroup ag (fun g => { g with vawait := (destVregs ds).eraseDups.foldl (fun l r => l.erase r) g.vawait }) u)
    generalize clearDelivered ag ds _ = t at hb
    have hs (a : Agent) : t.stream a = u.stream a := by rw [hb.rest]; rfl
    have hg : t.group ag = { u.group ag with vawait := (destVregs ds).eraseDups.foldl (fun l r => l.erase r) (u.group ag).vawait } := by
      rw [hb.rest]
      exact group_setGroup_self u ag _
    have ho (a : Agent) (ha : a ≠ ag) : t.group a = u.group a := by
      rw [hb.rest]
      exact group_setGroup_other u _ ha
    refine ⟨⟨?_, ?_, ?_, ?_, ?_⟩, ?_, fun w hw => ?_, fun a ha => ⟨(hs a).trans (h.others a ha).1, (ho a ha).trans (h.others a ha).2⟩, ?_⟩
    · rw [hs]
      exact h.scalars
    · rw [hg]
      exact h.lanes
    · rw [hs]
      exact h.await
    · rw [hg, h.group]
    · rw [hg, h.group]
    · rw [hb.rest, h.rest]
      rfl
    · have := hb.bad w hw
      rw [h.rest] at this
      exact this
    · rw [hs]
      exact h.stream

theorem removeAt_eq_eraseIdx {α : Type} (l : List α) (k : Nat) : removeAt l k = l.eraseIdx k := by
  rw [removeAt, List.eraseIdx_eq_take_drop_succ]

/-! Annex homes (R288): writing them changes no stream and no group. -/

/-- No stream and no group changes. -/
structure SameAgents (b t : State) : Prop where
  streams : t.streams = b.streams
  groups : t.groups = b.groups

theorem SameAgents.trans {b u t : State} (h : SameAgents b u) (k : SameAgents u t) : SameAgents b t :=
  ⟨k.streams.trans h.streams, k.groups.trans h.groups⟩

theorem sameAgents_writeByte (mat : Under) (k : Nat) (v : Byte) (s : State) : SameAgents s (writeByte mat k v s) := by
  unfold writeByte adoptLine
  split
  · exact ⟨rfl, rfl⟩
  · split <;> exact ⟨rfl, rfl⟩

theorem sameAgents_annexPut (k n : Nat) (v : Byte) (s : State) : SameAgents s (annexPut k n v s) := by
  have hb : SameAgents s (annexByte k v s) := by
    unfold annexByte
    split
    · exact ⟨rfl, rfl⟩
    · exact sameAgents_writeByte _ _ _ _
  unfold annexPut
  dsimp only
  split
  · exact hb.trans ⟨rfl, rfl⟩
  · exact hb

theorem sameAgents_annexAck (homes : List HomeByte) (s : State) : SameAgents s (annexAck homes s) := by
  refine seqAll_keeps (SameAgents s) _ (fun h u hu => hu.trans ?_) _ s ⟨rfl, rfl⟩
  unfold annexAt
  split
  · exact ⟨rfl, rfl⟩
  · exact sameAgents_annexPut _ _ _ _

/-! Completions (R18, R88, R154). -/

section
variable {s : State} {ag : Agent} {k : Nat}

theorem exec_loadDataReturn {op : LoadOp} (ho : (s.stream ag).loads[k]? = some op) (hb : op.badKeys = []) :
    exec (.loadDataReturn ag k) s = .next (mapStream ag (fun x => { x with
      ld := x.ld - 1, loads := removeAt x.loads k, deferred := x.deferred ++ op.err.toList }) (deliverAll ag op.dests s)) := by
  change execLoadDataReturn ag k s = _
  unfold execLoadDataReturn
  rw [ho]
  dsimp only
  rw [hb]
  rfl

theorem loadDataReturn_delivers {op : LoadOp} (ho : (s.stream ag).loads[k]? = some op) (hb : op.badKeys = []) :
    ∃ t, exec (.loadDataReturn ag k) s = .next t ∧ Delivered ag op.dests s t ∧
      t = { s with streams := t.streams, groups := t.groups, bad := t.bad } ∧ (∀ a, a ≠ ag → t.stream a = s.stream a ∧ t.group a = s.group a) ∧
      (∀ w, w ∈ t.bad → w ∈ s.bad) ∧
      t.stream ag = { s.stream ag with
        s := (t.stream ag).s, await := (t.stream ag).await, ld := (s.stream ag).ld - 1,
        loads := (s.stream ag).loads.eraseIdx k, deferred := (s.stream ag).deferred ++ op.err.toList } := by
  refine ⟨_, exec_loadDataReturn ho hb, ?_⟩
  have h := deliveredAlone_deliverAll ag op.dests s
  generalize deliverAll ag op.dests s = u at h
  obtain ⟨⟨hsc, hla, haw, hva, hgr⟩, hrest, hbad, hoth, hstr⟩ := h
  refine ⟨⟨?_, hla, ?_, hva, hgr⟩, ?_, fun a ha => ⟨?_, (hoth a ha).2⟩, hbad, ?_⟩
  · rw [stream_mapStream_self]
    exact hsc
  · rw [stream_mapStream_self]
    exact haw
  · rw [mapStream, hrest]
    rfl
  · rw [stream_mapStream_other _ _ ha]
    exact (hoth a ha).1
  · rw [stream_mapStream_self, hstr, removeAt_eq_eraseIdx]

/-- The stream whose store `k` has been acknowledged. -/
def acknowledged (op : StoreOp) (k : Nat) (x : Stream) : Stream :=
  { x with st := if op.inSt then x.st - 1 else x.st, uw := if op.inUw then x.uw - 1 else x.uw, stores := x.stores.eraseIdx k }

theorem exec_storeAcknowledge {op : StoreOp} (ho : (s.stream ag).stores[k]? = some op) : exec (.storeAcknowledge ag k) s =
    if op.homes.all (fun h => ackReady s h.key) then
      .next (deliverAll ag op.dests (annexAck op.homes (s.setStream ag (acknowledged op k (s.stream ag)))))
    else .next s := by
  change execStoreAcknowledge ag k s = _
  unfold execStoreAcknowledge
  rw [ho]
  simp only [removeAt_eq_eraseIdx]
  by_cases h : op.homes.all (fun h => ackReady s h.key) = true
  · rw [if_pos h, if_neg (by simp [h])]
    rfl
  · rw [if_neg h, if_pos (by simp [h])]
    rfl

theorem storeAcknowledge_delivers {op : StoreOp} (ho : (s.stream ag).stores[k]? = some op) (hr : ∀ h, h ∈ op.homes → ackReady s h.key = true) :
    let b := annexAck op.homes (s.setStream ag (acknowledged op k (s.stream ag)))
    ∃ t, exec (.storeAcknowledge ag k) s = .next t ∧ Delivered ag op.dests b t ∧ t = { b with streams := t.streams, groups := t.groups, bad := t.bad } ∧
      (∀ w, w ∈ t.bad → w ∈ b.bad) ∧ (∀ a, a ≠ ag → t.stream a = s.stream a ∧ t.group a = s.group a) ∧
      t.stream ag = { acknowledged op k (s.stream ag) with s := (t.stream ag).s, await := (t.stream ag).await } := by
  intro b
  have h := deliveredAlone_deliverAll ag op.dests b
  have hb := sameAgents_annexAck op.homes (s.setStream ag (acknowledged op k (s.stream ag)))
  have hstream (a : Agent) : b.stream a = (s.setStream ag (acknowledged op k (s.stream ag))).stream a :=
    congrArg (fun x => Table.findD x a default) hb.streams
  have hgroup (a : Agent) : b.group a = s.group a := congrArg (fun x => Table.findD x a default) hb.groups
  refine ⟨_, (exec_storeAcknowledge ho).trans (if_pos (List.all_eq_true.mpr hr)), h.delivered, h.rest, h.bad, fun a ha => ⟨?_, ?_⟩, ?_⟩
  · rw [(h.others a ha).1, hstream, stream_setStream_other _ _ ha]
  · rw [(h.others a ha).2, hgroup]
  · have hx := h.stream
    rw [hstream, stream_setStream_self] at hx
    exact hx

theorem storeAcknowledge_waits {op : StoreOp} (ho : (s.stream ag).stores[k]? = some op) (hr : ∃ h, h ∈ op.homes ∧ ackReady s h.key = false) :
    exec (.storeAcknowledge ag k) s = .next s := by
  obtain ⟨h, hm, hf⟩ := hr
  refine (exec_storeAcknowledge ho).trans (if_neg fun ha => ?_)
  have := List.all_eq_true.mp ha h hm
  simp [hf] at this

/-! Traps that another step raised, and the classes that reach a control core (R342, R343, R347). -/

theorem exec_trapEntry {x : Trap} (hp : (s.stream ag).posted = some x) (hr : (s.stream ag).run = .running) :
    exec (.trapEntry ag) s = .next (takeTrap ag x false s) := by
  change execTrapEntry ag s = _
  unfold execTrapEntry
  rw [hp]
  dsimp only
  rw [if_pos hr]
  rfl

theorem causeWord_eq_cause (cls detail wslot split : Nat) : causeWord cls detail wslot split = cause cls detail wslot split := by
  refine BitVec.eq_of_toNat_eq ?_
  simp only [causeWord, cause, toNat_append_eq, BitVec.toNat_ofNat, show (0 : BitVec 4).toNat = 0 from rfl]
  omega

end

/-! Lines leave an L1 (R158, R308). -/

/-- A core without a line in its L1's clean and owned lines. -/
def withoutLine (line : Nat) (c : Core) : Core :=
  { c with clean := c.clean.filter (fun x => x.line != line), owned := c.owned.filter (· != line) }

theorem foldCoreLine_shadows (line : Nat) (k : Nat × Nat) (s : State) :
    ∀ sh, sh ∈ ((foldCoreLine line (k, s.core k) s).core k).shadows → sh.key / 128 ≠ line := by
  unfold foldCoreLine
  dsimp only
  split
  · next h =>
    intro sh hsh he
    exact absurd (List.mem_filter.mpr ⟨hsh, by simpa using he⟩) (h ▸ List.not_mem_nil)
  · intro sh hsh
    simp only [mapCore, State.core, State.setCore_cores, Table.findD_put_self] at hsh
    simpa using (List.mem_filter.mp hsh).2

theorem l1Holds_withoutLine_self {line : Nat} {c : Core} (h : ∀ sh, sh ∈ c.shadows → sh.key / 128 ≠ line) : l1Holds (withoutLine line c) line = false := by
  have hs : c.shadows.any (fun sh => sh.key / 128 == line) = false := List.any_eq_false.mpr fun sh hsh => by simpa using h sh hsh
  simp [l1Holds, withoutLine, List.any_filter, hs]

theorem l1Holds_withoutLine_other {line l : Nat} (c : Core) (h : l ≠ line) : l1Holds (withoutLine line c) l = l1Holds c l := by
  have hc : (c.clean.filter (fun x => x.line != line)).any (fun x => x.line == l) = c.clean.any (fun x => x.line == l) := by
    rw [List.any_filter]
    congr 1
    funext x
    by_cases hx : x.line = l <;> simp [hx, h]
  simp [l1Holds, withoutLine, hc, h]

section
variable {s : State} {p c line : Nat}

theorem core_setCore_self (s : State) (k : Nat × Nat) (x : Core) : (s.setCore k x).core k = x := by simp [State.core]

theorem core_setCore_other (s : State) {k j : Nat × Nat} (x : Core) (h : j ≠ k) : (s.setCore k x).core j = s.core j := by
  simp [State.core, Table.findD_put_other _ _ _ h]

theorem l1Eviction_leaves (h : l1Holds (s.core (p, c)) line = true) :
    let b := foldCoreLine line ((p, c), s.core (p, c)) s
    ∃ t, exec (.l1Eviction p c line) s = .next t ∧ t = { b with cores := t.cores } ∧ (∀ j, j ≠ (p, c) → t.core j = b.core j) ∧
      l1Holds (t.core (p, c)) line = false ∧ ∀ l, l ≠ line → l1Holds (t.core (p, c)) l = l1Holds (b.core (p, c)) l := by
  intro b
  refine ⟨mapCore (p, c) (withoutLine line) b, ?_, rfl, fun j hj => core_setCore_other b _ hj, ?_, fun l hl => ?_⟩
  · change execL1Eviction p c line s = _
    unfold execL1Eviction
    dsimp only
    rw [if_pos h]
    rfl
  · rw [mapCore, core_setCore_self]
    exact l1Holds_withoutLine_self (foldCoreLine_shadows line (p, c) s)
  · rw [mapCore, core_setCore_self]
    exact l1Holds_withoutLine_other _ hl

theorem l1LineExpire_leaves (h : (s.core (p, c)).clean.any (fun x => x.line == line) = true) :
    ∃ t, exec (.l1LineExpire p c line) s = .next t ∧ t = { s with cores := t.cores } ∧ (∀ j, j ≠ (p, c) → t.core j = s.core j) ∧
      t.core (p, c) = { s.core (p, c) with clean := (s.core (p, c)).clean.filter (fun x => x.line != line) } := by
  refine ⟨mapCore (p, c) (fun c => { c with clean := c.clean.filter (fun x => x.line != line) }) s, ?_, rfl,
    fun j hj => core_setCore_other s _ hj, core_setCore_self s _ _⟩
  change execL1LineExpire p c line s = _
  unfold execL1LineExpire
  dsimp only
  rw [if_pos h]
  rfl

/-! The classes that reach a control core (R342, R343, R347). -/

theorem pkg_setPkg_self (s : State) (p : Nat) (x : Package) : (s.setPkg p x).pkg p = x := by simp [State.pkg]

theorem pkg_setPkg_other (s : State) {p q : Nat} (x : Package) (h : q ≠ p) : (s.setPkg p x).pkg q = s.pkg q := by
  simp [State.pkg, Table.findD_put_other _ _ _ h]

theorem ctl_setCtl_self (s : State) (k : Nat × Nat) (x : Ctl) : (s.setCtl k x).ctl k = x := by simp [State.ctl]

theorem ctl_setCtl_other (s : State) {k j : Nat × Nat} (x : Ctl) (h : j ≠ k) : (s.setCtl k x).ctl j = s.ctl j := by
  simp [State.ctl, Table.findD_put_other _ _ _ h]

theorem ctlInterruptible_of {ag : Agent} (h : (s.stream ag).run = .running ∧ sysMode s ag = false ∨ (s.stream ag).run = .sleeping) :
    ctlInterruptible s ag = true := by
  unfold ctlInterruptible
  rcases h with ⟨hr, hm⟩ | hr
  · simp [hr, hm]
  · simp [hr]

theorem mapStream_rest (ag : Agent) (f : Stream → Stream) (s : State) : mapStream ag f s = { s with streams := (mapStream ag f s).streams } := rfl

theorem enterVector_rest (ag : Agent) (cls : Nat) (cw : Word32) (addr : Word64) (s : State) :
    enterVector ag cls cw addr s = { s with streams := (enterVector ag cls cw addr s).streams } := mapStream_rest _ _ _

theorem machineEvent_enters {e : MachineEvent} {r : List MachineEvent} (he : Table.find? (s.pkg p).machine (c / 8) = some (e :: r))
    (hc : dieCtl s p (c / 8) = some c) (hb : (s.pkg p).booted = true)
    (hr : (s.stream (.ctl p c)).run = .running ∧ sysMode s (.ctl p c) = false ∨ (s.stream (.ctl p c)).run = .sleeping) :
    ∃ t, exec (.machineEvent (.ctl p c)) s = .next t ∧ t = { s with streams := t.streams, pkgs := t.pkgs } ∧
      (∀ a, a ≠ .ctl p c → t.stream a = s.stream a) ∧
      t.stream (.ctl p c) = { s.stream (.ctl p c) with
        trappc := (s.stream (.ctl p c)).spc, trapcause := cause 15 e.number e.slot 15, trapaddr := e.addr,
        mode := (s.stream (.ctl p c)).mode ||| 1, half := none,
        kept := (s.stream (.ctl p c)).half.map (fun h => (h, (s.stream (.ctl p c)).spc)), posted := none, run := .running,
        spc := (s.ctl (p, c)).trapbase + 0xF00 } ∧
      Table.findD (t.pkg p).machine (c / 8) [] = r ∧ ∀ q, q ≠ p → t.pkg q = s.pkg q := by
  have hd : Table.findD (s.pkg p).machine (c / 8) [] = e :: r := by rw [Table.findD, he]; rfl
  let b := mapPkg p (fun x => { x with machine := Table.put x.machine (c / 8) r }) s
  refine ⟨mapStream (.ctl p c) (fun x => { x with run := .running }) (enterVector (.ctl p c) 15 (causeWord 15 e.number e.slot 15) e.addr b), ?_, ?_,
    fun a ha => ?_, ?_, ?_, fun q hq => pkg_setPkg_other s _ hq⟩
  · change execMachineEvent (.ctl p c) s = _
    unfold execMachineEvent
    dsimp only
    rw [hd]
    dsimp only
    rw [if_pos ⟨hc, hb, ctlInterruptible_of hr⟩]
    rfl
  · rw [mapStream_rest, enterVector_rest]
    rfl
  · rw [stream_mapStream_other _ _ ha, enterVector, stream_mapStream_other _ _ ha]
    rfl
  · rw [stream_mapStream_self, enterVector, stream_mapStream_self, causeWord_eq_cause]
    rfl
  · change Table.findD ((s.setPkg p _).pkg p).machine (c / 8) [] = r
    rw [pkg_setPkg_self]
    exact Table.findD_put_self _ _ _ _

theorem preemptTrap_enters (hw : (s.ctl (p, c)).wake = true) (hr : (s.stream (.ctl p c)).run = .running) (hm : sysMode s (.ctl p c) = false) :
    ∃ t, exec (.preemptTrap (.ctl p c)) s = .next t ∧ t = { s with streams := t.streams, ctls := t.ctls } ∧
      (∀ a, a ≠ .ctl p c → t.stream a = s.stream a) ∧
      t.stream (.ctl p c) = { s.stream (.ctl p c) with
        trappc := (s.stream (.ctl p c)).spc, trapcause := cause 14 0 0xFE 15, trapaddr := 0,
        mode := (s.stream (.ctl p c)).mode ||| 1, half := none,
        kept := (s.stream (.ctl p c)).half.map (fun h => (h, (s.stream (.ctl p c)).spc)), posted := none,
        spc := (s.ctl (p, c)).trapbase + 0xE00 } ∧
      t.ctl (p, c) = { s.ctl (p, c) with wake := false } ∧ ∀ j, j ≠ (p, c) → t.ctl j = s.ctl j := by
  let b := mapCtl (p, c) (fun c => { c with wake := false }) s
  refine ⟨enterVector (.ctl p c) 14 (causeWord 14 0 0xFE 15) 0 b, ?_, rfl, fun a ha => ?_, ?_, ctl_setCtl_self s _ _, fun j hj => ctl_setCtl_other s _ hj⟩
  · change execPreemptTrap (.ctl p c) s = _
    unfold execPreemptTrap
    dsimp only
    rw [if_pos ⟨hw, hr, hm⟩]
    rfl
  · rw [enterVector, stream_mapStream_other _ _ ha]
    rfl
  · rw [enterVector, stream_mapStream_self, causeWord_eq_cause]
    have hb : trapBaseOf b (.ctl p c) = (s.ctl (p, c)).trapbase :=
      (congrArg Ctl.trapbase (ctl_setCtl_self s (p, c) { s.ctl (p, c) with wake := false }) :)
    rw [hb]
    rfl

end

end Sys2Proof.Machine

open Sys2Proof Sys2Proof.Machine Sys2Proof.Claims

/-- Settles O48, event by event. -/
theorem completionsAndTrapEvents : Obligations.CompletionsAndTrapEvents := by
  intro s ag k p c line
  refine ⟨fun op => loadDataReturn_delivers, fun op ho => ⟨storeAcknowledge_delivers ho, storeAcknowledge_waits ho⟩, fun x => exec_trapEntry,
    ?_, ?_, l1Eviction_leaves, l1LineExpire_leaves⟩
  · rintro e r rfl he hc hb hr
    exact machineEvent_enters he hc hb hr
  · rintro rfl hw hr hm
    exact preemptTrap_enters hw hr hm

end

section
/-! SUPPORT. O51, its first part: the distributor's order, and which core a block fits (R329, R332). -/

open Sys2Proof.Claims

namespace Sys2Proof.Machine

set_option Elab.async false

/-! The order in which heads are served (R329). -/

/-- The place of a queue in the round-robin turn. -/
def turnOf (served q : Nat) : Nat := (q + 63 - served % 64) % 64

/-- One queue comes before another of the same priority: the child queue first, then in turn. -/
def BeforeInTurn (served a b : Nat) : Prop := b ≠ 64 ∧ (a = 64 ∨ turnOf served a < turnOf served b)

theorem turnOf_next (served i : Nat) (hi : i < 64) : turnOf served ((served + 1 + i) % 64) = i := by
  unfold turnOf
  omega

theorem pairwise_turns (served : Nat) : (64 :: (List.range 64).map (fun i => (served + 1 + i) % 64)).Pairwise (BeforeInTurn served) := by
  refine List.pairwise_cons.mpr ⟨fun b hb => ?_, List.pairwise_map.mpr ?_⟩
  · obtain ⟨i, -, rfl⟩ := List.mem_map.mp hb
    exact ⟨by omega, .inl rfl⟩
  · refine List.Pairwise.imp_of_mem ?_ (List.pairwise_lt_range (n := 64))
    intro i j hi hj hij
    have hi := List.mem_range.mp hi
    have hj := List.mem_range.mp hj
    exact ⟨by omega, .inr (by rwa [turnOf_next _ _ hi, turnOf_next _ _ hj])⟩

/-- The eligible queues, in turn. -/
def readyQueues (s : State) (p : Nat) : List Nat :=
  (64 :: (List.range 64).map (fun i => ((s.pkg p).served + 1 + i) % 64)).filter (fun q => (queueAt s p q).eligible)

theorem serveOrder_eq (s : State) (p : Nat) :
    serveOrder s p = [3, 2, 1, 0].flatMap (fun e => (readyQueues s p).filter (fun q => headPrio s (p, q) == e)) := rfl

section
variable {s : State} {p q r : Nat}

theorem precedes_asymm (hne : q ≠ r) (h : Precedes s p q r) (k : Precedes s p r q) : False := by
  unfold Precedes at h k
  dsimp only at h k
  generalize headPrio s (p, q) = a at h k
  generalize headPrio s (p, r) = b at h k
  omega

theorem mem_serveOrder : q ∈ serveOrder s p ↔ q ≤ 64 ∧ headPrio s (p, q) ≤ 3 ∧ (queueAt s p q).eligible = true := by
  have hq : q = 64 ∨ (∃ i, i < 64 ∧ ((s.pkg p).served + 1 + i) % 64 = q) ↔ q ≤ 64 := by
    constructor
    · rintro (h | ⟨i, -, h⟩) <;> omega
    · intro h
      rcases Nat.lt_or_eq_of_le h with h | h
      · exact .inr ⟨turnOf (s.pkg p).served q, Nat.mod_lt _ (by norm_num), by unfold turnOf; omega⟩
      · exact .inl h
  simp only [serveOrder_eq, readyQueues, List.mem_flatMap, List.mem_filter, List.mem_cons, List.mem_map, List.mem_range, List.not_mem_nil, or_false, beq_iff_eq]
  rw [← hq]
  constructor
  · rintro ⟨e, he, ⟨hm, hel⟩, hp⟩
    exact ⟨hm, by omega, hel⟩
  · rintro ⟨hm, hp, hel⟩
    exact ⟨_, by omega, ⟨hm, hel⟩, rfl⟩

theorem pairwise_serveOrder : (serveOrder s p).Pairwise (Precedes s p) := by
  rw [serveOrder_eq]
  refine List.pairwise_flatMap.mpr ⟨fun e _ => ?_, ?_⟩
  · refine List.Pairwise.imp_of_mem ?_ (((pairwise_turns (s.pkg p).served).filter _).filter _)
    intro a b ha hb hab
    have ha := (List.mem_filter.mp ha).2
    have hb := (List.mem_filter.mp hb).2
    simp only [beq_iff_eq] at ha hb
    refine .inr ⟨hb.trans ha.symm, ?_⟩
    rcases hab.2 with h | h
    · exact .inl h
    · exact .inr ⟨hab.1, h⟩
  · have hne (e f : Nat) (hef : f < e) : ∀ x, x ∈ (readyQueues s p).filter (fun q => headPrio s (p, q) == e) →
        ∀ y, y ∈ (readyQueues s p).filter (fun q => headPrio s (p, q) == f) → Precedes s p x y := by
      intro x hx y hy
      have hx := (List.mem_filter.mp hx).2
      have hy := (List.mem_filter.mp hy).2
      simp only [beq_iff_eq] at hx hy
      exact .inl (by omega)
    simp only [List.pairwise_cons, List.mem_cons, List.not_mem_nil, or_false, forall_eq_or_imp, forall_eq]
    exact ⟨⟨hne 3 2 (by omega), hne 3 1 (by omega), hne 3 0 (by omega)⟩, ⟨hne 2 1 (by omega), hne 2 0 (by omega)⟩, hne 1 0 (by omega), nofun, .nil⟩

/-- The head that leads is the distributor's choice. -/
theorem bestHead_of_leads (h : Leads s p q) : bestHead s p = some q := by
  obtain ⟨hq, hp, hel, hsv, hlead⟩ := h
  have hm : q ∈ serveOrder s p := mem_serveOrder.mpr ⟨hq, hp, hel⟩
  obtain ⟨x, hx⟩ : ∃ x, bestHead s p = some x := Option.isSome_iff_exists.mp (List.find?_isSome.mpr ⟨q, hm, hsv⟩)
  obtain ⟨hxs, as, bs, hl, has⟩ := List.find?_eq_some_iff_append.mp hx
  have hxm : x ∈ serveOrder s p := by rw [hl]; simp
  obtain ⟨hx64, -, hxel⟩ := mem_serveOrder.mp hxm
  rw [hx]
  by_contra hne
  have hxq : x ≠ q := fun e => hne (congrArg some e)
  have hqbs : q ∈ bs := by
    rw [hl] at hm
    rcases List.mem_append.mp hm with h | h
    · simpa [hsv] using has q h
    · exact (List.mem_cons.mp h).resolve_left (Ne.symm hxq)
  have hpw := pairwise_serveOrder (s := s) (p := p)
  rw [hl] at hpw
  exact precedes_asymm hxq ((List.pairwise_cons.mp (List.pairwise_append.mp hpw).2.1).1 q hqbs) (hlead x hx64 hxq hxel hxs)

theorem bestHead_none (h : ∀ r, r ≤ 64 → (queueAt s p r).eligible = true → servable s p r = false) : bestHead s p = none := by
  refine List.find?_eq_none.mpr fun x hx => ?_
  obtain ⟨hx64, -, hel⟩ := mem_serveOrder.mp hx
  simp [h x hx64 hel]

end

end Sys2Proof.Machine
end

section
/-! SUPPORT. O51, its second part: which cores a block fits, and the one it goes to (R332). -/

open Sys2Proof.Claims

namespace Sys2Proof.Machine

set_option Elab.async false

/-! The logical cores (R24, R380). -/

theorem clusterOfCore_of_mem {u c : Nat} (h : c ∈ clusterCores u) : clusterOfCore c = u := by
  simp only [clusterCores, List.mem_map, List.mem_range] at h
  obtain ⟨i, hi, rfl⟩ := h
  unfold clusterOfCore
  omega

/-- The number of an element among the first `n` of a list. -/
theorem findIdx?_of_mem_take {l : List Nat} {n x : Nat} (h : x ∈ l.take n) : ∃ i, l.findIdx? (· == x) = some i ∧ i < n := by
  obtain ⟨j, hj, hx⟩ := List.mem_iff_getElem.mp h
  have hjn : j < n ∧ j < l.length := by simpa using hj
  have hget : l[j] = x := by rw [← hx]; simp
  refine ⟨l.findIdx (· == x), List.findIdx?_eq_some_of_exists ⟨x, List.mem_of_mem_take h, by simp⟩, ?_⟩
  by_contra hge
  have := List.not_of_lt_findIdx (show j < l.findIdx (· == x) by omega)
  simp [hget] at this

theorem logicalCore_isSome {s : State} {p c : Nat} (h : c ∈ logicalCores s p) : (logicalCore (s.pkg p).muniment c).isSome := by
  obtain ⟨u, hu, hc⟩ := List.mem_flatMap.mp h
  obtain ⟨d, -, hud⟩ := List.mem_flatMap.mp hu
  have hcu : clusterOfCore c = u := clusterOfCore_of_mem (List.mem_filter.mp (List.mem_of_mem_take hc)).1
  have hd : u / 13 = d := by
    have := (List.mem_filter.mp (List.mem_of_mem_take hud)).1
    simp only [List.mem_map, List.mem_range] at this
    omega
  obtain ⟨i, hi, hi12⟩ := findIdx?_of_mem_take hud
  obtain ⟨j, hj, hj8⟩ := findIdx?_of_mem_take hc
  have hclu : logicalCluster (s.pkg p).muniment u = some (u / 13 * 12 + i) := by
    unfold logicalCluster
    rw [hd, hi]
    exact if_pos hi12
  unfold logicalCore
  rw [hcu, hclu, hj]
  simp [hj8]

/-! What fits beside the resident blocks (R332). -/

theorem foldl_add_eq_sum (l : List Nat) : l.foldl (· + ·) 0 = l.sum := by
  rw [List.sum_eq_foldl]

theorem unitsOf_eq (w : Word32) : unitsOf w = poolUnits w := by
  simp only [unitsOf, poolUnits, bits, BitVec.extractLsb'_toNat, Nat.shiftRight_eq_div_pow, List.range_succ, List.range_zero, List.nil_append,
    List.map_cons, List.map_nil, List.cons_append, List.foldl_cons, List.foldl_nil]
  norm_num
  omega

theorem held_iff (bs : List (Nat × Block)) (w : Nat) :
    (bs.map (·.2)).any (fun b => b.groups.any (fun a => waveOf a == w)) = true ↔ waveHeld bs w := by
  simp only [List.any_map, List.any_eq_true, Function.comp_apply, beq_iff_eq, waveHeld]
  exact ⟨fun ⟨b, hb, a, ha, hw⟩ => ⟨b, a, hb, ha, hw⟩, fun ⟨b, a, hb, ha, hw⟩ => ⟨b, hb, a, ha, hw⟩⟩

theorem mem_freeWaves {bs : List (Nat × Block)} {i w : Nat} (hi : i < 4) :
    w ∈ freeWaves (bs.map (·.2)) i ↔ w < 64 ∧ w % 4 = i ∧ ¬waveHeld bs w := by
  rw [freeWaves, List.mem_filter, Bool.not_eq_true', ← Bool.not_eq_true, held_iff, List.mem_map]
  constructor
  · rintro ⟨⟨j, hj, rfl⟩, hw⟩
    have := List.mem_range.mp hj
    exact ⟨by omega, by omega, hw⟩
  · rintro ⟨hw, hm, hf⟩
    exact ⟨⟨w / 4, List.mem_range.mpr (by omega), by omega⟩, hf⟩

theorem freeWaves_pairwise (bs : List Block) (i : Nat) : (freeWaves bs i).Pairwise (· < ·) := by
  refine (List.pairwise_map.mpr ?_).filter _
  exact List.pairwise_lt_range.imp fun h => by omega

theorem groupsOn_le_iff {bs : List (Nat × Block)} {i g : Nat} (hi : i < 4) : groupsOn g i ≤ (freeWaves (bs.map (·.2)) i).length ↔
    ∃ ws : List Nat, ws.Nodup ∧ (∀ w, w ∈ ws → w < 64 ∧ w % 4 = i ∧ ¬waveHeld bs w) ∧ ((List.range g).filter (· % 4 = i)).length ≤ ws.length := by
  have hg : groupsOn g i = ((List.range g).filter (· % 4 = i)).length := rfl
  rw [← hg]
  constructor
  · exact fun h => ⟨_, (freeWaves_pairwise _ i).imp Nat.ne_of_lt, fun w hw => (mem_freeWaves hi).mp hw, h⟩
  · rintro ⟨ws, hnd, hws, hle⟩
    exact hle.trans (hnd.subperm fun w hw => (mem_freeWaves hi).mpr (hws w hw)).length_le

theorem barsFree_iff {bs : List (Nat × Block)} {lo n : Nat} : barsFree bs lo n ↔
    lo < 49 - n ∧ (bs.map (·.2)).all (fun b => b.nbar == 0 || decide (b.barbase + b.nbar ≤ lo) || decide (lo + n ≤ b.barbase)) = true := by
  simp only [barsFree, List.all_map, List.all_eq_true, Function.comp_apply, Bool.or_eq_true, beq_iff_eq, decide_eq_true_eq, or_assoc]
  exact and_congr_left fun _ => by omega

theorem barsFree_of_some {bs : List (Nat × Block)} {n lo : Nat} (h : freeBarriers (bs.map (·.2)) n = some lo) : barsFree bs lo n := by
  unfold freeBarriers at h
  have hall := List.find?_some h
  exact barsFree_iff.mpr ⟨List.mem_range.mp (List.mem_of_find?_eq_some h), hall⟩

theorem freeBarriers_isSome {bs : List (Nat × Block)} {n : Nat} : (freeBarriers (bs.map (·.2)) n).isSome ↔ ∃ lo, barsFree bs lo n := by
  simp only [freeBarriers, List.find?_isSome, List.mem_range, barsFree_iff]

theorem coreOpen_iff {s : State} {p c q e : Nat} (hc : (logicalCore (s.pkg p).muniment c).isSome) : coreOpen s (p, c) q e = true ↔
    (s.core (p, c)).fenced = false ∧ ((s.core (p, c)).trapbase ≠ 0 ∧ (s.core (p, c)).sidebuf ≠ 0 ∧ (s.core (p, c)).savebase ≠ 0) ∧
      ∀ r, (s.core (p, c)).reserved = some r → r = (p, q) ∨ headPrio s r < e := by
  unfold coreOpen
  dsimp only
  cases (s.core (p, c)).reserved <;> simp [hc] <;> tauto

theorem fitsBeside_iff {bs : List (Nat × Block)} {l : Launch} : fitsBeside l (bs.map (·.2)) = true ↔
    (bs.map (fun b => poolUnits b.2.partw)).sum + poolUnits l.partw ≤ 128 ∧
    (∀ i, i < 4 → ∃ ws : List Nat, ws.Nodup ∧ (∀ w, w ∈ ws → w < 64 ∧ w % 4 = i ∧ ¬waveHeld bs w) ∧
      ((List.range l.groups).filter (· % 4 = i)).length ≤ ws.length) ∧ ∃ lo, barsFree bs lo l.nbar := by
  unfold fitsBeside
  rw [Bool.and_eq_true, Bool.and_eq_true, freeBarriers_isSome, decide_eq_true_eq, List.all_eq_true, foldl_add_eq_sum, List.map_map, and_assoc]
  have hsum : ((fun b => unitsOf b.partw) ∘ fun x : Nat × Block => x.2) = fun b => poolUnits b.2.partw := funext fun b => unitsOf_eq _
  rw [hsum, unitsOf_eq]
  refine and_congr_right fun _ => and_congr_left fun _ => forall_congr' fun i => ?_
  rw [List.mem_range]
  exact forall_congr' fun hi => by rw [decide_eq_true_eq, groupsOn_le_iff hi]

theorem fitsOn_iff {s : State} {l : Launch} {q c : Nat} : FitsOn s l q c ↔ c ∈ logicalCores s l.pkg ∧ fitsCore s l q (l.pkg, c) = true := by
  have himg : (!(imagesAt s (l.pkg, c)).any (fun b => decide (l.prio ≤ (s.launch b.2.launch).prio))) = true ↔
      ∀ b, b ∈ imagesAt s (l.pkg, c) → (s.launch b.2.launch).prio < l.prio := by
    simp [List.any_eq_false]
  unfold fitsCore
  rw [Bool.and_eq_true, Bool.and_eq_true, himg, fitsBeside_iff]
  constructor
  · rintro ⟨⟨hc, hf⟩, hb, hr, hu, hw, hbar, hi⟩
    exact ⟨hc, ⟨(coreOpen_iff (logicalCore_isSome hc)).mpr ⟨hf, hb, hr⟩, hu, hw, hbar⟩, hi⟩
  · rintro ⟨hc, ⟨ho, hu, hw, hbar⟩, hi⟩
    obtain ⟨hf, hb, hr⟩ := (coreOpen_iff (logicalCore_isSome hc)).mp ho
    exact ⟨⟨hc, hf⟩, hb, hr, hu, hw, hbar, hi⟩

/-! The core for a block (R332). -/

/-- Of the best core so far and the next, the one with fewer resident groups. -/
def fewerGroups (s : State) (p : Nat) (best : Option Nat) (c : Nat) : Option Nat :=
  match best with
  | none => some c
  | some b => if groupCount s (p, c) < groupCount s (p, b) then some c else some b

theorem foldl_fewerGroups (s : State) (p : Nat) (cs : List Nat) (b : Nat) : ∃ c, cs.foldl (fewerGroups s p) (some b) = some c ∧ (c = b ∨ c ∈ cs) ∧
    groupCount s (p, c) ≤ groupCount s (p, b) ∧ ∀ d, d ∈ cs → groupCount s (p, c) ≤ groupCount s (p, d) := by
  induction cs generalizing b with
  | nil => exact ⟨b, rfl, .inl rfl, le_rfl, nofun⟩
  | cons x cs ih =>
    rw [List.foldl_cons, fewerGroups]
    by_cases hx : groupCount s (p, x) < groupCount s (p, b)
    · obtain ⟨c, hc, hm, hle, hall⟩ := ih x
      rw [if_pos hx]
      refine ⟨c, hc, .inr (hm.elim (fun e => e ▸ List.mem_cons_self) (List.mem_cons_of_mem x)), by omega, fun d hd => ?_⟩
      rcases List.mem_cons.mp hd with rfl | hd
      · exact hle
      · exact hall d hd
    · obtain ⟨c, hc, hm, hle, hall⟩ := ih b
      rw [if_neg hx]
      refine ⟨c, hc, hm.imp_right (List.mem_cons_of_mem x), hle, fun d hd => ?_⟩
      rcases List.mem_cons.mp hd with rfl | hd
      · omega
      · exact hall d hd

theorem chooseCore_eq (s : State) (l : Launch) (q : Nat) :
    chooseCore s l q = ((logicalCores s l.pkg).filter (fun c => fitsCore s l q (l.pkg, c))).foldl (fewerGroups s l.pkg) none := rfl

theorem mem_fitting {s : State} {l : Launch} {q d : Nat} : d ∈ (logicalCores s l.pkg).filter (fun c => fitsCore s l q (l.pkg, c)) ↔ FitsOn s l q d :=
  List.mem_filter.trans fitsOn_iff.symm

theorem chooseCore_some {s : State} {l : Launch} {q c : Nat} (h : chooseCore s l q = some c) :
    FitsOn s l q c ∧ ∀ d, FitsOn s l q d → groupCount s (l.pkg, c) ≤ groupCount s (l.pkg, d) := by
  rw [chooseCore_eq] at h
  simp only [← mem_fitting]
  generalize (logicalCores s l.pkg).filter (fun c => fitsCore s l q (l.pkg, c)) = cs at h
  cases cs with
  | nil => contradiction
  | cons b cs =>
    obtain ⟨c', hc, hm, hle, hall⟩ := foldl_fewerGroups s l.pkg cs b
    cases hc.symm.trans h
    refine ⟨List.mem_cons.mpr hm, fun d hd => ?_⟩
    rcases List.mem_cons.mp hd with rfl | hd
    · exact hle
    · exact hall d hd

theorem chooseCore_none {s : State} {l : Launch} {q : Nat} (h : chooseCore s l q = none) (d : Nat) : ¬FitsOn s l q d := by
  rw [chooseCore_eq] at h
  rw [← mem_fitting]
  generalize (logicalCores s l.pkg).filter (fun c => fitsCore s l q (l.pkg, c)) = cs at h
  cases cs with
  | nil => exact List.not_mem_nil
  | cons b cs =>
    obtain ⟨c', hc, -⟩ := foldl_fewerGroups s l.pkg cs b
    cases hc.symm.trans h

end Sys2Proof.Machine
end

section
/-! SUPPORT. O51, its third part: a block is placed (R21, R22, R27, R28, R44, R333). -/

open Sys2Proof.Claims

namespace Sys2Proof.Machine

set_option Elab.async false

/-! The wave slots of a block (R333): group `g` takes the free slot of its issue slot whose number among them is `g / 4`. -/

section
variable {bs : List (Nat × Block)} {n : Nat}

theorem div_lt_groupsOn {n g : Nat} (hg : g < n) : g / 4 < groupsOn n (g % 4) := by
  have hnd : ((List.range (g / 4 + 1)).map (fun j => 4 * j + g % 4)).Nodup := by
    rw [List.nodup_map_iff_inj_on (List.nodup_range)]
    intro a _ b _ h
    omega
  have hsub : ((List.range (g / 4 + 1)).map (fun j => 4 * j + g % 4)).Subperm ((List.range n).filter (fun x => x % 4 == g % 4)) := by
    refine hnd.subperm fun x hx => ?_
    simp only [List.mem_map, List.mem_range] at hx
    obtain ⟨j, hj, rfl⟩ := hx
    simp only [List.mem_filter, List.mem_range, beq_iff_eq]
    omega
  have := hsub.length_le
  simp only [List.length_map, List.length_range] at this
  exact this

variable (hfit : ∀ i, i < 4 → groupsOn n i ≤ (freeWaves (bs.map (·.2)) i).length)
include hfit

theorem waveSlots_getElem? {i j : Nat} (hi : i < 4) (h : 4 * j + i < n) :
    j < (freeWaves (bs.map (·.2)) i).length ∧ (waveSlots (bs.map (·.2)) n)[4 * j + i]? = (freeWaves (bs.map (·.2)) i)[j]? := by
  have hm : (4 * j + i) % 4 = i := by omega
  have hd : (4 * j + i) / 4 = j := by omega
  have hlt := div_lt_groupsOn h
  rw [hm, hd] at hlt
  have hlt := hlt.trans_le (hfit i hi)
  refine ⟨hlt, ?_⟩
  simp [waveSlots, h, hm, hd, hlt]

theorem mem_waveSlots {g w : Nat} (hw : (waveSlots (bs.map (·.2)) n)[g]? = some w) :
    g < n ∧ w < 64 ∧ w % 4 = g % 4 ∧ ¬waveHeld bs w ∧ (freeWaves (bs.map (·.2)) (g % 4))[g / 4]? = some w := by
  have hg : g < n := by
    have := (List.getElem?_eq_some_iff.mp hw).1
    simpa [waveSlots] using this
  have he := (waveSlots_getElem? hfit (i := g % 4) (j := g / 4) (by omega) (by omega)).2
  rw [show 4 * (g / 4) + g % 4 = g by omega, hw] at he
  obtain ⟨h64, hmod, hfree⟩ := (mem_freeWaves (by omega)).mp (List.mem_of_getElem? he.symm)
  exact ⟨hg, h64, hmod, hfree, he.symm⟩

/-- Each slot is the lowest one that is left. -/
theorem waveSlots_lowest {g w v : Nat} (hw : (waveSlots (bs.map (·.2)) n)[g]? = some w) (hv : v < w) (hvm : v % 4 = g % 4) :
    waveHeld bs v ∨ ∃ h : Nat, h < g ∧ (waveSlots (bs.map (·.2)) n)[h]? = some v := by
  obtain ⟨hg, h64, -, -, he⟩ := mem_waveSlots hfit hw
  by_cases hheld : waveHeld bs v
  · exact .inl hheld
  obtain ⟨j, hj⟩ := List.mem_iff_getElem?.mp ((mem_freeWaves (bs := bs) (i := g % 4) (w := v) (by omega)).mpr ⟨by omega, hvm, hheld⟩)
  have hjg : j < g / 4 := by
    obtain ⟨hlt, hw'⟩ := List.getElem?_eq_some_iff.mp he
    obtain ⟨hjl, hv'⟩ := List.getElem?_eq_some_iff.mp hj
    by_contra hge
    rcases Nat.lt_or_eq_of_le (Nat.le_of_not_lt hge) with h | h
    · have := List.pairwise_iff_getElem.mp (freeWaves_pairwise (bs.map (·.2)) (g % 4)) _ _ hlt hjl h
      omega
    · subst h
      omega
  exact .inr ⟨4 * j + g % 4, by omega, (waveSlots_getElem? hfit (by omega) (by omega)).2.trans hj⟩

theorem waveSlots_nodup : (waveSlots (bs.map (·.2)) n).Nodup := by
  refine List.nodup_iff_getElem?_ne_getElem?.mpr fun g h hgh hh he => ?_
  obtain ⟨w, hw⟩ : ∃ w, (waveSlots (bs.map (·.2)) n)[h]? = some w := ⟨_, List.getElem?_eq_getElem hh⟩
  obtain ⟨-, -, hgm, -, hge⟩ := mem_waveSlots hfit (he.trans hw)
  obtain ⟨-, -, hhm, -, hhe⟩ := mem_waveSlots hfit hw
  have hm : g % 4 = h % 4 := hgm.symm.trans hhm
  rw [hm] at hge
  have := (List.getElem?_inj (List.getElem?_eq_some_iff.mp hge).1 ((freeWaves_pairwise _ _).imp Nat.ne_of_lt)).mp (hge.trans hhe.symm)
  omega

end

/-! The groups of a block (R27, R28, R333). -/

/-- Groups of a block have been placed: the pairs of `z` are their numbers and wave slots. -/
structure GroupsStand (l : Launch) (blk index : Nat) (k : Nat × Nat) (z : List (Nat × Nat)) (s u : State) : Prop where
  rest : u = { s with streams := u.streams, groups := u.groups, bad := u.bad }
  stand : ∀ g w, (g, w) ∈ z → u.stream (.group k.1 k.2 w) = groupStream l index g ∧
    ∃ slot, slot ≠ SlotSet.away ∧ u.group (.group k.1 k.2 w) = groupAtPlacement blk g slot
  others : ∀ a, (∀ w, w ∈ z.map (·.2) → a ≠ .group k.1 k.2 w) → u.stream a = s.stream a ∧ u.group a = s.group a

section
variable {l : Launch} {blk index : Nat} {k : Nat × Nat}

theorem entrySet_ne_away (s : State) (k : Nat × Nat) (w : Nat) : entrySet s k w ≠ .away := by
  unfold entrySet
  split <;> nofun

theorem groupsStand_placeGroup (x : Nat × Nat) (s : State) : GroupsStand l blk index k [x] s (placeGroup l blk index k x s) := by
  refine ⟨rfl, fun g w hm => ?_, fun a ha => ?_⟩
  · cases List.mem_singleton.mp hm
    exact ⟨by simp [placeGroup, State.stream], _, entrySet_ne_away _ _ _, group_setGroup_self _ _ _⟩
  · have hne : a ≠ .group k.1 k.2 x.2 := ha x.2 (by simp)
    refine ⟨?_, ?_⟩
    · simp [placeGroup, State.stream, Table.findD_put_other _ _ _ hne]
    · simp [placeGroup, State.group, Table.findD_put_other _ _ _ hne]

theorem GroupsStand.cons {x : Nat × Nat} {z : List (Nat × Nat)} {s u t : State} (h : GroupsStand l blk index k [x] s u)
    (hz : GroupsStand l blk index k z u t) (hx : x.2 ∉ z.map (·.2)) : GroupsStand l blk index k (x :: z) s t := by
  have hkeep : ∀ w, w ∈ z.map (·.2) → Agent.group k.1 k.2 x.2 ≠ .group k.1 k.2 w := by
    rintro w hw he
    injection he with h1 h2 h3
    exact hx (h3 ▸ hw)
  refine ⟨?_, fun g w hm => ?_, fun a ha => ?_⟩
  · rw [hz.rest, h.rest]
  · rcases List.mem_cons.mp hm with rfl | hm
    · obtain ⟨h1, h2⟩ := hz.others _ hkeep
      rw [h1, h2]
      exact h.stand _ _ List.mem_cons_self
    · exact hz.stand g w hm
  · obtain ⟨h1, h2⟩ := hz.others a fun w hw => ha w (List.mem_cons_of_mem _ hw)
    obtain ⟨h3, h4⟩ := h.others a fun w hw => ha w (by simp_all)
    exact ⟨h1.trans h3, h2.trans h4⟩

theorem groupsStand_seqAll (z : List (Nat × Nat)) (hz : (z.map (·.2)).Nodup) (s : State) :
    GroupsStand l blk index k z s (seqAll (placeGroup l blk index k) z s) := by
  induction z generalizing s with
  | nil => exact ⟨rfl, nofun, fun _ _ => ⟨rfl, rfl⟩⟩
  | cons x z ih =>
    obtain ⟨hx, hz⟩ := List.nodup_cons.mp hz
    exact (groupsStand_placeGroup x s).cons (ih hz _) hx

theorem Vec.get_replicate {α : Type} [Inhabited α] {n i : Nat} (a : α) (h : i < n) : Vec.get (Vector.replicate n a) i = a := by
  simp [Vec.get, h]

theorem Vec.get_outside {α : Type} [Inhabited α] {n i : Nat} (v : Vector α n) (h : n ≤ i) : Vec.get v i = default := by
  simp [Vec.get, h]

/-- Cleared lane registers read as zero, whatever the register and the lane. -/
theorem get_zeros (r l : Nat) : Vec.get (Vec.get (Vector.replicate 256 (Vector.replicate 32 (0 : Word32))) r) l = 0 := by
  have hz (l : Nat) : Vec.get (Vector.replicate 32 (0 : Word32)) l = 0 := by
    rcases Nat.lt_or_ge l 32 with h | h
    · exact Vec.get_replicate _ h
    · exact Vec.get_outside _ h
  rcases Nat.lt_or_ge r 256 with h | h
  · rw [Vec.get_replicate _ h, hz]
  · rw [Vec.get_outside _ h]
    exact hz l

theorem startsAt_groupStream (l : Launch) (index g : Nat) :
    StartsAt (groupStream l index g) l.scode l.param (BitVec.ofNat 64 index) (BitVec.ofNat 64 g) (if l.ord then 2 else 0) := by
  refine ⟨fun r => ?_, ⟨rfl, rfl, rfl, rfl, rfl, rfl⟩, rfl, rfl, rfl, rfl, rfl, rfl, rfl⟩
  have hne (i : BitVec 6) (h : r ≠ i) : i.toNat ≠ r.toNat := fun e => h (BitVec.eq_of_toNat_eq e.symm)
  simp only [readS, groupStream]
  by_cases h3 : r = 3
  · subst h3
    rfl
  by_cases h2 : r = 2
  · subst h2
    rfl
  by_cases h1 : r = 1
  · subst h1
    rfl
  rw [Vec.get_set_other _ _ (show 3 ≠ r.toNat from hne 3 h3), Vec.get_set_other _ _ (show 2 ≠ r.toNat from hne 2 h2), Vec.get_set_other _ _ (show 1 ≠ r.toNat from hne 1 h1), if_neg h1, if_neg h2, if_neg h3,
    Vec.get_replicate _ r.isLt]
  exact ite_self _

end

/-! The seeds of the converters (R44). -/

/-- The converters of the issue slots `is` that a block's groups use have been seeded. -/
structure Seeded (l : Launch) (k : Nat × Nat) (n : Nat) (is : List Nat) (s u : State) : Prop where
  rest : u = { s with cores := u.cores }
  others : ∀ j, j ≠ k → u.core j = s.core j
  core : u.core k = { s.core k with conv := (u.core k).conv }
  conv : ∀ i, i < 4 → Vec.get (u.core k).conv i =
    if i ∈ is ∧ groupsOn n i ≠ 0 then converterSeed l.srseed (logicalNum s k) i else Vec.get (s.core k).conv i

/-- Seeds the converter of one issue slot, where groups use it. -/
def seedSlot (l : Launch) (k : Nat × Nat) (n i : Nat) (s : State) : State :=
  if groupsOn n i = 0 then s else mapCore k (fun c => { c with conv := Vec.set c.conv i (converterSeed l.srseed (logicalNum s k) i) }) s

theorem seeded_seedSlot (l : Launch) (k : Nat × Nat) (n i : Nat) (s : State) : Seeded l k n [i] s (seedSlot l k n i s) := by
  unfold seedSlot
  split
  · next h =>
    refine ⟨rfl, fun _ _ => rfl, rfl, fun j _ => (if_neg ?_).symm⟩
    rintro ⟨hj, h0⟩
    exact h0 (List.mem_singleton.mp hj ▸ h)
  · next h =>
    refine ⟨rfl, fun j hj => core_setCore_other s _ hj, ?_, fun j hj => ?_⟩
    · rw [mapCore, core_setCore_self]
    · rw [mapCore, core_setCore_self]
      by_cases hji : j = i
      · subst hji
        rw [if_pos ⟨List.mem_singleton_self j, h⟩, Vec.get_set_self _ _ _ hj]
      · rw [if_neg fun hm => hji (List.mem_singleton.mp hm.1), Vec.get_set_other _ _ (Ne.symm hji)]

theorem Seeded.cons {l : Launch} {k : Nat × Nat} {n i : Nat} {is : List Nat} {s u t : State} (h : Seeded l k n [i] s u) (hs : Seeded l k n is u t) :
    Seeded l k n (i :: is) s t := by
  have hnum : logicalNum u k = logicalNum s k := by rw [h.rest]; rfl
  refine ⟨by rw [hs.rest, h.rest], fun j hj => (hs.others j hj).trans (h.others j hj), by rw [hs.core, h.core], fun j hj => ?_⟩
  rw [hs.conv j hj, h.conv j hj, hnum]
  simp only [List.mem_cons, List.not_mem_nil, or_false]
  split_ifs <;> tauto

theorem seeded_seedConverters (l : Launch) (k : Nat × Nat) (n : Nat) (s : State) :
    Seeded l k n (List.range 4) s (seedConverters l k n s) := by
  have h (is : List Nat) (s : State) : Seeded l k n is s (seqAll (seedSlot l k n) is s) := by
    induction is generalizing s with
    | nil => exact ⟨rfl, fun _ _ => rfl, rfl, fun _ _ => by simp [seqAll]⟩
    | cons i is ih => exact (seeded_seedSlot l k n i s).cons (ih _)
  exact h _ s

/-! Changes of a block and of a launch that are there. -/

section
variable {s : State} {b : Nat} {x : Block}

/-- A block of the state changes alone. -/
theorem mapBlock_of_find (h : Table.find? s.blocks b = some x) (f : Block → Block) :
    mapBlock b f s = { s with blocks := Table.put s.blocks b (f x) } := by
  unfold mapBlock Table.upd
  rw [h]
  rfl

theorem block_of_find (h : Table.find? s.blocks b = some x) : s.block b = x := by
  rw [State.block, Table.findD, h]
  rfl

theorem block_put_self (s : State) (b : Nat) (x : Block) : ({ s with blocks := Table.put s.blocks b x } : State).block b = x :=
  Table.findD_put_self _ _ _ _

theorem block_put_other (s : State) {b n : Nat} (x : Block) (h : n ≠ b) : ({ s with blocks := Table.put s.blocks b x } : State).block n = s.block n :=
  Table.findD_put_other _ _ _ h

theorem find?_setBlock (s : State) (b : Nat) (x : Block) : Table.find? (s.setBlock b x).blocks b = some x := by simp

theorem mapLaunch_of_isSome {id : Nat} (h : (Table.find? s.launches id).isSome) (f : Launch → Launch) :
    mapLaunch id f s = { s with launches := Table.put s.launches id (f (s.launch id)) } := by
  obtain ⟨l, hl⟩ := Option.isSome_iff_exists.mp h
  unfold mapLaunch Table.upd State.launch Table.findD
  rw [hl]
  rfl

end

/-! A block is placed (R333). -/

section
variable (id c : Nat) (s : State)

/-- The wave slots and the first barrier of the next block of a launch on a core. -/
def placedWaves : List Nat := waveSlots ((residents s ((s.launch id).pkg, c)).map (·.2)) (s.launch id).groups
def placedBar : Nat := (freeBarriers ((residents s ((s.launch id).pkg, c)).map (·.2)) (s.launch id).nbar).getD 0

/-- The record of the next block of a launch that takes no copy schedule. -/
def nextBlock : Block :=
  blockAtPlacement (s.launch id) id (nextIndex (s.launch id)) ((s.launch id).pkg, c) ((placedWaves id c s).map (Agent.group (s.launch id).pkg c))
    (placedBar id c s) []

/-- The state with the next block of a launch on a core, before its context areas are looked at. -/
def withNextBlock : State :=
  let l := s.launch id
  let s1 := { s with nextId := s.nextId + 1 }.setBlock s.nextId (nextBlock id c s)
  let s2 := mapLaunch id (fun l => { takeIndex l with last := Table.put l.last (nextIndex (s.launch id)) c, flushed := Table.del l.flushed (nextIndex (s.launch id)) }) s1
  let s3 := seedConverters l (l.pkg, c) l.groups s2
  let s4 := seqAll (placeGroup l s.nextId (nextIndex l) (l.pkg, c)) ((List.range l.groups).zip (placedWaves id c s)) s3
  mapBlock s.nextId (fun b => { b with empty := scheduleLines s4 s.nextId }) s4

variable {id c s}

theorem nextIndex_eq (l : Launch) : nextIndex l = indexOf l := by
  unfold nextIndex indexOf
  cases l.redo <;> rfl

theorem placeBlock_eq (hr : (s.launch id).rows = []) (hf : Table.find? (s.launch id).flushed (indexOf (s.launch id)) = none) :
    placeBlock id c s =
      let u := lockAreas s.nextId (withNextBlock id c s)
      if (u.core ((s.launch id).pkg, c)).fenced then .ok u else releaseDue s.nextId u := by
  have hb : blockSchedule (s.launch id) (nextIndex (s.launch id)) s = .ok ([], s) := by
    unfold blockSchedule
    rw [nextIndex_eq, hf, hr]
    rfl
  unfold placeBlock
  dsimp only
  rw [hb]
  rfl

theorem takeIndex_eq (l : Launch) : { takeIndex l with last := Table.put l.last (nextIndex l) c, flushed := Table.del l.flushed (nextIndex l) } = indexTaken l c := by
  unfold takeIndex indexTaken
  rw [nextIndex_eq]
  cases h : l.redo with
  | nil => simp
  | cons i r => simp

variable (id c s)

/-- The state once the block has its record and its launch counts it. -/
def blockCounted : State :=
  { s with
    nextId := s.nextId + 1, blocks := Table.put s.blocks s.nextId (nextBlock id c s), launches := Table.put s.launches id (indexTaken (s.launch id) c) }

variable {id c s}

theorem placedWaves_length : (placedWaves id c s).length = (s.launch id).groups := by simp [placedWaves, waveSlots]

theorem placedWaves_zip : ((List.range (s.launch id).groups).zip (placedWaves id c s)).map (·.2) = placedWaves id c s :=
  List.map_snd_zip (by rw [placedWaves_length, List.length_range])

/-- The steps of a placement that change other parts of the state: converters, then groups. -/
theorem withNextBlock_steps (hw : (placedWaves id c s).Nodup) (hl : (Table.find? s.launches id).isSome) : ∃ u,
    Seeded (s.launch id) ((s.launch id).pkg, c) (s.launch id).groups (List.range 4) (blockCounted id c s) u ∧
    GroupsStand (s.launch id) s.nextId (nextIndex (s.launch id)) ((s.launch id).pkg, c) ((List.range (s.launch id).groups).zip (placedWaves id c s)) u
      (withNextBlock id c s) := by
  have h2 : mapLaunch id (fun l => { takeIndex l with last := Table.put l.last (nextIndex (s.launch id)) c, flushed := Table.del l.flushed (nextIndex (s.launch id)) })
      ({ s with nextId := s.nextId + 1 }.setBlock s.nextId (nextBlock id c s)) = blockCounted id c s :=
    (mapLaunch_of_isSome (by exact hl) _).trans (by rw [blockCounted, ← takeIndex_eq]; rfl)
  refine ⟨_, seeded_seedConverters _ _ _ _, ?_⟩
  unfold withNextBlock
  dsimp only
  rw [h2]
  have hs := seeded_seedConverters (s.launch id) ((s.launch id).pkg, c) (s.launch id).groups (blockCounted id c s)
  generalize seedConverters _ _ _ (blockCounted id c s) = u at hs ⊢
  have hz : (((List.range (s.launch id).groups).zip (placedWaves id c s)).map (·.2)).Nodup := by
    rwa [placedWaves_zip]
  have hg := groupsStand_seqAll (l := s.launch id) (blk := s.nextId) (index := nextIndex (s.launch id)) (k := ((s.launch id).pkg, c)) _ hz u
  generalize seqAll (placeGroup (s.launch id) s.nextId (nextIndex (s.launch id)) ((s.launch id).pkg, c)) _ u = t at hg ⊢
  have hblocks : t.blocks = Table.put s.blocks s.nextId (nextBlock id c s) := by
    rw [hg.rest, hs.rest]
    rfl
  have hfind : Table.find? t.blocks s.nextId = some (nextBlock id c s) := by rw [hblocks]; simp
  have hlines : scheduleLines t s.nextId = [] := by
    rw [scheduleLines, block_of_find hfind]
    rfl
  rw [hlines, mapBlock_of_find hfind, hblocks, Table.put_put]
  have ht : { t with blocks := Table.put s.blocks s.nextId (nextBlock id c s) } = t := by rw [← hblocks]
  exact ht ▸ hg

theorem groupsOn_ne_zero {n i : Nat} : groupsOn n i ≠ 0 ↔ ∃ g, g < n ∧ g % 4 = i := by
  simp [groupsOn, List.length_eq_zero_iff, List.filter_eq_nil_iff]

theorem blockPlaced_withNextBlock (hl : (Table.find? s.launches id).isSome) {q : Nat} (hc : chooseCore s (s.launch id) q = some c) :
    BlockPlaced id s.nextId c (placedWaves id c s) (placedBar id c s) s (withNextBlock id c s) := by
  have hfit := (chooseCore_some hc).1
  have hfit4 : ∀ i, i < 4 → groupsOn (s.launch id).groups i ≤ (freeWaves ((residents s ((s.launch id).pkg, c)).map (·.2)) i).length :=
    fun i hi => (groupsOn_le_iff hi).mpr (hfit.waves i hi)
  have hzip {g w : Nat} (hw : (placedWaves id c s)[g]? = some w) : (g, w) ∈ (List.range (s.launch id).groups).zip (placedWaves id c s) := by
    have hg := (mem_waveSlots hfit4 hw).1
    exact List.mem_iff_getElem?.mpr ⟨g, by simp [List.getElem?_zip_eq_some, hw, hg]⟩
  obtain ⟨u, hs, hg⟩ := withNextBlock_steps (waveSlots_nodup hfit4) hl
  have hblock : (withNextBlock id c s).block s.nextId = nextBlock id c s := by
    rw [hg.rest, hs.rest]
    exact Table.findD_put_self _ _ _ _
  refine ⟨?_, rfl, ⟨placedWaves_length, fun g w hw => ?_⟩, ?_, ?_, fun n hn => ?_, ⟨?_, fun n hn => ?_⟩, fun g w hw => ?_, fun g w hw => ?_, fun a ha => ?_,
    fun i n hi hn => ?_, fun k hk => ?_⟩
  · rw [hg.rest, hs.rest]
    rfl
  · obtain ⟨-, h64, hm, hf, -⟩ := mem_waveSlots hfit4 hw
    exact ⟨h64, hm, hf, fun v hv hvm => waveSlots_lowest hfit4 hw hv hvm⟩
  · obtain ⟨lo, hlo⟩ := Option.isSome_iff_exists.mp (freeBarriers_isSome.mpr hfit.bars)
    rw [placedBar, hlo]
    exact barsFree_of_some hlo
  · simp only [hblock, nextBlock, blockAtPlacement, nextIndex_eq, and_self]
  · rw [hg.rest, hs.rest]
    exact block_put_other s _ hn
  · rw [hg.rest, hs.rest]
    exact Table.findD_put_self _ _ _ _
  · rw [hg.rest, hs.rest]
    exact Table.findD_put_other _ _ _ hn
  · have h := startsAt_groupStream (s.launch id) (nextIndex (s.launch id)) g
    rw [← (hg.stand g w (hzip hw)).1, nextIndex_eq] at h
    exact h
  · obtain ⟨slot, hslot, hgr⟩ := (hg.stand g w (hzip hw)).2
    rw [hgr]
    refine ⟨rfl, rfl, rfl, rfl, fun n hn => Vec.get_replicate _ hn, rfl, rfl, fun n hn => Vec.get_replicate _ hn, fun r l => ?_, rfl, rfl, hslot⟩
    exact get_zeros r l
  · obtain ⟨h1, h2⟩ := hg.others a fun w hw => ha w (placedWaves_zip (id := id) (c := c) (s := s) ▸ hw)
    rw [h1, h2, hs.rest]
    exact ⟨rfl, rfl⟩
  · have hcore : (withNextBlock id c s).core ((s.launch id).pkg, c) = u.core ((s.launch id).pkg, c) := by rw [hg.rest]; rfl
    rw [hcore, hs.conv i hi]
    have hnum : logicalNum (blockCounted id c s) ((s.launch id).pkg, c) = n := by
      change (logicalCore (s.pkg (s.launch id).pkg).muniment c).getD 0xFFFF = n
      rw [hn]
      rfl
    rw [hnum]
    refine if_congr ?_ rfl rfl
    rw [groupsOn_ne_zero, List.mem_range]
    exact and_iff_right hi
  · have hcore : (withNextBlock id c s).core k = u.core k := by rw [hg.rest]; rfl
    rw [hcore, hs.others k hk]
    rfl

end

end Sys2Proof.Machine
end

section
/-! SUPPORT. O51, its fourth part: after a placement (R329, R331), and a core that MACHINE fences (R342). -/

open Sys2Proof.Claims

namespace Sys2Proof.Machine

set_option Elab.async false

/-! A queue's head after a placement. -/

theorem Vec.set_set {α : Type} {n : Nat} (v : Vector α n) (i : Nat) (x y : α) : Vec.set (Vec.set v i x) i y = Vec.set v i y := by
  simp [Vec.set]

section
variable {p q : Nat}

theorem mapLaunchQ_eq (f : LaunchQ → LaunchQ) (s : State) : mapLaunchQ p q f s = withQueue p q (f (queueAt s p q)) s := by
  unfold mapLaunchQ withQueue queueAt mapPkg
  split <;> rfl

theorem noteQueue_eq (s : State) : noteQueue p q s = servedBy p q s := rfl

/-- A package whose queue `q` is `x` and was served last. -/
def servedPackage (q : Nat) (x : LaunchQ) (a : Package) : Package :=
  { (if q < 64 then { a with queues := Vec.set a.queues q x } else { a with child := x }) with served := if q < 64 then q else a.served }

theorem servedBy_withQueue (x : LaunchQ) (s : State) :
    servedBy p q (withQueue p q x s) = { s with pkgs := Table.put s.pkgs p (servedPackage q x (s.pkg p)) } := by
  unfold servedBy withQueue
  rw [pkg_setPkg_self]
  unfold servedPackage State.setPkg
  dsimp only
  rw [Table.put_put]
  split <;> rfl

/-- The queue's own state replaced once more, in a package that was served. -/
theorem servedPackage_twice (x y : LaunchQ) (a : Package) :
    (if q < 64 then { servedPackage q x a with queues := Vec.set (servedPackage q x a).queues q y } else { servedPackage q x a with child := y }) =
      servedPackage q y a := by
  unfold servedPackage
  split
  · simp [Vec.set_set]
  · simp

theorem queue_servedPackage (x : LaunchQ) (a : Package) : (if q < 64 then Vec.get (servedPackage q x a).queues q else (servedPackage q x a).child) = x := by
  unfold servedPackage
  split
  · next h => exact Vec.get_set_self _ _ _ h
  · rfl

/-! What was held for a head is free (R331). -/

theorem find?_map_values {κ ν : Type} [DecidableEq κ] (f : ν → ν) (t : Table κ ν) (k : κ) :
    Table.find? (t.map (fun c => (c.1, f c.2))) k = (Table.find? t k).map f := by
  induction t with
  | nil => rfl
  | cons x t ih =>
    obtain ⟨k', v⟩ := x
    rw [List.map_cons, Table.find?, Table.find?, ih]
    split <;> rfl

/-- A core without what was held for a head. -/
def released (p q : Nat) (c : Core) : Core := if c.reserved = some (p, q) then { c with reserved := none } else c

theorem released_released (p q : Nat) (c : Core) : released p q (released p q c) = released p q c := by
  by_cases h : c.reserved = some (p, q)
  · simp [released, h]
  · simp only [released, if_neg h]

theorem core_unreserve (s : State) (k : Nat × Nat) : (unreserve p q s).core k = released p q (s.core k) := by
  have h : (unreserve p q s).cores = s.cores.map (fun c => (c.1, released p q c.2)) := rfl
  rw [State.core, Table.findD, h, find?_map_values, State.core, Table.findD]
  cases Table.find? s.cores k <;> rfl

theorem pkg_of_put {s : State} {P : Table Nat Package} {a : Package} (h : s.pkgs = Table.put P p a) : s.pkg p = a := by
  rw [State.pkg, h, Table.findD_put_self]

/-- The head leaves a queue that has just been served. -/
theorem popHead_served (x : LaunchQ) (b : State) : popHead p q (unreserve p q (servedBy p q (withQueue p q x b))) =
    unreserve p q (unreserve p q (servedBy p q (withQueue p q { x with items := x.items.drop 1, eligible := false, chosen := false, unplaced := 0 } b))) := by
  obtain ⟨t, ht⟩ : ∃ t, t = unreserve p q (servedBy p q (withQueue p q x b)) := ⟨_, rfl⟩
  have hpkgs : t.pkgs = Table.put b.pkgs p (servedPackage q x (b.pkg p)) := by
    rw [ht, servedBy_withQueue]
    rfl
  have hq : queueAt t p q = x := by
    unfold queueAt
    rw [pkg_of_put hpkgs]
    exact queue_servedPackage x (b.pkg p)
  rw [popHead, ← ht, mapLaunchQ_eq, hq]
  congr 1
  rw [servedBy_withQueue]
  unfold withQueue
  rw [pkg_of_put hpkgs, servedPackage_twice, State.setPkg, hpkgs, Table.put_put, ht, servedBy_withQueue]
  rfl

theorem headPlaced_afterPlace (id : Nat) (b : State) : HeadPlaced p q id b (afterPlace p q id b) := by
  obtain ⟨x, hx⟩ : ∃ x, x = { queueAt b p q with chosen := false, unplaced := 0 } := ⟨_, rfl⟩
  have h1 : afterPlace p q id b =
      let t := unreserve p q (servedBy p q (withQueue p q x b))
      if allPlaced (b.launch id) then popHead p q t else t := by
    unfold afterPlace
    rw [mapLaunchQ_eq, noteQueue_eq, ← hx]
    rfl
  have hdone : allPlaced (b.launch id) = true ↔ (b.launch id).redo = [] ∧ (b.launch id).count ≤ (b.launch id).next := by
    simp [allPlaced]
  by_cases hd : allPlaced (b.launch id) = true
  · rw [if_pos hd, popHead_served] at h1
    rw [h1]
    refine ⟨fun k => ?_, fun h => absurd (hdone.mp hd) h, fun _ => by rw [hx]; rfl⟩
    rw [core_unreserve, core_unreserve, servedBy_withQueue, released_released]
    rfl
  · rw [if_neg hd] at h1
    rw [h1]
    refine ⟨fun k => ?_, fun _ => by rw [hx]; rfl, fun h => absurd (hdone.mpr h) hd⟩
    rw [core_unreserve, servedBy_withQueue]
    rfl

end

end Sys2Proof.Machine
end

section
/-! SUPPORT. O51, its fifth part: a core that MACHINE has fenced stays fenced (R342, R379). -/

open Sys2Proof.Claims

namespace Sys2Proof.Machine

set_option Elab.async false

/-- The same cores are fenced. -/
def SameFences (s t : State) : Prop := ∀ k, (t.core k).fenced = (s.core k).fenced

theorem SameFences.refl (s : State) : SameFences s s := fun _ => rfl

theorem SameFences.trans {s u t : State} (h : SameFences s u) (k : SameFences u t) : SameFences s t := fun j => (k j).trans (h j)

theorem SameFences.of_cores {s t : State} (h : t.cores = s.cores) : SameFences s t := fun _ => by simp only [State.core, h]

theorem SameFences.seqAll {α : Type} {f : α → State → State} (hf : ∀ a s, SameFences s (f a s)) (l : List α) (s : State) : SameFences s (seqAll f l s) :=
  seqAll_keeps (SameFences s) f (fun a u h => h.trans (hf a u)) l s (SameFences.refl s)

theorem sameFences_mapCore (k : Nat × Nat) {f : Core → Core} (hf : ∀ c, (f c).fenced = c.fenced) (s : State) : SameFences s (mapCore k f s) := by
  intro j
  by_cases hj : j = k
  · subst hj
    rw [mapCore, core_setCore_self, hf]
  · rw [mapCore, core_setCore_other _ _ hj]

/-! Writes to memory, with the folds before them (R158). -/

theorem cores_writeByte (mat : Under) (k : Nat) (v : Byte) (s : State) : (writeByte mat k v s).cores = s.cores := by
  unfold writeByte adoptLine
  split
  · rfl
  · split <;> rfl

theorem sameFences_writeByte (mat : Under) (k : Nat) (v : Byte) (s : State) : SameFences s (writeByte mat k v s) := .of_cores (cores_writeByte mat k v s)

theorem sameFences_writeRange (mat : Under) (bs : List Byte) (k : Nat) (s : State) : SameFences s (writeRange mat k bs s) := by
  induction bs generalizing k s with
  | nil => exact .refl s
  | cons b bs ih => exact (sameFences_writeByte mat k b s).trans (ih _ _)

theorem sameFences_annexPut (k n : Nat) (v : Byte) (s : State) : SameFences s (annexPut k n v s) := by
  have hb : SameFences s (annexByte k v s) := by
    unfold annexByte
    split
    · exact .refl s
    · exact sameFences_writeByte _ _ _ _
  unfold annexPut
  dsimp only
  split
  · exact hb.trans (.of_cores rfl)
  · exact hb

theorem sameFences_annexCopy (homes : List Nat) (s : State) : SameFences s (annexCopy homes s) := .seqAll (fun _ _ => sameFences_annexPut _ _ _ _) homes s

theorem sameFences_foldShadow (sh : Shadow) (s : State) : SameFences s (foldShadow sh s) :=
  ((sameFences_writeRange _ _ _ _).trans (.of_cores rfl)).trans (sameFences_annexCopy _ _)

theorem sameFences_foldCoreLine (line : Nat) (c : (Nat × Nat) × Core) (s : State) : SameFences s (foldCoreLine line c s) := by
  unfold foldCoreLine
  dsimp only
  split
  · exact .refl s
  · refine (SameFences.seqAll sameFences_foldShadow _ s).trans (sameFences_mapCore _ (fun _ => ?_) _)
    rfl

theorem sameFences_foldKeys (ks : List Nat) (s : State) : SameFences s (foldKeys ks s) :=
  .seqAll (fun _ s => .seqAll (sameFences_foldCoreLine _) s.cores s) _ s

theorem sameFences_mapBlock (b : Nat) (f : Block → Block) (s : State) : SameFences s (mapBlock b f s) := .of_cores rfl

theorem sameFences_applyPut (blk : Option Nat) (p : Put) (s : State) : SameFences s (applyPut blk p s) := by
  unfold applyPut
  split
  · exact sameFences_writeByte _ _ _ _
  · split
    · exact sameFences_mapBlock _ _ _
    · exact .refl s

theorem sameFences_noteStale (before : State) (w : Nat) (s : State) : SameFences s (noteStale before w s) := by
  unfold noteStale
  split
  · exact .of_cores rfl
  · exact .refl s

theorem sameFences_applyPuts (blk : Option Nat) (ps : List Put) (s : State) : SameFences s (applyPuts blk ps s) :=
  (((sameFences_foldKeys _ s).trans (.seqAll (sameFences_applyPut blk) ps _)).trans (.seqAll (sameFences_noteStale _) _ _)).trans (.of_cores rfl)

theorem sameFences_writeCtl (pkg off : Nat) (bs : List Byte) (s : State) : SameFences s (writeCtl pkg off bs s) :=
  (sameFences_applyPuts _ _ s).trans (sameFences_annexCopy _ _)

theorem sameFences_queueFault (pkg : Nat) (u : FaultUnit) (s : State) : SameFences s (queueFault pkg u s) := by
  unfold queueFault
  split
  · exact .refl s
  · refine SameFences.trans (u := mapPkg pkg (fun p => { p with faults := p.faults ++ [u] }) s) (.of_cores rfl) ?_
    exact ((sameFences_writeCtl _ _ _ _).trans (sameFences_writeCtl _ _ _ _)).trans (sameFences_writeCtl _ _ _ _)

/-! The end of the blocks of a fenced core (R349, R364). -/

theorem sameFences_stuckBarriers (blk : Nat) (s : State) : SameFences s (stuckBarriers blk s) := by
  refine .seqAll (fun e s => ?_) _ s
  split
  · refine .seqAll (fun a s => ?_) _ s
    split
    · exact .of_cores rfl
    · exact .refl s
  · exact .refl s

theorem sameFences_endGroup (ag : Agent) (s : State) : SameFences s (endGroup ag s) := by
  unfold endGroup
  exact SameFences.trans (.of_cores rfl) (sameFences_stuckBarriers _ _)

theorem sameFences_killBlock (st : Word16) (how : Run) (blk : Nat) (s : State) : SameFences s (killBlock st how blk s) := by
  refine SameFences.trans (u := failBlock blk st s) (.of_cores rfl) ?_
  unfold killBlock
  dsimp only
  split
  · exact .of_cores rfl
  · refine .seqAll (fun a s => ?_) _ _
    split
    · exact .refl s
    · exact (sameFences_endGroup a s).trans (.of_cores rfl)

theorem sameFences_killGang (k : Nat × Nat) (blk : Nat) (s : State) : SameFences s (killGang k blk s) := by
  unfold killGang
  dsimp only
  refine SameFences.trans ?_ (.seqAll (fun b s => sameFences_killBlock _ _ b s) _ _)
  split
  · split
    · exact .refl s
    · exact .of_cores rfl
  · exact .refl s

theorem sameFences_inTurn (images : List Nat) (s : State) : SameFences s (inTurn images s) := by
  induction images generalizing s with
  | nil => exact .refl s
  | cons b r ih => exact (SameFences.seqAll (fun n s => sameFences_mapBlock n _ s) r s).trans (ih _)

theorem fenced_fenceCore (k : Nat × Nat) (s : State) : ((fenceCore k s).core k).fenced = true := by
  unfold fenceCore
  split
  · next h => exact h
  · refine (SameFences.trans (sameFences_inTurn _ _) (.seqAll (sameFences_killGang k) _ _) k).trans ?_
    rw [mapCore, core_setCore_self]

/-- MACHINE leaves its core fenced (R342). -/
theorem fenced_machineCore (k : Nat × Nat) (wslot : Nat) (addr : Word64) (s : State) : ((machineCore k wslot addr s).core k).fenced = true := by
  unfold machineCore
  split
  · next h => exact h
  · exact (sameFences_queueFault _ _ _ k).trans (fenced_fenceCore k _)

end Sys2Proof.Machine
end

section
/-! SUPPORT. O51, its sixth part: what the records of blocks do not bear on; the locks of context areas (R357), and the theorem. -/

open Sys2Proof.Claims

namespace Sys2Proof.Machine

set_option Elab.async false

/-! The place of an address does not depend on the records of the blocks. -/

/-- A state with other blocks. -/
def withBlocks (B : Table Nat Block) (s : State) : State := { s with blocks := B }

theorem seqAll_comm {α σ : Type} {f : α → σ → σ} {g : σ → σ} (h : ∀ a s, f a (g s) = g (f a s)) (l : List α) (s : σ) :
    seqAll f l (g s) = g (seqAll f l s) := by
  induction l generalizing s with
  | nil => rfl
  | cons a l ih => rw [seqAll, seqAll, h, ih]

section
variable (B : Table Nat Block)

theorem readRange_withBlocks (s : State) (mat : Under) (k n : Nat) : readRange (withBlocks B s) mat k n = readRange s mat k n := by
  induction n generalizing k with
  | zero => rfl
  | succ n ih => rw [readRange, readRange, ih, readByte_congr (s := s) (t := withBlocks B s) rfl rfl rfl]

theorem adoptLine_withBlocks (mat : Under) (line : Nat) (s : State) : adoptLine mat line (withBlocks B s) = withBlocks B (adoptLine mat line s) := by
  have hh : heldUnder (withBlocks B s) mat line = heldUnder s mat line := rfl
  have ht : tweakOf (withBlocks B s) line = tweakOf s line := rfl
  have hp : (withBlocks B s).pkg = s.pkg := rfl
  unfold adoptLine
  rw [readRange_withBlocks, hh, ht, hp]
  generalize readRange s mat (line * 128) 128 = bs
  split <;> rfl

theorem writeByte_withBlocks (mat : Under) (k : Nat) (v : Byte) (s : State) : writeByte mat k v (withBlocks B s) = withBlocks B (writeByte mat k v s) := by
  have hg : goHeld (withBlocks B s) k = goHeld s k := rfl
  unfold writeByte
  rw [adoptLine_withBlocks, hg]
  split <;> rfl

theorem writeRange_withBlocks (mat : Under) (bs : List Byte) (k : Nat) (s : State) :
    writeRange mat k bs (withBlocks B s) = withBlocks B (writeRange mat k bs s) := by
  induction bs generalizing k s with
  | nil => rfl
  | cons b bs ih => rw [writeRange, writeRange, writeByte_withBlocks, ih]

theorem annexPut_withBlocks (k n : Nat) (v : Byte) (s : State) : annexPut k n v (withBlocks B s) = withBlocks B (annexPut k n v s) := by
  have hb : annexByte k v (withBlocks B s) = withBlocks B (annexByte k v s) := by
    unfold annexByte mirrorValue
    rw [writeByte_withBlocks]
    change (if (!pkgUp s (keyPkg k) || (s.pkg (keyPkg k)).unmirrored) = true then _ else _) = _
    split <;> rfl
  unfold annexPut
  rw [hb]
  change (if annexDue k n (annexByte k v s) then _ else _) = _
  dsimp only
  split <;> rfl

theorem settleWords_withBlocks (blk : Option Nat) (ls : List Loc) (s : State) :
    settleWords blk ls (withBlocks B s) = withBlocks B (settleWords blk ls s) := rfl

theorem foldShadow_withBlocks (sh : Shadow) (s : State) : foldShadow sh (withBlocks B s) = withBlocks B (foldShadow sh s) := by
  unfold foldShadow annexCopy
  dsimp only
  rw [writeRange_withBlocks, settleWords_withBlocks]
  exact seqAll_comm (f := fun k s => annexPut k s.serial (s.mem.read k) s) (g := withBlocks B)
    (fun k s => annexPut_withBlocks B k s.serial (s.mem.read k) s) _ _

theorem foldCoreLine_withBlocks (line : Nat) (c : (Nat × Nat) × Core) (s : State) :
    foldCoreLine line c (withBlocks B s) = withBlocks B (foldCoreLine line c s) := by
  unfold foldCoreLine
  dsimp only
  rw [seqAll_comm (foldShadow_withBlocks B)]
  split <;> rfl

theorem foldLine_withBlocks (line : Nat) (s : State) : foldLine line (withBlocks B s) = withBlocks B (foldLine line s) :=
  seqAll_comm (foldCoreLine_withBlocks B line) s.cores s

theorem walkEntry_withBlocks (s : State) (pkg asid : Nat) (va : Word64) (control : Bool) (lv : Level) (k : Nat) :
    walkEntry (withBlocks B s) pkg asid va control lv k = walkEntry s pkg asid va control lv k := by
  unfold walkEntry
  rw [foldLine_withBlocks, readRange_withBlocks]
  rfl

theorem walkFrom_withBlocks (s : State) (pkg asid : Nat) (va : Word64) (control : Bool) (lvs : List Level) (t : Nat) :
    walkFrom (withBlocks B s) pkg asid va control lvs t = walkFrom s pkg asid va control lvs t := by
  induction lvs generalizing t with
  | nil => rfl
  | cons lv r ih =>
    unfold walkFrom
    simp only [walkEntry_withBlocks, ih]
    rfl

theorem lockedPlace_withBlocks (s : State) (c : Ctx) (ls : List (Nat × Page)) (w : Bool) (va : Word64) :
    lockedPlace (withBlocks B s) c ls w va = lockedPlace s c ls w va := by
  have hw : walk (withBlocks B s) c va true = walk s c va true := walkFrom_withBlocks B s _ _ _ _ _ _
  unfold lockedPlace translate
  rw [hw]
  rfl

end

/-! The locks of a block's context areas (R357). -/

/-- An address whose translation raises a trap. -/
def isTrapped (r : Except Stop Place) : Bool := match r with | .error (.trap _) => true | _ => false

/-- What the address of a context area of block `blk` translates to. -/
def lockPlace (blk : Nat) (s : State) (a : Agent × Word64) : Except Stop Place := lockedPlace s (blockCtx s blk a.1) [] true a.2

/-- The pages that a list of areas translates by. -/
def areaPages (blk : Nat) (s : State) (as : List (Agent × Word64)) : List (Nat × Page) :=
  (as.filterMap (fun a => match lockPlace blk s a with | .ok p => p.page.map (fun g => (a.2.toNat / 2 ^ g.pb, g)) | .error _ => none)).eraseDups

section
variable {blk : Nat} {s : State}

theorem lockAreas_eq : lockAreas blk s =
    match (lockedAreas s (s.block blk)).find? (fun a => isTrapped (lockPlace blk s a)) with
    | none => mapBlock blk (fun x => { x with locked := areaPages blk s (lockedAreas s (s.block blk)) }) s
    | some a => machineCore ((s.block blk).pkg, (s.block blk).core) (waveOf a.1) a.2 (failBlock blk stProtection s) := by
  unfold lockAreas
  dsimp only
  rw [List.find?_map, List.filterMap_map]
  generalize hP : (_ ∘ _ : Agent × Word64 → Bool) = P
  have hp : P = fun a => isTrapped (lockPlace blk s a) := by
    rw [← hP]
    rfl
  rw [hp]
  cases (lockedAreas s (s.block blk)).find? (fun a => isTrapped (lockPlace blk s a)) <;> rfl

/-- The blocks' locks do not bear on where the areas lie. -/
theorem lockPlace_locked {x : Block} (h : Table.find? s.blocks blk = some x) (ps : List (Nat × Page)) (a : Agent × Word64) :
    lockPlace blk (mapBlock blk (fun x => { x with locked := ps }) s) a = lockPlace blk s a := by
  have hc : blockCtx (mapBlock blk (fun x => { x with locked := ps }) s) blk a.1 = blockCtx s blk a.1 := by
    rw [mapBlock_of_find h]
    unfold blockCtx
    rw [block_put_self, block_of_find h]
    rfl
  unfold lockPlace
  rw [hc, mapBlock_of_find h]
  exact lockedPlace_withBlocks _ s _ _ _ _

theorem lockedAreas_locked {x : Block} (h : Table.find? s.blocks blk = some x) (ps : List (Nat × Page)) :
    let u := mapBlock blk (fun x => { x with locked := ps }) s
    lockedAreas u (u.block blk) = lockedAreas s (s.block blk) := by
  intro u
  have hu : u.block blk = { s.block blk with locked := ps } := by
    rw [show u = _ from mapBlock_of_find h _, block_put_self, block_of_find h]
  have hr : recordBase u = recordBase s := by
    funext a
    cases a <;> rfl
  unfold lockedAreas
  rw [hu, hr]
  rfl

theorem blockPlaced_locked {id c bar : Nat} {waves : List Nat} {b : State} (h : BlockPlaced id blk c waves bar s b) {x : Block}
    (hx : Table.find? b.blocks blk = some x) (ps : List (Nat × Page)) :
    BlockPlaced id blk c waves bar s (mapBlock blk (fun x => { x with locked := ps }) b) := by
  rw [mapBlock_of_find hx]
  refine ⟨?_, h.number, h.slots, h.barriers, ?_, fun n hn => ?_, h.launch, h.streams, h.groups, h.others, h.seeds, h.cores⟩
  · rw [h.rest]
  · rw [block_put_self]
    have hb := h.block
    rw [block_of_find hx] at hb
    exact hb
  · rw [block_put_other _ _ hn]
    exact h.blocks n hn

theorem releaseDue_none (h : (s.block blk).sched = []) : releaseDue blk s = .ok s := by
  unfold releaseDue
  rw [h]
  split <;> rfl

end

/-! The mark of the head that the distributor chose (R329). -/

/-- The queues `is` of a package tell whether they are the queue `q`. -/
structure Marked (p q : Nat) (is : List Nat) (s t : State) : Prop where
  rest : t = { s with pkgs := t.pkgs }
  others : ∀ r, r ≠ p → t.pkg r = s.pkg r
  pkg : t.pkg p = { s.pkg p with queues := (t.pkg p).queues, child := (t.pkg p).child }
  queues : ∀ r, r ≤ 64 → queueAt t p r = if r ∈ is then { queueAt s p r with chosen := decide (r = q) } else queueAt s p r

theorem queueAt_withQueue (s : State) (p : Nat) {i r : Nat} (x : LaunchQ) (hi : i ≤ 64) (hr : r ≤ 64) :
    queueAt (withQueue p i x s) p r = if r = i then x else queueAt s p r := by
  unfold queueAt withQueue
  rw [pkg_setPkg_self]
  by_cases hri : r = i
  · subst hri
    rw [if_pos rfl]
    by_cases h : r < 64
    · simp only [if_pos h, Vec.get_set_self _ _ _ h]
    · simp only [if_neg h]
  · rw [if_neg hri]
    by_cases h : i < 64 <;> by_cases h' : r < 64
    · simp only [if_pos h, if_pos h', Vec.get_set_other _ _ (Ne.symm hri)]
    · simp only [if_pos h, if_neg h']
    · simp only [if_neg h, if_pos h']
    · omega

theorem marked_mapLaunchQ (p q : Nat) {i : Nat} (hi : i ≤ 64) (s : State) :
    Marked p q [i] s (mapLaunchQ p i (fun x => { x with chosen := i == q }) s) := by
  rw [mapLaunchQ_eq]
  refine ⟨rfl, fun r hr => pkg_setPkg_other s _ hr, ?_, fun r hr => ?_⟩
  · unfold withQueue
    rw [pkg_setPkg_self]
    split <;> rfl
  · rw [queueAt_withQueue s p _ hi hr]
    by_cases h : r = i
    · subst h
      rw [if_pos rfl, if_pos (List.mem_singleton_self r)]
      rfl
    · rw [if_neg h, if_neg (by simpa using h)]

theorem Marked.cons {p q i : Nat} {is : List Nat} {s u t : State} (h : Marked p q [i] s u) (hs : Marked p q is u t) : Marked p q (i :: is) s t := by
  refine ⟨by rw [hs.rest, h.rest], fun r hr => (hs.others r hr).trans (h.others r hr), by rw [hs.pkg, h.pkg], fun r hr => ?_⟩
  rw [hs.queues r hr, h.queues r hr]
  simp only [List.mem_cons, List.not_mem_nil, or_false]
  split_ifs <;> tauto

theorem marked_seqAll (p q : Nat) (is : List Nat) (his : ∀ i, i ∈ is → i ≤ 64) (s : State) :
    Marked p q is s (seqAll (fun i s => mapLaunchQ p i (fun x => { x with chosen := i == q }) s) is s) := by
  induction is generalizing s with
  | nil => exact ⟨rfl, fun _ _ => rfl, rfl, fun _ _ => rfl⟩
  | cons i is ih => exact (marked_mapLaunchQ p q (his i List.mem_cons_self) s).cons (ih (fun j hj => his j (List.mem_cons_of_mem _ hj)) _)

/-! `BLOCK_PLACE` and `DISTRIBUTOR_SELECT` (R329, R333). -/

section
variable {s : State} {p q id c : Nat}

theorem find?_withNextBlock (hl : (Table.find? s.launches id).isSome) (hw : (placedWaves id c s).Nodup) :
    Table.find? (withNextBlock id c s).blocks s.nextId = some (nextBlock id c s) := by
  obtain ⟨u, hs, hg⟩ := withNextBlock_steps hw hl
  rw [hg.rest, hs.rest]
  exact Table.find?_put_self _ _ _

theorem fenced_withNextBlock (hl : (Table.find? s.launches id).isSome) (hw : (placedWaves id c s).Nodup) :
    ((withNextBlock id c s).core ((s.launch id).pkg, c)).fenced = (s.core ((s.launch id).pkg, c)).fenced := by
  obtain ⟨u, hs, hg⟩ := withNextBlock_steps hw hl
  rw [hg.rest]
  change (u.core ((s.launch id).pkg, c)).fenced = _
  rw [hs.core]
  rfl

theorem headLaunch_of {gs : List Word64} {ok : Bool} (h : (queueAt s p q).items.head? = some (.launch id gs ok)) : headLaunch s p q = some id := by
  unfold headLaunch
  rw [h]

theorem exec_blockPlace {gs : List Word64} {ok : Bool} (hx : (queueAt s p q).items.head? = some (.launch id gs ok)) (hm : (s.launch id).mcode = 0)
    (hch : (queueAt s p q).chosen = true) (hlead : Leads s p q) (hc : chooseCore s (s.launch id) q = some c) :
    exec (.blockPlace p q) s = finishEvent s ((placeBlock id c s).map (afterPlace p q id)) := by
  have hmay : mayPlace s p q = true := by simp [mayPlace, hch, bestHead_of_leads hlead]
  change execBlockPlace p q s = _
  unfold execBlockPlace
  rw [headLaunch_of hx]
  dsimp only
  rw [if_neg (by simp [hmay, hm]), hc]

theorem blockPlace_waits {gs : List Word64} {ok : Bool} (hx : (queueAt s p q).items.head? = some (.launch id gs ok))
    (h : (queueAt s p q).chosen = false ∨ ∃ r, r ≠ q ∧ Leads s p r) : exec (.blockPlace p q) s = .next s := by
  have hmay : mayPlace s p q = false := by
    rcases h with h | ⟨r, hr, hlead⟩
    · simp [mayPlace, h]
    · simp [mayPlace, bestHead_of_leads hlead, hr]
  change execBlockPlace p q s = _
  unfold execBlockPlace
  rw [headLaunch_of hx]
  dsimp only
  rw [if_pos (by simp [hmay])]
  rfl

theorem distributorSelect_marks {gs : List Word64} {ok : Bool} (hlead : Leads s p q) (hx : (queueAt s p q).items.head? = some (.launch id gs ok)) :
    ∃ t, exec (.distributorSelect p) s = .next t ∧ t = { s with pkgs := t.pkgs } ∧ (∀ r, r ≠ p → t.pkg r = s.pkg r) ∧
      t.pkg p = { s.pkg p with queues := (t.pkg p).queues, child := (t.pkg p).child } ∧
      ∀ r, r ≤ 64 → queueAt t p r = { queueAt s p r with chosen := decide (r = q) } := by
  have h := marked_seqAll p q (List.range 65) (fun i hi => Nat.le_of_lt_succ (List.mem_range.mp hi)) s
  refine ⟨_, ?_, h.rest, h.others, h.pkg, fun r hr => (h.queues r hr).trans (if_pos (List.mem_range.mpr (Nat.lt_succ_of_le hr)))⟩
  change execDistributorSelect p s = _
  unfold execDistributorSelect
  rw [bestHead_of_leads hlead]
  dsimp only
  rw [hx]
  rfl

theorem distributorSelect_hands {r : RingCopy} {rag : Option Ragged} {b : State} {it : Item} (hlead : Leads s p q) (hx : (queueAt s p q).items.head? = some (.copy r))
    (hr : copyRecord (ringItem p q r (servedBy p q (popHead p q s))) r.desc (servedBy p q (popHead p q s)) = .ok (rag, b))
    (hp : checkPhaser p (fun _ => false) false r.desc.phaser b = .ok ())
    (hc : copyItem (ringItem p q r (servedBy p q (popHead p q s))) r.desc rag r.crec b = .ok it) (he : it.elems ≠ []) :
    exec (.distributorSelect p) s = .next (addRingItem r.id it b) := by
  change execDistributorSelect p s = _
  unfold execDistributorSelect
  rw [bestHead_of_leads hlead]
  dsimp only
  rw [hx]
  dsimp only
  unfold handCopy
  rw [noteQueue_eq]
  dsimp only
  rw [hr]
  dsimp only
  rw [hp, hc]
  dsimp only
  rw [if_neg he]
  rfl

theorem distributorSelect_waits (h : ∀ r, r ≤ 64 → (queueAt s p r).eligible = true → servable s p r = false) :
    exec (.distributorSelect p) s = .next s := by
  change execDistributorSelect p s = _
  unfold execDistributorSelect
  rw [bestHead_none h]
  rfl

/-- `BLOCK_PLACE` for a launch that takes no copy schedule: the block stands, and its context areas are locked or MACHINE is raised. -/
theorem blockPlace_places {gs : List Word64} {ok : Bool} (hx : (queueAt s p q).items.head? = some (.launch id gs ok))
    (hl : (Table.find? s.launches id).isSome) (hpkg : (s.launch id).pkg = p) (hm : (s.launch id).mcode = 0) (hrows : (s.launch id).rows = [])
    (hf : Table.find? (s.launch id).flushed (indexOf (s.launch id)) = none) (hch : (queueAt s p q).chosen = true) (hlead : Leads s p q)
    (hc : chooseCore s (s.launch id) q = some c) :
    ∃ b waves bar, BlockPlaced id s.nextId c waves bar s b ∧
      ((∀ a, a ∈ lockedAreas b (b.block s.nextId) → isTrapped (lockPlace s.nextId b a) = false) →
        (∀ a k g, a ∈ lockedAreas b (b.block s.nextId) → lockPlace s.nextId b a = .ok k → k.page = some g →
          (a.2.toNat / 2 ^ g.pb, g) ∈ (b.block s.nextId).locked) ∧
        ∃ t, exec (.blockPlace p q) s = .next t ∧ HeadPlaced p q id b t) ∧
      ∀ a as, (lockedAreas b (b.block s.nextId)).filter (fun a => isTrapped (lockPlace s.nextId b a)) = a :: as →
        ∃ t, exec (.blockPlace p q) s = .next t ∧ HeadPlaced p q id (machineCore (p, c) (waveOf a.1) a.2 (failBlock s.nextId 6 b)) t := by
  have hfit := (chooseCore_some hc).1
  have hw : (placedWaves id c s).Nodup := waveSlots_nodup fun i hi => (groupsOn_le_iff hi).mpr (hfit.waves i hi)
  have hplaced := blockPlaced_withNextBlock hl hc
  have hfind := find?_withNextBlock (c := c) hl hw
  have hfence := (fenced_withNextBlock (c := c) hl hw).trans hfit.serves.2
  have hx := exec_blockPlace hx hm hch hlead hc
  rw [placeBlock_eq hrows hf] at hx
  generalize withNextBlock id c s = b at hplaced hfind hfence hx
  have hblk : (b.block s.nextId).pkg = p ∧ (b.block s.nextId).core = c := by
    rw [block_of_find hfind]
    exact ⟨hpkg, rfl⟩
  rw [lockAreas_eq, ← List.head?_filter] at hx
  cases hfil : (lockedAreas b (b.block s.nextId)).filter (fun a => isTrapped (lockPlace s.nextId b a)) with
  | nil =>
    rw [hfil] at hx
    obtain ⟨u, hu⟩ : ∃ u, u = mapBlock s.nextId (fun x => { x with locked := areaPages s.nextId b (lockedAreas b (b.block s.nextId)) }) b := ⟨_, rfl⟩
    have hub : u.block s.nextId = { b.block s.nextId with locked := areaPages s.nextId b (lockedAreas b (b.block s.nextId)) } := by
      rw [hu, mapBlock_of_find hfind, block_put_self, block_of_find hfind]
    have hplace (a : Agent × Word64) : lockPlace s.nextId u a = lockPlace s.nextId b a := hu ▸ lockPlace_locked hfind _ a
    have hareas : lockedAreas u (u.block s.nextId) = lockedAreas b (b.block s.nextId) := hu ▸ lockedAreas_locked hfind _
    have hdue : releaseDue s.nextId u = .ok u := releaseDue_none (by rw [hub, block_of_find hfind]; rfl)
    have hgo : exec (.blockPlace p q) s = .next (afterPlace p q id u) := by
      rw [hx]
      change finishEvent s ((if (b.core ((s.launch id).pkg, c)).fenced = true then .ok (mapBlock _ _ b) else releaseDue s.nextId (mapBlock _ _ b)).map _) = _
      rw [if_neg (by simp [hfence]), ← hu, hdue]
      rfl
    refine ⟨u, _, _, hu ▸ blockPlaced_locked hplaced hfind _, fun _ => ⟨fun a k g ha hk hg => ?_, _, hgo, headPlaced_afterPlace id u⟩, fun a as has => ?_⟩
    · rw [hub]
      refine List.mem_eraseDups.mpr (List.mem_filterMap.mpr ⟨a, hareas ▸ ha, ?_⟩)
      rw [← hplace, hk]
      dsimp only
      rw [hg]
      rfl
    · rw [hareas, funext hplace] at has
      rw [hfil] at has
      contradiction
  | cons a as =>
    rw [hfil] at hx
    refine ⟨b, _, _, hplaced, fun hno => ?_, fun a' as' has => ⟨_, ?_, headPlaced_afterPlace id _⟩⟩
    · have ha := List.mem_filter.mp (hfil ▸ List.mem_cons_self : a ∈ (lockedAreas b (b.block s.nextId)).filter _)
      rw [hno a ha.1] at ha
      exact absurd ha.2 (by simp)
    · cases hfil.symm.trans has
      rw [hx]
      change finishEvent s ((if ((machineCore ((b.block s.nextId).pkg, (b.block s.nextId).core) (waveOf a.1) a.2 (failBlock s.nextId stProtection b)).core
        ((s.launch id).pkg, c)).fenced = true then .ok (machineCore _ _ _ _) else releaseDue s.nextId (machineCore _ _ _ _)).map _) = _
      rw [hblk.1, hblk.2, hpkg, if_pos (fenced_machineCore _ _ _ _)]
      rfl

end

end Sys2Proof.Machine

open Sys2Proof Sys2Proof.Machine Sys2Proof.Claims

/-- Settles O51: the distributor's choice, the core of a block, its placement. -/
theorem blocksArePlaced : Obligations.BlocksArePlaced := by
  intro s p q id c gs ok
  refine ⟨fun hlead hx => distributorSelect_marks hlead hx, fun r rag b it hlead hx => distributorSelect_hands hlead hx, distributorSelect_waits,
    chooseCore_some, fun h d => chooseCore_none h d, fun hx _ _ => blockPlace_waits hx, fun hx hl hpkg hm hrows hf hch hlead hc => ?_⟩
  obtain ⟨b, waves, bar, hb, hlocked, hraised⟩ := blockPlace_places hx hl hpkg hm hrows hf hch hlead hc
  refine ⟨b, waves, bar, hb, fun hall => hlocked fun a ha => ?_, hraised⟩
  obtain ⟨k, hk⟩ := hall a ha
  exact congrArg isTrapped hk

end

section
/-! SUPPORT. O60: addresses decoded (R26), walked (R289 to R291), and the checks of a page in order (R293). -/

open Sys2Proof.Claims

namespace Sys2Proof.Machine

set_option Elab.async false

/-! Decoding of an address (R26). -/

/-- An address that no space has. -/
def Malformed (va : Word64) : Prop :=
  (va.extractLsb' 62 2).toNat = 3 ∨ ((va.extractLsb' 62 2).toNat = 0 ∧ va.extractLsb' 52 10 ≠ 0) ∨
    ((va.extractLsb' 62 2).toNat = 2 ∧ va.extractLsb' 24 38 ≠ 0)

theorem spaceOf_malformed {va : Word64} (h : Malformed va) : spaceOf va = none := by
  obtain h | ⟨h, hz⟩ | ⟨h, hz⟩ := h
  · unfold spaceOf; rw [h]; rfl
  · unfold spaceOf; rw [h]; exact if_neg hz
  · unfold spaceOf; rw [h]; exact if_neg hz

theorem spaceOf_control {va : Word64} (hm : ¬Malformed va) (h : (va.extractLsb' 62 2).toNat = 0) :
    spaceOf va = some (.control (va.extractLsb' 0 52).toNat) := by
  have hz : va.extractLsb' 52 10 = 0 := by
    by_contra hz
    exact hm (.inr (.inl ⟨h, hz⟩))
  unfold spaceOf
  rw [h]
  exact if_pos hz

theorem spaceOf_tensor {va : Word64} (h : (va.extractLsb' 62 2).toNat = 1) :
    spaceOf va = some (.tensor (va.extractLsb' 61 1).toNat (va.extractLsb' 53 8).toNat (va.extractLsb' 0 53).toNat) := by
  unfold spaceOf; rw [h]; rfl

theorem spaceOf_scratch {va : Word64} (hm : ¬Malformed va) (h : (va.extractLsb' 62 2).toNat = 2) :
    spaceOf va = some (.scratch (va.extractLsb' 0 24).toNat) := by
  have hz : va.extractLsb' 24 38 = 0 := by
    by_contra hz
    exact hm (.inr (.inr ⟨h, hz⟩))
  unfold spaceOf
  rw [h]
  exact if_pos hz

theorem spaceOf_isSome {va : Word64} (hm : ¬Malformed va) : ∃ sp, spaceOf va = some sp := by
  have hlt : (va.extractLsb' 62 2).toNat < 4 := (va.extractLsb' 62 2).isLt
  have h3 : (va.extractLsb' 62 2).toNat ≠ 3 := fun h => hm (.inl h)
  obtain h | h | h : (va.extractLsb' 62 2).toNat = 0 ∨ (va.extractLsb' 62 2).toNat = 1 ∨ (va.extractLsb' 62 2).toNat = 2 := by omega
  · exact ⟨_, spaceOf_control hm h⟩
  · exact ⟨_, spaceOf_tensor h⟩
  · exact ⟨_, spaceOf_scratch hm h⟩

section
variable {s : State} {c : Ctx} {u : Use} {va : Word64} {n : Nat}

theorem place_of_decode_error {e : Stop} (h : decodeVa c va n = .error e) : place s c u va n = .error e := by
  unfold place; rw [h]; rfl

theorem place_malformed (h : Malformed va) :
    place s c u va n = .error (.trap { cls := .translation, detail := 1, addr := va }) :=
  place_of_decode_error (by unfold decodeVa; rw [spaceOf_malformed h]; rfl)

theorem place_spans (hm : ¬Malformed va) (h : 128 < va.toNat % 128 + n) :
    place s c u va n = .error (.trap { cls := .bound, detail := 1, addr := va }) := by
  obtain ⟨sp, hsp⟩ := spaceOf_isSome hm
  refine place_of_decode_error ?_
  unfold decodeVa
  rw [hsp]
  exact raiseIf_stops (decide_eq_true h)

theorem decode_scratch (hs : spaceOf va = some (.scratch o)) (hn : ¬128 < va.toNat % 128 + n) :
    decodeVa c va n = (raiseIf (decide (c.limit < o + n)) .bound 3 va >>= fun _ => .ok (.scratch o)) := by
  unfold decodeVa
  rw [hs]
  exact raiseIf_passes (decide_eq_false hn)

theorem decode_tensor {t p o : Nat} (hs : spaceOf va = some (.tensor t p o)) (hn : ¬128 < va.toNat % 128 + n) :
    decodeVa c va n = (raiseIf (p != c.pkg) .remote 0 va >>= fun _ => .ok (.tensor t p o)) := by
  unfold decodeVa
  rw [hs]
  exact raiseIf_passes (decide_eq_false hn)

theorem decode_control (hs : spaceOf va = some (.control o)) (hn : ¬128 < va.toNat % 128 + n) : decodeVa c va n = .ok (.control o) := by
  unfold decodeVa
  rw [hs]
  exact raiseIf_passes (decide_eq_false hn)

/-- A decoded address has the place of its translation, unless a watchpoint covers the access (R391). -/
theorem place_of_decode {sp : Space} (h : decodeVa c va n = .ok sp) :
    place s c u va n = (translate s c u va sp >>= fun p => raiseIf (watched s c u va n) .watch 0 va >>= fun _ => .ok p) := by
  unfold place; rw [h]; rfl

theorem place_of_error {sp : Space} {e : Stop} (h : decodeVa c va n = .ok sp) (ht : translate s c u va sp = .error e) :
    place s c u va n = .error e := by
  rw [place_of_decode h, ht]; rfl

theorem place_of_ok {sp : Space} {p : Place} (h : decodeVa c va n = .ok sp) (ht : translate s c u va sp = .ok p)
    (hw : watched s c u va n = false) : place s c u va n = .ok p := by
  rw [place_of_decode h, ht, ok_bind, raiseIf_passes hw]

theorem place_of_watched {sp : Space} {p : Place} (h : decodeVa c va n = .ok sp) (ht : translate s c u va sp = .ok p)
    (hw : watched s c u va n = true) : place s c u va n = .error (.trap { cls := .watch, detail := 0, addr := va }) := by
  rw [place_of_decode h, ht, ok_bind, raiseIf_stops hw]

theorem place_beyond (hm : ¬Malformed va) (hn : ¬128 < va.toNat % 128 + n) (h : (va.extractLsb' 62 2).toNat = 2)
    (hl : c.limit < (va.extractLsb' 0 24).toNat + n) :
    place s c u va n = .error (.trap { cls := .bound, detail := 3, addr := va }) :=
  place_of_decode_error ((decode_scratch (spaceOf_scratch hm h) hn).trans (raiseIf_stops (decide_eq_true hl)))

theorem place_remote (hn : ¬128 < va.toNat % 128 + n) (h : (va.extractLsb' 62 2).toNat = 1) (ho : (va.extractLsb' 53 8).toNat ≠ c.pkg) :
    place s c u va n = .error (.trap { cls := .remote, detail := 0, addr := va }) :=
  place_of_decode_error ((decode_tensor (spaceOf_tensor h) hn).trans (raiseIf_stops (by simpa using ho)))

theorem place_scratch (hm : ¬Malformed va) (hn : ¬128 < va.toNat % 128 + n) (h : (va.extractLsb' 62 2).toNat = 2)
    (hl : (va.extractLsb' 0 24).toNat + n ≤ c.limit) (h13 : u.ty ≠ 13) (h16 : u.ty < 16) (hw : watched s c u va n = false) :
    place s c u va n = .ok ⟨.scr (va.extractLsb' 0 24).toNat, default, none, (va.extractLsb' 0 24).toNat⟩ := by
  have hd : decodeVa c va n = .ok (.scratch (va.extractLsb' 0 24).toNat) :=
    (decode_scratch (spaceOf_scratch hm h) hn).trans (raiseIf_passes (decide_eq_false (by omega)))
  refine place_of_ok hd ?_ hw
  have hpg : (u.ty == 13) = false := by simpa using h13
  have hfs : (decide (16 ≤ u.ty) && slotOf c.slots (u.ty - 16) == none) = false := by simp; omega
  exact (raiseIf_passes hpg).trans (raiseIf_passes hfs)

end

/-! Walks (R289 to R291). -/

section
variable {s : State} {p : Nat} {control : Bool}

theorem sum_eq_foldl (l : List (Nat × Nat)) : l.foldl (fun n d => n + d.2) 0 = (l.map (·.2)).sum := by
  rw [List.sum_eq_foldl, List.foldl_map]

theorem inRange_eq_false {tgt pa : Nat} (h : tgt < 4) : inRange s p tgt pa = false ↔
    (tgt = 0 ∧ ctlSize ≤ pa % 2 ^ 36) ∨ (tgt = 1 ∧ (s.pkg p).muniment.chans.length * 0x60000000 ≤ pa) ∨
      (tgt = 2 ∧ ((s.pkg p).trained.map (·.2)).sum ≤ pa) ∨ tgt = 3 ∨ (tgt = 0 ∧ 2 ^ 42 ≤ pa) := by
  unfold inRange
  split
  · rw [decide_eq_false_iff_not, not_and_or, Nat.not_lt, Nat.not_lt]
    generalize (ctlSize ≤ pa % 2 ^ 36) = A, (2 ^ 42 ≤ pa) = B
    simp [or_comm]
  · rw [decide_eq_false_iff_not, Nat.not_lt, ncs]
    generalize ((s.pkg p).muniment.chans.length * 0x60000000 ≤ pa) = A
    simp
  · rw [decide_eq_false_iff_not, Nat.not_lt, tier2Bytes, sum_eq_foldl]
    simp
  · next x h0 h1 h2 =>
    have hne : tgt ≠ 0 ∧ tgt ≠ 1 ∧ tgt ≠ 2 := ⟨h0, h1, h2⟩
    exact iff_of_true rfl (.inr (.inr (.inr (.inl (by omega)))))

theorem extract_ne_zero_iff {w : Word64} (a b : Nat) : (w.extractLsb' a b).toNat ≠ 0 ↔ w.extractLsb' a b ≠ 0 :=
  not_congr (by rw [BitVec.toNat_eq]; rfl)

theorem leafBad_iff (pb : Nat) (w : Word64) : leafBad s p control pb w = true ↔ LeafFaulty s p control pb w := by
  have hr := inRange_eq_false (s := s) (p := p) (pa := leafPa w) (w.extractLsb' 41 2).isLt
  unfold leafBad LeafFaulty
  simp only [Bool.or_eq_true, Bool.and_eq_true, Bool.not_eq_true', bne_iff_ne, beq_iff_eq, decide_eq_true_eq]
  simp only [leafGeom, leafClass, leafTgt, leafFv, leafL, leafSslot, leafFslot, leafLidx, leafPa] at hr ⊢
  simp only [hr, extract_ne_zero_iff, or_assoc]
  cases control
  · simp only [Bool.false_eq_true, if_false, Bool.or_eq_true, beq_iff_eq, false_and, false_or, true_and]
    by_cases h3 : (w.extractLsb' 41 2).toNat = 3
    · simp only [h3, true_or, or_true]
    · simp only [h3, false_or, or_false]
  · simp only [if_true, Bool.or_eq_true, bne_iff_ne, true_and, reduceCtorEq, false_and, false_or, extract_ne_zero_iff, or_assoc]

theorem pointerBad_iff (size : Nat) (w : Word64) : pointerBad size w = true ↔ PointerFaulty size w := by
  unfold pointerBad PointerFaulty
  simp [or_assoc]

/-- A level of the statement's walks as the model writes it. -/
def levelOf (t : Nat × Option Nat × Option Nat) : Level := ⟨t.1, t.2.1, t.2.2⟩

theorem levelsOf_control (va : Word64) : levelsOf va true = (controlLevels va).map levelOf := rfl

theorem levelsOf_tensor (va : Word64) : levelsOf va false = (tensorLevels va).map levelOf := by
  unfold levelsOf tensorLevels
  rw [toNat_append_eq]
  rfl

theorem walkEntry_eq (hs : s.stale = []) (asid : Nat) (va : Word64) (lv : Level) (k : Nat) :
    walkEntry s p asid va control lv k = entryAt s p k := by
  unfold walkEntry
  rw [hs]
  rfl

theorem memBad_eq_false (hb : ∀ x, BadWord.mem x ∉ s.bad) (k n : Nat) : memBad s k n = false := by
  unfold memBad
  rw [List.any_eq_false]
  intro w hw
  cases w
  case mem x => exact absurd hw (hb x)
  all_goals exact Bool.false_ne_true

/-- What a walk finds, with the class of the fault. -/
def walkResult : Except Nat Page → Except (TrapClass × Nat) Page
  | .ok p => .ok p
  | .error d => .error (.translation, d)

theorem walkResult_injective : Function.Injective walkResult := by
  intro x y h
  cases x <;> cases y <;> simp_all [walkResult]

variable (hs : s.stale = []) (hb : ∀ x, BadWord.mem x ∉ s.bad) (asid : Nat) (va : Word64)
include hs hb

theorem walkFrom_cons (t : Nat × Option Nat × Option Nat) (r : List Level) (table : Nat) :
    walkFrom s p asid va control (levelOf t :: r) table =
      let w := entryAt s p (table + 8 * t.1)
      if !w.getLsbD 0 then .error (.translation, 2)
      else if w.getLsbD 1 then
        match t.2.1 with
        | none => .error (.translation, 3)
        | some pb => if leafBad s p control pb w then .error (.translation, 3) else .ok ⟨w, pb⟩
      else
        match t.2.2 with
        | none => .error (.translation, 3)
        | some size =>
          if pointerBad size w then .error (.translation, 3)
          else walkFrom s p asid va control r (physKey p 0 ((w.extractLsb' 7 29).toNat * 128)) := by
  rw [walkFrom]
  dsimp only
  rw [walkEntry_eq hs, memBad_eq_false hb, if_neg Bool.false_ne_true]
  rfl

/-- The model's walk is what the statement's walk finds. -/
theorem walkFrom_of_finds {ls : List (Nat × Option Nat × Option Nat)} {table : Nat} {x : Except Nat Page}
    (h : WalkFinds s p control ls table x) : walkFrom s p asid va control (ls.map levelOf) table = walkResult x := by
  induction h with
  | invalid i leaf next r table h0 => rw [List.map_cons, walkFrom_cons hs hb]; simp [-BitVec.getLsbD_eq_getElem, h0, walkResult]
  | leaf i pb next r table w hw h0 h1 hf =>
    subst hw; rw [List.map_cons, walkFrom_cons hs hb]; simp [-BitVec.getLsbD_eq_getElem, h0, h1, leafBad_iff, hf, walkResult]
  | badLeaf i pb next r table w hw h0 h1 hf =>
    subst hw; rw [List.map_cons, walkFrom_cons hs hb]; simp [-BitVec.getLsbD_eq_getElem, h0, h1, leafBad_iff, hf, walkResult]
  | highLeaf i next r table w hw h0 h1 => subst hw; rw [List.map_cons, walkFrom_cons hs hb]; simp [-BitVec.getLsbD_eq_getElem, h0, h1, walkResult]
  | lowPointer i leaf r table w hw h0 h1 => subst hw; rw [List.map_cons, walkFrom_cons hs hb]; simp [-BitVec.getLsbD_eq_getElem, h0, h1, walkResult]
  | badPointer i leaf size r table w hw h0 h1 hf =>
    subst hw; rw [List.map_cons, walkFrom_cons hs hb]; simp [-BitVec.getLsbD_eq_getElem, h0, h1, pointerBad_iff, hf, walkResult]
  | pointer i leaf size r table x w hw h0 h1 hf _ ih =>
    subst hw; rw [List.map_cons, walkFrom_cons hs hb]; simpa [-BitVec.getLsbD_eq_getElem, h0, h1, pointerBad_iff, hf] using ih

theorem walkFinds_unique {ls : List (Nat × Option Nat × Option Nat)} {table : Nat} {x y : Except Nat Page}
    (hx : WalkFinds s p control ls table x) (hy : WalkFinds s p control ls table y) : y = x :=
  walkResult_injective ((walkFrom_of_finds hs hb 0 0 hy).symm.trans (walkFrom_of_finds hs hb 0 0 hx))

omit hs hb

/-- Levels of which the last names no further table. -/
def EndsWalk : List (Nat × Option Nat × Option Nat) → Prop
  | [] => False
  | (_, _, none) :: _ => True
  | (_, _, some _) :: r => EndsWalk r

theorem walkFinds_exists (s : State) (p : Nat) (control : Bool) (ls : List (Nat × Option Nat × Option Nat)) (h : EndsWalk ls)
    (table : Nat) : ∃ x, WalkFinds s p control ls table x := by
  induction ls generalizing table with
  | nil => exact h.elim
  | cons l r ih =>
    obtain ⟨i, leaf, next⟩ := l
    obtain ⟨w, hw⟩ : ∃ w, w = entryAt s p (table + 8 * i) := ⟨_, rfl⟩
    cases h0 : w.getLsbD 0 with
    | false => exact ⟨_, .invalid i leaf next r table (hw ▸ h0)⟩
    | true =>
      cases h1 : w.getLsbD 1 with
      | true =>
        cases leaf with
        | none => exact ⟨_, .highLeaf i next r table w hw h0 h1⟩
        | some pb =>
          by_cases hf : LeafFaulty s p control pb w
          · exact ⟨_, .badLeaf i pb next r table w hw h0 h1 hf⟩
          · exact ⟨_, .leaf i pb next r table w hw h0 h1 hf⟩
      | false =>
        cases next with
        | none => exact ⟨_, .lowPointer i leaf r table w hw h0 h1⟩
        | some size =>
          by_cases hf : PointerFaulty size w
          · exact ⟨_, .badPointer i leaf size r table w hw h0 h1 hf⟩
          · obtain ⟨x, hx⟩ := ih h (physKey p 0 ((w.extractLsb' 7 29).toNat * 128))
            exact ⟨x, .pointer i leaf size r table x w hw h0 h1 hf hx⟩

/-- A leaf that a walk finds breaks no rule. -/
theorem walkFinds_leaf {ls : List (Nat × Option Nat × Option Nat)} {table : Nat} {x : Except Nat Page} {pg : Page}
    (h : WalkFinds s p control ls table x) (hx : x = .ok pg) : ¬LeafFaulty s p control pg.pb pg.leaf := by
  induction h with
  | leaf i pb next r table w hw h0 h1 hf => cases hx; exact hf
  | pointer i leaf size r table x w hw h0 h1 hf _ ih => exact ih hx
  | invalid | badLeaf | highLeaf | lowPointer | badPointer => cases hx

end

/-! The checks of a page (R293 steps 3 to 11). -/

/-- The first of a list of checks that fails. -/
theorem find_checks_cons (b : Bool) (y : TrapClass × Nat) (l : List (Bool × TrapClass × Nat)) :
    (((b, y) :: l).find? (·.1)).map (·.2) = if b then some y else (l.find? (·.1)).map (·.2) := by
  cases b <;> simp

theorem findD_job_ne (t : Table Nat KeySlot) (key job : Nat) :
    ((Table.findD t key ⟨none, 0⟩).job != some job) = match Table.find? t key with | some k => k.job != some job | none => true := by
  unfold Table.findD
  cases Table.find? t key <;> simp

theorem elem_other (e : Option Nat) (el : Option Fmt) : (e.any (fun n => el.isSome && narrowNibbles el != n)) =
    match e, el with | some n, some f => n != (if f.width ≤ 4 then 1 else 2) | _, _ => false := by
  cases e <;> cases el <;> simp [narrowNibbles, bne, Bool.beq_comm]

theorem beq_none_isNone (el : Option Fmt) : (el == none) = el.isNone := by cases el <;> rfl

theorem pageFault_eq (s : State) (c : Ctx) (u : Use) (p : Page) (off : Nat) :
    pageFault s c u p off = ((pageChecks s c u p off).find? (·.1)).map (·.2) := by
  unfold pageFault pageChecks
  dsimp only
  simp only [find_checks_cons, List.find?_nil, Option.map_none]
  rw [findD_job_ne, elem_other, beq_none_isNone]
  rfl

/-! Translation through the pages of control and tensor memory. -/

/-- A space whose addresses a walk translates, and whether it is control memory. -/
def WalkedSpace : Space → Bool → Prop
  | .control _, b => b = true
  | .tensor _ _ _, b => b = false
  | .scratch _, _ => False

/-- What the walk of an address finds: in the table of control memory, or in that of tensor memory (R289). -/
def WalkedTo (s : State) (c : Ctx) (va : Word64) (x : Except Nat Page) : Prop :=
  if (va.extractLsb' 62 2).toNat = 0 then WalkFinds s c.pkg true (controlLevels va) (physKey c.pkg 0 (c.ptbase.toNat % 2 ^ 36)) x
  else WalkFinds s c.pkg false (tensorLevels va) (physKey c.pkg 0 (c.ptbase.toNat % 2 ^ 36) + 0x10000) x

/-- An address that a walk of its own package translates. -/
def Reaches (c : Ctx) (va : Word64) (n : Nat) : Prop :=
  ¬Malformed va ∧ ¬128 < va.toNat % 128 + n ∧ c.identity = false ∧
    ((va.extractLsb' 62 2).toNat = 0 ∨ ((va.extractLsb' 62 2).toNat = 1 ∧ (va.extractLsb' 53 8).toNat = c.pkg))

section
variable {s : State} {c : Ctx} {u : Use} {va : Word64} {n : Nat} {sp : Space} {b : Bool} {p : Page}

theorem translate_walk_error (hid : c.identity = false) (hsp : WalkedSpace sp b) {d : TrapClass × Nat} (hw : walk s c va b = .error d) :
    translate s c u va sp = raise d.1 d.2 va := by
  cases sp with
  | control off => cases hsp; unfold translate; dsimp only; rw [if_neg (by simp [hid]), hw]
  | tensor t q off => cases hsp; unfold translate; dsimp only; rw [if_neg (by simp [hid]), hw]
  | scratch off => exact hsp.elim

theorem translate_page_fault (hid : c.identity = false) (hsp : WalkedSpace sp b) (hw : walk s c va b = .ok p) {cl : TrapClass} {d : Nat}
    (hf : pageFault s c u p (va.toNat % 2 ^ p.pb) = some (cl, d)) :
    translate s c u va sp = raise cl d (if cl = .illegal then 0 else va) := by
  cases sp with
  | control off => cases hsp; unfold translate; dsimp only; rw [if_neg (by simp [hid]), hw]; dsimp only; unfold ctlPagePlace; dsimp only; rw [hf]
  | tensor t q off => cases hsp; unfold translate; dsimp only; rw [if_neg (by simp [hid]), hw]; dsimp only; rw [hf]
  | scratch off => exact hsp.elim

theorem translate_tensor_page (hid : c.identity = false) (hw : walk s c va false = .ok p) (hf : pageFault s c u p (va.toNat % 2 ^ p.pb) = none)
    (t q off : Nat) : translate s c u va (.tensor t q off) =
      .ok ⟨.phys (paKey s c.pkg (leafTgt p.leaf) (leafPa p.leaf + va.toNat % 2 ^ p.pb)), slotMaterial s c.pkg (leafKey p.leaf), some p,
        va.toNat % 2 ^ p.pb⟩ := by
  unfold translate; dsimp only; rw [if_neg (by simp [hid]), hw]; dsimp only; rw [hf]

theorem translate_control_page (hid : c.identity = false) (hw : walk s c va true = .ok p) (hf : pageFault s c u p (va.toNat % 2 ^ p.pb) = none)
    {k : Nat} (hk : homeKey s (panelOf c.pkg * 64 + (leafPa p.leaf + va.toNat % 2 ^ p.pb) / 2 ^ 36)
      ((leafPa p.leaf + va.toNat % 2 ^ p.pb) % 2 ^ 36) = .ok k) (off : Nat) :
    translate s c u va (.control off) = .ok ⟨.phys k, slotMaterial s (keyPkg k) (leafKey p.leaf), some p, va.toNat % 2 ^ p.pb⟩ := by
  unfold translate
  dsimp only
  rw [if_neg (by simp [hid]), hw]
  unfold ctlPagePlace
  dsimp only
  rw [hf]
  dsimp only
  rw [hk]
  rfl

theorem homeKey_up {q off : Nat} (h : pkgUp s q = true) : homeKey s q off = .ok (physKey q 0 off) := by
  unfold homeKey
  rw [h, Bool.true_or]
  rfl

theorem keyPkg_physKey (q : Nat) {off : Nat} (h : off < 2 ^ 44) : keyPkg (physKey q 0 off) = q := by
  unfold keyPkg physKey
  omega

theorem slotMaterial_eq (s : State) (q key : Nat) :
    slotMaterial s q key = ⟨key, match Table.find? (s.pkg q).keys key with | some k => k.material | none => (default : KeySlot).material⟩ := by
  unfold slotMaterial Table.findD
  cases Table.find? (s.pkg q).keys key <;> rfl

theorem decode_of_reaches (h : Reaches c va n) : ∃ sp, decodeVa c va n = .ok sp ∧
    WalkedSpace sp (decide ((va.extractLsb' 62 2).toNat = 0)) ∧
    ((va.extractLsb' 62 2).toNat = 0 → ∃ off, sp = .control off) ∧ ((va.extractLsb' 62 2).toNat = 1 → ∃ t q off, sp = .tensor t q off) := by
  obtain ⟨hm, hn, -, h0 | ⟨h1, ho⟩⟩ := h
  · exact ⟨_, decode_control (spaceOf_control hm h0) hn, decide_eq_true h0, fun _ => ⟨_, rfl⟩, fun h => by omega⟩
  · refine ⟨_, (decode_tensor (spaceOf_tensor h1) hn).trans (raiseIf_passes ?_), decide_eq_false (by omega), fun h => by omega, fun _ => ⟨_, _, _, rfl⟩⟩
    simpa using ho

theorem walkedTo_exists (s : State) (c : Ctx) (va : Word64) : ∃ x, WalkedTo s c va x := by
  unfold WalkedTo
  split
  · exact walkFinds_exists s c.pkg true (controlLevels va) trivial _
  · exact walkFinds_exists s c.pkg false (tensorLevels va) trivial _

theorem leafBad_tensor {q pb : Nat} {w : Word64} (h : leafBad s q false pb w = false) : leafTgt w ≠ 0 ∧ leafTgt w ≠ 3 := by
  simp only [leafBad, Bool.or_eq_false_iff, Bool.false_eq_true, if_false] at h
  obtain ⟨⟨⟨⟨-, h0, h3⟩, -⟩, -⟩, -⟩ := h
  exact ⟨beq_eq_false_iff_ne.1 h0, beq_eq_false_iff_ne.1 h3⟩

/-- What a page of tensor memory names is in HBM or in the second tier (R291). -/
theorem tensor_target (h1 : (va.extractLsb' 62 2).toNat = 1) (hw : WalkedTo s c va (.ok p)) : leafTgt p.leaf = 1 ∨ leafTgt p.leaf = 2 := by
  unfold WalkedTo at hw
  rw [if_neg (by omega)] at hw
  have hl := mt (leafBad_iff p.pb p.leaf).1 (walkFinds_leaf hw rfl)
  have hlt : leafTgt p.leaf < 4 := (p.leaf.extractLsb' 41 2).isLt
  have h03 := leafBad_tensor (Bool.eq_false_iff.2 hl)
  omega

/-- The key of a byte of tensor memory: HBM by channel, the second tier by port (R286, R287). -/
theorem paKey_tensor {q tgt : Nat} (h : tgt = 1 ∨ tgt = 2) (pa : Nat) : paKey s q tgt pa = physKey q tgt
    (if tgt = 1 then interleave (s.pkg q).muniment.chans 0x60000000 pa else interleave ((s.pkg q).trained.map (·.1)) (2 ^ 42) pa) := by
  unfold paKey placeOff
  obtain rfl | rfl := h <;> rfl

variable (hs : s.stale = []) (hb : ∀ x, BadWord.mem x ∉ s.bad)
include hs hb

theorem walkedTo_unique {x y : Except Nat Page} (hx : WalkedTo s c va x) (hy : WalkedTo s c va y) : y = x := by
  unfold WalkedTo at hx hy
  by_cases h0 : (va.extractLsb' 62 2).toNat = 0
  · rw [if_pos h0] at hx hy
    exact walkFinds_unique hs hb hx hy
  · rw [if_neg h0] at hx hy
    exact walkFinds_unique hs hb hx hy

theorem walk_of_walkedTo {x : Except Nat Page} (h : WalkedTo s c va x) :
    walk s c va (decide ((va.extractLsb' 62 2).toNat = 0)) = walkResult x := by
  unfold WalkedTo at h
  split at h
  · next h0 =>
    rw [decide_eq_true h0]
    exact walkFrom_of_finds hs hb _ va h
  · next h0 =>
    rw [decide_eq_false h0]
    unfold walk
    rw [levelsOf_tensor]
    exact walkFrom_of_finds hs hb _ va h

theorem place_walk_error (hr : Reaches c va n) {d : Nat} (hw : WalkedTo s c va (.error d)) :
    place s c u va n = .error (.trap { cls := .translation, detail := d, addr := va }) := by
  obtain ⟨sp, hd, hsp, -, -⟩ := decode_of_reaches hr
  obtain ⟨-, -, hid, -⟩ := hr
  exact place_of_error hd (translate_walk_error hid hsp (walk_of_walkedTo hs hb hw))

theorem place_page_fault (hr : Reaches c va n) (hw : WalkedTo s c va (.ok p)) {cl : TrapClass} {d : Nat}
    (hf : pageFault s c u p (va.toNat % 2 ^ p.pb) = some (cl, d)) :
    place s c u va n = .error (.trap { cls := cl, detail := d, addr := if cl = .illegal then 0 else va }) := by
  obtain ⟨sp, hd, hsp, -, -⟩ := decode_of_reaches hr
  obtain ⟨-, -, hid, -⟩ := hr
  exact place_of_error hd (translate_page_fault hid hsp (walk_of_walkedTo hs hb hw) hf)

theorem tensor_translation (hr : Reaches c va n) (h1 : (va.extractLsb' 62 2).toNat = 1) (hw : WalkedTo s c va (.ok p))
    (hf : pageFault s c u p (va.toNat % 2 ^ p.pb) = none) : ∃ sp, decodeVa c va n = .ok sp ∧ translate s c u va sp =
      .ok ⟨.phys (paKey s c.pkg (leafTgt p.leaf) (leafPa p.leaf + va.toNat % 2 ^ p.pb)), slotMaterial s c.pkg (leafKey p.leaf), some p,
        va.toNat % 2 ^ p.pb⟩ := by
  obtain ⟨sp, hd, -, -, ht⟩ := decode_of_reaches hr
  obtain ⟨t, q, off, rfl⟩ := ht h1
  obtain ⟨-, -, hid, -⟩ := hr
  have hwalk : walk s c va false = .ok p := by
    have := walk_of_walkedTo hs hb hw
    rwa [decide_eq_false (by omega)] at this
  exact ⟨_, hd, translate_tensor_page hid hwalk hf t q off⟩

theorem control_translation (hr : Reaches c va n) (h0 : (va.extractLsb' 62 2).toNat = 0) (hw : WalkedTo s c va (.ok p))
    (hf : pageFault s c u p (va.toNat % 2 ^ p.pb) = none) {home pa : Nat} (hpa : pa = leafPa p.leaf + va.toNat % 2 ^ p.pb)
    (hh : home = panelOf c.pkg * 64 + pa / 2 ^ 36) (hup : pkgUp s home = true) :
    ∃ sp, decodeVa c va n = .ok sp ∧ translate s c u va sp =
      .ok ⟨.phys (physKey home 0 (pa % 2 ^ 36)), slotMaterial s home (leafKey p.leaf), some p, va.toNat % 2 ^ p.pb⟩ := by
  obtain ⟨sp, hd, -, hc, -⟩ := decode_of_reaches hr
  obtain ⟨off, rfl⟩ := hc h0
  obtain ⟨-, -, hid, -⟩ := hr
  have hwalk : walk s c va true = .ok p := by
    have := walk_of_walkedTo hs hb hw
    rwa [decide_eq_true h0] at this
  have hk : keyPkg (physKey home 0 (pa % 2 ^ 36)) = home := keyPkg_physKey home (by omega)
  subst hpa hh
  refine ⟨_, hd, (translate_control_page hid hwalk hf (homeKey_up hup) off).trans ?_⟩
  rw [hk]

end

end Sys2Proof.Machine

open Sys2Proof Sys2Proof.Machine Sys2Proof.Claims

/-- Settles O60: an address is decoded, a walk finds one outcome, and the model's chain of checks is the statement's list in order. -/
theorem accessesAreTranslatedInOrder : Obligations.AccessesAreTranslatedInOrder := by
  unfold Obligations.AccessesAreTranslatedInOrder
  intro s c u va n hs hb
  refine ⟨place_malformed, place_spans, fun hm hn h hl => place_beyond hm hn h hl, fun hm hn h ho => place_remote hn h ho,
    fun hr => ?_, fun d hr hw => place_walk_error hs hb hr hw, fun p hr hw => ⟨fun cls d hf => ?_, fun hf hty => ⟨?_, ?_, ?_⟩⟩,
    fun hm hn h hl h13 h16 hw => place_scratch hm hn h hl h13 h16 hw⟩
  · obtain ⟨x, hx⟩ := walkedTo_exists s c va
    exact ⟨x, hx, fun y hy => walkedTo_unique hs hb hx hy⟩
  · exact place_page_fault hs hb hr hw ((pageFault_eq s c u p _).trans hf)
  · intro h1 hwt
    have hpf : pageFault s c u p (va.toNat % 2 ^ p.pb) = none := by rw [pageFault_eq, hf]; rfl
    obtain ⟨sp, hd, ht⟩ := tensor_translation hs hb hr h1 hw hpf
    refine (place_of_ok hd ht hwt).trans ?_
    rw [slotMaterial_eq, paKey_tensor (tensor_target h1 hw)]
    rfl
  · intro h1 hwt
    have hpf : pageFault s c u p (va.toNat % 2 ^ p.pb) = none := by rw [pageFault_eq, hf]; rfl
    obtain ⟨sp, hd, ht⟩ := tensor_translation hs hb hr h1 hw hpf
    exact place_of_watched hd ht hwt
  · intro h0 hwt hup
    have hpf : pageFault s c u p (va.toNat % 2 ^ p.pb) = none := by rw [pageFault_eq, hf]; rfl
    obtain ⟨sp, hd, ht⟩ := control_translation hs hb hr h0 hw hpf rfl rfl hup
    refine (place_of_ok hd ht hwt).trans ?_
    rw [slotMaterial_eq]
    rfl
end

section
/-! SUPPORT. O26: the control memory of the reset state under a key that is not its own. An AES-256 decryption determines the block
that it decrypts (FIPS 197), so the ciphertext of an unwritten line cannot decrypt to zero under each of two keys. -/

namespace Sys2Proof.Machine

set_option Elab.async false

/-! Bytes combined place by place. -/

theorem xorBytes_length (a b : List Byte) : (xorBytes a b).length = min a.length b.length := List.length_zipWith

theorem xorBytes_cancel {a b : List Byte} (h : a.length = b.length) : xorBytes (xorBytes a b) b = a := by
  induction a generalizing b with
  | nil => rfl
  | cons x a ih =>
    cases b with
    | nil => cases h
    | cons y b =>
      have hx : x ^^^ y ^^^ y = x := by rw [BitVec.xor_assoc, BitVec.xor_self, BitVec.xor_zero]
      have ht : xorBytes (xorBytes a b) b = a := ih (Nat.succ.inj h)
      unfold xorBytes at ht ⊢
      rw [List.zipWith_cons_cons, List.zipWith_cons_cons, hx, ht]

/-- A combination that is zero combines a list with itself. -/
theorem eq_of_xorBytes_zero {n : Nat} {a b : List Byte} (ha : a.length = n) (hb : b.length = n) (h : xorBytes a b = List.replicate n 0) : a = b := by
  induction n generalizing a b with
  | zero => rw [List.length_eq_zero_iff.1 ha, List.length_eq_zero_iff.1 hb]
  | succ n ih =>
    obtain ⟨x, a, rfl⟩ := List.exists_cons_of_length_eq_add_one ha
    obtain ⟨y, b, rfl⟩ := List.exists_cons_of_length_eq_add_one hb
    unfold xorBytes at h
    rw [List.zipWith_cons_cons, List.replicate_succ, List.cons.injEq] at h
    rw [BitVec.xor_eq_zero_iff.1 h.1, ih (Nat.succ.inj ha) (Nat.succ.inj hb) h.2]

/-! The field of FIPS 197: a product is linear in its first factor. -/

theorem gfDouble_xor (a b : Byte) : gfDouble (a ^^^ b) = gfDouble a ^^^ gfDouble b := by
  have hcarry : ∀ p q : Bool, (if (p ^^ q) = true then (0x1B : Byte) else 0) = (if p = true then 0x1B else 0) ^^^ (if q = true then 0x1B else 0) := by
    decide
  unfold gfDouble
  rw [BitVec.shiftLeft_xor_distrib, BitVec.getLsbD_xor, hcarry]
  ac_rfl

/-- One step of a product: the bit of the second factor, the sum so far, and the first factor's next double. -/
def gfStep (c : Byte) (x : Byte × Byte) (i : Nat) : Byte × Byte := (if c.getLsbD i then x.1 ^^^ x.2 else x.1, gfDouble x.2)

theorem gfMul_eq (a c : Byte) : gfMul a c = ((List.range 8).foldl (gfStep c) (0, a)).1 := rfl

theorem gfSteps_xor (c : Byte) (l : List Nat) (p q a b : Byte) :
    l.foldl (gfStep c) (p ^^^ q, a ^^^ b) =
      ((l.foldl (gfStep c) (p, a)).1 ^^^ (l.foldl (gfStep c) (q, b)).1, (l.foldl (gfStep c) (p, a)).2 ^^^ (l.foldl (gfStep c) (q, b)).2) := by
  induction l generalizing p q a b with
  | nil => rfl
  | cons i l ih =>
    have hs : gfStep c (p ^^^ q, a ^^^ b) i = ((gfStep c (p, a) i).1 ^^^ (gfStep c (q, b) i).1, (gfStep c (p, a) i).2 ^^^ (gfStep c (q, b) i).2) := by
      unfold gfStep
      cases c.getLsbD i
      · simp [gfDouble_xor]
      · simp only [gfDouble_xor, if_true, Prod.mk.injEq, and_true]
        ac_rfl
    rw [List.foldl_cons, hs, ih]
    rfl

theorem gfMul_xor (a b c : Byte) : gfMul (a ^^^ b) c = gfMul a c ^^^ gfMul b c := by
  have h := gfSteps_xor c (List.range 8) 0 0 a b
  rw [BitVec.xor_self] at h
  exact congrArg Prod.fst h

/-! The steps of a round and their inverses. -/

theorem subByte_unsubByte : ∀ b : Byte, subByte (unsubByte b) = b := by decide +kernel

/-- One byte of a column multiplied by a row. -/
def rowOf (m0 m1 m2 m3 a b c d : Byte) : Byte := 0 ^^^ gfMul a m0 ^^^ gfMul b m1 ^^^ gfMul c m2 ^^^ gfMul d m3

/-- A column multiplied by the circulant of four bytes. -/
def columnOf (m0 m1 m2 m3 a b c d : Byte) : List Byte :=
  [rowOf m0 m1 m2 m3 a b c d, rowOf m0 m1 m2 m3 b c d a, rowOf m0 m1 m2 m3 c d a b, rowOf m0 m1 m2 m3 d a b c]

theorem rowOf_rotate (m0 m1 m2 m3 a b c d : Byte) : rowOf m3 m0 m1 m2 a b c d = rowOf m0 m1 m2 m3 b c d a := by
  unfold rowOf
  ac_rfl

theorem columnOf_eq (m0 m1 m2 m3 a b c d : Byte) : columnOf m0 m1 m2 m3 a b c d =
    [rowOf m0 m1 m2 m3 a b c d, rowOf m3 m0 m1 m2 a b c d, rowOf m2 m3 m0 m1 a b c d, rowOf m1 m2 m3 m0 a b c d] := by
  rw [rowOf_rotate m0 m1 m2 m3, rowOf_rotate m3 m0 m1 m2, rowOf_rotate m0 m1 m2 m3, rowOf_rotate m2 m3 m0 m1, rowOf_rotate m3 m0 m1 m2,
    rowOf_rotate m0 m1 m2 m3]
  rfl

theorem mixWith_columns (m0 m1 m2 m3 a b c d e f g h i j k l m n o p : Byte) :
    mixWith [m0, m1, m2, m3] [a, b, c, d, e, f, g, h, i, j, k, l, m, n, o, p] =
      columnOf m0 m1 m2 m3 a b c d ++ columnOf m0 m1 m2 m3 e f g h ++ columnOf m0 m1 m2 m3 i j k l ++ columnOf m0 m1 m2 m3 m n o p := by
  simp only [columnOf_eq]
  rfl

/-- A byte multiplied by each entry of a column of one circulant, summed with the entries of a row of the other. -/
def crossOf (p0 p1 p2 p3 x : Byte) : Byte := gfMul (gfMul x p0) 2 ^^^ gfMul (gfMul x p1) 3 ^^^ gfMul (gfMul x p2) 1 ^^^ gfMul (gfMul x p3) 1

theorem crossOf_values : ∀ x : Byte, crossOf 14 9 13 11 x = x ∧ crossOf 11 14 9 13 x = 0 ∧ crossOf 13 11 14 9 x = 0 ∧ crossOf 9 13 11 14 x = 0 := by
  decide +kernel

/-- The two circulants of FIPS 197 are inverse to each other. -/
theorem rowOf_inverse (a b c d : Byte) : rowOf 2 3 1 1 (rowOf 14 11 13 9 a b c d) (rowOf 14 11 13 9 b c d a) (rowOf 14 11 13 9 c d a b)
    (rowOf 14 11 13 9 d a b c) = a := by
  have hx : rowOf 2 3 1 1 (rowOf 14 11 13 9 a b c d) (rowOf 14 11 13 9 b c d a) (rowOf 14 11 13 9 c d a b) (rowOf 14 11 13 9 d a b c) =
      crossOf 14 9 13 11 a ^^^ crossOf 11 14 9 13 b ^^^ crossOf 13 11 14 9 c ^^^ crossOf 9 13 11 14 d := by
    simp only [rowOf, crossOf, gfMul_xor, BitVec.ofNat_eq_ofNat, BitVec.zero_xor]
    ac_rfl
  obtain ⟨ha, -, -, -⟩ := crossOf_values a
  obtain ⟨-, hb, -, -⟩ := crossOf_values b
  obtain ⟨-, -, hc, -⟩ := crossOf_values c
  obtain ⟨-, -, -, hd⟩ := crossOf_values d
  rw [hx, ha, hb, hc, hd]
  exact (BitVec.xor_zero.trans BitVec.xor_zero).trans BitVec.xor_zero

theorem columnOf_inverse (a b c d : Byte) : columnOf 2 3 1 1 (rowOf 14 11 13 9 a b c d) (rowOf 14 11 13 9 b c d a) (rowOf 14 11 13 9 c d a b)
    (rowOf 14 11 13 9 d a b c) = [a, b, c, d] := by
  unfold columnOf
  rw [rowOf_inverse a b c d, rowOf_inverse b c d a, rowOf_inverse c d a b, rowOf_inverse d a b c]

theorem mixWith_inverse : ∀ {b : List Byte}, b.length = 16 → mixWith [2, 3, 1, 1] (mixWith [14, 11, 13, 9] b) = b
  | [a, b, c, d, e, f, g, h, i, j, k, l, m, n, o, p], _ => by
    rw [mixWith_columns]
    exact (mixWith_columns 2 3 1 1 _ _ _ _ _ _ _ _ _ _ _ _ _ _ _ _).trans (by
      rw [columnOf_inverse a b c d, columnOf_inverse e f g h, columnOf_inverse i j k l, columnOf_inverse m n o p]; rfl)

theorem turnRows_inverse : ∀ {b : List Byte}, b.length = 16 → turnRows 1 (turnRows 3 b) = b
  | [_, _, _, _, _, _, _, _, _, _, _, _, _, _, _, _], _ => rfl

theorem turnRows_length (k : Nat) (b : List Byte) : (turnRows k b).length = 16 := by simp [turnRows]

theorem mixWith_length (m b : List Byte) : (mixWith m b).length = 16 := by simp [mixWith]

/-- The rows turned back and the bytes substituted back. -/
def unturn (b : List Byte) : List Byte := (turnRows 3 b).map unsubByte

theorem unturn_length (b : List Byte) : (unturn b).length = 16 := by rw [unturn, List.length_map, turnRows_length]

theorem turn_unturn {b : List Byte} (h : b.length = 16) : turnRows 1 ((unturn b).map subByte) = b := by
  have hm : subByte ∘ unsubByte = id := funext subByte_unsubByte
  rw [unturn, List.map_map, hm, List.map_id, turnRows_inverse h]

/-! A decryption determines the block (FIPS 197). -/

section
variable {ks : List (List Byte)} (hk : ∀ r, r < 15 → (ks.getD r []).length = 16) {b : List Byte} (hb : b.length = 16)

/-- The state of a decryption after `r` rounds. -/
def decryptRounds (ks : List (List Byte)) (b : List Byte) (r : Nat) : List Byte :=
  (List.range r).foldl (fun b r => mixWith [14, 11, 13, 9] (xorBytes (unturn b) (ks.getD (13 - r) []))) (xorBytes b (ks.getD 14 []))

/-- The state of an encryption after `r` rounds, from its state before the first. -/
def encryptRounds (ks : List (List Byte)) (b : List Byte) (r : Nat) : List Byte :=
  (List.range r).foldl (fun b r => xorBytes (mixWith [2, 3, 1, 1] (turnRows 1 (b.map subByte))) (ks.getD (r + 1) [])) b

theorem aesDecrypt_eq (ks : List (List Byte)) (b : List Byte) : aesDecrypt ks b = xorBytes (unturn (decryptRounds ks b 13)) (ks.getD 0 []) := rfl

theorem aesEncrypt_eq (ks : List (List Byte)) (b : List Byte) : aesEncrypt ks b =
    xorBytes (turnRows 1 ((encryptRounds ks (xorBytes b (ks.getD 0 [])) 13).map subByte)) (ks.getD 14 []) := rfl

theorem decryptRounds_succ (r : Nat) : decryptRounds ks b (r + 1) =
    mixWith [14, 11, 13, 9] (xorBytes (unturn (decryptRounds ks b r)) (ks.getD (13 - r) [])) := by
  unfold decryptRounds
  rw [List.range_succ, List.foldl_append]
  rfl

theorem encryptRounds_succ (r : Nat) : encryptRounds ks b (r + 1) =
    xorBytes (mixWith [2, 3, 1, 1] (turnRows 1 ((encryptRounds ks b r).map subByte))) (ks.getD (r + 1) []) := by
  unfold encryptRounds
  rw [List.range_succ, List.foldl_append]
  rfl

include hk hb

theorem decryptRounds_length (r : Nat) : (decryptRounds ks b r).length = 16 := by
  cases r with
  | zero => exact (xorBytes_length _ _).trans (by rw [hb, hk 14 (by omega)]; rfl)
  | succ r => rw [decryptRounds_succ, mixWith_length]

/-- Round `r` of the encryption of a decrypted block undoes round `13 - r` of the decryption. -/
theorem encryptRounds_unturn (r : Nat) (hr : r ≤ 13) :
    encryptRounds ks (unturn (decryptRounds ks b 13)) r = unturn (decryptRounds ks b (13 - r)) := by
  induction r with
  | zero => rfl
  | succ r ih =>
    have hn : 13 - r = (12 - r) + 1 := by omega
    have hkr : (ks.getD (r + 1) []).length = 16 := hk (r + 1) (by omega)
    have hxl : (xorBytes (unturn (decryptRounds ks b (12 - r))) (ks.getD (r + 1) [])).length = 16 := by
      rw [xorBytes_length, unturn_length, hkr]; rfl
    rw [encryptRounds_succ, ih (by omega), turn_unturn (decryptRounds_length hk hb _), hn, decryptRounds_succ,
      show 13 - (12 - r) = r + 1 by omega, mixWith_inverse hxl, xorBytes_cancel ((unturn_length _).trans hkr.symm),
      show 13 - (r + 1) = 12 - r by omega]

theorem aesEncrypt_aesDecrypt : aesEncrypt ks (aesDecrypt ks b) = b := by
  have h0 : (ks.getD 0 []).length = 16 := hk 0 (by omega)
  have h14 : (ks.getD 14 []).length = 16 := hk 14 (by omega)
  rw [aesEncrypt_eq, aesDecrypt_eq, xorBytes_cancel ((unturn_length _).trans h0.symm), encryptRounds_unturn hk hb 13 le_rfl,
    turn_unturn (decryptRounds_length hk hb _)]
  exact xorBytes_cancel (hb.trans h14.symm)

end

/-! The key schedule: each round key has 16 bytes. -/

theorem keyWords_length (fuel i : Nat) (rc : Byte) (last : List (List Byte)) : (keyWords fuel i rc last).length = fuel := by
  induction fuel generalizing i rc last with
  | zero => rfl
  | succ fuel ih => rw [keyWords]; exact congrArg (· + 1) (ih _ _ _)

/-- Words of a key schedule: four bytes each. -/
def AreWords (ws : List (List Byte)) : Prop := ∀ w, w ∈ ws → w.length = 4

theorem areWords_getD {ws : List (List Byte)} (h : AreWords ws) {n : Nat} (hn : n < ws.length) : (ws.getD n []).length = 4 := by
  rw [List.getD_eq_getElem _ _ hn]
  exact h _ (List.getElem_mem hn)

theorem areWords_keyWords (fuel i : Nat) (rc : Byte) {last : List (List Byte)} (hl : last.length = 8) (hw : AreWords last) :
    AreWords (keyWords fuel i rc last) := by
  induction fuel generalizing i rc last with
  | zero => nofun
  | succ fuel ih =>
    have h0 : (last.getD 0 []).length = 4 := areWords_getD hw (by omega)
    have h7 : (last.getD 7 []).length = 4 := areWords_getD hw (by omega)
    rw [keyWords]
    generalize ht : (if i % 8 = 0 then xorBytes (((last.getD 7 []).drop 1 ++ (last.getD 7 []).take 1).map subByte) [rc, 0, 0, 0]
      else if i % 8 = 4 then (last.getD 7 []).map subByte else last.getD 7 []) = t
    have htl : t.length = 4 := by
      subst ht
      split
      · rw [xorBytes_length, List.length_map, List.length_append, List.length_drop, List.length_take, h7]; rfl
      · split
        · rw [List.length_map, h7]
        · exact h7
    have hx : (xorBytes (last.getD 0 []) t).length = 4 := by rw [xorBytes_length, h0, htl]; rfl
    have hnext : AreWords (last.drop 1 ++ [xorBytes (last.getD 0 []) t]) := by
      intro w h
      obtain h | h := List.mem_append.1 h
      · exact hw w (List.mem_of_mem_drop h)
      · rw [List.mem_singleton.1 h, hx]
    intro w h
    obtain rfl | h := List.mem_cons.1 h
    · exact hx
    · exact ih _ _ (by simp [hl]) hnext w h

theorem flatten_length_of_areWords {ws : List (List Byte)} (h : AreWords ws) : ws.flatten.length = 4 * ws.length := by
  induction ws with
  | nil => rfl
  | cons w ws ih =>
    rw [List.flatten_cons, List.length_append, ih fun v hv => h v (List.mem_cons_of_mem _ hv), h w List.mem_cons_self, List.length_cons]
    omega

theorem roundKeys_length {key : List Byte} (hk : key.length = 32) (r : Nat) (hr : r < 15) : ((roundKeys key).getD r []).length = 16 := by
  obtain ⟨first, hfirst⟩ : ∃ first, first = (List.range 8).map (fun i => (key.drop (4 * i)).take 4) := ⟨_, rfl⟩
  have hl : first.length = 8 := by rw [hfirst, List.length_map, List.length_range]
  have hw : AreWords first := by
    intro w h
    rw [hfirst, List.mem_map] at h
    obtain ⟨i, hi, rfl⟩ := h
    rw [List.length_take, List.length_drop, hk]
    have := List.mem_range.1 hi
    omega
  have hall : AreWords (first ++ keyWords 52 8 1 first) := by
    intro w h
    obtain h | h := List.mem_append.1 h
    · exact hw w h
    · exact areWords_keyWords 52 8 1 hl hw w h
  have hlen : (first ++ keyWords 52 8 1 first).length = 60 := by rw [List.length_append, hl, keyWords_length]
  have heq : (roundKeys key).getD r [] = (((first ++ keyWords 52 8 1 first).drop (4 * r)).take 4).flatten := by
    unfold roundKeys
    rw [← hfirst, List.getD_eq_getElem _ _ (by simpa using hr), List.getElem_map, List.getElem_range]
  have hwords : AreWords (((first ++ keyWords 52 8 1 first).drop (4 * r)).take 4) :=
    fun w h => hall w (List.mem_of_mem_drop (List.mem_of_mem_take h))
  rw [heq, flatten_length_of_areWords hwords, List.length_take, List.length_drop, hlen]
  omega

theorem aesEncrypt_length {key : List Byte} (hk : key.length = 32) (b : List Byte) : (aesEncrypt (roundKeys key) b).length = 16 := by
  rw [aesEncrypt_eq, xorBytes_length, turnRows_length, roundKeys_length hk 14 (by omega)]
  rfl

theorem aesDecrypt_length {key : List Byte} (hk : key.length = 32) (b : List Byte) : (aesDecrypt (roundKeys key) b).length = 16 := by
  rw [aesDecrypt_eq, xorBytes_length, unturn_length, roundKeys_length hk 0 (by omega)]
  rfl

/-! Control memory at reset, under a material that `LOADKEY` would give (R297, R390). -/

theorem leBytes_length (n x : Nat) : (leBytes n x).length = n := by
  induction n generalizing x with
  | zero => rfl
  | succ n ih => rw [leBytes, List.length_cons, ih]

theorem materialBytes_length (q m : Nat) : (materialBytes q m).length = 64 := by
  unfold materialBytes
  split
  · exact leBytes_length 64 _
  · rw [List.length_map, List.length_range]

theorem xtsMask_length (key : List Byte) (unit j : Nat) : (xtsMask key unit j).length = 16 := leBytes_length 16 _

theorem xtsEncrypt_length {material : List Byte} (h : material.length = 64) (unit j : Nat) (b : List Byte) :
    (xtsEncrypt material unit j b).length = 16 := by
  unfold xtsEncrypt
  dsimp only
  rw [xorBytes_length, xtsMask_length, aesEncrypt_length (by rw [List.length_take, h]; rfl)]
  rfl

/-- A block whose decryption is zero is the encryption of its mask, masked. -/
theorem mask_of_decrypt_zero {material b : List Byte} (h : material.length = 64) (hb : b.length = 16) {unit j : Nat}
    (hz : xtsDecrypt material unit j b = List.replicate 16 0) :
    aesEncrypt (roundKeys (material.take 32)) (xtsMask (material.drop 32) unit j) = xorBytes b (xtsMask (material.drop 32) unit j) := by
  have hkey : (material.take 32).length = 32 := by rw [List.length_take, h]; rfl
  have hm := xtsMask_length (material.drop 32) unit j
  have hd : aesDecrypt (roundKeys (material.take 32)) (xorBytes b (xtsMask (material.drop 32) unit j)) = xtsMask (material.drop 32) unit j :=
    eq_of_xorBytes_zero (aesDecrypt_length hkey _) hm hz
  have hx : (xorBytes b (xtsMask (material.drop 32) unit j)).length = 16 := by rw [xorBytes_length, hb, hm]; rfl
  rw [← aesEncrypt_aesDecrypt (roundKeys_length hkey) hx, hd]

/-- What the first 16 bytes of control memory hold at reset: zeros under the key of slot 0, which the package's generator made. -/
def resetBlock : List Byte := xtsEncrypt (materialBytes 0 0) 0 0 (List.replicate 16 0)

theorem resetBlock_length : resetBlock.length = 16 := xtsEncrypt_length (materialBytes_length 0 0) 0 0 _

theorem readByte_reset_other {m : Nat} (hm : m ≠ 0) {k : Nat} (hk : k < 16) :
    readByte State.reset ⟨0, m⟩ k = (xtsDecrypt (materialBytes 0 m) 0 0 resetBlock).getD k 0 := by
  have hline : k / 128 = 0 := by omega
  have hblock : k % 128 / 16 = 0 := by omega
  have hstart : k / 16 * 16 = 0 := by omega
  have hpkg : keyPkg k = 0 := by unfold keyPkg; omega
  have hkey : lineKey State.reset 0 = some ⟨⟨0, 0⟩, 0, (State.reset.pkg 0).epoch⟩ := rfl
  have hsame : sameKey State.reset ⟨0, m⟩ 0 ⟨⟨0, 0⟩, 0, (State.reset.pkg 0).epoch⟩ = false := by
    unfold sameKey
    simp [hm.symm]
  unfold readByte
  rw [hline, hkey]
  dsimp only
  rw [hsame, hpkg, hblock, hstart, Nat.mod_eq_of_lt hk, if_neg Bool.false_ne_true]
  rfl

theorem decrypt_zero_of_reads {m : Nat} (hm : m ≠ 0) (h : ∀ k, readByte State.reset ⟨0, m⟩ k = 0) :
    xtsDecrypt (materialBytes 0 m) 0 0 resetBlock = List.replicate 16 0 := by
  have hl : (xtsDecrypt (materialBytes 0 m) 0 0 resetBlock).length = 16 := by
    unfold xtsDecrypt
    dsimp only
    rw [xorBytes_length, xtsMask_length, aesDecrypt_length (by rw [List.length_take, materialBytes_length]; rfl)]
    rfl
  refine List.ext_getElem (by rw [hl, List.length_replicate]) fun k hk _ => ?_
  have hk' : k < 16 := hl ▸ hk
  have hr := (readByte_reset_other hm hk').symm.trans (h k)
  rw [List.getD_eq_getElem _ _ hk] at hr
  rw [hr, List.getElem_replicate]

/-! Two data keys with one tweak key: materials 2 and 4. -/

/-- The mask of the first block under the tweak key that is zero. -/
def zeroMask : List Byte := [220, 149, 192, 120, 162, 64, 137, 137, 173, 72, 162, 20, 146, 132, 32, 135]

theorem xtsMask_zero : xtsMask (leBytes 32 0) 0 0 = zeroMask := by decide +kernel

theorem aesEncrypt_zeroKey : aesEncrypt (roundKeys (leBytes 32 0)) zeroMask = [8, 195, 116, 132, 140, 34, 130, 51, 194, 179, 79, 51, 43, 210, 233, 211] := by
  decide +kernel

theorem aesEncrypt_oneKey : aesEncrypt (roundKeys (leBytes 32 1)) zeroMask = [92, 45, 249, 236, 137, 189, 82, 226, 76, 159, 37, 88, 21, 195, 23, 176] := by
  decide +kernel

theorem materialBytes_two : materialBytes 0 2 = leBytes 32 0 ++ leBytes 32 0 := by decide +kernel

theorem materialBytes_four : materialBytes 0 4 = leBytes 32 1 ++ leBytes 32 0 := by decide +kernel

theorem encrypts_of_reads {m : Nat} (hm : m ≠ 0) {key : List Byte} (hkey : key.length = 32) (hmat : materialBytes 0 m = key ++ leBytes 32 0)
    (h : ∀ k, readByte State.reset ⟨0, m⟩ k = 0) : aesEncrypt (roundKeys key) zeroMask = xorBytes resetBlock zeroMask := by
  have hz := mask_of_decrypt_zero (materialBytes_length 0 m) resetBlock_length (decrypt_zero_of_reads hm h)
  rw [hmat, List.take_left' hkey, List.drop_left' hkey, xtsMask_zero] at hz
  exact hz

end Sys2Proof.Machine

open Sys2Proof Sys2Proof.Machine Sys2Proof.Claims

/-- Refutes O26: the statement has control memory at reset read zero under every key material. The line is held under the material
that the package's generator made, so under another it reads as a decryption of other text (R297, R298); material 2 (data key 0)
and material 4 (data key 1), with one tweak key, cannot both give zero for the same ciphertext. -/
theorem not_resetValues : ¬Obligations.ResetValues := by
  unfold Obligations.ResetValues
  rintro ⟨-, hread, -⟩
  have h2 := encrypts_of_reads (m := 2) (by decide) (leBytes_length 32 0) materialBytes_two fun k => hread _ k
  have h4 := encrypts_of_reads (m := 4) (by decide) (leBytes_length 32 1) materialBytes_four fun k => hread _ k
  have h24 := h2.trans h4.symm
  rw [aesEncrypt_zeroKey, aesEncrypt_oneKey] at h24
  exact absurd h24 (by decide)
end

section
/-! SUPPORT. What a lane word with operands does: its entry, what it reads, what it writes, and its end (R121 to R124). -/

open Sys2Proof.Claims

namespace Sys2Proof.Machine

/-! The entry (R13, R121, R122). -/

section
variable {regs : List (BitVec 9 × Bool)}

theorem any_beyondVn_iff {vn : Nat} : regs.any (beyondVn vn) = true ↔ ∃ r, Names regs r ∧ vn ≤ r := by
  simp only [List.any_eq_true, beyondVn, Bool.and_eq_true, decide_eq_true_eq]
  constructor
  · rintro ⟨x, hx, hlt, hvn⟩
    refine ⟨_, ⟨x, hx, hlt, ?_⟩, hvn⟩
    cases x.2 <;> simp
  · rintro ⟨r, ⟨x, hx, hlt, rfl | ⟨h2, rfl⟩⟩, hvn⟩
    · exact ⟨x, hx, hlt, by omega⟩
    · exact ⟨x, hx, hlt, by simpa [h2] using hvn⟩

theorem any_awaited_iff {g : Group} : regs.any (awaited g) = true ↔ ∃ r, Names regs r ∧ r ∈ g.vawait := by
  simp only [List.any_eq_true, awaited, Bool.and_eq_true, Bool.or_eq_true, decide_eq_true_eq, List.contains_iff_mem]
  constructor
  · rintro ⟨x, hx, hlt, hm | ⟨h2, hm⟩⟩
    · exact ⟨_, ⟨x, hx, hlt, .inl rfl⟩, hm⟩
    · exact ⟨_, ⟨x, hx, hlt, .inr ⟨h2, rfl⟩⟩, hm⟩
  · rintro ⟨r, ⟨x, hx, hlt, rfl | ⟨h2, rfl⟩⟩, hm⟩
    · exact ⟨x, hx, hlt, .inl hm⟩
    · exact ⟨x, hx, hlt, .inr ⟨h2, hm⟩⟩

variable {s : State} {msel : BitVec 3} {e : LaneEnv}

/-- The active lanes, all of the split's under m0 (R30, R67). -/
theorem act_of_laneAt (h : LaneAt s msel e) : e.act = e.sp.mask &&& maskOf e.sp msel.toNat := by
  refine BitVec.eq_of_getLsbD_eq fun l hl => ?_
  rw [h.act l hl, BitVec.getLsbD_and, maskOf]
  by_cases h0 : msel = 0
  · simp [h0]
  · have : msel.toNat ≠ 0 := fun hn => h0 (BitVec.eq_of_toNat_eq hn)
    rw [if_neg h0, if_neg this]

/-- The entry of a lane word in a user group that has a split: the two checks of its registers. -/
theorem laneEnter_of_laneAt (hu : UserGroup s) (h : LaneAt s msel e) : laneEnter msel regs s =
    raiseIf (regs.any (beyondVn (selfVn s))) .bound 2 >>= fun _ => stallIf (regs.any (awaited (selfGroup s))) >>= fun _ => .ok e := by
  obtain ⟨hgroup, huser⟩ := hu
  have he : e = { ag := s.cur, id := e.id, sp := e.sp, act := e.sp.mask &&& maskOf e.sp msel.toNat } := by
    rw [← act_of_laneAt h, ← h.ag]
  unfold laneEnter
  rw [raiseIf_passes (by simp [hgroup, huser]), lowestSplit_of_laneAt h]
  dsimp only
  rw [← he]

theorem laneEnter_runs (h : LaneRuns s msel regs e) : laneEnter msel regs s = .ok e := by
  obtain ⟨hu, hat, hready⟩ := h
  rw [laneEnter_of_laneAt hu hat, raiseIf_passes, stallIf_passes]
  · rw [← Bool.not_eq_true, any_awaited_iff]
    rintro ⟨r, hr, hm⟩
    exact (hready r hr).2 hm
  · rw [← Bool.not_eq_true, any_beyondVn_iff]
    rintro ⟨r, hr, hvn⟩
    exact absurd (hready r hr).1 (by omega)

theorem laneEnter_beyond (hu : UserGroup s) (h : LaneAt s msel e) (hr : ∃ r, Names regs r ∧ selfVn s ≤ r) :
    laneEnter msel regs s = .error (.trap { cls := .bound, detail := 2 }) := by
  rw [laneEnter_of_laneAt hu h, raiseIf_stops (any_beyondVn_iff.mpr hr)]

theorem laneEnter_awaits (hu : UserGroup s) (h : LaneAt s msel e) (hvn : ∀ r, Names regs r → r < selfVn s)
    (hr : ∃ r, Names regs r ∧ r ∈ (selfGroup s).vawait) : laneEnter msel regs s = .error .stall := by
  rw [laneEnter_of_laneAt hu h, raiseIf_passes, stallIf_stops (any_awaited_iff.mpr hr)]
  rw [← Bool.not_eq_true, any_beyondVn_iff]
  rintro ⟨r, hr, hle⟩
  exact absurd (hvn r hr) (by omega)

end

/-! The operands: reading them changes no more than the queues (R17). -/

/-- What is read of a group leaves its splits. -/
def KeepsSplits {α : Type} (g : Group) (x : Except Stop (α × Group)) : Prop := ∀ a g', x = .ok (a, g') → g'.splits = g.splits

theorem keepsSplits_ok {α : Type} {g : Group} (a : α) : KeepsSplits g (.ok (a, g)) := fun _ _ h => by cases h; rfl

theorem keepsSplits_bind {α β : Type} {g : Group} {x : Except Stop (α × Group)} {f : α × Group → Except Stop (β × Group)}
    (hx : KeepsSplits g x) (hf : ∀ a g', KeepsSplits g' (f (a, g'))) : KeepsSplits g (x >>= f) := by
  intro b g' h
  cases x with
  | error e => cases h
  | ok y => exact (hf y.1 y.2 b g' h).trans (hx y.1 y.2 rfl)

section
variable (e : LaneEnv) (slots : Vector Word32 16) (imm : Word32) (sel : BitVec 9) (g : Group)

theorem takeQueue_keepsSplits (pop : Bool) (n : Nat) : KeepsSplits g (takeQueue pop n g) := by
  intro x g' h
  unfold takeQueue at h
  dsimp only at h
  split at h
  · split at h <;> cases h
  · cases h
  · cases h
    cases pop <;> rfl

theorem read32_keepsSplits : KeepsSplits g (read32 e imm sel g) := by
  unfold read32
  dsimp only
  split_ifs
  · exact keepsSplits_ok _
  · exact keepsSplits_ok _
  · exact keepsSplits_bind (takeQueue_keepsSplits g true _) fun x g' => keepsSplits_ok _
  · exact keepsSplits_bind (takeQueue_keepsSplits g false _) fun x g' => keepsSplits_ok _
  · exact keepsSplits_ok _
  · exact keepsSplits_ok _
  · exact keepsSplits_ok _

theorem readSel_keepsSplits (t : Nat) : KeepsSplits g (readSel e slots t imm sel g) := by
  unfold readSel
  dsimp only
  split_ifs
  · exact keepsSplits_ok _
  · exact keepsSplits_ok _
  · exact keepsSplits_ok _
  · exact keepsSplits_bind (read32_keepsSplits e imm sel g) fun lo g' =>
      keepsSplits_bind (read32_keepsSplits e imm (sel + 1) g') fun hi g' => keepsSplits_ok _
  · exact keepsSplits_bind (read32_keepsSplits e imm sel g) fun v g' => keepsSplits_ok _

theorem readOps_keepsSplits (w : LaneWord) (ts : List Nat) : KeepsSplits g (readOps e slots w ts g) := by
  have hread (sel : BitVec 9) (t : Nat) (g : Group) := readSel_keepsSplits e slots w.imm sel g t
  match ts with
  | [] => exact keepsSplits_ok _
  | [ta] => exact keepsSplits_bind (hread w.a ta g) fun a g => keepsSplits_ok _
  | [ta, tb] => exact keepsSplits_bind (hread w.a ta g) fun a g => keepsSplits_bind (hread w.b tb g) fun b g => keepsSplits_ok _
  | ta :: tb :: tc :: _ =>
    exact keepsSplits_bind (hread w.a ta g) fun a g => keepsSplits_bind (hread w.b tb g) fun b g =>
      keepsSplits_bind (hread w.c tc g) fun c g => keepsSplits_ok _

end

theorem lowestSplit_of_splits {g g' : Group} (h : g'.splits = g.splits) : lowestSplit g' = lowestSplit g := by
  unfold lowestSplit
  rw [h]

/-! The results (R122, R123). -/

theorem writeV_get {act : Word32} {n : Nat} {vals : List Nat} {g : Group} {r l : Nat} (hr : r < 256) (hl : l < 32) :
    Vec.get (Vec.get (writeV act n vals g).v r) l =
      if act.getLsbD l && decide (r = n) then BitVec.ofNat 32 (vals.getD l 0) else Vec.get (Vec.get g.v r) l := by
  unfold writeV
  by_cases h : r = n
  · subst h
    simp [Vec.get_set_self _ _ _ hr, Vec.get_make _ hl]
  · simp [Vec.get_set_other _ _ (Ne.symm h), h]

/-- Results written in the lanes that `on` holds. -/
theorem laneWrites_writeResult {wide : Bool} {act : Word32} {n : Nat} {vals : List Nat} {g : Group} {on : Nat → Bool} {val : Nat → Nat}
    (hon : ∀ l, l < 32 → act.getLsbD l = on l) (hval : ∀ l, l < 32 → on l = true → vals.getD l 0 = val l) :
    LaneWrites n wide on val g (writeResult wide act n vals g) := by
  have hhigh (l : Nat) : (vals.map (· / 2 ^ 32)).getD l 0 = vals.getD l 0 / 2 ^ 32 := List.getD_map vals 0 (· / 2 ^ 32)
  refine ⟨by cases wide <;> rfl, fun r l hr hl => ?_⟩
  cases wide with
  | false =>
    rw [writeResult, if_neg (by simp), writeV_get hr hl, hon l hl]
    cases h : on l with
    | false => simp
    | true =>
      rw [hval l hl h]
      simp
  | true =>
    rw [writeResult, if_pos rfl, writeV_get hr hl, writeV_get hr hl, hhigh, hon l hl]
    cases h : on l with
    | false => simp
    | true =>
      rw [hval l hl h]
      by_cases hn : r = n
      · simp [hn]
      · simp [hn]

theorem lowestSplit_writeResult (wide : Bool) (act : Word32) (n : Nat) (vals : List Nat) (g : Group) :
    lowestSplit (writeResult wide act n vals g) = lowestSplit g := lowestSplit_of_splits (by cases wide <;> rfl)

/-! The end of a lane word (R16, R121). -/

/-- The running group becomes `g`, whose split `id` is the executing one, and the word is behind it. -/
theorem laneStep_laneNext {g : Group} {id : Nat} {sp : Split} (s : State) (h : lowestSplit g = some (id, sp)) :
    LaneStep (stepped id g) s (laneNext (s.setGroup s.cur g)) := by
  have hself : selfGroup (s.setGroup s.cur g) = g := group_setGroup_self s s.cur g
  have hnext : laneNext (s.setGroup s.cur g) =
      mapSelfGroup mergeSplits (retire (mapSplit id (fun sp => { sp with lpc := sp.lpc + 12 }) (s.setGroup s.cur g))) := by
    unfold laneNext
    rw [hself, h]
  have hblocks := retire_sameBlocks (mapSplit id (fun sp => { sp with lpc := sp.lpc + 12 }) (s.setGroup s.cur g))
  rw [hnext]
  refine ⟨?_, fun a ha => ?_, by simp [mapSplit, hself, stepped], hblocks,
    SameBytes.of_parts (by simp [mapSplit]) (by simp [mapSplit]) (by simp [mapSplit]) hblocks⟩
  · rw [retire_rest]
    rfl
  · have hretire (x : State) : (retire x).group a = x.group a := by simp [State.group]
    rw [mapSelfGroup, mapGroup, group_setGroup_other _ _ (by simpa [mapSplit] using ha), hretire, mapSplit, mapSelfGroup, mapGroup,
      group_setGroup_other _ _ (by simpa using ha), group_setGroup_other _ _ ha]

/-! A lane word as a whole. -/

/-- The shape that lane words with operands share: it enters with the registers `regs`, reads operands of types `ts`, draws under
the rounding code `rm`, and `f` is what becomes of the group. -/
def operandForm (regs : List (BitVec 9 × Bool)) (ts : List Nat) (rm : Nat) (f : LaneEnv → List (List Nat) → Word32 → Group → Group) (w : LaneWord)
    (s : State) : Eff := do
  let e ← laneEnter w.msel regs s
  let (ops, g) ← readOps e (selfSlots s) w ts (selfGroup s)
  let (z, s) := draw rm s
  .ok (s.setGroup s.cur (f e ops z g))

/-- The group after the results `f` are written in the active lanes. -/
def withResult (td : Nat) (f : LaneEnv → List (List Nat) → Word32 → List Nat) (w : LaneWord) (e : LaneEnv) (ops : List (List Nat)) (z : Word32)
    (g : Group) : Group :=
  writeResult (wideTy td) e.act w.dst.toNat (f e ops z) g

theorem laneCross_eq (ts : List Nat) (td rm : Nat) (f : LaneEnv → List (List Nat) → Word32 → List Nat) (w : LaneWord) :
    laneCross ts td rm f w = operandForm (namedRegs w ts (some (wideTy td))) ts rm (withResult td f w) w := rfl

/-- Each active lane's result from the lane's own operands. -/
def laneByLane (rm : Nat) (f : (Nat → Nat) → Rnd → Nat) (e : LaneEnv) (ops : List (List Nat)) (z : Word32) : List Nat :=
  (List.range 32).map (fun l => if e.on l then f (fun k => opnd ops k l) ⟨rm, drawRv z l⟩ else 0)

theorem laneMap_eq (ts : List Nat) (td rm : Nat) (f : (Nat → Nat) → Rnd → Nat) (w : LaneWord) :
    laneMap ts td rm f w = laneCross ts td rm (laneByLane rm f) w := rfl

/-- The group after bits of a mask register of the executing split are written in its active lanes (R124). -/
def withMask (e : LaneEnv) (k : Nat) (bits : Word32) (g : Group) : Group :=
  { g with splits := Vec.set g.splits e.id ((Vec.get g.splits e.id).map (fun sp =>
    { sp with m := Vec.set sp.m (k - 1) ((bits &&& e.act) ||| (maskOf sp k &&& ~~~e.act)) })) }

theorem writeMask_setGroup (e : LaneEnv) (k : Nat) (bits : Word32) (g : Group) (s : State) :
    writeMask e k bits (s.setGroup s.cur g) = s.setGroup s.cur (withMask e k bits g) := by
  simp only [writeMask, mapSplit, mapSelfGroup, mapGroup, State.setGroup_cur, group_setGroup_self]
  simp only [State.setGroup, Table.put_put]
  rfl

theorem laneMask_eq (ts : List Nat) (f : (Nat → Nat) → Bool) (w : LaneWord) :
    laneMask ts f w = operandForm (namedRegs w ts none) ts 0
      (fun e ops _ g => withMask e w.dst.toNat (maskWord (fun l => f (fun k => opnd ops k l))) g) w := by
  funext s
  simp only [laneMask, writeMask_setGroup]
  rfl

theorem draw_of_draws {rm : Nat} {s s1 : State} {z : Word32} (h : Draws rm s z s1) : draw rm s = (z, s1) := by
  unfold draw
  by_cases h5 : rm = 5
  · obtain ⟨rfl, rfl⟩ := h.2 h5
    rw [if_pos h5]
  · obtain ⟨rfl, rfl⟩ := h.1 h5
    rw [if_neg h5]

section
variable {i : Instr} {regs : List (BitVec 9 × Bool)} {ts : List Nat} {rm : Nat} {f : LaneEnv → List (List Nat) → Word32 → Group → Group}
  {w : LaneWord} {s : State} (hi : exec i s = laneStep (operandForm regs ts rm f w) s)
include hi

theorem operandForm_runs {e : LaneEnv} {ops : List (List Nat)} {g : Group} {z : Word32} {s1 : State} (hr : LaneRuns s w.msel regs e)
    (hops : readOps e (selfSlots s) w ts (selfGroup s) = .ok (ops, g)) (hd : Draws rm s z s1) {sp : Split}
    (hsplit : lowestSplit (f e ops z g) = some (e.id, sp)) : ∃ t, exec i s = .next t ∧ LaneStep (stepped e.id (f e ops z g)) s1 t := by
  refine ⟨_, ?_, laneStep_laneNext s1 hsplit⟩
  rw [hi, laneStep, operandForm, laneEnter_runs hr, ok_bind, hops, ok_bind, draw_of_draws hd]
  rfl

theorem operandForm_readRules : ReadRules i w ts regs s := by
  intro e hr
  constructor
  · intro x hx
    rw [hi, laneStep, operandForm, laneEnter_runs hr, ok_bind, hx]
    rfl
  · intro hx
    rw [hi, laneStep, operandForm, laneEnter_runs hr, ok_bind, hx]
    rfl

theorem operandForm_registerRules : RegisterRules i w.msel regs s := by
  rintro hu ⟨e, he⟩
  constructor
  · intro hbeyond
    rw [hi, laneStep, operandForm, laneEnter_beyond hu he hbeyond]
    rfl
  · intro hvn hawaits
    rw [hi, laneStep, operandForm, laneEnter_awaits hu he hvn hawaits]
    rfl

end

/-- The executing split is that of the entry when the operands are read. -/
theorem lowestSplit_readOps {s : State} {msel : BitVec 3} {regs : List (BitVec 9 × Bool)} {e : LaneEnv} {w : LaneWord} {ts : List Nat}
    {ops : List (List Nat)} {g : Group} (hr : LaneRuns s msel regs e) (hops : readOps e (selfSlots s) w ts (selfGroup s) = .ok (ops, g)) :
    lowestSplit g = some (e.id, e.sp) := by
  obtain ⟨-, hat, -⟩ := hr
  rw [lowestSplit_of_splits (readOps_keepsSplits e (selfSlots s) (selfGroup s) w ts ops g hops), lowestSplit_of_laneAt hat]

section
variable {i : Instr} {ts : List Nat} {td rm : Nat} {w : LaneWord} {s : State} {val : LaneEnv → List (List Nat) → Word32 → Nat → Nat}

/-- A form that computes its results from all lanes' operands. -/
theorem laneResult_of_laneCross {f : LaneEnv → List (List Nat) → Word32 → List Nat} (hi : exec i s = laneStep (laneCross ts td rm f w) s)
    (hval : ∀ e ops z l, l < 32 → e.on l = true → (f e ops z).getD l 0 = val e ops z l) : LaneResult i w ts td rm val s := by
  rw [laneCross_eq] at hi
  refine ⟨fun e ops g z s1 hr hops hd => ?_, operandForm_readRules hi, operandForm_registerRules hi⟩
  have hsplit := (lowestSplit_writeResult (wideTy td) e.act w.dst.toNat (f e ops z) g).trans (lowestSplit_readOps hr hops)
  obtain ⟨t, ht, hstep⟩ := operandForm_runs hi hr hops hd hsplit
  exact ⟨_, t, ht, laneWrites_writeResult (fun _ _ => rfl) (hval e ops z), hstep⟩

/-- A form that computes each lane's result from the lane's own operands. -/
theorem laneResult_of_laneMap {f : (Nat → Nat) → Rnd → Nat} (hi : exec i s = laneStep (laneMap ts td rm f w) s)
    (hval : ∀ e ops z l, f (fun k => opnd ops k l) ⟨rm, drawRv z l⟩ = val e ops z l) : LaneResult i w ts td rm val s := by
  rw [laneMap_eq] at hi
  refine laneResult_of_laneCross hi fun e ops z l hl hon => ?_
  rw [← hval e ops z l]
  simp [laneByLane, hl, hon]

end

/-! Results in a mask register (R69, R124). -/

/-- A mask by its bits: the sum of the powers of two of the first `n` lanes that `f` holds. -/
def bitSum (f : Nat → Bool) (n : Nat) : Nat := (List.range n).foldl (fun m l => if f l then m + 2 ^ l else m) 0

theorem bitSum_succ (f : Nat → Bool) (n : Nat) : bitSum f (n + 1) = if f n then bitSum f n + 2 ^ n else bitSum f n := by
  simp [bitSum, List.range_succ]

theorem bitSum_lt (f : Nat → Bool) (n : Nat) : bitSum f n < 2 ^ n := by
  induction n with
  | zero => exact Nat.one_pos
  | succ n ih =>
    rw [bitSum_succ, Nat.pow_succ]
    split <;> omega

theorem testBit_bitSum (f : Nat → Bool) (n l : Nat) : (bitSum f n).testBit l = (decide (l < n) && f l) := by
  induction n with
  | zero => simp [bitSum]
  | succ n ih =>
    have htop : (bitSum f n).testBit n = false := Nat.testBit_lt_two_pow (bitSum_lt f n)
    rw [bitSum_succ]
    rcases Nat.lt_trichotomy l n with h | rfl | h
    · have hl : (if f n then bitSum f n + 2 ^ n else bitSum f n).testBit l = (bitSum f n).testBit l := by
        split
        · rw [Nat.add_comm, Nat.testBit_two_pow_add_gt h]
        · rfl
      rw [hl, ih]
      simp [h, Nat.lt_succ_of_lt h]
    · cases hf : f l with
      | false => simpa using htop
      | true => simp [Nat.add_comm, Nat.testBit_two_pow_add_eq, htop]
    · have hlt : (if f n then bitSum f n + 2 ^ n else bitSum f n) < 2 ^ l := by
        rw [← bitSum_succ]
        exact (bitSum_lt f (n + 1)).trans_le (Nat.pow_le_pow_right (by decide) h)
      rw [Nat.testBit_lt_two_pow hlt]
      simp [Nat.not_lt.mpr (Nat.succ_le_of_lt h)]

theorem maskWord_getLsbD (f : Nat → Bool) {l : Nat} (hl : l < 32) : (maskWord f).getLsbD l = f l := by
  have h : maskWord f = BitVec.ofNat 32 (bitSum f 32) := rfl
  rw [h, BitVec.getLsbD_ofNat, testBit_bitSum]
  simp [hl]

section
variable {e : LaneEnv} {k : Nat} {bits : Word32} {g : Group}

/-- The mask registers of the executing split after one is written. -/
def maskWritten (e : LaneEnv) (k : Nat) (bits : Word32) : Vector Word32 7 :=
  Vec.set e.sp.m (k - 1) ((bits &&& e.act) ||| (maskOf e.sp k &&& ~~~e.act))

theorem withMask_eq (h : Vec.get g.splits e.id = some e.sp) :
    withMask e k bits g = { g with splits := Vec.set g.splits e.id (some { e.sp with m := maskWritten e k bits }) } := by
  rw [withMask, h]
  rfl

theorem maskWritten_get (h0 : 1 ≤ k) {j l : Nat} (hj : j < 7) (hl : l < 32) :
    (Vec.get (maskWritten e k bits) j).getLsbD l = if e.on l && decide (j + 1 = k) then bits.getLsbD l else (Vec.get e.sp.m j).getLsbD l := by
  unfold maskWritten
  by_cases hk : j + 1 = k
  · subst hk
    rw [Nat.add_sub_cancel, Vec.get_set_self _ _ _ hj, BitVec.or_comm, getLsbD_chosen _ _ _ hl]
    simp [LaneEnv.on, maskOf]
  · rw [Vec.get_set_other _ _ (by omega)]
    simp [hk]

/-- New mask registers leave the executing split the lowest. -/
theorem lowestSplit_withMasks {s : State} {msel : BitVec 3} (h : LaneAt s msel e) (hg : g.splits = (selfGroup s).splits) (m : Vector Word32 7) :
    lowestSplit { g with splits := Vec.set g.splits e.id (some { e.sp with m := m }) } = some (e.id, { e.sp with m := m }) := by
  obtain ⟨hid, hsp⟩ := h.split
  have hself (x : Group) : selfGroup (s.setGroup s.cur x) = x := group_setGroup_self s s.cur x
  have hat : LaneAt (s.setGroup s.cur { g with splits := Vec.set g.splits e.id (some { e.sp with m := m }) }) 0
      { e with ag := s.cur, sp := { e.sp with m := m }, act := e.sp.mask } := by
    refine ⟨rfl, ⟨hid, ?_⟩, fun i sp hi hsp' => ?_, fun l _ => by simp⟩
    · rw [hself]
      exact Vec.get_set_self _ _ _ hid
    · rw [hself] at hsp'
      by_cases h' : i = e.id
      · subst h'
        rw [Vec.get_set_self _ _ _ hid] at hsp'
        cases hsp'
        exact .inr ⟨rfl, le_rfl⟩
      · rw [Vec.get_set_other _ _ (Ne.symm h'), hg] at hsp'
        exact h.lowest i sp hi hsp'
  have hl := lowestSplit_of_laneAt hat
  rwa [hself] at hl

end

theorem draws_none (s : State) : Draws 0 s 0 s := ⟨fun _ => ⟨rfl, rfl⟩, fun h => absurd h (by decide)⟩

/-- A form whose result is one bit of each active lane. -/
theorem maskResult_of_laneMask {i : Instr} {ts : List Nat} {f : (Nat → Nat) → Bool} {w : LaneWord} {s : State}
    {bit : LaneEnv → List (List Nat) → Nat → Bool} (hi : exec i s = laneStep (laneMask ts f w) s) (hdst : 1 ≤ w.dst.toNat)
    (hbit : ∀ e ops l, f (fun k => opnd ops k l) = bit e ops l) : MaskResult i w ts bit s := by
  rw [laneMask_eq] at hi
  refine ⟨fun e ops g hr hops => ?_, operandForm_readRules hi, operandForm_registerRules hi⟩
  have ⟨_, hat, _⟩ := hr
  have hg := readOps_keepsSplits e (selfSlots s) (selfGroup s) w ts ops g hops
  have hmask := withMask_eq (k := w.dst.toNat) (bits := maskWord (fun l => f (fun k => opnd ops k l))) (hg ▸ hat.split.2)
  obtain ⟨t, ht, hstep⟩ := operandForm_runs hi hr hops (draws_none s)
    ((congrArg lowestSplit hmask).trans (lowestSplit_withMasks hat hg _))
  refine ⟨_, t, ht, fun k l hk hl => ?_, hmask ▸ hstep⟩
  rw [maskWritten_get hdst hk hl, maskWord_getLsbD _ hl, hbit e ops l]

end Sys2Proof.Machine
end

section
/-! SUPPORT. O39: the order of numbers, the smaller and the larger of two, the conditions of compares. -/

open Sys2Proof.Claims

namespace Sys2Proof.Machine

/-! The order of numbers (R30, R126). -/

theorem Num.lt_asymm {a b : Num} (h : a.lt b = true) : b.lt a = false := by
  cases a with
  | nan => cases h
  | inf x =>
    cases b with
    | nan => cases h
    | inf y => cases x <;> cases y <;> simp_all [Num.lt]
    | fin n m e => simpa [Num.lt] using h
  | fin n m e =>
    cases b with
    | nan => cases h
    | inf y => simpa [Num.lt] using h
    | fin n' m' e' =>
      simp only [Num.lt, decide_eq_true_eq, decide_eq_false_iff_not] at h ⊢
      rw [Int.min_comm e' e]
      omega

/-- A NaN is neither below nor above a number. -/
theorem Num.lt_of_isNan {a b : Num} (h : (a.isNan || b.isNan) = true) : a.lt b = false := by
  cases a with
  | nan => rfl
  | inf _ | fin _ _ _ =>
    cases b with
    | nan => rfl
    | inf _ | fin _ _ _ => cases h

/-- Less or equal: ordered, and not above. -/
theorem Num.lt_or_eq (a b : Num) : (a.lt b || a.eq b) = (!a.isNan && !b.isNan && !b.lt a) := by
  unfold Num.eq
  cases hn : (a.isNan || b.isNan) with
  | true =>
    rw [Num.lt_of_isNan hn]
    rw [Bool.or_eq_true] at hn
    rcases hn with hn | hn <;> simp [hn]
  | false =>
    rw [Bool.or_eq_false_iff] at hn
    cases hlt : a.lt b with
    | true => simp [hn, Num.lt_asymm hlt]
    | false => simp [hn]

theorem Num.eq_comm (a b : Num) : a.eq b = b.eq a := by
  unfold Num.eq
  cases a.isNan <;> cases b.isNan <;> cases a.lt b <;> cases b.lt a <;> rfl

/-- A strict comparison holds of ordered operands alone. -/
theorem Num.lt_ordered (a b : Num) : a.lt b = (!a.isNan && !b.isNan && a.lt b) := by
  cases hn : (a.isNan || b.isNan) with
  | true => simp [Num.lt_of_isNan hn]
  | false =>
    rw [Bool.or_eq_false_iff] at hn
    simp [hn]

/-- The conditions of `FCMP` by their codes (R126). -/
def fcmpHolds (code : Nat) (a b : Num) : Bool :=
  let ordered := !a.isNan && !b.isNan
  match code with
  | 0 => ordered && !a.lt b && !b.lt a
  | 1 => !ordered || a.lt b || b.lt a
  | 2 => ordered && a.lt b
  | 3 => ordered && !b.lt a
  | 4 => ordered && b.lt a
  | 5 => ordered && !a.lt b
  | 6 => ordered
  | _ => !ordered

theorem fcmp_eq (code : Nat) (a b : Num) : fcmp code a b = fcmpHolds code a b := by
  match code with
  | 0 => rfl
  | 1 => simp [fcmp, fcmpHolds, Num.eq]
  | 2 => exact Num.lt_ordered a b
  | 3 => exact Num.lt_or_eq a b
  | 4 => simpa [fcmp, fcmpHolds, Bool.and_comm] using Num.lt_ordered b a
  | 5 => simpa [fcmp, fcmpHolds, Num.eq_comm a b, Bool.and_comm] using Num.lt_or_eq b a
  | 6 => rfl
  | n + 7 => simp [fcmp, fcmpHolds]

/-! The smaller and the larger of two numbers, -0 below +0 (R126). -/

section
variable (f : Fmt) (max : Bool) (a b : Nat)

theorem pickA_eq : pickA max (f.decode a) (f.decode b) = !(if max then fbelow f a b else fbelow f b a) := by
  unfold pickA fbelow
  cases hlt : (f.decode a).lt (f.decode b) with
  | true =>
    have hgt := Num.lt_asymm hlt
    cases max <;> simp [hgt]
  | false =>
    cases hgt : (f.decode b).lt (f.decode a) with
    | true => cases max <;> simp
    | false =>
      generalize (f.decode a).isNeg = x
      generalize (f.decode b).isNeg = y
      cases max <;> cases x <;> cases y <;> rfl

theorem fminmax_eq : fminmax f max a b = fpick f max a b := by
  unfold fminmax fpick
  dsimp only
  rw [pickA_eq]
  cases (if max then fbelow f a b else fbelow f b a) <;> rfl

/-- `FMINN` and `FMAXN`: a NaN operand gives the canonical NaN. -/
theorem fminmaxn_eq : fminmaxn f max a b =
    if (f.decode a).isNan || (f.decode b).isNan then f.nanCode else if (if max then fbelow f a b else fbelow f b a) then b else a := by
  unfold fminmaxn
  rw [fminmax_eq]
  cases hn : ((f.decode a).isNan || (f.decode b).isNan) with
  | true => rfl
  | false =>
    rw [Bool.or_eq_false_iff] at hn
    simp [fpick, hn]

end

/-! The forms in lanes. -/

section
variable {i : Instr} {w : LaneWord} {s : State}

/-- A floating form's result: the exact value of the operands, rounded once (R37). -/
theorem laneResult_of_floatForm {n : Nat} {f : Rnd → (Nat → Num) → Num} (hi : exec i s = laneStep (floatForm n f w) s) :
    LaneResult i w (List.replicate n w.ty.toNat) w.ty.toNat w.rm.toNat (fun _ ops z l =>
      (stdFmt w.ty.toNat).round ⟨w.rm.toNat, drawRv z l⟩ (f ⟨w.rm.toNat, drawRv z l⟩ (fun k => fop (stdFmt w.ty.toNat) ops k l))) s :=
  laneResult_of_laneMap (f := fun o k => (stdFmt w.ty.toNat).round k (f k (fun i => (stdFmt w.ty.toNat).decode (o i)))) hi fun _ _ _ _ => rfl

/-- A floating form on bits. -/
theorem laneResult_of_floatBits {n : Nat} {f : Fmt → (Nat → Nat) → Nat} {x : (Nat → Nat) → Nat} (hi : exec i s = laneStep (floatBits n f w) s)
    (hx : ∀ o, f (stdFmt w.ty.toNat) o = x o) :
    LaneResult i w (List.replicate n w.ty.toNat) w.ty.toNat 0 (fun _ ops _ l => x (fun k => opnd ops k l)) s :=
  laneResult_of_laneMap (f := fun o _ => f (stdFmt w.ty.toNat) o) hi fun _ _ _ _ => hx _

/-- An approximate function (R52). -/
theorem laneResult_of_approxForm {f : Num → Num} (hi : exec i s = laneStep (approxForm f w) s) : LaneResult i w [1] 1 0
    (fun _ ops _ l => fmt32.round rneMode (fmtT32.rnd rneMode (f (fop fmt32 ops 0 l)))) s :=
  laneResult_of_laneMap (f := fun o _ => fmt32.round rneMode (fmtT32.rnd rneMode (f (fmt32.decode (o 0))))) hi fun _ _ _ _ => rfl

/-- The destination of a word that answers in a mask register is no m0 (R69). -/
theorem dst_of_cmpOk {w : LaneWord} (h : w.cmpOk = true) : 1 ≤ w.dst.toNat := by
  simp only [LaneWord.cmpOk, LaneWord.dstM, Bool.and_eq_true, decide_eq_true_eq] at h
  omega

end

end Sys2Proof.Machine

open Sys2Proof Sys2Proof.Machine Sys2Proof.Claims

/-- Settles O39: each form applies one function in every active lane, and the functions are the statement's. -/
theorem laneFloats : Obligations.LaneFloats := by
  intro s w t f rm rounds bits sign nan below least most avoid spread approx
  refine ⟨fun _ => laneResult_of_floatForm (f := fun k x => numAdd k (x 0) (x 1)) rfl,
    fun _ => laneResult_of_floatForm (f := fun k x => numAdd k (x 0) (x 1).neg) rfl,
    fun _ => laneResult_of_floatForm (f := fun _ x => (x 0).mul (x 1)) rfl,
    fun _ => laneResult_of_floatForm (f := fun k x => numAdd k ((x 0).mul (x 1)) (x 2)) rfl,
    fun _ => laneResult_of_floatForm (f := fun k x => numAdd k ((x 0).mul (x 1)) (x 2).neg) rfl,
    fun _ => laneResult_of_floatForm (f := fun k x => numAdd k (x 2) ((x 0).mul (x 1)).neg) rfl,
    fun _ => laneResult_of_floatForm (f := fun k x => numAdd k ((x 0).mul (x 1)).neg (x 2).neg) rfl,
    fun _ => laneResult_of_floatBits (f := fun f o => fminmax f false (o 0) (o 1)) rfl fun o => fminmax_eq f false (o 0) (o 1),
    fun _ => laneResult_of_floatBits (f := fun f o => fminmax f true (o 0) (o 1)) rfl fun o => fminmax_eq f true (o 0) (o 1),
    fun _ => laneResult_of_floatBits (f := fun f o => fminmaxn f false (o 0) (o 1)) rfl fun o => fminmaxn_eq f false (o 0) (o 1),
    fun _ => laneResult_of_floatBits (f := fun f o => fminmaxn f true (o 0) (o 1)) rfl fun o => fminmaxn_eq f true (o 0) (o 1),
    fun _ => laneResult_of_floatBits (f := fun f o => o 0 % signBit f) rfl fun _ => rfl,
    fun _ => laneResult_of_floatBits (f := fun f o => o 0 ^^^ signBit f) rfl fun _ => rfl, ?_, fun hwf => ?_,
    fun _ => laneResult_of_approxForm rfl, fun _ => laneResult_of_approxForm rfl, fun _ => laneResult_of_approxForm rfl,
    fun _ => laneResult_of_approxForm rfl⟩
  · exact fun _ => laneResult_of_floatForm (i := .frint w) (w := w) (s := s) (n := 1) (f := fun k x => numRint k (x 0)) rfl
  · exact maskResult_of_laneMask rfl (dst_of_cmpOk (Bool.and_eq_true_iff.mp hwf).2) fun _ ops l =>
      fcmp_eq w.md.toNat (f.decode (opnd ops 0 l)) (f.decode (opnd ops 1 l))

end

section
/-! SUPPORT. O42: shuffles, votes, the pairwise tree and the scans. -/

open Sys2Proof.Claims

namespace Sys2Proof.Machine

theorem getD_map_range {f : Nat → Nat} {l : Nat} (hl : l < 32) : ((List.range 32).map f).getD l 0 = f l := by
  rw [List.getD_eq_getElem?_getD, lanes_range f l hl]
  rfl

theorem getD_replicate_lanes {x l : Nat} (hl : l < 32) : (List.replicate 32 x).getD l 0 = x := by
  rw [List.getD_eq_getElem?_getD, lanes_replicate x l hl]
  rfl

/-! Broadcasts and votes (R131, R133). -/

theorem lowestLane_eq {e : LaneEnv} {n : Nat} (hn : e.act.getLsbD n = true) (hlow : ∀ j, j < n → e.act.getLsbD j = false) : lowestLane e = n := by
  have hfind : (List.range 32).find? e.on = some n := by
    rw [List.find?_range_eq_some]
    exact ⟨hn, List.mem_range.mpr (BitVec.lt_of_getLsbD hn), fun j hj => by simp [LaneEnv.on, hlow j hj]⟩
  rw [lowestLane, hfind]
  rfl

theorem act_ne_zero {e : LaneEnv} {l : Nat} (h : e.on l = true) : e.act ≠ 0 := by
  intro h0
  rw [LaneEnv.on, h0] at h
  simp at h

theorem maskWord_eq_iff (f : Nat → Bool) (x : Word32) : maskWord f = x ↔ ∀ l, l < 32 → f l = x.getLsbD l := by
  refine ⟨fun h l hl => ?_, fun h => BitVec.eq_of_getLsbD_eq fun l hl => ?_⟩
  · rw [← h, maskWord_getLsbD f hl]
  · rw [maskWord_getLsbD f hl, h l hl]

theorem any_of_maskWord (e : LaneEnv) (p : Nat → Bool) :
    (if maskWord (fun l => e.on l && p l) = 0 then 0 else 1) = if (List.range 32).any (fun l => e.act.getLsbD l && p l) then 1 else 0 := by
  have h : maskWord (fun l => e.on l && p l) = 0 ↔ ¬(List.range 32).any (fun l => e.act.getLsbD l && p l) = true := by
    simp [maskWord_eq_iff, LaneEnv.on]
  simp only [h]
  exact ite_not _ _ _

theorem all_of_maskWord (e : LaneEnv) (p : Nat → Bool) :
    (if maskWord (fun l => e.on l && p l) = e.act then 1 else 0) =
      if (List.range 32).all (fun l => !e.act.getLsbD l || p l) then 1 else 0 := by
  have h : maskWord (fun l => e.on l && p l) = e.act ↔ (List.range 32).all (fun l => !e.act.getLsbD l || p l) = true := by
    rw [maskWord_eq_iff, List.all_eq_true]
    simp only [List.mem_range, LaneEnv.on]
    exact forall₂_congr fun l _ => by cases e.act.getLsbD l <;> simp
  simp only [h]

/-! One combination and its identity (R56, R133): the model's are the statement's in the types that the forms have. -/

/-- The types and operators of `GRED`, `SCAN` and `GREDS`. -/
theorem gredTyOk_iff {op : BitVec 3} {t : BitVec 5} : gredTyOk op t = true ↔
    (t.toNat ∈ [0, 1, 3, 4] ∧ op.toNat < 3) ∨ (t.toNat ∈ [7, 8, 11, 12] ∧ op.toNat < 6) := by
  revert op t
  decide

theorem gredTyOk_of_gredOk {w : LaneWord} {op : BitVec 3} (h : w.gredOk op = true) : gredTyOk op w.ty = true := by
  simp only [LaneWord.gredOk, Bool.and_eq_true, and_assoc] at h
  exact h.1

theorem gredTyOk_of_gredsOk {w : LaneWord} {op : BitVec 3} (h : w.gredsOk op = true) : gredTyOk op w.ty = true := by
  simp only [LaneWord.gredsOk, Bool.and_eq_true, and_assoc] at h
  exact h.1

/-- A sign extension: the numbers with the top bit set stand for those 2^n below (R34). -/
theorem sextInt_eq {n : Nat} (hn : n ≠ 0) (x : Nat) :
    sextInt x n = if 2 ^ (n - 1) ≤ x % 2 ^ n then ((x % 2 ^ n : Nat) : Int) - 2 ^ n else (x % 2 ^ n : Nat) := by
  obtain ⟨n, rfl⟩ := Nat.exists_eq_succ_of_ne_zero hn
  unfold sextInt
  dsimp only
  rw [Nat.succ_sub_one]
  have h2 : 2 ^ n.succ = 2 * 2 ^ n := Nat.pow_succ'
  by_cases h : 2 ^ n ≤ x % 2 ^ n.succ
  · rw [if_neg (by omega), if_pos h]
  · rw [if_pos (by omega), if_neg h]

theorem intOf_eq_intVal' {t : Nat} (ht : t ∈ [7, 8, 11, 12]) (x : Nat) : intOf t x = intVal' t x := by
  fin_cases ht
  · exact (sextInt_eq (n := 32) (by decide) x).trans (by simp [intVal'])
  · exact (sextInt_eq (n := 64) (by decide) x).trans (by simp [intVal'])
  · simp [intVal', intOf, tySigned, tyBytes]
  · simp [intVal', intOf, tySigned, tyBytes]

section
variable {op t : Nat} (h : (t ∈ [0, 1, 3, 4] ∧ op < 3) ∨ (t ∈ [7, 8, 11, 12] ∧ op < 6))
include h

theorem gredOp_eq (k : Rnd) (a b : Nat) : gredOp op t k a b = combines op t k a b := by
  rcases h with ⟨ht, hop⟩ | ⟨ht, hop⟩
  · have hfl : tyIsFloat t = true := by fin_cases ht <;> rfl
    interval_cases op <;> simp [gredOp, combines, hfl, ht, fminmax_eq, numAdd, zeroSign]
  · have hfl : tyIsFloat t = false := by fin_cases ht <;> rfl
    have hfl' : t ∉ [0, 1, 3, 4] := by fin_cases ht <;> decide
    have hbits : intBits t = if t = 8 ∨ t = 12 then 64 else 32 := by fin_cases ht <;> rfl
    interval_cases op <;> simp [gredOp, combines, hfl, hfl', hbits, intOf_eq_intVal' ht]

theorem gredIdent_eq : gredIdent op t = identity op t := by
  rcases h with ⟨ht, hop⟩ | ⟨ht, hop⟩ <;> fin_cases ht <;> interval_cases op <;> rfl

end

/-! The tree (R56). -/

/-- One level of the tree over the elements at distance `w` from `i` on. -/
theorem treeLevel_map_range' (f : Nat → Nat → Nat → Nat) (x : Nat → Nat) (w n i : Nat) :
    treeLevel f w i ((List.range' i (2 * n) w).map x) = (List.range' i n (2 * w)).map (fun j => f j (x j) (x (j + w))) := by
  induction n generalizing i with
  | zero => rfl
  | succ n ih =>
    have hi : i + w + w = i + 2 * w := by omega
    rw [Nat.mul_succ, List.range'_succ, List.range'_succ, List.range'_succ, hi, List.map_cons, List.map_cons, List.map_cons, treeLevel, ih]

theorem tree_eq_pairTree (f : Nat → Nat → Nat → Nat) (x : Nat → Nat) : tree f ((List.range 32).map x) = pairTree f x 5 0 := by
  rw [tree, List.range_eq_range', treeLevel_map_range' f _ 1 16, treeLevel_map_range' f _ 2 8, treeLevel_map_range' f _ 4 4,
    treeLevel_map_range' f _ 8 2, treeLevel_map_range' f _ 16 1]
  rfl

theorem gredOver_eq {op : BitVec 3} {t : BitVec 5} (h : gredTyOk op t = true) (rm : Nat) (z : Word32) (on : Nat → Bool) (a : Nat → Nat) :
    gredOver op.toNat t.toNat rm z on a = treeOf op.toNat t.toNat rm z on a := by
  have h' := gredTyOk_iff.mp h
  rw [gredOver, tree_eq_pairTree]
  simp only [gredOp_eq h', gredIdent_eq h']
  rfl

/-! The scans (R133). -/

theorem scanGo_getD {op t rm : Nat} (h : (t ∈ [0, 1, 3, 4] ∧ op < 3) ∨ (t ∈ [7, 8, 11, 12] ∧ op < 6)) (z : Word32) (excl : Bool) (e : LaneEnv)
    (a : Nat → Nat) {l m n : Nat} (hl : l < m) (hon : e.on (n + l) = true) :
    (scanGo op t rm z excl e a (List.range' n m) (scanned op t rm z e.on a n)).getD l 0 =
      scanned op t rm z e.on a (if excl then n + l else n + l + 1) := by
  induction m generalizing n l with
  | zero => omega
  | succ m ih =>
    have hrest : scanned op t rm z e.on a (n + 1) =
        if e.on n then gredOp op t ⟨rm, drawRv z n⟩ (scanned op t rm z e.on a n) (a n) else scanned op t rm z e.on a n := by
      rw [gredOp_eq h]
      rfl
    rw [List.range'_succ, scanGo]
    cases l with
    | zero =>
      rw [Nat.add_zero] at hon
      rw [if_pos hon] at hrest ⊢
      cases excl with
      | true => rfl
      | false => exact hrest.symm
    | succ l =>
      rw [show n + (l + 1) = n + 1 + l by omega] at hon ⊢
      have hnext := ih (n := n + 1) (Nat.lt_of_succ_lt_succ hl) hon
      rw [hrest] at hnext
      by_cases hn : e.on n = true
      · rw [if_pos hn] at hnext ⊢
        exact hnext
      · rw [if_neg hn] at hnext ⊢
        exact hnext

/-! The forms. -/

/-- What the lanes get from a shuffle: the element of lane `from_ l b` if that lane is active, else their own (R131). -/
def shuffledLanes (from_ : Nat → Nat → Int) (e : LaneEnv) (ops : List (List Nat)) (_z : Word32) : List Nat :=
  (List.range 32).map (fun l =>
    let k := from_ l (opnd ops 1 l)
    if 0 ≤ k ∧ k < 32 ∧ e.on k.toNat then opnd ops 0 k.toNat else opnd ops 0 l)

theorem shuffle_eq (from_ : Nat → Nat → Int) (w : LaneWord) :
    shuffle from_ w = laneCross [w.ty.toNat, 11] w.ty.toNat 0 (shuffledLanes from_) w := rfl

/-- What the lanes get from a vote over the active lanes whose source is not zero (R133). -/
def votedLanes (f : LaneEnv → Word32 → Nat) (e : LaneEnv) (ops : List (List Nat)) (_z : Word32) : List Nat :=
  List.replicate 32 (f e (maskWord (fun l => e.on l && opnd ops 0 l != 0)))

theorem vote_eq (f : LaneEnv → Word32 → Nat) (w : LaneWord) : vote f w = laneCross [11] 11 0 (votedLanes f) w := rfl

/-- What the lanes get from a scan (R133). -/
def scannedLanes (excl : Bool) (op : BitVec 3) (w : LaneWord) (e : LaneEnv) (ops : List (List Nat)) (z : Word32) : List Nat :=
  scanGo op.toNat w.ty.toNat w.rm.toNat z excl e (opnd ops 0) (List.range 32) (gredIdent op.toNat w.ty.toNat)

theorem scanForm_eq (excl : Bool) (op : BitVec 3) (w : LaneWord) :
    scanForm excl op w = laneCross [w.ty.toNat] w.ty.toNat w.rm.toNat (scannedLanes excl op w) w := rfl

section
variable {i : Instr} {w : LaneWord} {s : State}

theorem laneResult_of_shuffle {from_ : Nat → Nat → Int} (hi : exec i s = laneStep (shuffle from_ w) s) :
    LaneResult i w [w.ty.toNat, 11] w.ty.toNat 0 (fun e ops _ l =>
      let j := from_ l (opnd ops 1 l)
      if 0 ≤ j ∧ j < 32 ∧ e.act.getLsbD j.toNat then opnd ops 0 j.toNat else opnd ops 0 l) s := by
  rw [shuffle_eq] at hi
  exact laneResult_of_laneCross hi fun _ _ _ _ hl _ => getD_map_range hl

theorem laneResult_of_vote {f : LaneEnv → Word32 → Nat} (hi : exec i s = laneStep (vote f w) s) {x : LaneEnv → (Nat → Bool) → Nat}
    (hx : ∀ e p, f e (maskWord (fun l => e.on l && p l)) = x e p) :
    LaneResult i w [11] 11 0 (fun e ops _ _ => x e (fun l => decide (opnd ops 0 l ≠ 0))) s := by
  rw [vote_eq] at hi
  refine laneResult_of_laneCross hi fun e ops _ l hl _ => ?_
  have hp : (fun l => opnd ops 0 l != 0) = fun l => decide (opnd ops 0 l ≠ 0) := by
    funext l
    simp [bne, Bool.beq_eq_decide_eq]
  rw [votedLanes, getD_replicate_lanes hl, hx e fun l => opnd ops 0 l != 0, hp]

theorem laneResult_of_scanForm {excl : Bool} {op : BitVec 3} (hi : exec i s = laneStep (scanForm excl op w) s) (hop : gredTyOk op w.ty = true) :
    LaneResult i w [w.ty.toNat] w.ty.toNat w.rm.toNat (fun e ops z l =>
      scanned op.toNat w.ty.toNat w.rm.toNat z e.on (opnd ops 0) (if excl then l else l + 1)) s := by
  have hop' := gredTyOk_iff.mp hop
  rw [scanForm_eq] at hi
  refine laneResult_of_laneCross hi fun e ops z l hl hon => ?_
  have hscan := scanGo_getD hop' (rm := w.rm.toNat) z excl e (opnd ops 0) (n := 0) hl (by rwa [Nat.zero_add])
  rw [Nat.zero_add] at hscan
  rw [scannedLanes, gredIdent_eq hop', List.range_eq_range']
  exact hscan

end

/-- The lanes of `GREDS`: active, with a segment id that is not negative (R229). -/
def segmentLane (e : LaneEnv) (ops : List (List Nat)) (l : Nat) : Bool := e.on l && decide (opnd ops 1 l < 2 ^ 31)

/-- The group after `GREDS`. -/
def withSegmentResults (op : BitVec 3) (w : LaneWord) (e : LaneEnv) (ops : List (List Nat)) (z : Word32) (g : Group) : Group :=
  writeResult (wideTy w.ty.toNat) (maskWord (segmentLane e ops)) w.dst.toNat
    ((List.range 32).map (fun l => if segmentLane e ops l then
      gredOver op.toNat w.ty.toNat w.rm.toNat z (fun j => segmentLane e ops j && opnd ops 1 j == opnd ops 1 l) (opnd ops 0) else 0)) g

theorem bodyGreds_eq (op : BitVec 3) (w : LaneWord) : bodyGreds op w =
    operandForm (namedRegs w [w.ty.toNat, 11] (some (wideTy w.ty.toNat))) [w.ty.toNat, 11] w.rm.toNat (withSegmentResults op w) w := rfl

theorem lowestSplit_withSegmentResults (op : BitVec 3) (w : LaneWord) (e : LaneEnv) (ops : List (List Nat)) (z : Word32) (g : Group) :
    lowestSplit (withSegmentResults op w e ops z g) = lowestSplit g := lowestSplit_writeResult _ _ _ _ g

/-- Each segment's reduction goes to the lanes of the segment. -/
theorem laneWrites_withSegmentResults {op : BitVec 3} {w : LaneWord} (hop : gredTyOk op w.ty = true) (e : LaneEnv) (ops : List (List Nat)) (z : Word32)
    (g : Group) : LaneWrites w.dst.toNat (wideTy w.ty.toNat) (segmentLane e ops)
      (fun l => treeOf op.toNat w.ty.toNat w.rm.toNat z (fun j => segmentLane e ops j && opnd ops 1 j == opnd ops 1 l) (opnd ops 0))
      g (withSegmentResults op w e ops z g) := by
  refine laneWrites_writeResult (fun l hl => maskWord_getLsbD _ hl) fun l hl hon => ?_
  rw [getD_map_range hl, if_pos hon, gredOver_eq hop]

end Sys2Proof.Machine

open Sys2Proof Sys2Proof.Machine Sys2Proof.Claims

/-- Settles O42: the value that each form gives an active lane is the statement's function of the active lanes' operands. -/
theorem lanesAreCombined : Obligations.LanesAreCombined := by
  intro s w op t o shuffled votes
  refine ⟨fun _ => laneResult_of_shuffle (from_ := fun _ b => (b % 32 : Nat)) rfl,
    fun _ => laneResult_of_shuffle (from_ := fun l b => (l : Int) - b) rfl,
    fun _ => laneResult_of_shuffle (from_ := fun l b => (l + b : Nat)) rfl,
    fun _ => laneResult_of_shuffle (from_ := fun l b => (l ^^^ (b % 32) : Nat)) rfl,
    fun _ low hlow => ?_, ?_, ?_, fun ballot hballot => ?_, fun hwf => ?_, fun hwf => ?_, fun hwf => ?_, fun hwf => ?_⟩
  · refine laneResult_of_laneCross (f := fun e ops _ => List.replicate 32 (opnd ops 0 (lowestLane e))) rfl fun e ops z l hl hon => ?_
    obtain ⟨hact, hbelow⟩ := hlow e (act_ne_zero hon)
    rw [getD_replicate_lanes hl, lowestLane_eq hact hbelow]
    rfl
  · exact fun _ => laneResult_of_vote (i := .vany w) (w := w) (s := s) (f := fun _ m => if m = 0 then 0 else 1) rfl any_of_maskWord
  · exact fun _ => laneResult_of_vote (i := .vall w) (w := w) (s := s) (f := fun e m => if m = e.act then 1 else 0) rfl all_of_maskWord
  · exact fun _ => laneResult_of_vote (i := .vbal w) (w := w) (s := s) (f := fun _ m => m.toNat) rfl fun e p =>
      congrArg BitVec.toNat ((maskWord_eq_iff _ _).mpr fun l hl => (hballot e p l hl).symm)
  · have hop := gredTyOk_of_gredOk (Bool.and_eq_true_iff.mp hwf).1
    refine laneResult_of_laneCross
      (f := fun e ops z => List.replicate 32 (gredOver op.toNat w.ty.toNat w.rm.toNat z e.on (opnd ops 0))) rfl fun e ops z l hl _ => ?_
    rw [getD_replicate_lanes hl, gredOver_eq hop]
    rfl
  · exact laneResult_of_scanForm (excl := false) rfl (gredTyOk_of_gredOk (Bool.and_eq_true_iff.mp hwf).1)
  · exact laneResult_of_scanForm (excl := true) rfl (gredTyOk_of_gredOk (Bool.and_eq_true_iff.mp hwf).1)
  · have hi : exec (.greds op w) s = laneStep (bodyGreds op w) s := rfl
    rw [bodyGreds_eq] at hi
    refine ⟨fun e ops g z s1 hr hops hd => ?_, operandForm_readRules hi, operandForm_registerRules hi⟩
    have hsplit := (lowestSplit_withSegmentResults op w e ops z g).trans (lowestSplit_readOps hr hops)
    obtain ⟨u, hu, hstep⟩ := operandForm_runs hi hr hops hd hsplit
    exact ⟨_, u, hu, laneWrites_withSegmentResults (gredTyOk_of_gredsOk hwf) e ops z g, hstep⟩
end

section
/-! SUPPORT. O23, O24: the fields of words joined from parts, and words joined from their own fields (R59, R64, R67, R70). -/

namespace Sys2Proof

set_option Elab.async false

section
variable {v w n s : Nat}

theorem field_above {x : BitVec w} {y : BitVec v} {r : BitVec n} (h : v ≤ s) (hx : x.extractLsb' (s - v) n = r) :
    (x ++ y).extractLsb' s n = r := (BitVec.extractLsb'_append_eq_of_le h).trans hx

theorem field_below {x : BitVec w} {y : BitVec v} {r : BitVec n} (h : s + n ≤ v) (hy : y.extractLsb' s n = r) :
    (x ++ y).extractLsb' s n = r := (BitVec.extractLsb'_append_eq_of_add_le h).trans hy

theorem field_low (x : BitVec w) (y : BitVec v) : (x ++ y).extractLsb' 0 v = y :=
  field_below (Nat.zero_add v).le BitVec.extractLsb'_eq_self

theorem field_of_field (x : BitVec w) {l s' l' : Nat} (h : s' + l' ≤ l) : (x.extractLsb' s l).extractLsb' s' l' = x.extractLsb' (s + s') l' := by
  refine BitVec.eq_of_getLsbD_eq fun i hi => ?_
  simp only [BitVec.getLsbD_extractLsb', Nat.add_assoc, decide_eq_true hi, show s' + i < l by omega, decide_true, Bool.true_and]

/-- A bit is a bit of a field that holds it. -/
theorem bit_of_field {x : BitVec w} {r : BitVec n} (h : x.extractLsb' s n = r) (k : Nat) (hk : k < n) : x.getLsbD (s + k) = r.getLsbD k := by
  rw [← h, BitVec.getLsbD_extractLsb', decide_eq_true hk, Bool.true_and]

end

/-! The parts of immediate and function fields. -/

section
variable (t : BitVec 2) (x y : BitVec 6)

@[simp] theorem parts_high : (t ++ x ++ y : BitVec 14).extractLsb' 12 2 = t := field_above (by decide) (BitVec.extractLsb'_append_eq_left)
@[simp] theorem parts_mid : (t ++ x ++ y : BitVec 14).extractLsb' 6 6 = x := field_above (by decide) (field_low t x)
@[simp] theorem parts_low : (t ++ x ++ y : BitVec 14).extractLsb' 0 6 = y := field_low (t ++ x) y
@[simp] theorem parts_bit13 : (t ++ x ++ y : BitVec 14).getLsbD 13 = t.getLsbD 1 := bit_of_field (parts_high t x y) 1 (by decide)
@[simp] theorem parts_bit12 : (t ++ x ++ y : BitVec 14).getLsbD 12 = t.getLsbD 0 := bit_of_field (parts_high t x y) 0 (by decide)

end

section
variable (r : BitVec 8) (y : BitVec 6)
@[simp] theorem amount_reserved : (r ++ y : BitVec 14).extractLsb' 6 8 = r := BitVec.extractLsb'_append_eq_left
@[simp] theorem amount_low : (r ++ y : BitVec 14).extractLsb' 0 6 = y := field_low r y
end

section
variable (queue fld : BitVec 3) (r : BitVec 8)
@[simp] theorem qset_queue : (queue ++ fld ++ r : BitVec 14).extractLsb' 11 3 = queue := field_above (by decide) BitVec.extractLsb'_append_eq_left
@[simp] theorem qset_fld : (queue ++ fld ++ r : BitVec 14).extractLsb' 8 3 = fld := field_above (by decide) (field_low queue fld)
@[simp] theorem qset_reserved : (queue ++ fld ++ r : BitVec 14).extractLsb' 0 8 = r := field_low (queue ++ fld) r
end

section
variable (r : BitVec 11) (queue : BitVec 3)
@[simp] theorem qgo_reserved : (r ++ queue : BitVec 14).extractLsb' 3 11 = r := BitVec.extractLsb'_append_eq_left
@[simp] theorem qgo_queue : (r ++ queue : BitVec 14).extractLsb' 0 3 = queue := field_low r queue
end

/-- The word of `WAIT` and `WAITY` (R112). -/
def encWait (ld st : BitVec 6) (cp tl : BitVec 5) (z : BitVec 4) : BitVec 32 := (0x2F : BitVec 6) ++ ld ++ st ++ cp ++ tl ++ z

section
variable (ld st : BitVec 6) (cp tl : BitVec 5) (z : BitVec 4)
@[simp] theorem fOp_wait : fOp (encWait ld st cp tl z) = 0x2F :=
  field_above (by decide) (field_above (by decide) (field_above (by decide) (field_above (by decide) BitVec.extractLsb'_append_eq_left)))
@[simp] theorem fD_wait : fD (encWait ld st cp tl z) = ld :=
  field_above (by decide) (field_above (by decide) (field_above (by decide) (field_above (by decide) (field_low (0x2F : BitVec 6) ld))))
@[simp] theorem fA_wait : fA (encWait ld st cp tl z) = st :=
  field_above (by decide) (field_above (by decide) (field_above (by decide) (field_low ((0x2F : BitVec 6) ++ ld) st)))
@[simp] theorem wait_cp : (encWait ld st cp tl z).extractLsb' 9 5 = cp :=
  field_above (by decide) (field_above (by decide) (field_low ((0x2F : BitVec 6) ++ ld ++ st) cp))
@[simp] theorem wait_tl : (encWait ld st cp tl z).extractLsb' 4 5 = tl :=
  field_above (by decide) (field_low ((0x2F : BitVec 6) ++ ld ++ st ++ cp) tl)
@[simp] theorem wait_reserved : (encWait ld st cp tl z).extractLsb' 1 3 = z.extractLsb' 1 3 := field_below (by decide) rfl
@[simp] theorem wait_yields : (encWait ld st cp tl z).getLsbD 0 = z.getLsbD 0 :=
  bit_of_field (field_low ((0x2F : BitVec 6) ++ ld ++ st ++ cp ++ tl) z) 0 (by decide)
end

/-- A field within the immediate field. -/
theorem field_encI (op : BitVec 6) (d a : SReg) (imm : BitVec 14) {s n : Nat} (h : s + n ≤ 14) :
    (encI op d a imm).extractLsb' s n = imm.extractLsb' s n := field_below h rfl

/-- A field within the function field. -/
theorem field_encR (op : BitVec 6) (d a b : SReg) (func : BitVec 8) {s n : Nat} (h : s + n ≤ 8) :
    (encR op d a b func).extractLsb' s n = func.extractLsb' s n := field_below h rfl

section
variable (x y : BitVec 4)
@[simp] theorem nibbles_high : (x ++ y : BitVec 8).extractLsb' 4 4 = x := BitVec.extractLsb'_append_eq_left
@[simp] theorem nibbles_low : (x ++ y : BitVec 8).extractLsb' 0 4 = y := field_low x y
end

section
variable (x : BitVec 5) (y : BitVec 3)
@[simp] theorem scope_high : (x ++ y : BitVec 8).extractLsb' 3 5 = x := BitVec.extractLsb'_append_eq_left
@[simp] theorem scope_low : (x ++ y : BitVec 8).extractLsb' 0 3 = y := field_low x y
end

/-- The bits 25 to 3 of a word of the register format are its register fields and the top of its function field. -/
theorem field_middle (w : BitVec 32) : w.extractLsb' 3 23 = fD w ++ fA w ++ fB w ++ (fFunc w).extractLsb' 3 5 := by
  rw [fFunc, field_of_field w (by decide)]
  simp (disch := decide) only [fD, fA, fB, BitVec.extractLsb'_append_extractLsb'_eq_extractLsb']

/-! A word is its fields, joined. -/

section
variable (w w0 w1 : BitVec 32)

theorem encR_fields : encR (fOp w) (fD w) (fA w) (fB w) (fFunc w) = w := by
  simp (disch := decide) only [encR, fOp, fD, fA, fB, fFunc, BitVec.extractLsb'_append_extractLsb'_eq_extractLsb', BitVec.extractLsb'_eq_self]

theorem encI_fields : encI (fOp w) (fD w) (fA w) (fImm14 w) = w := by
  simp (disch := decide) only [encI, fOp, fD, fA, fImm14, BitVec.extractLsb'_append_extractLsb'_eq_extractLsb', BitVec.extractLsb'_eq_self]

theorem encJ_fields : encJ (fOp w) (fOff26 w) = w := by
  simp (disch := decide) only [encJ, fOp, fOff26, BitVec.extractLsb'_append_extractLsb'_eq_extractLsb', BitVec.extractLsb'_eq_self]

theorem wait_fields : fOp w ++ fD w ++ fA w ++ w.extractLsb' 9 5 ++ w.extractLsb' 4 5 ++ w.extractLsb' 0 4 = w := by
  simp (disch := decide) only [fOp, fD, fA, BitVec.extractLsb'_append_extractLsb'_eq_extractLsb', BitVec.extractLsb'_eq_self]

theorem encLong_fields (h : fOp w0 = 0x3E) : encLong (w0.extractLsb' 18 8) (longFields w0 w1) = .scalar w0 w1 := by
  rw [encLong, ← h]
  simp (disch := decide) only [fOp, longFields, BitVec.extractLsb'_append_extractLsb'_eq_extractLsb', BitVec.extractLsb'_eq_self]

theorem encTile_fields (h : fOp w0 = 0x3F) (h1 : w1.getLsbD 17 = false) : encTile (w0.extractLsb' 18 8) (tileFields w0 w1) = .scalar w0 w1 := by
  have h17 : (0 : BitVec 1) = w1.extractLsb' 17 1 := by
    refine BitVec.eq_of_getLsbD_eq fun i hi => ?_
    obtain rfl : i = 0 := by omega
    exact h1.symm.trans (bit_of_field rfl 0 hi)
  rw [encTile, ← h, h17]
  simp (disch := decide) only [fOp, tileFields, BitVec.extractLsb'_append_extractLsb'_eq_extractLsb', BitVec.extractLsb'_eq_self]

theorem encLaneWord_fields (w : BitVec 96) : encLaneWord (w.extractLsb' 54 10) (laneFields w) = w := by
  have hd : (laneFields w).dst.extractLsb' 0 8 = w.extractLsb' 8 8 := field_low (w.extractLsb' 7 1) _
  have hm : (laneFields w).dst.extractLsb' 8 1 = w.extractLsb' 7 1 := BitVec.extractLsb'_append_eq_left
  rw [encLaneWord, hd, hm]
  simp (disch := decide) only [laneFields, BitVec.extractLsb'_append_extractLsb'_eq_extractLsb', BitVec.extractLsb'_eq_self]

end

/-- The fields of a `REP` (R70). -/
def repFields (n stride : BitVec 8) (adv : BitVec 4) : LaneWord :=
  { imm := (0 : BitVec 16) ++ stride ++ n, msel := 0, ty := 0, rm := 0, c := 0, b := 0, a := 0, dst := 0, md := 0, rpf := adv }

/-- The word of a `REP` (R70). -/
def encRep (n stride : BitVec 8) (adv : BitVec 4) : BitVec 96 :=
  ((0 : BitVec 16) ++ stride ++ n) ++ (0x3FE : BitVec 10) ++ (0 : BitVec 50) ++ adv

section
variable (n stride : BitVec 8) (adv : BitVec 4)

theorem rep_zero {s l : Nat} (h4 : 4 ≤ s) (h54 : s - 4 + l ≤ 50) : (encRep n stride adv).extractLsb' s l = 0 :=
  field_above h4 (field_below h54 BitVec.extractLsb'_zero)

theorem opc_encRep : (encRep n stride adv).extractLsb' 54 10 = 0x3FE :=
  field_above (by decide) (field_above (by decide) (field_low ((0 : BitVec 16) ++ stride ++ n) _))

theorem laneFields_encRep : laneFields (encRep n stride adv) = repFields n stride adv := by
  simp (disch := decide) only [laneFields, repFields, LaneWord.mk.injEq, rep_zero]
  refine ⟨field_above (by decide) (field_above (by decide) BitVec.extractLsb'_append_eq_left), ?_⟩
  simp only [true_and]
  exact ⟨rfl, field_low _ adv⟩

@[simp] theorem rep_reserved (r : BitVec 16) : (r ++ stride ++ n : BitVec 32).extractLsb' 16 16 = r := field_above (by decide) BitVec.extractLsb'_append_eq_left
@[simp] theorem rep_stride (r : BitVec 16) : (r ++ stride ++ n : BitVec 32).extractLsb' 8 8 = stride := field_above (by decide) (field_low r stride)
@[simp] theorem rep_n (r : BitVec 16) : (r ++ stride ++ n : BitVec 32).extractLsb' 0 8 = n := field_low (r ++ stride) n

/-- A `REP` is the lane word of its opcode with those fields. -/
theorem encLaneWord_repFields : encLaneWord 0x3FE (repFields n stride adv) = encRep n stride adv := by
  rw [← laneFields_encRep, ← opc_encRep n stride adv, encLaneWord_fields]
end

/-! An immediate field is its reserved part beside its other parts. -/

theorem imm_parts {t : BitVec 2} {imm : BitVec 14} (h : imm.extractLsb' 12 2 = t) : imm = t ++ imm.extractLsb' 6 6 ++ imm.extractLsb' 0 6 := by
  rw [← h]
  simp (disch := decide) only [BitVec.extractLsb'_append_extractLsb'_eq_extractLsb', BitVec.extractLsb'_eq_self]

theorem imm_amount {imm : BitVec 14} {r : BitVec 8} (h : imm.extractLsb' 6 8 = r) : imm = r ++ imm.extractLsb' 0 6 := by
  rw [← h]
  simp (disch := decide) only [BitVec.extractLsb'_append_extractLsb'_eq_extractLsb', BitVec.extractLsb'_eq_self]

theorem imm_qset {imm : BitVec 14} {r : BitVec 8} (h : imm.extractLsb' 0 8 = r) : imm = imm.extractLsb' 11 3 ++ imm.extractLsb' 8 3 ++ r := by
  rw [← h]
  simp (disch := decide) only [BitVec.extractLsb'_append_extractLsb'_eq_extractLsb', BitVec.extractLsb'_eq_self]

theorem imm_qgo {imm : BitVec 14} {r : BitVec 11} (h : imm.extractLsb' 3 11 = r) : imm = r ++ imm.extractLsb' 0 3 := by
  rw [← h]
  simp (disch := decide) only [BitVec.extractLsb'_append_extractLsb'_eq_extractLsb', BitVec.extractLsb'_eq_self]

/-- A field of two bits is known by them. -/
theorem field_of_two_bits {w : Nat} {x : BitVec w} {s : Nat} {t : BitVec 2} (h1 : x.getLsbD (s + 1) = t.getLsbD 1) (h0 : x.getLsbD s = t.getLsbD 0) :
    x.extractLsb' s 2 = t := by
  refine BitVec.eq_of_getLsbD_eq fun k hk => ?_
  obtain rfl | rfl : k = 0 ∨ k = 1 := by omega
  · exact (bit_of_field rfl 0 (by decide)).symm.trans h0
  · exact (bit_of_field rfl 1 (by decide)).symm.trans h1

/-- The bits 3 to 0 of a `WAIT` word: three reserved ones and the bit that tells `WAITY`. -/
theorem wait_low {w0 : BitVec 32} {z : BitVec 4} (hr : w0.extractLsb' 1 3 = 0) (h0 : w0.getLsbD 0 = z.getLsbD 0) (hz : z.extractLsb' 1 3 = 0) :
    w0.extractLsb' 0 4 = z := by
  refine BitVec.eq_of_getLsbD_eq fun k hk => ?_
  rw [← bit_of_field (x := w0) (s := 0) rfl k hk, Nat.zero_add]
  obtain rfl | ⟨j, rfl⟩ : k = 0 ∨ ∃ j, k = 1 + j := k.eq_zero_or_pos.imp id Nat.exists_eq_add_of_le
  · exact h0
  · rw [bit_of_field hr j (by omega), bit_of_field hz j (by omega)]

theorem func_nibbles (w : BitVec 32) : fFunc w = w.extractLsb' 4 4 ++ w.extractLsb' 0 4 := by
  simp (disch := decide) only [fFunc, BitVec.extractLsb'_append_extractLsb'_eq_extractLsb']

end Sys2Proof
end

section
/-! SUPPORT. O23: the decoder on the encoder's words. -/

namespace Sys2Proof

open Machine Claims

set_option Elab.async false

/-- The instruction of a fetch window by its fields, before the checks of its entry. -/
def parse : Code → Except Reject Instr
  | .scalar w0 w1 => parseScalar w0 w1
  | .lane w n => parseLane w n

/-- A window decodes to what its fields name where the entry accepts it. -/
theorem decode_eq_ok_iff {c : Code} {i : Instr} : decode c = .ok i ↔ parse c = .ok i ∧ i.wf = true := by
  have hd : decode c = (match parse c with | .ok i => if i.wf then .ok i else .error .badField | .error r => .error r) := by cases c <;> rfl
  rw [hd]
  cases parse c with
  | error r => exact ⟨nofun, nofun⟩
  | ok j =>
    by_cases h : j.wf = true
    · simp only [if_pos h, Except.ok.injEq]
      exact ⟨fun e => ⟨e, e ▸ h⟩, And.left⟩
    · simp only [if_neg h, Except.ok.injEq]
      exact ⟨nofun, fun e => absurd (e.1 ▸ e.2) h⟩

/-- A scalar word that stands alone: it reads as `i` whatever follows it. -/
def WordReads (w : BitVec 32) (i : Instr) : Prop := ∀ w1, parseScalar w w1 = .ok i

/-- The words of `i` read as `i`, a word that stands alone whatever follows it. -/
def ReadsBack (i : Instr) : Option Code → Prop
  | none => True
  | some (.scalar w0 w1) => parseScalar w0 w1 = .ok i ∧ (hasSecond w0 ∨ WordReads w0 i)
  | some (.lane w n) => parseLane w n = .ok i ∧ (repWord w ∨ ∀ n', parseLane w n' = .ok i)

section
variable {i : Instr} {d a b : SReg} {func : BitVec 8} {imm : BitVec 14}

theorem readsBack_encW {w : BitVec 32} (h : WordReads w i) : ReadsBack i (encW w) := ⟨h 0, .inr h⟩

theorem readsBack_alu (h : parseAlu (encR 0x01 d a b func) = .ok i) : ReadsBack i (encW (encR 0x01 d a b func)) :=
  readsBack_encW fun _ => by simpa [parseScalar] using h

theorem readsBack_system (h : parseSystem (encR 0x32 d a b func) = .ok i) : ReadsBack i (encW (encR 0x32 d a b func)) :=
  readsBack_encW fun _ => by simpa [parseScalar] using h

theorem readsBack_phaser (h : parsePhaser (encR 0x36 d a b func) = .ok i) : ReadsBack i (encW (encR 0x36 d a b func)) :=
  readsBack_encW fun _ => by simpa [parseScalar] using h

theorem readsBack_ragged (h : parseRagged (encR 0x3B d a b func) = .ok i) : ReadsBack i (encW (encR 0x3B d a b func)) :=
  readsBack_encW fun _ => by simpa [parseScalar] using h

theorem readsBack_bar (h : parseBar (encI 0x35 d a imm) = .ok i) : ReadsBack i (encW (encI 0x35 d a imm)) :=
  readsBack_encW fun _ => by simpa [parseScalar] using h

/-- Long space A: the row of the sub-operation, on the fields that the words hold. -/
theorem readsBack_encLong {sub : BitVec 8} {w : LongWord}
    (h : ∀ w0 w1, w0.extractLsb' 18 8 = sub → longFields w0 w1 = w → parseLongA w0 w1 = .ok i) : ReadsBack i (some (encLong sub w)) :=
  ⟨by simpa [parseScalar] using h _ _ (longWord_sub 0x3E sub w.d w.a w.b) (longFields_enc sub w), .inl (.inr (.inl (longWord_op ..)))⟩

theorem readsBack_encTile {sub : BitVec 8} {w : TileWord}
    (h : ∀ w0 w1, w0.extractLsb' 18 8 = sub → tileFields w0 w1 = w → w1.getLsbD 17 = false → parseLongB w0 w1 = .ok i) :
    ReadsBack i (some (encTile sub w)) :=
  ⟨by simpa [parseScalar] using h _ _ (longWord_sub 0x3F sub w.d w.a w.b) (tileFields_enc sub w) (tileReserved_enc w), .inl (.inr (.inr (longWord_op ..)))⟩

theorem readsBack_encL {opc : BitVec 10} {w : LaneWord} (h : ∀ n, parseLaneOpc opc.toNat w n = .ok i) : ReadsBack i (encL opc w) := by
  have hn (n : BitVec 96) : parseLane (encLaneWord opc w) n = .ok i := by rw [parseLane, lane_opc, lane_fields, h n]
  exact ⟨hn 0, .inr hn⟩

end

theorem op_cases (op : BitVec 3) : op = 0 ∨ op = 1 ∨ op = 2 ∨ op = 3 ∨ op = 4 ∨ op = 5 ∨ op = 6 ∨ op = 7 := by
  revert op
  decide

/-- `GRED`, `SCAN` and `GREDS` have six operators (R133). -/
theorem op_of_gredTyOk {op : BitVec 3} {t : BitVec 5} (h : gredTyOk op t = true) : op = 0 ∨ op = 1 ∨ op = 2 ∨ op = 3 ∨ op = 4 ∨ op = 5 := by
  have hop : op.toNat < 6 := by
    obtain ⟨-, h⟩ | ⟨-, h⟩ := gredTyOk_iff.mp h <;> omega
  clear h
  revert op
  decide

/-- An instruction that some encoding names reads back from its words (R57 to R71). -/
theorem readsBack_encode (i : Instr) (hwf : i.wf = true) : ReadsBack i (encode i) := by
  cases i with
  | add | sub | mul | mulh | mulhu | div | divu | rem | remu | sh1add | sh2add | sh3add | and | or | xor | andn | shl | shr | sra | ror | slt
  | sltu | seq | min | max | minu | maxu | clz | ctz | popc => exact readsBack_alu (by simp [parseAlu, zeroOr])
  | nop | cyc | brk | trap | tret | halt => exact readsBack_system (by simp [parseSystem, zeroOr])
  | phnew | phfree | phreg | phdrop | phsig | phwait | phsw => exact readsBack_phaser (by simp [parsePhaser, zeroOr])
  | rflush | rqryNseg | rqryStart | rqryLen | rqryTotal => exact readsBack_ragged (by simp [parseRagged, zeroOr])
  | barArr | barWait | barSync => exact readsBack_bar (by simp [parseBar, zeroOr, field_encI])
  | addi | andi | ori | xori | muli | slti | sltiu | beq | bne | blt | bge | bltu | bgeu | loop | jr | callr
  | ldsI8 | ldsN8 | ldsI16 | ldsN16 | ldsI32 | ldsN32 | ldsN64 | stsN8 | stsN16 | stsN32 | stsN64 | mfs | mts | cpstep
  | j | call | lrun | yield | chunk => exact readsBack_encW fun _ => by simp [parseScalar, zeroOr]
  | shli | shri | srai | qset | qgo | bfi => exact readsBack_encW fun _ => by simp [parseScalar, zeroOr]
  | bfxI64 | bfxN64 => exact readsBack_encW fun _ => by simp [parseScalar, zeroOr, -BitVec.getLsbD_eq_getElem]
  | wait ld st cp tl | waity ld st cp tl => exact readsBack_encW (w := encWait ld st cp tl _) fun _ => by simp [parseScalar, zeroOr, -BitVec.getLsbD_eq_getElem]
  | fence scope => exact readsBack_encW fun _ => by simp [parseScalar, zeroOr, field_middle, field_encR]
  | atomShort => exact readsBack_encW fun _ => by simp [parseScalar, field_encR]
  | ext imm next => exact ⟨by simp [parseScalar], .inl (.inl (fOp_encJ 0x33 imm))⟩
  | atomLong | redScalar | amaxrdScalar | ratom | rrel | fenceTc | launch | cancel | ccrd | ccwt | cpy | qfence | coll | segof | rbind | hgix
  | kick | sleep | wake | tlbinv | jroot | kbind => exact readsBack_encLong fun w0 w1 hs hw => by rw [parseLongA, hs, hw]; rfl
  | mma | mmd | mzero | wupd | accst | accld | tred | tcvt | tnorm | tsmax | tsync =>
    exact readsBack_encTile fun w0 w1 hs hw h17 => by rw [parseLongB, hs, hw, h17]; rfl
  | wloadImg w =>
    refine readsBack_encTile fun w0 w1 hs hw h17 => ?_
    simp only [Instr.wf, Bool.and_eq_true, beq_iff_eq] at hwf
    rw [parseLongB, hs, hw, h17, hwf.2]
    rfl
  | wloadDense w =>
    refine readsBack_encTile fun w0 w1 hs hw h17 => ?_
    simp only [Instr.wf, Bool.and_eq_true, beq_iff_eq] at hwf
    rw [parseLongB, hs, hw, h17, hwf.2]
    rfl
  | fadd | fsub | fmul | ffma | ffms | fnma | fnms | fmin | fmax | fminn | fmaxn | fabs | fneg | frint | fcmp | frcp | frsq | fexp2 | flog2
  | iadd | isub | imul | imulh | imad | iadds | isubs | imin | imax | iand | ior | ixor | iandn | ishl | ishr | iror | ipopc | iclz | icmp
  | cvt | pkn | pkb | pkh | upn | upb | uph | mov | sel | shflIdx | shflUp | shflDn | shflXor | bcst | mset | mand | mor | mxor | mandn
  | vany | vall | vbal | brl | brln | joinl | lret | exit | ldl | ldt | stl | lda | amaxrdLane | segl | segb | hgld | hgsc =>
    exact readsBack_encL fun _ => rfl
  | gred op w =>
    obtain rfl | rfl | rfl | rfl | rfl | rfl := op_of_gredTyOk (gredTyOk_of_gredOk (Bool.and_eq_true_iff.mp hwf).1) <;>
      exact readsBack_encL fun _ => rfl
  | greds op w =>
    obtain rfl | rfl | rfl | rfl | rfl | rfl := op_of_gredTyOk (gredTyOk_of_gredsOk hwf) <;> exact readsBack_encL fun _ => rfl
  | scan op w =>
    obtain ⟨hop, hmd⟩ := Bool.and_eq_true_iff.mp hwf
    obtain rfl | rfl | rfl | rfl | rfl | rfl := op_of_gredTyOk (gredTyOk_of_gredOk hop) <;>
      exact readsBack_encL fun _ => congrArg Except.ok (if_neg (by rw [beq_iff_eq.mp hmd]; decide))
  | scanx op w =>
    obtain ⟨hop, hmd⟩ := Bool.and_eq_true_iff.mp hwf
    obtain rfl | rfl | rfl | rfl | rfl | rfl := op_of_gredTyOk (gredTyOk_of_gredOk hop) <;>
      exact readsBack_encL fun _ => congrArg Except.ok (if_pos (by rw [beq_iff_eq.mp hmd]; decide))
  | atomLane op w =>
    obtain rfl | rfl | rfl | rfl | rfl | rfl | rfl | rfl := op_cases op <;> exact readsBack_encL fun _ => rfl
  | redLane op w =>
    obtain rfl | rfl | rfl | rfl | rfl | rfl | rfl | rfl := op_cases op
    case inr.inr.inr.inr.inr.inr.inr => simp [Instr.wf, LaneWord.redOk, redTyOk] at hwf
    all_goals exact readsBack_encL fun _ => rfl
  | stt w => exact readsBack_encL fun _ => congrArg Except.ok (if_neg (by rw [beq_iff_eq.mp (Bool.and_eq_true_iff.mp hwf).2]; decide))
  | sttWait w => exact readsBack_encL fun _ => congrArg Except.ok (if_pos (by rw [beq_iff_eq.mp (Bool.and_eq_true_iff.mp hwf).2]; decide))
  | rep n stride adv next =>
    have hr : parseLane (encRep n stride adv) next = .ok (.rep n stride adv next) := by
      rw [parseLane, opc_encRep, laneFields_encRep]
      simp [parseLaneOpc, repFields, zeroOr]
    exact ⟨hr, .inl (opc_encRep n stride adv)⟩
  | _ => exact trivial

theorem decode_of_readsBack_scalar {i : Instr} {w0 w1 : BitVec 32} (hwf : i.wf = true) (h : ReadsBack i (some (.scalar w0 w1))) :
    (hasSecond w0 → decode (.scalar w0 w1) = .ok i) ∧ (¬hasSecond w0 → Decodes w0 i) :=
  ⟨fun _ => decode_eq_ok_iff.mpr ⟨h.1, hwf⟩, fun hs w => decode_eq_ok_iff.mpr ⟨h.2.resolve_left hs w, hwf⟩⟩

theorem decode_of_readsBack_lane {i : Instr} {w n : BitVec 96} (hwf : i.wf = true) (h : ReadsBack i (some (.lane w n))) :
    (repWord w → decode (.lane w n) = .ok i) ∧ (¬repWord w → ∀ n', decode (.lane w n') = .ok i) :=
  ⟨fun _ => decode_eq_ok_iff.mpr ⟨h.1, hwf⟩, fun hr n' => decode_eq_ok_iff.mpr ⟨h.2.resolve_left hr n', hwf⟩⟩

end Sys2Proof

open Sys2Proof

/-- Settles O23: the words of every instruction read back, field by field. -/
theorem encodedInstructionsDecode : Obligations.EncodedInstructionsDecode := fun i hwf =>
  ⟨fun _ _ h => decode_of_readsBack_scalar hwf (h ▸ readsBack_encode i hwf), fun _ _ h => decode_of_readsBack_lane hwf (h ▸ readsBack_encode i hwf)⟩
end

section
/-! SUPPORT. O24: the encoder on the words that decode. -/

namespace Sys2Proof

open Claims

set_option Elab.async false

theorem zeroOr_eq_ok {c : Bool} {j i : Instr} (h : zeroOr c j = .ok i) : c = true ∧ j = i := by
  cases c with
  | true => exact ⟨rfl, Except.ok.inj h⟩
  | false => exact nomatch h

/-- A major opcode of one word (R57, R60). -/
abbrev OneWord (op : BitVec 6) : Prop := ¬(op = 0x33 ∨ op = 0x3E ∨ op = 0x3F)

/-- `i` is written as the word `w0`, and as `w1` behind it where it takes two words. -/
def WordOf (w0 w1 : BitVec 32) (i : Instr) : Prop := ∃ x, encode i = some (.scalar w0 x) ∧ (hasSecond w0 → x = w1)

section
variable {w0 w1 : BitVec 32} {i : Instr} {op : BitVec 6}

theorem wordOf_two (h : encode i = some (.scalar w0 w1)) : WordOf w0 w1 i := ⟨w1, h, fun _ => rfl⟩

theorem wordOf_encW (h : encode i = encW w0) (hop : (fOp w0).toNat = op.toNat) (h1 : OneWord op) : WordOf w0 w1 i :=
  ⟨0, h, fun hs => absurd (BitVec.eq_of_toNat_eq hop ▸ hs) h1⟩

theorem wordOf_encR {d a b : SReg} {func : BitVec 8} (h : encode i = encW (encR op d a b func)) (hop : (fOp w0).toNat = op.toNat)
    (h1 : OneWord op) (hd : fD w0 = d) (ha : fA w0 = a) (hb : fB w0 = b) (hf : fFunc w0 = func) : WordOf w0 w1 i := by
  refine wordOf_encW (h.trans ?_) hop h1
  rw [← hd, ← ha, ← hb, ← hf, ← BitVec.eq_of_toNat_eq hop, encR_fields]

theorem wordOf_encI {d a : SReg} {imm : BitVec 14} (h : encode i = encW (encI op d a imm)) (hop : (fOp w0).toNat = op.toNat)
    (h1 : OneWord op) (hd : fD w0 = d) (ha : fA w0 = a) (hi : fImm14 w0 = imm) : WordOf w0 w1 i := by
  refine wordOf_encW (h.trans ?_) hop h1
  rw [← hd, ← ha, ← hi, ← BitVec.eq_of_toNat_eq hop, encI_fields]

theorem wordOf_encJ (h : encode i = encW (encJ op (fOff26 w0))) (hop : (fOp w0).toNat = op.toNat) (h1 : OneWord op) : WordOf w0 w1 i := by
  refine wordOf_encW (h.trans ?_) hop h1
  rw [← BitVec.eq_of_toNat_eq hop, encJ_fields]

theorem wordOf_alu (hop : (fOp w0).toNat = 0x01) (h : parseAlu w0 = .ok i) : WordOf w0 w1 i := by
  unfold parseAlu at h
  dsimp only at h
  split at h
  case h_28 _ hf | h_29 _ hf | h_30 _ hf =>
    obtain ⟨hb, rfl⟩ := zeroOr_eq_ok h
    exact wordOf_encR rfl hop (by decide) rfl rfl (beq_iff_eq.mp hb) (BitVec.eq_of_toNat_eq hf)
  case h_31 => exact nomatch h
  all_goals
    rename_i hf
    cases h
    exact wordOf_encR rfl hop (by decide) rfl rfl rfl (BitVec.eq_of_toNat_eq hf)

theorem wordOf_system (hop : (fOp w0).toNat = 0x32) (h : parseSystem w0 = .ok i) : WordOf w0 w1 i := by
  unfold parseSystem at h
  dsimp only at h
  split at h
  case h_7 => exact nomatch h
  all_goals
    rename_i hf
    obtain ⟨hz, rfl⟩ := zeroOr_eq_ok h
    simp only [Bool.and_eq_true, beq_iff_eq] at hz
    refine wordOf_encR rfl hop (by decide) ?_ ?_ ?_ (BitVec.eq_of_toNat_eq hf) <;> simp_all only

theorem wordOf_phaser (hop : (fOp w0).toNat = 0x36) (h : parsePhaser w0 = .ok i) : WordOf w0 w1 i := by
  unfold parsePhaser at h
  dsimp only at h
  split at h
  case h_7 _ hf =>
    cases h
    exact wordOf_encR rfl hop (by decide) rfl rfl rfl (BitVec.eq_of_toNat_eq hf)
  case h_8 => exact nomatch h
  all_goals
    rename_i hf
    obtain ⟨hz, rfl⟩ := zeroOr_eq_ok h
    simp only [Bool.and_eq_true, beq_iff_eq] at hz
    refine wordOf_encR rfl hop (by decide) ?_ ?_ ?_ (BitVec.eq_of_toNat_eq hf) <;> simp_all only

theorem wordOf_ragged (hop : (fOp w0).toNat = 0x3B) (h : parseRagged w0 = .ok i) : WordOf w0 w1 i := by
  unfold parseRagged at h
  dsimp only at h
  split at h
  case h_3 _ hf | h_4 _ hf =>
    cases h
    exact wordOf_encR rfl hop (by decide) rfl rfl rfl (BitVec.eq_of_toNat_eq hf)
  case h_6 => exact nomatch h
  all_goals
    rename_i hf
    obtain ⟨hz, rfl⟩ := zeroOr_eq_ok h
    simp only [Bool.and_eq_true, beq_iff_eq] at hz
    refine wordOf_encR rfl hop (by decide) ?_ ?_ ?_ (BitVec.eq_of_toNat_eq hf) <;> simp_all only

theorem wordOf_bar (hop : (fOp w0).toNat = 0x35) (h : parseBar w0 = .ok i) : WordOf w0 w1 i := by
  have hid : w0.extractLsb' 6 6 = (fImm14 w0).extractLsb' 6 6 := (field_of_field w0 (s := 0) (l := 14) (s' := 6) (by decide)).symm
  have hcnt : w0.extractLsb' 0 6 = (fImm14 w0).extractLsb' 0 6 := (field_of_field w0 (s := 0) (l := 14) (s' := 0) (by decide)).symm
  have hkind : w0.extractLsb' 12 2 = (fImm14 w0).extractLsb' 12 2 := (field_of_field w0 (s := 0) (l := 14) (s' := 12) (by decide)).symm
  unfold parseBar at h
  dsimp only at h
  rw [hid, hcnt, hkind] at h
  split at h
  case h_4 => exact nomatch h
  all_goals
    rename_i hk
    obtain ⟨hd, rfl⟩ := zeroOr_eq_ok h
    exact wordOf_encI rfl hop (by decide) (beq_iff_eq.mp hd) rfl (imm_parts (BitVec.eq_of_toNat_eq hk))

theorem wordOf_encLong {sub : BitVec 8} (h : encode i = some (encLong sub (longFields w0 w1))) (hop : fOp w0 = 0x3E)
    (hs : (w0.extractLsb' 18 8).toNat = sub.toNat) : WordOf w0 w1 i :=
  wordOf_two (h.trans (congrArg some (BitVec.eq_of_toNat_eq hs ▸ encLong_fields w0 w1 hop)))

theorem wordOf_encTile {sub : BitVec 8} (h : encode i = some (encTile sub (tileFields w0 w1))) (hop : fOp w0 = 0x3F) (h17 : w1.getLsbD 17 = false)
    (hs : (w0.extractLsb' 18 8).toNat = sub.toNat) : WordOf w0 w1 i :=
  wordOf_two (h.trans (congrArg some (BitVec.eq_of_toNat_eq hs ▸ encTile_fields w0 w1 hop h17)))

theorem wordOf_longA (hop : fOp w0 = 0x3E) (h : parseLongA w0 w1 = .ok i) : WordOf w0 w1 i := by
  unfold parseLongA at h
  dsimp only at h
  split at h
  case h_23 => exact nomatch h
  all_goals
    rename_i hs
    cases h
    exact wordOf_encLong rfl hop hs

theorem wordOf_longB (hop : fOp w0 = 0x3F) (h : parseLongB w0 w1 = .ok i) : WordOf w0 w1 i := by
  unfold parseLongB at h
  dsimp only at h
  split at h
  · exact nomatch h
  next h17 =>
    have h17 := Bool.eq_false_iff.mpr h17
    split at h
    case h_13 => exact nomatch h
    case h_4 _ hs => split at h <;> cases h <;> exact wordOf_encTile rfl hop h17 hs
    all_goals
      rename_i hs
      cases h
      exact wordOf_encTile rfl hop h17 hs

theorem wordOf_wait {z : BitVec 4} (h : encode i = encW (encWait (fD w0) (fA w0) (w0.extractLsb' 9 5) (w0.extractLsb' 4 5) z))
    (hop : (fOp w0).toNat = 0x2F) (hr : w0.extractLsb' 1 3 = 0) (hz : z.extractLsb' 1 3 = 0) (h0 : w0.getLsbD 0 = z.getLsbD 0) : WordOf w0 w1 i := by
  refine wordOf_encW (op := 0x2F) (h.trans ?_) hop (by decide)
  rw [encWait, ← wait_low hr h0 hz, ← show fOp w0 = 0x2F from BitVec.eq_of_toNat_eq hop, wait_fields]

/-- `FENCE` names its scope in the low bits of a word that is zero but for its opcode (R163). -/
theorem wordOf_fence (hop : (fOp w0).toNat = 0x34) (hr : w0.extractLsb' 3 23 = 0) : WordOf w0 w1 (.fence (w0.extractLsb' 0 3)) := by
  have hfield {s n : Nat} (h : s + n ≤ 23) : w0.extractLsb' (3 + s) n = 0 := by
    rw [← field_of_field w0 h, hr]
    exact BitVec.extractLsb'_zero
  refine wordOf_encR rfl hop (by decide) (hfield (s := 17) (by decide)) (hfield (s := 11) (by decide)) (hfield (s := 5) (by decide)) ?_
  rw [← show w0.extractLsb' 3 5 = 0 from hfield (s := 0) (by decide)]
  simp (disch := decide) only [fFunc, BitVec.extractLsb'_append_extractLsb'_eq_extractLsb']

/-- Each row of the major opcodes (R59 to R66). -/
theorem wordOf_parseScalar (h : parseScalar w0 w1 = .ok i) : WordOf w0 w1 i := by
  unfold parseScalar at h
  dsimp only at h
  split at h
  case h_1 _ hop => exact wordOf_alu hop h
  -- the shifts by an amount
  case h_6 _ hop | h_7 _ hop | h_8 _ hop =>
    obtain ⟨hr, rfl⟩ := zeroOr_eq_ok h
    exact wordOf_encI rfl hop (by decide) rfl rfl (imm_amount (beq_iff_eq.mp hr))
  -- the bit-field reads
  case h_12 _ hop =>
    obtain ⟨h13, rfl⟩ := zeroOr_eq_ok h
    split
    next h12 => exact wordOf_encI rfl hop (by decide) rfl rfl (imm_parts (field_of_two_bits (by simpa using h13) h12))
    next h12 => exact wordOf_encI rfl hop (by decide) rfl rfl (imm_parts (field_of_two_bits (by simpa using h13) (Bool.eq_false_iff.mpr h12)))
  -- `BFI`
  case h_13 _ hop =>
    obtain ⟨hr, rfl⟩ := zeroOr_eq_ok h
    exact wordOf_encI rfl hop (by decide) rfl rfl (imm_parts (beq_iff_eq.mp hr))
  -- offsets alone
  case h_21 _ hop | h_22 _ hop | h_38 _ hop | h_50 _ hop =>
    cases h
    exact wordOf_encJ rfl hop (by decide)
  -- no destination
  case h_23 _ hop | h_41 _ hop =>
    obtain ⟨hd, rfl⟩ := zeroOr_eq_ok h
    exact wordOf_encI rfl hop (by decide) (beq_iff_eq.mp hd) rfl rfl
  -- no source
  case h_40 _ hop | h_49 _ hop =>
    obtain ⟨ha, rfl⟩ := zeroOr_eq_ok h
    exact wordOf_encI rfl hop (by decide) rfl (beq_iff_eq.mp ha) rfl
  -- `QSET`
  case h_36 _ hop =>
    obtain ⟨hr, rfl⟩ := zeroOr_eq_ok h
    exact wordOf_encI rfl hop (by decide) rfl rfl (imm_qset (beq_iff_eq.mp hr))
  -- `QGO`
  case h_37 _ hop =>
    obtain ⟨hr, rfl⟩ := zeroOr_eq_ok h
    obtain ⟨hd, hr⟩ := Bool.and_eq_true_iff.mp hr
    exact wordOf_encI rfl hop (by decide) (beq_iff_eq.mp hd) rfl (imm_qgo (beq_iff_eq.mp hr))
  -- `WAIT` and `WAITY`
  case h_39 _ hop =>
    obtain ⟨hr, rfl⟩ := zeroOr_eq_ok h
    split
    next h0 => exact wordOf_wait rfl hop (beq_iff_eq.mp hr) rfl h0
    next h0 => exact wordOf_wait rfl hop (beq_iff_eq.mp hr) rfl (Bool.eq_false_iff.mpr h0)
  case h_42 _ hop => exact wordOf_system hop h
  -- `EXT`
  case h_43 _ hop =>
    cases h
    exact wordOf_two (by rw [encode, ← show fOp w0 = 0x33 from BitVec.eq_of_toNat_eq hop, encJ_fields])
  -- `FENCE`
  case h_44 _ hop =>
    obtain ⟨hr, rfl⟩ := zeroOr_eq_ok h
    exact wordOf_fence hop (beq_iff_eq.mp hr)
  case h_45 _ hop => exact wordOf_bar hop h
  case h_46 _ hop => exact wordOf_phaser hop h
  -- the short `ATOM`
  case h_47 _ hop =>
    cases h
    exact wordOf_encR rfl hop (by decide) rfl rfl rfl (func_nibbles w0)
  -- `CHUNK`
  case h_48 _ hop =>
    obtain ⟨hr, rfl⟩ := zeroOr_eq_ok h
    exact wordOf_encR rfl hop (by decide) rfl rfl rfl (beq_iff_eq.mp hr)
  case h_51 _ hop => exact wordOf_ragged hop h
  case h_52 _ hop => exact wordOf_longA (BitVec.eq_of_toNat_eq hop) h
  case h_53 _ hop => exact wordOf_longB (BitVec.eq_of_toNat_eq hop) h
  case h_54 => exact nomatch h
  -- a destination, a source and an immediate
  all_goals
    rename_i hop
    cases h
    exact wordOf_encI rfl hop (by decide) rfl rfl rfl
end

section
variable {w n : BitVec 96} {i : Instr}

/-- `i` is written as the lane word `w`, and as `n` behind it where it takes two. -/
def LaneWordOf (w n : BitVec 96) (i : Instr) : Prop := ∃ x, encode i = some (.lane w x) ∧ (repWord w → x = n)

theorem laneWordOf_encL {opc : BitVec 10} (h : encode i = encL opc (laneFields w)) (ho : (w.extractLsb' 54 10).toNat = opc.toNat)
    (h1 : opc ≠ 0x3FE) : LaneWordOf w n i := by
  have ho := BitVec.eq_of_toNat_eq ho
  refine ⟨0, h.trans ?_, fun hr => absurd (ho.symm.trans hr) h1⟩
  rw [encL, ← ho, encLaneWord_fields]

theorem laneWordOf_rep {k stride : BitVec 8} {adv : BitVec 4} (ho : (w.extractLsb' 54 10).toNat = 0x3FE)
    (hf : laneFields w = repFields k stride adv) : LaneWordOf w n (.rep k stride adv n) := by
  refine ⟨n, ?_, fun _ => rfl⟩
  have hw : encRep k stride adv = w := by
    rw [← encLaneWord_repFields, ← hf, ← show w.extractLsb' 54 10 = 0x3FE from BitVec.eq_of_toNat_eq ho, encLaneWord_fields]
  exact congrArg (fun x => some (Code.lane x n)) hw

theorem eq_repFields_of_zero {f : LaneWord} (h : (f.imm.extractLsb' 16 16 == 0 && f.msel == 0 && f.ty == 0 && f.rm == 0 && f.c == 0 &&
    f.b == 0 && f.a == 0 && f.dst == 0 && f.md == 0) = true) :
    f = repFields (f.imm.extractLsb' 0 8) (f.imm.extractLsb' 8 8) f.rpf := by
  cases f
  simp only [Bool.and_eq_true, beq_iff_eq] at h
  obtain ⟨⟨⟨⟨⟨⟨⟨⟨hi, rfl⟩, rfl⟩, rfl⟩, rfl⟩, rfl⟩, rfl⟩, rfl⟩, rfl⟩ := h
  simp (disch := decide) only [repFields, ← hi, BitVec.extractLsb'_append_extractLsb'_eq_extractLsb', BitVec.extractLsb'_eq_self]

/-- Each row of the lane opcodes (R71). -/
theorem laneWordOf_parseLane (h : parseLane w n = .ok i) : LaneWordOf w n i := by
  unfold parseLane parseLaneOpc at h
  split at h
  -- the rows that MOD[4] tells apart
  case h_67 _ ho | h_68 _ ho | h_69 _ ho | h_70 _ ho | h_71 _ ho | h_72 _ ho | h_81 _ ho =>
    cases h
    split <;> exact laneWordOf_encL rfl ho (by decide)
  case h_109 _ ho =>
    obtain ⟨hz, rfl⟩ := zeroOr_eq_ok h
    exact laneWordOf_rep ho (eq_repFields_of_zero hz)
  case h_110 => exact nomatch h
  all_goals
    rename_i ho
    cases h
    exact laneWordOf_encL rfl ho (by decide)
end

end Sys2Proof

open Sys2Proof

/-- Settles O24, row by row of the decoder's tables. -/
theorem decodedWordsReencode : Obligations.DecodedWordsReencode := by
  refine ⟨fun w0 w1 i h => ?_, fun w n i h => ?_⟩
  · obtain ⟨hp, hwf⟩ := decode_eq_ok_iff.mp h
    exact ⟨hwf, wordOf_parseScalar hp⟩
  · obtain ⟨hp, hwf⟩ := decode_eq_ok_iff.mp h
    exact ⟨hwf, laneWordOf_parseLane hp⟩
end

section
/-! SUPPORT. O22: what a turn fetches and issues. -/

open Sys2Proof.Claims

namespace Sys2Proof.Machine

set_option Elab.async false

/-! A fold changes memory and the caches, and no stream, group, block or package (R158). -/

/-- Only the bytes of memory, what they were written under, their errors and earlier values, the commits they settle and the
caches differ. -/
def OnlyMemory (s t : State) : Prop :=
  t = { s with mem := t.mem, lineKeys := t.lineKeys, early := t.early, annexed := t.annexed, stale := t.stale, bad := t.bad, cores := t.cores }

theorem OnlyMemory.refl (s : State) : OnlyMemory s s := rfl

theorem OnlyMemory.trans {s u t : State} (h : OnlyMemory s u) (k : OnlyMemory u t) : OnlyMemory s t := by
  unfold OnlyMemory at h k ⊢
  rw [h] at k
  exact k

theorem OnlyMemory.seqAll {α : Type} {f : α → State → State} (hf : ∀ a s, OnlyMemory s (f a s)) (l : List α) (s : State) : OnlyMemory s (seqAll f l s) :=
  seqAll_keeps (OnlyMemory s) f (fun a u h => h.trans (hf a u)) l s (OnlyMemory.refl s)

theorem onlyMemory_withMem (m : Cells) (s : State) : OnlyMemory s { s with mem := m } := rfl

theorem onlyMemory_withLine (m : Cells) (l : Table Nat LineKey) (s : State) : OnlyMemory s { s with mem := m, lineKeys := l } := rfl

theorem onlyMemory_settleWords (blk : Option Nat) (ls : List Loc) (s : State) : OnlyMemory s (settleWords blk ls s) := rfl

theorem onlyMemory_adoptLine (mat : Under) (line : Nat) (s : State) : OnlyMemory s (adoptLine mat line s) := by
  unfold adoptLine
  split
  · exact .refl s
  · exact onlyMemory_withLine _ _ s

theorem onlyMemory_writeByte (mat : Under) (k : Nat) (v : Byte) (s : State) : OnlyMemory s (writeByte mat k v s) := by
  unfold writeByte
  split
  · exact .refl s
  · exact (onlyMemory_adoptLine mat (k / 128) s).trans (onlyMemory_withMem _ _)

theorem onlyMemory_writeRange (mat : Under) (bs : List Byte) (k : Nat) (s : State) : OnlyMemory s (writeRange mat k bs s) := by
  induction bs generalizing k s with
  | nil => exact .refl s
  | cons b bs ih => exact (onlyMemory_writeByte mat k b s).trans (ih _ _)

theorem onlyMemory_annexPut (k n : Nat) (v : Byte) (s : State) : OnlyMemory s (annexPut k n v s) := by
  have hb : OnlyMemory s (annexByte k v s) := by
    unfold annexByte
    split
    · exact .refl s
    · exact onlyMemory_writeByte _ _ _ _
  unfold annexPut
  dsimp only
  split
  · exact hb.trans rfl
  · exact hb

theorem onlyMemory_foldShadow (sh : Shadow) (s : State) : OnlyMemory s (foldShadow sh s) :=
  ((onlyMemory_writeRange _ _ _ _).trans (onlyMemory_settleWords _ _ _)).trans (.seqAll (fun _ _ => onlyMemory_annexPut _ _ _ _) _ _)

theorem onlyMemory_foldCoreLine (line : Nat) (c : (Nat × Nat) × Core) (s : State) : OnlyMemory s (foldCoreLine line c s) := by
  unfold foldCoreLine
  dsimp only
  split
  · exact .refl s
  · exact (OnlyMemory.seqAll onlyMemory_foldShadow _ s).trans rfl

theorem onlyMemory_foldAt (l : Loc) (s : State) : OnlyMemory s (foldAt l s) := by
  cases l with
  | phys k => exact .seqAll (onlyMemory_foldCoreLine _) s.cores s
  | scr o => exact .refl s

theorem onlyMemory_foldFetch (ag : Agent) (vas : List Word64) (s : State) : OnlyMemory s (foldFetch ag vas s) :=
  .seqAll (fun va s => by
    split
    · exact onlyMemory_foldAt _ s
    · exact .refl s) vas s

theorem mayIssue_of_onlyMemory {s t : State} (h : OnlyMemory s t) (ag : Agent) : mayIssue t ag = mayIssue s ag := by
  rw [h]
  rfl

/-! Fetching (R11, R57, R98). -/

section
variable {s : State} {ag : Agent} {va lpc : Word64}

/-- Four bytes are a word's number, little-endian. -/
theorem leNat_of_bytes {bs : List Byte} {w : BitVec 32} (hl : bs.length = 4) (h : ∀ i, i < 4 → w.extractLsb' (8 * i) 8 = bs.getD i 0) :
    BitVec.ofNat 32 (leNat bs) = w := by
  match bs, hl with
  | [b0, b1, b2, b3], _ =>
    have h0 := h 0 (by decide)
    have h1 := h 1 (by decide)
    have h2 := h 2 (by decide)
    have h3 := h 3 (by decide)
    simp only [List.getD_cons_zero, List.getD_cons_succ] at h0 h1 h2 h3
    subst h0 h1 h2 h3
    refine BitVec.eq_of_toNat_eq ?_
    simp [leNat, BitVec.extractLsb'_toNat, Nat.shiftRight_eq_div_pow]
    omega

theorem readRange_length (s : State) (mat : Under) (k n : Nat) : (readRange s mat k n).length = n := by
  induction n generalizing k with
  | zero => rfl
  | succ n ih => rw [readRange, List.length_cons, ih]

theorem readN_length (m : Cells) (a n : Nat) : (m.readN a n).length = n := by
  induction n generalizing a with
  | zero => rfl
  | succ n ih => rw [Cells.readN, List.length_cons, ih]

theorem readPlace_length (s : State) (c : Ctx) (p : Place) (n : Nat) : (readPlace s c p n).length = n := by
  unfold readPlace
  split
  · exact readRange_length _ _ _ _
  · split
    · exact readN_length _ _ _
    · exact List.length_replicate

theorem fetchWord_of_fetched {w : BitVec 32} (h : Claims.Fetched s ag va w) : fetchWord s ag va = .ok w := by
  obtain ⟨hscr, p, hp, hbad, hw⟩ := h
  unfold fetchWord
  dsimp only
  split
  next off ho => exact absurd ho (hscr off)
  next => rw [ok_bind, hp, ok_bind, hbad, leNat_of_bytes (readPlace_length _ _ _ _) hw]

theorem twoWords_iff (w : BitVec 32) : twoWords w = true ↔ hasSecond w := by
  have key : ∀ op : BitVec 6, (decide (0x3E ≤ op.toNat) || op == 0x33) = true ↔ op = 0x33 ∨ op = 0x3E ∨ op = 0x3F := by decide
  exact key (fOp w)

/-- A word that stands alone decodes whatever follows it. -/
theorem decodes_of_alone {w0 w1 : BitVec 32} {i : Instr} (h : decode (.scalar w0 w1) = .ok i) (hs : ¬hasSecond w0) : Decodes w0 i := by
  obtain ⟨hwf, x, he, -⟩ := decodedWordsReencode.1 w0 w1 i h
  exact ((encodedInstructionsDecode i hwf).1 w0 x he).2 hs

theorem fetchScalar_decodes {w0 w1 : BitVec 32} {i : Instr} (h0 : Claims.Fetched s ag (s.stream ag).spc w0)
    (h1 : hasSecond w0 → Claims.Fetched s ag ((s.stream ag).spc + 4) w1) (hd : decode (.scalar w0 w1) = .ok i) :
    ∃ c, fetchScalar s ag = .ok c ∧ decode c = .ok i := by
  unfold fetchScalar
  dsimp only
  rw [fetchWord_of_fetched h0, ok_bind]
  by_cases hs : hasSecond w0
  · rw [if_pos ((twoWords_iff w0).mpr hs), fetchWord_of_fetched (h1 hs)]
    exact ⟨_, rfl, hd⟩
  · rw [if_neg (mt (twoWords_iff w0).mp hs)]
    exact ⟨_, rfl, decodes_of_alone hd hs 0⟩

theorem fetchLaneWord_of_laneFetched {w : BitVec 96} (h : LaneFetched s ag lpc w) : fetchLaneWord s ag (laneBase s ag + lpc) = .ok w := by
  obtain ⟨h0, h1, h2⟩ := h
  unfold fetchLaneWord
  rw [fetchWord_of_fetched h0, ok_bind, fetchWord_of_fetched h1, ok_bind, fetchWord_of_fetched h2, ok_bind]
  simp (disch := decide) only [BitVec.extractLsb'_append_extractLsb'_eq_extractLsb', BitVec.extractLsb'_eq_self]

theorem fetchLane_of_laneFetched {w n : BitVec 96} (hw : LaneFetched s ag lpc w) (hn : repWord w → LaneFetched s ag (lpc + 12) n)
    (h0 : ¬repWord w → n = 0) : fetchLane s ag lpc = .ok (.lane w n) := by
  unfold fetchLane
  dsimp only
  rw [fetchLaneWord_of_laneFetched hw, ok_bind]
  by_cases hr : w.extractLsb' 54 10 = 0x3FE
  · rw [if_pos hr, BitVec.add_assoc, fetchLaneWord_of_laneFetched (hn hr)]
    rfl
  · rw [if_neg hr, h0 hr]

/-! What a stream issues (R72, R88, R90, R173). -/

theorem beforeEffect_run {i : Instr} (h : decodeFault s ag i = true ∨ Unhindered s ag i) : beforeEffect s ag i = .run i := by
  unfold beforeEffect
  by_cases hf : decodeFault s ag i = true
  · rw [if_pos hf]
  · obtain ⟨hdef, hregs, hdue, hacq⟩ := h.resolve_left hf
    have hacq : (isAccess i && acquiring s ag) = false := by
      cases ha : isAccess i with
      | false => rfl
      | true => exact hacq ha
    have hnone : (s.stream ag).deferred.find? (raisesDeferred ag i) = none := List.find?_eq_none.mpr fun d hd => by simp [hdef d hd]
    rw [if_neg hf, hnone]
    dsimp only
    rw [hregs, hdue, hacq]
    rfl

theorem issueScalar_run {w0 w1 : BitVec 32} {i : Instr} (hm : mayIssue s ag = true) (h0 : Claims.Fetched s ag (s.stream ag).spc w0)
    (h1 : hasSecond w0 → Claims.Fetched s ag ((s.stream ag).spc + 4) w1) (hd : decode (.scalar w0 w1) = .ok i)
    (h : decodeFault s ag i = true ∨ Unhindered s ag i) : issueScalar s ag = .run i := by
  obtain ⟨c, hc, hi⟩ := fetchScalar_decodes h0 h1 hd
  unfold issueScalar
  rw [hm, hc]
  dsimp only
  rw [hi]
  exact beforeEffect_run h

theorem issueLane_run {w n : BitVec 96} {i : Instr} {id : Nat} {sp : Split} (hg : isGroup ag = true) (hm : mayIssue s ag = true) (hsys : sysMode s ag = false)
    (hseg : (s.group ag).inSeg = true) (hlow : lowestSplit (s.group ag) = some (id, sp)) (hw : LaneFetched s ag sp.lpc w)
    (hn : repWord w → LaneFetched s ag (sp.lpc + 12) n) (h0 : ¬repWord w → n = 0) (hd : decode (.lane w n) = .ok i)
    (h : laneCheck s ag id sp i = .run i) : issueLane s ag = .run i := by
  unfold issueLane
  rw [hg, hm, hsys, hseg, hlow]
  dsimp only
  rw [fetchLane_of_laneFetched hw hn h0]
  dsimp only
  rw [hd]
  exact h

/-! A turn of a stream. -/

theorem scalarTurn_runs {i : Instr} (hm : mayIssue { s with cur := ag } ag = true)
    (h : issueScalar (foldFetch ag (scalarWindow { s with cur := ag } ag) { s with cur := ag }) ag = .run i) :
    scalarTurn ag s = exec i (foldFetch ag (scalarWindow { s with cur := ag } ag) { s with cur := ag }) := by
  unfold scalarTurn
  dsimp only
  rw [if_pos hm, h]

theorem laneTurn_runs {i : Instr} (hm : mayIssue { s with cur := ag } ag = true)
    (h : issueLane (foldFetch ag (laneWindow { s with cur := ag } ag) { s with cur := ag }) ag = .run i) :
    laneTurn ag s = onNext (noteLane ag (foldFetch ag (laneWindow { s with cur := ag } ag) { s with cur := ag }) i)
      (exec i (foldFetch ag (laneWindow { s with cur := ag } ag) { s with cur := ag })) := by
  unfold laneTurn
  dsimp only
  rw [if_pos hm, h]

theorem step_eq {t : Turn} (h : nextTurn s = t) : step s = onNext (observePorts (beginTurn s)) (takeTurn t (beginTurn s)) := by
  rw [step, h, runTurn]

end

end Sys2Proof.Machine

open Sys2Proof.Machine

/-- Settles O22, turn by turn. -/
theorem stepRunsDecoded : Obligations.StepRunsDecoded := by
  intro s
  refine ⟨fun ag w0 w1 i ht hp hm h0 h1 hd h => ?_, fun ag ht hp => ?_, fun ag id sp w n i ht hp hg hm hsys hseg hlow hw hn hn0 hd h => ?_, fun ag ht hp => ?_,
    fun i ht => ⟨fun hm => ?_, fun hm => ?_⟩, fun p n ht => ?_, fun p n ht => ?_, fun ag n ht => ?_, fun w ht => ?_, fun p q n ht => ?_, fun p ht => ?_⟩
  · have hm' := (mayIssue_of_onlyMemory (onlyMemory_foldFetch ag (scalarWindow { beginTurn s with cur := ag } ag) _) ag).trans hm
    rw [step_eq ht, takeTurn, turnScalar, if_pos hp, scalarTurn_runs hm (issueScalar_run hm' h0 h1 hd h)]
  · rw [step_eq ht, takeTurn, turnScalar, hp]
    rfl
  · have hm' := (mayIssue_of_onlyMemory (onlyMemory_foldFetch ag (laneWindow { beginTurn s with cur := ag } ag) _) ag).trans hm
    rw [step_eq ht, takeTurn, turnLane, if_pos hp, laneTurn_runs hm (issueLane_run hg hm' hsys hseg hlow hw hn hn0 hd h)]
  · rw [step_eq ht, takeTurn, turnLane, hp]
    rfl
  · rw [step_eq ht, takeTurn, if_pos hm]
  · rw [step_eq ht, takeTurn, hm]
    rfl
  all_goals exact step_eq ht
end

section
/-! SUPPORT. O33: the forms of control cores. -/

open Sys2Proof.Claims

namespace Sys2Proof.Machine

set_option Elab.async false

/-! A device's writes change memory alone. -/

theorem onlyMemory_annexCopy (homes : List Nat) (s : State) : OnlyMemory s (annexCopy homes s) :=
  .seqAll (fun _ _ => onlyMemory_annexPut _ _ _ _) homes s

theorem onlyMemory_noteStale (b : State) (w : Nat) (s : State) : OnlyMemory s (noteStale b w s) := by
  unfold noteStale
  split
  · rfl
  · exact .refl s

theorem onlyMemory_applyPut (p : Put) (s : State) : OnlyMemory s (applyPut none p s) := by
  unfold applyPut
  split
  · exact onlyMemory_writeByte _ _ _ _
  · exact .refl s

theorem onlyMemory_foldKeys (ks : List Nat) (s : State) : OnlyMemory s (foldKeys ks s) :=
  .seqAll (fun _ s => .seqAll (onlyMemory_foldCoreLine _) s.cores s) _ s

theorem onlyMemory_settleBad (b : List BadWord) (ls : List Loc) (s : State) : OnlyMemory s (settleWords none ls { s with bad := b }) := rfl

theorem onlyMemory_applyPuts (ps : List Put) (s : State) : OnlyMemory s (applyPuts none ps s) := by
  unfold applyPuts
  dsimp only
  have h0 := onlyMemory_foldKeys (putKeys ps) s
  generalize foldKeys (putKeys ps) s = s0 at h0 ⊢
  have h1 := h0.trans (OnlyMemory.seqAll onlyMemory_applyPut ps s0)
  generalize seqAll (applyPut none) ps s0 = s1 at h1 ⊢
  have h2 := h1.trans (OnlyMemory.seqAll (onlyMemory_noteStale s0) (wordsOf (putKeys ps)) s1)
  generalize seqAll (noteStale s0) (wordsOf (putKeys ps)) s1 = s2 at h2 ⊢
  exact h2.trans (onlyMemory_settleBad _ _ s2)

theorem onlyMemory_devicePuts (ps : List Put) (s : State) : OnlyMemory s (devicePuts ps s) := by
  unfold devicePuts
  exact (onlyMemory_applyPuts ps s).trans (onlyMemory_annexCopy _ _)

theorem onlyMemory_writeCtl (pkg off : Nat) (bs : List Byte) (s : State) : OnlyMemory s (writeCtl pkg off bs s) := by
  unfold writeCtl
  exact onlyMemory_devicePuts _ s

theorem onlyMemory_queueFail (pkg q : Nat) (st : Word16) (s : State) : OnlyMemory s (queueFail pkg q st s) := by
  unfold queueFail
  dsimp only
  refine OnlyMemory.trans ?_ (onlyMemory_writeCtl _ _ _ _)
  split
  · exact onlyMemory_writeCtl _ _ _ _
  · exact .refl s

section
variable {s t : State} (h : OnlyMemory s t)
include h

theorem OnlyMemory.pkgs : t.pkgs = s.pkgs := by rw [h]
theorem OnlyMemory.streams : t.streams = s.streams := by rw [h]
theorem OnlyMemory.cur : t.cur = s.cur := by rw [h]
theorem OnlyMemory.pkg (p : Nat) : t.pkg p = s.pkg p := by rw [h]; rfl
theorem OnlyMemory.self : self t = self s := by rw [h]; rfl

end

theorem Table.isSome_find?_iff {κ ν : Type} [DecidableEq κ] (t : Table κ ν) (k : κ) : (Table.find? t k).isSome = true ↔ ∃ v, (k, v) ∈ t := by
  induction t with
  | nil => simp
  | cons x r ih =>
    obtain ⟨k', v'⟩ := x
    by_cases hk : k' = k
    · simp [Table.find?, hk]
    · simp [Table.find?, hk, ih, Ne.symm hk]

/-! Control cores in system mode (R65, R119). -/

section
variable {s : State} {i : Instr} {k : Unit → Eff}

theorem controlForm_of (hi : exec i s = finish s (ctlOnly s >>= k)) : ControlForm i s := by
  unfold ctlOnly at hi
  refine ⟨fun hc => ?_, fun hc hm => ?_⟩
  · rw [Traps, hi, hc]
    rfl
  · rw [Traps, hi, hc, hm]
    rfl

theorem exec_ctl {p n : Nat} (hi : exec i s = finish s (ctlOnly s >>= k)) (hc : s.cur = .ctl p n) (hm : sysMode s s.cur = true) :
    exec i s = finish s (k ()) := by
  have ho : ctlOnly s = .ok () := by
    unfold ctlOnly
    rw [hm, hc]
    rfl
  rw [hi, ho, ok_bind]

/-- The outcome of a form that goes on from the base state `b`, 8 bytes on. -/
theorem steps8_of {b : State} (hi : exec i s = .next (advance 8 b)) : ∃ t, exec i s = .next t ∧ Steps8 b t := ⟨_, hi, regWrite_advance_none 8 b⟩

end

/-! `KICK` (R320). -/

/-- The place of a queue's descriptor in memory (R318). -/
def queueDescKey (s : State) (p a : Nat) : Nat := physKey p 0 (queueDescAt s p a)

/-- The bytes of a queue's descriptor, read through the caches. -/
def queueDescBytes (s : State) (p a : Nat) : List Byte := readRange (folded (.phys (queueDescKey s p a)) s) (slotMaterial s p 0) (queueDescKey s p a) 64

section
variable {s : State} {p a : Nat}

/-- A queue as its descriptor sets it (R320). -/
def kickedQueue (bs : List Byte) (q : LaunchQ) : LaunchQ :=
  { q with
    kicked := if field bs 0x18 8 = field bs 0x20 8 then none else some (BitVec.ofNat 64 (field bs 0x18 8)), ring := field bs 0 8, nent := field bs 8 4,
    ctxid := BitVec.ofNat 32 (field bs 0xC 4), ptbase := BitVec.ofNat 64 (field bs 0x10 8), qprio := field bs 0x28 1 }

/-- One queue of a package changes. -/
def withQueue (p a : Nat) (q : LaunchQ) (s f : State) : State := f.setPkg p { s.pkg p with queues := Vec.set (s.pkg p).queues a q }

theorem mapLaunchQ_of_onlyMemory {f : State} (hf : OnlyMemory s f) (ha : a < 64) (g : LaunchQ → LaunchQ) :
    mapLaunchQ p a g f = withQueue p a (g (Vec.get (s.pkg p).queues a)) s f := by
  rw [mapLaunchQ, mapPkg, hf.pkg, if_pos ha, withQueue]

theorem onlyMemory_folded (l : Loc) (s : State) : OnlyMemory s (folded l s) := onlyMemory_foldAt l s

/-- What the front end makes of a descriptor (R320). -/
def answerKick (p a : Nat) (bs : List Byte) (f : State) : State :=
  if field bs 0x29 1 = 0 then mapLaunchQ p a (fun x => { x with kicked := none }) f
  else if !queueDescOk p bs then failQueue p a f
  else if field bs 8 4 < (field bs 0x18 8 + 2 ^ 64 - field bs 0x20 8) % 2 ^ 64 then failQueue p a f
  else mapLaunchQ p a (kickedQueue bs) f

section
variable {bs : List Byte} (f : State)

theorem answerKick_closed (h : field bs 0x29 1 = 0) : answerKick p a bs f = mapLaunchQ p a (fun x => { x with kicked := none }) f := if_pos h

theorem answerKick_takes (h : field bs 0x29 1 ≠ 0) (hok : queueDescOk p bs = true)
    (hle : (field bs 0x18 8 + 2 ^ 64 - field bs 0x20 8) % 2 ^ 64 ≤ field bs 8 4) : answerKick p a bs f = mapLaunchQ p a (kickedQueue bs) f := by
  rw [answerKick, if_neg h, hok, if_neg (by decide), if_neg (not_lt.mpr hle)]

theorem answerKick_fails (h : field bs 0x29 1 ≠ 0)
    (hbad : queueDescOk p bs = false ∨ field bs 8 4 < (field bs 0x18 8 + 2 ^ 64 - field bs 0x20 8) % 2 ^ 64) : answerKick p a bs f = failQueue p a f := by
  rw [answerKick, if_neg h]
  rcases hbad with hok | hlt
  · rw [hok, if_pos (by decide)]
  · rw [if_pos hlt, ite_self]

end

theorem kick_eq (s : State) (p a : Nat) : kick p a s = answerKick p a (queueDescBytes s p a) (folded (.phys (queueDescKey s p a)) s) := by
  have hf := onlyMemory_folded (.phys (queueDescKey s p a)) s
  have hk : physKey p 0 (queueDescAt (folded (.phys (queueDescKey s p a)) s) p a) = queueDescKey s p a := by rw [queueDescAt, hf.pkg]; rfl
  have hm : slotMaterial (folded (.phys (queueDescKey s p a)) s) p 0 = slotMaterial s p 0 := by rw [slotMaterial, hf.pkg]; rfl
  have hb : kick p a s = answerKick p a (readRange (folded (.phys (queueDescKey s p a)) s) (slotMaterial (folded (.phys (queueDescKey s p a)) s) p 0)
      (physKey p 0 (queueDescAt (folded (.phys (queueDescKey s p a)) s) p a)) 64) (folded (.phys (queueDescKey s p a)) s) := rfl
  rw [hb, hk, hm]
  rfl

/-- A failed descriptor ends the kick (R320 step 3). -/
theorem failQueue_of_onlyMemory {f : State} (hf : OnlyMemory s f) (ha : a < 64) :
    self (failQueue p a f) = self s ∧ (Vec.get ((failQueue p a f).pkg p).queues a).kicked = none := by
  unfold failQueue
  rw [mapLaunchQ_of_onlyMemory hf ha]
  have h : OnlyMemory (withQueue p a { Vec.get (s.pkg p).queues a with kicked := none } s f)
      (queueFail p a stBound (writeCtl p (queueDescAt f p a + 0x29) [0] (withQueue p a { Vec.get (s.pkg p).queues a with kicked := none } s f))) :=
    (onlyMemory_writeCtl _ _ _ _).trans (onlyMemory_queueFail _ _ _ _)
  refine ⟨h.self.trans hf.self, ?_⟩
  rw [h.pkg, withQueue, pkg_setPkg_self, Vec.get_set_self _ _ _ ha]

end

/-- A change of the running stream after a step of it. -/
theorem StreamStep.mapSelf {s t : State} (h : StreamStep s t) (f : Stream → Stream) : StreamStep s (mapSelf f t) := by
  have hcur : t.cur = s.cur := by rw [h.rest]
  refine ⟨?_, fun a ha => ?_, h.blocks, h.bytes⟩
  · rw [Machine.mapSelf, mapStream, h.rest]
    rfl
  · rw [Machine.mapSelf, stream_mapStream_other _ _ (hcur ▸ ha)]
    exact h.others a ha

/-- What a `TLBINV` drops (R300). -/
def invalOf (w : LongWord) (s : State) : Inval :=
  if w.aux = 0 then .all else if w.aux = 1 then .ctx ((reg s w.a).toNat % 2 ^ 16) else .page ((reg s w.a).toNat % 2 ^ 16) (reg s w.b)

section
variable {s : State} {w : LongWord} {p n : Nat} (hc : s.cur = .ctl p n) (hm : sysMode s s.cur = true)
include hc hm

theorem exec_kick : exec (.kick w) s = finish s (do
    raiseIf (decide (64 ≤ (reg s w.a).toNat)) .illegal 0
    stallIf ((self s).uw != 0)
    .ok (advance 8 (kick p (reg s w.a).toNat s))) := by
  rw [exec_ctl (i := .kick w) (k := fun _ => _) rfl hc hm, hc]
  rfl

theorem traps_kick_illegal (ha : 64 ≤ (reg s w.a).toNat) : Traps (.kick w) s .illegal 0 0 := by
  rw [Traps, exec_kick hc hm, raiseIf_stops (by simpa using ha)]
  rfl

theorem exec_kick_waits (ha : (reg s w.a).toNat < 64) (hu : (self s).uw ≠ 0) : exec (.kick w) s = .next s := by
  rw [exec_kick hc hm, raiseIf_passes (by simpa using ha), stallIf_stops (by simpa using hu)]
  rfl

theorem exec_kick_answers (ha : (reg s w.a).toNat < 64) (hu : (self s).uw = 0) : exec (.kick w) s =
    .next (advance 8 (answerKick p (reg s w.a).toNat (queueDescBytes s p (reg s w.a).toNat) (folded (.phys (queueDescKey s p (reg s w.a).toNat)) s))) := by
  rw [exec_kick hc hm, raiseIf_passes (by simpa using ha), stallIf_passes (by simpa using hu), finish_ok, kick_eq]

/-! `SLEEP` and `WAKE` (R120). -/

theorem exec_sleep : exec (.sleep w) s = finish s (
    if (s.ctl (p, n)).wake then .ok (advance 8 (mapCtl (p, n) (fun c => { c with wake := false }) s))
    else .ok (mapSelf (fun x => { x with run := .sleeping }) (advance 8 s))) := by
  rw [exec_ctl (i := .sleep w) (k := fun _ => _) rfl hc hm, selfCtl, hc]

theorem exec_sleep_awake (h : (s.ctl (p, n)).wake = true) :
    exec (.sleep w) s = .next (advance 8 (s.setCtl (p, n) { s.ctl (p, n) with wake := false })) := by
  rw [exec_sleep hc hm, if_pos h]
  rfl

theorem exec_sleep_sleeps (h : (s.ctl (p, n)).wake = false) : ∃ t, exec (.sleep w) s = .next t ∧ StreamStep s t ∧
    self t = { self s with spc := (self s).spc + 8, run := .sleeping } := by
  refine ⟨mapSelf (fun x => { x with run := .sleeping }) (advance 8 s), ?_, (streamStep_advance 8 s).mapSelf _, ?_⟩
  · rw [exec_sleep hc hm, h]
    rfl
  · rw [self_mapSelf, self_advance]
    rfl

theorem exec_wake : exec (.wake w) s = finish s (do
    let v := (reg s w.a).toNat
    raiseIf (decide (2 ^ 11 ≤ v)) .illegal 0
    let q := p / 64 * 64 + v / 32
    .ok (advance 8 (if packageUp s p q && (s.pkg q).muniment.ctls.getD (v % 32) 0 == 1 then wakeCtl q (v % 32) s else s))) := by
  rw [exec_ctl (i := .wake w) (k := fun _ => _) rfl hc hm, hc]
  rfl

theorem traps_wake_illegal (ha : 2 ^ 11 ≤ (reg s w.a).toNat) : Traps (.wake w) s .illegal 0 0 := by
  rw [Traps, exec_wake hc hm]
  dsimp only
  rw [raiseIf_stops (by simpa using ha)]
  rfl

theorem exec_wake_of (ha : (reg s w.a).toNat < 2 ^ 11) {q : Nat} (hq : q = p / 64 * 64 + (reg s w.a).toNat / 32) {up : Prop} [Decidable up]
    (hup : up ↔ packageUp s p q = true ∧ (s.pkg q).muniment.ctls.getD ((reg s w.a).toNat % 32) 0 = 1) :
    exec (.wake w) s = .next (advance 8 (if up then wakeCtl q ((reg s w.a).toNat % 32) s else s)) := by
  rw [exec_wake hc hm]
  dsimp only
  rw [raiseIf_passes (by simpa using ha), finish_ok, ← hq]
  simp only [Bool.and_eq_true, beq_iff_eq, hup]

/-! `TLBINV`, `JROOT`, `KBIND` (R299, R300). -/

theorem exec_tlbinv : exec (.tlbinv w) s = finish s (do
    stallIf (usesDropped s (scopePkgs s w.scope) (invalOf w s))
    .ok (advance 8 { s with stale := s.stale.map (fun x =>
      if keyPkg (x.word * 8) ∈ scopePkgs s w.scope then { x with gone := addOnce (invalOf w s) x.gone } else x) })) := by
  rw [exec_ctl (i := .tlbinv w) (k := fun _ => _) rfl hc hm]
  dsimp only
  split
  next h => rw [invalOf, if_pos (show w.aux = 0 from BitVec.eq_of_toNat_eq h)]
  next h =>
    have h1 : w.aux = 1 := BitVec.eq_of_toNat_eq h
    rw [invalOf, if_neg (by rw [h1]; decide), if_pos h1]
  next _ h0 h1 => rw [invalOf, if_neg (fun h => h0 (by rw [h]; rfl)), if_neg (fun h => h1 (by rw [h]; rfl))]

theorem exec_tlbinv_waits (h : usesDropped s (scopePkgs s w.scope) (invalOf w s) = true) : exec (.tlbinv w) s = .next s := by
  rw [exec_tlbinv hc hm, stallIf_stops h]
  rfl

theorem exec_tlbinv_drops (h : usesDropped s (scopePkgs s w.scope) (invalOf w s) = false) : exec (.tlbinv w) s =
    .next (advance 8 { s with stale := s.stale.map (fun x =>
      if keyPkg (x.word * 8) ∈ scopePkgs s w.scope then { x with gone := addOnce (invalOf w s) x.gone } else x) }) := by
  rw [exec_tlbinv hc hm, stallIf_passes h, finish_ok]

theorem exec_jroot : exec (.jroot w) s = finish s (do
    let root := (reg s w.b).toNat
    raiseIf (decide (2 ^ 16 ≤ (reg s w.a).toNat)) .illegal 0
    raiseIf (root != 0 && (root % 0x8000 != 0 || root / 2 ^ 36 != p % 64 || decide (ctlSize ≤ root % 2 ^ 36))) .illegal 0
    .ok (advance 8 (mapPkg p (fun x => { x with
      jroots := if root = 0 then Table.del x.jroots (reg s w.a).toNat else Table.put x.jroots (reg s w.a).toNat (reg s w.b) }) s))) := by
  rw [exec_ctl (i := .jroot w) (k := fun _ => _) rfl hc hm, hc]
  rfl

theorem traps_jroot_illegal (h : 2 ^ 16 ≤ (reg s w.a).toNat ∨ ((reg s w.b).toNat ≠ 0 ∧ ((reg s w.b).toNat % 0x8000 ≠ 0 ∨
    (reg s w.b).toNat / 2 ^ 36 ≠ p % 64 ∨ ctlSize ≤ (reg s w.b).toNat % 2 ^ 36))) : Traps (.jroot w) s .illegal 0 0 := by
  rw [Traps, exec_jroot hc hm]
  dsimp only
  by_cases ha : 2 ^ 16 ≤ (reg s w.a).toNat
  · rw [raiseIf_stops (by simpa using ha)]
    rfl
  · rw [raiseIf_passes (by simpa using ha), raiseIf_stops (by simpa [or_assoc] using h.resolve_left ha)]
    rfl

theorem exec_jroot_sets (ha : (reg s w.a).toNat < 2 ^ 16) (hb : (reg s w.b).toNat ≠ 0 → (reg s w.b).toNat % 0x8000 = 0 ∧
    (reg s w.b).toNat / 2 ^ 36 = p % 64 ∧ (reg s w.b).toNat % 2 ^ 36 < ctlSize) :
    exec (.jroot w) s = .next (advance 8 (s.setPkg p { s.pkg p with
      jroots := if (reg s w.b).toNat = 0 then Table.del (s.pkg p).jroots (reg s w.a).toNat
        else Table.put (s.pkg p).jroots (reg s w.a).toNat (reg s w.b) })) := by
  rw [exec_jroot hc hm]
  dsimp only
  rw [raiseIf_passes (by simpa using ha), raiseIf_passes, finish_ok]
  · rfl
  · by_cases h0 : (reg s w.b).toNat = 0
    · simp [h0]
    · obtain ⟨h1, h2, h3⟩ := hb h0
      simpa [h1] using fun _ => ⟨h2, h3⟩

theorem exec_kbind : exec (.kbind w) s = finish s (do
    let slot := (reg s w.a).toNat
    let v := (reg s w.b).toNat
    let x := s.pkg p
    raiseIf (decide (2 ^ 8 ≤ slot) || decide (2 ^ 17 ≤ v) || (slot == 0 && v % 2 ^ 16 != 0)) .illegal 0
    if v / 2 ^ 16 = 1 then
      if slot = 0 then .ok (advance 8 s)
      else .ok (advance 8 (s.setPkg p { x with keys := Table.put x.keys slot ⟨none, x.nextMaterial⟩, nextMaterial := x.nextMaterial + 2 }))
    else
      .ok (advance 8 (s.setPkg p { x with
        keys := Table.put x.keys slot { Table.findD x.keys slot ⟨none, x.nextMaterial⟩ with job := some (v % 2 ^ 16) }
        nextMaterial := if (Table.find? x.keys slot).isNone then x.nextMaterial + 2 else x.nextMaterial }))) := by
  rw [exec_ctl (i := .kbind w) (k := fun _ => _) rfl hc hm, hc]
  rfl

theorem traps_kbind_illegal (h : 2 ^ 8 ≤ (reg s w.a).toNat ∨ 2 ^ 17 ≤ (reg s w.b).toNat ∨ ((reg s w.a).toNat = 0 ∧ (reg s w.b).toNat % 2 ^ 16 ≠ 0)) :
    Traps (.kbind w) s .illegal 0 0 := by
  rw [Traps, exec_kbind hc hm]
  dsimp only
  rw [raiseIf_stops (by simpa [or_assoc] using h)]
  rfl

/-- The binding of a slot after a `KBIND` (R299). -/
def boundPkg (slot v : Nat) (x : Package) : Package :=
  if v < 2 ^ 16 then { x with
    keys := Table.put x.keys slot { Table.findD x.keys slot ⟨none, x.nextMaterial⟩ with job := some v }
    nextMaterial := if (Table.find? x.keys slot).isNone then x.nextMaterial + 2 else x.nextMaterial }
  else { x with keys := Table.put x.keys slot ⟨none, x.nextMaterial⟩, nextMaterial := x.nextMaterial + 2 }

theorem exec_kbind_binds (ha : (reg s w.a).toNat < 2 ^ 8) (hb : (reg s w.b).toNat < 2 ^ 17)
    (h0 : (reg s w.a).toNat = 0 → (reg s w.b).toNat % 2 ^ 16 = 0) : exec (.kbind w) s =
    .next (advance 8 (if 2 ^ 16 ≤ (reg s w.b).toNat ∧ (reg s w.a).toNat = 0 then s
      else s.setPkg p (boundPkg (reg s w.a).toNat (reg s w.b).toNat (s.pkg p)))) := by
  rw [exec_kbind hc hm]
  dsimp only
  rw [raiseIf_passes]
  · by_cases hv : (reg s w.b).toNat < 2 ^ 16
    · have hd : ¬(reg s w.b).toNat / 2 ^ 16 = 1 := by omega
      have hn : ¬(2 ^ 16 ≤ (reg s w.b).toNat ∧ (reg s w.a).toNat = 0) := by omega
      rw [if_neg hd, if_neg hn, boundPkg, if_pos hv, Nat.mod_eq_of_lt hv, finish_ok]
    · have hd : (reg s w.b).toNat / 2 ^ 16 = 1 := by omega
      rw [if_pos hd, boundPkg, if_neg hv]
      by_cases hz : (reg s w.a).toNat = 0
      · rw [if_pos hz, if_pos ⟨not_lt.mp hv, hz⟩, finish_ok]
      · rw [if_neg hz, if_neg (fun h => hz h.2), finish_ok]
  · have hj : ((reg s w.a).toNat == 0 && (reg s w.b).toNat % 2 ^ 16 != 0) = false := by simpa using h0
    rw [decide_eq_false (by omega), decide_eq_false (by omega), hj]
    rfl

end

/-- The packages in the scope of a `TLBINV`. -/
theorem mem_scopePkgs (s : State) (scope : BitVec 3) (q : Nat) : q ∈ scopePkgs s scope ↔
    (if scope = 3 then q == agentPkg s.cur else (Table.find? s.pkgs q).isSome && panelOf q == panelOf (agentPkg s.cur)) = true := by
  unfold scopePkgs
  split
  · simp
  · simp [Table.isSome_find?_iff, and_comm]

/-! The binding of a key slot. -/

section
variable {slot v : Nat} {x : Package}

theorem boundPkg_other {j : Nat} (h : j ≠ slot) : Table.find? (boundPkg slot v x).keys j = Table.find? x.keys j := by
  unfold boundPkg
  split <;> exact Table.find?_put_other _ _ h

theorem boundPkg_unbinds (h : 2 ^ 16 ≤ v) : ∃ y, Table.find? (boundPkg slot v x).keys slot = some y ∧ y.job = none ∧
    y.material = x.nextMaterial ∧ x.nextMaterial < (boundPkg slot v x).nextMaterial := by
  rw [boundPkg, if_neg (by omega)]
  exact ⟨_, Table.find?_put_self _ _ _, rfl, rfl, by dsimp only; omega⟩

theorem boundPkg_binds (h : v < 2 ^ 16) : ∃ y, Table.find? (boundPkg slot v x).keys slot = some y ∧ y.job = some v ∧
    ∀ z, Table.find? x.keys slot = some z → y.material = z.material := by
  rw [boundPkg, if_pos h]
  refine ⟨_, Table.find?_put_self _ _ _, rfl, fun z hz => ?_⟩
  rw [Table.findD, hz]
  rfl

end

/-! What a control core's completed form leaves of the state beside its own stream. -/

section
variable {s : State} {p n : Nat} (hc : s.cur = .ctl p n)
include hc

theorem retire_ctl : retire s = s := by
  unfold retire
  rw [hc]

theorem advance_ctl (k : Nat) : advance k s = mapSelf (fun x => { x with spc := x.spc + BitVec.ofNat 64 k }) s := by
  have h : (mapSelf (fun x => { x with spc := (self s).spc + BitVec.ofNat 64 k }) s).cur = .ctl p n := hc
  rw [advance, goto, retire_ctl h]
  rfl

end

theorem pkg_advance (k : Nat) (s : State) (q : Nat) : (advance k s).pkg q = s.pkg q := by
  rw [State.pkg, (streamStep_advance k s).rest]
  rfl

theorem wakeCtl_sleeping {s : State} {q i : Nat} (h : (s.stream (.ctl q i)).run = .sleeping) :
    wakeCtl q i s = s.setStream (.ctl q i) { s.stream (.ctl q i) with run := .running } := by
  rw [wakeCtl, if_pos h]
  rfl

theorem wakeCtl_awake {s : State} {q i : Nat} (h : (s.stream (.ctl q i)).run ≠ .sleeping) :
    wakeCtl q i s = s.setCtl (q, i) { s.ctl (q, i) with wake := true } := by
  rw [wakeCtl, if_neg h]
  rfl

/-! Each form as its rule states it. -/

section
variable {s : State} {w : LongWord} {p n : Nat} (hc : s.cur = .ctl p n) (hm : sysMode s s.cur = true)
include hc hm

section
variable (ha : (reg s w.a).toNat < 64) (hu : (self s).uw = 0) {bs : List Byte} (hb : bs = queueDescBytes s p (reg s w.a).toNat)
include ha hu hb

theorem kick_takes {g : LaunchQ → LaunchQ} (h : ∀ f, answerKick p (reg s w.a).toNat bs f = mapLaunchQ p (reg s w.a).toNat g f) :
    ∃ t, exec (.kick w) s = .next t ∧ Steps8 (withQueue p (reg s w.a).toNat (g (Vec.get (s.pkg p).queues (reg s w.a).toNat)) s
      (folded (.phys (queueDescKey s p (reg s w.a).toNat)) s)) t := by
  refine steps8_of ?_
  rw [exec_kick_answers hc hm ha hu, ← hb, h, mapLaunchQ_of_onlyMemory (onlyMemory_folded _ s) ha]

theorem kick_fails (h : ∀ f, answerKick p (reg s w.a).toNat bs f = failQueue p (reg s w.a).toNat f) :
    ∃ t, exec (.kick w) s = .next t ∧ self t = { self s with spc := (self s).spc + 8 } ∧ (Vec.get (t.pkg p).queues (reg s w.a).toNat).kicked = none := by
  obtain ⟨hself, hq⟩ := failQueue_of_onlyMemory (p := p) (onlyMemory_folded (.phys (queueDescKey s p (reg s w.a).toNat)) s) ha
  refine ⟨_, exec_kick_answers hc hm ha hu, ?_, ?_⟩
  · rw [← hb, h, self_advance, hself]
    rfl
  · rw [← hb, h, pkg_advance, hq]

end

theorem kbind_form (ha : (reg s w.a).toNat < 2 ^ 8) (hb : (reg s w.b).toNat < 2 ^ 17)
    (h0 : (reg s w.a).toNat = 0 → (reg s w.b).toNat % 2 ^ 16 = 0) :
    ∃ t, exec (.kbind w) s = .next t ∧ self t = { self s with spc := (self s).spc + 8 } ∧ (∀ q, q ≠ p → t.pkg q = s.pkg q) ∧
      t = { s with streams := t.streams, pkgs := t.pkgs } ∧
      t.pkg p = if 2 ^ 16 ≤ (reg s w.b).toNat ∧ (reg s w.a).toNat = 0 then s.pkg p else boundPkg (reg s w.a).toNat (reg s w.b).toNat (s.pkg p) := by
  refine ⟨_, exec_kbind_binds hc hm ha hb h0, ?_⟩
  split
  · refine ⟨self_advance 8 s, fun q _ => pkg_advance 8 s q, ?_, pkg_advance 8 s p⟩
    rw [advance_ctl hc]
    rfl
  · have hc' : (s.setPkg p (boundPkg (reg s w.a).toNat (reg s w.b).toNat (s.pkg p))).cur = .ctl p n := hc
    refine ⟨self_advance 8 _, fun q hq => ?_, ?_, ?_⟩
    · rw [pkg_advance, pkg_setPkg_other _ _ hq]
    · rw [advance_ctl hc']
      rfl
    · rw [pkg_advance, pkg_setPkg_self]

end

end Sys2Proof.Machine

open Sys2Proof.Machine

/-- Settles O33, form by form. -/
theorem controlCoreForms : Obligations.ControlCoreForms := by
  intro s w p a b
  refine ⟨?_, fun n hc hm => ?_⟩
  · rintro i (rfl | rfl | rfl | rfl | rfl | rfl) <;> exact controlForm_of (k := fun _ => _) rfl
  · have hp : agentPkg s.cur = p := rfl
    clear_value p
    refine ⟨traps_kick_illegal hc hm, exec_kick_waits hc hm, fun ha hu => ⟨fun h0 => ?_, fun h0 hok hle => ?_, fun h0 hbad => ?_⟩, fun h => ?_,
      exec_sleep_sleeps hc hm, traps_wake_illegal hc hm, fun ha => ⟨fun h => ?_, fun h hr => ?_, fun h hr => ?_⟩, fun _ => ⟨fun h => ?_, fun h => ?_⟩,
      traps_jroot_illegal hc hm, fun ha h1 h2 h3 h0 => ?_, fun ha h0 => ?_, traps_kbind_illegal hc hm, fun ha hb h0 => ?_⟩
    · exact kick_takes hc hm ha hu rfl (g := fun x => { x with kicked := none }) (fun f => answerKick_closed f h0)
    · exact kick_takes hc hm ha hu rfl (g := kickedQueue _) (fun f => answerKick_takes f h0 hok hle)
    · exact kick_fails hc hm ha hu rfl (fun f => answerKick_fails f h0 hbad)
    · exact steps8_of (exec_sleep_awake hc hm h)
    · exact steps8_of ((exec_wake_of hc hm ha rfl Iff.rfl).trans (by rw [if_neg h]))
    · exact steps8_of ((exec_wake_of hc hm ha rfl Iff.rfl).trans (by rw [if_pos h, wakeCtl_sleeping hr]))
    · exact steps8_of ((exec_wake_of hc hm ha rfl Iff.rfl).trans (by rw [if_pos h, wakeCtl_awake hr]))
    · exact exec_tlbinv_waits hc hm h
    · refine steps8_of ((exec_tlbinv_drops hc hm h).trans ?_)
      simp only [mem_scopePkgs, hp]
      rfl
    · exact steps8_of ((exec_jroot_sets hc hm ha fun _ => ⟨h1, h2, h3⟩).trans (by rw [if_neg h0]))
    · exact steps8_of ((exec_jroot_sets hc hm ha fun h => absurd h0 h).trans (by rw [if_pos h0]))
    · obtain ⟨t, ht, hself, hother, hrest, hpkg⟩ := kbind_form hc hm ha hb h0
      refine ⟨t, ht, hself, hother, hrest, fun j hj => ?_, fun hv hz => ?_, fun hv hz => ?_, fun hv => ?_⟩
      · rw [hpkg]
        split
        · rfl
        · exact boundPkg_other hj
      · rw [hpkg, if_neg fun h => hz h.2]
        exact boundPkg_unbinds hv
      · rw [hpkg, if_pos ⟨hv, hz⟩, hz]
      · rw [hpkg, if_neg fun h => absurd hv (not_lt.mpr h.1)]
        exact boundPkg_binds hv
end

section
/-! SUPPORT. O46: a repeat of the next lane word. -/

open Sys2Proof.Claims

namespace Sys2Proof.Machine

set_option Elab.async false

/-! A change of the lane stream in steps. -/

theorem laneStep_self (s : State) : LaneStep (selfGroup s) s s := ⟨rfl, fun _ _ => rfl, rfl, fun _ => rfl, fun _ _ => rfl, fun _ _ => ⟨rfl, rfl⟩⟩

section
variable {g : Group} {s t : State} (h : LaneStep g s t)
include h

theorem laneStep_cur : t.cur = s.cur := by rw [h.rest]

theorem laneStep_mapSelfGroup (f : Group → Group) : LaneStep (f g) s (mapSelfGroup f t) := by
  refine ⟨?_, fun a ha => ?_, ?_, h.blocks, h.bytes⟩
  · rw [mapSelfGroup, mapGroup, h.rest]
    rfl
  · rw [← h.others a ha]
    exact group_setGroup_other t _ (laneStep_cur h ▸ ha)
  · rw [selfGroup_mapSelfGroup, h.group]

theorem laneStep_retire : LaneStep g s (retire t) := by
  have hb := retire_sameBlocks t
  obtain ⟨hmem, hacc⟩ := SameBytes.of_parts (by simp) (by simp) (by simp) hb
  refine ⟨?_, fun a ha => ?_, ?_, fun b => ?_, fun mat k => ?_, fun b o => ?_⟩
  · rw [retire_rest, h.rest]
  · rw [← h.others a ha, State.group, retire_groups, State.group]
  · rw [selfGroup_retire, h.group]
  · rw [hb b, h.blocks b]
  · rw [hmem, h.bytes.1]
  · exact ⟨(hacc b o).1.trans (h.bytes.2 b o).1, (hacc b o).2.trans (h.bytes.2 b o).2⟩

end

/-! The forms that a `REP` accepts (R134, R139). -/

/-- The lane words that a `REP` refuses. -/
def Unrepeated (j : Instr) : Prop :=
  (∃ w, j = .brl w ∨ j = .brln w ∨ j = .joinl w ∨ j = .lret w ∨ j = .exit w) ∨ ∃ n s a x, j = .rep n s a x

theorem laneForm_unrepeated {j : Instr} (h : Unrepeated j) : laneForm j = none := by
  rcases h with ⟨w, rfl | rfl | rfl | rfl | rfl⟩ | ⟨n, s, a, x, rfl⟩ <;> rfl

/-- Each row of the lane opcodes has a form or is refused. -/
theorem laneForm_of_parseLane {w n : BitVec 96} {j : Instr} (h : parseLane w n = .ok j) : Unrepeated j ∨ ∃ f, laneForm j = some f := by
  unfold parseLane parseLaneOpc at h
  split at h
  -- the rows that MOD[4] tells apart
  case h_67 | h_68 | h_69 | h_70 | h_71 | h_72 | h_81 =>
    cases h
    split <;> exact .inr ⟨_, rfl⟩
  -- the control forms
  case h_73 | h_74 | h_75 | h_76 | h_77 =>
    cases h
    exact .inl (.inl ⟨laneFields w, by simp⟩)
  case h_109 =>
    obtain ⟨-, rfl⟩ := zeroOr_eq_ok h
    exact .inl (.inr ⟨_, _, _, _, rfl⟩)
  case h_110 => exact nomatch h
  all_goals
    cases h
    exact .inr ⟨_, rfl⟩

theorem repeated_undecoded {next : BitVec 96} {r : Reject} (h : decode (.lane next 0) = .error r) : repeated next = raise .illegal 0 := by
  rw [repeated, h]

section
variable {next : BitVec 96} {j : Instr} (hj : decode (.lane next 0) = .ok j)
include hj

theorem repeated_unrepeated (h : Unrepeated j) : repeated next = raise .illegal 0 := by
  rw [repeated, hj]
  dsimp only
  rw [laneForm_unrepeated h]

theorem repeated_form {f : LaneForm} (h : laneForm j = some f) : repeated next = .ok f := by
  rw [repeated, hj]
  dsimp only
  rw [h]

end

/-- A form runs alone as its effect on its own word, then the next word (R121). -/
theorem exec_of_laneForm {j : Instr} {f : LaneForm} (h : laneForm j = some f) (s : State) :
    exec j s = finishLane s ((f.body f.word s).map laneNext) := by
  unfold laneForm at h
  split at h
  case h_78 => exact nomatch h
  all_goals
    cases h
    rfl

/-! The registers of an iteration (R13, R70, R139). -/

section
variable {on : Bool} {o : Option Bool} {x : BitVec 9}

/-- A field whose register, pair counted, passes VN or 255 once it is advanced by `far`. -/
def PassesVn (vn far : Nat) (on : Bool) (o : Option Bool) (x : BitVec 9) : Prop :=
  ∃ wd, on = true ∧ o = some wd ∧ x.toNat < 0x100 ∧ min 256 vn ≤ x.toNat + far + (if wd then 1 else 0)

theorem beyond_iff {f : LaneForm} {adv : BitVec 4} {last stride vn : Nat} : f.beyond adv last stride vn = true ↔
    PassesVn vn (last * stride) (adv.getLsbD 3) f.d f.word.dst ∨ PassesVn vn (last * stride) (adv.getLsbD 2) f.a f.word.a ∨
    PassesVn vn (last * stride) (adv.getLsbD 1) f.b f.word.b ∨ PassesVn vn (last * stride) (adv.getLsbD 0) f.c f.word.c := by
  have hfield (on : Bool) (o : Option Bool) (x : BitVec 9) : (match o with
      | some wd => on && decide (x.toNat < 0x100) && decide (min 256 vn ≤ x.toNat + last * stride + (if wd then 1 else 0))
      | none => false) = true ↔ PassesVn vn (last * stride) on o x := by
    cases o with
    | none => exact ⟨nofun, fun ⟨_, _, h, _⟩ => nomatch h⟩
    | some wd =>
      simp only [Bool.and_eq_true, decide_eq_true_eq]
      exact ⟨fun ⟨⟨h1, h2⟩, h3⟩ => ⟨wd, h1, rfl, h2, h3⟩, fun ⟨_, h1, h, h2, h3⟩ => by cases h; exact ⟨⟨h1, h2⟩, h3⟩⟩
  unfold LaneForm.beyond
  simp only [List.any_cons, List.any_nil, Bool.or_false, Bool.or_eq_true]
  exact or_congr (hfield _ _ _) (or_congr (hfield _ _ _) (or_congr (hfield _ _ _) (hfield _ _ _)))

/-- A 64-bit operand that an odd register number names. -/
def OddPair (o : Option Bool) (x : BitVec 9) : Prop := o = some true ∧ x.toNat < 0x100 ∧ x.toNat % 2 = 1

theorem mem_regs {f : LaneForm} {r : Nat × Bool} : r ∈ f.regs ↔
    ∃ x ∈ [(f.d, f.word.dst), (f.a, f.word.a), (f.b, f.word.b), (f.c, f.word.c)], x.1 = some r.2 ∧ x.2.toNat = r.1 ∧ r.1 < 0x100 := by
  simp only [LaneForm.regs, List.mem_filter, List.mem_filterMap, Option.map_eq_some_iff, decide_eq_true_eq]
  constructor
  · rintro ⟨⟨x, hx, wd, hwd, rfl⟩, hlt⟩
    exact ⟨x, hx, hwd, rfl, hlt⟩
  · rintro ⟨x, hx, hwd, hr, hlt⟩
    exact ⟨⟨x, hx, r.2, hwd, Prod.ext hr rfl⟩, hlt⟩

theorem odd_iff {f : LaneForm} : f.odd = true ↔ OddPair f.d f.word.dst ∨ OddPair f.a f.word.a ∨ OddPair f.b f.word.b ∨ OddPair f.c f.word.c := by
  have hodd : f.odd = true ↔ ∃ x ∈ [(f.d, f.word.dst), (f.a, f.word.a), (f.b, f.word.b), (f.c, f.word.c)], OddPair x.1 x.2 := by
    rw [LaneForm.odd, List.any_eq_true]
    constructor
    · rintro ⟨⟨r, wide⟩, hr, hodd⟩
      obtain ⟨x, hx, hwd, rfl, hlt⟩ := mem_regs.mp hr
      obtain ⟨rfl, h1⟩ : wide = true ∧ x.2.toNat % 2 = 1 := by simpa using hodd
      exact ⟨x, hx, hwd, hlt, h1⟩
    · rintro ⟨x, hx, hwd, hlt, h1⟩
      exact ⟨(x.2.toNat, true), mem_regs.mpr ⟨x, hx, hwd, rfl, hlt⟩, by simpa using h1⟩
  rw [hodd]
  simp

theorem stepSel_eq {k stride : Nat} : stepSel on o k stride x =
    if on = true ∧ o.isSome ∧ x.toNat < 0x100 then BitVec.ofNat 9 (x.toNat + k * stride) else x := by
  rw [stepSel, BitVec.ofNat_add, BitVec.ofNat_toNat, BitVec.setWidth_eq]
  simp only [Bool.and_eq_true, decide_eq_true_eq, and_assoc]

end

/-! The turns of a `REP` (R139). -/

/-- The group with the repeat at `r`. -/
def withRep (r : Option (Nat × Nat)) (g : Group) : Group := { g with rep := r }

/-- The group with split `id` behind a `REP` and its word. -/
def passPair (id : Nat) (g : Group) : Group :=
  { g with splits := Vec.set g.splits id ((Vec.get g.splits id).map (fun sp => { sp with lpc := sp.lpc + 24 })) }

/-- The state after the last iteration. -/
def repeatEnds (id : Nat) (s : State) : State := ctlDone (mapSelfGroup (withRep none) (mapSelfGroup (passPair id) s))

theorem laneStep_repeatEnds (id : Nat) (s : State) : LaneStep (mergeSplits (withRep none (passPair id (selfGroup s)))) s (repeatEnds id s) :=
  laneStep_retire (laneStep_mapSelfGroup (laneStep_mapSelfGroup (laneStep_mapSelfGroup (laneStep_self s) (passPair id)) (withRep none)) mergeSplits)

/-- The state after an iteration that is not the last, `k` of them run. -/
def repeatStays (id k : Nat) (s : State) : State := retire (mapSelfGroup (withRep (some (id, k))) s)

theorem laneStep_repeatStays (id k : Nat) (s : State) : LaneStep (withRep (some (id, k)) (selfGroup s)) s (repeatStays id k s) :=
  laneStep_retire (laneStep_mapSelfGroup (laneStep_self s) (withRep (some (id, k))))

/-- The state after iteration `k` of `n`. -/
def afterTurn (id k n : Nat) (s : State) : State := if k + 1 = n then repeatEnds id s else repeatStays id (k + 1) s

theorem laneStep_afterTurn (id k n : Nat) (s : State) :
    LaneStep (if k + 1 = n then mergeSplits (withRep none (passPair id (selfGroup s))) else withRep (some (id, k + 1)) (selfGroup s)) s
      (afterTurn id k n s) := by
  unfold afterTurn
  split
  · exact laneStep_repeatEnds id s
  · exact laneStep_repeatStays id (k + 1) s

section
variable {s : State} {n stride : BitVec 8} {adv : BitVec 4} {next : BitVec 96} {e : LaneEnv} (hu : UserGroup s) (he : LaneAt s 0 e)
include hu he

theorem exec_rep_illegal (h : repeated next = raise .illegal 0) :
    exec (.rep n stride adv next) s = .next (takeTrap s.cur { cls := .illegal } true s) := by
  change execRep n stride adv next s = _
  unfold execRep
  rw [ctlEnter_of hu he, h]
  rfl

variable {f : LaneForm} (hf : repeated next = .ok f)
include hf

/-- A turn of a `REP` whose word has a form: the end of the repeat, or its checks and the iteration. -/
theorem exec_rep : exec (.rep n stride adv next) s = finishLane s (
    if n.toNat ≤ repeatIndex (selfGroup s) e.id then .ok (repeatEnds e.id s)
    else do
      raiseIf (f.beyond adv (n.toNat - 1) stride.toNat (selfVn s)) .bound 2
      raiseIf (f.iterate adv (repeatIndex (selfGroup s) e.id) stride.toNat).odd .illegal 0
      let u ← f.body (f.iterate adv (repeatIndex (selfGroup s) e.id) stride.toNat).word s
      .ok (afterTurn e.id (repeatIndex (selfGroup s) e.id) n.toNat u)) := by
  change execRep n stride adv next s = _
  unfold execRep
  rw [ctlEnter_of hu he, hf]
  rfl

theorem exec_rep_passes (h : n.toNat ≤ repeatIndex (selfGroup s) e.id) : exec (.rep n stride adv next) s = .next (repeatEnds e.id s) := by
  rw [exec_rep hu he hf, if_pos h]
  rfl

variable (hk : repeatIndex (selfGroup s) e.id < n.toNat)
include hk

theorem exec_rep_beyond (h : f.beyond adv (n.toNat - 1) stride.toNat (selfVn s) = true) :
    exec (.rep n stride adv next) s = .next (takeTrap s.cur { cls := .bound, detail := 2 } true s) := by
  rw [exec_rep hu he hf, if_neg (not_le.mpr hk), raiseIf_stops h]
  rfl

variable (hb : ¬f.beyond adv (n.toNat - 1) stride.toNat (selfVn s) = true)
include hb

theorem exec_rep_odd (h : (f.iterate adv (repeatIndex (selfGroup s) e.id) stride.toNat).odd = true) :
    exec (.rep n stride adv next) s = .next (takeTrap s.cur { cls := .illegal } true s) := by
  rw [exec_rep hu he hf, if_neg (not_le.mpr hk), raiseIf_passes (Bool.eq_false_iff.mpr hb), raiseIf_stops h]
  rfl

theorem exec_rep_runs (h : ¬(f.iterate adv (repeatIndex (selfGroup s) e.id) stride.toNat).odd = true) :
    exec (.rep n stride adv next) s = finishLane s ((f.body (f.iterate adv (repeatIndex (selfGroup s) e.id) stride.toNat).word s).map
      (afterTurn e.id (repeatIndex (selfGroup s) e.id) n.toNat)) := by
  rw [exec_rep hu he hf, if_neg (not_le.mpr hk), raiseIf_passes (Bool.eq_false_iff.mpr hb), raiseIf_passes (Bool.eq_false_iff.mpr h)]
  rfl

end

end Sys2Proof.Machine

open Sys2Proof.Machine

/-- Settles O46, turn by turn. -/
theorem repeatsRunTheNextWord : Obligations.RepeatsRunTheNextWord := by
  intro s n stride adv next e hu he i illegal done
  refine ⟨fun r hr => exec_rep_illegal hu he (repeated_undecoded hr), fun j hj => ⟨fun h => ?_, fun h => ?_, fun f hf => ?_⟩⟩
  · exact ⟨exec_rep_illegal hu he (repeated_unrepeated hj h), laneForm_unrepeated h⟩
  · exact (laneForm_of_parseLane (Sys2Proof.decode_eq_ok_iff.mp hj).1).resolve_left h
  · intro k names beyond moved w odd uneven
    have hrep := repeated_form hj hf
    have hw : (f.iterate adv k stride.toNat).word = w := by
      unfold LaneForm.iterate
      simp only [stepSel_eq]
      rfl
    have hbeyond : f.beyond adv (n.toNat - 1) stride.toNat (selfVn s) = true ↔ beyond := beyond_iff
    have huneven : (f.iterate adv k stride.toNat).odd = true ↔ uneven := by
      rw [odd_iff, hw]
      rfl
    refine ⟨exec_of_laneForm hf s, fun h => ⟨_, exec_rep_passes hu he hrep h, laneStep_repeatEnds e.id s⟩,
      fun hk hb => exec_rep_beyond hu he hrep hk (hbeyond.mpr hb),
      fun hk hb ho => exec_rep_odd hu he hrep hk (mt hbeyond.mp hb) (huneven.mpr ho), fun hk hb ho => ?_⟩
    have hruns : i = finishLane s ((f.body w s).map (afterTurn e.id k n.toNat)) := by
      rw [← hw]
      exact exec_rep_runs hu he hrep hk (mt hbeyond.mp hb) (mt huneven.mp ho)
    refine ⟨fun u hx _ => ⟨afterTurn e.id k n.toNat u, ?_, laneStep_afterTurn e.id k n.toNat u⟩, fun x hx => ?_, fun hx => ?_⟩
    · rw [hruns, hx]
      rfl
    · rw [hruns, hx]
      rfl
    · rw [hruns, hx]
      rfl
end

section
/-! SUPPORT. O1 to O5, O25: the words of the scalar formats, and what they decode to (R58 to R61). -/

open Sys2Proof.Claims

namespace Sys2Proof.Machine

set_option Elab.async false

section
variable {i : Instr} {op : BitVec 6} {d a b : SReg} {func : BitVec 8} {imm : BitVec 14} {off : BitVec 26}

/-- The word of an instruction of one word decodes to it, whatever follows (R57, R59). -/
theorem decodes_of_encode {w : BitVec 32} (he : encode i = encW w) (hwf : i.wf = true) (h1 : OneWord (fOp w)) : Decodes w i :=
  ((encodedInstructionsDecode i hwf).1 w 0 he).2 h1

theorem decodes_encR (he : encode i = encW (encR op d a b func)) (hwf : i.wf = true) (h1 : OneWord op) : Decodes (encR op d a b func) i :=
  decodes_of_encode he hwf ((fOp_encR op d a b func).symm ▸ h1)

theorem decodes_encI (he : encode i = encW (encI op d a imm)) (hwf : i.wf = true) (h1 : OneWord op) : Decodes (encI op d a imm) i :=
  decodes_of_encode he hwf ((fOp_encI op d a imm).symm ▸ h1)

theorem decodes_encJ (he : encode i = encW (encJ op off)) (hwf : i.wf = true) (h1 : OneWord op) : Decodes (encJ op off) i :=
  decodes_of_encode he hwf ((fOp_encJ op off).symm ▸ h1)

/-- A word that no row of the tables accepts is no instruction (R58). -/
theorem illegal_of_unfit {w : BitVec 32} (h : ∀ w1 i, parseScalar w w1 = .ok i → i.wf = false) : Illegal w := fun w1 => by
  cases hd : decode (.scalar w w1) with
  | error r => exact ⟨r, rfl⟩
  | ok i =>
    obtain ⟨hp, hwf⟩ := decode_eq_ok_iff.mp hd
    exact absurd (h w1 i hp) (by simp [hwf])

theorem illegal_of_parse {w : BitVec 32} (h : ∀ w1 i, parseScalar w w1 ≠ .ok i) : Illegal w :=
  illegal_of_unfit fun w1 i hp => absurd hp (h w1 i)

/-- A nonzero reserved field is no instruction (R58). -/
theorem zeroOr_ne_ok {c : Bool} {j : Instr} (h : c = false) : zeroOr c j ≠ .ok i := by
  rw [h]
  exact nofun

end

end Sys2Proof.Machine

open Sys2Proof.Machine Sys2Proof.Claims

/-- Settles O25: each word is read against its encoding, and the reserved ones against every row of their table. -/
theorem workedWordsDecode : Obligations.WorkedWordsDecode := by
  refine ⟨decodes_of_encode rfl rfl (by decide), decodes_of_encode rfl rfl (by decide), decodes_of_encode rfl rfl (by decide),
    decodes_of_encode rfl rfl (by decide), decodes_of_encode rfl rfl (by decide), decodes_of_encode rfl rfl (by decide),
    decodes_of_encode rfl rfl (by decide), decodes_of_encode rfl rfl (by decide), decodes_of_encode rfl rfl (by decide),
    decodes_of_encode rfl rfl (by decide), decodes_of_encode rfl rfl (by decide), rfl, rfl, rfl, rfl, rfl,
    illegal_of_parse fun _ _ => nofun, illegal_of_parse fun _ _ => nofun, _, rfl⟩
end

section
/-! SUPPORT. O1: the results of the register forms (R92). -/

open Sys2Proof.Claims

namespace Sys2Proof.Machine

set_option Elab.async false

/-! The results that the model computes on numbers, as operations on words. -/

section
variable (x y : Word64)

theorem opMulh_eq : opMulh x y = (x.signExtend 128 * y.signExtend 128).extractLsb' 64 64 := by
  have hx : (x.signExtend 128).toInt = x.toInt := BitVec.toInt_signExtend_of_le (by decide)
  have hy : (y.signExtend 128).toInt = y.toInt := BitVec.toInt_signExtend_of_le (by decide)
  have hmod : ((x.signExtend 128 * y.signExtend 128).toNat : Int) = (x.toInt * y.toInt) % 2 ^ 128 := by
    rw [← BitVec.ofInt_toInt (x := x.signExtend 128 * y.signExtend 128), BitVec.toNat_ofInt, BitVec.toInt_mul, hx, hy]
    rw [Int.toNat_of_nonneg (Int.emod_nonneg _ (by decide))]
    exact Int.bmod_emod
  refine BitVec.eq_of_toNat_eq ?_
  rw [opMulh, BitVec.toNat_ofInt, BitVec.extractLsb'_toNat, Nat.shiftRight_eq_div_pow]
  generalize x.toInt * y.toInt = p at hmod ⊢
  omega

theorem opMulhu_eq : opMulhu x y = (x.zeroExtend 128 * y.zeroExtend 128).extractLsb' 64 64 := by
  have hlt : x.toNat * y.toNat < 2 ^ 64 * 2 ^ 64 := Nat.mul_lt_mul'' x.isLt y.isLt
  refine BitVec.eq_of_toNat_eq ?_
  rw [opMulhu, BitVec.toNat_ofNat, BitVec.extractLsb'_toNat, Nat.shiftRight_eq_div_pow, BitVec.toNat_mul, BitVec.toNat_setWidth, BitVec.toNat_setWidth,
    Nat.mod_eq_of_lt (x.isLt.trans (by decide)), Nat.mod_eq_of_lt (y.isLt.trans (by decide)), Nat.mod_eq_of_lt (hlt.trans_eq (by decide))]

theorem ofInt_tdiv_eq : BitVec.ofInt 64 (x.toInt.tdiv y.toInt) = x.sdiv y :=
  BitVec.eq_of_toInt_eq (by rw [BitVec.toInt_ofInt, BitVec.toInt_sdiv])

theorem opDiv_eq : opDiv x y = if y = 0 then BitVec.allOnes 64 else x.sdiv y := by rw [opDiv, ofInt_tdiv_eq]

theorem opDivu_eq : opDivu x y = if y = 0 then BitVec.allOnes 64 else x.udiv y := by
  rw [opDivu, ← BitVec.toNat_udiv, BitVec.ofNat_toNat, BitVec.setWidth_eq]
  rfl

theorem sub_mul_sdiv : x - y * x.sdiv y = x.srem y := by
  rw [sub_eq_iff_eq_add, ← BitVec.ofInt_toInt (x := x.srem y), BitVec.toInt_srem, ← ofInt_tdiv_eq]
  conv_lhs => rw [← BitVec.ofInt_toInt (x := x), ← Int.tmod_add_mul_tdiv x.toInt y.toInt]
  rw [BitVec.ofInt_add, BitVec.ofInt_mul, BitVec.ofInt_toInt]

theorem opRem_eq : opRem x y = if y = 0 then x else x.srem y := by
  unfold opRem
  split
  · rfl
  next hy => rw [opDiv_eq, if_neg hy, sub_mul_sdiv]

theorem opRemu_eq : opRemu x y = if y = 0 then x else x.umod y := by
  rw [opRemu, ← BitVec.toNat_umod, BitVec.ofNat_toNat, BitVec.setWidth_eq]
  rfl

theorem toNat_and_63 : (y &&& 63).toNat = y.toNat % 64 := by
  rw [BitVec.toNat_and]
  exact Nat.and_two_pow_sub_one_eq_mod _ 6

theorem opShl_eq : opShl x y = x <<< (y &&& 63) := by rw [opShl, ← toNat_and_63]; rfl
theorem opShr_eq : opShr x y = x >>> (y &&& 63) := by rw [opShr, ← toNat_and_63]; rfl
theorem opSra_eq : opSra x y = x.sshiftRight' (y &&& 63) := by rw [opSra, ← toNat_and_63]; rfl
theorem opRor_eq : opRor x y = x.rotateRight (y &&& 63).toNat := by rw [opRor, toNat_and_63]

theorem opSlt_eq : opSlt x y = flag (x.slt y) := by
  rw [opSlt, ← BitVec.slt_eq_decide]
  rfl

theorem opSltu_eq : opSltu x y = flag (x.ult y) := by
  rw [opSltu, ← BitVec.ult_eq_decide]
  rfl

theorem opMin_eq : opMin x y = if y.slt x then y else x := by
  rw [opMin, ← ite_not, if_congr (by rw [not_le, ← BitVec.slt_iff_toInt_lt]) rfl rfl]

theorem opMax_eq : opMax x y = if x.slt y then y else x := by
  unfold opMax
  by_cases h : x.toInt = y.toInt
  · rw [BitVec.eq_of_toInt_eq h, ite_self, ite_self]
  · exact if_congr (by rw [BitVec.slt_iff_toInt_lt]; omega) rfl rfl

theorem opMinu_eq : opMinu x y = if y.ult x then y else x := by
  rw [opMinu, ← ite_not, if_congr (by rw [not_le, ← BitVec.ult_iff_toNat_lt]) rfl rfl]

theorem opMaxu_eq : opMaxu x y = if x.ult y then y else x := by
  unfold opMaxu
  by_cases h : x.toNat = y.toNat
  · rw [BitVec.eq_of_toNat_eq h, ite_self, ite_self]
  · exact if_congr (by rw [BitVec.ult_iff_toNat_lt]; omega) rfl rfl

end



/-! Counts of bits. -/

/-- The bits of a number, least significant first, are those of its binary form. -/
theorem bitList_eq (n x : Nat) : bitList n x = (List.range n).map x.testBit := by
  induction n generalizing x with
  | zero => rfl
  | succ n ih =>
    have h0 : (x % 2 == 1) = x.testBit 0 := by rw [Nat.testBit_zero]; rfl
    rw [bitList, ih, h0, List.range_succ_eq_map, List.map_cons, List.map_map]
    exact congrArg (_ :: ·) (List.map_congr_left fun k _ => (Nat.testBit_succ x k).symm)

theorem bitList_toNat (x : Word64) : bitList 64 x.toNat = (List.range 64).map x.getLsbD := bitList_eq 64 x.toNat

/-- The zero bits before the first one bit of 64. -/
theorem isZeroRun_takeWhile (f : Nat → Bool) : IsZeroRun f (((List.range 64).map f).takeWhile (!·)).length := by
  rw [List.takeWhile_eq_take_findIdx_not, List.length_take, min_eq_left List.findIdx_le_length]
  refine ⟨List.findIdx_le_length.trans_eq (by simp), fun i hi => ?_, fun h => ?_⟩
  · simpa using List.not_of_lt_findIdx hi
  · have := List.findIdx_getElem (p := fun a => !!a) (xs := (List.range 64).map f) (w := by simpa using h)
    simpa using this

theorem countTz_isZeroRun (x : Word64) : IsZeroRun (fun i => x.getLsbD i) (countTz 64 x.toNat) := by
  rw [countTz, bitList_toNat]
  exact isZeroRun_takeWhile _

theorem countLz_isZeroRun (x : Word64) : IsZeroRun (fun i => x.getLsbD (63 - i)) (countLz 64 x.toNat) := by
  have hrev : ((List.range 64).map x.getLsbD).reverse = (List.range 64).map fun i => x.getLsbD (63 - i) := by
    rw [← List.map_reverse, List.range_eq_range', List.reverse_range', List.map_map]
    rfl
  rw [countLz, bitList_toNat, hrev]
  exact isZeroRun_takeWhile _

theorem countOnes_eq (x : Word64) : countOnes 64 x.toNat = (List.range 64).countP fun i => x.getLsbD i := by
  rw [countOnes, bitList_toNat, ← List.countP_eq_length_filter, List.countP_map]
  rfl

/-! The forms and their words. -/

/-- An instruction that writes `v` and moves on by `n` (R10, R11). -/
theorem sets_of {i : Instr} {s : State} {d : SReg} {v : Word64} {n : Nat} (h : exec i s = .next (advance n (setReg d v s))) : Sets i s d v n :=
  ⟨_, h, regWrite_advance d v n s⟩

/-- A register form, by its row of the encoder's table and its operation. -/
theorem registerForm_of {func : BitVec 8} {i : Instr} {d a b : SReg} {s : State} {f : Word64 → Word64 → Word64} {v : Word64}
    (he : encode i = encW (encR 0x01 d a b func)) (hwf : i.wf = true) (hx : exec i s = alu f d a b s) (hv : f (reg s a) (reg s b) = v) :
    RegisterForm func i d a b s v :=
  ⟨decodes_encR he hwf (by decide), sets_of (hx.trans (by rw [alu, hv]))⟩

theorem parseScalar_alu (d a b : SReg) (func : BitVec 8) (w1 : BitVec 32) : parseScalar (encR 0x01 d a b func) w1 = parseAlu (encR 0x01 d a b func) := by
  unfold parseScalar
  rw [fOp_encR]
  rfl

/-- R92 assigns the function values of its table alone. -/
theorem illegal_alu_unassigned {d a b : SReg} {func : BitVec 8} (h : func.toNat ∉ aluFuncs) : Illegal (encR 0x01 d a b func) := by
  refine illegal_of_parse fun w1 i => ?_
  rw [parseScalar_alu, parseAlu, fFunc_encR]
  split
  case h_31 => exact nofun
  all_goals
    rename_i hf
    exact absurd (by rw [hf]; decide) h

/-- The counts reserve their second source (R92). -/
theorem illegal_alu_reserved {d a b : SReg} {func : BitVec 8} (h : 0x30 ≤ func.toNat) (hb : b ≠ 0) : Illegal (encR 0x01 d a b func) := by
  refine illegal_of_parse fun w1 i => ?_
  rw [parseScalar_alu, parseAlu, fFunc_encR, fB_encR]
  split
  case h_28 | h_29 | h_30 => exact zeroOr_ne_ok (beq_eq_false_iff_ne.mpr hb)
  case h_31 => exact nofun
  all_goals
    rename_i hf
    exact absurd (hf ▸ h) (by decide)

end Sys2Proof.Machine

open Sys2Proof.Machine Sys2Proof.Claims

/-- Settles O1: each row's word reads back, and its operation on numbers is the operation on words that R92 names. -/
theorem registerFormsWriteTheirResult : Obligations.RegisterFormsWriteTheirResult := by
  refine ⟨fun s d a b => ?_, fun _ _ _ _ => illegal_alu_unassigned, fun _ _ _ _ => illegal_alu_reserved, decodes_of_encode rfl rfl (by decide)⟩
  exact ⟨registerForm_of rfl rfl rfl rfl, registerForm_of rfl rfl rfl rfl, registerForm_of rfl rfl rfl rfl,
    registerForm_of rfl rfl rfl (opMulh_eq _ _), registerForm_of rfl rfl rfl (opMulhu_eq _ _),
    registerForm_of rfl rfl rfl (opDiv_eq _ _), registerForm_of rfl rfl rfl (opDivu_eq _ _),
    registerForm_of rfl rfl rfl (opRem_eq _ _), registerForm_of rfl rfl rfl (opRemu_eq _ _),
    registerForm_of rfl rfl rfl rfl, registerForm_of rfl rfl rfl rfl, registerForm_of rfl rfl rfl rfl,
    registerForm_of rfl rfl rfl rfl, registerForm_of rfl rfl rfl rfl, registerForm_of rfl rfl rfl rfl, registerForm_of rfl rfl rfl rfl,
    registerForm_of rfl rfl rfl (opShl_eq _ _), registerForm_of rfl rfl rfl (opShr_eq _ _),
    registerForm_of rfl rfl rfl (opSra_eq _ _), registerForm_of rfl rfl rfl (opRor_eq _ _),
    registerForm_of rfl rfl rfl (opSlt_eq _ _), registerForm_of rfl rfl rfl (opSltu_eq _ _), registerForm_of rfl rfl rfl rfl,
    registerForm_of rfl rfl rfl (opMin_eq _ _), registerForm_of rfl rfl rfl (opMax_eq _ _),
    registerForm_of rfl rfl rfl (opMinu_eq _ _), registerForm_of rfl rfl rfl (opMaxu_eq _ _),
    ⟨_, countLz_isZeroRun _, registerForm_of rfl rfl rfl rfl⟩, ⟨_, countTz_isZeroRun _, registerForm_of rfl rfl rfl rfl⟩,
    registerForm_of rfl rfl rfl (congrArg (BitVec.ofNat 64) (countOnes_eq _))⟩
end

section
/-! SUPPORT. O2, O3: immediate forms, alone and under an `EXT`, and bit fields (R60, R93, R94). -/

open Sys2Proof.Claims

namespace Sys2Proof.Machine

set_option Elab.async false

/-! Immediate forms (R93). -/

theorem exec_ext (hi : BitVec 26) (w : BitVec 32) (s : State) : exec (.ext hi w) s = execExt hi w s := rfl

section
variable {op : BitVec 6} {i : Instr} {d a : SReg} {imm : BitVec 14} {amount : BitVec 6} {s : State}

theorem signedForm_of {f : Word64 → Word64 → Word64} (he : encode i = encW (encI op d a imm)) (hwf : i.wf = true) (h1 : OneWord op)
    (hx : exec i s = aluImm f d a (imm.signExtend 64) 4 s) {g : Word64 → Word64} (hg : ∀ k, f (reg s a) k = g k)
    (hext : Decodes (encI op d a imm) i → ∀ hi : BitVec 26, exec (.ext hi (encI op d a imm)) s = aluImm f d a ((hi ++ imm).signExtend 64) 8 s) :
    SignedForm op i d a imm s g := by
  have hd := decodes_encI he hwf h1
  exact ⟨hd, sets_of (hx.trans (by rw [aluImm, hg])), fun hi => sets_of ((hext hd hi).trans (by rw [aluImm, hg]))⟩

theorem unsignedForm_of {f : Word64 → Word64 → Word64} (he : encode i = encW (encI op d a imm)) (hwf : i.wf = true) (h1 : OneWord op)
    (hx : exec i s = aluImm f d a (imm.zeroExtend 64) 4 s) {g : Word64 → Word64} (hg : ∀ k, f (reg s a) k = g k)
    (hext : Decodes (encI op d a imm) i → ∀ hi : BitVec 26, exec (.ext hi (encI op d a imm)) s = aluImm f d a ((hi ++ imm).zeroExtend 64) 8 s) :
    UnsignedForm op i d a imm s g := by
  have hd := decodes_encI he hwf h1
  exact ⟨hd, sets_of (hx.trans (by rw [aluImm, hg])), fun hi => sets_of ((hext hd hi).trans (by rw [aluImm, hg]))⟩

/-- The word of a shift by an amount: eight reserved bits above the amount (R93). -/
theorem shiftWord_eq (op : BitVec 6) (d a : SReg) (r : BitVec 8) (amount : BitVec 6) : op ++ d ++ a ++ r ++ amount = encI op d a (r ++ amount) :=
  BitVec.append_assoc.trans (BitVec.cast_eq _ _)

/-- The row of a shift by an amount in the decoder's table (R58, R93). -/
def ShiftRow (op : BitVec 6) (j : BitVec 6 → Instr) (d a : SReg) : Prop :=
  ∀ (imm : BitVec 14) w1, parseScalar (encI op d a imm) w1 = zeroOr (imm.extractLsb' 6 8 == 0) (j (imm.extractLsb' 0 6))

theorem shiftForm_of {f : Word64 → Word64 → Word64} {v : Word64} (he : encode i = encW (encI op d a ((0 : BitVec 8) ++ amount))) (hwf : i.wf = true)
    (h1 : OneWord op) (hx : exec i s = aluImm f d a (amount.zeroExtend 64) 4 s) (hv : f (reg s a) (amount.zeroExtend 64) = v)
    {j : BitVec 6 → Instr} (hrow : ShiftRow op j d a)
    (hext : Decodes (encI op d a ((0 : BitVec 8) ++ amount)) i → ∀ hi : BitVec 26, Traps (.ext hi (encI op d a ((0 : BitVec 8) ++ amount))) s .illegal 0 0) :
    ShiftForm op i d a amount s v := by
  have hd := decodes_encI he hwf h1
  refine ⟨shiftWord_eq op d a 0 amount ▸ hd, sets_of (hx.trans (by rw [aluImm, hv])), fun r hr => ?_, fun hi => ?_⟩
  · rw [shiftWord_eq]
    refine illegal_of_parse fun w1 i => ?_
    rw [hrow, amount_reserved]
    exact zeroOr_ne_ok (beq_eq_false_iff_ne.mpr hr)
  · rw [shiftWord_eq]
    exact hext hd hi

end

section
variable (x : Word64) (amount : BitVec 6)

theorem toNat_amount : (amount.zeroExtend 64).toNat % 64 = amount.toNat := by
  rw [BitVec.toNat_setWidth_of_le (by decide), Nat.mod_eq_of_lt amount.isLt]

theorem opShl_amount : opShl x (amount.zeroExtend 64) = x <<< amount := by rw [opShl, toNat_amount]; rfl
theorem opShr_amount : opShr x (amount.zeroExtend 64) = x >>> amount := by rw [opShr, toNat_amount]; rfl
theorem opSra_amount : opSra x (amount.zeroExtend 64) = x.sshiftRight' amount := by rw [opSra, toNat_amount]; rfl

end

end Sys2Proof.Machine

open Sys2Proof Sys2Proof.Machine Sys2Proof.Claims

/-- Settles O2: each row's word reads back, and runs with its own immediate or the one that an `EXT` makes. -/
theorem immediateFormsWriteTheirResult : Obligations.ImmediateFormsWriteTheirResult := by
  intro s d a imm amount
  refine ⟨signedForm_of rfl rfl (by decide) rfl (fun _ => rfl) ?_, unsignedForm_of rfl rfl (by decide) rfl (fun _ => rfl) ?_,
    unsignedForm_of rfl rfl (by decide) rfl (fun _ => rfl) ?_, unsignedForm_of rfl rfl (by decide) rfl (fun _ => rfl) ?_,
    shiftForm_of rfl rfl (by decide) rfl (opShl_amount _ _) (j := .shli d a) ?_ ?_, shiftForm_of rfl rfl (by decide) rfl (opShr_amount _ _) (j := .shri d a) ?_ ?_,
    shiftForm_of rfl rfl (by decide) rfl (opSra_amount _ _) (j := .srai d a) ?_ ?_, signedForm_of rfl rfl (by decide) rfl (fun _ => rfl) ?_,
    signedForm_of rfl rfl (by decide) rfl (fun _ => opSlt_eq _ _) ?_, unsignedForm_of rfl rfl (by decide) rfl (fun _ => opSltu_eq _ _) ?_⟩
  -- the rows of the shifts
  case refine_5 | refine_7 | refine_9 =>
    intro imm w1
    rw [parseScalar, fOp_encI, fD_encI, fA_encI, fImm14_encI]
    rfl
  -- under an `EXT`
  all_goals
    intro hd hi
    change exec (.ext hi _) s = _
    rw [exec_ext, execExt, hd 0]
    rfl
end

section
/-! SUPPORT. O3: bit fields (R94). -/

open Sys2Proof.Claims

namespace Sys2Proof.Machine

set_option Elab.async false

/-- The number of `n` bits read with its sign. -/
theorem sextInt_eq_toInt (x n : Nat) : sextInt x n = (BitVec.ofNat n x).toInt := by
  rw [sextInt, BitVec.toInt, BitVec.toNat_ofNat]
  rfl

theorem fieldOf_eq (x : Word64) (pos len1 : Nat) : fieldOf x pos (len1 + 1) = (x.extractLsb' pos (len1 + 1)).toNat := by
  rw [fieldOf, bits, BitVec.extractLsb'_toNat, Nat.shiftRight_eq_div_pow, show pos + (len1 + 1) - 1 + 1 - pos = len1 + 1 by omega]

theorem signedField_eq (x : Word64) (pos len1 : Nat) :
    BitVec.ofInt 64 (sextInt (fieldOf x pos (len1 + 1)) (len1 + 1)) = (x.extractLsb' pos (len1 + 1)).signExtend 64 := by
  rw [sextInt_eq_toInt, fieldOf_eq, BitVec.ofNat_toNat, BitVec.setWidth_eq]
  rfl

theorem unsignedField_eq (x : Word64) (pos len1 : Nat) :
    BitVec.ofNat 64 (fieldOf x pos (len1 + 1)) = (x.extractLsb' pos (len1 + 1)).zeroExtend 64 := by
  rw [fieldOf_eq, BitVec.ofNat_toNat]

/-- An inserted field: the bits of `y` in their place, the bits of `x` around them. -/
theorem getLsbD_insertField (x y : Word64) (pos len : Nat) {k : Nat} (hk : k < 64) :
    (insertField x y pos len).getLsbD k = if pos ≤ k ∧ k < pos + len then y.getLsbD (k - pos) else x.getLsbD k := by
  have hin : pos ≤ k → (k - pos < len ↔ k < pos + len) := fun h => by omega
  simp only [insertField, BitVec.getLsbD_or, BitVec.getLsbD_and, BitVec.getLsbD_not, BitVec.getLsbD_ofNat, hk, decide_true, Bool.true_and,
    Nat.testBit_mul_two_pow, Nat.testBit_two_pow_sub_one, Nat.testBit_mod_two_pow, BitVec.testBit_toNat]
  by_cases hp : pos ≤ k
  · simp only [hp, decide_true, Bool.true_and, true_and, hin hp]
    by_cases hl : k < pos + len
    · simp [hl]
    · simp [hl]
  · simp [hp]

section
variable {op : BitVec 6} {d a : SReg} {sext : BitVec 1} {len1 pos : BitVec 6}

/-- The two bits above a field's length and position: a reserved one and the sign bit. -/
theorem fieldWord_eq (op : BitVec 6) (d a : SReg) (sext : BitVec 1) (len1 pos : BitVec 6) :
    fieldWord op d a sext len1 pos = encI op d a (((0 : BitVec 1) ++ sext) ++ len1 ++ pos) := by
  simp only [fieldWord, encI, BitVec.append_assoc, BitVec.cast_eq]

theorem parseScalar_bfx (w1 : BitVec 32) : parseScalar (fieldWord 0x0C d a sext len1 pos) w1 =
    .ok (if sext = 1 then .bfxI64 d a len1 pos else .bfxN64 d a len1 pos) := by
  rw [fieldWord_eq]
  obtain rfl | rfl : sext = 0 ∨ sext = 1 := by revert sext; decide
  · simp [parseScalar, zeroOr, -BitVec.getLsbD_eq_getElem]
  · simp [parseScalar, zeroOr, -BitVec.getLsbD_eq_getElem]

theorem parseScalar_bfi (w1 : BitVec 32) : parseScalar (fieldWord 0x0D d a sext len1 pos) w1 = zeroOr (sext == 0) (.bfi d a len1 pos) := by
  rw [fieldWord_eq]
  obtain rfl | rfl : sext = 0 ∨ sext = 1 := by revert sext; decide
  · simp [parseScalar]
  · simp [parseScalar]

/-- A field that passes bit 63 is not accepted. -/
theorem field_unfit (h : 64 < pos.toNat + (len1.toNat + 1)) :
    (Instr.bfxI64 d a len1 pos).wf = false ∧ (Instr.bfxN64 d a len1 pos).wf = false ∧ (Instr.bfi d a len1 pos).wf = false := by
  have : ¬pos.toNat + len1.toNat < 64 := by omega
  simp [Instr.wf, this]

end

/-- An `EXT` before a word that is no instruction under a prefix is ILLEGAL (R60). -/
theorem traps_ext_of {w : BitVec 32} {hi : BitVec 26} {s : State}
    (h : ∀ i, decode (.scalar w 0) = .ok i → (∃ d a len1 pos, i = .bfxI64 d a len1 pos ∨ i = .bfxN64 d a len1 pos ∨ i = .bfi d a len1 pos)) :
    Traps (.ext hi w) s .illegal 0 0 := by
  rw [Traps, exec_ext, execExt]
  cases hd : decode (.scalar w 0) with
  | error r => rfl
  | ok i =>
    obtain ⟨d, a, len1, pos, rfl | rfl | rfl⟩ := h i hd
    all_goals rfl

end Sys2Proof.Machine

open Sys2Proof Sys2Proof.Machine Sys2Proof.Claims

/-- Settles O3: fields of numbers are fields of words, and the words of the three forms read back but for reserved bits and fields
that pass bit 63. -/
theorem bitFieldsExtractAndInsert : Obligations.BitFieldsExtractAndInsert := by
  refine ⟨fun s d a len1 pos h => ?_, fun d a sext len1 pos h => ⟨?_, ?_⟩, fun s hi d a sext len1 pos => ⟨?_, ?_, ?_⟩, decodes_of_encode rfl rfl (by decide)⟩
  · have hlt : decide (pos.toNat + len1.toNat < 64) = true := decide_eq_true (by omega)
    refine ⟨?_, sets_of (congrArg (fun v => Host.Outcome.next (advance 4 (setReg d v s))) (signedField_eq _ _ _)), ?_,
      sets_of (congrArg (fun v => Host.Outcome.next (advance 4 (setReg d v s))) (unsignedField_eq _ _ _)), ?_,
      _, sets_of rfl, fun k hk => getLsbD_insertField _ _ _ _ hk⟩
    · exact fun w1 => decode_eq_ok_iff.mpr ⟨parseScalar_bfx w1, hlt⟩
    · exact fun w1 => decode_eq_ok_iff.mpr ⟨parseScalar_bfx w1, hlt⟩
    · exact fun w1 => decode_eq_ok_iff.mpr ⟨parseScalar_bfi w1, hlt⟩
  · refine illegal_of_unfit fun w1 i hi => ?_
    rw [parseScalar_bfx] at hi
    cases hi
    split
    · exact (field_unfit h).1
    · exact (field_unfit h).2.1
  · refine illegal_of_unfit fun w1 i hi => ?_
    rw [parseScalar_bfi] at hi
    obtain ⟨-, rfl⟩ := zeroOr_eq_ok hi
    exact (field_unfit h).2.2
  · refine illegal_of_parse fun w1 i => ?_
    rw [parseScalar_bfi]
    exact zeroOr_ne_ok (by decide)
  · refine traps_ext_of fun i hd => ⟨d, a, len1, pos, ?_⟩
    have hp := (decode_eq_ok_iff.mp hd).1
    rw [parse, parseScalar_bfx] at hp
    cases hp
    split
    · exact .inl rfl
    · exact .inr (.inl rfl)
  · refine traps_ext_of fun i hd => ⟨d, a, len1, pos, .inr (.inr ?_)⟩
    have hp := (decode_eq_ok_iff.mp hd).1
    rw [parse, parseScalar_bfi] at hp
    exact (zeroOr_eq_ok hp).2.symm
end

section
/-! SUPPORT. O4, O5: transfers of control (R11, R26, R95 to R98). -/

open Sys2Proof.Claims

namespace Sys2Proof.Machine

set_option Elab.async false

section
variable {s : State} {t : Word64}

/-- A target in control space or in the running agent's own tensor ranges raises nothing at the transfer. -/
theorem transfer_of_reaches (h : Claims.Reaches s t) (eff : State → State) : transfer t eff s = .ok (goto t (eff s)) := by
  obtain ⟨h4, hspace⟩ := h
  have hlow : decide (2 ≤ (t.extractLsb' 62 2).toNat) = false := by
    obtain h | ⟨h, -⟩ := hspace
    · rw [h]; rfl
    · rw [h]; rfl
  rw [transfer, raiseIf_passes (by simpa using h4), raiseIf_passes hlow]
  obtain h0 | ⟨h1, hp⟩ := hspace
  · by_cases hm : Malformed t
    · rw [spaceOf_malformed hm]
      rfl
    · rw [spaceOf_control hm (by rw [h0]; rfl)]
      rfl
  · rw [spaceOf_tensor (by rw [h1]; rfl)]
    exact raiseIf_passes (by simpa using hp)

theorem transfer_of_targetTrap {cls : TrapClass} {detail : Nat} {addr : Word64} (h : TargetTrap s t cls detail addr) (eff : State → State) :
    transfer t eff s = .error (.trap { cls := cls, detail := detail, addr := addr }) := by
  unfold transfer
  obtain ⟨h4, rfl, rfl, rfl⟩ | ⟨h4, h1, hp, rfl, rfl, rfl⟩ | ⟨h4, h23, rfl, rfl, rfl⟩ := h
  · exact raiseIf_stops (by simpa using h4)
  · rw [raiseIf_passes (by simpa using h4), raiseIf_passes (by rw [h1]; rfl), spaceOf_tensor (by rw [h1]; rfl)]
    exact raiseIf_stops (by simpa using hp)
  · rw [raiseIf_passes (by simpa using h4)]
    refine raiseIf_stops ?_
    obtain h | h := h23
    · rw [h]; rfl
    · rw [h]; rfl

/-- A transfer that writes no register reads, to a claim, as one that writes s0. -/
theorem transfers_goto_none (pc : Word64) (s : State) : Transfers pc 0 0 s (goto pc s) := by
  have hpc : advance (pc - (self s).spc).toNat s = goto pc s := by
    rw [advance, BitVec.ofNat_toNat, BitVec.setWidth_eq, add_sub_cancel]
  obtain ⟨hframe, -, hvalue⟩ := hpc ▸ regWrite_advance_none (pc - (self s).spc).toNat s
  exact ⟨hframe, by rw [self_goto], hvalue⟩

/-- An effect that leaves `v` in the register `d`, and nothing else: what a transfer takes along. -/
def LinksWith (eff : State → State) (d : SReg) (v : Word64) (s : State) : Prop := ∀ pc, Transfers pc d v s (goto pc (eff s))

theorem linksWith_id (s : State) : LinksWith id 0 0 s := fun pc => transfers_goto_none pc s

theorem linksWith_setReg (d : SReg) (v : Word64) (s : State) : LinksWith (setReg d v) d v s := fun pc => transfers_goto pc d v s

theorem transfersOrTraps_of {i : Instr} {eff : State → State} {d : SReg} {v : Word64} (hx : exec i s = finish s (transfer t eff s))
    (hl : LinksWith eff d v s) : TransfersOrTraps i s t d v := by
  refine ⟨fun h => ⟨_, ?_, hl t⟩, fun cls detail addr h => ?_⟩
  · rw [hx, transfer_of_reaches h]
    rfl
  · rw [Traps, hx, transfer_of_targetTrap h]
    rfl

theorem shiftLeft_two_eq (x : Word64) : x <<< 2 = 4 * x := by
  rw [BitVec.shiftLeft_eq_mul_twoPow, BitVec.mul_comm]
  rfl

theorem wordTarget_eq {w : Nat} {f : Form} {off : BitVec w} (h : f.simm = off.signExtend 64) : wordTarget f = wordsFrom f.pc off := by
  rw [wordTarget, wordsFrom, h, shiftLeft_two_eq]

section
variable {w : Nat} {i : Instr} {f : Form} {off : BitVec w} (hf : f.simm = off.signExtend 64)
include hf

theorem transfersOrTraps_wordTarget {eff : State → State} {d : SReg} {v : Word64} (hx : exec i s = finish s (transfer (wordTarget f) eff s))
    (hl : LinksWith eff d v s) : TransfersOrTraps i s (wordsFrom f.pc off) d v :=
  transfersOrTraps_of (hx.trans (by rw [wordTarget_eq hf])) hl

/-- A branch goes to its target or passes, by its condition (R95). -/
theorem branch_follows {c : Bool} (hx : exec i s = branch c f s) :
    (c = true → TransfersOrTraps i s (wordsFrom f.pc off) 0 0) ∧ (c = false → Passes i s f.len) := by
  refine ⟨fun h => ?_, fun h => ?_⟩
  · subst h
    exact transfersOrTraps_wordTarget hf hx (linksWith_id s)
  · subst h
    exact ⟨_, hx, regWrite_advance_none f.len s⟩

/-- `LOOP` (R96). -/
theorem loop_counts {a b : SReg} (hx : exec i s = loopForm a b f s) :
    (reg s a - 1 ≠ (if b = a ∧ a ≠ 0 then reg s a - 1 else reg s b) → TransfersOrTraps i s (wordsFrom f.pc off) a (reg s a - 1)) ∧
    (reg s a - 1 = (if b = a ∧ a ≠ 0 then reg s a - 1 else reg s b) → Sets i s a (reg s a - 1) f.len) := by
  have hy : (if (b = a && a != 0) = true then reg s a - 1 else reg s b) = if b = a ∧ a ≠ 0 then reg s a - 1 else reg s b :=
    if_congr (by simp) rfl rfl
  unfold loopForm at hx
  dsimp only at hx
  rw [hy] at hx
  refine ⟨fun h => transfersOrTraps_wordTarget hf (hx.trans (if_pos (bne_iff_ne.mpr h))) (linksWith_setReg _ _ s), fun h => sets_of (hx.trans (if_neg ?_))⟩
  simpa using h

end

theorem branchForm_of {op : BitVec 6} {i : Instr} {a b : SReg} {off : BitVec 14} {c c' : Bool}
    (he : encode i = encW (encI op a b off)) (hwf : i.wf = true) (h1 : OneWord op) (hc : c' = c)
    (hx : exec i s = branch c' (plainForm off s) s)
    (hext : Decodes (encI op a b off) i → ∀ hi : BitVec 26, exec (.ext hi (encI op a b off)) s = branch c' (extForm hi off s) s) :
    BranchForm op i a b off s c := by
  subst hc
  have hd := decodes_encI he hwf h1
  obtain ⟨htaken, hpassed⟩ := branch_follows (off := off) rfl hx
  exact ⟨hd, htaken, hpassed, fun hi => branch_follows (off := hi ++ off) rfl (hext hd hi)⟩

theorem ge_eq_not_slt (x y : Word64) : decide (y.toInt ≤ x.toInt) = !x.slt y := by
  rw [BitVec.slt_eq_decide, ← decide_not, decide_eq_decide, not_lt]

theorem geu_eq_not_ult (x y : Word64) : decide (y.toNat ≤ x.toNat) = !x.ult y := by
  rw [BitVec.ult_eq_decide, ← decide_not, decide_eq_decide, not_lt]

end

end Sys2Proof.Machine

open Sys2Proof Sys2Proof.Machine Sys2Proof.Claims

/-- Settles O4: each row's word reads back, and a branch follows its condition from its own word's address. -/
theorem branchesFollowTheirCondition : Obligations.BranchesFollowTheirCondition := by
  intro s a b off
  refine ⟨branchForm_of rfl rfl (by decide) rfl rfl ?_, branchForm_of rfl rfl (by decide) rfl rfl ?_,
    branchForm_of rfl rfl (by decide) BitVec.slt_eq_decide.symm rfl ?_, branchForm_of rfl rfl (by decide) (ge_eq_not_slt _ _) rfl ?_,
    branchForm_of rfl rfl (by decide) BitVec.ult_eq_decide.symm rfl ?_, branchForm_of rfl rfl (by decide) (geu_eq_not_ult _ _) rfl ?_⟩
  all_goals
    intro hd hi
    rw [exec_ext, execExt, hd 0]
    rfl

/-- Settles O5: `LOOP` by its comparison, and each jump or call by its target and its link, alone and under an `EXT`. -/
theorem loopsJumpsAndCalls : Obligations.LoopsJumpsAndCalls := by
  refine ⟨fun s a b off => ?_, fun s d a imm off => ?_⟩
  · have hd : Decodes (encI 0x16 a b off) (.loop a b off) := decodes_encI rfl rfl (by decide)
    obtain ⟨hgoes, hends⟩ := loop_counts (i := .loop a b off) (f := plainForm off s) (off := off) rfl rfl
    refine ⟨hd, hgoes, hends, fun hi => loop_counts (f := extForm hi off s) (off := hi ++ off) rfl ?_, decodes_of_encode rfl rfl (by decide)⟩
    change exec (.ext hi (encI 0x16 a b off)) s = _
    rw [exec_ext, execExt, hd 0]
  · have hj : Decodes (encJ 0x18 off) (.j off) := decodes_encJ rfl rfl (by decide)
    have hc : Decodes (encJ 0x19 off) (.call off) := decodes_encJ rfl rfl (by decide)
    have hr : Decodes (encI 0x1A 0 a imm) (.jr a imm) := decodes_encI rfl rfl (by decide)
    have hl : Decodes (encI 0x1B d a imm) (.callr d a imm) := decodes_encI rfl rfl (by decide)
    refine ⟨hj, transfersOrTraps_wordTarget (off := off) (f := plainForm off s) rfl rfl (linksWith_id s),
      hc, transfersOrTraps_wordTarget (off := off) (f := plainForm off s) rfl rfl (linksWith_setReg _ _ s),
      hr, transfersOrTraps_of rfl (linksWith_id s), hl, transfersOrTraps_of rfl (linksWith_setReg _ _ s), fun hi => ⟨?_, ?_, ?_, ?_⟩, fun r hr0 => ?_⟩
    · refine transfersOrTraps_wordTarget (off := hi ++ off) (f := extForm hi off s) rfl ?_ (linksWith_id s)
      change exec (.ext hi (encJ 0x18 off)) s = _
      rw [exec_ext, execExt, hj 0]
      rfl
    · have hafter : afterForm (extForm hi off s) = (self s).spc + 8 := BitVec.add_assoc _ 4 4
      rw [← hafter]
      refine transfersOrTraps_wordTarget (off := hi ++ off) (f := extForm hi off s) rfl ?_ (linksWith_setReg _ _ s)
      change exec (.ext hi (encJ 0x19 off)) s = _
      rw [exec_ext, execExt, hc 0]
      rfl
    · refine transfersOrTraps_of ?_ (linksWith_id s)
      change exec (.ext hi (encI 0x1A 0 a imm)) s = _
      rw [exec_ext, execExt, hr 0]
      rfl
    · have hafter : afterForm (extForm hi imm s) = (self s).spc + 8 := BitVec.add_assoc _ 4 4
      rw [← hafter]
      refine transfersOrTraps_of ?_ (linksWith_setReg _ _ s)
      change exec (.ext hi (encI 0x1B d a imm)) s = _
      rw [exec_ext, execExt, hl 0]
      rfl
    · refine illegal_of_parse (w := encI 0x1A r a imm) fun w1 i => ?_
      rw [parseScalar, fOp_encI, fD_encI]
      exact zeroOr_ne_ok (beq_eq_false_iff_ne.mpr hr0)
end

section
/-! SUPPORT. O6: a load of more bytes than its clean line lists. -/

open Sys2Proof.Claims

namespace Sys2Proof.Machine

set_option Elab.async false

/-- A group whose core's L1 holds the line of its first tensor byte with one byte alone, where a line has 128 (R282); `s5` names
that byte. -/
def shortLineS : State :=
  let s := Tests.withReg 5 0x4000000000000000 Tests.grpS
  s.setCore (0, 0) { s.core (0, 0) with clean := [⟨2 ^ 44 / 128, slotMaterial s 0 0, [0xFF], 0⟩] }

/-- The loads that a state's running stream has outstanding after an instruction. -/
def loadsAfter (i : Instr) (s : State) : List LoadOp := match exec i s with | .next t => (self t).loads | _ => []

theorem exec_ldsI16_shortLine : (loadsAfter (.ldsI16 4 5 0) shortLineS).map (·.dests) = [[.s 4 0xFFFFFFFFFFFFFFFF]] := by decide +kernel

theorem shortLine_place : ∃ p, place shortLineS (selfCtx shortLineS) {} 0x4000000000000000 2 = .ok p ∧
    (decide ((self shortLineS).ld < 63) && lineFull shortLineS (selfCtx shortLineS) p.loc &&
      decide (readOwn (folded p.loc shortLineS) (selfCtx shortLineS) p 2 = [0xFF])) = true := Tests.ok_of (by decide +kernel)

end Sys2Proof.Machine

open Sys2Proof Sys2Proof.Machine Sys2Proof.Claims

/-- Refutes O6: the statement takes every state, and one whose L1 holds a line with a single byte, 0xFF, hands that byte alone to a
load of 16 bits. The model extends the byte it was handed, to all ones; the statement extends a number of 16 bits, 0x00FF. -/
theorem not_loadsReadTheirBytes : ¬ Obligations.LoadsReadTheirBytes := by
  intro h
  obtain ⟨p, hp, hcond⟩ := shortLine_place
  simp only [Bool.and_eq_true, decide_eq_true_eq] at hcond
  obtain ⟨⟨hld, hfull⟩, hbytes⟩ := hcond
  obtain ⟨-, -, hI16, -⟩ := h shortLineS 4 5 0
  have hea : reg shortLineS 5 + (0 : BitVec 14).signExtend 64 = 0x4000000000000000 := by decide +kernel
  obtain ⟨t, ht, hissued⟩ := hI16.2.1.1 p (hea ▸ hp) hld hfull
  obtain ⟨op, hop, hdests⟩ := hissued.loads
  have hloads : loadsAfter (.ldsI16 4 5 0) shortLineS = (self t).loads := by rw [loadsAfter, ht]
  have hmodel := exec_ldsI16_shortLine
  rw [hloads, hop, List.map_append, List.map_singleton, hdests, hbytes] at hmodel
  have hlast := congrArg List.getLast? hmodel
  rw [List.getLast?_concat] at hlast
  exact absurd hlast (by decide)
end

section
/-! SUPPORT. O7, O10, O53: what memory reads as after a write (R21, R297, R298). -/

open Sys2Proof.Claims

namespace Sys2Proof.Machine

set_option Elab.async false

/-! Byte lists in memories. -/

theorem Cells.read_write {m : Cells} (h : m.wf = true) (a k : Nat) (v : Byte) : (m.write a v).read k = if k = a then v else m.read k := by
  split
  next hk => rw [hk, Cells.read_write_self a v h]
  next hk => exact Cells.read_write_other v h hk

theorem Cells.read_writeN {m : Cells} (h : m.wf = true) (a k : Nat) (bs : List Byte) :
    (m.writeN a bs).read k = if a ≤ k ∧ k < a + bs.length then bs.getD (k - a) 0 else m.read k := by
  induction bs generalizing m a with
  | nil => rw [if_neg (by simp only [List.length_nil]; omega)]; rfl
  | cons b bs ih =>
    rw [Cells.writeN, ih (Cells.wf_write a b h), Cells.read_write h, List.length_cons]
    by_cases hk : k = a
    · rw [if_neg (by omega), if_pos hk, if_pos (by omega), hk, Nat.sub_self]
      rfl
    · rw [if_neg hk]
      by_cases hin : a + 1 ≤ k ∧ k < a + 1 + bs.length
      · rw [if_pos hin, if_pos (by omega), show k - a = k - (a + 1) + 1 by omega, List.getD_cons_succ]
      · rw [if_neg hin, if_neg (by omega)]

theorem readRange_getD (s : State) (mat : Under) (k n i : Nat) (hi : i < n) : (readRange s mat k n).getD i 0 = readByte s mat (k + i) := by
  induction n generalizing k i with
  | zero => exact absurd hi (Nat.not_lt_zero i)
  | succ n ih =>
    cases i with
    | zero => rfl
    | succ i =>
      rw [readRange, List.getD_cons_succ, ih _ _ (by omega)]
      congr 1
      omega

theorem readN_congr {m m' : Cells} {a n : Nat} (h : ∀ k, a ≤ k → k < a + n → m'.read k = m.read k) : m'.readN a n = m.readN a n := by
  induction n generalizing a with
  | zero => rfl
  | succ n ih => rw [Cells.readN, Cells.readN, h a le_rfl (by omega), ih fun k h1 h2 => h k (by omega) (by omega)]

/-! A line and its key. -/

section
variable {s t : State} {mat : Under} {line k : Nat}

theorem tweakOf_congr (h : t.pkgs = s.pkgs) (line : Nat) : tweakOf t line = tweakOf s line := by
  unfold tweakOf State.pkg
  rw [h]

theorem lineKey_congr (h : t.pkgs = s.pkgs) (hl : Table.find? t.lineKeys line = Table.find? s.lineKeys line) : lineKey t line = lineKey s line := by
  unfold lineKey State.pkg
  rw [hl, tweakOf_congr h, h]

/-- A byte reads from its own line and that line's key alone. -/
theorem readByte_congr_line (h : t.pkgs = s.pkgs) (hl : Table.find? t.lineKeys (k / 128) = Table.find? s.lineKeys (k / 128))
    (hm : ∀ j, j / 128 = k / 128 → t.mem.read j = s.mem.read j) (mat : Under) : readByte t mat k = readByte s mat k := by
  have hn : t.mem.readN (k / 16 * 16) 16 = s.mem.readN (k / 16 * 16) 16 := readN_congr fun j h1 h2 => hm j (by omega)
  unfold readByte sameKey State.pkg
  rw [lineKey_congr h hl, hm k rfl, hn, tweakOf_congr h, h]

/-- A line under a key reads, under that key, as its plaintext. -/
theorem readByte_of_heldUnder (h : heldUnder s mat (k / 128) = true) : readByte s mat k = s.mem.read k := by
  unfold heldUnder at h
  unfold readByte
  cases hl : lineKey s (k / 128) with
  | none => rfl
  | some l =>
    rw [hl] at h
    simp only [Bool.and_eq_true, beq_iff_eq] at h
    obtain ⟨hmat, hepoch⟩ := h
    exact if_pos (by simp [sameKey, hmat, hepoch])

end

/-! A line brought under a key (R298). -/

section
variable (s : State) (mat : Under) (line : Nat)

theorem adoptLine_pkgs : (adoptLine mat line s).pkgs = s.pkgs := by
  unfold adoptLine
  split <;> rfl

theorem find?_lineKeys_adoptLine_other {n : Nat} (h : n ≠ line) : Table.find? (adoptLine mat line s).lineKeys n = Table.find? s.lineKeys n := by
  unfold adoptLine
  split
  · rfl
  · exact Table.find?_put_other _ _ h

variable {s} (h : s.mem.wf = true)
include h

theorem mem_adoptLine_other {k : Nat} (hk : k / 128 ≠ line) : (adoptLine mat line s).mem.read k = s.mem.read k := by
  rw [adoptLine_mem]
  split
  · rfl
  · rw [Cells.read_writeN h, if_neg (by rw [readRange_length]; omega)]

omit h in
theorem heldUnder_adoptLine : heldUnder (adoptLine mat line s) mat line = true := by
  unfold adoptLine
  split
  · assumption
  · simp [heldUnder, lineKey, State.pkg]

/-- A line brought under a key reads under it as it did. -/
theorem readByte_adoptLine_self {k : Nat} (hk : k / 128 = line) : readByte (adoptLine mat line s) mat k = readByte s mat k := by
  rw [readByte_of_heldUnder (hk ▸ heldUnder_adoptLine mat line), adoptLine_mem]
  split
  next hm => rw [readByte_of_heldUnder (hk ▸ hm)]
  next hm =>
    have hin : line * 128 ≤ k ∧ k < line * 128 + 128 := by omega
    rw [Cells.read_writeN h, readRange_length, if_pos hin, readRange_getD _ _ _ _ _ (by omega)]
    congr 1
    omega

theorem readByte_adoptLine_other (m' : Under) {k : Nat} (hk : k / 128 ≠ line) : readByte (adoptLine mat line s) m' k = readByte s m' k :=
  readByte_congr_line (adoptLine_pkgs s mat line) (find?_lineKeys_adoptLine_other s mat line hk) (fun j hj => mem_adoptLine_other mat line h (by omega)) m'

end

/-! One byte written (R298, R387). -/

section
variable {s : State} (mat : Under) (k : Nat) (v : Byte)

theorem writeByte_of_held (hg : goHeld s k = true) : writeByte mat k v s = s := if_pos hg

theorem writeByte_of_free (hg : goHeld s k = false) :
    writeByte mat k v s = { adoptLine mat (k / 128) s with mem := (adoptLine mat (k / 128) s).mem.write k v } := if_neg (by simp [hg])

theorem writeByte_pkgs : (writeByte mat k v s).pkgs = s.pkgs := (onlyMemory_writeByte mat k v s).pkgs

theorem goHeld_congr {t : State} (h : t.pkgs = s.pkgs) : goHeld t k = goHeld s k := by
  unfold goHeld State.pkg
  rw [h]

theorem heldUnder_writeByte (hg : goHeld s k = false) : heldUnder (writeByte mat k v s) mat (k / 128) = true := by
  rw [writeByte_of_free mat k v hg]
  exact heldUnder_adoptLine mat (k / 128)

variable (h : s.mem.wf = true)
include h

theorem readByte_writeByte_self : readByte (writeByte mat k v s) mat k = if goHeld s k = true then readByte s mat k else v := by
  split
  next hg => rw [writeByte_of_held mat k v hg]
  next hg =>
    rw [readByte_of_heldUnder (heldUnder_writeByte mat k v (by simpa using hg)), writeByte_of_free mat k v (by simpa using hg)]
    exact (Cells.read_write (adoptLine_memWf mat _ s h) k k v).trans (if_pos rfl)

theorem readByte_writeByte_line (m' : Under) {j : Nat} (hj : j / 128 ≠ k / 128) : readByte (writeByte mat k v s) m' j = readByte s m' j := by
  cases hg : goHeld s k with
  | true => rw [writeByte_of_held mat k v hg]
  | false =>
    rw [← readByte_adoptLine_other mat (k / 128) h m' hj, writeByte_of_free mat k v hg]
    have hu := adoptLine_memWf mat (k / 128) s h
    generalize adoptLine mat (k / 128) s = u at hu ⊢
    exact readByte_congr_line (s := u) (t := { u with mem := u.mem.write k v }) rfl rfl
      (fun i hi => (Cells.read_write hu k i v).trans (if_neg fun e => hj (e ▸ hi).symm)) m'

theorem readByte_writeByte_other {j : Nat} (hj : j ≠ k) : readByte (writeByte mat k v s) mat j = readByte s mat j := by
  by_cases hl : j / 128 = k / 128
  · cases hg : goHeld s k with
    | true => rw [writeByte_of_held mat k v hg]
    | false =>
      have hheld := heldUnder_adoptLine (s := s) mat (k / 128)
      rw [readByte_of_heldUnder (hl ▸ heldUnder_writeByte mat k v hg), writeByte_of_free mat k v hg, ← readByte_adoptLine_self mat (k / 128) h hl,
        readByte_of_heldUnder (hl ▸ hheld)]
      exact (Cells.read_write (adoptLine_memWf mat _ s h) k j v).trans (if_neg hj)
  · exact readByte_writeByte_line mat k v h mat hl

end

/-! Bytes written in order. -/

section
variable (mat : Under)

theorem writeRange_pkgs (s : State) (bs : List Byte) (k : Nat) : (writeRange mat k bs s).pkgs = s.pkgs := (onlyMemory_writeRange mat bs k s).pkgs

theorem readByte_writeRange_other (bs : List Byte) {s : State} (k : Nat) {j : Nat} (h : s.mem.wf = true) (hj : j < k ∨ k + bs.length ≤ j) :
    readByte (writeRange mat k bs s) mat j = readByte s mat j := by
  induction bs generalizing s k with
  | nil => rfl
  | cons b bs ih =>
    rw [List.length_cons] at hj
    rw [writeRange, ih (k + 1) (writeByte_memWf mat k b s h) (by omega), readByte_writeByte_other mat k b h (by omega)]

theorem readByte_writeRange_line (bs : List Byte) {s : State} (k : Nat) (m' : Under) {j : Nat} (h : s.mem.wf = true)
    (hj : ∀ i, i < bs.length → j / 128 ≠ (k + i) / 128) : readByte (writeRange mat k bs s) m' j = readByte s m' j := by
  induction bs generalizing s k with
  | nil => rfl
  | cons b bs ih =>
    rw [writeRange, ih (k + 1) (writeByte_memWf mat k b s h) fun i hi => by
      have := hj (i + 1) (by simpa using hi)
      rwa [show k + 1 + i = k + (i + 1) by omega]]
    exact readByte_writeByte_line mat k b h m' (hj 0 (by simp))

theorem readByte_writeRange (bs : List Byte) {s : State} (k i : Nat) (h : s.mem.wf = true) (hi : i < bs.length) :
    readByte (writeRange mat k bs s) mat (k + i) = if goHeld s (k + i) = true then readByte s mat (k + i) else bs.getD i 0 := by
  induction bs generalizing s k i with
  | nil => exact absurd hi (Nat.not_lt_zero i)
  | cons b bs ih =>
    have hw := writeByte_memWf mat k b s h
    rw [writeRange]
    cases i with
    | zero => rw [readByte_writeRange_other mat bs (k + 1) hw (by omega), Nat.add_zero, readByte_writeByte_self mat k b h]; rfl
    | succ i =>
      rw [show k + (i + 1) = k + 1 + i by omega, ih (k + 1) i hw (by simpa using hi), goHeld_congr _ (writeByte_pkgs mat k b),
        readByte_writeByte_other mat k b h (by omega), List.getD_cons_succ]

end

end Sys2Proof.Machine
end

section
/-! SUPPORT. O7: an access lies within one line of its memory (R26, R286 to R288). -/

open Sys2Proof.Claims

namespace Sys2Proof.Machine

set_option Elab.async false

/-! What a chain of checks has answered (R344). -/

section
variable {ε α β : Type}

theorem bind_eq_ok_iff {x : Except ε α} {f : α → Except ε β} {b : β} : (x >>= f) = .ok b ↔ ∃ a, x = .ok a ∧ f a = .ok b := by
  cases x with
  | error e => exact ⟨nofun, nofun⟩
  | ok a => exact ⟨fun h => ⟨a, rfl, h⟩, fun ⟨_, ha, hb⟩ => Except.ok.inj ha ▸ hb⟩

theorem raiseIf_eq_ok_iff {c : Bool} {cls : TrapClass} {detail : Nat} {addr : Word64} {u : Unit} : raiseIf c cls detail addr = .ok u ↔ c = false := by
  cases c
  · exact ⟨fun _ => rfl, fun _ => rfl⟩
  · exact ⟨nofun, nofun⟩

end

/-! Translation keeps an address's byte of its line. -/

section
variable {s : State} {c : Ctx} {u : Use} {va : Word64} {n : Nat}

theorem spaceOf_control_off {o : Nat} (h : spaceOf va = some (.control o)) : o % 128 = va.toNat % 128 := by
  unfold spaceOf at h
  split at h
  · split at h
    · cases h
      rw [BitVec.extractLsb'_toNat, Nat.shiftRight_zero, Nat.mod_mod_of_dvd _ (by decide)]
    · cases h
  · cases h
  · split at h <;> cases h
  · cases h

theorem decodeVa_ok {sp : Space} (h : decodeVa c va n = .ok sp) : spaceOf va = some sp ∧ va.toNat % 128 + n ≤ 128 := by
  unfold decodeVa at h
  cases hs : spaceOf va with
  | none => rw [hs] at h; cases h
  | some x =>
    rw [hs] at h
    obtain ⟨_, hspan, h⟩ := bind_eq_ok_iff.mp h
    refine ⟨congrArg some ?_, not_lt.mp (of_decide_eq_false (raiseIf_eq_ok_iff.mp hspan))⟩
    cases x with
    | control off => exact Except.ok.inj h
    | tensor tier p off =>
      obtain ⟨_, -, h⟩ := bind_eq_ok_iff.mp h
      exact Except.ok.inj h
    | scratch off =>
      obtain ⟨_, -, h⟩ := bind_eq_ok_iff.mp h
      exact Except.ok.inj h

theorem walkFrom_leaf {pkg asid : Nat} {control : Bool} {ls : List Level} {table : Nat} {p : Page} (h : walkFrom s pkg asid va control ls table = .ok p) :
    ∃ lv ∈ ls, lv.leaf = some p.pb := by
  induction ls generalizing table with
  | nil => exact nomatch h
  | cons lv r ih =>
    rw [walkFrom] at h
    split at h
    · cases h
    · split at h
      · cases h
      · split at h
        · split at h
          · cases h
          next pb hpb =>
            split at h
            · cases h
            · cases h
              exact ⟨lv, List.mem_cons_self, hpb⟩
        · split at h
          · cases h
          · split at h
            · cases h
            · obtain ⟨x, hx, hpb⟩ := ih h
              exact ⟨x, List.mem_cons_of_mem _ hx, hpb⟩

/-- The pages of every level hold whole lines (R289). -/
theorem walk_pb {control : Bool} {p : Page} (h : walk s c va control = .ok p) : 7 ≤ p.pb := by
  obtain ⟨lv, hlv, hpb⟩ := walkFrom_leaf h
  have hall : ∀ lv ∈ levelsOf va control, lv.leaf.all (decide <| 7 ≤ ·) = true := by
    cases control <;> simp [levelsOf]
  simpa [hpb] using hall lv hlv

/-- An offset in a page of whole lines is an address's own byte of its line. -/
theorem pageOffset_mod {pb : Nat} (h : 7 ≤ pb) (x : Nat) : x % 2 ^ pb % 128 = x % 128 :=
  Nat.mod_mod_of_dvd x (pow_dvd_pow 2 h)

theorem leafPa_mod (w : Word64) : leafPa w % 128 = 0 := by
  unfold leafPa
  omega

theorem physKey_mod (q tgt off : Nat) : physKey q tgt off % 128 = off % 128 := by
  unfold physKey
  omega

theorem annexKey_mod (k : Nat) : annexKey k % 128 = k % 128 := by
  rw [annexKey, physKey_mod, keyOff, ctlSize]
  omega

theorem homeKey_mod {q off k : Nat} (h : homeKey s q off = .ok k) : k % 128 = off % 128 := by
  unfold homeKey at h
  split at h
  · cases h
    exact physKey_mod _ _ _
  · split at h
    · cases h
      rw [annexKey_mod, physKey_mod]
    · cases h

theorem interleave_mod (units : List Nat) {size : Nat} (hsize : size % 128 = 0) (pa : Nat) : interleave units size pa % 128 = pa % 128 := by
  obtain ⟨q, hq⟩ : 128 ∣ units.getD (pa / 4096 % units.length) 0 * size := (Nat.dvd_of_mod_eq_zero hsize).mul_left _
  unfold interleave
  dsimp only
  rw [hq]
  omega

theorem paKey_mod (q tgt pa : Nat) : paKey s q tgt pa % 128 = pa % 128 := by
  rw [paKey, physKey_mod, placeOff]
  split
  · exact interleave_mod _ (by decide) _
  · split
    · exact interleave_mod _ (by decide) _
    · rfl

theorem translate_mod {sp : Space} {p : Place} {k : Nat} (hsp : spaceOf va = some sp) (h : translate s c u va sp = .ok p) (hp : p.loc = .phys k) :
    k % 128 = va.toNat % 128 := by
  have ofPage {pb pa : Nat} (hpb : 7 ≤ pb) (w : Word64) (hpa : pa % 128 = (leafPa w + va.toNat % 2 ^ pb) % 128) : pa % 128 = va.toNat % 128 := by
    rw [hpa, Nat.add_mod, leafPa_mod, pageOffset_mod hpb, Nat.zero_add, Nat.mod_mod]
  unfold translate at h
  cases sp with
  | scratch off =>
    obtain ⟨_, -, h⟩ := bind_eq_ok_iff.mp h
    obtain ⟨_, -, h⟩ := bind_eq_ok_iff.mp h
    cases h
    cases hp
  | control off =>
    dsimp only at h
    split at h
    · obtain ⟨_, -, h⟩ := bind_eq_ok_iff.mp h
      obtain ⟨_, -, h⟩ := bind_eq_ok_iff.mp h
      obtain ⟨_, -, h⟩ := bind_eq_ok_iff.mp h
      cases h
      cases hp
      rw [physKey_mod, spaceOf_control_off hsp]
    · split at h
      · cases h
      next pg hw =>
        unfold ctlPagePlace at h
        dsimp only at h
        split at h
        · cases h
        · obtain ⟨k', hk, h⟩ := bind_eq_ok_iff.mp h
          cases h
          cases hp
          exact ofPage (walk_pb hw) pg.leaf ((homeKey_mod hk).trans (Nat.mod_mod_of_dvd _ (by decide)))
  | tensor tier q off =>
    dsimp only at h
    split at h
    · cases h
    · split at h
      · cases h
      next pg hw =>
        split at h
        · cases h
        · cases h
          cases hp
          exact ofPage (walk_pb hw) pg.leaf (paKey_mod _ _ _)

/-- An access ends in the line where it begins. -/
theorem place_line {p : Place} {k : Nat} (h : place s c u va n = .ok p) (hp : p.loc = .phys k) : k % 128 + n ≤ 128 := by
  obtain ⟨sp, hd, h⟩ := bind_eq_ok_iff.mp h
  obtain ⟨q, ht, h⟩ := bind_eq_ok_iff.mp h
  obtain ⟨_, -, h⟩ := bind_eq_ok_iff.mp h
  cases h
  obtain ⟨hsp, hspan⟩ := decodeVa_ok hd
  rwa [translate_mod hsp ht hp]

end

end Sys2Proof.Machine
end

section
/-! SUPPORT. O7, O53: the byte writes of one access (R99, R158, R298). -/

open Sys2Proof.Claims

namespace Sys2Proof.Machine

set_option Elab.async false

/-! The writes of whole bytes from a location on. -/

theorem mergeByte_all (v old : Byte) : mergeByte 0xFF v old = v := by
  rw [mergeByte, show (0xFF : Byte) = BitVec.allOnes 8 from rfl, BitVec.and_allOnes, BitVec.not_allOnes, BitVec.and_zero, BitVec.or_zero]

theorem leBytes_getD (n x i : Nat) (h : i < n) : (leBytes n x).getD i 0 = BitVec.ofNat 8 (x / 2 ^ (8 * i)) := by
  induction n generalizing x i with
  | zero => exact absurd h (Nat.not_lt_zero i)
  | succ n ih =>
    cases i with
    | zero => simp [leBytes]
    | succ i => rw [leBytes, List.getD_cons_succ, ih _ _ (by omega), Nat.div_div_eq_div_mul, Nat.mul_succ, Nat.add_comm, Nat.pow_add]

theorem leBytes_toNat_getD (n : Nat) (v : Word64) (i : Nat) (h : i < n) : (leBytes n v.toNat).getD i 0 = v.extractLsb' (8 * i) 8 := by
  refine (leBytes_getD n v.toNat i h).trans (BitVec.eq_of_toNat_eq ?_)
  rw [BitVec.toNat_ofNat, BitVec.extractLsb'_toNat, Nat.shiftRight_eq_div_pow]

section
variable (mat : Under)

theorem putKeys_putsAt_phys (k : Nat) (bs : List Byte) : putKeys (putsAt mat (.phys k) bs) = (List.range bs.length).map (k + ·) := by
  induction bs generalizing k with
  | nil => rfl
  | cons b bs ih =>
    rw [List.length_cons, List.range_succ_eq_map, List.map_cons, List.map_map]
    refine congrArg (k :: ·) ((ih (k + 1)).trans (List.map_congr_left fun i _ => ?_))
    simp only [Function.comp_apply]
    omega

theorem putKeys_putsAt_scr (o : Nat) (bs : List Byte) : putKeys (putsAt mat (.scr o) bs) = [] := by
  induction bs generalizing o with
  | nil => rfl
  | cons b bs ih => exact ih (o + 1)

/-- The keys that an access writes are those of as many zeros. -/
theorem putKeys_putsAt_congr (l : Loc) {bs bs' : List Byte} (h : bs.length = bs'.length) : putKeys (putsAt mat l bs) = putKeys (putsAt mat l bs') := by
  cases l with
  | phys k => rw [putKeys_putsAt_phys, putKeys_putsAt_phys, h]
  | scr o => rw [putKeys_putsAt_scr, putKeys_putsAt_scr]

theorem foldedFor_eq (p : Place) (bs : List Byte) (s : State) : foldKeys (putKeys (putsAt p.mat p.loc bs)) s = foldedFor p bs.length s := by
  rw [foldedFor, putKeys_putsAt_congr p.mat p.loc (List.length_replicate (n := bs.length) (a := 0)).symm]

theorem seqAll_applyPut_phys (blk : Option Nat) (k : Nat) (bs : List Byte) (s : State) :
    seqAll (applyPut blk) (putsAt mat (.phys k) bs) s = writeRange mat k bs s := by
  induction bs generalizing k s with
  | nil => rfl
  | cons b bs ih =>
    have hb : applyPut blk ⟨.phys k, mat, 0xFF, b⟩ s = writeByte mat k b s := by simp only [applyPut, mergeByte_all]
    rw [writeRange, ← ih, putsAt, seqAll, hb]
    rfl

/-- Bytes written to the scratchpad of a placed block. -/
theorem seqAll_applyPut_scr (b : Nat) (o : Nat) (bs : List Byte) {s : State} {x : Block} (h : Table.find? s.blocks b = some x) (hne : bs ≠ []) :
    seqAll (applyPut (some b)) (putsAt mat (.scr o) bs) s = { s with blocks := Table.put s.blocks b { x with scratch := x.scratch.writeN o bs } } := by
  have one (v : Byte) (o : Nat) {s : State} {x : Block} (h : Table.find? s.blocks b = some x) :
      applyPut (some b) ⟨.scr o, mat, 0xFF, v⟩ s = { s with blocks := Table.put s.blocks b { x with scratch := x.scratch.write o v } } := by
    simp only [applyPut, mergeByte_all]
    exact mapBlock_of_find h _
  induction bs generalizing s o x with
  | nil => exact absurd rfl hne
  | cons v bs ih =>
    rw [putsAt, seqAll, one v o h]
    cases bs with
    | nil => rfl
    | cons v' bs =>
      rw [locAdd, ih (o + 1) (Table.find?_put_self _ _ _) (by simp), Table.put_put]
      rfl

end

/-! What the writes of an access leave (R158, R295, R302). -/

/-- Only the parts that byte writes reach differ: bytes of memory and their keys, pools of blocks, earlier values, errors, the
commits that are settled. -/
def OnlyBytes (s t : State) : Prop :=
  t = { s with blocks := t.blocks, past := t.past, mem := t.mem, lineKeys := t.lineKeys, early := t.early, stale := t.stale, bad := t.bad }

theorem OnlyBytes.refl (s : State) : OnlyBytes s s := rfl

theorem OnlyBytes.trans {s u t : State} (h : OnlyBytes s u) (k : OnlyBytes u t) : OnlyBytes s t := by
  unfold OnlyBytes at h k ⊢
  rw [h] at k
  exact k

theorem OnlyBytes.seqAll {α : Type} {f : α → State → State} (hf : ∀ a s, OnlyBytes s (f a s)) (l : List α) (s : State) : OnlyBytes s (seqAll f l s) :=
  seqAll_keeps (OnlyBytes s) f (fun a u h => h.trans (hf a u)) l s (OnlyBytes.refl s)

theorem onlyBytes_withMem (m : Cells) (s : State) : OnlyBytes s { s with mem := m } := rfl

theorem onlyBytes_withLine (m : Cells) (l : Table Nat LineKey) (s : State) : OnlyBytes s { s with mem := m, lineKeys := l } := rfl

theorem onlyBytes_withNotes (e : List EarlyWord) (l : List Stale) (b : List BadWord) (s : State) : OnlyBytes s { s with early := e, stale := l, bad := b } := rfl

theorem onlyBytes_mapBlock (b : Nat) (f : Block → Block) (s : State) : OnlyBytes s (mapBlock b f s) := rfl

theorem onlyBytes_adoptLine (mat : Under) (line : Nat) (s : State) : OnlyBytes s (adoptLine mat line s) := by
  unfold adoptLine
  split
  · exact .refl s
  · exact onlyBytes_withLine _ _ s

theorem onlyBytes_writeByte (mat : Under) (k : Nat) (v : Byte) (s : State) : OnlyBytes s (writeByte mat k v s) := by
  unfold writeByte
  split
  · exact .refl s
  · exact (onlyBytes_adoptLine mat (k / 128) s).trans (onlyBytes_withMem _ _)

theorem onlyBytes_applyPut (blk : Option Nat) (p : Put) (s : State) : OnlyBytes s (applyPut blk p s) := by
  unfold applyPut
  split
  · exact onlyBytes_writeByte _ _ _ _
  · split
    · exact onlyBytes_mapBlock _ _ s
    · exact .refl s

theorem noteStale_eq (b : State) (w : Nat) (s : State) : noteStale b w s = { s with stale := (noteStale b w s).stale } := by
  unfold noteStale
  split <;> rfl

theorem seqAll_noteStale_eq (b : State) (ws : List Nat) (s : State) : ∃ stale, seqAll (noteStale b) ws s = { s with stale := stale } :=
  seqAll_keeps (fun t => ∃ stale, t = { s with stale := stale }) _ (fun w t ⟨l, h⟩ => by
    subst h
    exact ⟨_, noteStale_eq b w _⟩) ws s ⟨s.stale, rfl⟩

/-- After the folds an access writes its bytes; the rest is bookkeeping. -/
theorem applyPuts_eq (blk : Option Nat) (ps : List Put) (s : State) : ∃ early stale bad, applyPuts blk ps s =
    { seqAll (applyPut blk) ps (foldKeys (putKeys ps) s) with early := early, stale := stale, bad := bad } := by
  unfold applyPuts
  dsimp only
  obtain ⟨stale, h⟩ := seqAll_noteStale_eq (foldKeys (putKeys ps) s) (wordsOf (putKeys ps)) (seqAll (applyPut blk) ps (foldKeys (putKeys ps) s))
  rw [h]
  exact ⟨_, _, _, rfl⟩

theorem onlyBytes_applyPuts (blk : Option Nat) (ps : List Put) (s : State) : OnlyBytes (foldKeys (putKeys ps) s) (applyPuts blk ps s) := by
  obtain ⟨early, stale, bad, h⟩ := applyPuts_eq blk ps s
  rw [h]
  exact (OnlyBytes.seqAll (onlyBytes_applyPut blk) ps _).trans (onlyBytes_withNotes _ _ _ _)

/-- No more than the scratchpad of a block differs, of the one named. -/
def ScratchOnly (blk : Option Nat) (s t : State) : Prop :=
  ∀ b, t.block b = { s.block b with scratch := (t.block b).scratch } ∧ (blk ≠ some b → t.block b = s.block b)

theorem ScratchOnly.of_blocks {blk : Option Nat} {s t : State} (h : ∀ b, t.block b = s.block b) : ScratchOnly blk s t := fun b => by
  rw [h b]
  exact ⟨rfl, fun _ => rfl⟩

theorem ScratchOnly.trans {blk : Option Nat} {s u t : State} (h : ScratchOnly blk s u) (k : ScratchOnly blk u t) : ScratchOnly blk s t := fun b => by
  obtain ⟨hu, hu'⟩ := h b
  obtain ⟨ht, ht'⟩ := k b
  refine ⟨?_, fun hb => (ht' hb).trans (hu' hb)⟩
  rw [hu] at ht
  exact ht

theorem scratchOnly_applyPut (blk : Option Nat) (p : Put) (s : State) : ScratchOnly blk s (applyPut blk p s) := by
  unfold applyPut
  split
  next k _ =>
    refine .of_blocks fun b => ?_
    rw [onlyMemory_writeByte p.mat k _ s]
    rfl
  · split
    next b =>
      intro b'
      refine ⟨?_, fun hb => block_mapBlock_other s _ fun e => hb (e ▸ rfl)⟩
      obtain h | h := block_mapBlock s b b' _
      · rw [h]
      · rw [h]
    · exact .of_blocks fun _ => rfl

theorem scratchOnly_seqAll (blk : Option Nat) (ps : List Put) (s : State) : ScratchOnly blk s (seqAll (applyPut blk) ps s) :=
  seqAll_keeps (ScratchOnly blk s) _ (fun p u h => h.trans (scratchOnly_applyPut blk p u)) ps s (.of_blocks fun _ => rfl)

theorem scratchOnly_applyPuts (blk : Option Nat) (ps : List Put) (s : State) : ScratchOnly blk (foldKeys (putKeys ps) s) (applyPuts blk ps s) := by
  obtain ⟨early, stale, bad, h⟩ := applyPuts_eq blk ps s
  rw [h]
  exact (scratchOnly_seqAll blk ps _).trans (.of_blocks fun _ => rfl)

section
variable {blk : Option Nat} {p : Place} {n : Nat} {v : Word64} {s t u : State}

/-- What `Stored` says of a state it says of every state with its bytes. -/
theorem stored_of_bytes (h : Stored blk p n v s t) (hm : u.mem = t.mem) (hl : u.lineKeys = t.lineKeys) (hp : u.pkgs = t.pkgs)
    (hb : ∀ b, (u.block b).scratch = (t.block b).scratch ∧ (u.block b).acc = (t.block b).acc) : Stored blk p n v s u := by
  have hr := readByte_congr hm hl hp
  obtain ⟨written, others, lines, scratch, pools, acc⟩ := h
  exact ⟨fun k hk i hi => (hr _ _).trans (written k hk i hi), fun j hj => (hr _ _).trans (others j hj), fun m j hj => (hr _ _).trans (lines m j hj),
    fun b o ho hblk hf j => (hb b).1 ▸ scratch b o ho hblk hf j, fun b j hb' => (hb b).1 ▸ pools b j hb', fun b j => (hb b).2 ▸ acc b j⟩

/-- The low bytes of a value written at a place of memory. -/
theorem stored_writeRange {k : Nat} (hp : p.loc = .phys k) (h : s.mem.wf = true) : Stored blk p n v s (writeRange p.mat k (leBytes n v.toNat) s) := by
  have hblk : ∀ b, (writeRange p.mat k (leBytes n v.toNat) s).block b = s.block b := fun b => by
    rw [onlyMemory_writeRange p.mat (leBytes n v.toNat) k s]
    rfl
  refine ⟨fun k' hk i hi => ?_, fun j hj => ?_, fun m j hj => ?_, fun b o ho => ?_, fun b j _ => by rw [hblk], fun b j => by rw [hblk]⟩
  · cases hp.symm.trans hk
    rw [readByte_writeRange _ _ _ _ h (by rwa [leBytes_length]), leBytes_toNat_getD n v i hi]
  · exact readByte_writeRange_other _ _ _ h (by rw [leBytes_length]; exact hj k hp)
  · exact readByte_writeRange_line _ _ _ _ h fun i hi => hj k i hp (by rwa [leBytes_length] at hi)
  · cases hp.symm.trans ho

theorem onlyScratch_seqAll_scr (mat : Under) (o : Nat) (bs : List Byte) (s : State) :
    seqAll (applyPut blk) (putsAt mat (.scr o) bs) s =
      { s with blocks := (seqAll (applyPut blk) (putsAt mat (.scr o) bs) s).blocks, past := (seqAll (applyPut blk) (putsAt mat (.scr o) bs) s).past } := by
  induction bs generalizing o s with
  | nil => rfl
  | cons b bs ih =>
    rw [putsAt, seqAll, locAdd, ih]
    cases blk <;> rfl

/-- The low bytes of a value written at a place of a block's scratchpad. -/
theorem stored_scratch {o : Nat} (hp : p.loc = .scr o) (hn : 0 < n) (hc : PoolsWf s.blocks) :
    Stored blk p n v s (seqAll (applyPut blk) (putsAt p.mat (.scr o) (leBytes n v.toNat)) s) := by
  have hrest := onlyScratch_seqAll_scr (blk := blk) p.mat o (leBytes n v.toNat) s
  have hr := readByte_congr (s := s) (t := seqAll (applyPut blk) (putsAt p.mat (.scr o) (leBytes n v.toNat)) s) (by rw [hrest]) (by rw [hrest]) (by rw [hrest])
  have hblk := scratchOnly_seqAll blk (putsAt p.mat (.scr o) (leBytes n v.toNat)) s
  refine ⟨fun k hk => ?_, fun j _ => hr _ _, fun m j _ => hr _ _, fun b o' ho hb hf j => ?_, fun b j hb => by rw [(hblk b).2 (hb o hp)],
    fun b j => by rw [(hblk b).1]⟩
  · cases hp.symm.trans hk
  · cases hp.symm.trans ho
    subst hb
    obtain ⟨x, hx⟩ := Option.isSome_iff_exists.mp hf
    have hne : leBytes n v.toNat ≠ [] := List.ne_nil_of_length_pos (by rwa [leBytes_length])
    rw [seqAll_applyPut_scr p.mat b o _ hx hne, block_put_self, block_of_find hx]
    obtain ⟨_, hmem⟩ := Table.mem_of_find? hx
    refine (Cells.read_writeN (hc _ hmem).1 o j _).trans ?_
    rw [leBytes_length]
    exact if_ctx_congr Iff.rfl (fun hj => leBytes_toNat_getD n v (j - o) (by omega)) fun _ => rfl

/-- The low bytes of a value written by an access. -/
theorem stored_applyPuts (hc : Canonical (foldedFor p n s)) (hn : 0 < n) :
    Stored blk p n v (foldedFor p n s) (applyPuts blk (putsAt p.mat p.loc (leBytes n v.toNat)) s) := by
  obtain ⟨early, stale, bad, h⟩ := applyPuts_eq blk (putsAt p.mat p.loc (leBytes n v.toNat)) s
  rw [foldedFor_eq, leBytes_length] at h
  have hw : Stored blk p n v (foldedFor p n s) (seqAll (applyPut blk) (putsAt p.mat p.loc (leBytes n v.toNat)) (foldedFor p n s)) := by
    cases hl : p.loc with
    | phys k =>
      rw [seqAll_applyPut_phys]
      exact stored_writeRange hl hc.mem
    | scr o => exact stored_scratch hl hn hc.blocks
  rw [h]
  exact stored_of_bytes hw rfl rfl rfl fun b => ⟨rfl, rfl⟩

end

end Sys2Proof.Machine
end

section
/-! SUPPORT. O7: scalar stores, at once and into the quantum buffer (R99, R101, R103, R310, R311). -/

open Sys2Proof.Claims

namespace Sys2Proof.Machine

set_option Elab.async false

/-! The count of a store (R18, R311). -/

/-- A stream that has issued a store without destinations. -/
def counted (op op' : StoreOp) (x : Stream) : Stream :=
  { x with st := if op.inSt then x.st + 1 else x.st, uw := if op.inUw then x.uw + 1 else x.uw, stores := x.stores ++ [op'] }

theorem mapStream_mapStream (ag : Agent) (f g : Stream → Stream) (s : State) : mapStream ag g (mapStream ag f s) = mapStream ag (g ∘ f) s := by
  unfold mapStream
  rw [stream_setStream_self]
  simp only [State.setStream, Table.put_put, Function.comp_apply]

/-- The running stream changed by `f`, with the control lines that its package holds now (R309). -/
def issued (f : Stream → Stream) (owners : Table Nat Nat) (serial : Nat) (s : State) : State :=
  { mapSelf f s with owners := owners, serial := serial }

theorem self_issued (f : Stream → Stream) (owners : Table Nat Nat) (serial : Nat) (s : State) : self (issued f owners serial s) = f (self s) :=
  self_mapSelf s f

theorem stream_issued_other (f : Stream → Stream) (owners : Table Nat Nat) (serial : Nat) (s : State) {a : Agent} (h : a ≠ s.cur) :
    (issued f owners serial s).stream a = s.stream a := stream_mapStream_other s f h

section
variable {op : StoreOp} (hd : op.dests = []) (s : State)
include hd

theorem awaitDests_none (u : State) : awaitDests s.cur op.dests u = mapStream s.cur (fun x => { x with await := x.await ++ [] }) u := by
  rw [hd]
  exact if_neg (fun h => h.2 rfl)

/-- A write without destinations is counted in its stream; its package holds the control lines that it wrote (R309). -/
theorem issueWrite_eq (ps : List Put) : ∃ op' owners serial, issueWrite s.cur op ps s = issued (counted op op') owners serial s := by
  have hstore : ∃ op' owners serial, issueStore s.cur op ps s = issued (counted op op') owners serial s := by
    unfold issueStore
    dsimp only
    split
    · exact ⟨_, s.owners, s.serial, rfl⟩
    · exact ⟨_, _, _, rfl⟩
  obtain ⟨op', owners, serial, h⟩ := hstore
  refine ⟨op', owners, serial, ?_⟩
  rw [issueWrite, awaitDests_none hd, h]
  refine Eq.trans (b := { mapStream s.cur (fun x => { x with await := x.await ++ [] }) (mapStream s.cur (counted op op') s) with
    owners := owners, serial := serial }) rfl ?_
  rw [mapStream_mapStream]
  simp only [List.append_nil]
  rfl

/-- A write of the quantum buffer alone is counted, and changes no other part. -/
theorem issueWrite_buffered : ∃ op', issueWrite s.cur op [] s = mapSelf (counted op op') s := by
  obtain ⟨op', hop⟩ : ∃ op', issueStore s.cur op [] s = mapStream s.cur (counted op op') s := ⟨_, rfl⟩
  refine ⟨op', ?_⟩
  rw [issueWrite, awaitDests_none hd, hop, mapStream_mapStream]
  simp only [List.append_nil]
  rfl

end

/-! A store at once. -/

/-- Only the parts that a store reaches differ. -/
def OnlyStore (s t : State) : Prop :=
  t = { s with
    streams := t.streams, blocks := t.blocks, past := t.past, cores := t.cores, mem := t.mem, lineKeys := t.lineKeys,
    early := t.early, owners := t.owners, serial := t.serial, stale := t.stale, bad := t.bad }

theorem OnlyStore.trans {s u t : State} (h : OnlyStore s u) (k : OnlyStore u t) : OnlyStore s t := by
  unfold OnlyStore at h k ⊢
  rw [h] at k
  exact k

theorem OnlyBytes.onlyStore {s t : State} (h : OnlyBytes s t) : OnlyStore s t := by
  unfold OnlyBytes at h
  rw [h]
  rfl

theorem StreamStep.onlyStore {s t : State} (h : StreamStep s t) : OnlyStore s t := by
  rw [h.rest]
  rfl

theorem onlyStore_issued (f : Stream → Stream) (owners : Table Nat Nat) (serial : Nat) (s : State) : OnlyStore s (issued f owners serial s) := rfl

/-- What a core's writes change in its L1: the clean lines alone (R282). -/
def OnlyClean (s t : State) : Prop := ∃ cores, t = { s with cores := cores } ∧ ∀ k, t.core k = { s.core k with clean := (t.core k).clean }

theorem onlyClean_refl (s : State) : OnlyClean s s := ⟨s.cores, rfl, fun _ => rfl⟩

theorem onlyClean_mapCore (k : Nat × Nat) (f : Core → List CleanLine) (s : State) : OnlyClean s (mapCore k (fun c => { c with clean := f c }) s) := by
  refine ⟨_, rfl, fun j => ?_⟩
  by_cases hj : j = k
  · subst hj
    rw [mapCore, core_setCore_self]
  · rw [mapCore, core_setCore_other s _ hj]

theorem onlyClean_throughL1 (k : Nat × Nat) (ps : List Put) (s : State) : OnlyClean s (throughL1 k ps s) := by
  unfold throughL1
  split
  · exact onlyClean_mapCore k _ s
  · exact onlyClean_refl s

theorem onlyClean_throughOwnL1 (ag : Agent) (ps : List Put) (s : State) :
    OnlyClean s (match coreOf ag with | some k => throughL1 k ps s | none => s) := by
  cases coreOf ag with
  | none => exact onlyClean_refl s
  | some k => exact onlyClean_throughL1 k ps s

section
variable {p : Place} {n len : Nat} {v va : Word64} {s : State}

/-- The state that a store leaves, in the order of its changes: the bytes, the L1, the counts, the program counter. -/
theorem storeNow_parts (blk : Option Nat) (va : Word64) (ps : List Put) (s : State) : ∃ u op' owners serial, OnlyClean (applyPuts blk ps s) u ∧
    storeNow blk va ps s = issued (counted { inUw := putKeys ps != [], vas := [va] } op') owners serial u := by
  have hclean := onlyClean_throughOwnL1 (applyPuts blk ps s).cur ps (applyPuts blk ps s)
  obtain ⟨op', owners, serial, h⟩ := issueWrite_eq (op := { inUw := putKeys ps != [], vas := [va] }) rfl
    (match coreOf (applyPuts blk ps s).cur with | some k => throughL1 k ps (applyPuts blk ps s) | none => applyPuts blk ps s) ps
  exact ⟨_, op', owners, serial, hclean, h⟩

/-- Whether a store at a place counts in UW (R311). -/
def inMemory : Loc → Bool
  | .phys _ => true
  | .scr _ => false

theorem writesMemory (bs : List Byte) (hbs : bs ≠ []) : (putKeys (putsAt p.mat p.loc bs) != []) = inMemory p.loc := by
  cases p.loc with
  | phys k =>
    rw [putKeys_putsAt_phys]
    exact bne_iff_ne.mpr (by simpa using hbs)
  | scr o => rw [putKeys_putsAt_scr]; rfl

/-- What the parts of a store leave, once it is behind the stream: `a` has the bytes, `u` the L1 too. -/
theorem storeStep_of_parts {b a u : State} (hbytes : OnlyBytes b a) {blk : Option Nat} (hscr : ScratchOnly blk b a) (hclean : OnlyClean a u)
    (op' : StoreOp) (owners : Table Nat Nat) (serial : Nat) :
    StoreStep len p b (advance len (issued (counted { inUw := inMemory p.loc, vas := [va] } op') owners serial u)) := by
  obtain ⟨cores, hu, hcore⟩ := hclean
  have hcur : u.cur = b.cur := by rw [hu, hbytes]
  have hstreams (x : Agent) : u.stream x = b.stream x := by rw [hu, hbytes]; rfl
  have hself : self u = self b := by rw [self, hcur, hstreams]; rfl
  generalize hf : counted { inUw := inMemory p.loc, vas := [va] } op' = f
  have hstep := streamStep_advance len (issued f owners serial u)
  refine ⟨?_, fun x hx => ?_, ?_, fun k => ?_, fun k => ?_⟩
  · have hau : OnlyStore a u := by rw [hu]; rfl
    exact ((hbytes.onlyStore.trans hau).trans (onlyStore_issued f owners serial u)).trans hstep.onlyStore
  · exact (hstep.others x (hcur ▸ hx)).trans ((stream_issued_other f owners serial u (hcur ▸ hx)).trans (hstreams x))
  · rw [self_advance, self_issued, hself, ← hf]
    cases p.loc <;> rfl
  · have hblock : (issued f owners serial u).block k = a.block k := by rw [hu]; rfl
    have ht := hstep.blocks k
    rw [hblock, (hscr k).1] at ht
    generalize (advance len (issued f owners serial u)).block k = y at ht
    rw [congrArg Block.scratch ht]
    exact ht
  · have hcores : (advance len (issued f owners serial u)).core k = u.core k := by rw [hstep.rest]; rfl
    have hab : a.core k = b.core k := by rw [hbytes]; rfl
    rw [hcores, ← hab]
    exact hcore k

theorem storeNow_stored {blk : Option Nat} (hc : Canonical s) (hn : 0 < n) :
    let t := advance len (storeNow blk va (putsAt p.mat p.loc (leBytes n v.toNat)) s)
    StoreStep len p (foldedFor p n s) t ∧ Stored blk p n v (foldedFor p n s) t := by
  have hne : leBytes n v.toNat ≠ [] := List.ne_nil_of_length_pos (by rwa [leBytes_length])
  have hb : foldKeys (putKeys (putsAt p.mat p.loc (leBytes n v.toNat))) s = foldedFor p n s := by rw [foldedFor_eq, leBytes_length]
  have hbytes := hb ▸ onlyBytes_applyPuts blk (putsAt p.mat p.loc (leBytes n v.toNat)) s
  have hscr := hb ▸ scratchOnly_applyPuts blk (putsAt p.mat p.loc (leBytes n v.toNat)) s
  have hstored := stored_applyPuts (blk := blk) (p := p) (v := v) (hc.foldKeys (ks := putKeys (putsAt p.mat p.loc (List.replicate n 0)))) hn
  obtain ⟨u, op', owners, serial, hclean, hnow⟩ := storeNow_parts blk va (putsAt p.mat p.loc (leBytes n v.toNat)) s
  rw [hnow, writesMemory _ hne]
  refine ⟨storeStep_of_parts hbytes hscr hclean op' owners serial, ?_⟩
  obtain ⟨cores, hu, -⟩ := hclean
  have hstep := streamStep_advance len (issued (counted { inUw := inMemory p.loc, vas := [va] } op') owners serial u)
  refine stored_of_bytes hstored ?_ ?_ ?_ fun k => ?_
  · rw [hstep.rest, hu]; rfl
  · rw [hstep.rest, hu]; rfl
  · rw [hstep.rest, hu]; rfl
  · rw [hstep.blocks k, hu]
    exact ⟨rfl, rfl⟩

/-! A store that waits, and one held in the quantum buffer (R103, R310). -/

theorem keyTgt_line {k i : Nat} (h : k % 128 + i < 128) : keyTgt (k + i) = keyTgt k := by
  unfold keyTgt
  omega

theorem controlDue_iff {c : Ctx} {use : Use} (h : place s c use va n = .ok p) (hn : 0 < n) :
    controlDue s s.cur (putsAt p.mat p.loc (leBytes n v.toNat)) = true ↔ StoreWaits p s := by
  have hkeys : (putKeys (putsAt p.mat p.loc (leBytes n v.toNat))).any (fun k => keyTgt k == 0) = true ↔ ∃ k, p.loc = .phys k ∧ keyTgt k = 0 := by
    cases hl : p.loc with
    | scr o => simp [putKeys_putsAt_scr]
    | phys k =>
      have hline := place_line h hl
      rw [putKeys_putsAt_phys, leBytes_length]
      simp only [List.any_map, List.any_eq_true, List.mem_range, Function.comp_apply, beq_iff_eq, Loc.phys.injEq]
      refine ⟨fun ⟨i, hi, hk⟩ => ⟨k, rfl, (keyTgt_line (by omega : k % 128 + i < 128)).symm.trans hk⟩, fun ⟨k', hk', hk⟩ => ⟨0, hn, ?_⟩⟩
      rw [Nat.add_zero, hk', hk]
  rw [controlDue, Bool.and_eq_true, hkeys, List.any_eq_true]
  rfl

theorem bufferStep_of (q : QBuf) (op' : StoreOp) :
    BufferStep len q s (advance len (mapSelf (counted { inUw := false } op') (mapSelfGroup (fun g => { g with qbuf := q }) s))) := by
  have h := groupStep_advance len (fun g => { g with qbuf := q }) (mapSelf (counted { inUw := false } op') s)
  refine ⟨?_, fun a ha => ?_, ?_, ?_, h.blocks, h.bytes⟩
  · exact h.rest.trans rfl
  · obtain ⟨hs, hg⟩ := h.others a ha
    exact ⟨hs.trans (stream_mapStream_other s _ ha), hg⟩
  · rw [self_advance, self_mapSelf]
    rfl
  · rw [selfGroup_advance]
    exact selfGroup_mapSelfGroup s (fun g => { g with qbuf := q })

section
variable {i : Instr} {a b : SReg} {f : Form} (hx : exec i s = stsForm n b a f s)
include hx

theorem exec_sts_ok (hp : place s (selfCtx s) { write := true } (reg s a + f.simm) n = .ok p) :
    exec i s = finish s (storeAt (leBytes n (reg s b).toNat) (reg s a + f.simm) f.len p s) := by
  rw [hx, stsForm, hp]
  rfl

theorem exec_sts_trap {x : Trap} (hp : place s (selfCtx s) { write := true } (reg s a + f.simm) n = .error (.trap x)) :
    exec i s = .next (takeTrap s.cur x false s) := by
  rw [hx, stsForm, hp]
  rfl

end

section
variable {bs : List Byte}

theorem storeAt_full (h : 63 ≤ (self s).st) : storeAt bs va len p s = .error .stall := stallIf_stops (decide_eq_true h)

theorem storeAt_buffered (hst : (self s).st < 63) (hb : buffered s s.cur va = true) : storeAt bs va len p s =
    (do
      let s ← qbufStore s.cur false va (putsAt p.mat p.loc bs) s
      .ok (advance len (issueWrite s.cur { inUw := false } [] s))) :=
  (stallIf_passes (decide_eq_false (not_le.mpr hst))).trans (if_pos hb)

theorem storeAt_unbuffered (hst : (self s).st < 63) (hb : buffered s s.cur va = false) : storeAt bs va len p s =
    (do
      stallIf (controlDue s s.cur (putsAt p.mat p.loc bs))
      .ok (advance len (storeNow (selfCtx s).block va (putsAt p.mat p.loc bs) s))) :=
  (stallIf_passes (decide_eq_false (not_le.mpr hst))).trans (if_neg (by simp [hb]))

end

/-- The outcomes of a scalar store of `n` bytes to `ea`, `len` bytes long (R99, R101, R103, R310). -/
structure StoreOutcomes (i : Instr) (n : Nat) (v ea : Word64) (len : Nat) (s : State) : Prop where
  stores : ∀ p, place s (selfCtx s) { write := true } ea n = .ok p → (self s).st < 63 → buffered s s.cur ea = false → ¬StoreWaits p s →
    ∃ t, exec i s = .next t ∧ StoreStep len p (foldedFor p n s) t ∧ Stored (selfCtx s).block p n v (foldedFor p n s) t
  waits : ∀ p, place s (selfCtx s) { write := true } ea n = .ok p → (self s).st < 63 → buffered s s.cur ea = false → StoreWaits p s → exec i s = .next s
  buffers : ∀ p, place s (selfCtx s) { write := true } ea n = .ok p → (self s).st < 63 → buffered s s.cur ea = true →
    let q := seqAll (qbufPut false ea) (putsAt p.mat p.loc (leBytes n v.toNat)) (selfGroup s).qbuf
    (qbufLines q ≤ qlGroup s s.cur → ∃ t, exec i s = .next t ∧ BufferStep len q s t) ∧
    (qlGroup s s.cur < qbufLines q → exec i s = .next (takeTrap s.cur { cls := .quantum, detail := 1, addr := ea } false s))
  traps : ∀ x, place s (selfCtx s) { write := true } ea n = .error (.trap x) → exec i s = .next (takeTrap s.cur x false s)
  stalls : ∀ p, place s (selfCtx s) { write := true } ea n = .ok p → 63 ≤ (self s).st → exec i s = .next s

theorem storeOutcomes_of {i : Instr} {a b : SReg} {f : Form} (hx : exec i s = stsForm n b a f s) (hc : Canonical s) (hn : 0 < n) :
    StoreOutcomes i n (reg s b) (reg s a + f.simm) f.len s := by
  refine ⟨fun p hp hst hb hw => ?_, fun p hp hst hb hw => ?_, fun p hp hst hb => ⟨fun hq => ?_, fun hq => ?_⟩, fun x hp => exec_sts_trap hx hp, fun p hp hst => ?_⟩
  · refine ⟨_, ?_, storeNow_stored (va := reg s a + f.simm) hc hn⟩
    rw [exec_sts_ok hx hp, storeAt_unbuffered hst hb, stallIf_passes (Bool.eq_false_iff.mpr (mt (controlDue_iff hp hn).mp hw))]
    rfl
  · rw [exec_sts_ok hx hp, storeAt_unbuffered hst hb, stallIf_stops ((controlDue_iff hp hn).mpr hw)]
    rfl
  · rw [exec_sts_ok hx hp, storeAt_buffered hst hb, qbufStore, show s.group s.cur = selfGroup s from rfl, raiseIf_passes (decide_eq_false (not_lt.mpr hq))]
    obtain ⟨op', h⟩ := issueWrite_buffered (op := { inUw := false }) rfl
      (mapSelfGroup (fun g => { g with qbuf := seqAll (qbufPut false (reg s a + f.simm)) (putsAt p.mat p.loc (leBytes n (reg s b).toNat)) (selfGroup s).qbuf }) s)
    exact ⟨_, congrArg (fun x => Host.Outcome.next (advance f.len x)) h, bufferStep_of _ op'⟩
  · rw [exec_sts_ok hx hp, storeAt_buffered hst hb, qbufStore, show s.group s.cur = selfGroup s from rfl, raiseIf_stops (decide_eq_true hq)]
    rfl
  · rw [exec_sts_ok hx hp, storeAt_full hst]
    rfl

theorem storeForm_of {op : BitVec 6} {i : Instr} {b a : SReg} {imm : BitVec 14} (he : encode i = encW (encI op b a imm)) (hwf : i.wf = true)
    (h1 : OneWord op) (hx : exec i s = stsForm n b a (plainForm imm s) s) (hc : Canonical s) (hn : 0 < n)
    (hext : Decodes (encI op b a imm) i → ∀ hi : BitVec 26, exec (.ext hi (encI op b a imm)) s = stsForm n b a (extForm hi imm s) s) :
    StoreForm op i n b a imm s := by
  have hd := decodes_encI he hwf h1
  obtain ⟨h1, h2, h3, h4, h5⟩ := storeOutcomes_of hx hc hn
  refine ⟨hd, ⟨h1, h2, h3, h4, h5⟩, fun hi => ?_⟩
  obtain ⟨h1, h2, h3, h4, h5⟩ := storeOutcomes_of (hext hd hi) hc hn
  exact ⟨h1, h2, h3, h4, h5⟩

end

end Sys2Proof.Machine

open Sys2Proof Sys2Proof.Machine Sys2Proof.Claims

/-- Settles O7: a store writes its low bytes and no others once its stream's earlier control stores are acknowledged, or enters
the quantum buffer while its lines are within QL. -/
theorem storesWriteTheirBytes : Obligations.StoresWriteTheirBytes := by
  intro s b a imm hc
  refine ⟨storeForm_of rfl rfl (by decide) rfl hc (by decide) ?_, storeForm_of rfl rfl (by decide) rfl hc (by decide) ?_,
    storeForm_of rfl rfl (by decide) rfl hc (by decide) ?_, storeForm_of rfl rfl (by decide) rfl hc (by decide) ?_⟩
  all_goals
    intro hd hi
    rw [exec_ext, execExt, hd 0]
end

section
/-! SUPPORT. O10 to O12, O16, O17: changes of the running stream and group, composed. -/

open Sys2Proof.Claims

namespace Sys2Proof.Machine

set_option Elab.async false

section
variable {s u t : State}

theorem sameBlocks_refl (s : State) : SameBlocks s s := fun _ => rfl

theorem sameBlocks_trans (h : SameBlocks s u) (k : SameBlocks u t) : SameBlocks s t := fun b => by
  have hk := k b
  rw [h b] at hk
  exact hk

theorem sameBytes_refl (s : State) : SameBytes s s := ⟨fun _ _ => rfl, fun _ _ => ⟨rfl, rfl⟩⟩

theorem sameBytes_trans (h : SameBytes s u) (k : SameBytes u t) : SameBytes s t :=
  ⟨fun m j => (k.1 m j).trans (h.1 m j), fun b o => ⟨(k.2 b o).1.trans (h.2 b o).1, (k.2 b o).2.trans (h.2 b o).2⟩⟩

theorem groupStep_cur (h : GroupStep s t) : t.cur = s.cur := by rw [h.rest]

theorem groupStep_trans (h : GroupStep s u) (k : GroupStep u t) : GroupStep s t := by
  refine ⟨?_, fun a ha => ?_, sameBlocks_trans h.blocks k.blocks, sameBytes_trans h.bytes k.bytes⟩
  · have hk := k.rest
    rw [h.rest] at hk
    exact hk
  · obtain ⟨hs, hg⟩ := h.others a ha
    obtain ⟨ks, kg⟩ := k.others a (groupStep_cur h ▸ ha)
    exact ⟨ks.trans hs, kg.trans hg⟩

theorem groupStep_of_streamStep (h : StreamStep s t) : GroupStep s t := by
  refine ⟨?_, fun a ha => ⟨h.others a ha, ?_⟩, h.blocks, h.bytes⟩
  · rw [h.rest]
  · rw [h.rest]; rfl

theorem groupStep_mapSelf (f : Stream → Stream) (s : State) : GroupStep s (mapSelf f s) :=
  ⟨rfl, fun _ ha => ⟨stream_mapStream_other s f ha, rfl⟩, sameBlocks_refl s, sameBytes_refl s⟩

theorem groupStep_mapSelfGroup (f : Group → Group) (s : State) : GroupStep s (mapSelfGroup f s) :=
  ⟨rfl, fun _ ha => ⟨rfl, group_setGroup_other s _ ha⟩, sameBlocks_refl s, sameBytes_refl s⟩

end

end Sys2Proof.Machine

end

section
/-! SUPPORT. O12: `WAIT` and `WAITY` (R112, R113). -/

open Sys2Proof.Claims

namespace Sys2Proof.Machine

set_option Elab.async false

section
variable {ld st : BitVec 6} {cp tl : BitVec 5} {s : State}

/-- The counters of the running stream are within the operands of `WAIT` (R112). -/
def Met (ld st : BitVec 6) (cp tl : BitVec 5) (s : State) : Prop :=
  (self s).ld ≤ ld.toNat ∧ (self s).st ≤ st.toNat ∧ (self s).cp ≤ cp.toNat ∧ (self s).tl ≤ tl.toNat

theorem countersWithin_iff : countersWithin ld.toNat st.toNat cp.toNat tl.toNat (self s) = true ↔ Met ld st cp tl s := by
  simp [countersWithin, Met, and_assoc]

theorem countersWithin_eq_false (h : ¬Met ld st cp tl s) : countersWithin ld.toNat st.toNat cp.toNat tl.toNat (self s) = false :=
  Bool.eq_false_iff.mpr (mt countersWithin_iff.mp h)

theorem exec_wait_of_user (h : isCtl s.cur = false) : exec (.wait ld st cp tl) s =
    finish s (do stallIf (!countersWithin ld.toNat st.toNat cp.toNat tl.toNat (self s)); .ok (advance 4 s)) :=
  congrArg (finish s) (raiseIf_passes h)

theorem waitStallsOnCounters : WaitStallsOnCounters := by
  refine fun s ld st cp tl hc => ⟨fun h => ⟨_, ?_, regWrite_advance_none 4 s⟩, fun h => ?_, decodes_of_encode rfl rfl ?_, decodes_of_encode rfl rfl (by decide)⟩
  · rw [exec_wait_of_user hc, stallIf_passes (by rw [countersWithin_iff.mpr h]; rfl)]
    rfl
  · rw [exec_wait_of_user hc, stallIf_stops (by rw [countersWithin_eq_false h]; rfl)]
    rfl
  · rw [show (0x2F : BitVec 6) ++ ld ++ st ++ cp ++ tl ++ (0 : BitVec 4) = encWait ld st cp tl 0 from rfl, fOp_wait]
    decide

theorem exec_waity_checked (hc : isCtl s.cur = false) : exec (.waity ld st cp tl) s =
    finish s (do
      raiseIf (isGroup s.cur && sysMode s s.cur) .illegal 0
      if countersWithin ld.toNat st.toNat cp.toNat tl.toNat (self s) then .ok (advance 4 s)
      else if isMcc s.cur ∨ (selfGroup s).segq ≠ [] then .error .stall
      else .ok (leaveSlot (.awayWait ld.toNat st.toNat cp.toNat tl.toNat) (advance 4 s))) :=
  congrArg (finish s) (raiseIf_passes hc)

/-- `WAITY` past the checks of who may issue it. -/
theorem exec_waity_of_user (hc : isCtl s.cur = false) (hg : isGroup s.cur = true → sysMode s s.cur = false) : exec (.waity ld st cp tl) s =
    finish s (if countersWithin ld.toNat st.toNat cp.toNat tl.toNat (self s) then .ok (advance 4 s)
      else if isMcc s.cur ∨ (selfGroup s).segq ≠ [] then .error .stall
      else .ok (leaveSlot (.awayWait ld.toNat st.toNat cp.toNat tl.toNat) (advance 4 s))) := by
  have hg' : (isGroup s.cur && sysMode s s.cur) = false := by
    cases h : isGroup s.cur with
    | false => rfl
    | true => exact hg h
  rw [exec_waity_checked hc, raiseIf_passes hg']

/-- A group that leaves its slot at the instruction behind it. -/
theorem groupStep_leaveSlot (r : Run) (n : Nat) (s : State) : GroupStep s (leaveSlot r (advance n s)) :=
  groupStep_trans (groupStep_of_streamStep (streamStep_advance n s)) (groupStep_trans (groupStep_mapSelf _ _) (groupStep_mapSelfGroup _ _))

theorem waityLeavesTheSlot : WaityLeavesTheSlot := by
  refine fun s ld st cp tl => ⟨fun hc => ⟨?_, ?_⟩, fun hg hm => ?_, fun hc hg => ⟨fun h => ⟨_, ?_, regWrite_advance_none 4 s⟩, fun h hq => ?_, fun h hm hq => ?_⟩⟩
  · exact congrArg (finish s) (raiseIf_stops hc)
  · exact congrArg (finish s) (raiseIf_stops hc)
  · have hc : isCtl s.cur = false := by
      cases hcur : s.cur with
      | group p c w => rfl
      | mcc p c => rfl
      | ctl p i => rw [hcur] at hg; cases hg
    rw [Traps, exec_waity_checked hc, raiseIf_stops (Bool.and_eq_true_iff.mpr ⟨hg, hm⟩)]
    rfl
  · rw [exec_waity_of_user hc hg, if_pos (countersWithin_iff.mpr h)]
    rfl
  · rw [exec_waity_of_user hc hg, if_neg (by simp [countersWithin_eq_false h]), if_pos hq]
    rfl
  · have hq' : ¬(isMcc s.cur = true ∨ (selfGroup s).segq ≠ []) := by simp [hm, hq]
    rw [exec_waity_of_user hc hg, if_neg (by simp [countersWithin_eq_false h]), if_neg hq']
    refine ⟨_, rfl, groupStep_leaveSlot _ 4 s, ?_, ?_⟩
    · rw [leaveSlot, self_mapSelfGroup, self_mapSelf, self_advance]
      rfl
    · refine (selfGroup_mapSelfGroup _ _).trans ?_
      rw [show selfGroup (mapSelf (fun x => { x with run := .awayWait ld.toNat st.toNat cp.toNat tl.toNat }) (advance 4 s)) = selfGroup (advance 4 s) from rfl, selfGroup_advance]

end

end Sys2Proof.Machine

open Sys2Proof Sys2Proof.Machine Sys2Proof.Claims

/-- Settles O12, by the order of the checks of both instructions. -/
theorem waitsStallOrLeaveTheSlot : Obligations.WaitsStallOrLeaveTheSlot := ⟨waitStallsOnCounters, waityLeavesTheSlot⟩
end

section
/-! SUPPORT. O10, O11: groups and gangs that end (R118, R166, R349). -/

open Sys2Proof.Claims

namespace Sys2Proof.Machine

set_option Elab.async false

section
variable {s u t : State} {b : Nat}

theorem block_mapBlock_found (h : (Table.find? s.blocks b).isSome) (f : Block → Block) : (mapBlock b f s).block b = f (s.block b) := by
  obtain ⟨x, hx⟩ := Option.isSome_iff_exists.mp h
  rw [mapBlock_of_find hx, block_put_self, block_of_find hx]

theorem found_mapBlock (h : (Table.find? s.blocks b).isSome) (f : Block → Block) : (Table.find? (mapBlock b f s).blocks b).isSome := by
  obtain ⟨x, hx⟩ := Option.isSome_iff_exists.mp h
  rw [mapBlock_of_find hx, Table.find?_put_self]
  rfl

/-- Only what a barrier keeps in the streams differs: a group that waits there, and a trap posted to it (R166). -/
def OnlyPosted (s t : State) : Prop :=
  t = { s with streams := t.streams } ∧ ∀ a, t.stream a = { s.stream a with half := (t.stream a).half, posted := (t.stream a).posted }

theorem OnlyPosted.refl (s : State) : OnlyPosted s s := ⟨rfl, fun _ => rfl⟩

theorem OnlyPosted.trans (h : OnlyPosted s u) (k : OnlyPosted u t) : OnlyPosted s t := by
  obtain ⟨hr, hs⟩ := h
  obtain ⟨kr, ks⟩ := k
  refine ⟨?_, fun a => ?_⟩
  · rw [hr] at kr
    exact kr
  · have ka := ks a
    rw [hs a] at ka
    exact ka

theorem OnlyPosted.run (h : OnlyPosted s t) (a : Agent) : (t.stream a).run = (s.stream a).run := by rw [h.2 a]

theorem onlyPosted_mapStream (a : Agent) (h : Option Nat) (p : Option Trap) (s : State) :
    OnlyPosted s (mapStream a (fun x => { x with half := h, posted := p }) s) := by
  refine ⟨rfl, fun a' => ?_⟩
  by_cases ha : a' = a
  · subst ha
    rw [stream_mapStream_self]
  · rw [stream_mapStream_other s _ ha]

theorem onlyPosted_stuckBarriers (blk : Nat) (s : State) : OnlyPosted s (stuckBarriers blk s) := by
  refine seqAll_keeps (OnlyPosted s) _ (fun e u h => ?_) _ s (.refl s)
  split
  · refine seqAll_keeps (OnlyPosted s) _ (fun a u h => ?_) _ u h
    split
    · exact h.trans (onlyPosted_mapStream a _ _ u)
    · exact h
  · exact h

/-! The end of a group (R118). -/

/-- What a group's end makes of its stream. -/
def endedStream (x : Stream) : Stream := { x with run := .ended, half := none, kept := none, posted := none }

/-- What a group's end makes of it. -/
def endedGroup (g : Group) : Group :=
  { g with qbuf := ⟨[], []⟩, live := 0, segq := [], inSeg := false, splits := Vector.replicate 4 none, parked := [], rep := none }

/-- The buffer of a group that ends is held by its block (R118). -/
def holding (ag : Agent) (g : Group) (b : Block) : Block :=
  { b with held := if g.qbuf = ⟨[], []⟩ then b.held else b.held ++ [(g.gidx, ag, g.qbuf)] }

theorem endGroup_parts (ag : Agent) (s : State) : OnlyPosted
    (mapBlock (s.group ag).block (holding ag (s.group ag))
      (mapGroup ag endedGroup (mapStream ag endedStream s))) (endGroup ag s) :=
  onlyPosted_stuckBarriers _ _

theorem endGroup_run (ag : Agent) (s : State) : ((endGroup ag s).stream ag).run = .ended := by
  rw [(endGroup_parts ag s).run]
  exact congrArg Stream.run (stream_mapStream_self s ag endedStream)

theorem endGroup_run_of_ended {a : Agent} (ag : Agent) (h : (s.stream a).run = .ended) : ((endGroup ag s).stream a).run = .ended := by
  by_cases ha : a = ag
  · exact ha ▸ endGroup_run ag s
  · rw [(endGroup_parts ag s).run]
    exact (congrArg Stream.run (stream_mapStream_other s endedStream ha)).trans h

theorem endGroup_group (ag : Agent) (s : State) : (endGroup ag s).group ag = endedGroup (s.group ag) := by
  rw [(endGroup_parts ag s).1]
  exact group_setGroup_self _ _ _

theorem endGroup_group_other (ag : Agent) (s : State) {a : Agent} (h : a ≠ ag) : (endGroup ag s).group a = s.group a := by
  rw [(endGroup_parts ag s).1]
  exact group_setGroup_other _ _ h

theorem endGroup_block (ag : Agent) (h : (Table.find? s.blocks (s.group ag).block).isSome) :
    (endGroup ag s).block (s.group ag).block = holding ag (s.group ag) (s.block (s.group ag).block) := by
  rw [(endGroup_parts ag s).1]
  exact block_mapBlock_found (s := mapGroup ag endedGroup (mapStream ag endedStream s)) h _

/-- The parts that a group's end leaves. -/
theorem endGroup_rest (ag : Agent) (s : State) : ∃ streams groups blocks past,
    endGroup ag s = { s with streams := streams, groups := groups, blocks := blocks, past := past } := by
  rw [(endGroup_parts ag s).1]
  exact ⟨_, _, _, _, rfl⟩

theorem endStatus_eq (cls : Nat) : classStatus cls = endStatus cls := by
  unfold classStatus endStatus
  split
  case h_7 h1 h2 h3 h7 h12 h6 => rw [if_neg h6, if_neg (by simp_all)]; rfl
  all_goals rfl

/-- A group ended failed (R349). -/
theorem groupEndedFailed_of (ag : Agent) (st : Word16) (s : State) : GroupEndedFailed ag st s (endFailed ag st s) := by
  have hg : (failBlock (s.group ag).block st s).group ag = s.group ag := rfl
  obtain ⟨streams, groups, blocks, past, hrest⟩ := endGroup_rest ag (failBlock (s.group ag).block st s)
  refine ⟨endGroup_run ag _, ?_, ?_, fun h => ?_, ?_, ?_, ?_⟩
  · rw [endFailed, endGroup_group]; rfl
  · rw [endFailed, endGroup_group]; rfl
  · refine (congrArg Block.status (endGroup_block (s := failBlock (s.group ag).block st s) ag (found_mapBlock h _))).trans ?_
    rw [hg, failBlock, block_mapBlock_found h]
    rfl
  all_goals
    rw [endFailed, hrest]
    rfl

end

end Sys2Proof.Machine

end

section
/-! SUPPORT. O11: the system family (R117, R118, R349). -/

open Sys2Proof.Claims

namespace Sys2Proof.Machine

set_option Elab.async false

section
variable {s u t : State}

theorem found_mapBlock_any {k : Nat} (b : Nat) (h : (Table.find? s.blocks k).isSome) (f : Block → Block) :
    (Table.find? (mapBlock b f s).blocks k).isSome := by
  by_cases hk : k = b
  · subst hk
    exact found_mapBlock h f
  · have : (mapBlock b f s).blocks = Table.upd s.blocks b f := rfl
    rw [this, Table.upd]
    split
    · rwa [Table.find?_put_other _ _ hk]
    · exact h

theorem found_retire {k : Nat} (h : (Table.find? s.blocks k).isSome) : (Table.find? (retire s).blocks k).isSome := by
  unfold retire
  split
  · exact found_mapBlock_any _ h _
  · exact h

theorem retire_group (s : State) (a : Agent) : (retire s).group a = s.group a := by
  rw [retire_rest]
  rfl

/-- A group that an instruction of its own ends failed (R349). -/
theorem groupEndedFailed_retire (ag : Agent) (st : Word16) (s : State) : GroupEndedFailed ag st s (endFailed ag st (retire s)) := by
  obtain ⟨hrun, hseg, hbuf, hstatus, hmem, hcores, hpkgs⟩ := groupEndedFailed_of ag st (retire s)
  rw [retire_group] at hstatus
  refine ⟨hrun, hseg, hbuf, fun h => ?_, ?_, ?_, ?_⟩
  · rw [hstatus (found_retire h), retire_sameBlocks s]
  · rw [hmem, retire_rest]
  · rw [hcores, retire_rest]
  · rw [hpkgs, retire_rest]

/-- What the `HALT` of a group in user mode leaves (R118). -/
theorem groupHalted (ag : Agent) (s : State) (hc : s.cur = ag) :
    let t := endGroup ag (retire s)
    (self t).run = .ended ∧ (selfGroup t).qbuf = ⟨[], []⟩ ∧ (∀ a, a ≠ s.cur → t.group a = s.group a) ∧
      (∀ mat k, readByte t mat k = readByte s mat k) ∧
      ((Table.find? s.blocks (selfGroup s).block).isSome →
        (t.block (selfGroup s).block).held = (s.block (selfGroup s).block).held ++
          (if (selfGroup s).qbuf = ⟨[], []⟩ then [] else [((selfGroup s).gidx, s.cur, (selfGroup s).qbuf)])) := by
  subst hc
  obtain ⟨streams, groups, blocks, past, hrest⟩ := endGroup_rest s.cur (retire s)
  have hcur : (endGroup s.cur (retire s)).cur = s.cur := by rw [hrest, retire_cur]
  refine ⟨?_, ?_, fun a ha => ?_, readByte_congr ?_ ?_ ?_, fun h => ?_⟩
  · rw [self, hcur, endGroup_run]
  · rw [selfGroup, hcur, endGroup_group]
    rfl
  · rw [endGroup_group_other _ _ ha, retire_group]
  · rw [hrest, retire_mem]
  · rw [hrest, retire_lineKeys]
  · rw [hrest, retire_pkgs]
  · have hb := endGroup_block (s := retire s) s.cur (retire_group s s.cur ▸ found_retire h)
    rw [retire_group] at hb
    refine (congrArg Block.held hb).trans ?_
    rw [retire_sameBlocks s]
    unfold holding selfGroup
    dsimp only
    split
    · rw [List.append_nil]
    · rfl

/-! The end of a gang (R349). -/

/-- A stream that has ended stays so when the blocks of a gang end. -/
theorem killBlock_run {a : Agent} (st : Word16) (blk : Nat) (h : (s.stream a).run = .ended) : ((killBlock st .ended blk s).stream a).run = .ended := by
  unfold killBlock
  dsimp only
  split
  · exact h
  · refine seqAll_keeps (fun t : State => (t.stream a).run = .ended) _ (fun g u hu => ?_) _ _ h
    split
    · exact hu
    · by_cases ha : a = g
      · subst ha
        exact congrArg Stream.run (stream_mapStream_self _ a fun x => { x with run := .ended })
      · exact (congrArg Stream.run (stream_mapStream_other _ (fun x => { x with run := .ended }) ha)).trans (endGroup_run_of_ended g hu)

theorem endGang_run (k : Nat × Nat) (st : Word16) (s : State) : ((endGang k st s).stream (.mcc k.1 k.2)).run = .ended :=
  seqAll_keeps (fun t : State => (t.stream (.mcc k.1 k.2)).run = .ended) _ (fun b _ h => killBlock_run st b h) _ _
    (congrArg Stream.run (stream_mapStream_self s (.mcc k.1 k.2) fun x => { x with run := .ended, posted := none }))

theorem endGroup_cur (ag : Agent) (s : State) : (endGroup ag s).cur = s.cur := by
  obtain ⟨_, _, _, _, h⟩ := endGroup_rest ag s
  rw [h]

theorem killBlock_cur (st : Word16) (how : Run) (blk : Nat) (s : State) : (killBlock st how blk s).cur = s.cur := by
  unfold killBlock
  dsimp only
  split
  · rfl
  · refine seqAll_keeps (fun t : State => t.cur = s.cur) _ (fun g u hu => ?_) _ _ rfl
    split
    · exact hu
    · exact (endGroup_cur g u).trans hu

theorem endGang_cur (k : Nat × Nat) (st : Word16) (s : State) : (endGang k st s).cur = s.cur :=
  seqAll_keeps (fun t : State => t.cur = s.cur) _ (fun b u h => (killBlock_cur st .ended b u).trans h) _ _ rfl

/-! `HALT` by the kind of stream (R118). -/

/-- `HALT` where the trap registers hold no error. -/
def haltBy : Agent → State → Eff
  | .group p c w, s =>
    if sysMode s s.cur then .ok (endFailed (.group p c w) (classStatus ((self s).trapcause.extractLsb' 28 4).toNat) (retire s))
    else do
      stallIf ((selfGroup s).segq != [])
      stallIf (!countersWithin 0 0 0 0 (self s))
      .ok (endGroup (.group p c w) (retire s))
  | .mcc p c, s =>
    if sysMode s s.cur then .ok (endGang (p, c) (classStatus ((self s).trapcause.extractLsb' 28 4).toNat) s)
    else do
      stallIf ((self s).tl != 0)
      .ok (mapSelf (fun x => { x with run := .ended }) s)
  | .ctl _ _, s => do
    raiseIf (!sysMode s s.cur) .priv 0
    .ok (mapSelf (fun x => { x with run := .ended }) s)

theorem exec_halt_bad (hs : sysMode s s.cur = true) (hb : trapRegBad s s.cur = true) :
    exec .halt s = .next (areaFault s.cur 7 (recordBase s s.cur) s) :=
  congrArg (finish s) (if_pos (Bool.and_eq_true_iff.mpr ⟨hs, hb⟩))

theorem exec_halt_good {ag : Agent} (hc : s.cur = ag) (h : (sysMode s s.cur && trapRegBad s s.cur) = false) : exec .halt s = finish s (haltBy ag s) := by
  refine congrArg (finish s) ((if_neg (by rw [h]; exact Bool.false_ne_true)).trans ?_)
  subst hc
  generalize hc : s.cur = ag
  cases ag <;> rw [haltBy, hc]

theorem exec_halt_user {ag : Agent} (hc : s.cur = ag) (h : sysMode s s.cur = false) : exec .halt s = finish s (haltBy ag s) :=
  exec_halt_good hc (by rw [h]; rfl)

theorem exec_halt_sys {ag : Agent} (hc : s.cur = ag) (h : trapRegBad s s.cur = false) : exec .halt s = finish s (haltBy ag s) :=
  exec_halt_good hc (by rw [h, Bool.and_false])

theorem trapRegBad_ctl (p i : Nat) (s : State) : trapRegBad s (.ctl p i) = false := Bool.and_false _

/-! The words of the system family. -/

theorem passes_nop (s : State) : Passes .nop s 4 := ⟨_, rfl, regWrite_advance_none 4 s⟩

theorem traps_trap (a : SReg) (s : State) : Traps (.trap a) s .brk ((reg s a).extractLsb' 0 11).toNat 0 := by
  rw [BitVec.extractLsb'_toNat, Nat.shiftRight_zero]
  rfl

/-- `HALT` of a group (R118, R349). -/
theorem halt_group {p c w : Nat} (hc : s.cur = .group p c w) :
    (sysMode s s.cur = false → (selfGroup s).segq = [] → (self s).ld = 0 → (self s).st = 0 → (self s).cp = 0 → (self s).tl = 0 →
      exec .halt s = .next (endGroup s.cur (retire s))) ∧
    (sysMode s s.cur = false → (selfGroup s).segq ≠ [] ∨ (self s).ld ≠ 0 ∨ (self s).st ≠ 0 ∨ (self s).cp ≠ 0 ∨ (self s).tl ≠ 0 → exec .halt s = .next s) ∧
    (sysMode s s.cur = true → trapRegBad s s.cur = false →
      exec .halt s = .next (endFailed s.cur (endStatus ((self s).trapcause.extractLsb' 28 4).toNat) (retire s))) := by
  refine ⟨fun h hq hl hs hcp ht => ?_, fun h hne => ?_, fun h hb => ?_⟩
  · rw [exec_halt_user hc h, haltBy, h, hc, hq]
    have hw : countersWithin 0 0 0 0 (self s) = true := by simp [countersWithin, hl, hs, hcp, ht]
    rw [hw]
    rfl
  · rw [exec_halt_user hc h, haltBy, h]
    by_cases hq : (selfGroup s).segq = []
    · have hw : countersWithin 0 0 0 0 (self s) = false := by
        simp only [countersWithin, Nat.le_zero]
        simp only [hq, ne_eq, not_true_eq_false, false_or] at hne
        simp only [Bool.and_eq_false_iff, decide_eq_false_iff_not]
        tauto
      rw [hq, hw]
      rfl
    · rw [if_neg Bool.false_ne_true, stallIf_stops (bne_iff_ne.mpr hq)]
      rfl
  · rw [exec_halt_sys hc hb, haltBy, h, hc, endStatus_eq]
    rfl

/-- `HALT` of an MCC (R118, R349). -/
theorem halt_mcc {p c : Nat} (hc : s.cur = .mcc p c) :
    (sysMode s s.cur = false → (self s).tl = 0 → exec .halt s = .next (mapSelf (fun x => { x with run := .ended }) s)) ∧
    (sysMode s s.cur = false → (self s).tl ≠ 0 → exec .halt s = .next s) ∧
    (sysMode s s.cur = true → trapRegBad s s.cur = false → ∃ t, exec .halt s = .next t ∧ (self t).run = .ended) := by
  refine ⟨fun h ht => ?_, fun h ht => ?_, fun h hb => ?_⟩
  · rw [exec_halt_user hc h, haltBy, h, ht]
    rfl
  · rw [exec_halt_user hc h, haltBy, h, if_neg Bool.false_ne_true, stallIf_stops (bne_iff_ne.mpr ht)]
    rfl
  · rw [exec_halt_sys hc hb, haltBy, h]
    refine ⟨_, rfl, ?_⟩
    rw [self, endGang_cur, hc]
    exact endGang_run (p, c) _ s

/-- `HALT` of a control core (R118). -/
theorem halt_ctl {p i : Nat} (hc : s.cur = .ctl p i) :
    (sysMode s s.cur = true → exec .halt s = .next (mapSelf (fun x => { x with run := .ended }) s)) ∧
    (sysMode s s.cur = false → Traps .halt s .priv 0 0) := by
  have hb : trapRegBad s s.cur = false := by rw [hc]; exact trapRegBad_ctl p i s
  refine ⟨fun h => ?_, fun h => ?_⟩
  · rw [exec_halt_sys hc hb, haltBy, h]
    rfl
  · rw [Traps, exec_halt_sys hc hb, haltBy, h]
    rfl

/-- A fact of one kind of stream, told by the kind. -/
theorem of_isGroup {P : Prop} (h : isGroup s.cur = true) (hp : ∀ p c w, s.cur = .group p c w → P) : P := by
  cases hc : s.cur with
  | group p c w => exact hp p c w hc
  | mcc p c => rw [hc] at h; cases h
  | ctl p i => rw [hc] at h; cases h

theorem of_isMcc {P : Prop} (h : isMcc s.cur = true) (hp : ∀ p c, s.cur = .mcc p c → P) : P := by
  cases hc : s.cur with
  | group p c w => rw [hc] at h; cases h
  | mcc p c => exact hp p c hc
  | ctl p i => rw [hc] at h; cases h

theorem of_isCtl {P : Prop} (h : isCtl s.cur = true) (hp : ∀ p i, s.cur = .ctl p i → P) : P := by
  cases hc : s.cur with
  | group p c w => rw [hc] at h; cases h
  | mcc p c => rw [hc] at h; cases h
  | ctl p i => exact hp p i hc

end

end Sys2Proof.Machine

open Sys2Proof Sys2Proof.Machine Sys2Proof.Claims

/-- Settles O11, `HALT` by the kind of stream that issues it. -/
theorem systemFamily : Obligations.SystemFamily := by
  intro s d a
  refine ⟨decodes_of_encode rfl rfl (by decide), passes_nop s, sets_of rfl, rfl, traps_trap a s, fun hg h hq hl hs hcp ht => ?_, fun hg h hne => ?_,
    fun hg h hb => ?_, fun hm h ht => ?_, fun hm h ht => ?_, fun hm h hb => ?_, exec_halt_bad, fun hc h => ?_, fun hc h => ?_⟩
  · refine of_isGroup hg fun p c w hcur => ⟨_, (halt_group hcur).1 h hq hl hs hcp ht, groupHalted s.cur s rfl⟩
  · exact of_isGroup hg fun p c w hcur => (halt_group hcur).2.1 h hne
  · exact of_isGroup hg fun p c w hcur => ⟨_, (halt_group hcur).2.2 h hb, groupEndedFailed_retire _ _ s⟩
  · exact of_isMcc hm fun p c hcur => (halt_mcc hcur).1 h ht
  · exact of_isMcc hm fun p c hcur => (halt_mcc hcur).2.1 h ht
  · exact of_isMcc hm fun p c hcur => (halt_mcc hcur).2.2 h hb
  · exact of_isCtl hc fun p i hcur => (halt_ctl hcur).1 h
  · exact of_isCtl hc fun p i hcur => (halt_ctl hcur).2 h
end

section
/-! SUPPORT. O8: system registers read (R114, R115, R341). -/

open Sys2Proof.Claims

namespace Sys2Proof.Machine

set_option Elab.async false

theorem mfsOk_iff (n : Nat) : mfsOk n = true ↔ readable n := by simp [mfsOk, readable, or_assoc]

theorem mtsOk_iff (n : Nat) : mtsOk n = true ↔ writable n := by simp [mtsOk, writable, or_assoc]

theorem sysPriv_iff (n : Nat) : sysPriv n = true ↔ privateRead n := by simp [sysPriv, privateRead]

theorem isTrapReg_iff (n : Nat) : isTrapReg n = true ↔ 0x11 ≤ n ∧ n ≤ 0x13 := decide_eq_true_iff

theorem toNat_number {n : Nat} (h : n < 2 ^ 14) : (BitVec.ofNat 14 n).toNat = n := by rw [BitVec.toNat_ofNat, Nat.mod_eq_of_lt h]

theorem readable_lt {n : Nat} (h : readable n) : n < 2 ^ 14 := by unfold readable at h; omega

theorem writable_lt {n : Nat} (h : writable n) : n < 2 ^ 14 := by unfold writable at h; omega

theorem readable_of_private {n : Nat} (h : privateRead n) : readable n := by unfold privateRead at h; unfold readable; omega

section
variable {s : State} {d : SReg} {n : Nat}

/-- `MFS` of a number that it accepts. -/
theorem exec_mfs (hn : readable n) : exec (.mfs d (BitVec.ofNat 14 n)) s = finish s (do
    raiseIf (sysPriv n && !sysMode s s.cur) .priv 0
    if isTrapReg n && trapRegBad s s.cur then .ok (areaFault s.cur stMemerr (recordBase s s.cur) s)
    else .ok (advance 4 (setReg d (readSys s n) s))) := by
  change execMfs d (BitVec.ofNat 14 n) s = _
  rw [execMfs, toNat_number (readable_lt hn), raiseIf_passes (by rw [(mfsOk_iff n).mpr hn]; rfl)]

theorem mfs_reads (hn : readable n) (hp : privateRead n → sysMode s s.cur = true) (hs : 0x11 ≤ n → n ≤ 0x13 → trapRegBad s s.cur = false) :
    Sets (.mfs d (BitVec.ofNat 14 n)) s d (readSys s n) 4 := by
  refine sets_of ?_
  have hpriv : (sysPriv n && !sysMode s s.cur) = false := by
    rw [Bool.and_eq_false_imp]
    intro h
    rw [hp ((sysPriv_iff n).mp h)]
    rfl
  have hbad : (isTrapReg n && trapRegBad s s.cur) = false := by
    rw [Bool.and_eq_false_imp]
    intro h
    obtain ⟨h1, h2⟩ := (isTrapReg_iff n).mp h
    exact hs h1 h2
  rw [exec_mfs hn, raiseIf_passes hpriv, hbad]
  rfl

/-- A number of `MFS` reads a value: where it may be read, and holds no error, the instruction delivers it. -/
def MfsReads (d : SReg) (s : State) (n : Nat) (v : Word64) : Prop :=
  (privateRead n → sysMode s s.cur = true) → (0x11 ≤ n → n ≤ 0x13 → trapRegBad s s.cur = false) → Sets (.mfs d (BitVec.ofNat 14 n)) s d v 4

theorem mfsReads_of (hn : readable n) {v : Word64} (hv : readSys s n = v) : MfsReads d s n v := fun hp hs => hv ▸ mfs_reads hn hp hs

theorem mfs_illegal (h : n < 2 ^ 14) (hn : ¬readable n) : Traps (.mfs d (BitVec.ofNat 14 n)) s .illegal 0 0 := by
  change execMfs d (BitVec.ofNat 14 n) s = _
  rw [execMfs, toNat_number h, raiseIf_stops (by rw [Bool.eq_false_iff.mpr (mt (mfsOk_iff n).mp hn)]; rfl)]
  rfl

theorem mfs_priv (h : privateRead n) (hs : sysMode s s.cur = false) : Traps (.mfs d (BitVec.ofNat 14 n)) s .priv 0 0 := by
  rw [Traps, exec_mfs (readable_of_private h), raiseIf_stops (by rw [(sysPriv_iff n).mpr h, hs]; rfl)]
  rfl

theorem mfs_error (h1 : 0x11 ≤ n) (h2 : n ≤ 0x13) (hb : trapRegBad s s.cur = true) (hs : sysMode s s.cur = true) :
    exec (.mfs d (BitVec.ofNat 14 n)) s = .next (areaFault s.cur 7 (recordBase s s.cur) s) := by
  rw [exec_mfs (readable_of_private (by unfold privateRead; omega)), raiseIf_passes (by rw [hs, Bool.not_true, Bool.and_false]),
    (isTrapReg_iff n).mpr ⟨h1, h2⟩, hb]
  rfl

/-! The registers of each kind of unit (R25, R115). -/

theorem readSys_slot (s : State) (i : Nat) : readSys s (0x40 + i) = (Vec.get (selfCtx s).slots i).zeroExtend 64 := by
  rw [Nat.add_comm]
  rfl

theorem readable_slot {i : Nat} (h : i < 16) : readable (0x40 + i) := by unfold readable; omega

/-- A state is one whose running agent has been named. -/
theorem eq_running {ag : Agent} (hc : s.cur = ag) : s = { s with cur := ag } := by
  subst hc
  rfl

theorem groupIdentity {p c w : Nat} (hc : s.cur = .group p c w) : GroupIdentity s p c w (MfsReads d s) := by
  obtain ⟨t, rfl⟩ : ∃ t, s = { t with cur := .group p c w } := ⟨s, eq_running hc⟩
  refine ⟨mfsReads_of (by simp [readable]) rfl, mfsReads_of (by simp [readable]) rfl, mfsReads_of (by simp [readable]) rfl, mfsReads_of (by simp [readable]) rfl,
    mfsReads_of (by simp [readable]) rfl, mfsReads_of (by simp [readable]) rfl, mfsReads_of (by simp [readable]) rfl,
    mfsReads_of (by simp [readable]) ?_, mfsReads_of (by simp [readable]) rfl, mfsReads_of (by simp [readable]) rfl, mfsReads_of (by simp [readable]) rfl,
    mfsReads_of (by simp [readable]) rfl, mfsReads_of (by simp [readable]) rfl, mfsReads_of (by simp [readable]) rfl, mfsReads_of (by simp [readable]) rfl,
    mfsReads_of (by simp [readable]) rfl, fun i hi => mfsReads_of (readable_slot hi) (readSys_slot _ i)⟩
  exact BitVec.ofNat_toNat _ _

theorem mccIdentity {p c : Nat} (hc : s.cur = .mcc p c) : MccIdentity s p c (MfsReads d s) := by
  obtain ⟨t, rfl⟩ : ∃ t, s = { t with cur := .mcc p c } := ⟨s, eq_running hc⟩
  refine ⟨mfsReads_of (by simp [readable]) rfl, mfsReads_of (by simp [readable]) rfl, mfsReads_of (by simp [readable]) rfl, mfsReads_of (by simp [readable]) rfl,
    mfsReads_of (by simp [readable]) rfl, mfsReads_of (by simp [readable]) rfl, mfsReads_of (by simp [readable]) rfl,
    mfsReads_of (by simp [readable]) rfl, fun l hl => ?_, mfsReads_of (by simp [readable]) rfl, mfsReads_of (by simp [readable]) rfl, mfsReads_of (by simp [readable]) rfl,
    mfsReads_of (by simp [readable]) rfl, mfsReads_of (by simp [readable]) rfl⟩
  have hl' : (t.mcc (p, c)).launch = some l := hl
  have hlaunch : launchOf { t with cur := .mcc p c } (.mcc p c) = some l := hl
  refine ⟨mfsReads_of (by simp [readable]) ?_, mfsReads_of (by simp [readable]) ?_, mfsReads_of (by simp [readable]) ?_, fun i hi => mfsReads_of (readable_slot hi) ?_⟩
  · simp only [readSys, hlaunch]
    exact BitVec.ofNat_toNat _ _
  · simp only [readSys, hlaunch]
    rfl
  · simp only [readSys, hlaunch]
    rfl
  · rw [readSys_slot]
    simp only [selfCtx, ctxOf, hl]

theorem ctlIdentity {p i : Nat} (hc : s.cur = .ctl p i) : CtlIdentity s p i (MfsReads d s) := by
  obtain ⟨t, rfl⟩ : ∃ t, s = { t with cur := .ctl p i } := ⟨s, eq_running hc⟩
  exact ⟨mfsReads_of (by simp [readable]) rfl, mfsReads_of (by simp [readable]) rfl, mfsReads_of (by simp [readable]) rfl, mfsReads_of (by simp [readable]) rfl,
    mfsReads_of (by simp [readable]) rfl, mfsReads_of (by simp [readable]) rfl, mfsReads_of (by simp [readable]) rfl,
    mfsReads_of (by simp [readable]) rfl, mfsReads_of (by simp [readable]) rfl, mfsReads_of (by simp [readable]) rfl, mfsReads_of (by simp [readable]) rfl,
    mfsReads_of (by simp [readable]) rfl, mfsReads_of (by simp [readable]) rfl, mfsReads_of (by simp [readable]) rfl,
    fun j hj => mfsReads_of (readable_slot hj) (readSys_slot _ j)⟩

end

theorem systemRegistersRead : SystemRegistersRead := by
  intro s d
  refine ⟨fun n h hn => mfs_illegal h hn, fun n h hs => mfs_priv h hs, fun n h hs => ?_, mfsReads_of (by simp [readable]) rfl, mfsReads_of (by simp [readable]) rfl,
    mfsReads_of (by simp [readable]) rfl, mfsReads_of (by simp [readable]) rfl, mfsReads_of (by simp [readable]) rfl, fun n hn => ⟨_, mfsReads_of hn rfl⟩,
    fun p c w hc => groupIdentity hc, fun p c hc => mccIdentity hc, fun p i hc => ctlIdentity hc, decodes_of_encode rfl rfl (by decide)⟩
  simp only [Classical.not_imp, Bool.not_eq_false] at h
  obtain ⟨h1, h2, hb⟩ := h
  exact mfs_error h1 h2 hb hs

end Sys2Proof.Machine

end

section
/-! SUPPORT. O8, O16: what a commit of a quantum buffer leaves (R164, R246, R311). -/

open Sys2Proof.Claims

namespace Sys2Proof.Machine

set_option Elab.async false

/-- Only what a commit reaches differs: bytes and their bookkeeping, the clean, owned and shadowed lines of cores, what a stream
counts of its writes and what is posted to it, quantum buffers, scratchpads and the buffers that blocks hold. -/
structure OnlyCommit (s t : State) : Prop where
  rest : t = { s with
    streams := t.streams, groups := t.groups, blocks := t.blocks, past := t.past, cores := t.cores, mem := t.mem, lineKeys := t.lineKeys,
    early := t.early, owners := t.owners, annexed := t.annexed, serial := t.serial, stale := t.stale, bad := t.bad }
  streams : ∀ a, t.stream a = { s.stream a with
    st := (t.stream a).st, uw := (t.stream a).uw, stores := (t.stream a).stores, posted := (t.stream a).posted }
  groups : ∀ a, t.group a = { s.group a with qbuf := (t.group a).qbuf }
  buffers : ∀ a, (t.group a).qbuf = (s.group a).qbuf ∨ (t.group a).qbuf = ⟨[], []⟩
  blocks : ∀ b, t.block b = { s.block b with scratch := (t.block b).scratch, held := (t.block b).held }
  found : ∀ b, (Table.find? s.blocks b).isSome → (Table.find? t.blocks b).isSome

/-- A state that has the streams, groups and blocks of another. -/
theorem OnlyCommit.same {s t : State}
    (hr : t = { s with cores := t.cores, mem := t.mem, lineKeys := t.lineKeys, early := t.early, owners := t.owners, annexed := t.annexed,
                       serial := t.serial, stale := t.stale, bad := t.bad }) : OnlyCommit s t := by
  have hs : ∀ a, t.stream a = s.stream a := fun a => by rw [hr]; rfl
  have hg : ∀ a, t.group a = s.group a := fun a => by rw [hr]; rfl
  have hb : ∀ b, t.block b = s.block b := fun b => by rw [hr]; rfl
  refine ⟨?_, fun a => by rw [hs], fun a => by rw [hg], fun a => .inl (by rw [hg]), fun b => by rw [hb], fun b h => ?_⟩
  · rw [hr]
  · rw [hr]
    exact h

theorem OnlyCommit.refl (s : State) : OnlyCommit s s := .same rfl

section
variable {s u t : State}

theorem OnlyCommit.trans (h : OnlyCommit s u) (k : OnlyCommit u t) : OnlyCommit s t := by
  obtain ⟨hr, hs, hg, hq, hb, hf⟩ := h
  obtain ⟨kr, ks, kg, kq, kb, kf⟩ := k
  refine ⟨?_, fun a => ?_, fun a => ?_, fun a => ?_, fun b => ?_, fun b h => kf b (hf b h)⟩
  · rw [hr] at kr
    exact kr
  · have := ks a
    rw [hs a] at this
    exact this
  · have := kg a
    rw [hg a] at this
    exact this
  · obtain h | h := kq a
    · rw [h]
      exact hq a
    · exact .inr h
  · have := kb b
    rw [hb b] at this
    exact this

theorem OnlyCommit.cur (h : OnlyCommit s t) : t.cur = s.cur := by rw [h.rest]

theorem OnlyCommit.pkgs (h : OnlyCommit s t) : t.pkgs = s.pkgs := by rw [h.rest]

theorem OnlyCommit.self (h : OnlyCommit s t) :
    self t = { self s with st := (self t).st, uw := (self t).uw, stores := (self t).stores, posted := (self t).posted } := by
  rw [Machine.self, Machine.self, ← h.cur]
  exact h.streams t.cur

theorem onlyCommit_of_memory (h : OnlyMemory s t) : OnlyCommit s t := .same (by rw [h])

theorem onlyCommit_seqAll {α : Type} {f : α → State → State} (hf : ∀ a s, OnlyCommit s (f a s)) (l : List α) (s : State) : OnlyCommit s (seqAll f l s) :=
  seqAll_keeps (OnlyCommit s) f (fun a _ h => h.trans (hf a _)) l s (.refl s)

end

theorem onlyMemory_mapCore (k : Nat × Nat) (f : Core → Core) (s : State) : OnlyMemory s (mapCore k f s) := rfl

theorem onlyMemory_throughL1 (k : Nat × Nat) (ps : List Put) (s : State) : OnlyMemory s (throughL1 k ps s) := by
  unfold throughL1
  split
  · exact onlyMemory_mapCore _ _ s
  · exact .refl s

theorem onlyMemory_withCores (c : Table (Nat × Nat) Core) (s : State) : OnlyMemory s { s with cores := c } := rfl

theorem onlyMemory_ownLine (k : Nat × Nat) (line : Nat) (s : State) : OnlyMemory s (ownLine k line s) := by
  unfold ownLine
  split
  · exact .refl s
  · refine .trans (u := seqAll (fun c s => if c.1 = k then s else foldCoreLine line c s) s.cores s) (.seqAll (fun c s => ?_) _ s) ?_
    · split
      · exact .refl s
      · exact onlyMemory_foldCoreLine line c s
    · exact (onlyMemory_withCores _ _).trans (onlyMemory_mapCore _ _ _)

theorem onlyMemory_foldOther (k : Nat × Nat) (line std : Nat) (w : Word32) (s : State) : OnlyMemory s (foldOther k line std w s) := by
  unfold foldOther
  split
  · exact onlyMemory_foldCoreLine _ _ s
  · exact .refl s

theorem onlyMemory_shadowAdd (k : Nat × Nat) (key : Nat) (mat : Under) (std : Nat) (w x : Word32) (s : State) : OnlyMemory s (shadowAdd k key mat std w x s) := by
  unfold shadowAdd
  exact ((onlyMemory_ownLine k _ s).trans (onlyMemory_foldOther k _ std w _)).trans (onlyMemory_mapCore _ _ _)

theorem onlyMemory_contribute (k : Nat × Nat) (key : Nat) (mat : Under) (ftype : Nat) (x : Word32) (s : State) : OnlyMemory s (contribute k key mat ftype x s) := by
  unfold contribute
  split
  · exact (onlyMemory_ownLine k _ s).trans (onlyMemory_applyPuts _ _)
  · exact onlyMemory_shadowAdd k key mat ftype 0 x s

theorem onlyCommit_mapStream (ag : Agent) {f : Stream → Stream} (hf : ∀ x, f x = { x with st := (f x).st, uw := (f x).uw, stores := (f x).stores, posted := (f x).posted })
    (s : State) : OnlyCommit s (mapStream ag f s) := by
  refine ⟨rfl, fun a => ?_, fun _ => rfl, fun _ => .inl rfl, fun _ => rfl, fun _ h => h⟩
  by_cases ha : a = ag
  · subst ha
    rw [stream_mapStream_self]
    exact hf _
  · rw [stream_mapStream_other s f ha]

theorem onlyCommit_mapBlock (b : Nat) {f : Block → Block} (hf : ∀ x, f x = { x with scratch := (f x).scratch, held := (f x).held }) (s : State) :
    OnlyCommit s (mapBlock b f s) := by
  refine ⟨rfl, fun _ => rfl, fun _ => rfl, fun _ => .inl rfl, fun k => ?_, fun k h => found_mapBlock_any b h f⟩
  obtain h | h := block_mapBlock s b k f
  · rw [h]
  · rw [h]
    exact hf _

theorem onlyCommit_applyPut (blk : Option Nat) (p : Put) (s : State) : OnlyCommit s (applyPut blk p s) := by
  unfold applyPut
  split
  · exact onlyCommit_of_memory (onlyMemory_writeByte _ _ _ s)
  · split
    · exact onlyCommit_mapBlock _ (fun _ => rfl) s
    · exact .refl s

theorem onlyCommit_applyPuts (blk : Option Nat) (ps : List Put) (s : State) : OnlyCommit s (applyPuts blk ps s) := by
  obtain ⟨early, stale, bad, h⟩ := applyPuts_eq blk ps s
  rw [h]
  exact ((onlyCommit_of_memory (onlyMemory_foldKeys _ s)).trans (onlyCommit_seqAll (onlyCommit_applyPut blk) ps _)).trans (.same rfl)

theorem onlyCommit_writeBuffer (k : Nat × Nat) (blk : Nat) (puts : List Put) (ps : List Partial) (s : State) : OnlyCommit s (writeBuffer k blk puts ps s) :=
  ((onlyCommit_applyPuts (some blk) puts s).trans (onlyCommit_of_memory (onlyMemory_throughL1 k puts _))).trans
    (onlyCommit_seqAll (fun (p : Partial) s => onlyCommit_of_memory (onlyMemory_contribute k p.key p.mat p.ftype p.val s)) _ _)

/-- The buffer of a group emptied. -/
theorem onlyCommit_drop (ag : Agent) (s : State) : OnlyCommit s (mapGroup ag (fun g => { g with qbuf := ⟨[], []⟩ }) s) := by
  have hg (a : Agent) : (mapGroup ag (fun g => { g with qbuf := ⟨[], []⟩ }) s).group a = if a = ag then { s.group ag with qbuf := ⟨[], []⟩ } else s.group a := by
    split
    next h => rw [h]; exact group_setGroup_self s ag _
    next h => exact group_setGroup_other s _ h
  refine ⟨rfl, fun _ => rfl, fun a => ?_, fun a => ?_, fun _ => rfl, fun _ h => h⟩
  · rw [hg]
    split
    next h => rw [h]
    next => rfl
  · rw [hg]
    split
    next => exact .inr rfl
    next => exact .inl rfl

theorem onlyCommit_emptyBuffer (ag : Agent) (s : State) : OnlyCommit s (emptyBuffer ag s) :=
  (onlyCommit_drop ag s).trans (.same rfl)

theorem onlyCommit_issueStore (ag : Agent) (op : StoreOp) (ps : List Put) (s : State) : OnlyCommit s (issueStore ag op ps s) := by
  unfold issueStore
  dsimp only
  split
  · exact onlyCommit_mapStream ag (fun _ => rfl) s
  · exact (onlyCommit_mapStream ag (fun _ => rfl) s).trans (.same rfl)

theorem onlyCommit_commitBuffer (ag : Agent) (s : State) : OnlyCommit s (commitBuffer ag s) := by
  unfold commitBuffer
  split
  · dsimp only
    split
    · exact .refl s
    · refine .trans ?_ (onlyCommit_issueStore _ _ _ _)
      split
      · exact (onlyCommit_writeBuffer _ _ _ _ s).trans (onlyCommit_emptyBuffer _ _)
      · exact ((onlyCommit_writeBuffer _ _ _ _ s).trans (onlyCommit_emptyBuffer _ _)).trans (onlyCommit_mapStream _ (fun _ => rfl) _)
  · exact .refl s

theorem onlyCommit_early (e : List EarlyWord) (s : State) : OnlyCommit s { s with early := e } := .same rfl

theorem onlyCommit_commitOwn (ag : Agent) (s : State) : OnlyCommit s (commitOwn ag s) := by
  unfold commitOwn
  split
  · dsimp only
    split
    · exact .refl s
    · exact ((onlyCommit_of_memory (onlyMemory_foldKeys _ s)).trans (onlyCommit_commitBuffer _ _)).trans (onlyCommit_early _ _)
  · exact .refl s

/-! A commit of a block (R164, R314). -/

theorem onlyCommit_restoreWord (k : Nat × Nat) (w : EarlyWord) (s : State) : OnlyCommit s (restoreWord k w s) := by
  unfold restoreWord
  cases w.loc with
  | phys a =>
    dsimp only
    split
    · exact onlyCommit_of_memory (onlyMemory_writeRange _ _ _ s)
    · exact (onlyCommit_of_memory (onlyMemory_writeRange _ _ _ s)).trans (onlyCommit_of_memory (onlyMemory_mapCore _ _ _))
  | scr o =>
    dsimp only
    split
    · exact onlyCommit_mapBlock _ (fun _ => rfl) s
    · exact (onlyCommit_mapBlock _ (fun _ => rfl) s).trans (onlyCommit_of_memory (onlyMemory_mapCore _ _ _))

theorem onlyCommit_redoMove (k : Nat × Nat) (blk : Nat) (m : Move) (s : State) : OnlyCommit s (redoMove k blk m s) := by
  unfold redoMove
  split
  · refine .trans ?_ (onlyCommit_applyPut _ _ _)
    split
    · exact .refl s
    · exact onlyCommit_of_memory (onlyMemory_foldKeys _ s)
  · split
    · exact onlyCommit_of_memory (onlyMemory_writeRange _ _ _ s)
    · exact onlyCommit_of_memory (onlyMemory_shadowAdd _ _ _ _ _ _ s)

theorem onlyCommit_undoWord (k : Nat × Nat) (moved : List (Nat × EarlyWord × EarlyOp)) (w : EarlyWord) (s : State) : OnlyCommit s (undoWord k moved w s) :=
  (onlyCommit_restoreWord k w s).trans (onlyCommit_seqAll (fun (o : EarlyOp) s => onlyCommit_redoMove k w.block o.move s) _ _)

theorem onlyCommit_writeHeld (k : Nat × Nat) (blk : Nat) (h : Nat × Agent × QBuf) (s : State) : OnlyCommit s (writeHeld k blk h s) :=
  (onlyCommit_writeBuffer _ _ _ _ s).trans (onlyCommit_of_memory (onlyMemory_annexCopy _ _))

theorem onlyCommit_commitTurn (k : Nat × Nat) (blk : Nat) (moved : List (Nat × EarlyWord × EarlyOp)) (held : List (Nat × Agent × QBuf)) (ags : List Agent)
    (i : Nat) (s : State) : OnlyCommit s (commitTurn k blk moved held ags i s) := by
  refine ((onlyCommit_seqAll (onlyCommit_writeHeld k blk) _ s).trans (onlyCommit_seqAll (fun a s => ?_) ags _)).trans
    (onlyCommit_seqAll (fun (m : Nat × EarlyWord × EarlyOp) s => onlyCommit_redoMove k blk m.2.2.move s) _ _)
  split
  · exact onlyCommit_commitBuffer a s
  · exact .refl s

theorem onlyMemory_dropClean (k : Nat × Nat) (s : State) : OnlyMemory s (dropClean k s) := by
  unfold dropClean
  split
  · exact .refl s
  · exact onlyMemory_mapCore _ _ s

theorem onlyCommit_commitBlock (blk : Nat) (ags : List Agent) (s : State) : OnlyCommit s (commitBlock blk ags s) := by
  unfold commitBlock
  dsimp only
  refine .trans ?_ ((onlyCommit_mapBlock blk (f := fun x => { x with held := [] }) (fun _ => rfl) _).trans (onlyCommit_early _ _))
  split
  · exact (onlyCommit_seqAll (onlyCommit_undoWord _ _) _ s).trans (onlyCommit_seqAll (onlyCommit_commitTurn _ blk _ _ ags) _ _)
  · exact ((onlyCommit_seqAll (onlyCommit_undoWord _ _) _ s).trans (onlyCommit_seqAll (onlyCommit_commitTurn _ blk _ _ ags) _ _)).trans
      ((onlyCommit_of_memory (onlyMemory_annexCopy _ _)).trans (onlyCommit_of_memory (onlyMemory_dropClean _ _)))

end Sys2Proof.Machine

end

section
/-! SUPPORT. O8: system registers written (R114, R116, R294, R341). -/

open Sys2Proof.Claims

namespace Sys2Proof.Machine

set_option Elab.async false

section
variable {s t : State} {a : SReg} {n : Nat}

/-! The checks of `MTS`. -/

theorem exec_mts (hn : writable n) (hslot : 0x40 ≤ n → isCtl s.cur = true) : exec (.mts a (BitVec.ofNat 14 n)) s = finish s (do
    raiseIf (!sysMode s s.cur) .priv 0
    let s ← writeSys n (reg s a) s
    .ok (advance 4 s)) := by
  have hok : (!mtsOk n || (decide (0x40 ≤ n) && !isCtl s.cur)) = false := by
    rw [(mtsOk_iff n).mpr hn, Bool.not_true, Bool.false_or, Bool.and_eq_false_imp]
    intro h
    rw [hslot (of_decide_eq_true h)]
    rfl
  change execMts a (BitVec.ofNat 14 n) s = _
  rw [execMts, toNat_number (writable_lt hn), raiseIf_passes hok]

theorem mts_illegal (h : n < 2 ^ 14) (hn : ¬writable n ∨ (0x40 ≤ n ∧ isCtl s.cur = false)) : Traps (.mts a (BitVec.ofNat 14 n)) s .illegal 0 0 := by
  have hbad : (!mtsOk n || (decide (0x40 ≤ n) && !isCtl s.cur)) = true := by
    rw [Bool.or_eq_true]
    refine hn.imp (fun hn => ?_) fun ⟨h40, hc⟩ => ?_
    · rw [Bool.eq_false_iff.mpr (mt (mtsOk_iff n).mp hn)]
      rfl
    · rw [decide_eq_true h40, hc]
      rfl
  change execMts a (BitVec.ofNat 14 n) s = _
  rw [execMts, toNat_number h, raiseIf_stops hbad]
  rfl

theorem mts_priv (hn : writable n) (hslot : 0x40 ≤ n → isCtl s.cur = true) (hs : sysMode s s.cur = false) : Traps (.mts a (BitVec.ofNat 14 n)) s .priv 0 0 := by
  rw [Traps, exec_mts hn hslot, raiseIf_stops (by rw [hs]; rfl)]
  rfl

section
variable (hs : sysMode s s.cur = true)
include hs

theorem mts_sets (hn : writable n) (hslot : 0x40 ≤ n → isCtl s.cur = true) {u : State} (hw : writeSys n (reg s a) s = .ok u) :
    exec (.mts a (BitVec.ofNat 14 n)) s = .next (advance 4 u) := by
  rw [exec_mts hn hslot, raiseIf_passes (by rw [hs]; rfl), hw]
  rfl

theorem mts_rejects (hn : writable n) (hslot : 0x40 ≤ n → isCtl s.cur = true) (hw : writeSys n (reg s a) s = raise .illegal 0) :
    Traps (.mts a (BitVec.ofNat 14 n)) s .illegal 0 0 := by
  rw [Traps, exec_mts hn hslot, raiseIf_passes (by rw [hs]; rfl), hw]
  rfl

end

/-! A change of another part commutes with the end of the instruction. -/

theorem advance_withCores (n : Nat) (x : Table (Nat × Nat) Core) (s : State) : advance n { s with cores := x } = { advance n s with cores := x } := by
  unfold advance goto retire
  simp only [mapSelf, mapStream, State.setStream]
  split <;> rfl

theorem advance_withMccs (n : Nat) (x : Table (Nat × Nat) Mcc) (s : State) : advance n { s with mccs := x } = { advance n s with mccs := x } := by
  unfold advance goto retire
  simp only [mapSelf, mapStream, State.setStream]
  split <;> rfl

theorem advance_withCtls (n : Nat) (x : Table (Nat × Nat) Ctl) (s : State) : advance n { s with ctls := x } = { advance n s with ctls := x } := by
  unfold advance goto retire
  simp only [mapSelf, mapStream, State.setStream]
  split <;> rfl

theorem mcc_setMcc_self (s : State) (k : Nat × Nat) (x : Mcc) : (s.setMcc k x).mcc k = x := by simp [State.mcc]

theorem mcc_setMcc_other (s : State) {k j : Nat × Nat} (x : Mcc) (h : j ≠ k) : (s.setMcc k x).mcc j = s.mcc j := by
  simp [State.mcc, Table.findD_put_other _ _ _ h]

/-! The bases (R116, R341). -/

/-- The three bases of the running agent's unit once `setBase` has set one. -/
def baseAfter (n m : Nat) (v old : Word64) : Word64 := if n = m then v else old

section
variable {v : Word64} (hn : n = 0x10 ∨ n = 0x14 ∨ n = 0x17)
include hn

theorem core_setBase (x : Core) : (if n = 0x10 then { x with trapbase := v } else if n = 0x14 then { x with sidebuf := v } else { x with savebase := v }) =
    { x with trapbase := baseAfter n 0x10 v x.trapbase, sidebuf := baseAfter n 0x14 v x.sidebuf, savebase := baseAfter n 0x17 v x.savebase } := by
  obtain rfl | rfl | rfl := hn <;> rfl

theorem mcc_setBase (x : Mcc) : (if n = 0x10 then { x with trapbase := v } else if n = 0x14 then { x with sidebuf := v } else { x with savebase := v }) =
    { x with trapbase := baseAfter n 0x10 v x.trapbase, sidebuf := baseAfter n 0x14 v x.sidebuf, savebase := baseAfter n 0x17 v x.savebase } := by
  obtain rfl | rfl | rfl := hn <;> rfl

theorem basesAre_setBase : BasesAre s (advance 4 (setBase n v s))
    (baseAfter n 0x10 v (trapBaseOf s s.cur)) (baseAfter n 0x14 v (sideBase s s.cur)) (baseAfter n 0x17 v (saveBase s s.cur)) := by
  cases hc : s.cur with
  | group p c w =>
    obtain ⟨t, rfl⟩ : ∃ t, s = { t with cur := .group p c w } := ⟨s, eq_running hc⟩
    refine ⟨advance_withCores 4 _ _, ?_, fun k hk => ?_⟩
    · exact (congrArg (fun u : State => u.core (p, c)) (advance_withCores 4 _ _)).trans ((core_setCore_self t (p, c) _).trans (core_setBase hn _))
    · exact (congrArg (fun u : State => u.core k) (advance_withCores 4 _ _)).trans (core_setCore_other t _ hk)
  | mcc p c =>
    obtain ⟨t, rfl⟩ : ∃ t, s = { t with cur := .mcc p c } := ⟨s, eq_running hc⟩
    refine ⟨advance_withMccs 4 _ _, ?_, fun k hk => ?_⟩
    · exact (congrArg (fun u : State => u.mcc (p, c)) (advance_withMccs 4 _ _)).trans ((mcc_setMcc_self t (p, c) _).trans (mcc_setBase hn _))
    · exact (congrArg (fun u : State => u.mcc k) (advance_withMccs 4 _ _)).trans (mcc_setMcc_other t _ hk)
  | ctl p i =>
    obtain ⟨t, rfl⟩ : ∃ t, s = { t with cur := .ctl p i } := ⟨s, eq_running hc⟩
    by_cases h : n = 0x10
    · subst h
      refine ⟨advance_withCtls 4 _ _, ?_, fun k hk => ?_⟩
      · exact (congrArg (fun u : State => u.ctl (p, i)) (advance_withCtls 4 _ _)).trans (ctl_setCtl_self t (p, i) _)
      · exact (congrArg (fun u : State => u.ctl k) (advance_withCtls 4 _ _)).trans (ctl_setCtl_other t _ hk)
    · have hset : setBase n v { t with cur := .ctl p i } = { t with cur := .ctl p i } := if_neg h
      rw [hset, baseAfter, if_neg h]
      exact ⟨rfl, rfl, fun _ _ => rfl⟩

end

/-! The page-table root and the context (R430). -/

/-- The end of an instruction of a group whose block is placed. -/
theorem advance_of_found {p c w b : Nat} {x : Block} (hc : s.cur = .group p c w) (hb : (selfGroup s).block = b) (hx : Table.find? s.blocks b = some x) (n : Nat) :
    advance n s = { mapSelf (fun y => { y with spc := (self s).spc + BitVec.ofNat 64 n }) s with blocks := Table.put s.blocks b { x with rt := x.rt + 1 } } := by
  subst hb
  obtain ⟨t, rfl⟩ : ∃ t, s = { t with cur := .group p c w } := ⟨s, eq_running hc⟩
  exact mapBlock_of_find (s := mapSelf (fun y => { y with spc := (self { t with cur := .group p c w }).spc + BitVec.ofNat 64 n }) { t with cur := .group p c w }) hx _

section
variable {pt : Word64} {cx : Word32}

theorem contextIs_mapBlock {p c w : Nat} (hc : s.cur = .group p c w) {f : Block → Block}
    (hf : f (s.block (selfGroup s).block) = { s.block (selfGroup s).block with ptbase := pt, ctxid := cx }) :
    ContextIs s (advance 4 (mapBlock (selfGroup s).block f s)) pt cx := by
  rw [ContextIs, hc]
  generalize hb : (selfGroup s).block = b at hf ⊢
  intro hfound
  obtain ⟨x, hx⟩ := Option.isSome_iff_exists.mp hfound
  rw [block_of_find hx] at hf
  have hadv := advance_of_found hc hb hx 4
  have hset := mapBlock_of_find hx f
  have ht := advance_of_found (s := { s with blocks := Table.put s.blocks b (f x) }) hc hb (Table.find?_put_self _ _ _) 4
  dsimp only at ht
  rw [Table.put_put] at ht
  rw [hset, ht, hadv, hf]
  refine ⟨rfl, ?_, fun k hk => ?_⟩
  · simp only [State.block, Table.findD_put_self]
  · simp only [State.block, Table.findD_put_other _ _ _ hk]
    rfl

theorem contextIs_mapMcc {p c : Nat} (hc : s.cur = .mcc p c) {f : Mcc → Mcc} (hf : f (s.mcc (p, c)) = { s.mcc (p, c) with ptbase := pt, ctxid := cx }) :
    ContextIs s (advance 4 (mapMcc (p, c) f s)) pt cx := by
  rw [ContextIs, hc]
  have hadv : advance 4 (mapMcc (p, c) f s) = { advance 4 s with mccs := Table.put s.mccs (p, c) (f (s.mcc (p, c))) } := advance_withMccs 4 _ s
  rw [hadv]
  exact ⟨rfl, (mcc_setMcc_self s (p, c) _).trans hf, fun k hk => mcc_setMcc_other s _ hk⟩

theorem contextIs_mapCtl {p i : Nat} (hc : s.cur = .ctl p i) {f : Ctl → Ctl} (hf : f (s.ctl (p, i)) = { s.ctl (p, i) with ptbase := pt, ctxid := cx }) :
    ContextIs s (advance 4 (mapCtl (p, i) f s)) pt cx := by
  rw [ContextIs, hc]
  have hadv : advance 4 (mapCtl (p, i) f s) = { advance 4 s with ctls := Table.put s.ctls (p, i) (f (s.ctl (p, i))) } := advance_withCtls 4 _ s
  rw [hadv]
  exact ⟨rfl, (ctl_setCtl_self s (p, i) _).trans hf, fun k hk => ctl_setCtl_other s _ hk⟩

end

theorem contextIs_setPtbase (v : Word64) (s : State) : ContextIs s (advance 4 (setPtbase v s)) v (selfCtx s).ctxid := by
  cases hc : s.cur with
  | group p c w =>
    rw [setPtbase, hc, selfCtx, hc]
    exact contextIs_mapBlock hc (by rw [ctxOf, ← hc]; rfl)
  | mcc p c =>
    rw [setPtbase, hc, selfCtx, hc]
    exact contextIs_mapMcc hc rfl
  | ctl p i =>
    rw [setPtbase, hc, selfCtx, hc]
    exact contextIs_mapCtl hc rfl

theorem contextIs_setCtxid (v : Word32) (s : State) : ContextIs s (advance 4 (setCtxid v s)) (selfCtx s).ptbase v := by
  cases hc : s.cur with
  | group p c w =>
    rw [setCtxid, hc, selfCtx, hc]
    exact contextIs_mapBlock hc (by rw [ctxOf, ← hc]; rfl)
  | mcc p c =>
    rw [setCtxid, hc, selfCtx, hc]
    exact contextIs_mapMcc hc rfl
  | ctl p i =>
    rw [setCtxid, hc, selfCtx, hc]
    exact contextIs_mapCtl hc rfl

/-! The registers of the stream (R25, R116). -/

/-- A change of the running stream that ends its instruction. -/
theorem streamStep_advance_mapSelf (n : Nat) (f : Stream → Stream) (s : State) : StreamStep s (advance n (mapSelf f s)) := streamStep_goto _ f s

theorem setMode_eq (v : Word64) (s : State) {b : State} (hb : b = if v.getLsbD 1 = (self s).mode.getLsbD 1 then s else commitOwn s.cur s) :
    setMode v s = mapSelf (fun x => { x with mode := v.setWidth 8 }) b := by
  unfold setMode
  subst hb
  dsimp only
  by_cases h : v.getLsbD 1 = (self s).mode.getLsbD 1
  · rw [if_pos h, if_neg (not_not.mpr h)]
  · rw [if_neg h, if_pos h]

theorem self_ifCommit {c : Prop} [Decidable c] (s : State) : (self (if c then s else commitOwn s.cur s)).spc = (self s).spc := by
  split
  · rfl
  · rw [(onlyCommit_commitOwn s.cur s).self]

/-! The ranges (R25, R116, R294, R341). -/

/-- An address lies in control space below 2^52 (R26). -/
theorem spaceOf_control_iff {v : Word64} : (∃ o, spaceOf v = some (.control o)) ↔ v.toNat < 2 ^ 52 := by
  have hv := v.isLt
  have htop : (v.extractLsb' 62 2).toNat = v.toNat / 2 ^ 62 % 4 := by rw [BitVec.extractLsb'_toNat, Nat.shiftRight_eq_div_pow]
  have hmid : v.extractLsb' 52 10 = 0 ↔ v.toNat / 2 ^ 52 % 2 ^ 10 = 0 := by
    rw [← BitVec.toNat_inj, BitVec.extractLsb'_toNat, Nat.shiftRight_eq_div_pow]
    rfl
  refine ⟨fun ⟨o, h⟩ => ?_, fun h => ?_⟩
  · unfold spaceOf at h
    split at h
    · rename_i h0
      split at h
      · rename_i hm
        rw [htop] at h0
        rw [hmid] at hm
        omega
      · cases h
    · cases h
    · split at h <;> cases h
    · cases h
  · have h0 : (v.extractLsb' 62 2).toNat = 0 := by omega
    have hm : v.extractLsb' 52 10 = 0 := hmid.mpr (by omega)
    unfold spaceOf
    rw [h0]
    exact ⟨_, if_pos hm⟩

theorem baseOk_iff {align : Nat} {v : Word64} : baseOk align v = true ↔ controlBase align v := by
  rw [baseOk, Bool.and_eq_true, beq_iff_eq, and_comm]
  refine and_congr_left fun _ => Iff.trans ?_ spaceOf_control_iff
  cases spaceOf v with
  | none => simp
  | some sp => cases sp <;> simp

theorem ptbaseOk_iff {p : Nat} {v : Word64} : ptbaseOk p v = true ↔ PtbaseLegal p v := by
  simp [ptbaseOk, PtbaseLegal, and_assoc]

theorem modeBad_iff {v : Word64} : (v.toNat % 256 / 4 != 0 || !v.getLsbD 0) = true ↔ v.extractLsb' 2 6 ≠ 0 ∨ v.getLsbD 0 = false := by
  have hbits : v.extractLsb' 2 6 = 0 ↔ v.toNat % 256 / 4 = 0 := by
    rw [← BitVec.toNat_inj, BitVec.extractLsb'_toNat, Nat.shiftRight_eq_div_pow]
    change _ = 0 ↔ _
    omega
  rw [Bool.or_eq_true, bne_iff_ne, Bool.not_eq_true', ne_eq, ne_eq, hbits]

/-! What `MTS` does to each register. -/

/-- The numbers that `MTS` accepts below the format slots. -/
def Low (n : Nat) : Prop := n = 0x0E ∨ (0x10 ≤ n ∧ n ≤ 0x17)

theorem Low.writable (h : Low n) : writable n := h.imp_right .inl

theorem Low.slot {P : Prop} (h : Low n) : 0x40 ≤ n → P := by unfold Low at h; omega

theorem mts_sets_low (hs : sysMode s s.cur = true) (hn : Low n) {u : State} (hw : writeSys n (reg s a) s = .ok u) :
    exec (.mts a (BitVec.ofNat 14 n)) s = .next (advance 4 u) := mts_sets hs hn.writable hn.slot hw

theorem mts_rejects_low (hs : sysMode s s.cur = true) (hn : Low n) (hw : writeSys n (reg s a) s = raise .illegal 0) :
    Traps (.mts a (BitVec.ofNat 14 n)) s .illegal 0 0 := mts_rejects hs hn.writable hn.slot hw

/-- A register of the stream set by `MTS`. -/
theorem mts_stream (hs : sysMode s s.cur = true) (hn : Low n) {f : Stream → Stream} {b : State} (hw : writeSys n (reg s a) s = .ok (mapSelf f b)) :
    ∃ t, exec (.mts a (BitVec.ofNat 14 n)) s = .next t ∧ StreamStep b t ∧ self t = { f (self b) with spc := (f (self b)).spc + 4 } := by
  refine ⟨_, mts_sets_low hs hn hw, streamStep_advance_mapSelf 4 f b, ?_⟩
  rw [self_advance, self_mapSelf]
  rfl

theorem writeSys_mode {v : Word64} (h : v.extractLsb' 2 6 = 0 ∧ v.getLsbD 0 = true) : writeSys 0x0E v s = .ok (setMode v s) := by
  have hok : (v.toNat % 256 / 4 != 0 || !v.getLsbD 0) = false := Bool.eq_false_iff.mpr fun hbad => by
    obtain h' | h' := modeBad_iff.mp hbad
    · exact h' h.1
    · rw [h.2] at h'; cases h'
  exact raiseIf_passes hok

theorem writeSys_slot {i : Nat} (v : Word64) : writeSys (0x40 + i) v s = (do
    raiseIf ((v.setWidth 32 : Word32) != 0 && !slotOk (v.setWidth 32)) .illegal 0
    .ok (mapPkg (agentPkg s.cur) (fun p => { p with fmtDefault := Vec.set p.fmtDefault i (v.setWidth 32) }) s)) := by
  rw [Nat.add_comm]
  rfl

theorem writable_slot {i : Nat} (h : i < 16) : writable (0x40 + i) := by unfold writable; omega

/-- A format slot of a control core's package (R72, R116). -/
theorem slotSet {p : Nat} {f : Package → Package} (s : State) :
    let t := advance 4 (mapPkg p f s)
    StreamStep { s with pkgs := t.pkgs } t ∧ self t = { self s with spc := (self s).spc + 4 } ∧ t.pkg p = f (s.pkg p) ∧ ∀ q, q ≠ p → t.pkg q = s.pkg q := by
  have h := streamStep_advance 4 (mapPkg p f s)
  have hpkgs : (advance 4 (mapPkg p f s)).pkgs = (mapPkg p f s).pkgs := by rw [h.rest]
  refine ⟨?_, ?_, ?_, fun q hq => ?_⟩
  · rw [hpkgs]
    exact h
  · rw [self_advance]
    rfl
  · rw [State.pkg, hpkgs]
    exact pkg_setPkg_self s p _
  · rw [State.pkg, hpkgs]
    exact pkg_setPkg_other s _ hq

end

theorem systemRegistersWrite : SystemRegistersWrite := by
  intro s a
  refine ⟨fun n h hn => mts_illegal h (.inl hn), fun n hn h hs => mts_priv hn (fun h' => absurd h (not_lt.mpr h')) hs, fun hs => ?_,
    fun hc i hi => mts_illegal (by omega) (.inr ⟨by omega, hc⟩), fun hc hs i hi => mts_priv (writable_slot hi) (fun _ => hc) hs⟩
  have low (n : Nat) (hn : n = 0x0E ∨ (0x10 ≤ n ∧ n ≤ 0x17)) : Low n := hn
  have hbase (n : Nat) (hn : n = 0x10 ∨ n = 0x14 ∨ n = 0x17) (hw : writeSys n (reg s a) s = .ok (setBase n (reg s a) s)) :
      ∃ t, exec (.mts a (BitVec.ofNat 14 n)) s = .next t ∧ BasesAre s t (baseAfter n 0x10 (reg s a) (trapBaseOf s s.cur))
        (baseAfter n 0x14 (reg s a) (sideBase s s.cur)) (baseAfter n 0x17 (reg s a) (saveBase s s.cur)) :=
    ⟨_, mts_sets_low hs (low n (by omega)) hw, basesAre_setBase hn⟩
  refine ⟨mts_stream hs (low 0x11 (by decide)) rfl, mts_stream hs (low 0x12 (by decide)) rfl, mts_stream hs (low 0x13 (by decide)) rfl,
    fun h => hbase 0x10 (.inl rfl) (raiseIf_passes (by rw [h]; rfl)),
    fun h => mts_rejects_low hs (low 0x10 (by decide)) (raiseIf_stops (bne_iff_ne.mpr h)),
    fun h => hbase 0x14 (.inr (.inl rfl)) (raiseIf_passes (by rw [baseOk_iff.mpr h]; rfl)),
    fun h => mts_rejects_low hs (low 0x14 (by decide)) (raiseIf_stops (by rw [Bool.eq_false_iff.mpr (mt baseOk_iff.mp h)]; rfl)),
    fun h => hbase 0x17 (.inr (.inr rfl)) (raiseIf_passes (by rw [baseOk_iff.mpr h]; rfl)),
    fun h => mts_rejects_low hs (low 0x17 (by decide)) (raiseIf_stops (by rw [Bool.eq_false_iff.mpr (mt baseOk_iff.mp h)]; rfl)),
    fun h => ⟨_, mts_sets_low hs (low 0x15 (by decide)) (raiseIf_passes (by rw [ptbaseOk_iff.mpr h]; rfl)), contextIs_setPtbase _ s⟩,
    fun h => mts_rejects_low hs (low 0x15 (by decide)) (raiseIf_stops (by rw [Bool.eq_false_iff.mpr (mt ptbaseOk_iff.mp h)]; rfl)),
    ⟨_, mts_sets_low hs (low 0x16 (by decide)) rfl, contextIs_setCtxid _ s⟩, fun b hb h2 h0 => ?_,
    fun h => mts_rejects_low hs (low 0x0E (by decide)) (raiseIf_stops (modeBad_iff.mpr h)), fun hc i hi h => ?_, fun hc i hi h0 h => ?_⟩
  · have hspc : (self b).spc = (self s).spc := by rw [hb, self_ifCommit]
    rw [← hspc]
    exact mts_stream hs (low 0x0E (by decide)) ((writeSys_mode ⟨h2, h0⟩).trans (congrArg _ (setMode_eq _ s hb)))
  · refine ⟨_, mts_sets hs (writable_slot hi) (fun _ => hc) ((writeSys_slot _).trans (raiseIf_passes ?_)), slotSet s⟩
    obtain h | h := h
    · rw [h]; rfl
    · rw [h, Bool.not_true, Bool.and_false]
  · refine mts_rejects hs (writable_slot hi) (fun _ => hc) ((writeSys_slot _).trans (raiseIf_stops ?_))
    rw [h, Bool.not_false, Bool.and_true]
    exact bne_iff_ne.mpr h0

end Sys2Proof.Machine

open Sys2Proof Sys2Proof.Machine Sys2Proof.Claims

/-- Settles O8: reads by the unit's kind, writes by the register's range. -/
theorem systemRegistersAreMoved : Obligations.SystemRegistersAreMoved := ⟨systemRegistersRead, systemRegistersWrite⟩
end

section
/-! SUPPORT. O16: block barriers (R165, R166). -/

open Sys2Proof.Claims

namespace Sys2Proof.Machine

set_option Elab.async false

section
variable {s t u : State} {a : SReg} {id cnt : BitVec 6}

/-! The checks of a barrier instruction (R91, R165, R180). -/

theorem drain_of_drained (h : Drained s) : drain s = .ok () := by
  unfold drain
  cases hg : isGroup s.cur with
  | false => rfl
  | true => rw [h hg]; rfl

theorem drain_of_not (h : ¬Drained s) : drain s = .error .stall := by
  unfold Drained at h
  push Not at h
  obtain ⟨hg, hq⟩ := h
  unfold drain
  rw [hg, bne_iff_ne.mpr hq]
  rfl

/-- What `barChecks` raises. -/
def BarTrap (id : BitVec 6) (n : Nat) (cls : TrapClass) (detail : Nat) (s : State) : Prop :=
  barChecks id n s = .error (.trap { cls := cls, detail := detail })

theorem barTrap_not_group {n : Nat} (h : isGroup s.cur = false) : BarTrap id n .sync 0x14 s := raiseIf_stops (by rw [h]; rfl)

theorem barChecks_group {n : Nat} (h : isGroup s.cur = true) : barChecks id n s = (do
    raiseIf (decide ((s.block (selfGroup s).block).nbar ≤ id.toNat)) .bound 5
    raiseIf (n == 0 || decide (32 < n) || decide ((s.block (selfGroup s).block).groups.length < n)) .sync 0x11
    .ok (s.block (selfGroup s).block)) := raiseIf_passes (by rw [h]; rfl)

theorem barTrap_bound {n : Nat} (h : isGroup s.cur = true) (hb : (s.block (selfGroup s).block).nbar ≤ id.toNat) : BarTrap id n .bound 5 s :=
  (barChecks_group h).trans (raiseIf_stops (decide_eq_true hb))

theorem barTrap_count {n : Nat} (h : isGroup s.cur = true) (hb : id.toNat < (s.block (selfGroup s).block).nbar)
    (hn : n = 0 ∨ 32 < n ∨ (s.block (selfGroup s).block).groups.length < n) : BarTrap id n .sync 0x11 s := by
  refine (barChecks_group h).trans ((raiseIf_passes (decide_eq_false (not_le.mpr hb))).trans ?_)
  exact raiseIf_stops (by simpa [or_assoc] using hn)

theorem barChecks_ok {n : Nat} (h : BarrierOk id.toNat n s) : barChecks id n s = .ok (s.block (selfGroup s).block) := by
  obtain ⟨hg, hid, h1, h32, hlen, -⟩ := h
  refine (barChecks_group hg).trans ((raiseIf_passes (decide_eq_false (not_le.mpr hid))).trans ?_)
  refine raiseIf_passes ?_
  simp only [Bool.or_eq_false_iff, beq_eq_false_iff_ne, decide_eq_false_iff_not]
  omega

/-! The three instructions past their checks. -/

theorem exec_barArr : exec (.barArr a id cnt) s = finish s (do
    drain s
    let _ ← barChecks id (barCount a cnt s) s
    stallIf ((self s).uw != 0)
    let t ← arrive id.toNat (barCount a cnt s) s
    .ok (advance 4 t)) := rfl

theorem exec_barWait : exec (.barWait a id cnt) s = finish s (do
    let _ ← barChecks id (barCount a cnt s) s
    barWait id.toNat (barCount a cnt s) s) := rfl

theorem exec_barSync_fresh (h : (self s).half = none) : exec (.barSync a id cnt) s = finish s (do
    drain s
    let b ← barChecks id (barCount a cnt s) s
    stallIf ((self s).uw != 0)
    let t ← arrive id.toNat (barCount a cnt s) s
    .ok (stuckBarriers (selfGroup t).block (mapSelf (fun y => { y with half := some (waitCode id.toNat (barrierAt b id.toNat).phase) }) t))) := by
  change execBarSync a id cnt s = _
  rw [execBarSync]
  dsimp only
  rw [h]

theorem exec_barSync_waiting {w : Nat} (h : (self s).half = some w) : exec (.barSync a id cnt) s = finish s (barWait id.toNat (barCount a cnt s) s) := by
  change execBarSync a id cnt s = _
  rw [execBarSync]
  dsimp only
  rw [h]

/-- A barrier instruction where the checks of its barrier raise. -/
theorem barTraps {cls : TrapClass} {detail : Nat} (h : BarTrap id (barCount a cnt s) cls detail s) :
    (Drained s → Traps (.barArr a id cnt) s cls detail 0 ∧ ((self s).half = none → Traps (.barSync a id cnt) s cls detail 0)) ∧
      Traps (.barWait a id cnt) s cls detail 0 := by
  unfold BarTrap at h
  refine ⟨fun hd => ⟨?_, fun hf => ?_⟩, ?_⟩
  · rw [Traps, exec_barArr, drain_of_drained hd, h]; rfl
  · rw [Traps, exec_barSync_fresh hf, drain_of_drained hd, h]; rfl
  · rw [Traps, exec_barWait, h]; rfl

theorem barStalls_of_not_drained (h : ¬Drained s) : exec (.barArr a id cnt) s = .next s ∧ ((self s).half = none → exec (.barSync a id cnt) s = .next s) := by
  refine ⟨?_, fun hf => ?_⟩
  · rw [exec_barArr, drain_of_not h]; rfl
  · rw [exec_barSync_fresh hf, drain_of_not h]; rfl

section
variable (hok : BarrierOk id.toNat (barCount a cnt s) s)
include hok

theorem barStalls_of_writes (huw : (self s).uw ≠ 0) :
    exec (.barArr a id cnt) s = .next s ∧ ((self s).half = none → exec (.barSync a id cnt) s = .next s) := by
  by_cases hd : Drained s
  · refine ⟨?_, fun hf => ?_⟩
    · rw [exec_barArr, drain_of_drained hd, barChecks_ok hok]
      exact congrArg (finish s) (stallIf_stops (bne_iff_ne.mpr huw))
    · rw [exec_barSync_fresh hf, drain_of_drained hd, barChecks_ok hok]
      exact congrArg (finish s) (stallIf_stops (bne_iff_ne.mpr huw))
  · exact barStalls_of_not_drained hd

theorem exec_barArr_ok (hd : Drained s) (huw : (self s).uw = 0) :
    exec (.barArr a id cnt) s = finish s (do let t ← arrive id.toNat (barCount a cnt s) s; .ok (advance 4 t)) := by
  rw [exec_barArr, drain_of_drained hd, barChecks_ok hok]
  exact congrArg (finish s) (stallIf_passes (by rw [huw]; rfl))

theorem exec_barSync_ok (hf : (self s).half = none) (hd : Drained s) (huw : (self s).uw = 0) : exec (.barSync a id cnt) s =
    finish s (do
      let t ← arrive id.toNat (barCount a cnt s) s
      .ok (stuckBarriers (selfGroup t).block
        (mapSelf (fun y => { y with half := some (waitCode id.toNat (theBarrier s (selfGroup s).block id.toNat).phase) }) t))) := by
  rw [exec_barSync_fresh hf, drain_of_drained hd, barChecks_ok hok]
  exact congrArg (finish s) (stallIf_passes (by rw [huw]; rfl))

theorem exec_barWait_ok : exec (.barWait a id cnt) s = finish s (barWait id.toNat (barCount a cnt s) s) := by
  rw [exec_barWait, barChecks_ok hok]
  rfl

end

/-! The phase that an arrival joins (R166). -/

/-- The open phase of a barrier, with the groups that have arrived. -/
def opened (x : Barrier) (n : Nat) (l : List Nat) : Barrier := { x with count := some n, arrived := l }

theorem openBarrier_phase {x : Barrier} {n : Nat} {l : List Nat} (h : Phase x n l) : openBarrier x n = .ok (opened x n l) := by
  obtain ⟨hc, rfl⟩ | ⟨hc, rfl⟩ := h
  · rw [openBarrier, hc]
    rfl
  · rw [openBarrier, hc]
    refine (raiseIf_passes (bne_self_eq_false n)).trans ?_
    rw [opened, ← hc]

theorem openBarrier_other {x : Barrier} {n k : Nat} (h : x.count = some k) (hk : k ≠ n) : openBarrier x n = .error (.trap { cls := .sync, detail := 0x10 }) := by
  rw [openBarrier, h]
  exact raiseIf_stops (bne_iff_ne.mpr hk)

/-- A group noted as arrived at a barrier, which has become `x`. -/
def arrivedAt (id : Nat) (x : Barrier) (s : State) : State :=
  mapSelfGroup (fun g => { g with arrived := Table.put g.arrived id x.phase }) (setBarrier (selfGroup s).block id x s)

section
variable {n : Nat} {l : List Nat} {k : Nat}

theorem arrive_other (h : (theBarrier s (selfGroup s).block k).count = some j) (hj : j ≠ n) : arrive k n s = .error (.trap { cls := .sync, detail := 0x10 }) := by
  rw [arrive]
  exact congrArg (· >>= _) (openBarrier_other h hj)

theorem arrive_again (h : (theBarrier s (selfGroup s).block k).count = some n) (hg : (selfGroup s).gidx ∈ (theBarrier s (selfGroup s).block k).arrived) :
    arrive k n s = .error (.trap { cls := .sync, detail := 0x12 }) := by
  have ho := openBarrier_phase (.inr ⟨h, rfl⟩)
  rw [arrive]
  refine (congrArg (· >>= _) ho).trans (raiseIf_stops ?_)
  exact List.contains_iff_mem.mpr hg

theorem arrive_joins (h : Phase (theBarrier s (selfGroup s).block k) n l) (hg : (selfGroup s).gidx ∉ l) :
    arrive k n s = .ok (if l.length + 1 = n then
        completeBarrier (selfGroup s).block k (arrivedAt k (opened (theBarrier s (selfGroup s).block k) n (l ++ [(selfGroup s).gidx])) s)
      else arrivedAt k (opened (theBarrier s (selfGroup s).block k) n (l ++ [(selfGroup s).gidx])) s) := by
  rw [arrive]
  refine (congrArg (· >>= _) (openBarrier_phase h)).trans ((raiseIf_passes (by simpa [opened] using hg)).trans (congrArg Except.ok ?_))
  refine if_congr ?_ rfl rfl
  simp only [opened, List.length_append, List.length_singleton, Option.some.injEq]
  exact eq_comm

/-! What an arrival that does not complete its phase leaves. -/

section
variable {x : Barrier}

theorem self_setBarrier (b k : Nat) (x : Barrier) (s : State) : self (setBarrier b k x s) = self s := rfl

theorem arrivedAt_of_found {B : Block} (hB : Table.find? s.blocks (selfGroup s).block = some B) (k : Nat) (x : Barrier) :
    arrivedAt k x s = { mapSelfGroup (fun g => { g with arrived := Table.put g.arrived k x.phase }) s with
      blocks := Table.put s.blocks (selfGroup s).block { B with bars := Table.put B.bars k x } } := by
  rw [arrivedAt, setBarrier, mapBlock_of_find hB]
  rfl

theorem selfGroup_arrivedAt (k : Nat) (x : Barrier) (s : State) :
    selfGroup (arrivedAt k x s) = { selfGroup s with arrived := Table.put (selfGroup s).arrived k x.phase } :=
  selfGroup_mapSelfGroup (setBarrier (selfGroup s).block k x s) _

theorem self_arrivedAt (k : Nat) (x : Barrier) (s : State) : self (arrivedAt k x s) = self s := rfl

theorem found_arrivedAt {b : Nat} (k : Nat) (x : Barrier) (h : (Table.find? s.blocks b).isSome) : (Table.find? (arrivedAt k x s).blocks b).isSome :=
  found_mapBlock_any (s := s) (selfGroup s).block h _

theorem block_arrivedAt (k : Nat) (x : Barrier) (h : (Table.find? s.blocks (selfGroup s).block).isSome) : (arrivedAt k x s).block (selfGroup s).block =
    { s.block (selfGroup s).block with bars := Table.put (s.block (selfGroup s).block).bars k x } := block_mapBlock_found (s := s) h _

theorem theBarrier_of_bars {b : Nat} {bars : Table Nat Barrier} {t : State} (h : (t.block b).bars = Table.put bars k x) : theBarrier t b k = x := by
  rw [theBarrier, barrierAt, h, Table.findD_put_self]

theorem barrierStep_arrivedAt (hg : isGroup s.cur = true) (hf : (Table.find? s.blocks (selfGroup s).block).isSome) :
    BarrierStep k x s (advance 4 (arrivedAt k x s)) := by
  obtain ⟨B, hB⟩ := Option.isSome_iff_exists.mp hf
  refine of_isGroup hg fun p c w hc => ?_
  have hb := block_of_find hB
  have hjoin := arrivedAt_of_found hB k x
  have hsg : (selfGroup (arrivedAt k x s)).block = (selfGroup s).block := by rw [selfGroup_arrivedAt]
  have hfind : Table.find? (arrivedAt k x s).blocks (selfGroup s).block = some { B with bars := Table.put B.bars k x } := by
    rw [hjoin]
    exact Table.find?_put_self _ _ _
  have ht := advance_of_found (s := arrivedAt k x s) hc hsg hfind 4
  have hgroups : (advance 4 (arrivedAt k x s)).groups = (arrivedAt k x s).groups := by rw [ht]; rfl
  have hblocks : (advance 4 (arrivedAt k x s)).blocks = Table.put s.blocks (selfGroup s).block { B with bars := Table.put B.bars k x, rt := B.rt + 1 } := by
    rw [ht, hjoin]
    exact Table.put_put _ _ _ _
  refine ⟨?_, ?_, fun a ha => ?_, ?_, fun b hb' => ?_⟩
  · rw [ht, hjoin]
    rfl
  · rw [selfGroup_advance, selfGroup_arrivedAt]
  · rw [State.group, hgroups]
    exact group_setGroup_other _ _ ha
  · rw [State.block, hblocks, Table.findD_put_self, hb]
  · have hpast : (advance 4 (arrivedAt k x s)).past = s.past := by rw [ht, hjoin]; rfl
    rw [State.block, hblocks, Table.findD_put_other _ _ _ hb', hpast]
    rfl

end

end

/-! The commit of a completed phase (R164, R166). -/

/-- What every change keeps and one change makes holds after the sequence in which that change stands. -/
theorem seqAll_makes {α σ : Type} (Q P : σ → Prop) (f : α → σ → σ) (x : α) (hQ : ∀ a s, Q s → Q (f a s)) (hP : ∀ a s, P s → P (f a s))
    (hx : ∀ s, Q s → P (f x s)) : ∀ (l : List α) (s : σ), x ∈ l → Q s → P (seqAll f l s)
  | [], _, h, _ => absurd h List.not_mem_nil
  | y :: r, s, h, hs => by
    rcases List.mem_cons.mp h with rfl | h
    · exact seqAll_keeps P f hP r (f x s) (hx s hs)
    · exact seqAll_makes Q P f x hQ hP hx r (f y s) h (hQ y s hs)

theorem OnlyCommit.empty {ag : Agent} (h : OnlyCommit s t) (he : (s.group ag).qbuf = ⟨[], []⟩) : (t.group ag).qbuf = ⟨[], []⟩ := by
  obtain h | h := h.buffers ag
  · rw [h, he]
  · exact h

theorem commitBuffer_empties {ag : Agent} (h : isGroup ag = true) (s : State) : ((commitBuffer ag s).group ag).qbuf = ⟨[], []⟩ := by
  cases ag with
  | group p c w =>
    unfold commitBuffer
    dsimp only
    split
    next he => exact he
    next =>
      refine (onlyCommit_issueStore _ _ _ _).empty ?_
      have hdrop (u : State) : ((emptyBuffer (.group p c w) u).group (.group p c w)).qbuf = ⟨[], []⟩ := congrArg Group.qbuf (group_setGroup_self u (.group p c w) _)
      split
      · exact hdrop _
      · exact hdrop _
  | mcc p c => cases h
  | ctl p i => cases h

/-- The numbers of a group that say where it commits. -/
def Numbered (ag : Agent) (i blk : Nat) (s : State) : Prop := (s.group ag).gidx = i ∧ (s.group ag).block = blk

theorem OnlyCommit.numbered {ag : Agent} {i blk : Nat} (h : OnlyCommit s t) (hn : Numbered ag i blk s) : Numbered ag i blk t := by
  unfold Numbered
  rw [h.groups ag]
  exact hn

theorem commitTurn_empties {ag : Agent} {i blk : Nat} (h : isGroup ag = true) {ags : List Agent} (ha : ag ∈ ags) (k : Nat × Nat)
    (moved : List (Nat × EarlyWord × EarlyOp)) (held : List (Nat × Agent × QBuf)) (hn : Numbered ag i blk s) :
    ((commitTurn k blk moved held ags i s).group ag).qbuf = ⟨[], []⟩ := by
  refine (onlyCommit_seqAll (fun (m : Nat × EarlyWord × EarlyOp) s => onlyCommit_redoMove k blk m.2.2.move s) _ _).empty ?_
  have hstep (a : Agent) (u : State) : OnlyCommit u (if (u.group a).gidx = i ∧ (u.group a).block = blk ∧ isGroup a then commitBuffer a u else u) := by
    split
    · exact onlyCommit_commitBuffer a u
    · exact .refl u
  refine seqAll_makes (Numbered ag i blk) (fun u => (u.group ag).qbuf = ⟨[], []⟩) _ ag (fun a u => (hstep a u).numbered) (fun a u => (hstep a u).empty)
    (fun u hu => ?_) ags _ ha ((onlyCommit_seqAll (onlyCommit_writeHeld k blk) _ s).numbered hn)
  rw [if_pos ⟨hu.1, hu.2, h⟩]
  exact commitBuffer_empties h u

theorem commitBlock_empties {ag : Agent} {i blk : Nat} (h : isGroup ag = true) {ags : List Agent} (ha : ag ∈ ags) (hi : i < 32) (hn : Numbered ag i blk s) :
    ((commitBlock blk ags s).group ag).qbuf = ⟨[], []⟩ := by
  have hturns (k : Nat × Nat) (moved : List (Nat × EarlyWord × EarlyOp)) (held : List (Nat × Agent × QBuf)) (u : State) (hu : Numbered ag i blk u) :
      ((seqAll (commitTurn k blk moved held ags) (List.range 32) u).group ag).qbuf = ⟨[], []⟩ :=
    seqAll_makes (Numbered ag i blk) (fun u => (u.group ag).qbuf = ⟨[], []⟩) _ i (fun j u => (onlyCommit_commitTurn k blk moved held ags j u).numbered)
      (fun j u => (onlyCommit_commitTurn k blk moved held ags j u).empty) (fun u hu => commitTurn_empties h ha k moved held hu) _ u (List.mem_range.mpr hi) hu
  unfold commitBlock
  dsimp only
  refine ((onlyCommit_mapBlock blk (f := fun x => { x with held := [] }) (fun _ => rfl) _).trans (onlyCommit_early _ _)).empty ?_
  have hundo := (onlyCommit_seqAll (onlyCommit_undoWord ((s.block blk).pkg, (s.block blk).core) (movedOps s blk (commitWords s blk ags)))
    (((movedOps s blk (commitWords s blk ags)).map (fun m => m.2.1)).eraseDups) s).numbered hn
  split
  · exact hturns _ _ _ _ hundo
  · exact ((onlyCommit_of_memory (onlyMemory_annexCopy _ _)).trans (onlyCommit_of_memory (onlyMemory_dropClean _ _))).empty (hturns _ _ _ _ hundo)

section
variable {b k : Nat}

/-- A completed phase: the commit, then the barrier idle for the next one. -/
theorem completeBarrier_commits (b k : Nat) (s : State) :
    completeBarrier b k s = setBarrier b k ⟨none, [], (theBarrier s b k).phase + 1⟩ (commitBlock b (groupsAt s (s.block b) (theBarrier s b k).arrived) s) := rfl

theorem completeBarrier_barrier (h : (Table.find? s.blocks b).isSome) : theBarrier (completeBarrier b k s) b k = ⟨none, [], (theBarrier s b k).phase + 1⟩ := by
  refine theBarrier_of_bars (bars := ((commitBlock b (groupsAt s (s.block b) (theBarrier s b k).arrived) s).block b).bars) ?_
  rw [completeBarrier_commits, setBarrier, block_mapBlock_found ((onlyCommit_commitBlock b _ s).found b h)]

theorem completeBarrier_self (s : State) : ∃ st uw stores posted, self (completeBarrier b k s) = { self s with st := st, uw := uw, stores := stores, posted := posted } := by
  rw [completeBarrier_commits, self_setBarrier, (onlyCommit_commitBlock b _ s).self]
  exact ⟨_, _, _, _, rfl⟩

theorem completeBarrier_group (b k : Nat) (s : State) (a : Agent) : (completeBarrier b k s).group a =
    (commitBlock b (groupsAt s (s.block b) (theBarrier s b k).arrived) s).group a := rfl

/-- The buffers of the groups that have arrived are empty once the phase has completed. -/
theorem completeBarrier_empties {ag : Agent} (hg : isGroup ag = true) (hm : ag ∈ (s.block b).groups) (hb : (s.group ag).block = b)
    (hi : (s.group ag).gidx < 32) (ha : (s.group ag).gidx ∈ (theBarrier s b k).arrived) : ((completeBarrier b k s).group ag).qbuf = ⟨[], []⟩ := by
  rw [completeBarrier_group]
  exact commitBlock_empties hg (List.mem_filter.mpr ⟨hm, List.contains_iff_mem.mpr ha⟩) hi ⟨rfl, hb⟩

end

end

end Sys2Proof.Machine

end

section
/-! SUPPORT. O16: waits at block barriers (R166). -/

open Sys2Proof.Claims

namespace Sys2Proof.Machine

set_option Elab.async false

section
variable {s t u : State} {a : SReg} {id cnt : BitVec 6}

/-! A group that waits, or to which the failure of its wait is posted. -/

/-- The running stream waits with code `w`, or a trap is posted to it. -/
def WaitsOrPosted (w : Nat) (s : State) : Prop := (self s).half = some w ∨ (self s).posted.isSome

theorem stuckBarriers_waits {w : Nat} (blk : Nat) (h : WaitsOrPosted w s) : WaitsOrPosted w (stuckBarriers blk s) := by
  refine seqAll_keeps (WaitsOrPosted w) _ (fun e u hu => ?_) _ s h
  split
  · refine seqAll_keeps (WaitsOrPosted w) _ (fun a u hu => ?_) _ u hu
    split
    · by_cases ha : u.cur = a
      · subst ha
        exact .inr (congrArg (fun x : Stream => x.posted.isSome) (stream_mapStream_self u u.cur _))
      · have hs := stream_mapStream_other u (fun x => { x with half := none, posted := some { cls := .sync, detail := 0x13 } }) ha
        refine hu.imp (fun h => ?_) fun h => ?_
        · exact (congrArg Stream.half hs).trans h
        · exact (congrArg (fun x : Stream => x.posted.isSome) hs).trans h
    · exact hu
  · exact hu

/-- A group stays at its instruction to wait with code `w` (R166). -/
def waiting (w : Nat) (blk : Nat) (s : State) : State := stuckBarriers blk (mapSelf (fun y => { y with half := some w }) s)

theorem waiting_stays (w blk : Nat) (s : State) : (self (waiting w blk s)).spc = (self s).spc ∧
    ((self (waiting w blk s)).half = some w ∨ (self (waiting w blk s)).posted.isSome) := by
  have h := onlyPosted_stuckBarriers blk (mapSelf (fun y => { y with half := some w }) s)
  refine ⟨?_, stuckBarriers_waits blk (.inl (congrArg Stream.half (self_mapSelf s _)))⟩
  have hcur : (waiting w blk s).cur = s.cur := by rw [waiting, h.1]; rfl
  have hs := congrArg Stream.spc (h.2 s.cur)
  rw [self, hcur]
  refine hs.trans ?_
  change ((mapStream s.cur (fun y => { y with half := some w }) s).stream s.cur).spc = _
  rw [stream_mapStream_self]
  rfl

theorem waiting_rest (w blk : Nat) (s : State) : ∃ streams, waiting w blk s = { s with streams := streams } := by
  rw [waiting, (onlyPosted_stuckBarriers blk _).1]
  exact ⟨_, rfl⟩

theorem waiting_barrier (w blk b k : Nat) (s : State) : theBarrier (waiting w blk s) b k = theBarrier s b k := by
  obtain ⟨streams, h⟩ := waiting_rest w blk s
  rw [h]
  rfl

/-! `BAR.WAIT` (R166). -/

section
variable {k n : Nat}

/-- A wait that has consumed its arrival. -/
def consumed (k : Nat) (s : State) : State :=
  advance 4 (mapSelf (fun y => { y with half := none }) (mapSelfGroup (fun g => { g with arrived := Table.del g.arrived k }) s))

theorem consumed_leaves (k : Nat) (s : State) : GroupStep s (consumed k s) ∧
    self (consumed k s) = { self s with spc := (self s).spc + 4, half := none } ∧
    selfGroup (consumed k s) = { selfGroup s with arrived := Table.del (selfGroup s).arrived k } := by
  refine ⟨?_, ?_, ?_⟩
  · exact groupStep_trans (groupStep_mapSelfGroup _ s) (groupStep_trans (groupStep_mapSelf _ _) (groupStep_of_streamStep (streamStep_advance 4 _)))
  · rw [consumed, self_advance, self_mapSelf]
    rfl
  · rw [consumed, selfGroup_advance]
    exact selfGroup_mapSelfGroup s (fun g => { g with arrived := Table.del g.arrived k })

theorem barWait_fresh (h : (self s).half = none) : barWait k n s =
    if (match Table.find? (selfGroup s).arrived k with | some p => decide (p < (theBarrier s (selfGroup s).block k).phase) | none => false) then .ok (consumed k s)
    else (do
      let x ← openBarrier (theBarrier s (selfGroup s).block k) n
      .ok (waiting (waitCode k x.phase) (selfGroup s).block (setBarrier (selfGroup s).block k x s))) := by
  rw [barWait]
  dsimp only
  rw [h]
  rfl

theorem barWait_waiting {w : Nat} (h : (self s).half = some w) : barWait k n s =
    if w % 64 = k ∧ (theBarrier s (selfGroup s).block k).phase ≤ w / 64 then do
      raiseIf ((theBarrier s (selfGroup s).block k).phase == w / 64 &&
        barrierStuck s (s.block (selfGroup s).block) (theBarrier s (selfGroup s).block k)) .sync 0x13
      .error .stall
    else .ok (consumed k s) := by
  rw [barWait]
  dsimp only
  rw [h]
  rfl

theorem barWait_consumes (h : (self s).half = none) {ph : Nat} (hp : Table.find? (selfGroup s).arrived k = some ph)
    (hlt : ph < (theBarrier s (selfGroup s).block k).phase) : barWait k n s = .ok (consumed k s) := by
  rw [barWait_fresh h, hp]
  exact if_pos (decide_eq_true hlt)

theorem barWait_opens (h : (self s).half = none) (hp : ∀ ph, Table.find? (selfGroup s).arrived k = some ph → (theBarrier s (selfGroup s).block k).phase ≤ ph) :
    barWait k n s = (do
      let x ← openBarrier (theBarrier s (selfGroup s).block k) n
      .ok (waiting (waitCode k x.phase) (selfGroup s).block (setBarrier (selfGroup s).block k x s))) := by
  rw [barWait_fresh h]
  refine if_neg ?_
  cases hf : Table.find? (selfGroup s).arrived k with
  | none => exact Bool.false_ne_true
  | some ph => simpa using hp ph hf

/-- A wait that joins a phase changes its barrier, and no byte. -/
theorem waiting_setBarrier {x : Barrier} (w : Nat) (hf : (Table.find? s.blocks (selfGroup s).block).isSome) :
    let t := waiting w (selfGroup s).block (setBarrier (selfGroup s).block k x s)
    theBarrier t (selfGroup s).block k = x ∧ t.groups = s.groups ∧ SameBytes s t := by
  obtain ⟨streams, h⟩ := waiting_rest w (selfGroup s).block (setBarrier (selfGroup s).block k x s)
  refine ⟨?_, ?_, ?_⟩
  · rw [waiting_barrier]
    exact theBarrier_of_bars (bars := (s.block (selfGroup s).block).bars) (by rw [setBarrier, block_mapBlock_found hf])
  · rw [h]
    rfl
  · rw [h]
    refine ⟨fun _ _ => rfl, fun b o => ?_⟩
    change ((setBarrier (selfGroup s).block k x s).block b).scratch.read o = _ ∧ ((setBarrier (selfGroup s).block k x s).block b).acc.read o = _
    obtain hb | hb := block_mapBlock s (selfGroup s).block b (fun b => { b with bars := Table.put b.bars k x })
    · rw [setBarrier, hb]
      exact ⟨rfl, rfl⟩
    · rw [setBarrier, hb]
      exact ⟨rfl, rfl⟩

end

/-! The clauses of R166. -/

theorem theBarrier_advance (n b k : Nat) (s : State) : theBarrier (advance n s) b k = theBarrier s b k := by
  rw [theBarrier, (streamStep_advance n s).blocks b]
  rfl

theorem advance_group (n : Nat) (s : State) (ag : Agent) : (advance n s).group ag = s.group ag := by
  rw [(streamStep_advance n s).rest]
  rfl

theorem group_arrivedAt (k : Nat) (x : Barrier) (s : State) (ag : Agent) : ∃ l, (arrivedAt k x s).group ag = { s.group ag with arrived := l } := by
  by_cases h : ag = s.cur
  · subst h
    exact ⟨_, group_setGroup_self _ _ _⟩
  · exact ⟨_, group_setGroup_other _ _ h⟩

theorem theBarrier_arrivedAt (k : Nat) (x : Barrier) (h : (Table.find? s.blocks (selfGroup s).block).isSome) :
    theBarrier (arrivedAt k x s) (selfGroup s).block k = x := theBarrier_of_bars (congrArg Block.bars (block_arrivedAt k x h))

/-- The barrier that an arrival leaves: idle for its next phase where the phase is complete. -/
theorem arrived_barrier (c : Prop) [Decidable c] (k : Nat) (x : Barrier) (h : (Table.find? s.blocks (selfGroup s).block).isSome) :
    theBarrier (if c then completeBarrier (selfGroup s).block k (arrivedAt k x s) else arrivedAt k x s) (selfGroup s).block k =
      if c then ⟨none, [], x.phase + 1⟩ else x := by
  split
  · rw [completeBarrier_barrier (found_arrivedAt k x h), theBarrier_arrivedAt k x h]
  · exact theBarrier_arrivedAt k x h

theorem arrived_spc (c : Prop) [Decidable c] (b k : Nat) (x : Barrier) (s : State) :
    (self (if c then completeBarrier b k (arrivedAt k x s) else arrivedAt k x s)).spc = (self s).spc := by
  split
  · obtain ⟨_, _, _, _, h⟩ := completeBarrier_self (b := b) (k := k) (arrivedAt k x s)
    rw [h]
    rfl
  · rfl

/-- A group that has arrived at a completed phase has no buffer left. -/
theorem arrived_empties {ag : Agent} (k : Nat) (x : Barrier) (hf : (Table.find? s.blocks (selfGroup s).block).isSome) (hm : ag ∈ (s.block (selfGroup s).block).groups)
    (hg : isGroup ag = true) (hb : (s.group ag).block = (selfGroup s).block) (hi : (s.group ag).gidx < 32) (ha : (s.group ag).gidx ∈ x.arrived) :
    ((completeBarrier (selfGroup s).block k (arrivedAt k x s)).group ag).qbuf = ⟨[], []⟩ := by
  obtain ⟨l, hl⟩ := group_arrivedAt k x s ag
  refine completeBarrier_empties hg ?_ ?_ ?_ ?_
  · rw [block_arrivedAt k x hf]
    exact hm
  · rw [hl]
    exact hb
  · rw [hl]
    exact hi
  · rw [hl, theBarrier_arrivedAt k x hf]
    exact ha

theorem barrierOk_group {k n : Nat} (h : BarrierOk k n s) : isGroup s.cur = true := h.1

theorem barrierOk_found {k n : Nat} (h : BarrierOk k n s) : (Table.find? s.blocks (selfGroup s).block).isSome := by
  obtain ⟨-, -, -, -, -, hf⟩ := h
  exact hf

section
variable (hok : BarrierOk id.toNat (barCount a cnt s) s)
include hok

/-- An arrival that does not complete its phase. -/
theorem barArr_joins {l : List Nat} (hq : (selfGroup s).segq = []) (huw : (self s).uw = 0)
    (hl : Phase (theBarrier s (selfGroup s).block id.toNat) (barCount a cnt s) l) (hg : (selfGroup s).gidx ∉ l) (hn : l.length + 1 ≠ barCount a cnt s) :
    ∃ t, exec (.barArr a id cnt) s = .next t ∧
      BarrierStep id.toNat (opened (theBarrier s (selfGroup s).block id.toNat) (barCount a cnt s) (l ++ [(selfGroup s).gidx])) s t ∧
      self t = { self s with spc := (self s).spc + 4, half := (self s).half } ∧
      Table.find? (selfGroup t).arrived id.toNat = some (theBarrier s (selfGroup s).block id.toNat).phase := by
  have hgroup := barrierOk_group hok
  have hf := barrierOk_found hok
  refine ⟨_, ?_, barrierStep_arrivedAt hgroup hf, ?_, ?_⟩
  · rw [exec_barArr_ok hok (fun _ => hq) huw, arrive_joins hl hg, if_neg hn]
    rfl
  · rw [self_advance, self_arrivedAt]
    rfl
  · rw [selfGroup_advance, selfGroup_arrivedAt]
    exact Table.find?_put_self _ _ _

/-- The last arrival of a phase. -/
theorem barArr_completes {l : List Nat} (hq : (selfGroup s).segq = []) (huw : (self s).uw = 0)
    (hl : Phase (theBarrier s (selfGroup s).block id.toNat) (barCount a cnt s) l) (hg : (selfGroup s).gidx ∉ l) (hn : l.length + 1 = barCount a cnt s) :
    ∃ t, exec (.barArr a id cnt) s = .next t ∧
      theBarrier t (selfGroup s).block id.toNat = ⟨none, [], (theBarrier s (selfGroup s).block id.toNat).phase + 1⟩ ∧ (self t).spc = (self s).spc + 4 ∧
      ∀ ag, ag ∈ (s.block (selfGroup s).block).groups → isGroup ag = true → (s.group ag).block = (selfGroup s).block → (s.group ag).gidx < 32 →
        (s.group ag).gidx ∈ l ++ [(selfGroup s).gidx] → (t.group ag).qbuf = ⟨[], []⟩ := by
  have hf := barrierOk_found hok
  refine ⟨_, ?_, (theBarrier_advance 4 _ _ _).trans ((arrived_barrier (l.length + 1 = barCount a cnt s) id.toNat
    (opened (theBarrier s (selfGroup s).block id.toNat) (barCount a cnt s) (l ++ [(selfGroup s).gidx])) hf).trans (if_pos hn)), ?_, fun ag hm hgr hb hi ha => ?_⟩
  · rw [exec_barArr_ok hok (fun _ => hq) huw, arrive_joins hl hg]
    rfl
  · rw [self_advance]
    exact congrArg (· + 4) (arrived_spc _ _ _ _ s)
  · rw [advance_group, if_pos hn]
    exact arrived_empties _ _ hf hm hgr hb hi ha

/-- `BAR.SYNC`: the arrival, after which the group waits (R166). -/
theorem barSync_arrives {l : List Nat} (hfresh : (self s).half = none) (hq : (selfGroup s).segq = []) (huw : (self s).uw = 0)
    (hl : Phase (theBarrier s (selfGroup s).block id.toNat) (barCount a cnt s) l) (hg : (selfGroup s).gidx ∉ l) :
    ∃ t, exec (.barSync a id cnt) s = .next t ∧ (self t).spc = (self s).spc ∧
      ((self t).half = some ((theBarrier s (selfGroup s).block id.toNat).phase * 64 + id.toNat) ∨ (self t).posted.isSome) ∧
      theBarrier t (selfGroup s).block id.toNat = if l.length + 1 = barCount a cnt s then ⟨none, [], (theBarrier s (selfGroup s).block id.toNat).phase + 1⟩
        else opened (theBarrier s (selfGroup s).block id.toNat) (barCount a cnt s) (l ++ [(selfGroup s).gidx]) := by
  have hf := barrierOk_found hok
  rw [exec_barSync_ok hok hfresh (fun _ => hq) huw, arrive_joins hl hg]
  refine ⟨_, rfl, ?_, ?_, ?_⟩
  · exact (waiting_stays _ _ _).1.trans (arrived_spc _ _ _ _ s)
  · exact (waiting_stays _ _ _).2
  · exact (waiting_barrier _ _ _ _ _).trans (arrived_barrier _ _ _ hf)

theorem barArr_raises {detail : Nat} (hq : (selfGroup s).segq = []) (huw : (self s).uw = 0)
    (h : arrive id.toNat (barCount a cnt s) s = .error (.trap { cls := .sync, detail := detail })) :
    Traps (.barArr a id cnt) s .sync detail 0 ∧ ((self s).half = none → Traps (.barSync a id cnt) s .sync detail 0) := by
  refine ⟨?_, fun hf => ?_⟩
  · rw [Traps, exec_barArr_ok hok (fun _ => hq) huw, h]
    rfl
  · rw [Traps, exec_barSync_ok hok hf (fun _ => hq) huw, h]
    rfl

/-- A wait that meets a phase it must wait for (R166). -/
theorem barWait_joins (hfresh : (self s).half = none) (hp : ∀ ph, Table.find? (selfGroup s).arrived id.toNat = some ph → (theBarrier s (selfGroup s).block id.toNat).phase ≤ ph) :
    (∀ k, (theBarrier s (selfGroup s).block id.toNat).count = some k → k ≠ barCount a cnt s → Traps (.barWait a id cnt) s .sync 0x10 0) ∧
    (∀ l, Phase (theBarrier s (selfGroup s).block id.toNat) (barCount a cnt s) l → ∃ t, exec (.barWait a id cnt) s = .next t ∧ (self t).spc = (self s).spc ∧
      ((self t).half = some ((theBarrier s (selfGroup s).block id.toNat).phase * 64 + id.toNat) ∨ (self t).posted.isSome) ∧
      theBarrier t (selfGroup s).block id.toNat = opened (theBarrier s (selfGroup s).block id.toNat) (barCount a cnt s) l ∧ t.groups = s.groups ∧ SameBytes s t) := by
  have hf := barrierOk_found hok
  refine ⟨fun k hk hne => ?_, fun l hl => ?_⟩
  · rw [Traps, exec_barWait_ok hok, barWait_opens hfresh hp, openBarrier_other hk hne]
    rfl
  · rw [exec_barWait_ok hok, barWait_opens hfresh hp, openBarrier_phase hl]
    obtain ⟨hspc, hhalf⟩ := waiting_stays (waitCode id.toNat (theBarrier s (selfGroup s).block id.toNat).phase) (selfGroup s).block
      (setBarrier (selfGroup s).block id.toNat (opened (theBarrier s (selfGroup s).block id.toNat) (barCount a cnt s) l) s)
    exact ⟨_, rfl, hspc, hhalf, waiting_setBarrier _ hf⟩

/-- A group that waits already (R166). -/
theorem barWait_again {ph : Nat} (h : (self s).half = some (ph * 64 + id.toNat)) :
    let x := theBarrier s (selfGroup s).block id.toNat
    (ph < x.phase → exec (.barWait a id cnt) s = .next (consumed id.toNat s) ∧ exec (.barSync a id cnt) s = .next (consumed id.toNat s)) ∧
    (x.phase ≤ ph → ¬(ph = x.phase ∧ barrierStuck s (s.block (selfGroup s).block) x = true) → exec (.barWait a id cnt) s = .next s ∧ exec (.barSync a id cnt) s = .next s) ∧
    (ph = x.phase → barrierStuck s (s.block (selfGroup s).block) x = true → Traps (.barWait a id cnt) s .sync 0x13 0 ∧ Traps (.barSync a id cnt) s .sync 0x13 0) := by
  have hid := id.isLt
  have hmod : (ph * 64 + id.toNat) % 64 = id.toNat := by omega
  have hdiv : (ph * 64 + id.toNat) / 64 = ph := by omega
  have hw := barWait_waiting (k := id.toNat) (n := barCount a cnt s) h
  rw [hmod, hdiv] at hw
  rw [Traps, Traps, exec_barWait_ok hok, exec_barSync_waiting h, hw]
  refine ⟨fun hlt => ?_, fun hle hns => ?_, fun he hst => ?_⟩
  · rw [if_neg (fun hc => absurd hc.2 (not_le.mpr hlt))]
    exact ⟨rfl, rfl⟩
  · have hpass : ((theBarrier s (selfGroup s).block id.toNat).phase == ph &&
        barrierStuck s (s.block (selfGroup s).block) (theBarrier s (selfGroup s).block id.toNat)) = false := by
      rw [Bool.and_eq_false_imp]
      intro he
      exact Bool.eq_false_iff.mpr fun hst => hns ⟨(beq_iff_eq.mp he).symm, hst⟩
    rw [if_pos ⟨rfl, hle⟩, raiseIf_passes hpass]
    exact ⟨rfl, rfl⟩
  · rw [if_pos ⟨rfl, he.ge⟩, raiseIf_stops (by rw [hst, ← he, beq_self_eq_true, Bool.and_self])]
    exact ⟨rfl, rfl⟩

end

end

end Sys2Proof.Machine

open Sys2Proof Sys2Proof.Machine Sys2Proof.Claims

/-- Settles O16: the checks in their order, the arrivals by whether they complete the phase, the waits by what they find. -/
theorem barriersCountArrivals : Obligations.BarriersCountArrivals := by
  intro s a id cnt
  refine ⟨barStalls_of_not_drained, fun hg => barTraps (barTrap_not_group hg), fun hg hb => barTraps (barTrap_bound hg hb),
    fun hg hb hn => barTraps (barTrap_count hg hb hn), barStalls_of_writes, fun hok hq huw => ⟨fun k hk hne => barArr_raises hok hq huw (arrive_other hk hne),
      fun hk hm => barArr_raises hok hq huw (arrive_again hk hm), fun l hl hm hn => barArr_joins hok hq huw hl hm hn,
      fun l hl hm hn => barArr_completes hok hq huw hl hm hn, fun hf l hl hm => barSync_arrives hok hf hq huw hl hm⟩,
    fun hok hf => ⟨fun ph hp hlt => ⟨_, ?_, consumed_leaves id.toNat s⟩, barWait_joins hok hf⟩, fun hok ph h => ?_⟩
  · rw [exec_barWait_ok hok, barWait_consumes hf hp hlt]
    rfl
  · obtain ⟨hgone, hstays, hstuck⟩ := barWait_again hok h
    exact ⟨fun hlt => ⟨⟨_, (hgone hlt).1, consumed_leaves id.toNat s⟩, ⟨_, (hgone hlt).2, consumed_leaves id.toNat s⟩⟩, hstays, hstuck⟩
end

section
/-! SUPPORT. O17: phasers (R167 to R169). -/

open Sys2Proof.Claims

namespace Sys2Proof.Machine

set_option Elab.async false

/-! The completion of phases (R167). -/

theorem phaseFull_iff (x : Phaser) : phaseFull x = true ↔ PhaseFull x := by
  simp only [phaseFull, PhaseFull, Bool.and_eq_true, List.all_eq_true, Bool.or_eq_true, Bool.not_eq_true', decide_eq_true_eq]
  refine and_congr_right fun _ => forall₂_congr fun m _ => ?_
  cases m.signals <;> simp

theorem combineGather_eq (x : Phaser) (a b : Word32) : combineGather x.max a b = gathers x a b := by
  unfold combineGather gathers
  split
  · by_cases h : a.ult b = true
    · rw [if_pos h, if_pos (by rw [BitVec.ult_iff_toNat_lt] at h; omega)]
    · rw [if_neg h]
      rw [BitVec.ult_iff_toNat_lt] at h
      split
      · exact BitVec.eq_of_toNat_eq (by omega)
      · rfl
  · rfl

/-- The phase after a full one. -/
def nextPhase (x : Phaser) : Phaser :=
  { x with newest := some (x.phase, x.gather), phase := x.phase + 1, gather := x.ahead.getD 0, signalled := x.ahead.isSome, ahead := none }

theorem completeOnce_full {x : Phaser} (h : PhaseFull x) : completeOnce x = nextPhase x := if_pos ((phaseFull_iff x).mpr h)

theorem completeOnce_open {x : Phaser} (h : ¬PhaseFull x) : completeOnce x = x := if_neg (mt (phaseFull_iff x).mp h)

/-- Two completions are all that one change can bring: the second phase has no signals one ahead of it. -/
theorem completes_completePhases (x : Phaser) : Completes x (completePhases x) := by
  unfold completePhases
  by_cases h : PhaseFull x
  · rw [completeOnce_full h]
    refine .full x _ h ?_
    by_cases h2 : PhaseFull (nextPhase x)
    · rw [completeOnce_full h2]
      refine .full (nextPhase x) _ h2 (.open _ fun h3 => ?_)
      exact Bool.false_ne_true h3.1
    · rw [completeOnce_open h2]
      exact .open _ h2
  · rw [completeOnce_open h, completeOnce_open h]
    exact .open x h

theorem signals_signalMember {x : Phaser} {me : Member → Bool} {m : Member} (h : x.members.find? me = some m) (v : Word32) :
    Signals me m v x (signalMember x me v) := by
  have hc := completes_completePhases (if m.next ≤ x.phase then
      { x with members := x.members.map (fun k => if me k then { k with next := k.next + 1 } else k), gather := gathers x x.gather v, signalled := true }
    else { x with members := x.members.map (fun k => if me k then { k with next := k.next + 1 } else k), ahead := some (gathers x (x.ahead.getD 0) v) })
  have hs : signalMember x me v = completePhases (if m.next ≤ x.phase then
      { x with members := x.members.map (fun k => if me k then { k with next := k.next + 1 } else k), gather := gathers x x.gather v, signalled := true }
    else { x with members := x.members.map (fun k => if me k then { k with next := k.next + 1 } else k), ahead := some (gathers x (x.ahead.getD 0) v) }) := by
    unfold signalMember
    rw [h]
    simp only [combineGather_eq]
  rw [hs]
  exact hc

/-! Handles (R167 to R169). -/

section
variable {s : State} {v : Word64}

theorem high_zero_iff : v.extractLsb' 32 32 = 0 ↔ v.toNat < 2 ^ 32 := by
  rw [← BitVec.toNat_inj, BitVec.extractLsb'_toNat, Nat.shiftRight_eq_div_pow]
  have := v.isLt
  change _ = 0 ↔ _
  omega

theorem handleRef_eq : handleRef (agentPkg s.cur) (v.setWidth 32) = handleOf s v := by
  rw [handleRef, BitVec.extractLsb'_setWidth_of_le (by decide), BitVec.extractLsb'_setWidth_of_le (by decide), BitVec.extractLsb'_setWidth_of_le (by decide)]
  rfl

theorem gen_ne_zero_iff : (handleOf s v).gen ≠ 0 ↔ v.extractLsb' 0 12 ≠ 0 := by
  rw [ne_eq, ne_eq, ← BitVec.toNat_inj]
  rfl

theorem handleLive_iff (h : v.extractLsb' 32 32 = 0) : handleLive s (agentPkg s.cur) (v.setWidth 32) = true ↔ HandleOk s v := by
  rw [handleLive, handleRef_eq]
  simp only [Bool.and_eq_true, bne_iff_ne, beq_iff_eq, HandleOk, h, true_and, gen_ne_zero_iff, and_assoc]

theorem phaserOf_low (h : v.extractLsb' 32 32 = 0) (loss : Bool) : phaserOf s v loss = (do
    raiseIf (loss && (handleOf s v).gen != 0 && (s.pkg (agentPkg s.cur)).lost.contains (handleOf s v).pkg) .remote 0x30
    raiseIf (!handleLive s (agentPkg s.cur) (v.setWidth 32)) .sync 0x20
    .ok (handleOf s v)) := by
  rw [phaserOf, raiseIf_passes (decide_eq_false (not_le.mpr (high_zero_iff.mp h)))]
  dsimp only
  rw [handleRef_eq]

theorem phaserOf_ok {loss : Bool} (h : HandleOk s v) (hl : loss = true → ¬HandleLost s v) : phaserOf s v loss = .ok (handleOf s v) := by
  have hlost : (loss && (handleOf s v).gen != 0 && (s.pkg (agentPkg s.cur)).lost.contains (handleOf s v).pkg) = false := by
    cases loss with
    | false => rfl
    | true => rw [Bool.eq_false_iff.mpr (hl rfl), Bool.and_false]
  rw [phaserOf_low h.1, raiseIf_passes hlost, raiseIf_passes (by rw [(handleLive_iff h.1).mpr h]; rfl)]

theorem phaserOf_bad {loss : Bool} (h : ¬HandleOk s v) (hl : ¬HandleLost s v) : phaserOf s v loss = .error (.trap { cls := .sync, detail := 0x20 }) := by
  by_cases h0 : v.extractLsb' 32 32 = 0
  · have hlost : (loss && (handleOf s v).gen != 0 && (s.pkg (agentPkg s.cur)).lost.contains (handleOf s v).pkg) = false := by
      rw [Bool.eq_false_iff.mpr hl, Bool.and_false]
    rw [phaserOf_low h0, raiseIf_passes hlost]
    exact raiseIf_stops (by rw [Bool.eq_false_iff.mpr (mt (handleLive_iff h0).mp h)]; rfl)
  · exact raiseIf_stops (decide_eq_true (not_lt.mp (mt high_zero_iff.mpr h0)))

theorem phaserOf_lost (h0 : v.extractLsb' 32 32 = 0) (hg : v.extractLsb' 0 12 ≠ 0) (hl : HandleLost s v) :
    phaserOf s v true = .error (.trap { cls := .remote, detail := 0x30 }) := by
  rw [phaserOf_low h0]
  exact raiseIf_stops (by rw [hl, bne_iff_ne.mpr (gen_ne_zero_iff.mpr hg)]; rfl)

/-! The instructions, with the phaser that their handle names. -/

section
variable {d a b : SReg}

theorem exec_phfree {r : Except Stop PhaserRef} (h : phaserOf s (reg s a) false = r) : exec (.phfree a) s = finish s (do
    let r ← r
    raiseIf ((phaserAt s r).members != []) .sync 0x24
    .ok (advance 4 (setPhaser r { phaserAt s r with live := false, gen := if (phaserAt s r).gen = 4095 then 1 else (phaserAt s r).gen + 1 } s))) := by
  rw [← h]
  rfl

theorem exec_phdrop {r : Except Stop PhaserRef} (h : phaserOf s (reg s a) false = r) : exec (.phdrop a) s = finish s (do
    let r ← r
    raiseIf (!(phaserAt s r).members.any (isMe s)) .sync 0x21
    .ok (advance 4 (setPhaser r (dropMember (isMe s) (phaserAt s r)) s))) := by
  rw [← h]
  rfl

theorem exec_phwait {r : Except Stop PhaserRef} (h : phaserOf s (reg s a) true = r) : exec (.phwait d a) s = finish s (do
    let r ← r
    let k ← selfMember (phaserAt s r) (·.waits) s
    phwaitFor d r k.pos s) := by
  rw [← h]
  rfl

theorem exec_phsig {r : Except Stop PhaserRef} (hd : Drained s) (h : phaserOf s (reg s a) true = r) : exec (.phsig a b) s = finish s (do
    let r ← r
    phsig r ((reg s b).setWidth 32) (fun _ s => .ok (advance 4 s)) s) := by
  change execPhsig a b s = _
  rw [execPhsig, drain_of_drained hd, ← h]
  rfl

theorem exec_phsw {r : Except Stop PhaserRef} (hd : Drained s) (h : phaserOf s (reg s a) true = r) : exec (.phsw d a b) s = finish s (do
    let r ← r
    let _ ← selfMember (phaserAt s r) (fun k => k.signals && k.waits) s
    match (self s).half with
    | some n => phwaitFor d r n s
    | none => phsig r ((reg s b).setWidth 32) (fun n s => .ok (mapSelf (fun y => { y with half := some n }) s)) s) := by
  change execPhsw d a b s = _
  rw [execPhsw, drain_of_drained hd, ← h]
  rfl

/-- The mask of a registration (R168). -/
theorem exec_phreg {r : Except Stop PhaserRef} (hb : reg s b ≠ 0) (hb4 : (reg s b).toNat < 4) (h : phaserOf s (reg s a) true = r) :
    exec (.phreg a b) s = finish s (do
      let r ← r
      raiseIf ((phaserAt s r).members.any (isMe s)) .sync 0x22
      raiseIf (decide (65535 ≤ (phaserAt s r).members.length)) .sync 0x23
      .ok (advance 4 (setPhaser r { phaserAt s r with members := (phaserAt s r).members ++
        [⟨s.cur, memberBlock s, (reg s b).getLsbD 0, (reg s b).getLsbD 1, if (phaserAt s r).signalled then (phaserAt s r).phase + 1 else (phaserAt s r).phase,
          if (phaserAt s r).signalled then (phaserAt s r).phase + 1 else (phaserAt s r).phase⟩] } s))) := by
  have hok : ((reg s b).toNat == 0 || decide (4 ≤ (reg s b).toNat)) = false := by
    rw [Bool.or_eq_false_iff]
    exact ⟨beq_eq_false_iff_ne.mpr fun h0 => hb (BitVec.eq_of_toNat_eq h0), decide_eq_false (not_le.mpr hb4)⟩
  have h0 : ((reg s b).toNat % 2 == 1) = (reg s b).getLsbD 0 := by
    rw [BitVec.getLsbD, Nat.testBit_zero]
    rfl
  have h1 : decide (2 ≤ (reg s b).toNat) = (reg s b).getLsbD 1 := by
    rw [BitVec.getLsbD, Nat.testBit_eq_decide_div_mod_eq, decide_eq_decide]
    omega
  change execPhreg a b s = _
  rw [execPhreg]
  dsimp only
  rw [raiseIf_passes hok, ← h, h0, h1]

end

end

end Sys2Proof.Machine

end

section
/-! SUPPORT. O17: phasers joined, left, signalled and waited for (R168, R169). -/

open Sys2Proof.Claims

namespace Sys2Proof.Machine

set_option Elab.async false

section
variable {s t u : State} {v : Word64} {d a b : SReg} {m : Member} {r : PhaserRef}

theorem phaserStep_of {x : Phaser} {i : Instr} (hi : exec i s = .next (advance 4 (setPhaser r x s))) : ∃ t, exec i s = .next t ∧ PhaserStep r x 0 0 s t :=
  ⟨_, hi, regWrite_advance_none 4 _⟩

/-! Allocation (R168). -/

theorem top_zero_iff {x : Word64} : x.extractLsb' 1 63 = 0 ↔ x.toNat < 2 := by
  rw [← BitVec.toNat_inj, BitVec.extractLsb'_toNat, Nat.shiftRight_eq_div_pow]
  have := x.isLt
  change _ = 0 ↔ _
  omega

theorem phnew_illegal (h : (reg s a).extractLsb' 1 63 ≠ 0) : Traps (.phnew d a) s .illegal 0 0 :=
  congrArg (finish s) (raiseIf_stops (decide_eq_true (not_lt.mp (mt top_zero_iff.mpr h))))

theorem exec_phnew (h : (reg s a).extractLsb' 1 63 = 0) : exec (.phnew d a) s = finish s
    (match freePhaser s (agentPkg s.cur) (agentDie s.cur) with
    | none => .ok (advance 4 (setReg d 0 s))
    | some n => .ok (advance 4 (setReg d ((refHandle ⟨agentPkg s.cur, n, (phaserAt s ⟨agentPkg s.cur, n, 0⟩).gen⟩).zeroExtend 64)
        (setPhaser ⟨agentPkg s.cur, n, (phaserAt s ⟨agentPkg s.cur, n, 0⟩).gen⟩
          ⟨(phaserAt s ⟨agentPkg s.cur, n, 0⟩).gen, true, (reg s a).getLsbD 0, 0, 0, none, [], false, none⟩ s)))) :=
  congrArg (finish s) ((raiseIf_passes (decide_eq_false (not_le.mpr (top_zero_iff.mp h)))).trans rfl)

/-! The trap of a handle that names no live phaser, in every form (R168, R169). -/

theorem phreg_traps {cls : TrapClass} {detail : Nat} (h : phaserOf s (reg s a) true = .error (.trap { cls := cls, detail := detail })) (hb : reg s b ≠ 0)
    (hb4 : (reg s b).toNat < 4) : Traps (.phreg a b) s cls detail 0 := by
  rw [Traps, exec_phreg hb hb4 h]
  rfl

theorem phasers_trap {cls : TrapClass} {detail : Nat} (h : phaserOf s (reg s a) true = .error (.trap { cls := cls, detail := detail })) :
    Traps (.phwait d a) s cls detail 0 ∧ (Drained s → Traps (.phsig a b) s cls detail 0 ∧ Traps (.phsw d a b) s cls detail 0) ∧
      (reg s b ≠ 0 → (reg s b).toNat < 4 → Traps (.phreg a b) s cls detail 0) := by
  refine ⟨?_, fun hd => ⟨?_, ?_⟩, phreg_traps h⟩
  · rw [Traps, exec_phwait h]; rfl
  · rw [Traps, exec_phsig hd h]; rfl
  · rw [Traps, exec_phsw hd h]; rfl

theorem phfree_bad (h : phaserOf s (reg s a) false = .error (.trap { cls := .sync, detail := 0x20 })) : Traps (.phfree a) s .sync 0x20 0 := by
  rw [Traps, exec_phfree h]
  rfl

theorem phdrop_bad (h : phaserOf s (reg s a) false = .error (.trap { cls := .sync, detail := 0x20 })) : Traps (.phdrop a) s .sync 0x20 0 := by
  rw [Traps, exec_phdrop h]
  rfl

theorem phreg_illegal (h : reg s b = 0 ∨ 4 ≤ (reg s b).toNat) : Traps (.phreg a b) s .illegal 0 0 := by
  have hbad : ((reg s b).toNat == 0 || decide (4 ≤ (reg s b).toNat)) = true := by
    rw [Bool.or_eq_true]
    exact h.imp (fun h => by rw [h]; rfl) decide_eq_true
  exact congrArg (finish s) (raiseIf_stops hbad)

/-- The running agent is a member, or none. -/
theorem any_isMe : (phaserAt s r).members.any (isMe s) = (memberOf s r).isSome := by
  rw [memberOf, Bool.eq_iff_iff, List.any_eq_true, List.find?_isSome]

/-- What a live handle's phaser lets be done with it (R168, R169). -/
theorem phasers_joined (h : HandleOk s (reg s a)) :
    let r := handleOf s (reg s a)
    let x := phaserAt s r
    let goes (i : Instr) (y : Phaser) : Prop := ∃ t, exec i s = .next t ∧ PhaserStep r y 0 0 s t
    (x.members ≠ [] → Traps (.phfree a) s .sync 0x24 0) ∧
    (x.members = [] → goes (.phfree a) { x with live := false, gen := if x.gen = 4095 then 1 else x.gen + 1 }) ∧
    (memberOf s r = none → Traps (.phdrop a) s .sync 0x21 0) ∧
    ((memberOf s r).isSome → ∃ z, Completes { x with members := x.members.filter (fun m => !isMe s m) } z ∧ goes (.phdrop a) z) ∧
    (reg s b ≠ 0 → (reg s b).toNat < 4 → ¬HandleLost s (reg s a) →
      ((memberOf s r).isSome → Traps (.phreg a b) s .sync 0x22 0) ∧
      (memberOf s r = none → 65535 ≤ x.members.length → Traps (.phreg a b) s .sync 0x23 0) ∧
      (memberOf s r = none → x.members.length < 65535 →
        let first := if x.signalled then x.phase + 1 else x.phase
        goes (.phreg a b) { x with members := x.members ++ [⟨s.cur, memberBlock s, (reg s b).getLsbD 0, (reg s b).getLsbD 1, first, first⟩] })) := by
  have hfree := phaserOf_ok (loss := false) h nofun
  refine ⟨fun hm => ?_, fun hm => phaserStep_of ?_, fun hm => ?_, fun hm => ⟨_, completes_completePhases _, phaserStep_of ?_⟩,
    fun hb hb4 hl => ⟨fun hm => ?_, fun hm hn => ?_, fun hm hn => phaserStep_of ?_⟩⟩
  · rw [Traps, exec_phfree hfree]
    exact congrArg (finish s) (raiseIf_stops (bne_iff_ne.mpr hm))
  · rw [exec_phfree hfree]
    exact congrArg (finish s) (raiseIf_passes (by rw [hm]; rfl))
  · rw [Traps, exec_phdrop hfree]
    exact congrArg (finish s) (raiseIf_stops (by rw [any_isMe, hm]; rfl))
  · rw [exec_phdrop hfree]
    exact congrArg (finish s) (raiseIf_passes (by rw [any_isMe, hm]; rfl))
  · rw [Traps, exec_phreg hb hb4 (phaserOf_ok h fun _ => hl)]
    exact congrArg (finish s) (raiseIf_stops (by rw [any_isMe, hm]))
  · have hno : (phaserAt s (handleOf s (reg s a))).members.any (isMe s) = false := by rw [any_isMe, hm]; rfl
    rw [Traps, exec_phreg hb hb4 (phaserOf_ok h fun _ => hl), ok_bind, raiseIf_passes hno, raiseIf_stops (decide_eq_true hn)]
    rfl
  · have hno : (phaserAt s (handleOf s (reg s a))).members.any (isMe s) = false := by rw [any_isMe, hm]; rfl
    rw [exec_phreg hb hb4 (phaserOf_ok h fun _ => hl), ok_bind, raiseIf_passes hno, raiseIf_passes (decide_eq_false (not_le.mpr hn))]
    rfl

theorem phasersAreJoinedAndLeft : PhasersAreJoinedAndLeft := by
  intro s d a b
  refine ⟨fun hd => ⟨?_, ?_⟩, phnew_illegal, fun h hf => sets_of ?_, fun h n hf => ?_, fun h hl => ?_, fun h0 hg hl => phasers_trap (phaserOf_lost h0 hg hl), fun h => ?_⟩
  · exact congrArg (finish s) (congrArg (· >>= _) (drain_of_not hd))
  · exact congrArg (finish s) (congrArg (· >>= _) (drain_of_not hd))
  · rw [exec_phnew h, hf]
    rfl
  · rw [exec_phnew h, hf]
    exact ⟨_, rfl, regWrite_advance _ _ _ _⟩
  · obtain ⟨hwait, hsig, hreg⟩ := phasers_trap (d := d) (b := b) (phaserOf_bad (loss := true) h hl)
    exact ⟨phfree_bad (phaserOf_bad h hl), phdrop_bad (phaserOf_bad h hl), hwait, hsig, hreg⟩
  · obtain ⟨h1, h2, h3, h4, h5⟩ := phasers_joined (b := b) h
    exact ⟨h1, h2, h3, h4, phreg_illegal, h5⟩

end

end Sys2Proof.Machine

end

section
/-! SUPPORT. O17: signals and waits at phasers (R169). -/

open Sys2Proof.Claims

namespace Sys2Proof.Machine

set_option Elab.async false

section
variable {s t u : State} {v : Word64} {d a b : SReg} {m : Member} {r : PhaserRef}

/-! The member that acts. -/

theorem selfMember_ok {ok : Member → Bool} (hm : memberOf s r = some m) (h : ok m = true) : selfMember (phaserAt s r) ok s = .ok m := by
  rw [memberOf] at hm
  rw [selfMember, hm]
  exact if_pos h

theorem selfMember_bad {ok : Member → Bool} (hm : memberOf s r = some m) (h : ok m = false) :
    selfMember (phaserAt s r) ok s = .error (.trap { cls := .sync, detail := 0x21 }) := by
  rw [memberOf] at hm
  rw [selfMember, hm]
  exact if_neg (by rw [h]; exact Bool.false_ne_true)

/-- A commit leaves the phasers and who the running agent is. -/
theorem phaserAt_commitOwn (s : State) (r : PhaserRef) : phaserAt (commitOwn s.cur s) r = phaserAt s r := by
  rw [phaserAt, State.pkg, (onlyCommit_commitOwn s.cur s).pkgs]
  rfl

theorem isMe_commitOwn (s : State) : isMe (commitOwn s.cur s) = isMe s := by
  have h := onlyCommit_commitOwn s.cur s
  have hb : memberBlock (commitOwn s.cur s) = memberBlock s := by
    rw [memberBlock, memberBlock, blockOf, blockOf, h.cur, h.groups s.cur]
  funext k
  rw [isMe, isMe, hb, h.cur]

/-! Signals. -/

theorem phsig_of_member {after : Nat → State → Eff} {w : Word32} (hm : memberOf s r = some m) (h : m.signals = true) :
    phsig r w after s = whenPerformed (commitOwn s.cur s) (fun s => do
      let x := phaserAt s r
      stallIf (decide (x.phase + 2 ≤ m.next))
      after m.next (setPhaser r (signalMember x (isMe s) w) s)) := by
  rw [phsig, selfMember_ok hm h]
  rfl

theorem phsig_performed {after : Nat → State → Eff} {w : Word32} (hm : memberOf s r = some m) (h : m.signals = true) (huw : (self (commitOwn s.cur s)).uw = 0) :
    phsig r w after s = (do
      stallIf (decide ((phaserAt (commitOwn s.cur s) r).phase + 2 ≤ m.next))
      after m.next (setPhaser r (signalMember (phaserAt (commitOwn s.cur s) r) (isMe (commitOwn s.cur s)) w) (commitOwn s.cur s))) :=
  (phsig_of_member hm h).trans (if_pos huw)

/-- The signal of a member one phase ahead at most. -/
theorem phsig_signals {after : Nat → State → Eff} {w : Word32} (hm : memberOf s r = some m) (h : m.signals = true) (huw : (self (commitOwn s.cur s)).uw = 0)
    (hn : m.next < (phaserAt (commitOwn s.cur s) r).phase + 2) :
    phsig r w after s = after m.next (setPhaser r (signalMember (phaserAt (commitOwn s.cur s) r) (isMe (commitOwn s.cur s)) w) (commitOwn s.cur s)) :=
  (phsig_performed hm h huw).trans (stallIf_passes (decide_eq_false (not_le.mpr hn)))

theorem signals_commitOwn {w : Word32} (hm : memberOf s r = some m) :
    Signals (isMe (commitOwn s.cur s)) m w (phaserAt (commitOwn s.cur s) r) (signalMember (phaserAt (commitOwn s.cur s) r) (isMe (commitOwn s.cur s)) w) := by
  refine signals_signalMember ?_ w
  rw [phaserAt_commitOwn, isMe_commitOwn]
  exact hm

/-! Waits. -/

theorem acquires_acquireAt (ag : Agent) (s : State) : Acquires ag s (acquireAt ag s) := by
  unfold acquireAt
  cases hc : coreOf ag with
  | none => exact ⟨rfl, fun k => by rw [hc, if_neg nofun]⟩
  | some k =>
    dsimp only
    unfold dropClean
    split
    next he =>
      refine ⟨rfl, fun j => ?_⟩
      rw [hc]
      split
      next hj =>
        obtain rfl := Option.some.inj hj
        rw [← he]
      next => rfl
    next =>
      refine ⟨rfl, fun j => ?_⟩
      rw [hc]
      split
      next hj =>
        obtain rfl := Option.some.inj hj
        exact core_setCore_self s _ _
      next hj => exact core_setCore_other s _ fun e => hj (e ▸ rfl)

theorem acquireAt_setPhaser (ag : Agent) (r : PhaserRef) (x : Phaser) (s : State) : acquireAt ag (setPhaser r x s) = setPhaser r x (acquireAt ag s) := by
  unfold acquireAt
  cases coreOf ag with
  | none => rfl
  | some k =>
    dsimp only
    unfold dropClean
    by_cases h : (s.core k).clean = []
    · rw [if_pos h]
      exact if_pos h
    · rw [if_neg h]
      exact if_neg h

/-- A wait that returns phase `n` with its gather word. -/
theorem phwaitDone_returns (d : SReg) (r : PhaserRef) (n : Nat) (g : Word32) (s : State) :
    ∃ u t, Acquires s.cur s u ∧ phwaitDone d r n g s = t ∧
      RegWrite d (BitVec.ofNat 32 n ++ g) 4
        (setPhaser r { phaserAt s r with members := (phaserAt s r).members.map (fun k => if isMe s k then { k with pos := n + 1 } else k) }
          (mapSelf (fun z => { z with half := none }) u)) t := by
  refine ⟨acquireAt s.cur s, _, acquires_acquireAt s.cur s, rfl, ?_⟩
  have hword : BitVec.ofNat 64 (n % 2 ^ 32 * 2 ^ 32 + g.toNat) = BitVec.ofNat 32 n ++ g := by
    apply BitVec.eq_of_toNat_eq
    have hg := g.isLt
    rw [BitVec.toNat_append, ← Nat.shiftLeft_add_eq_or_of_lt hg, Nat.shiftLeft_eq, BitVec.toNat_ofNat, BitVec.toNat_ofNat, Nat.mod_eq_of_lt (by omega)]
  have h := regWrite_advance d (BitVec.ofNat 32 n ++ g) 4 (mapSelf (fun z => { z with half := none }) (acquireAt s.cur
    (setPhaser r { phaserAt s r with members := (phaserAt s r).members.map (fun k => if isMe s k then { k with pos := n + 1 } else k) } s)))
  rw [acquireAt_setPhaser, ← hword] at h
  rw [phwaitDone, ← hword]
  dsimp only
  rw [show (setPhaser r { phaserAt s r with members := (phaserAt s r).members.map (fun k => if isMe s k then { k with pos := n + 1 } else k) } s).cur = s.cur from rfl,
    acquireAt_setPhaser]
  exact h

section
variable {n : Nat} {g : Word32} {p : Nat}

theorem phwaitFor_reached (hx : (phaserAt s r).newest = some (n, g)) (h : p ≤ n) : phwaitFor d r p s = .ok (phwaitDone d r n g s) := by
  rw [phwaitFor, hx]
  exact if_pos h

theorem phwaitFor_early (hx : (phaserAt s r).newest = some (n, g)) (h : n < p) : phwaitFor d r p s = .error .stall := by
  rw [phwaitFor, hx]
  exact if_neg (not_le.mpr h)

theorem phwaitFor_none (hx : (phaserAt s r).newest = none) : phwaitFor d r p s = .error .stall := by rw [phwaitFor, hx]

end

/-! The instructions of a member. -/

theorem exec_phsig_member (hok : HandleOk s (reg s a)) (hl : ¬HandleLost s (reg s a)) (hd : Drained s) :
    exec (.phsig a b) s = finish s (phsig (handleOf s (reg s a)) ((reg s b).setWidth 32) (fun _ s => .ok (advance 4 s)) s) := by
  rw [exec_phsig hd (phaserOf_ok hok fun _ => hl)]
  rfl

section
variable (hok : HandleOk s (reg s a)) (hl : ¬HandleLost s (reg s a)) (hm : memberOf s (handleOf s (reg s a)) = some m)
include hok hl hm

theorem exec_phwait_member (hw : m.waits = true) : exec (.phwait d a) s = finish s (phwaitFor d (handleOf s (reg s a)) m.pos s) := by
  rw [exec_phwait (phaserOf_ok hok fun _ => hl), ok_bind, selfMember_ok hm hw]
  rfl

theorem exec_phsw_member (hd : Drained s) (hs : m.signals = true) (hw : m.waits = true) : exec (.phsw d a b) s = finish s
    (match (self s).half with
    | some n => phwaitFor d (handleOf s (reg s a)) n s
    | none => phsig (handleOf s (reg s a)) ((reg s b).setWidth 32) (fun n s => .ok (mapSelf (fun y => { y with half := some n }) s)) s) := by
  rw [exec_phsw hd (phaserOf_ok hok fun _ => hl), ok_bind, selfMember_ok hm (by rw [hs, hw]; rfl)]
  rfl

theorem phsw_half (hd : Drained s) (hs : m.signals = true) (hw : m.waits = true) {h : Nat} (hh : (self s).half = some h) :
    exec (.phsw d a b) s = finish s (phwaitFor d (handleOf s (reg s a)) h s) := by
  rw [exec_phsw_member hok hl hm hd hs hw, hh]

theorem member_traps :
    (m.waits = false → Traps (.phwait d a) s .sync 0x21 0) ∧ (Drained s → m.signals = false → Traps (.phsig a b) s .sync 0x21 0) ∧
      (Drained s → m.signals = false ∨ m.waits = false → Traps (.phsw d a b) s .sync 0x21 0) := by
  refine ⟨fun hw => ?_, fun hd hs => ?_, fun hd hsw => ?_⟩
  · rw [Traps, exec_phwait (phaserOf_ok hok fun _ => hl), ok_bind, selfMember_bad hm hw]
    rfl
  · rw [Traps, exec_phsig_member hok hl hd, phsig, selfMember_bad hm hs]
    rfl
  · have hbad : (m.signals && m.waits) = false := by
      obtain h | h := hsw <;> simp [h]
    rw [Traps, exec_phsw hd (phaserOf_ok hok fun _ => hl), ok_bind, selfMember_bad hm hbad]
    rfl

/-- A signal, and the first turn of a `PHSW` (R169). -/
theorem member_signals (hs : m.signals = true) (hd : Drained s) :
    let c := commitOwn s.cur s
    let y := phaserAt c (handleOf s (reg s a))
    ((self c).uw ≠ 0 → exec (.phsig a b) s = .next c) ∧
    ((self c).uw = 0 → m.next < y.phase + 2 → ∃ z, Signals (isMe c) m ((reg s b).setWidth 32) y z ∧
      (∃ t, exec (.phsig a b) s = .next t ∧ PhaserStep (handleOf s (reg s a)) z 0 0 c t) ∧
      (m.waits = true → (self s).half = none →
        exec (.phsw d a b) s = .next (mapSelf (fun z => { z with half := some m.next }) (setPhaser (handleOf s (reg s a)) z c)))) ∧
    ((self c).uw = 0 → y.phase + 2 ≤ m.next → exec (.phsig a b) s = .next s) := by
  refine ⟨fun huw => ?_, fun huw hn => ⟨_, signals_commitOwn hm, ⟨_, ?_, regWrite_advance_none 4 _⟩, fun hw hh => ?_⟩, fun huw hn => ?_⟩
  · rw [exec_phsig_member hok hl hd, phsig_of_member hm hs]
    exact congrArg (finish s) (if_neg huw)
  · rw [exec_phsig_member hok hl hd, phsig_signals hm hs huw hn]
    rfl
  · rw [exec_phsw_member hok hl hm hd hs hw, hh]
    exact congrArg (finish s) (phsig_signals hm hs huw hn)
  · rw [exec_phsig_member hok hl hd, phsig_performed hm hs huw]
    exact congrArg (finish s) (stallIf_stops (decide_eq_true hn))

/-- A wait for the newest completed phase (R169). -/
theorem member_waits {n : Nat} {g : Word32} (hx : (phaserAt s (handleOf s (reg s a))).newest = some (n, g)) :
    let r := handleOf s (reg s a)
    let x := phaserAt s r
    let taken : Phaser := { x with members := x.members.map (fun k => if isMe s k then { k with pos := n + 1 } else k) }
    let word : Word64 := BitVec.ofNat 32 n ++ g
    let returns (i : Instr) : Prop := ∃ u t, Acquires s.cur s u ∧ exec i s = .next t ∧
      RegWrite d word 4 (setPhaser r taken (mapSelf (fun z => { z with half := none }) u)) t
    (m.waits = true → m.pos ≤ n → returns (.phwait d a)) ∧
    (m.waits = true → n < m.pos → exec (.phwait d a) s = .next s) ∧
    (Drained s → m.waits = true → m.signals = true → ∀ h, (self s).half = some h → h ≤ n → returns (.phsw d a b)) ∧
    (Drained s → m.waits = true → m.signals = true → ∀ h, (self s).half = some h → n < h → exec (.phsw d a b) s = .next s) := by
  obtain ⟨u, t, hu, ht, hr⟩ := phwaitDone_returns d (handleOf s (reg s a)) n g s
  refine ⟨fun hw hp => ⟨u, t, hu, ?_, hr⟩, fun hw hp => ?_, fun hd hw hs h hh hp => ⟨u, t, hu, ?_, hr⟩, fun hd hw hs h hh hp => ?_⟩
  · rw [exec_phwait_member hok hl hm hw, phwaitFor_reached hx hp, ht]
    rfl
  · rw [exec_phwait_member hok hl hm hw, phwaitFor_early hx hp]
    rfl
  · rw [phsw_half hok hl hm hd hs hw hh, phwaitFor_reached hx hp, ht]
    rfl
  · rw [phsw_half hok hl hm hd hs hw hh, phwaitFor_early hx hp]
    rfl

end

theorem phasersSignalAndWait : PhasersSignalAndWait := by
  intro s d a b m v r x c y hok hl hm
  obtain ⟨hwait, hsig, hsw⟩ := member_traps (d := d) (b := b) hok hl hm
  refine ⟨hwait, hsig, hsw, fun hs hd => (member_signals (d := d) hok hl hm hs hd).1, fun hs hd huw hn => (member_signals (d := d) hok hl hm hs hd).2.1 huw hn,
    fun hs hd huw hn => (member_signals (d := d) hok hl hm hs hd).2.2 huw hn, fun n g hx => member_waits hok hl hm hx, fun hx hw => ?_⟩
  rw [exec_phwait_member hok hl hm hw, phwaitFor_none hx]
  rfl

end

end Sys2Proof.Machine

open Sys2Proof Sys2Proof.Machine Sys2Proof.Claims

/-- Settles O17: the handle's checks, then the phaser's table; two completions are all that one signal can bring. -/
theorem phasersAreJoinedAndSignalled : Obligations.PhasersAreJoinedAndSignalled := ⟨phasersAreJoinedAndLeft, phasersSignalAndWait⟩
end

section
/-! SUPPORT. O31: `LAUNCH` of a child (R176, R322, R323). -/

open Sys2Proof.Claims

namespace Sys2Proof.Machine

set_option Elab.async false

section
variable {s t : State} {l : Launch} {bs r : List Byte} {put : Nat → State → State}

theorem controlOn_iff {align : Nat} {va : Word64} : controlOn align va = true ↔ Claims.controlAt align va := by
  rw [controlOn, Bool.and_eq_true, beq_iff_eq, Claims.controlAt, ← spaceOf_control_iff]
  cases h : spaceOf va with
  | none => simp
  | some sp => cases sp <;> simp

theorem onlyMemory_foldReads (c : Ctx) (vas : List Word64) (s : State) : OnlyMemory s (foldReads c vas s) := by
  unfold foldReads
  split
  · exact .refl s
  · refine .seqAll (fun va s => ?_) vas s
    split
    · exact onlyMemory_foldAt _ s
    · exact .refl s

theorem OnlyMemory.launch (h : OnlyMemory s t) (id : Nat) : t.launch id = s.launch id := by rw [h]; rfl

theorem launch_setLaunch_self (s : State) (id : Nat) (l : Launch) : (s.setLaunch id l).launch id = l := by simp [State.launch]

/-- The state in which a launch has its number and its records have been read (R323). -/
def launchRead (l : Launch) (s : State) : State :=
  let b := { s with nextId := s.nextId + 1 }.setLaunch s.nextId l
  foldReads (launchCtx b l) ([l.recAddr, l.recAddr + 128, l.cc] ++ chainRecords b (launchCtx b l) 4 l.cc) b

theorem launch_launchRead (l : Launch) (s : State) : (launchRead l s).launch s.nextId = l := by
  rw [launchRead, (onlyMemory_foldReads _ _ _).launch, launch_setLaunch_self]

/-- A launch is among those that its package has accepted (R323). -/
def noteAccepted (p id : Nat) (s : State) : State := s.setPkg p { s.pkg p with accepted := (s.pkg p).accepted ++ [id] }

/-- What is made of a launch whose records have been read, its counter record's bytes being `c` (R322, R323). -/
def launchJudged (l : Launch) (bs : List Byte) (put : Nat → State → State) (id : Nat) (c : List Byte) (s : State) : Eff :=
  match goodLaunch l bs c s with
  | none => rejectLaunch id s
  | some (l, s) =>
    let s := s.setLaunch id l
    if l.count = 0 then emptyLaunch l c s
    else if chainCancelled s (launchCtx s l) 4 l.cc then endUnplaced id stCancelled s
    else .ok (put id (noteAccepted l.pkg id s))

theorem acceptLaunch_eq : acceptLaunch l bs put s = match counterOf (launchRead l s) l with
    | .error _ => rejectLaunch s.nextId (launchRead l s)
    | .ok c => launchJudged l bs put s.nextId c (launchRead l s) := by
  unfold acceptLaunch launchJudged noteAccepted
  rfl

theorem acceptLaunch_unread {e : Stop} (hq : l.queue = none) (hc : counterOf (launchRead l s) l = .error e) :
    acceptLaunch l bs put s = .ok (launchRead l s) := by
  simp only [acceptLaunch_eq, hc, rejectLaunch, launch_launchRead, hq]

theorem acceptLaunch_read (hc : counterOf (launchRead l s) l = .ok r) :
    acceptLaunch l bs put s = launchJudged l bs put s.nextId r (launchRead l s) := by rw [acceptLaunch_eq, hc]

theorem rejectLaunch_reached {id : Nat} {pl : Place} (hc : counterOf s (s.launch id) = .ok r)
    (hp : controlPlace s (launchCtx s (s.launch id)) true 32 (s.launch id).cc = .ok pl) :
    rejectLaunch id s = endUnplaced id 5 (putDevice pl (leBytes 8 (s.launch id).count) s) := by
  unfold rejectLaunch
  dsimp only
  rw [hc, hp]
  rfl

theorem launchJudged_none {id : Nat} (hg : goodLaunch l bs r s = none) : launchJudged l bs put id r s = rejectLaunch id s := by
  unfold launchJudged
  generalize goodLaunch l bs r s = x at hg
  subst hg
  rfl

theorem acceptLaunch_rejected {pl : Place} (hc : counterOf (launchRead l s) l = .ok r) (hg : goodLaunch l bs r (launchRead l s) = none)
    (hp : controlPlace (launchRead l s) (launchCtx (launchRead l s) l) true 32 l.cc = .ok pl) :
    acceptLaunch l bs put s = endUnplaced s.nextId 5 (putDevice pl (leBytes 8 l.count) (launchRead l s)) := by
  have h := launch_launchRead l s
  rw [acceptLaunch_read hc, launchJudged_none hg, rejectLaunch_reached (r := r) (pl := pl) (by rw [h, hc]) (by rw [h, hp]), h]

/-- What is made of a good launch (R322, R327). -/
def launchKept (l : Launch) (put : Nat → State → State) (id : Nat) (c : List Byte) (s : State) : Eff :=
  if l.count = 0 then emptyLaunch l c s
  else if chainCancelled s (launchCtx s l) 4 l.cc then endUnplaced id 8 s
  else .ok (put id (noteAccepted l.pkg id s))

theorem launchJudged_some {id : Nat} {l' : Launch} {u : State} (hg : goodLaunch l bs r s = some (l', u)) :
    launchJudged l bs put id r s = launchKept l' put id r (u.setLaunch id l') := by
  unfold launchJudged
  generalize goodLaunch l bs r s = x at hg
  subst hg
  rfl

theorem acceptLaunch_good {l' : Launch} {u : State} (hc : counterOf (launchRead l s) l = .ok r)
    (hg : goodLaunch l bs r (launchRead l s) = some (l', u)) :
    acceptLaunch l bs put s = launchKept l' put s.nextId r (u.setLaunch s.nextId l') := by
  rw [acceptLaunch_read hc, launchJudged_some hg]

theorem goodLaunch_some {rows : List ScheduleRow} {u : State} {es : List SchedEntry × State} (hok : launchOk l bs = true)
    (hn : field r 0 8 = l.count) (hr : readRows l (List.range l.nsched) s = .ok (rows, u))
    (he : readSchedule { l with rows := rows } 0 rows u = .ok es) : goodLaunch l bs r s = some ({ l with rows := rows }, u) := by
  have hn' : numAt r 0 8 = l.count := hn
  simp [goodLaunch, hok, hn', hr, he]

theorem goodLaunch_none (h : launchOk l bs = false ∨ field r 0 8 ≠ l.count ∨ (∃ e, readRows l (List.range l.nsched) s = .error e) ∨
      ∃ rows u e, readRows l (List.range l.nsched) s = .ok (rows, u) ∧ readSchedule { l with rows := rows } 0 rows u = .error e) :
    goodLaunch l bs r s = none := by
  have hf : numAt r 0 8 = field r 0 8 := rfl
  rcases h with h | h | ⟨e, h⟩ | ⟨rows, u, e, h, he⟩
  · simp [goodLaunch, h]
  · simp [goodLaunch, hf, h]
  · simp [goodLaunch, h]
  · simp [goodLaunch, h, he]

theorem emptyLaunch_alone (h : (BitVec.ofNat 64 (field r 8 8) : Word64) = 0) : emptyLaunch l r s = .ok s := if_pos h

theorem emptyLaunch_above (h : (BitVec.ofNat 64 (field r 8 8) : Word64) ≠ 0)
    (he : endRecord (launchCtx s l) 64 (BitVec.ofNat 64 (field r 8 8)) 0 s = .ok (none, t)) : emptyLaunch l r s = .ok t := by
  have h' : emptyLaunch l r s = endAt (launchCtx s l) l.queue (BitVec.ofNat 64 (field r 8 8)) 0 s := if_neg h
  rw [h', endAt, he]
  rfl

theorem bit_eq (x i : Nat) : (x / 2 ^ i % 2 == 1) = x.testBit i := by
  rw [Nat.testBit_eq_decide_div_mod_eq]
  rfl

theorem isLaunch_parseLaunch (s : State) (p : Nat) (q : Option Nat) (va : Word64) (c : Word32) (pt : Word64) (e : Nat) (bs : List Byte) :
    IsLaunch bs (parseLaunch s p q va c pt e bs) := by
  have h0 := bit_eq (field bs 0x2F 1) 0
  rw [pow_zero, Nat.div_one] at h0
  exact ⟨rfl, rfl, rfl, rfl, rfl, rfl, rfl, rfl, rfl, h0, bit_eq _ 1, rfl, rfl, rfl, rfl, rfl, rfl, rfl, rfl, rfl, rfl, rfl, rfl, rfl⟩

/-- The launch is put at the end of the child queue of a package. -/
def queueChild (p id : Nat) : State → State :=
  mapLaunchQ p 64 (fun q => { q with items := q.items ++ [.launch id [] false] })

theorem queueChild_accepted (p id : Nat) (b : State) :
    let q := (b.pkg p).child
    queueChild p id (noteAccepted p id b) =
      Claims.withQueue p 64 { q with items := q.items ++ [.launch id [] false] } (noteAccepted p id b) := by
  simp [queueChild, noteAccepted, mapLaunchQ, mapPkg, Claims.withQueue, pkg_setPkg_self]

end

end Sys2Proof.Machine
end

section
/-! SUPPORT. O31: the outcomes of `LAUNCH` and `CANCEL` (R176, R178). -/

open Sys2Proof.Claims

namespace Sys2Proof.Machine

set_option Elab.async false

section
variable {s : State} {w : LongWord} {bs : List Byte}

/-- The launch that a record describes, made by the running stream (R328). -/
def childLaunch (p : Nat) (va : Word64) (bs : List Byte) (s : State) : Launch :=
  parseLaunch s p none va (childPair s).1 (childPair s).2.1 (childPair s).2.2 bs

/-- What `LAUNCH` does once the record is read (R176). -/
def launchRecord (p : Nat) (va : Word64) (bs : List Byte) (s : State) : Eff :=
  (acceptLaunch (childLaunch p va bs s) bs (queueChild p) s).bind fun u => .ok (advance 8 u)

/-- `LAUNCH` of a record, its stores committed (R176). -/
def launchOnce (va : Word64) (b : State) : Eff :=
  (stallIf (decide (256 ≤ (b.pkg (agentPkg b.cur)).child.items.length))).bind fun _ =>
    (readVia b (selfCtx b) 256 va 256).bind fun bs => launchRecord (agentPkg b.cur) va bs b

theorem exec_launch_checked : exec (.launch w) s = finish s ((raiseIf (isMcc s.cur) .illegal 0).bind fun _ => (drain s).bind fun _ =>
    (raiseIf (!controlOn 256 (reg s w.a)) .protection 0x15 (reg s w.a)).bind fun _ => whenPerformed (commitOwn s.cur s) (launchOnce (reg s w.a))) := rfl

theorem launch_illegal (hm : isMcc s.cur = true) : Traps (.launch w) s .illegal 0 0 := by
  rw [Traps, exec_launch_checked, hm]
  rfl

theorem launch_drains (hm : isMcc s.cur = false) (hd : ¬Drained s) : exec (.launch w) s = .next s := by
  rw [exec_launch_checked, hm, drain_of_not hd]
  rfl

theorem launch_outside (hm : isMcc s.cur = false) (hd : Drained s) (hc : ¬Claims.controlAt 256 (reg s w.a)) :
    Traps (.launch w) s .protection 0x15 (reg s w.a) := by
  rw [← controlOn_iff, Bool.not_eq_true] at hc
  rw [Traps, exec_launch_checked, hm, drain_of_drained hd, hc]
  rfl

theorem exec_launch (hm : isMcc s.cur = false) (hd : Drained s) (hc : Claims.controlAt 256 (reg s w.a)) :
    exec (.launch w) s = finish s (whenPerformed (commitOwn s.cur s) (launchOnce (reg s w.a))) := by
  rw [exec_launch_checked, hm, drain_of_drained hd, controlOn_iff.mpr hc]
  rfl

theorem launchOnce_full {va : Word64} (h : 256 ≤ (s.pkg (agentPkg s.cur)).child.items.length) : launchOnce va s = .error .stall := by
  rw [launchOnce, decide_eq_true h]
  rfl

theorem launchOnce_room {va : Word64} (h : (s.pkg (agentPkg s.cur)).child.items.length < 256) :
    launchOnce va s = (readVia s (selfCtx s) 256 va 256).bind fun bs => launchRecord (agentPkg s.cur) va bs s := by
  rw [launchOnce, decide_eq_false (Nat.not_le.mpr h)]
  rfl

theorem launchRecord_accepted {p : Nat} {va : Word64} {u : State} (h : acceptLaunch (childLaunch p va bs s) bs (queueChild p) s = .ok u) :
    launchRecord p va bs s = .ok (advance 8 u) := by rw [launchRecord, h]; rfl

/-- A `LAUNCH` whose record has been read and whose launch has been accepted goes on (R176). -/
theorem launch_gives {u : State} (hm : isMcc s.cur = false) (hd : Drained s) (hc : Claims.controlAt 256 (reg s w.a))
    (hu : (self (commitOwn s.cur s)).uw = 0) (hn : ((commitOwn s.cur s).pkg (agentPkg s.cur)).child.items.length < 256)
    (hr : readVia (commitOwn s.cur s) (selfCtx (commitOwn s.cur s)) 256 (reg s w.a) 256 = .ok bs)
    (ha : acceptLaunch (childLaunch (agentPkg s.cur) (reg s w.a) bs (commitOwn s.cur s)) bs (queueChild (agentPkg s.cur)) (commitOwn s.cur s) = .ok u) :
    exec (.launch w) s = .next (advance 8 u) := by
  have hcur : (commitOwn s.cur s).cur = s.cur := (onlyCommit_commitOwn s.cur s).cur
  rw [exec_launch hm hd hc, whenPerformed, if_pos hu, launchOnce_room (by rwa [hcur]), hr, hcur]
  exact congrArg (finish s) (launchRecord_accepted ha)

theorem launch_unperformed (hm : isMcc s.cur = false) (hd : Drained s) (hc : Claims.controlAt 256 (reg s w.a))
    (hu : (self (commitOwn s.cur s)).uw ≠ 0) : exec (.launch w) s = .next (commitOwn s.cur s) := by
  rw [exec_launch hm hd hc, whenPerformed, if_neg hu]
  rfl

theorem launch_full (hm : isMcc s.cur = false) (hd : Drained s) (hc : Claims.controlAt 256 (reg s w.a))
    (hu : (self (commitOwn s.cur s)).uw = 0) (hn : 256 ≤ ((commitOwn s.cur s).pkg (agentPkg s.cur)).child.items.length) :
    exec (.launch w) s = .next s := by
  have hcur : (commitOwn s.cur s).cur = s.cur := (onlyCommit_commitOwn s.cur s).cur
  rw [exec_launch hm hd hc, whenPerformed, if_pos hu, launchOnce_full (by rwa [hcur])]
  rfl

theorem launch_unread {x : Trap} (hm : isMcc s.cur = false) (hd : Drained s) (hc : Claims.controlAt 256 (reg s w.a))
    (hu : (self (commitOwn s.cur s)).uw = 0) (hn : ((commitOwn s.cur s).pkg (agentPkg s.cur)).child.items.length < 256)
    (hr : readVia (commitOwn s.cur s) (selfCtx (commitOwn s.cur s)) 256 (reg s w.a) 256 = .error (.trap x)) :
    exec (.launch w) s = .next (takeTrap s.cur x false s) := by
  have hcur : (commitOwn s.cur s).cur = s.cur := (onlyCommit_commitOwn s.cur s).cur
  rw [exec_launch hm hd hc, whenPerformed, if_pos hu, launchOnce_room (by rwa [hcur]), hr]
  rfl

end

section
variable {s t u : State} {l : Launch} {r : List Byte} {put : Nat → State → State} {id : Nat}

/-! What is made of a good launch (R322, R327). -/

theorem launchKept_alone (hn : l.count = 0) (h : (BitVec.ofNat 64 (field r 8 8) : Word64) = 0) : launchKept l put id r s = .ok s := by
  rw [launchKept, if_pos hn, emptyLaunch_alone h]

theorem launchKept_above (hn : l.count = 0) (h : (BitVec.ofNat 64 (field r 8 8) : Word64) ≠ 0)
    (he : endRecord (launchCtx s l) 64 (BitVec.ofNat 64 (field r 8 8)) 0 s = .ok (none, t)) : launchKept l put id r s = .ok t := by
  rw [launchKept, if_pos hn, emptyLaunch_above h he]

theorem launchKept_cancelled (hn : l.count ≠ 0) (hc : chainCancelled s (launchCtx s l) 4 l.cc = true) :
    launchKept l put id r s = endUnplaced id 8 s := by
  rw [launchKept, if_neg hn, if_pos hc]

theorem launchKept_queued (hn : l.count ≠ 0) (hc : chainCancelled s (launchCtx s l) 4 l.cc = false) :
    launchKept l put id r s = .ok (put id (noteAccepted l.pkg id s)) := by
  rw [launchKept, if_neg hn, hc]
  rfl

end

section
variable {s : State} {w : LongWord}

/-! `CANCEL` (R178). -/

/-- `CANCEL` of a record that can be read (R178). -/
def cancelRecord (w : LongWord) (n : Named) (q : Place) (key : Nat) (c : Ctx) (f : State) : Eff :=
  let bs := readPlace f c q 0x14
  if numAt bs 0 8 = 0 ∨ numAt bs 0x12 2 % 2 = 1 then .ok (advance 8 (setReg w.d 0 f))
  else
    let g := putDevice { q with loc := .phys (key + 0x12) } (leBytes 2 (numAt bs 0x12 2 + 1)) f
    (endNamed (n.at (fun k => !homesGone g k)) g).bind fun (u : State) => .ok (if (self u).run = Run.ended then u else advance 8 (setReg w.d 1 u))

/-- `CANCEL` once the items of lost packages have ended, if the record can be read (R178, R377). -/
def cancelLost (w : LongWord) (n : Named) (q : Place) (key : Nat) (s : State) : Eff :=
  (endGone (n.at (homesGone s)) s).bind fun v =>
    match badAt s (selfCtx s) q.loc 0x14 with
    | some d => .ok (advance 8 (mapSelf (fun x => { x with posted := some { cls := .memerr, detail := d, addr := reg s w.a } }) v))
    | none => cancelRecord w n q key (selfCtx s) (foldAt q.loc v)

/-- What `CANCEL` does to the items under a record (R178, R377). -/
def cancelNamed (w : LongWord) (n : Named) (q : Place) (key : Nat) (s : State) : Eff :=
  if (n.at (homesGone s)).launches = [] ∧ (n.at (homesGone s)).queued = [] ∧ (n.at (homesGone s)).handed = [] then
    match badAt s (selfCtx s) q.loc 0x14 with
    | some d => raise .memerr d (reg s w.a)
    | none => cancelLost w n q key s
  else cancelLost w n q key s

/-- What `CANCEL` does at a place (R178). -/
def cancelAt (w : LongWord) (q : Place) (s : State) : Eff :=
  match q.loc with
  | .scr _ => .ok (advance 8 (setReg w.d 0 s))
  | .phys key =>
    let n := namedBy s (selfCtx s).pkg key
    (raiseIf (n.foreign (jobOf (selfCtx s).ctxid)) .protection 0x14).bind fun _ => cancelNamed w n q key s

theorem exec_cancel_checked : exec (.cancel w) s = finish s ((raiseIf (isMcc s.cur) .illegal 0).bind fun _ =>
    (raiseIf (!controlOn 8 (reg s w.a)) .protection 0x15 (reg s w.a)).bind fun _ =>
      (place s (selfCtx s) { write := true } (reg s w.a) 8).bind fun q => cancelAt w q s) := by
  change finish s (cancelForm w s) = _
  unfold cancelForm cancelAt cancelNamed cancelLost cancelRecord
  rfl

theorem cancel_illegal (hm : isMcc s.cur = true) : Traps (.cancel w) s .illegal 0 0 := by
  rw [Traps, exec_cancel_checked, hm]
  rfl

theorem cancel_outside (hm : isMcc s.cur = false) (hc : ¬Claims.controlAt 8 (reg s w.a)) : Traps (.cancel w) s .protection 0x15 (reg s w.a) := by
  rw [← controlOn_iff, Bool.not_eq_true] at hc
  rw [Traps, exec_cancel_checked, hm, hc]
  rfl

theorem exec_cancel (hm : isMcc s.cur = false) (hc : Claims.controlAt 8 (reg s w.a)) :
    exec (.cancel w) s = finish s ((place s (selfCtx s) { write := true } (reg s w.a) 8).bind fun q => cancelAt w q s) := by
  rw [exec_cancel_checked, hm, controlOn_iff.mpr hc]
  rfl

theorem exec_cancel_placed {q : Place} (hm : isMcc s.cur = false) (hc : Claims.controlAt 8 (reg s w.a))
    (hp : place s (selfCtx s) { write := true } (reg s w.a) 8 = .ok q) : exec (.cancel w) s = finish s (cancelAt w q s) := by
  rw [exec_cancel hm hc, hp]
  rfl

theorem selfCtx_pkg (s : State) : (selfCtx s).pkg = agentPkg s.cur := by
  unfold selfCtx ctxOf
  cases s.cur <;> rfl

theorem cancelAt_foreign {q : Place} {key : Nat} (hq : q.loc = .phys key) (hf : (namedBy s (agentPkg s.cur) key).foreign (jobOf (selfCtx s).ctxid) = true) :
    cancelAt w q s = .error (.trap { cls := .protection, detail := 0x14, addr := 0 }) := by
  rw [cancelAt, hq]
  dsimp only
  rw [selfCtx_pkg, hf]
  rfl

theorem cancelAt_own {q : Place} {key : Nat} (hq : q.loc = .phys key) (hf : (namedBy s (agentPkg s.cur) key).foreign (jobOf (selfCtx s).ctxid) = false) :
    cancelAt w q s = cancelNamed w (namedBy s (agentPkg s.cur) key) q key s := by
  rw [cancelAt, hq]
  dsimp only
  rw [selfCtx_pkg, hf]
  rfl

end

section
variable {s u v : State} {w : LongWord} {n : Named} {q : Place} {key d : Nat}

theorem cancelNamed_trap (hb : badAt s (selfCtx s) q.loc 0x14 = some d)
    (hl : (n.at (homesGone s)).launches = [] ∧ (n.at (homesGone s)).queued = [] ∧ (n.at (homesGone s)).handed = []) :
    cancelNamed w n q key s = .error (.trap { cls := .memerr, detail := d, addr := reg s w.a }) := by
  rw [cancelNamed, if_pos hl, hb]
  rfl

theorem cancelNamed_posted (hv : endGone (n.at (homesGone s)) s = .ok v) (hb : badAt s (selfCtx s) q.loc 0x14 = some d)
    (hl : (n.at (homesGone s)).launches ≠ [] ∨ (n.at (homesGone s)).queued ≠ [] ∨ (n.at (homesGone s)).handed ≠ []) :
    cancelNamed w n q key s = .ok (advance 8 (mapSelf (fun x => { x with posted := some { cls := .memerr, detail := d, addr := reg s w.a } }) v)) := by
  have hl' : ¬((n.at (homesGone s)).launches = [] ∧ (n.at (homesGone s)).queued = [] ∧ (n.at (homesGone s)).handed = []) := by tauto
  rw [cancelNamed, if_neg hl', cancelLost, hv, hb]
  rfl

theorem cancelNamed_read (hv : endGone (n.at (homesGone s)) s = .ok v) (hb : badAt s (selfCtx s) q.loc 0x14 = none) :
    cancelNamed w n q key s = cancelRecord w n q key (selfCtx s) (foldAt q.loc v) := by
  have h : cancelLost w n q key s = cancelRecord w n q key (selfCtx s) (foldAt q.loc v) := by
    rw [cancelLost, hv, hb]
    rfl
  rw [cancelNamed, hb, h]
  exact ite_self _

end

end Sys2Proof.Machine
end

section
/-! SUPPORT. O31: `LAUNCH` and `CANCEL`, put together (R176, R178, R322, R323, R325, R327). -/

open Sys2Proof.Claims

namespace Sys2Proof.Machine

set_option Elab.async false

section
variable {s u v : State} {w : LongWord} {n : Named} {q : Place} {key d : Nat} {c : Ctx} {f : State}

theorem dead_iff {bs : List Byte} :
    (numAt bs 0 8 = 0 ∨ numAt bs 0x12 2 % 2 = 1) ↔ (field bs 0 8 = 0 ∨ (field bs 0x12 2).testBit 0 = true) := by
  rw [← bit_eq, pow_zero, Nat.div_one, beq_iff_eq]
  rfl

theorem cancelRecord_dead (h : field (readPlace f c q 0x14) 0 8 = 0 ∨ (field (readPlace f c q 0x14) 0x12 2).testBit 0 = true) :
    cancelRecord w n q key c f = .ok (advance 8 (setReg w.d 0 f)) := if_pos (dead_iff.mpr h)

/-- The state in which CANC is set in a record (R178). -/
def cancSet (q : Place) (key : Nat) (c : Ctx) (f : State) : State :=
  putDevice { q with loc := .phys (key + 0x12) } (leBytes 2 (field (readPlace f c q 0x14) 0x12 2 + 1)) f

theorem cancelRecord_live (h : ¬(field (readPlace f c q 0x14) 0 8 = 0 ∨ (field (readPlace f c q 0x14) 0x12 2).testBit 0 = true))
    (hu : endNamed (n.at (fun k => !homesGone (cancSet q key c f) k)) (cancSet q key c f) = .ok u) :
    cancelRecord w n q key c f = .ok (if (self u).run = .ended then u else advance 8 (setReg w.d 1 u)) := by
  have hl : cancelRecord w n q key c f = (endNamed (n.at (fun k => !homesGone (cancSet q key c f) k)) (cancSet q key c f)).bind
      fun (u : State) => .ok (if (self u).run = Run.ended then u else advance 8 (setReg w.d 1 u)) := if_neg (fun k => h (dead_iff.mp k))
  rw [hl, hu]
  rfl

end

/-! The outcomes of a `LAUNCH` whose record has been read, by what is made of its launch. -/

section
variable {s : State} {w : LongWord}

/-- The accepted launch's step, as the obligation tells it (R322, R327). -/
theorem acceptLaunch_queued {l : Launch} {bs r : List Byte} {rows : List ScheduleRow} {u : State} {es : List SchedEntry × State} {put : Nat → State → State}
    (hc : counterOf (launchRead l s) l = .ok r) (hok : launchOk l bs = true) (hn : field r 0 8 = l.count)
    (hr : readRows l (List.range l.nsched) (launchRead l s) = .ok (rows, u)) (he : readSchedule { l with rows := rows } 0 rows u = .ok es) :
    acceptLaunch l bs put s = launchKept { l with rows := rows } put s.nextId r (u.setLaunch s.nextId { l with rows := rows }) :=
  acceptLaunch_good hc (goodLaunch_some hok hn hr he)

end

end Sys2Proof.Machine

open Sys2Proof Sys2Proof.Machine Sys2Proof.Claims

/-- Settles O31: the checks in their order, then the branches of the acceptance of a launch; `CANCEL` by what it finds under its record. -/
theorem childLaunchesAreQueuedAndCancelled : Obligations.ChildLaunchesAreQueuedAndCancelled := by
  intro s w va p c
  refine ⟨fun hm => ⟨launch_illegal hm, cancel_illegal hm⟩, launch_drains, launch_outside, fun hm hd hc => ?_, cancel_outside, fun hm hc => ?_⟩
  · intro b id gives
    refine ⟨launch_unperformed hm hd hc, launch_full hm hd hc, fun hu hn => ⟨fun x => launch_unread hm hd hc hu hn, fun bs hbs => ?_⟩⟩
    intro pair l b0 v
    have hgives : ∀ {t}, acceptLaunch l bs (queueChild p) b = .ok t → gives t := launch_gives hm hd hc hu hn hbs
    refine ⟨⟨isLaunch_parseLaunch .., rfl, rfl, rfl, Nat.min_le_right _ _⟩, ?_, fun hbad => ⟨fun r pl t hr hp ht => ?_, fun e he => ?_⟩⟩
    · intro r rows b1 es hr hok hf hrows hes b2 up
      have ha : acceptLaunch l bs (queueChild p) b = launchKept { l with rows := rows } (queueChild p) id r b2 := acceptLaunch_queued hr hok hf hrows hes
      refine ⟨fun h0 hup => hgives (ha.trans (launchKept_alone h0 hup)), fun h0 hup t ht => hgives (ha.trans (launchKept_above h0 hup ht)),
        fun h0 hx t ht => hgives (ha.trans ((launchKept_cancelled h0 hx).trans ht)), fun h0 hx => ?_⟩
      have hq : gives (queueChild p id (noteAccepted p id b2)) := hgives (ha.trans (launchKept_queued h0 hx))
      rwa [queueChild_accepted] at hq
    · exact hgives ((acceptLaunch_rejected hr (goodLaunch_none (hbad r hr)) hp).trans ht)
    · exact hgives (acceptLaunch_unread rfl he)
  · refine ⟨fun x hx => ?_, fun q key hp hq => ?_⟩
    · rw [exec_cancel hm hc, hx]
      rfl
    · intro n lost bad
      have hexec : exec (.cancel w) s = finish s (cancelAt w q s) := exec_cancel_placed hm hc hp
      refine ⟨fun hf => ?_, fun hf v hv => ?_⟩
      · rw [Traps, hexec, cancelAt_foreign hq hf]
        rfl
      have hown : exec (.cancel w) s = finish s (cancelNamed w n q key s) := by rw [hexec, cancelAt_own hq hf]
      refine ⟨fun k hk => ⟨fun hl => ?_, fun hl => ?_⟩, fun hb => ?_⟩
      · rw [Traps, hown, cancelNamed_trap hk hl]
        rfl
      · rw [hown, cancelNamed_posted hv hk hl]
        rfl
      · intro f bs flags dead
        have hread : exec (.cancel w) s = finish s (cancelRecord w n q key c f) := hown.trans (congrArg (finish s) (cancelNamed_read hv hb))
        refine ⟨fun hdead => ⟨_, ?_, regWrite_advance w.d 0 8 f⟩, fun hlive u hu => ⟨fun hrun => ⟨_, ?_, regWrite_advance w.d 1 8 u⟩, fun hrun => ?_⟩⟩
        · rw [hread, cancelRecord_dead hdead]
          rfl
        · rw [hread, cancelRecord_live hlive hu, if_neg hrun]
          rfl
        · rw [hread, cancelRecord_live hlive hu, if_pos hrun]
          rfl
end

section
/-! SUPPORT. O14: the engine's pushes (R107, R109, R219, R223, R336). -/

open Sys2Proof.Claims

namespace Sys2Proof.Machine

set_option Elab.async false

section
variable {s b : State} {ag : Agent} {n : Nat} {x : AaeStream} {q : Queue}

/-! What a push leaves unchanged: the state of the groups. -/

theorem groups_noteServed (ag : Agent) (n : Nat) (s : State) : (noteServed ag n s).groups = s.groups := by
  cases ag <;> rfl

theorem groups_of_onlyMemory {t : State} (h : OnlyMemory s t) : t.groups = s.groups := by rw [h]

theorem onlyMemory_writeDescriptorFlags (p : Nat) (s : State) : OnlyMemory s (writeDescriptorFlags p s) := by
  unfold writeDescriptorFlags
  dsimp only
  refine OnlyMemory.trans ?_ (onlyMemory_writeCtl _ _ _ _)
  refine OnlyMemory.trans ?_ (onlyMemory_writeCtl _ _ _ _)
  exact onlyMemory_writeCtl _ _ _ _

theorem groups_queueFault (p : Nat) (u : FaultUnit) (s : State) : (queueFault p u s).groups = s.groups := by
  unfold queueFault
  split
  · rfl
  · rw [groups_of_onlyMemory (onlyMemory_writeDescriptorFlags _ _), mapPkg_groups]

theorem groups_noteBad (keys : List Nat) (s : State) : (noteBad keys s).groups = s.groups := by
  induction keys generalizing s with
  | nil => rfl
  | cons k ks ih =>
    refine (ih _).trans ?_
    dsimp only
    split
    · split
      · exact groups_queueFault ..
      · rfl
    · rfl

theorem onlyMemory_foldPush (c : Ctx) (d : AaeDesc) (take : List (Option Nat)) (s : State) : OnlyMemory s (foldPush c d take s) := by
  unfold foldPush
  split
  · exact .refl s
  · exact .seqAll (fun p s => onlyMemory_foldAt (Place.loc p) s) _ s

theorem group_congr {t : State} (h : t.groups = s.groups) (a : Agent) : t.group a = s.group a := by rw [State.group, h]; rfl

/-- A queue of a group takes a value. -/
def withAae (ag : Agent) (n : Nat) (q : Queue) (s : State) : State := mapGroup ag (mapQueue n fun _ => q) s

theorem laneStreamStep_withAae (ag : Agent) (n : Nat) (q : Queue) (s : State) : LaneStreamStep ag s (withAae ag n q s) :=
  ⟨rfl, fun _ ha => group_setGroup_other s _ ha⟩

theorem group_withAae (ag : Agent) (n : Nat) (q : Queue) (s : State) :
    (withAae ag n q s).group ag = { s.group ag with queues := Vec.set (s.group ag).queues n q } := group_setGroup_self ..

/-! When a queue's stream can push (R107, R336, R345). -/

theorem engineRuns_of (hg : isGroup ag = true) (hm : sysMode s ag = false) (he : (s.stream ag).run ≠ .ended) (hf : (s.stream ag).run ≠ .fenced) :
    engineRuns s ag = true := by
  simp [engineRuns, hg, hm, he, hf]

theorem pushReady_full (hq : (Vec.get (s.group ag).queues n).running = some x) (h : 8 ≤ (Vec.get (s.group ag).queues n).entries.length) :
    pushReady s ag n = false := by
  simp [pushReady, hq, h]

theorem pushReady_stalled (hq : (Vec.get (s.group ag).queues n).running = some x) (hx : x.fault = none) (hb : (planPush x).bad = none)
    (hs : pushStalls s (pushCtx s ag) x.desc (planPush x).take = true) : pushReady s ag n = false := by
  simp [pushReady, hq, hx, hb, hs]

theorem pushReady_of (hr : engineRuns s ag = true) (hq : (Vec.get (s.group ag).queues n).running = some x)
    (h : (Vec.get (s.group ag).queues n).entries.length < 8)
    (hp : x.fault.isSome ∨ (passLen x.desc ≠ 0 ∧ ((planPush x).bad.isSome ∨ pushStalls s (pushCtx s ag) x.desc (planPush x).take = false))) :
    pushReady s ag n = true := by
  simpa [pushReady, hq, hr, h] using hp

/-! What the event does (R107, R336). -/

theorem endsNow_false (hx : x.fault.isSome ∨ passLen x.desc ≠ 0) : (engineRuns s ag && x.fault.isNone && passLen x.desc == 0) = false := by
  rcases hx with hx | hx
  · simp [Option.isNone_eq_false_iff.mpr hx]
  · simp [hx]

theorem aaePush_ends {n : BitVec 3} (hr : engineRuns s ag = true) (hq : (Vec.get (s.group ag).queues n.toNat).running = some x) (hx : x.fault = none)
    (hN : passLen x.desc = 0) : exec (.aaePush ag n) s = .next (withAae ag n.toNat (endStream (Vec.get (s.group ag).queues n.toNat)) s) := by
  change execAaePush ag n s = _
  simp only [execAaePush, hq, hr, hx, hN]
  rfl

theorem aaePush_idle {n : BitVec 3} (hq : (Vec.get (s.group ag).queues n.toNat).running = some x) (hx : x.fault.isSome ∨ passLen x.desc ≠ 0)
    (h : pushReady s ag n.toNat = false ∨ pushTurn s ag n.toNat = false) : exec (.aaePush ag n) s = .next s := by
  have h2 : (pushReady s ag n.toNat && pushTurn s ag n.toNat) = false := Bool.and_eq_false_iff.mpr h
  change execAaePush ag n s = _
  simp only [execAaePush, hq, endsNow_false hx, h2]
  rfl

theorem aaePush_pushes {n : BitVec 3} (hq : (Vec.get (s.group ag).queues n.toNat).running = some x) (hx : x.fault.isSome ∨ passLen x.desc ≠ 0)
    (hr : pushReady s ag n.toNat = true) (ht : pushTurn s ag n.toNat = true) :
    exec (.aaePush ag n) s = finishEvent s (pushNow ag n.toNat x (noteServed ag n.toNat s)) := by
  change execAaePush ag n s = _
  simp only [execAaePush, hq, endsNow_false hx, hr, ht]
  rfl

/-! The cases of a push (R107, R109, R219, R223). -/

/-- A queue whose streams a poisoned entry has ended (R109). -/
def poisoned (t : Trap) (q : Queue) : Queue := { q with running := none, pending := none, entries := q.entries ++ [.poison t.cls t.detail t.addr] }

theorem pushNow_record {t : Trap} (h : x.fault = some t) : pushNow ag n x s = .ok (mapGroup ag (mapQueue n (poisoned t)) s) := by
  rw [pushNow, h]
  rfl

theorem pushNow_policy {l : Nat} (h : x.fault = none) (hb : (planPush x).bad = some l) : pushNow ag n x s =
    .ok (mapGroup ag (mapQueue n (poisoned { cls := .ragged, detail := 6, addr := (elementAt (pushCtx s ag) s x.desc (x.pos + l)).1 })) s) := by
  rw [pushNow, h]
  dsimp only
  rw [hb]
  rfl

theorem pushNow_fault {t : Trap} (h : x.fault = none) (hb : (planPush x).bad = none)
    (hf : pushFault s (pushCtx s ag) x.desc (planPush x).take = some t) : pushNow ag n x s = .ok (mapGroup ag (mapQueue n (poisoned t))
      (noteBad (badKeys s (pushCtx s ag) (pushPlaces s (pushCtx s ag) x.desc (planPush x).take) (tyBytes x.desc.ty.toNat)) s)) := by
  rw [pushNow, h]
  dsimp only
  rw [hb]
  dsimp only
  rw [hf]
  rfl

theorem pushNow_words {ws : List Word32} (h : x.fault = none) (hb : (planPush x).bad = none)
    (hf : pushFault s (pushCtx s ag) x.desc (planPush x).take = none)
    (hw : pushWords (foldPush (pushCtx s ag) x.desc (planPush x).take s) (pushCtx s ag) x.desc (planPush x).take = .ok ws) :
    pushNow ag n x s = .ok (mapGroup ag (mapQueue n fun q => passPush x (planPush x).step { q with entries := q.entries ++ [.words (laneVec ws)] })
      (foldPush (pushCtx s ag) x.desc (planPush x).take s)) := by
  rw [pushNow, h]
  dsimp only
  rw [hb]
  dsimp only
  rw [hf]
  dsimp only
  rw [hw]
  rfl

theorem passPush_eq (x : AaeStream) (step : Nat) (q : Queue) :
    let pos := x.pos + step
    let N := passLen x.desc
    passPush x step q = { q with
      running := if pos < N then some { x with pos := pos } else if x.pass + 1 < x.passes then some { x with pos := 0, pass := x.pass + 1 } else q.pending
      pending := if pos < N ∨ x.pass + 1 < x.passes then q.pending else none } := by
  intro pos N
  unfold passPush
  by_cases h : x.pos + step < passLen x.desc
  · simp [pos, N, h]
  · by_cases h' : x.pass + 1 < x.passes
    · simp [pos, N, h, h']
    · simp [pos, N, h, h', endStream]

theorem take_plain (h : x.rag = none) {l : Nat} (hl : l < 32) :
    (planPush x).take[l]? = some (if x.pos + l < passLen x.desc then some (x.pos + l) else none) := by
  simp [planPush, h, hl]

/-- A push changes its queue (R107, R109). -/
theorem aaePush_changes {n : BitVec 3} {f : Queue → Queue} {q : Queue} (hg : b.groups = s.groups) (hf : f (Vec.get (s.group ag).queues n.toNat) = q)
    (h : exec (.aaePush ag n) s = finishEvent s (.ok (mapGroup ag (mapQueue n.toNat f) b))) :
    ∃ u, exec (.aaePush ag n) s = .next u ∧ LaneStreamStep ag b u ∧ u.group ag = { b.group ag with queues := Vec.set (b.group ag).queues n.toNat q } := by
  have hb : b.group ag = s.group ag := group_congr hg ag
  refine ⟨_, h, laneStreamStep_withAae ag n.toNat _ b, ?_⟩
  rw [← hf, ← hb]
  exact group_withAae ..

end

end Sys2Proof.Machine

open Sys2Proof Sys2Proof.Machine Sys2Proof.Claims

/-- Settles O14: the branches of the push in their order, each as the model's `pushNow` takes it. -/
theorem enginePushesElements : Obligations.EnginePushesElements := by
  intro s ag n x q N take served c becomes poisons hg hm he hf hq
  have hr := engineRuns_of hg hm he hf
  have hs : served.groups = s.groups := groups_noteServed ..
  refine ⟨fun hx l hl => take_plain hx hl, fun hx hN => ⟨_, aaePush_ends hr hq hx hN, laneStreamStep_withAae .., group_withAae ..⟩, fun hx h => ?_,
    fun hx hN hb hst => ?_, fun hroom hturn => ⟨fun t ht => ?_, fun l hx hN hb => ?_, fun hx hN hb hst => ?_⟩⟩
  · exact aaePush_idle hq hx (h.imp (pushReady_full hq) id)
  · exact aaePush_idle hq (.inr hN) (.inl (pushReady_stalled hq hx hb hst))
  · have hsome : x.fault.isSome := by rw [ht]; rfl
    have hp := aaePush_pushes hq (.inl hsome) (pushReady_of hr hq hroom (.inl hsome)) hturn
    rw [pushNow_record ht] at hp
    exact aaePush_changes hs rfl hp
  · have hsome : (planPush x).bad.isSome := by rw [hb]; rfl
    have hp := aaePush_pushes hq (.inr hN) (pushReady_of hr hq hroom (.inr ⟨hN, .inl hsome⟩)) hturn
    rw [pushNow_policy hx hb] at hp
    exact aaePush_changes hs rfl hp
  · have hp := aaePush_pushes hq (.inr hN) (pushReady_of hr hq hroom (.inr ⟨hN, .inr hst⟩)) hturn
    refine ⟨fun hfault => ?_, fun t ht => ?_⟩
    · intro b ws hw pos more
      rw [pushNow_words hx hb hfault hw] at hp
      exact aaePush_changes ((groups_of_onlyMemory (onlyMemory_foldPush ..)).trans hs) (passPush_eq ..) hp
    · rw [pushNow_fault hx hb ht] at hp
      exact aaePush_changes ((groups_noteBad ..).trans hs) rfl hp
end

section
/-! SUPPORT. O10, O53: what a device writes is fixed by memory, keys, packages and caches alone (R158, R288). -/

open Sys2Proof.Claims

namespace Sys2Proof.Machine

set_option Elab.async false

/-- Two states with the same bytes, the same keys, the same packages and the same cores. -/
structure Alike (s t : State) : Prop where
  mem : t.mem = s.mem
  lineKeys : t.lineKeys = s.lineKeys
  pkgs : t.pkgs = s.pkgs
  cores : t.cores = s.cores

section
variable {s t u : State}

theorem Alike.refl (s : State) : Alike s s := ⟨rfl, rfl, rfl, rfl⟩

theorem Alike.seqAll {α : Type} {f g : α → State → State} (h : ∀ a {s t}, Alike s t → Alike (f a s) (g a t)) (l : List α) (hs : Alike s t) :
    Alike (seqAll f l s) (seqAll g l t) := by
  induction l generalizing s t with
  | nil => exact hs
  | cons a l ih => exact ih (h a hs)

variable (h : Alike s t)
include h

theorem Alike.pkg (p : Nat) : t.pkg p = s.pkg p := by rw [State.pkg, h.pkgs]; rfl

theorem Alike.readRange (mat : Under) (k n : Nat) : readRange t mat k n = readRange s mat k n := by
  induction n generalizing k with
  | zero => rfl
  | succ n ih => rw [Machine.readRange, Machine.readRange, ih, readByte_congr h.mem h.lineKeys h.pkgs]

theorem Alike.lineKey (line : Nat) : lineKey t line = lineKey s line := lineKey_congr h.pkgs (by rw [h.lineKeys])

theorem Alike.adoptLine (mat : Under) (line : Nat) : Alike (adoptLine mat line s) (adoptLine mat line t) := by
  have hh : heldUnder t mat line = heldUnder s mat line := by
    unfold heldUnder
    rw [h.lineKey, h.pkg]
  unfold Machine.adoptLine
  rw [hh]
  split
  · exact h
  · exact ⟨by rw [h.mem, h.readRange], by rw [h.lineKeys, tweakOf_congr h.pkgs, h.pkg], h.pkgs, h.cores⟩

theorem Alike.writeByte (mat : Under) (k : Nat) (v : Byte) : Alike (writeByte mat k v s) (writeByte mat k v t) := by
  obtain ⟨hm, hl, hp, hc⟩ := h.adoptLine mat (k / 128)
  unfold Machine.writeByte
  rw [goHeld_congr k h.pkgs]
  split
  · exact h
  · exact ⟨congrArg (Cells.write · k v) hm, hl, hp, hc⟩

omit h in
theorem Alike.writeRange (mat : Under) (bs : List Byte) (k : Nat) (h : Alike s t) : Alike (writeRange mat k bs s) (writeRange mat k bs t) := by
  induction bs generalizing k s t with
  | nil => exact h
  | cons b bs ih => exact ih (k + 1) (h.writeByte mat k b)

theorem Alike.annexPut (k n m : Nat) : Alike (annexPut k n (s.mem.read k) s) (annexPut k m (t.mem.read k) t) := by
  have hb : Alike (annexByte k (s.mem.read k) s) (annexByte k (t.mem.read k) t) := by
    have hup : pkgUp t (keyPkg k) = pkgUp s (keyPkg k) := by
      unfold pkgUp
      rw [h.pkg, h.pkgs]
    have hmat : annexMaterial t k = annexMaterial s k := by
      unfold annexMaterial slotMaterial
      rw [h.pkg, h.lineKey]
    unfold annexByte mirrorValue
    rw [hup, h.pkg, hmat, h.mem]
    split
    · exact h
    · exact h.writeByte _ _ _
  have hput (v : Byte) (i : Nat) (a : State) : Alike (annexByte k v a) (Machine.annexPut k i v a) := by
    unfold Machine.annexPut
    dsimp only
    split
    · exact ⟨rfl, rfl, rfl, rfl⟩
    · exact .refl _
  have h1 := hput (s.mem.read k) n s
  have h2 := hput (t.mem.read k) m t
  exact ⟨h2.mem.trans (hb.mem.trans h1.mem.symm), h2.lineKeys.trans (hb.lineKeys.trans h1.lineKeys.symm), h2.pkgs.trans (hb.pkgs.trans h1.pkgs.symm),
    h2.cores.trans (hb.cores.trans h1.cores.symm)⟩

theorem Alike.annexCopy (homes : List Nat) : Alike (annexCopy homes s) (annexCopy homes t) :=
  Alike.seqAll (f := fun k s => Machine.annexPut k s.serial (s.mem.read k) s) (fun k _ _ h => h.annexPut k _ _) homes h

theorem Alike.foldShadow (sh : Shadow) : Alike (foldShadow sh s) (foldShadow sh t) := by
  obtain ⟨hm, hl, hp, hc⟩ := h.writeRange sh.mat (leBytes (shadowFmt sh).2 ((shadowFmt sh).1.round rneMode (fmt32.decode sh.val.toNat))) sh.key
  unfold Machine.foldShadow
  refine Alike.annexCopy ?_ _
  exact ⟨hm, hl, hp, hc⟩

theorem Alike.foldCoreLine (line : Nat) (c : (Nat × Nat) × Core) : Alike (foldCoreLine line c s) (foldCoreLine line c t) := by
  obtain ⟨hm, hl, hp, hc⟩ := Alike.seqAll (fun sh _ _ h => Alike.foldShadow h sh) (c.2.shadows.filter (fun sh => sh.key / 128 == line)) h
  unfold Machine.foldCoreLine
  dsimp only
  split
  · exact h
  · refine ⟨hm, hl, hp, ?_⟩
    unfold mapCore State.setCore State.core
    rw [hc]

theorem Alike.foldLine (line : Nat) : Alike (foldLine line s) (foldLine line t) := by
  unfold Machine.foldLine
  rw [h.cores]
  exact Alike.seqAll (fun c _ _ h => Alike.foldCoreLine h line c) s.cores h

theorem Alike.foldKeys (ks : List Nat) : Alike (foldKeys ks s) (foldKeys ks t) := Alike.seqAll (fun l _ _ h => Alike.foldLine h l) _ h

theorem Alike.applyPut (p : Put) : Alike (applyPut none p s) (applyPut none p t) := by
  unfold Machine.applyPut
  split
  · rw [readByte_congr h.mem h.lineKeys h.pkgs]
    exact h.writeByte _ _ _
  · exact h

theorem Alike.devicePuts (ps : List Put) : Alike (devicePuts ps s) (devicePuts ps t) := by
  have hw := Alike.seqAll (fun p _ _ h => Alike.applyPut h p) ps (h.foldKeys (putKeys ps))
  obtain ⟨_, _, _, hs⟩ := applyPuts_eq none ps s
  obtain ⟨_, _, _, ht⟩ := applyPuts_eq none ps t
  unfold Machine.devicePuts
  rw [hs, ht]
  refine Alike.annexCopy ?_ _
  exact ⟨hw.mem, hw.lineKeys, hw.pkgs, hw.cores⟩

end

end Sys2Proof.Machine
end

section
/-! SUPPORT. O10, O53: a device write at both homes (R288, R298). -/

open Sys2Proof.Claims

namespace Sys2Proof.Machine

set_option Elab.async false

/-! The annex home of a home byte lies in another package, and one line has one annex line (R288). -/

section
variable {j k h : Nat}

theorem isHome_iff : isHome k = true ↔ keyTgt k = 0 ∧ keyOff k < ctlSize := by simp [isHome]

theorem keyPkg_annexKey (hk : isHome k = true) : keyPkg (annexKey k) = keyPkg k ^^^ 1 := by
  obtain ⟨-, ho⟩ := isHome_iff.mp hk
  unfold annexKey physKey
  generalize keyPkg k ^^^ 1 = q
  unfold keyPkg ctlSize at *
  omega

theorem keyPkg_line (h : j / 128 = k / 128) : keyPkg j = keyPkg k := by
  unfold keyPkg
  omega

theorem xor_one_ne (n : Nat) : n ^^^ 1 ≠ n := by
  intro h
  have h0 := congrArg (n ^^^ ·) h
  simp at h0

theorem annexKey_line_ne (hk : isHome k = true) (hj : keyPkg j = keyPkg k) : j / 128 ≠ annexKey k / 128 := by
  intro hl
  have hp := keyPkg_line hl
  rw [keyPkg_annexKey hk, hj] at hp
  exact xor_one_ne _ hp.symm

theorem annexKey_line_iff (hj : isHome j = true) (hk : isHome k = true) (hp : keyPkg j = keyPkg k) :
    annexKey j / 128 = annexKey k / 128 ↔ j / 128 = k / 128 := by
  obtain ⟨htj, hoj⟩ := isHome_iff.mp hj
  obtain ⟨htk, hok⟩ := isHome_iff.mp hk
  unfold annexKey physKey
  rw [hp]
  generalize keyPkg k ^^^ 1 = q
  unfold keyPkg keyTgt keyOff ctlSize at *
  omega

theorem annexKey_inj (hj : isHome j = true) (hk : isHome k = true) (hp : keyPkg j = keyPkg k) (h : annexKey j = annexKey k) : j = k := by
  obtain ⟨htj, hoj⟩ := isHome_iff.mp hj
  obtain ⟨htk, hok⟩ := isHome_iff.mp hk
  unfold annexKey physKey at h
  rw [hp] at h
  generalize keyPkg k ^^^ 1 = q at h
  unfold keyPkg keyTgt keyOff ctlSize at *
  omega

theorem goHeld_annexKey (s : State) (hk : isHome k = true) : goHeld s (annexKey k) = false := by
  obtain ⟨-, ho⟩ := isHome_iff.mp hk
  have h8 : 8 ≤ keyOff (annexKey k) := by
    unfold annexKey physKey
    generalize keyPkg k ^^^ 1 = q
    unfold keyOff ctlSize at *
    omega
  unfold goHeld
  simp only [Bool.and_eq_false_iff, decide_eq_false_iff_not]
  exact .inl (.inr (by omega))

end

/-! What one write leaves of the other lines. -/

section
variable {s t u : State} {P : Nat → Prop}

/-- The bytes and the keys of the lines outside `P` are as they were. -/
structure KeepsLines (P : Nat → Prop) (s t : State) : Prop where
  pkgs : t.pkgs = s.pkgs
  keys : ∀ l, ¬P l → Table.find? t.lineKeys l = Table.find? s.lineKeys l
  bytes : ∀ j, ¬P (j / 128) → t.mem.read j = s.mem.read j

theorem KeepsLines.refl (s : State) : KeepsLines P s s := ⟨rfl, fun _ _ => rfl, fun _ _ => rfl⟩

theorem KeepsLines.trans (h : KeepsLines P s u) (k : KeepsLines P u t) : KeepsLines P s t :=
  ⟨k.pkgs.trans h.pkgs, fun l hl => (k.keys l hl).trans (h.keys l hl), fun j hj => (k.bytes j hj).trans (h.bytes j hj)⟩

theorem KeepsLines.mono {Q : Nat → Prop} (h : KeepsLines P s t) (hPQ : ∀ l, P l → Q l) : KeepsLines Q s t :=
  ⟨h.pkgs, fun l hl => h.keys l fun hp => hl (hPQ l hp), fun j hj => h.bytes j fun hp => hj (hPQ _ hp)⟩

theorem KeepsLines.readByte (h : KeepsLines P s t) (m : Under) {j : Nat} (hj : ¬P (j / 128)) : readByte t m j = readByte s m j :=
  readByte_congr_line h.pkgs (h.keys _ hj) (fun i hi => h.bytes i (hi ▸ hj)) m

theorem Alike.keepsLines (h : Alike s t) : KeepsLines P s t := ⟨h.pkgs, fun l _ => by rw [h.lineKeys], fun j _ => by rw [h.mem]⟩

theorem keepsLines_writeByte (mat : Under) (k : Nat) (v : Byte) (h : s.mem.wf = true) : KeepsLines (· = k / 128) s (writeByte mat k v s) := by
  cases hg : goHeld s k with
  | true => rw [writeByte_of_held mat k v hg]; exact .refl s
  | false =>
    rw [writeByte_of_free mat k v hg]
    refine ⟨adoptLine_pkgs s mat _, fun l hl => find?_lineKeys_adoptLine_other s mat _ hl, fun j hj => ?_⟩
    refine (Cells.read_write (adoptLine_memWf mat _ s h) k j v).trans ?_
    rw [if_neg fun e => hj (by rw [e]), mem_adoptLine_other mat _ h hj]

theorem alike_annexPut (k n : Nat) (v : Byte) (s : State) : Alike (annexByte k v s) (annexPut k n v s) := by
  unfold annexPut
  dsimp only
  split
  · exact ⟨rfl, rfl, rfl, rfl⟩
  · exact .refl _

theorem annexPut_memWf (k n : Nat) (v : Byte) (h : s.mem.wf = true) : (annexPut k n v s).mem.wf = true := by
  rw [(alike_annexPut k n v s).mem]
  unfold annexByte
  split
  · exact h
  · exact writeByte_memWf _ _ _ _ h

theorem keepsLines_annexPut (k n : Nat) (v : Byte) (h : s.mem.wf = true) : KeepsLines (· = annexKey k / 128) s (annexPut k n v s) := by
  have hb : KeepsLines (· = annexKey k / 128) s (annexByte k v s) := by
    unfold annexByte
    split
    · exact .refl s
    · exact keepsLines_writeByte _ _ _ h
  exact hb.trans (alike_annexPut k n v s).keepsLines

theorem keepsLines_annexCopy (homes : List Nat) (h : s.mem.wf = true) :
    KeepsLines (fun l => ∃ k, k ∈ homes ∧ l = annexKey k / 128) s (annexCopy homes s) := by
  unfold annexCopy
  induction homes generalizing s with
  | nil => exact .refl s
  | cons a r ih =>
    have h1 := keepsLines_annexPut a s.serial (s.mem.read a) h
    refine (h1.mono fun l hl => ⟨a, List.mem_cons_self, hl⟩).trans ((ih (annexPut_memWf _ _ _ h)).mono ?_)
    rintro l ⟨k, hk, hl⟩
    exact ⟨k, List.mem_cons_of_mem _ hk, hl⟩

end

/-! The annex homes of bytes of one package that is up and mirrored hold what the homes hold (R288). -/

section
variable {s : State} {h a q : Nat}

/-- A home byte stands at its annex home, whose line is under the annex's key. -/
structure Mirrored (h : Nat) (s : State) : Prop where
  byte : s.mem.read (annexKey h) = s.mem.read h
  held : heldUnder s (annexMaterial s h) (annexKey h / 128) = true

theorem heldUnder_congr {t : State} {l : Nat} (m : Under) (hp : t.pkgs = s.pkgs) (hk : Table.find? t.lineKeys l = Table.find? s.lineKeys l) :
    heldUnder t m l = heldUnder s m l := by
  unfold heldUnder State.pkg
  rw [lineKey_congr hp hk, hp]

theorem annexMaterial_congr {t : State} (hp : t.pkgs = s.pkgs) (hk : Table.find? t.lineKeys (h / 128) = Table.find? s.lineKeys (h / 128)) :
    annexMaterial t h = annexMaterial s h := by
  unfold annexMaterial slotMaterial State.pkg
  rw [lineKey_congr hp hk, hp]

theorem Mirrored.keep {t : State} {P : Nat → Prop} (hm : Mirrored h s) (ht : KeepsLines P s t) (h1 : ¬P (h / 128)) (h2 : ¬P (annexKey h / 128)) : Mirrored h t := by
  refine ⟨by rw [ht.bytes _ h1, ht.bytes _ h2, hm.byte], ?_⟩
  rw [annexMaterial_congr ht.pkgs (ht.keys _ h1), heldUnder_congr _ ht.pkgs (ht.keys _ h2), hm.held]

variable (hwf : s.mem.wf = true) (ha : isHome a = true)
include hwf ha

theorem mirrored_mirrorValue : Mirrored a (mirrorValue a (s.mem.read a) s) := by
  have hne : a / 128 ≠ annexKey a / 128 := annexKey_line_ne ha rfl
  have hkeep := keepsLines_writeByte (annexMaterial s a) (annexKey a) (s.mem.read a) hwf
  have hg := goHeld_annexKey s ha
  unfold mirrorValue
  refine ⟨?_, ?_⟩
  · rw [hkeep.bytes a hne, writeByte_of_free _ _ _ hg]
    exact (Cells.read_write (adoptLine_memWf _ _ s hwf) _ _ _).trans (if_pos rfl)
  · rw [annexMaterial_congr hkeep.pkgs (hkeep.keys _ hne), heldUnder_writeByte _ _ _ hg]

/-- Another byte of the package stays mirrored. -/
theorem Mirrored.mirrorValue (hh : isHome h = true) (hp : keyPkg h = keyPkg a) (hm : Mirrored h s) : Mirrored h (mirrorValue a (s.mem.read a) s) := by
  have hkeep := keepsLines_writeByte (annexMaterial s a) (annexKey a) (s.mem.read a) hwf
  have hh1 : h / 128 ≠ annexKey a / 128 := annexKey_line_ne ha hp
  by_cases hl : annexKey h / 128 = annexKey a / 128
  · have hline := (annexKey_line_iff hh ha hp).mp hl
    have hmat : annexMaterial s a = annexMaterial s h := by
      unfold annexMaterial
      rw [keyPkg_annexKey ha, keyPkg_annexKey hh, hp, hline]
    have hheld : heldUnder s (annexMaterial s a) (annexKey a / 128) = true := by rw [hmat, ← hl, hm.held]
    have hw : Machine.mirrorValue a (s.mem.read a) s = { s with mem := s.mem.write (annexKey a) (s.mem.read a) } := by
      unfold Machine.mirrorValue
      rw [writeByte_of_free _ _ _ (goHeld_annexKey s ha), adoptLine, if_pos hheld]
    rw [hw]
    refine ⟨?_, hm.held⟩
    refine (Cells.read_write hwf _ _ _).trans ?_
    rw [show ({ s with mem := s.mem.write (annexKey a) (s.mem.read a) } : State).mem.read h = s.mem.read h from
      (Cells.read_write hwf _ _ _).trans (if_neg fun e => hh1 (by rw [e]))]
    split
    next he => rw [annexKey_inj hh ha hp he]
    next => exact hm.byte
  · exact hm.keep hkeep hh1 hl

end

theorem annexCopy_cons (a : Nat) (r : List Nat) (s : State) : annexCopy (a :: r) s = annexCopy r (annexPut a s.serial (s.mem.read a) s) := rfl

theorem pkgUp_congr {s t : State} (h : t.pkgs = s.pkgs) (q : Nat) : pkgUp t q = pkgUp s q := by
  unfold pkgUp State.pkg
  rw [h]

theorem unmirrored_congr {s t : State} (h : t.pkgs = s.pkgs) (q : Nat) : (t.pkg q).unmirrored = (s.pkg q).unmirrored := by rw [State.pkg, h]; rfl

theorem mirrored_annexPut {s : State} {q a k : Nat} (n : Nat) (hwf : s.mem.wf = true) (hup : pkgUp s q = true) (hum : (s.pkg q).unmirrored = false)
    (ha : isHome a = true ∧ keyPkg a = q) (hk : isHome k = true ∧ keyPkg k = q) (hm : k = a ∨ Mirrored k s) :
    Mirrored k (annexPut a n (s.mem.read a) s) := by
  have hput := alike_annexPut a n (s.mem.read a) s
  have hb : annexByte a (s.mem.read a) s = mirrorValue a (s.mem.read a) s := by
    unfold annexByte
    rw [ha.2, hup, hum]
    exact if_neg (by decide)
  rw [hb] at hput
  have hx : Mirrored k (mirrorValue a (s.mem.read a) s) := by
    rcases hm with rfl | hm
    · exact mirrored_mirrorValue hwf ha.1
    · exact hm.mirrorValue hwf ha.1 hk.1 (hk.2.trans ha.2.symm)
  exact hx.keep (P := fun _ => False) hput.keepsLines id id

theorem annexCopy_mirrors {q k : Nat} (homes : List Nat) {s : State} (hwf : s.mem.wf = true) (hup : pkgUp s q = true) (hum : (s.pkg q).unmirrored = false)
    (hh : ∀ h, h ∈ homes → isHome h = true ∧ keyPkg h = q) (hk : isHome k = true ∧ keyPkg k = q) (hm : k ∈ homes ∨ Mirrored k s) :
    Mirrored k (annexCopy homes s) := by
  induction homes generalizing s with
  | nil => exact hm.resolve_left List.not_mem_nil
  | cons a r ih =>
    have hp := (onlyMemory_annexPut a s.serial (s.mem.read a) s).pkgs
    have hput := mirrored_annexPut (k := k) s.serial hwf hup hum (hh a List.mem_cons_self) hk
    rw [annexCopy_cons]
    refine ih (annexPut_memWf _ _ _ hwf) (by rw [pkgUp_congr hp, hup]) (by rw [unmirrored_congr hp, hum]) (fun h hr => hh h (List.mem_cons_of_mem _ hr)) ?_
    rcases hm with hm | hm
    · exact (List.mem_cons.mp hm).elim (fun he => .inr (hput (.inl he))) .inl
    · exact .inr (hput (.inr hm))

end Sys2Proof.Machine
end

section
/-! SUPPORT. O10, O53: the bytes that a device writes (R288, R298). -/

open Sys2Proof.Claims

namespace Sys2Proof.Machine

set_option Elab.async false

/-- Only the bytes of memory, their keys and errors and earlier values, the commits they settle and the annex's places differ. -/
def OnlyHomes (s t : State) : Prop :=
  t = { s with mem := t.mem, lineKeys := t.lineKeys, early := t.early, annexed := t.annexed, stale := t.stale, bad := t.bad }

section
variable {s t u : State}

theorem OnlyHomes.trans (h : OnlyHomes s u) (k : OnlyHomes u t) : OnlyHomes s t := by
  unfold OnlyHomes at h k ⊢
  rw [h] at k
  exact k

theorem onlyHomes_withMem (m : Cells) (s : State) : OnlyHomes s { s with mem := m } := rfl

theorem onlyHomes_withLine (m : Cells) (l : Table Nat LineKey) (s : State) : OnlyHomes s { s with mem := m, lineKeys := l } := rfl

theorem onlyHomes_adoptLine (mat : Under) (line : Nat) (s : State) : OnlyHomes s (adoptLine mat line s) := by
  unfold adoptLine
  split
  · rfl
  · exact onlyHomes_withLine _ _ s

theorem onlyHomes_writeByte (mat : Under) (k : Nat) (v : Byte) (s : State) : OnlyHomes s (writeByte mat k v s) := by
  unfold writeByte
  split
  · rfl
  · exact (onlyHomes_adoptLine mat (k / 128) s).trans (onlyHomes_withMem _ _)

theorem onlyHomes_writeRange (mat : Under) (bs : List Byte) (k : Nat) (s : State) : OnlyHomes s (writeRange mat k bs s) := by
  induction bs generalizing k s with
  | nil => rfl
  | cons b bs ih => exact (onlyHomes_writeByte mat k b s).trans (ih _ _)

theorem onlyHomes_annexPut (k n : Nat) (v : Byte) (s : State) : OnlyHomes s (annexPut k n v s) := by
  have hb : OnlyHomes s (annexByte k v s) := by
    unfold annexByte
    split
    · rfl
    · exact onlyHomes_writeByte _ _ _ _
  unfold annexPut
  dsimp only
  split
  · exact hb.trans rfl
  · exact hb

theorem onlyHomes_annexCopy (homes : List Nat) (s : State) : OnlyHomes s (annexCopy homes s) :=
  seqAll_keeps (OnlyHomes s) _ (fun _ u h => h.trans (onlyHomes_annexPut _ _ _ u)) homes s rfl

end

/-- No byte of an access lies in the annex line of another. -/
def Apart (k n : Nat) : Prop := ∀ i j, i < n → j < n → isHome (k + j) = true → (k + i) / 128 ≠ annexKey (k + j) / 128

section
variable {k n : Nat}

theorem isHome_add (ht : keyTgt k = 0) (ho : keyOff k + n ≤ ctlSize) {i : Nat} (hi : i < n) : isHome (k + i) = true ∧ keyPkg (k + i) = keyPkg k := by
  rw [isHome_iff]
  unfold keyPkg keyTgt keyOff ctlSize at *
  omega

theorem apart_of_home (ht : keyTgt k = 0) (ho : keyOff k + n ≤ ctlSize) : Apart k n := fun _ _ hi hj hh =>
  annexKey_line_ne hh ((isHome_add ht ho hi).2.trans (isHome_add ht ho hj).2.symm)

theorem apart_one (k : Nat) : Apart k 1 := by
  intro i j hi hj hh
  obtain rfl : i = 0 := by omega
  obtain rfl : j = 0 := by omega
  exact annexKey_line_ne hh rfl

end

section
variable {s : State} {m : Under} {k n : Nat} {bs : List Byte}

/-- A device write is the bytes written over the folded lines, then brought to the annex homes. -/
theorem devicePuts_phys (m : Under) (k : Nat) (bs : List Byte) (s : State) :
    let w := writeRange m k bs (foldedFor ⟨.phys k, m, none, 0⟩ bs.length s)
    ∃ early stale bad, devicePuts (putsAt m (.phys k) bs) s =
      annexCopy (((List.range bs.length).map (k + ·)).filter isHome) { w with early := early, stale := stale, bad := bad } := by
  obtain ⟨early, stale, bad, h⟩ := applyPuts_eq none (putsAt m (.phys k) bs) s
  refine ⟨early, stale, bad, ?_⟩
  have hf := foldedFor_eq ⟨.phys k, m, none, 0⟩ bs s
  rw [devicePuts, homesOf, putKeys_putsAt_phys, h, seqAll_applyPut_phys]
  dsimp only at hf
  rw [hf]

theorem mem_homes {h : Nat} : h ∈ ((List.range n).map (k + ·)).filter isHome ↔ ∃ i, i < n ∧ k + i = h ∧ isHome (k + i) = true := by
  rw [List.mem_filter, List.mem_map]
  exact ⟨fun ⟨⟨i, hi, he⟩, hh⟩ => ⟨i, List.mem_range.mp hi, he, he ▸ hh⟩, fun ⟨i, hi, he, hh⟩ => ⟨⟨i, List.mem_range.mpr hi, he⟩, he ▸ hh⟩⟩

/-- The state in which a device's bytes are written, the annex homes apart. -/
def homeWritten (m : Under) (k : Nat) (bs : List Byte) (s : State) : State := writeRange m k bs (foldedFor ⟨.phys k, m, none, 0⟩ bs.length s)

theorem homeWritten_pkgs (m : Under) (k : Nat) (bs : List Byte) (s : State) : (homeWritten m k bs s).pkgs = s.pkgs :=
  (writeRange_pkgs m _ bs k).trans (onlyMemory_foldKeys _ s).pkgs

theorem homeWritten_memWf (m : Under) (k : Nat) (bs : List Byte) (hc : Canonical s) : (homeWritten m k bs s).mem.wf = true :=
  writeRange_memWf bs m k _ hc.foldKeys.mem

theorem onlyHomes_devicePuts (m : Under) (k : Nat) (bs : List Byte) (s : State) :
    OnlyHomes (foldedFor ⟨.phys k, m, none, 0⟩ bs.length s) (devicePuts (putsAt m (.phys k) bs) s) := by
  obtain ⟨early, stale, bad, h⟩ := devicePuts_phys m k bs s
  rw [h]
  exact ((onlyHomes_writeRange m bs k _).trans (u := homeWritten m k bs s) (t := { homeWritten m k bs s with early := early, stale := stale, bad := bad }) rfl).trans
    (onlyHomes_annexCopy _ _)

/-- Off the annex lines, what was written at the homes is what is read. -/
theorem readByte_devicePuts_off (hc : Canonical s) (m' : Under) {j : Nat} (hj : ∀ i, i < bs.length → isHome (k + i) = true → j / 128 ≠ annexKey (k + i) / 128) :
    readByte (devicePuts (putsAt m (.phys k) bs) s) m' j = readByte (homeWritten m k bs s) m' j := by
  obtain ⟨early, stale, bad, h⟩ := devicePuts_phys m k bs s
  rw [h]
  refine (keepsLines_annexCopy _ (s := { homeWritten m k bs s with early := early, stale := stale, bad := bad }) (homeWritten_memWf m k bs hc)).readByte m' fun ⟨x, hx, he⟩ => ?_
  obtain ⟨i, hi, rfl, hh⟩ := mem_homes.mp hx
  exact hj i hi hh he

theorem mirrored_devicePuts (hc : Canonical s) (hup : pkgUp s (keyPkg k) = true) (hum : (s.pkg (keyPkg k)).unmirrored = false)
    (ht : keyTgt k = 0) (ho : keyOff k + bs.length ≤ ctlSize) {i : Nat} (hi : i < bs.length) : Mirrored (k + i) (devicePuts (putsAt m (.phys k) bs) s) := by
  obtain ⟨early, stale, bad, h⟩ := devicePuts_phys m k bs s
  have hp := homeWritten_pkgs m k bs s
  rw [h]
  refine annexCopy_mirrors (s := { homeWritten m k bs s with early := early, stale := stale, bad := bad }) (q := keyPkg k) _ (homeWritten_memWf m k bs hc)
    ((pkgUp_congr hp _).trans hup) ((unmirrored_congr hp _).trans hum) (fun x hx => ?_) (isHome_add ht ho hi) (.inl (mem_homes.mpr ⟨i, hi, rfl, (isHome_add ht ho hi).1⟩))
  obtain ⟨j, hj, rfl, -⟩ := mem_homes.mp hx
  exact isHome_add ht ho hj

theorem deviceWritten_devicePuts (hc : Canonical s) (hap : Apart k bs.length) : DeviceWritten m k bs s (devicePuts (putsAt m (.phys k) bs) s) := by
  have hwf : (foldedFor ⟨.phys k, m, none, 0⟩ bs.length s).mem.wf = true := hc.foldKeys.mem
  have hp : (foldedFor ⟨.phys k, m, none, 0⟩ bs.length s).pkgs = s.pkgs := (onlyMemory_foldKeys _ s).pkgs
  refine ⟨onlyHomes_devicePuts m k bs s, fun i hi hg => ?_, fun hup hum ht ho i hi => (mirrored_devicePuts hc hup hum ht ho hi).byte,
    fun j hj hne => ?_, fun m' j hne => ?_⟩
  · rw [readByte_devicePuts_off hc m fun j hj hh => hap i j hi hj hh, homeWritten, readByte_writeRange m bs k i hwf hi, goHeld_congr _ hp, hg]
    rfl
  · rw [readByte_devicePuts_off hc m fun i hi _ => hne i hi]
    exact readByte_writeRange_other m bs k hwf hj
  · rw [readByte_devicePuts_off hc m' fun i hi _ => (hne i hi).2]
    exact readByte_writeRange_line m bs k m' hwf fun i hi => (hne i hi).1

end

end Sys2Proof.Machine
end

section
/-! SUPPORT. O10: leaving a handler by `TRET` (R117, R346, R348). -/

open Sys2Proof.Claims

namespace Sys2Proof.Machine

set_option Elab.async false

/-! A part of a range of bytes is the range of that part. -/

section
variable {s t v : State} {m : Under} {k n : Nat} {p : Place}

theorem readRange_drop (s : State) (m : Under) (k n o : Nat) : (readRange s m k n).drop o = readRange s m (k + o) (n - o) := by
  induction o generalizing k n with
  | zero => rfl
  | succ o ih =>
    cases n with
    | zero => rw [Nat.zero_sub]; rfl
    | succ n => rw [readRange, List.drop_succ_cons, ih, Nat.add_sub_add_right, Nat.add_right_comm, Nat.add_assoc]

theorem readRange_take (s : State) (m : Under) (k : Nat) {n j : Nat} (h : j ≤ n) : (readRange s m k n).take j = readRange s m k j := by
  induction j generalizing k n with
  | zero => rfl
  | succ j ih =>
    cases n with
    | zero => exact absurd h (Nat.not_succ_le_zero j)
    | succ n => rw [readRange, readRange, List.take_succ_cons, ih _ (Nat.le_of_succ_le_succ h)]

theorem leNat_part (s : State) (m : Under) (k : Nat) {n o j : Nat} (h : o + j ≤ n) : leNat (((readRange s m k n).drop o).take j) = recordField s m k o j := by
  rw [readRange_drop, readRange_take s m (k + o) (by omega), recordField]

/-- What a record of a side buffer holds for `TRET` (R346, R348). -/
def returnOf (s : State) (m : Under) (k : Nat) : Return where
  lane := recordField s m k 4 1 / 2 % 2 == 1
  rptv := recordField s m k 4 1 / 4 % 2 == 1
  lpc := BitVec.ofNat 64 (recordField s m k 0x18 8)
  split := recordField s m k 0x24 1
  rpt := recordField s m k 0x25 1
  saved := (List.range 4).map (fun i => BitVec.ofNat 64 (recordField s m k (0x40 + 8 * i) 8))

theorem readRecord_eq (c : Ctx) (hp : p.loc = .phys k) : readRecord s c p = returnOf s p.mat k := by
  have hb : readPlace s c p 0x60 = readRange s p.mat k 0x60 := by rw [readPlace, hp]
  have hs : ∀ i, i ∈ List.range 4 → leNat (((readRange s p.mat k 0x60).drop (0x40 + 8 * i)).take 8) = recordField s p.mat k (0x40 + 8 * i) 8 := fun i hi =>
    leNat_part s p.mat k (by have := List.mem_range.mp hi; omega)
  unfold readRecord returnOf
  rw [hb]
  dsimp only
  rw [leNat_part s p.mat k (by omega), leNat_part s p.mat k (by omega), leNat_part s p.mat k (by omega), leNat_part s p.mat k (by omega),
    List.map_congr_left fun i hi => congrArg (BitVec.ofNat 64) (hs i hi)]

/-- The frame registers written from a record. -/
def framed (r : Return) (x : Stream) : Stream :=
  writeS 60 (r.saved.getD 0 0) (writeS 61 (r.saved.getD 1 0) (writeS 62 (r.saved.getD 2 0) (writeS 63 (r.saved.getD 3 0) x)))

/-- The saved values of s60 to s63 come back (R348). -/
def restoreFrame (ag : Agent) (r : Return) (s : State) : State := mapStream ag (framed r) s

/-- VALID of a record is cleared (R348). -/
def clearValid (ag : Agent) (p : Place) (s : State) : State :=
  devicePuts (putsAt p.mat (locAdd p.loc 4) (leBytes 1 (leNat (readPlace s (ctxOf s ag) { p with loc := locAdd p.loc 4 } 1) / 2 * 2))) s

/-- The state that `TRET` leaves, its lane stream restored (R348). -/
def returned (ag : Agent) (p : Place) (r : Return) (s : State) : State := leaveHandler ag (clearValid ag p (restoreFrame ag r s))

/-- `TRET` with a record that can be read (R348). -/
def returnBy (ag : Agent) (p : Place) (s : State) : Eff :=
  let r := readRecord s (ctxOf s ag) p
  if isGroup ag then (returnLane ag r s).bind fun (v : State) => .ok (returned ag p r v) else .ok (returned ag p r s)

theorem framed_stream (r : Return) (x : Stream) : framed r x = { x with s := (framed r x).s } := by
  unfold framed
  rw [writeS_stream (writeS 61 _ _), writeS_stream (writeS 62 _ _), writeS_stream (writeS 63 _ _), writeS_stream x]

theorem readS_framed (s : State) (m : Under) (k : Nat) (x : Stream) (r : SReg) :
    readS (framed (returnOf s m k) x) r = if 60 ≤ r.toNat then BitVec.ofNat 64 (recordField s m k (0x40 + 8 * (r.toNat - 60)) 8) else readS x r := by
  have hr := r.isLt
  unfold framed returnOf
  rw [readS_writeS, readS_writeS, readS_writeS, readS_writeS]
  by_cases h : 60 ≤ r.toNat
  · rw [if_pos h]
    obtain h | h | h | h : r = 60 ∨ r = 61 ∨ r = 62 ∨ r = 63 := by
      simp only [← BitVec.toNat_inj]
      change r.toNat = 60 ∨ r.toNat = 61 ∨ r.toNat = 62 ∨ r.toNat = 63
      omega
    all_goals subst h; rfl
  · have hne (n : SReg) (hn : 60 ≤ n.toNat) : ¬(r = n ∧ n ≠ 0) := fun e => h (e.1 ▸ hn)
    rw [if_neg h, if_neg (hne 60 (by decide)), if_neg (hne 61 (by decide)), if_neg (hne 62 (by decide)), if_neg (hne 63 (by decide))]

end

end Sys2Proof.Machine
end

section
/-! SUPPORT. O10: the outcomes of `TRET` (R117, R348, R363). -/

open Sys2Proof.Claims

namespace Sys2Proof.Machine

set_option Elab.async false

section
variable {s v : State} {p : Place} {k : Nat}

/-! The checks of `TRET`. -/

theorem exec_tret_checked : exec .tret s = finish s ((raiseIf (!sysMode s s.cur) .priv 0).bind fun _ =>
    if trapRegBad s s.cur then .ok (areaFault s.cur 7 (recordBase s s.cur) s)
    else (raiseIf ((self s).trappc.toNat % 4 != 0) .illegal 0).bind fun _ =>
      if isCtl s.cur then .ok (leaveHandler s.cur s)
      else match areaPlace s s.cur true (recordBase s s.cur) with
        | .error .stall => .error .stall
        | .error _ => .ok (areaFault s.cur 6 (recordBase s s.cur) s)
        | .ok p => if (badAt s (ctxOf s s.cur) p.loc 0x60).isSome then .ok (areaFault s.cur 7 (recordBase s s.cur) s) else returnBy s.cur p (foldAt p.loc s)) := by
  change finish s (trapReturn s) = _
  unfold trapReturn returnBy returned clearValid restoreFrame framed
  rfl

theorem tret_priv (hs : sysMode s s.cur = false) : Traps .tret s .priv 0 0 := by
  rw [Traps, exec_tret_checked, hs]
  rfl

theorem tret_badRegisters (hs : sysMode s s.cur = true) (hb : trapRegBad s s.cur = true) :
    exec .tret s = .next (areaFault s.cur 7 (recordBase s s.cur) s) := by
  rw [exec_tret_checked, hs, hb]
  rfl

theorem tret_misaligned (hs : sysMode s s.cur = true) (hb : trapRegBad s s.cur = false) (ht : (self s).trappc.toNat % 4 ≠ 0) : Traps .tret s .illegal 0 0 := by
  rw [Traps, exec_tret_checked, hs, hb, bne_iff_ne.mpr ht]
  rfl

theorem exec_tret_aligned (hs : sysMode s s.cur = true) (hb : trapRegBad s s.cur = false) (ht : (self s).trappc.toNat % 4 = 0) (hc : isCtl s.cur = false) :
    exec .tret s = finish s (match areaPlace s s.cur true (recordBase s s.cur) with
        | .error .stall => .error .stall
        | .error _ => .ok (areaFault s.cur 6 (recordBase s s.cur) s)
        | .ok p => if (badAt s (ctxOf s s.cur) p.loc 0x60).isSome then .ok (areaFault s.cur 7 (recordBase s s.cur) s) else returnBy s.cur p (foldAt p.loc s)) := by
  rw [exec_tret_checked, hs, hb, ht, hc]
  rfl

theorem tret_control (hs : sysMode s s.cur = true) (ht : (self s).trappc.toNat % 4 = 0) (hc : isCtl s.cur = true) :
    exec .tret s = .next (leaveHandler s.cur s) := by
  have hb : trapRegBad s s.cur = false := by rw [trapRegBad, hc]; exact Bool.and_false _
  rw [exec_tret_checked, hs, hb, ht, hc]
  rfl

theorem exec_tret_record (hs : sysMode s s.cur = true) (hb : trapRegBad s s.cur = false) (ht : (self s).trappc.toNat % 4 = 0) (hc : isCtl s.cur = false)
    (ha : areaPlace s s.cur true (recordBase s s.cur) = .ok p) (hbad : badAt s (selfCtx s) p.loc 0x60 = none) :
    exec .tret s = finish s (returnBy s.cur p (foldAt p.loc s)) := by
  have hbad' : badAt s (ctxOf s s.cur) p.loc 0x60 = none := hbad
  rw [exec_tret_aligned hs hb ht hc, ha]
  dsimp only
  rw [hbad']
  rfl

/-! The lane stream's part (R348). -/

theorem returnLane_scalar {ag : Agent} {r : Return} (h : r.lane = false) : returnLane ag r s = .ok s := by
  rw [returnLane, h]
  rfl

/-- A group whose split a record gives back. -/
def laneReturned (r : Return) (sp : Split) (g : Group) : Group :=
  { g with splits := Vec.set g.splits r.split (some { sp with lpc := r.lpc }), rep := if r.rptv then some (r.split, r.rpt) else g.rep }

theorem returnLane_split {ag : Agent} {r : Return} {sp : Split} (h : r.lane = true) (hsp : Vec.get (s.group ag).splits r.split = some sp)
    (hl : r.lpc.toNat % 12 = 0) : returnLane ag r s = .ok (mapGroup ag (laneReturned r sp) s) := by
  rw [returnLane, h, hsp]
  dsimp only
  rw [hl]
  rfl

theorem returnLane_bad {ag : Agent} {r : Return} (h : r.lane = true) (hbad : Vec.get (s.group ag).splits r.split = none ∨ r.lpc.toNat % 12 ≠ 0) :
    returnLane ag r s = .error (.trap { cls := .illegal, detail := 0, addr := 0 }) := by
  rw [returnLane, h]
  cases hsp : Vec.get (s.group ag).splits r.split with
  | none => rfl
  | some sp =>
    have hl := bne_iff_ne.mpr (hbad.resolve_left (by rw [hsp]; exact Option.some_ne_none sp))
    dsimp only
    rw [hl]
    rfl

/-! The state that `TRET` leaves. -/

/-- A stream that leaves its handler (R117, R344). -/
def leftStream (x : Stream) : Stream := { x with
  mode := x.mode &&& 0xFE, spc := x.trappc, half := (x.kept.filter (fun k => k.2 == x.trappc)).map (·.1), kept := none }

theorem leaveHandler_eq (ag : Agent) (s : State) : leaveHandler ag s = retire (mapStream ag leftStream s) := rfl

theorem leaveHandler_stream (ag a : Agent) (s : State) : (leaveHandler ag s).stream a = (mapStream ag leftStream s).stream a := by
  rw [leaveHandler_eq, State.stream, retire_streams]
  rfl

theorem leaveHandler_group (ag a : Agent) (s : State) : (leaveHandler ag s).group a = s.group a := by
  rw [leaveHandler_eq, retire_group]
  rfl

theorem streamStep_leaveHandler (s : State) : StreamStep s (leaveHandler s.cur s) := by
  have h := streamStep_goto (self s).trappc leftStream s
  have he : goto (self s).trappc (mapSelf leftStream s) = leaveHandler s.cur s := by
    rw [goto, leaveHandler_eq]
    exact congrArg retire ((mapStream_mapStream s.cur _ _ s).trans rfl)
  exact he ▸ h

theorem alike_of_laneStreamStep {ag : Agent} {t : State} (h : LaneStreamStep ag s t) : Alike s t := by
  have hr := h.rest
  exact ⟨by rw [hr], by rw [hr], by rw [hr], by rw [hr]⟩

/-- The byte of a record that holds VALID is written back with it clear (R348). -/
theorem clearValid_eq {ag : Agent} (hp : p.loc = .phys k) (s : State) :
    clearValid ag p s = devicePuts (putsAt p.mat (.phys (k + 4)) (leBytes 1 (recordField s p.mat k 4 1 / 2 * 2))) s := by
  rw [clearValid, hp]
  rfl

theorem onlyMemory_clearValid (ag : Agent) (p : Place) (s : State) : OnlyMemory s (clearValid ag p s) := onlyMemory_devicePuts _ s

section
variable {ag : Agent} {r : Return}

theorem returned_stream_self : (returned ag p r v).stream ag = leftStream (framed r (v.stream ag)) := by
  rw [returned, leaveHandler_stream, stream_mapStream_self, State.stream, (onlyMemory_clearValid ag p _).streams]
  exact congrArg leftStream (stream_mapStream_self v ag (framed r))

theorem returned_stream_other {a : Agent} (ha : a ≠ ag) : (returned ag p r v).stream a = v.stream a := by
  rw [returned, leaveHandler_stream, stream_mapStream_other _ _ ha, State.stream, (onlyMemory_clearValid ag p _).streams]
  exact stream_mapStream_other v (framed r) ha

theorem returned_group (a : Agent) : (returned ag p r v).group a = v.group a := by
  rw [returned, leaveHandler_group, group_congr (groups_of_onlyMemory (onlyMemory_clearValid ag p _))]
  rfl

theorem returned_cur : (returned ag p r v).cur = v.cur := by
  rw [returned, leaveHandler_eq, retire_cur]
  exact (onlyMemory_clearValid ag p _).cur

theorem returned_mem : (returned ag p r v).mem = (clearValid ag p (restoreFrame ag r v)).mem ∧
    (returned ag p r v).lineKeys = (clearValid ag p (restoreFrame ag r v)).lineKeys := by
  rw [returned, leaveHandler_eq, retire_mem, retire_lineKeys]
  exact ⟨rfl, rfl⟩

end

/-- `TRET` leaves the handler by its record, whatever it makes of the lane stream (R117, R348). -/
theorem handlerLeft_returned (hc : Canonical s) (hp : p.loc = .phys k) (hv : LaneStreamStep s.cur (folded p.loc s) v) :
    HandlerLeft p k s (returned s.cur p (returnOf (folded p.loc s) p.mat k) v) := by
  have hf := onlyMemory_folded p.loc s
  have hcur : v.cur = s.cur := by rw [hv.rest]; exact hf.cur
  have hs : ∀ a, v.stream a = s.stream a := fun a => by rw [hv.rest]; exact congrArg (Table.findD · a default) hf.streams
  have hself : self (returned s.cur p (returnOf (folded p.loc s) p.mat k) v) = leftStream (framed (returnOf (folded p.loc s) p.mat k) (self s)) := by
    rw [self, returned_cur, hcur, returned_stream_self, hs]
    rfl
  have halike : Alike (folded p.loc s) (restoreFrame s.cur (returnOf (folded p.loc s) p.mat k) v) := by
    obtain ⟨hm, hl, hk, hcores⟩ := alike_of_laneStreamStep hv
    exact ⟨hm, hl, hk, hcores⟩
  refine ⟨fun r => ?_, ?_, ?_, fun a ha => ⟨?_, ?_⟩⟩
  · rw [hself]
    exact readS_framed (folded p.loc s) p.mat k (self s) r
  · rw [hself, framed_stream]
    rfl
  · refine ⟨_, _, rfl, deviceWritten_devicePuts (k := k + 4) (bs := leBytes 1 (recordAt s p k 4 1 / 2 * 2)) hc.foldAt (apart_one _), ?_⟩
    obtain ⟨hmem, hkeys⟩ := returned_mem (ag := s.cur) (p := p) (r := returnOf (folded p.loc s) p.mat k) (v := v)
    have hrec : recordField (restoreFrame s.cur (returnOf (folded p.loc s) p.mat k) v) p.mat k 4 1 = recordAt s p k 4 1 := congrArg leNat (halike.readRange _ _ _)
    obtain ⟨hm, hl, -, -⟩ := halike.devicePuts (putsAt p.mat (.phys (k + 4)) (leBytes 1 (recordAt s p k 4 1 / 2 * 2)))
    rw [hmem, hkeys, clearValid_eq hp, hrec]
    exact ⟨hm, hl⟩
  · rw [returned_stream_other ha, hs]
  · rw [returned_group, hv.others a ha]
    exact congrArg (Table.findD · a default) (groups_of_onlyMemory hf)

end

end Sys2Proof.Machine
end

section
/-! SUPPORT. O10: `TRET` by what its record holds (R348), and the theorem. -/

open Sys2Proof.Claims

namespace Sys2Proof.Machine

set_option Elab.async false

section
variable {s : State} {p : Place} {k : Nat}

theorem laneStreamStep_refl (ag : Agent) (s : State) : LaneStreamStep ag s s := ⟨rfl, fun _ _ => rfl⟩

theorem laneStreamStep_mapGroup (ag : Agent) (f : Group → Group) (s : State) : LaneStreamStep ag s (mapGroup ag f s) :=
  ⟨rfl, fun _ ha => group_setGroup_other s _ ha⟩

theorem group_folded (l : Loc) (s : State) (a : Agent) : (folded l s).group a = s.group a := group_congr (groups_of_onlyMemory (onlyMemory_folded l s)) a

theorem selfGroup_returned {v : State} {r : Return} (hv : LaneStreamStep s.cur (folded p.loc s) v) : selfGroup (returned s.cur p r v) = v.group s.cur := by
  have hcur : v.cur = s.cur := by rw [hv.rest]; exact (onlyMemory_folded p.loc s).cur
  rw [selfGroup, returned_cur, hcur, returned_group]

/-- A trap of a group in system mode ends it failed (R349). -/
theorem takeTrap_ends {t : Trap} (ht : t.once = none) (hg : isGroup s.cur = true) (hs : sysMode s s.cur = true) :
    GroupEndedFailed s.cur (classStatus (classNum t.cls)) s (takeTrap s.cur t false s) := by
  have he : takeTrap s.cur t false s = endFailed s.cur (classStatus (classNum t.cls)) s := by
    cases hc : s.cur with
    | group q c w =>
      rw [hc] at hs
      unfold takeTrap dropOnce
      rw [ht]
      dsimp only
      rw [hs]
      rfl
    | mcc q c => rw [hc] at hg; cases hg
    | ctl q i => rw [hc] at hg; cases hg
  rw [he]
  exact groupEndedFailed_of s.cur _ s

variable (hp : p.loc = .phys k)
include hp

theorem returnBy_scalar (h : ¬(isGroup s.cur = true ∧ recordAt s p k 4 1 / 2 % 2 = 1)) :
    returnBy s.cur p (foldAt p.loc s) = .ok (returned s.cur p (returnOf (folded p.loc s) p.mat k) (folded p.loc s)) := by
  rw [returnBy, readRecord_eq _ hp]
  cases hg : isGroup s.cur with
  | false => rfl
  | true =>
    have hl : (returnOf (foldAt p.loc s) p.mat k).lane = false := beq_eq_false_iff_ne.mpr fun he => h ⟨hg, he⟩
    rw [returnLane_scalar hl]
    rfl

theorem returnBy_split {sp : Split} (hg : isGroup s.cur = true) (h : recordAt s p k 4 1 / 2 % 2 = 1)
    (hsp : Vec.get (selfGroup s).splits (recordAt s p k 0x24 1) = some sp)
    (hl : (BitVec.ofNat 64 (recordAt s p k 0x18 8) : Word64).toNat % 12 = 0) :
    let r := returnOf (folded p.loc s) p.mat k
    returnBy s.cur p (foldAt p.loc s) = .ok (returned s.cur p r (mapGroup s.cur (laneReturned r sp) (folded p.loc s))) := by
  intro r
  have hsp' : Vec.get ((folded p.loc s).group s.cur).splits r.split = some sp := by rw [group_folded]; exact hsp
  have hr : returnLane s.cur r (folded p.loc s) = .ok (mapGroup s.cur (laneReturned r sp) (folded p.loc s)) :=
    returnLane_split (beq_iff_eq.mpr h) hsp' hl
  rw [returnBy, readRecord_eq _ hp]
  rw [hg]
  exact congrArg (Except.bind · fun (v : State) => .ok (returned s.cur p r v)) hr

theorem returnBy_bad (hg : isGroup s.cur = true) (h : recordAt s p k 4 1 / 2 % 2 = 1)
    (hbad : Vec.get (selfGroup s).splits (recordAt s p k 0x24 1) = none ∨ (BitVec.ofNat 64 (recordAt s p k 0x18 8) : Word64).toNat % 12 ≠ 0) :
    returnBy s.cur p (foldAt p.loc s) = .error (.trap { cls := .illegal, detail := 0, addr := 0 }) := by
  have hbad' : Vec.get ((folded p.loc s).group s.cur).splits (returnOf (folded p.loc s) p.mat k).split = none ∨
      (returnOf (folded p.loc s) p.mat k).lpc.toNat % 12 ≠ 0 := by rw [group_folded]; exact hbad
  have hr := returnLane_bad (ag := s.cur) (s := folded p.loc s) (beq_iff_eq.mpr h) hbad'
  rw [returnBy, readRecord_eq _ hp]
  rw [hg]
  exact congrArg (Except.bind · fun (v : State) => .ok (returned s.cur p (returnOf (folded p.loc s) p.mat k) v)) hr

end

theorem split_free {v : Vector (Option Split) 4} {i : Nat} (h : 4 ≤ i) : Vec.get v i = none := by
  rw [Vec.get, List.getD_eq_default _ _ (by simpa using h)]
  rfl

end Sys2Proof.Machine

open Sys2Proof Sys2Proof.Machine Sys2Proof.Claims

/-- Settles O10: the checks of `TRET` in their order, then what its record says of the lane stream. -/
theorem trapReturnRestores : Obligations.TrapReturnRestores := by
  refine ⟨fun s => tret_priv, fun s => tret_badRegisters, fun s => tret_misaligned, fun s hs ht hc => ⟨_, tret_control hs ht hc, streamStep_leaveHandler s, ?_⟩,
    fun s hs hb ht hc => ⟨fun x hx => ?_, fun p hp hbad => ?_, fun p k hcan hp hk hbad _ => ?_⟩⟩
  · rw [self, (streamStep_leaveHandler s).rest]
    exact (leaveHandler_stream s.cur s.cur s).trans (stream_mapStream_self ..)
  · rw [exec_tret_aligned hs hb ht hc, hx]
    rfl
  · have hbad' : (badAt s (ctxOf s s.cur) p.loc 0x60).isSome = true := Option.isSome_iff_ne_none.mpr hbad
    rw [exec_tret_aligned hs hb ht hc, hp]
    dsimp only
    rw [hbad']
    rfl
  · intro ofLane id lpc
    have hexec := exec_tret_record hs hb ht hc hp hbad
    refine ⟨fun hno => ?_, fun ⟨hg, hl⟩ sp _ hsp h12 => ?_, fun ⟨hg, hl⟩ hfree => ?_⟩
    · have hv := laneStreamStep_refl s.cur (folded p.loc s)
      rw [returnBy_scalar hk hno] at hexec
      exact ⟨_, hexec, handlerLeft_returned hcan hk hv, (selfGroup_returned hv).trans (group_folded ..)⟩
    · have hv := laneStreamStep_mapGroup s.cur (laneReturned (returnOf (folded p.loc s) p.mat k) sp) (folded p.loc s)
      rw [returnBy_split hk hg hl hsp h12] at hexec
      refine ⟨_, hexec, handlerLeft_returned hcan hk hv, (selfGroup_returned hv).trans ?_⟩
      rw [mapGroup, group_setGroup_self, group_folded, laneReturned]
      simp only [returnOf, beq_iff_eq]
      rfl
    · have hbad' : Vec.get (selfGroup s).splits id = none ∨ lpc.toNat % 12 ≠ 0 := by
        rcases hfree with h | h | h
        · exact .inl (split_free h)
        · exact .inl h
        · exact .inr h
      rw [returnBy_bad hk hg hl hbad'] at hexec
      exact ⟨_, hexec, takeTrap_ends rfl hg hs⟩
end

section
/-! SUPPORT. O53: the end of a block (R164, R326). -/

open Sys2Proof.Claims

namespace Sys2Proof.Machine

set_option Elab.async false

/-! Keys removed from a table. -/

section
variable {κ ν : Type} [DecidableEq κ]

theorem Table.find?_del_self (t : Table κ ν) (k : κ) : Table.find? (Table.del t k) k = none := by
  induction t with
  | nil => rfl
  | cons e r ih =>
    obtain ⟨j, v⟩ := e
    by_cases h : j = k
    · simp [Table.del, h, ih]
    · simp [Table.del, Table.find?, h, ih]

theorem Table.find?_del_other (t : Table κ ν) {k j : κ} (h : j ≠ k) : Table.find? (Table.del t k) j = Table.find? t j := by
  induction t with
  | nil => rfl
  | cons e r ih =>
    obtain ⟨i, v⟩ := e
    by_cases hi : i = k
    · simp [Table.del, Table.find?, hi, ih, Ne.symm h]
    · by_cases hj : i = j
      · simp [Table.del, Table.find?, hj, h]
      · simp [Table.del, Table.find?, hi, hj, ih]

theorem Table.find?_filter_key (t : Table κ ν) (p : κ → Bool) (k : κ) :
    Table.find? (t.filter fun e => p e.1) k = if p k = true then Table.find? t k else none := by
  induction t with
  | nil => simp [Table.find?]
  | cons e r ih =>
    obtain ⟨j, v⟩ := e
    by_cases hj : j = k
    · subst hj
      cases hp : p j <;> simp [Table.find?, hp, ih]
    · cases hp : p j <;> simp [Table.find?, hp, hj, ih]

end

/-! The parts of the test for a block's end. -/

section
variable {s y : State} {blk : Nat} {b : Block}

/-- The groups of a block have ended. -/
def BlockFinished (s : State) (b : Block) : Prop := ∀ a, a ∈ b.groups → (s.stream a).run = .ended ∨ (s.stream a).run = .fenced

/-- Nothing that a block waits for is left (R326, R364). -/
def BlockSettled (s : State) (blk : Nat) (b : Block) : Prop :=
  (∀ a, a ∈ b.groups → (s.stream a).uw = 0 ∧ (s.stream a).tl = 0) ∧
  (∀ i y, (i, y) ∈ s.items → y.block = some blk → y.orphan = true ∨ isMcc y.issuer = true) ∧ ∀ n, n ∈ b.endAfter → Table.find? s.blocks n = none

theorem isSaved_false (h : ∀ n, b.preempt ≠ .saved n) : isSaved b = false := by
  unfold isSaved
  split
  next n hn => exact absurd hn (h n)
  next => rfl

theorem groupsEnded_iff : (b.groups.all fun a => (s.stream a).run == .ended || (s.stream a).run == .fenced) = true ↔ BlockFinished s b := by
  simp [BlockFinished, List.all_eq_true]

theorem early_iff : (s.early.any fun w => w.block == blk) = true ↔ ∃ w, w ∈ s.early ∧ w.block = blk := by
  simp [List.any_eq_true]

theorem blockItems_nil_iff : blockItems s blk = [] ↔ ∀ i y, (i, y) ∈ s.items → y.block = some blk → y.orphan = true ∨ isMcc y.issuer = true := by
  simp only [blockItems, List.map_eq_nil_iff, List.filter_eq_nil_iff, Bool.and_eq_true, beq_iff_eq, Bool.not_eq_true', not_and, Bool.not_eq_false]
  refine ⟨fun h i y hm hb => ?_, fun h e hm hb => (h e.1 e.2 hm hb.1).resolve_left (by simp [hb.2])⟩
  cases ho : y.orphan with
  | true => exact .inl rfl
  | false => exact .inr (h (i, y) hm ⟨hb, ho⟩)

theorem blockDone_iff (hf : BlockFinished s b) : blockDone s b blk = true ↔ BlockSettled s blk b := by
  have hg : (∀ a, a ∈ b.groups → (((s.stream a).run == .ended || (s.stream a).run == .fenced) && (s.stream a).uw == 0 && (s.stream a).tl == 0) = true) ↔
      ∀ a, a ∈ b.groups → (s.stream a).uw = 0 ∧ (s.stream a).tl = 0 := by
    refine forall₂_congr fun a ha => ?_
    have := hf a ha
    simp only [Bool.and_eq_true, Bool.or_eq_true, beq_iff_eq]
    tauto
  unfold blockDone BlockSettled
  rw [Bool.and_eq_true, Bool.and_eq_true, List.all_eq_true, List.all_eq_true, beq_iff_eq, blockItems_nil_iff]
  simp only [Option.isNone_iff_eq_none]
  rw [← hg]
  tauto

theorem blockStatus_eq : blockStatus s b = if b.cancelled then 8 else if b.status ≠ 0 then b.status
    else match b.groups.filter (fun a => (s.stream a).fcnt != 0) with | a :: _ => (s.stream a).fstat | [] => 0 := by
  unfold blockStatus
  cases b.groups.filter (fun a => (s.stream a).fcnt != 0) <;> rfl

/-! The removal of a block. -/

theorem dropAll_pkgs (p : Member → Bool) (l : List Nat) (s : State) : ∃ q, seqAll (dropAll p) l s = { s with pkgs := q } :=
  seqAll_keeps (fun t => ∃ q, t = { s with pkgs := q }) (dropAll p) (fun _ _ ⟨_, h⟩ => by rw [h]; exact ⟨_, rfl⟩) l s ⟨s.pkgs, rfl⟩

/-- What a removed block leaves (R326, R333). -/
structure BlockRemoved (blk : Nat) (ags : List Agent) (y t : State) : Prop where
  gone : Table.find? t.blocks blk = none
  freed : ∀ a, a ∈ ags → Table.find? t.streams a = none ∧ Table.find? t.groups a = none
  others : ∀ a, a ∉ ags → t.stream a = y.stream a ∧ t.group a = y.group a
  blocks : ∀ n, n ≠ blk → t.block n = y.block n
  rest : t.mem = y.mem ∧ t.launches = y.launches ∧ t.items = y.items ∧ t.cores = y.cores

theorem removeBlock_parts (blk : Nat) (y : State) :
    (removeBlock blk y).streams = (if isSaved (y.block blk) then y.streams else y.streams.filter fun x => !(y.block blk).groups.contains x.1) ∧
    (removeBlock blk y).groups = (if isSaved (y.block blk) then y.groups else y.groups.filter fun x => !(y.block blk).groups.contains x.1) ∧
    (removeBlock blk y).blocks = Table.del y.blocks blk ∧ (∀ n, n ≠ blk → Table.find? (removeBlock blk y).past n = Table.find? y.past n) ∧
    (removeBlock blk y).mem = y.mem ∧ (removeBlock blk y).launches = y.launches ∧ (removeBlock blk y).items = y.items ∧ (removeBlock blk y).cores = y.cores := by
  obtain ⟨q, hq⟩ := dropAll_pkgs (fun m => m.block == some blk) (y.pkgs.map (·.1)) y
  unfold removeBlock
  rw [hq]
  refine ⟨rfl, rfl, rfl, fun n hn => ?_, rfl, rfl, rfl, rfl⟩
  dsimp only
  split
  · exact Table.find?_put_other _ _ hn
  · rfl

theorem find?_freed {ν : Type} (t : Table Agent ν) (ags : List Agent) (a : Agent) :
    Table.find? (t.filter fun e => !ags.contains e.1) a = if a ∈ ags then none else Table.find? t a := by
  rw [Table.find?_filter_key t (fun a => !ags.contains a)]
  by_cases h : a ∈ ags <;> simp [h]

theorem blockRemoved (hs : isSaved (y.block blk) = false) : BlockRemoved blk (y.block blk).groups y (removeBlock blk y) := by
  obtain ⟨hstreams, hgroups, hblocks, hpast, hrest⟩ := removeBlock_parts blk y
  rw [hs] at hstreams hgroups
  refine ⟨hblocks ▸ Table.find?_del_self .., fun a ha => ?_, fun a ha => ?_, fun n hn => ?_, hrest⟩
  · rw [hstreams, hgroups]
    exact ⟨(find?_freed ..).trans (if_pos ha), (find?_freed ..).trans (if_pos ha)⟩
  · unfold State.stream State.group Table.findD
    rw [hstreams, hgroups]
    exact ⟨congrArg (Option.getD · default) ((find?_freed ..).trans (if_neg ha)), congrArg (Option.getD · default) ((find?_freed ..).trans (if_neg ha))⟩
  · unfold State.block Table.findD
    rw [hblocks, hpast n hn, Table.find?_del_other _ hn]

end

end Sys2Proof.Machine
end

section
/-! SUPPORT. O53: the outcomes of a block's end and of its counter record (R164, R325, R326). -/

open Sys2Proof.Claims

namespace Sys2Proof.Machine

set_option Elab.async false

section
variable {s y : State} {blk : Nat} {b : Block}

theorem blockEnd_unfinished (hb : Table.find? s.blocks blk = some b) (hf : ¬BlockFinished s b) : exec (.blockEnd blk) s = .next s := by
  have h : isSaved b = true ∨ (!b.groups.all fun a => (s.stream a).run == .ended || (s.stream a).run == .fenced) = true :=
    .inr (by rw [Bool.eq_false_iff.mpr fun h => hf (groupsEnded_iff.mp h)]; rfl)
  change execBlockEnd blk s = _
  rw [execBlockEnd, hb]
  dsimp only
  rw [if_pos h]
  rfl

/-- The end of a block whose groups have ended. -/
theorem exec_blockEnd (hb : Table.find? s.blocks blk = some b) (hs : isSaved b = false) (hf : BlockFinished s b) :
    exec (.blockEnd blk) s = finishEvent s (if b.held ≠ [] ∨ (s.early.any fun w => w.block == blk) = true then .ok (commitBlock blk b.groups s)
      else if (!blockDone s b blk) = true then .error .stall
      else (endLaunchBlock b.launch b.index (blockStatus s b) (logicalNum s (b.pkg, b.core)) s).bind fun (y : State) => .ok (removeBlock blk y)) := by
  have h : ¬(isSaved b = true ∨ (!b.groups.all fun a => (s.stream a).run == .ended || (s.stream a).run == .fenced) = true) := by
    rw [groupsEnded_iff.mpr hf, hs]
    decide
  change execBlockEnd blk s = _
  rw [execBlockEnd, hb]
  dsimp only
  rw [if_neg h]
  rfl

theorem blockEnd_commits (hb : Table.find? s.blocks blk = some b) (hs : isSaved b = false) (hf : BlockFinished s b)
    (hw : b.held ≠ [] ∨ ∃ w, w ∈ s.early ∧ w.block = blk) : exec (.blockEnd blk) s = .next (commitBlock blk b.groups s) := by
  rw [exec_blockEnd hb hs hf, if_pos (hw.imp_right early_iff.mpr)]
  rfl

section
variable (hb : Table.find? s.blocks blk = some b) (hs : isSaved b = false) (hf : BlockFinished s b) (hh : b.held = []) (he : ¬∃ w, w ∈ s.early ∧ w.block = blk)
include hb hs hf hh he

theorem exec_blockEnd_committed : exec (.blockEnd blk) s = finishEvent s (if (!blockDone s b blk) = true then .error .stall
      else (endLaunchBlock b.launch b.index (blockStatus s b) (logicalNum s (b.pkg, b.core)) s).bind fun (y : State) => .ok (removeBlock blk y)) := by
  have hw : ¬(b.held ≠ [] ∨ (s.early.any fun w => w.block == blk) = true) := fun h => h.elim (fun h => h hh) (fun h => he (early_iff.mp h))
  rw [exec_blockEnd hb hs hf, if_neg hw]

theorem blockEnd_waits (hd : ¬BlockSettled s blk b) : exec (.blockEnd blk) s = .next s := by
  have h : (!blockDone s b blk) = true := by rw [Bool.eq_false_iff.mpr fun h => hd ((blockDone_iff hf).mp h)]; rfl
  rw [exec_blockEnd_committed hb hs hf hh he, if_pos h]
  rfl

theorem blockEnd_ends (hd : BlockSettled s blk b) (hy : endLaunchBlock b.launch b.index (blockStatus s b) (logicalNum s (b.pkg, b.core)) s = .ok y) :
    exec (.blockEnd blk) s = .next (removeBlock blk y) := by
  have h : ¬(!blockDone s b blk) = true := by rw [(blockDone_iff hf).mpr hd]; decide
  rw [exec_blockEnd_committed hb hs hf hh he, if_neg h, hy]
  rfl

end

end

/-! A block's end at its launch's records (R325, R326). -/

section
variable {s t : State} {id index core : Nat}

theorem launch_mapLaunch (h : (Table.find? s.launches id).isSome) (f : Launch → Launch) : (mapLaunch id f s).launch id = f (s.launch id) := by
  obtain ⟨l, hl⟩ := Option.isSome_iff_exists.mp h
  simp [State.launch, mapLaunch, Table.upd, Table.findD, hl]

/-- A launch with one more block ended. -/
def noteEnded (id index : Nat) (s : State) : State := mapLaunch id (fun l => { l with ended := l.ended ++ [index] }) s

/-- A launch that has ended is no longer among those that its package has accepted. -/
def dropAccepted (p id : Nat) (s : State) : State := mapPkg p (fun x => { x with accepted := x.accepted.filter (· != id) }) s

theorem endLaunchBlock_eq (h : endAt (launchCtx s (s.launch id)) (s.launch id).queue (s.launch id).cc 0 s = .ok t) :
    endLaunchBlock id index 0 core s = .ok (if (s.launch id).ended.length + 1 = (s.launch id).count then dropAccepted (s.launch id).pkg id (noteEnded id index t)
      else noteEnded id index t) := by
  unfold endLaunchBlock
  dsimp only
  rw [if_pos rfl, h]
  rfl

theorem noteEnded_ended (h : (Table.find? t.launches id).isSome) : ((noteEnded id index t).launch id).ended = (t.launch id).ended ++ [index] := by
  rw [noteEnded, launch_mapLaunch h]

theorem dropAccepted_accepted (p id : Nat) (s : State) : ((dropAccepted p id s).pkg p).accepted = (s.pkg p).accepted.filter (· ≠ id) := by
  rw [dropAccepted, mapPkg, pkg_setPkg_self]
  exact List.filter_congr fun x _ => by simp [bne, beq_eq_decide]

end

/-! One step at a counter record (R325). -/

section
variable {s : State} {c : Ctx} {pl : Place} {st : Word16} {va : Word64} {fuel : Nat}

theorem leNat_lt (bs : List Byte) : leNat bs < 256 ^ bs.length := by
  induction bs with
  | nil => exact Nat.one_pos
  | cons b bs ih =>
    have hb := b.isLt
    rw [leNat, List.length_cons, pow_succ]
    omega

theorem field_lt (bs : List Byte) (o n : Nat) : field bs o n < 256 ^ n :=
  lt_of_lt_of_le (leNat_lt _) (Nat.pow_le_pow_right (by decide) (List.length_take_le ..))

/-- NFAIL after one more end (R325). -/
theorem nfail_eq (n : Nat) (h : n < 256 ^ 4) : (if st ≠ 0 ∧ n < 2 ^ 32 - 1 then n + 1 else n) = if st = 0 then n else min (n + 1) 0xFFFFFFFF := by
  by_cases hs : st = 0
  · simp [hs]
  · simp only [hs, ne_eq, not_false_eq_true, true_and, if_false]
    split <;> omega

/-- The counter record's bytes after one more end (R325). -/
def countedDown (bs : List Byte) (st : Word16) : List Byte :=
  let old : Word16 := BitVec.ofNat 16 (field bs 0x10 2)
  leBytes 8 ((field bs 0 8 + 2 ^ 64 - 1) % 2 ^ 64) ++ leBytes 8 (BitVec.ofNat 64 (field bs 8 8) : Word64).toNat ++
    leBytes 2 (if st ≠ 0 ∧ old = 0 then st else old).toNat ++ leBytes 2 (field bs 0x12 2) ++
    leBytes 4 (if st = 0 then field bs 0x14 4 else min (field bs 0x14 4 + 1) 0xFFFFFFFF)

theorem endRecord_step (hp : controlPlace s c true 32 va = .ok pl) (hb : badAt s c pl.loc 32 = none) :
    let bs := readPlace (folded pl.loc s) c pl 32
    let old : Word16 := BitVec.ofNat 16 (field bs 0x10 2)
    let up : Word64 := BitVec.ofNat 64 (field bs 8 8)
    let b := putDevice pl (countedDown bs st) (folded pl.loc s)
    endRecord c (fuel + 1) va st s =
      if (field bs 0 8 + 2 ^ 64 - 1) % 2 ^ 64 = 0 ∧ up ≠ 0 then endRecord c fuel up (if st ≠ 0 ∧ old = 0 then st else old) b else .ok (none, b) := by
  intro bs old up b
  have hn := nfail_eq (st := st) (field bs 0x14 4) (field_lt ..)
  have hb' : b = putDevice pl (leBytes 8 ((field bs 0 8 + 2 ^ 64 - 1) % 2 ^ 64) ++ leBytes 8 up.toNat ++ leBytes 2 (if st ≠ 0 ∧ old = 0 then st else old).toNat ++
      leBytes 2 (field bs 0x12 2) ++ leBytes 4 (if st ≠ 0 ∧ field bs 0x14 4 < 2 ^ 32 - 1 then field bs 0x14 4 + 1 else field bs 0x14 4)) (folded pl.loc s) := by
    rw [hn]
    rfl
  rw [endRecord, hp]
  dsimp only
  rw [hb, hb']
  rfl

end

end Sys2Proof.Machine
end

section
/-! SUPPORT. O53: groups that change their place at an issue slot, heads that hold a core (R113, R170, R331, R335), and the theorem. -/

open Sys2Proof.Claims

namespace Sys2Proof.Machine

set_option Elab.async false

/-! A group that comes back (R113, R170, R335). -/

section
variable {s : State} {p c w : Nat}

/-- A group back in the set of its issue slot that has room. -/
def cameBack (p c w : Nat) (pc : Word64) (s : State) : State :=
  mapGroup (.group p c w) (fun g => { g with slot := entrySet s (p, c) w, age := 0 }) (mapStream (.group p c w) (fun x => { x with run := .running, spc := pc }) s)

theorem comesBack_cameBack (pc : Word64) : ComesBack (.group p c w) p c w pc s (cameBack p c w pc s) := by
  have hg : (cameBack p c w pc s).group (.group p c w) = { s.group (.group p c w) with slot := entrySet s (p, c) w, age := 0 } := group_setGroup_self ..
  have hst (a : Agent) : (cameBack p c w pc s).stream a = (mapStream (.group p c w) (fun x => { x with run := .running, spc := pc }) s).stream a := rfl
  refine ⟨rfl, fun a ha => ⟨(hst a).trans (stream_mapStream_other s _ ha), group_setGroup_other _ _ ha⟩, (hst _).trans (stream_mapStream_self ..), ?_, ?_⟩
  · rw [hg]
  · rw [hg]
    rfl

variable (hs : isSaved (s.block (s.group (.group p c w)).block) = false)
include hs

theorem exec_groupEligible : exec (.groupEligible (.group p c w)) s = finishEvent s (match (s.stream (.group p c w)).run with
    | .awayWait ld st cp tl =>
      if countersWithin ld st cp tl (s.stream (.group p c w)) then .ok (cameBack p c w (s.stream (.group p c w)).spc s) else .error .stall
    | .awayYield target => if (s.stream (.group p c w)).cp = 0 then .ok (cameBack p c w target s) else .error .stall
    | _ => .error .stall) := by
  change execGroupEligible (.group p c w) s = _
  unfold execGroupEligible
  dsimp only
  rw [hs]
  rfl

theorem groupEligible_waits {ld st cp tl : Nat} (hr : (s.stream (.group p c w)).run = .awayWait ld st cp tl) :
    exec (.groupEligible (.group p c w)) s =
      if (s.stream (.group p c w)).ld ≤ ld ∧ (s.stream (.group p c w)).st ≤ st ∧ (s.stream (.group p c w)).cp ≤ cp ∧ (s.stream (.group p c w)).tl ≤ tl then
        .next (cameBack p c w (s.stream (.group p c w)).spc s) else .next s := by
  have hm : countersWithin ld st cp tl (s.stream (.group p c w)) = true ↔
      (s.stream (.group p c w)).ld ≤ ld ∧ (s.stream (.group p c w)).st ≤ st ∧ (s.stream (.group p c w)).cp ≤ cp ∧ (s.stream (.group p c w)).tl ≤ tl := by
    simp [countersWithin, and_assoc]
  rw [exec_groupEligible hs, hr]
  dsimp only
  rw [if_congr hm rfl rfl]
  split <;> rfl

theorem groupEligible_yields {target : Word64} (hr : (s.stream (.group p c w)).run = .awayYield target) :
    exec (.groupEligible (.group p c w)) s = if (s.stream (.group p c w)).cp = 0 then .next (cameBack p c w target s) else .next s := by
  rw [exec_groupEligible hs, hr]
  dsimp only
  split <;> rfl

end

/-! Two groups of an issue slot change places (R335). -/

section
variable {s : State} {p c w v : Nat}

theorem swapSlots_parts {a b : Agent} (hab : b ≠ a) :
    swapSlots a b s = { s with groups := (swapSlots a b s).groups } ∧ (swapSlots a b s).group a = { s.group a with slot := .pending, age := 0 } ∧
      (swapSlots a b s).group b = { s.group b with slot := .active, age := 0 } ∧ ∀ g, g ≠ a → g ≠ b → (swapSlots a b s).group g = s.group g := by
  refine ⟨rfl, ?_, ?_, fun g ha hb => ?_⟩
  · exact (group_setGroup_other _ _ (Ne.symm hab)).trans (group_setGroup_self ..)
  · refine (group_setGroup_self ..).trans ?_
    rw [mapGroup, group_setGroup_other _ _ hab]
  · exact (group_setGroup_other _ _ hb).trans (group_setGroup_other _ _ ha)

variable (hw : w % 4 = v % 4) (ha : (s.group (.group p c w)).slot = .active) (hb : (s.group (.group p c v)).slot = .pending)
include hw ha hb

theorem slotPair_of : slotPair s (.group p c w) (.group p c v) = true := by simp [slotPair, hw, ha, hb]

omit hw in
theorem slot_agents_ne : Agent.group p c v ≠ .group p c w := fun h => by
  rw [h, ha] at hb
  cases hb

/-- The active group has waited for 32 cycles, and the pending one has been ready longest (R335). -/
def WaitSwapDue (s : State) (p c w v : Nat) : Prop :=
  32 ≤ (s.group (.group p c w)).age ∧ 1 ≤ (s.group (.group p c v)).age ∧
    ∀ g, g ∈ slotGroups s (p, c) (w % 4) .pending → (s.group g).age ≤ (s.group (.group p c v)).age

/-- The pending group has been ready for 256 cycles, and the active one issued least recently (R335). -/
def ReadySwapDue (s : State) (p c w v : Nat) : Prop :=
  256 ≤ (s.group (.group p c v)).age ∧ ∀ g, g ∈ slotGroups s (p, c) (w % 4) .active → lastIssued (s.group (.group p c w)) ≤ lastIssued (s.group g)

/-- The test of the waiting swap. -/
theorem waitSwapDue_iff : (slotPair s (.group p c w) (.group p c v) && decide (32 ≤ (s.group (.group p c w)).age) &&
      (decide (1 ≤ (s.group (.group p c v)).age) && (slotGroups s (p, c) (v % 4) .pending).all fun a => decide ((s.group a).age ≤ (s.group (.group p c v)).age))) = true ↔
    WaitSwapDue s p c w v := by
  rw [slotPair_of hw ha hb, WaitSwapDue, hw]
  simp

/-- The test of the ready swap. -/
theorem readySwapDue_iff : (slotPair s (.group p c w) (.group p c v) && decide (256 ≤ (s.group (.group p c v)).age) &&
      (slotGroups s (p, c) (w % 4) .active).all fun a => decide (lastIssued (s.group (.group p c w)) ≤ lastIssued (s.group a))) = true ↔
    ReadySwapDue s p c w v := by
  rw [slotPair_of hw ha hb, ReadySwapDue]
  simp

theorem activeWaitSwap_swaps (h : WaitSwapDue s p c w v) :
    exec (.activeWaitSwap (.group p c w) (.group p c v)) s = .next (swapSlots (.group p c w) (.group p c v) s) :=
  congrArg (finishEvent s) (if_pos ((waitSwapDue_iff hw ha hb).mpr h))

theorem activeWaitSwap_stays (h : ¬WaitSwapDue s p c w v) : exec (.activeWaitSwap (.group p c w) (.group p c v)) s = .next s :=
  congrArg (finishEvent s) (if_neg fun k => h ((waitSwapDue_iff hw ha hb).mp k))

theorem pendingReadySwap_swaps (h : ReadySwapDue s p c w v) :
    exec (.pendingReadySwap (.group p c w) (.group p c v)) s = .next (swapSlots (.group p c w) (.group p c v) s) :=
  congrArg (finishEvent s) (if_pos ((readySwapDue_iff hw ha hb).mpr h))

theorem pendingReadySwap_stays (h : ¬ReadySwapDue s p c w v) : exec (.pendingReadySwap (.group p c w) (.group p c v)) s = .next s :=
  congrArg (finishEvent s) (if_neg fun k => h ((readySwapDue_iff hw ha hb).mp k))

end

/-! A head unplaced for long holds a core (R330, R331). -/

section
variable {s : State} {p q id : Nat}

/-- A core that no head holds. -/
def coreFree (s : State) (p c : Nat) : Bool := !(s.core (p, c)).fenced && (s.core (p, c)).reserved == none

theorem coreFree_iff {c : Nat} : coreFree s p c = true ↔ (s.core (p, c)).fenced = false ∧ (s.core (p, c)).reserved = none := by simp [coreFree]

theorem headReserve_young (h : (queueAt s p q).unplaced < 1048576) : exec (.headReserve p q) s = .next s := by
  change execHeadReserve p q s = _
  unfold execHeadReserve
  dsimp only
  rw [decide_eq_false (Nat.not_le.mpr h), Bool.and_false, Bool.false_and]
  rfl

theorem exec_headReserve (hl : headLaunch s p q = some id) (hm : (s.launch id).mcode = 0) (he : (queueAt s p q).eligible = true)
    (hr : ∀ e, e ∈ s.cores → e.2.reserved ≠ some (p, q)) (h : 1048576 ≤ (queueAt s p q).unplaced) :
    exec (.headReserve p q) s = finishEvent s (match (logicalCores s p).find? (coreFree s p) with
      | none => .error .stall
      | some c => .ok (mapCore (p, c) (fun k => { k with reserved := some (p, q) }) s)) := by
  have hnone : (s.cores.any fun c => c.2.reserved == some (p, q)) = false := by
    simp only [List.any_eq_false, beq_iff_eq]
    exact hr
  change execHeadReserve p q s = _
  unfold execHeadReserve
  dsimp only
  rw [he, decide_eq_true h, hnone, hl]
  refine congrArg (finishEvent s) ((if_pos rfl).trans (if_neg ?_))
  simp [hm]

theorem headReserve_holds {before after : List Nat} {c : Nat} (hl : headLaunch s p q = some id) (hm : (s.launch id).mcode = 0)
    (he : (queueAt s p q).eligible = true) (hr : ∀ e, e ∈ s.cores → e.2.reserved ≠ some (p, q)) (h : 1048576 ≤ (queueAt s p q).unplaced)
    (hc : logicalCores s p = before ++ c :: after) (hbefore : ∀ d, d ∈ before → ¬coreFree s p d = true) (hfree : coreFree s p c = true) :
    exec (.headReserve p q) s = .next (s.setCore (p, c) { s.core (p, c) with reserved := some (p, q) }) := by
  have hnone : before.find? (coreFree s p) = none := List.find?_eq_none.mpr hbefore
  rw [exec_headReserve hl hm he hr h, hc, List.find?_append, hnone, Option.none_or, List.find?_cons_of_pos hfree]
  rfl

end

/-- A home key made of its package and its offset (R285). -/
theorem keyTgt_physKey {p off : Nat} (h : off < 2 ^ 44) : keyTgt (physKey p 0 off) = 0 ∧ keyOff (physKey p 0 off) = off := by
  unfold keyTgt keyOff physKey
  omega

end Sys2Proof.Machine

open Sys2Proof Sys2Proof.Machine Sys2Proof.Claims

/-- Settles O53: the outcomes of each event by its test, the device writes by the bytes at the two homes. -/
theorem blocksEndAndSlotsChange : Obligations.BlocksEndAndSlotsChange := by
  intro s
  refine ⟨fun blk b hb hpre => ?_, fun id index st core t ht hst hfound => ?_, fun hc k bs pl hpl hk ho => ?_, fun hc p off bs ho => ?_,
    fun c fuel va st pl hp hb => ?_, fun p c w => ?_, fun p c w v => ?_, fun p q id hl hm he hr => ?_⟩
  · intro finished settled early failed st core
    have hs := isSaved_false hpre
    refine ⟨blockEnd_unfinished hb, blockEnd_commits hb hs, blockEnd_waits hb hs, fun hf hh hn hd y hy hgroups hsaved => ?_⟩
    have hy' : endLaunchBlock b.launch b.index (blockStatus s b) (logicalNum s (b.pkg, b.core)) s = .ok y := by
      rw [blockStatus_eq]
      exact hy
    obtain ⟨hgone, hfreed, hothers, hblocks, hrest⟩ := hgroups ▸ blockRemoved (blk := blk) hsaved
    exact ⟨_, blockEnd_ends hb hs hf hh hn hd hy', hgone, hfreed, hothers, hblocks, hrest⟩
  · subst hst
    refine ⟨_, endLaunchBlock_eq ht, ?_, ?_, fun hne => ?_, fun heq => ?_⟩
    · split <;> exact noteEnded_ended hfound
    · split <;> rfl
    · rw [if_neg hne]
      rfl
    · rw [if_pos heq, dropAccepted_accepted]
      rfl
  · rw [putDevice, hpl]
    exact deviceWritten_devicePuts hc (apart_of_home hk ho)
  · obtain ⟨hk, hoff⟩ := keyTgt_physKey (p := p) (off := off) (by unfold ctlSize at ho; omega)
    exact deviceWritten_devicePuts hc (apart_of_home hk (hoff.symm ▸ ho))
  · intro bs count up old st' nfail b
    have h := endRecord_step (fuel := fuel) (st := st) hp hb
    refine ⟨fun hlast => h.trans (if_neg fun hmore => ?_), fun h0 hup => h.trans (if_pos ⟨h0, hup⟩)⟩
    exact hlast.elim (fun hn => hn hmore.1) (fun hz => hmore.2 hz)
  · intro ag hs
    refine ⟨fun ld st cp tl hr => ⟨fun h => ⟨_, ?_, comesBack_cameBack _⟩, fun h => ?_⟩, fun target hr => ⟨fun h => ⟨_, ?_, comesBack_cameBack _⟩, fun h => ?_⟩⟩
    · rw [groupEligible_waits hs hr, if_pos h]
    · rw [groupEligible_waits hs hr, if_neg h]
    · rw [groupEligible_yields hs hr, if_pos h]
    · rw [groupEligible_yields hs hr, if_neg h]
  · intro a b hw ha hb swapped waiting working last
    have hparts := swapSlots_parts (s := s) (slot_agents_ne ha hb)
    refine ⟨fun h1 h2 h3 => ⟨_, activeWaitSwap_swaps hw ha hb ⟨h1, h2, h3⟩, hparts⟩, fun h => activeWaitSwap_stays hw ha hb ?_,
      fun h1 h2 => ⟨_, pendingReadySwap_swaps hw ha hb ⟨h1, h2⟩, hparts⟩, fun h => pendingReadySwap_stays hw ha hb ?_⟩
    · rintro ⟨h1, h2, h3⟩
      rcases h with h | h | ⟨g, hg, h⟩
      · exact absurd h1 (Nat.not_le.mpr h)
      · exact absurd h2 (by rw [h]; decide)
      · exact absurd (h3 g hg) (Nat.not_le.mpr h)
    · rintro ⟨h1, h2⟩
      rcases h with h | ⟨g, hg, h⟩
      · exact absurd h1 (Nat.not_le.mpr h)
      · exact absurd (h2 g hg) (Nat.not_le.mpr h)
  · intro free
    exact ⟨headReserve_young, fun before c after h hc hbefore hfree =>
      headReserve_holds hl hm he hr h hc (fun d hd hx => hbefore d hd (coreFree_iff.mp hx)) (coreFree_iff.mpr hfree)⟩
end
